-- ==== Sys2Proof/Word.lean ====
section
/-! DEFINITION. The word types of the machine (R7, R26, R71): bytes, 32-, 64- and 128-bit register contents, the
96-bit instruction word, and the sparse maps that hold memories and register files. -/

namespace Sys2Proof

/-- One byte of memory. -/
abbrev Byte := BitVec 8
/-- A 32-bit register value, the immediate word. -/
abbrev Word := BitVec 32
/-- A 64-bit value: a w register, a pointer, a register pair. -/
abbrev Long := BitVec 64
/-- A 128-bit value: a register quad. -/
abbrev Quad := BitVec 128
/-- One bit for each of the 32 threads of a rank. -/
abbrev Mask := BitVec 32
/-- The 96-bit instruction word (R26). -/
abbrev IWord := BitVec 96
/-- A map from numbers to values, as a list of (key, value) pairs with rising keys in which an unlisted key stands for a
default that the reading operation names. -/
abbrev Sparse (α : Type) := List (Nat × α)

end Sys2Proof
end

