-- ==== Sys2Proof/Machine/Sparse.lean ====
section
/-! DEFINITION. Maps as lists with rising keys, memory bytes, little-endian numbers (R7) and bit helpers. -/

namespace Sys2Proof.Machine

variable {α : Type}

/-- The value at a key. -/
def sget (k : Nat) : Sparse α → Option α
  | [] => none
  | (k', a) :: m => if k = k' then some a else if k < k' then none else sget k m

/-- Set the value at a key, keeping keys rising. -/
def sset (k : Nat) (a : α) : Sparse α → Sparse α
  | [] => [(k, a)]
  | (k', b) :: m => if k < k' then (k, a) :: (k', b) :: m else if k = k' then (k, a) :: m else (k', b) :: sset k a m

/-- Remove a key. -/
def sdel (k : Nat) : Sparse α → Sparse α
  | [] => []
  | (k', b) :: m => if k < k' then (k', b) :: m else if k = k' then m else (k', b) :: sdel k m

def sgetD (k : Nat) (d : α) (m : Sparse α) : α := (sget k m).getD d

/-- Set the value at a key, where an unlisted key reads d: writing d removes the entry. -/
def sput [DecidableEq α] (d : α) (k : Nat) (a : α) (m : Sparse α) : Sparse α := if a = d then sdel k m else sset k a m

/-- Change the value at a listed key. -/
def smod (k : Nat) (f : α → α) (m : Sparse α) : Sparse α :=
  match sget k m with
  | some a => sset k (f a) m
  | none => m

/-- a before the first element that it does not come after. -/
def insertBy {β : Type} (le : β → β → Bool) (a : β) : List β → List β
  | [] => [a]
  | b :: l => if le a b then a :: b :: l else b :: insertBy le a l

/-- A stable sort. -/
def sortBy {β : Type} (le : β → β → Bool) (l : List β) : List β := l.foldr (insertBy le) []

/-- Keys rise strictly. -/
def rising : List Nat → Bool
  | a :: b :: l => decide (a < b) && rising (b :: l)
  | _ => true

/-- The canonical form: keys rise and no entry holds what an unlisted key reads. -/
def canonical [DecidableEq α] (d : α) (m : Sparse α) : Bool := rising (m.map (·.1)) && m.all fun e => decide (e.2 ≠ d)

/-! ### Bytes -/

/-- Memory: an unlisted byte reads 0 (log 2). -/
abbrev Mem := Sparse Byte

/-- The canonical form of memory. -/
def Mem.wf (m : Mem) : Bool := canonical (0 : Byte) m

def byteAt (m : Mem) (a : Nat) : Byte := sgetD a 0 m
def setByte (m : Mem) (a : Nat) (b : Byte) : Mem := sput 0 a b m

/-- n bytes from address a. -/
def readBytes (m : Mem) (a : Nat) : Nat → List Byte
  | 0 => []
  | n + 1 => byteAt m a :: readBytes m (a + 1) n

def writeBytes (m : Mem) (a : Nat) : List Byte → Mem
  | [] => m
  | b :: bs => writeBytes (setByte m a b) (a + 1) bs

/-- The bytes of an address range read 0. -/
def zeroRange (m : Mem) (a n : Nat) : Mem := m.filter fun e => decide (e.1 < a) || decide (a + n ≤ e.1)

/-- Little-endian (R7). -/
def leNat : List Byte → Nat
  | [] => 0
  | b :: bs => b.toNat + 256 * leNat bs

def leBytes (x : Nat) : Nat → List Byte
  | 0 => []
  | n + 1 => BitVec.ofNat 8 x :: leBytes (x / 256) n

/-- The number in bytes off to off + n − 1 of a list. -/
def field (bs : List Byte) (off n : Nat) : Nat := leNat ((bs.drop off).take n)

/-- Bits lo to lo + n − 1 of a number. -/
def bits (x lo n : Nat) : Nat := x / 2 ^ lo % 2 ^ n

def bit (x lo : Nat) : Bool := x / 2 ^ lo % 2 == 1

/-- A number read as two's complement of width n. -/
def signed (x n : Nat) : Int := if 2 * (x % 2 ^ n) < 2 ^ n then (x % 2 ^ n : Nat) else (x % 2 ^ n : Nat) - (2 ^ n : Nat)

/-- Replace bytes off to off + length of new − 1. -/
def patch (bs : List Byte) (off : Nat) (new : List Byte) : List Byte := bs.take off ++ new ++ bs.drop (off + new.length)

def zeros (n : Nat) : List Byte := List.replicate n 0

/-- Threads of a mask, in rising order. -/
def threadsOf (m : Mask) : List Nat := (List.range 32).filter fun t => m.getLsbD t

def maskOf (f : Nat → Bool) : Mask := (List.range 32).foldl (fun m t => if f t then m ||| (1#32 <<< t) else m) 0

def Mask.has (m : Mask) (t : Nat) : Bool := BitVec.getLsbD m t

def setBit (m : Mask) (t : Nat) (b : Bool) : Mask := if b then m ||| (1#32 <<< t) else m &&& ~~~(1#32 <<< t)

def countMask (m : Mask) : Nat := (threadsOf m).length

/-- Change one element of a list. -/
def modAt (l : List α) (i : Nat) (f : α → α) : List α :=
  match l[i]? with
  | some a => l.set i (f a)
  | none => l

def minList : List Nat → Option Nat
  | [] => none
  | a :: l => match minList l with
    | none => some a
    | some b => some (min a b)

/-- Remove the element at an index. -/
def dropAt (l : List α) (i : Nat) : List α := l.take i ++ l.drop (i + 1)

def ceilDiv (a b : Nat) : Nat := (a + b - 1) / b

end Sys2Proof.Machine
end

