-- ==== Sys2Proof/Syntax.lean ====
section
/-! DEFINITION. The instructions and events of spec/opcode_table.json, one constructor of Instr for each row. -/

namespace Sys2Proof

/-- The type codes of R32. -/
inductive Ty where
  | b8 | b16 | b32 | b64 | b128 | s8 | s16 | s32 | s64 | s4 | f16 | bf16 | tf32 | f32 | f64 | e4m3 | e5m2 | f16x2 | bf16x2
  | mx4 | mx8 | dx4 | dx8
  deriving DecidableEq, Repr, Inhabited

/-- The rounding codes of R33. -/
inductive Rnd where
  | rne | rz | ru | rd
  deriving DecidableEq, Repr, Inhabited

/-- The special values of R22. -/
inductive Special where
  | zero | tid | lane | rank | grpid | teamid | launchid | ctxid | clk
  deriving DecidableEq, Repr, Inhabited

/-- An operand specifier (R21). -/
inductive Opnd where
  | v (i : BitVec 8)
  | w (i : BitVec 6)
  | o (i : BitVec 3)
  | y (i : BitVec 2)
  | sp (s : Special)
  | p (i : BitVec 4)
  | j (i : BitVec 4)
  | t (i : BitVec 4)
  | a (i : BitVec 3)
  | b (i : BitVec 7)
  | imm
  deriving DecidableEq, Repr, Inhabited

/-- Guard and hint byte (R26, R27). -/
structure Ctl where
  gidx : BitVec 4
  gneg : Bool
  pend : Bool
  dly : BitVec 3
  keep : BitVec 2
  fsh : Bool
  deriving DecidableEq, Repr, Inhabited

/-- Class-T word with one source. -/
structure Alu1 where
  c : Ctl
  ty : Ty
  rm : Rnd
  d : Opnd
  a : Opnd
  imm : Word
  deriving DecidableEq, Repr, Inhabited

/-- Class-T word with two sources. -/
structure Alu2 where
  c : Ctl
  ty : Ty
  rm : Rnd
  d : Opnd
  a : Opnd
  b : Opnd
  imm : Word
  deriving DecidableEq, Repr, Inhabited

/-- Class-T word with the three-source layout; x is operand C. -/
structure Alu3 where
  c : Ctl
  ty : Ty
  rm : Rnd
  d : Opnd
  a : Opnd
  b : Opnd
  x : Opnd
  deriving DecidableEq, Repr, Inhabited

inductive MulFn where
  | lo | hi | wide
  deriving DecidableEq, Repr, Inhabited

inductive Cmp where
  | eq | ne | lt | le | gt | ge
  deriving DecidableEq, Repr, Inhabited

inductive FCmp where
  | eq | ne | lt | le | gt | ge | num | nan
  deriving DecidableEq, Repr, Inhabited

inductive PsetFn where
  | and | or | xor | andn | orn
  deriving DecidableEq, Repr, Inhabited

inductive CensusFn where
  | none | some | most | all | mixed | same
  deriving DecidableEq, Repr, Inhabited

inductive SameFn where
  | mask | lead | count | whole
  deriving DecidableEq, Repr, Inhabited

inductive ShflFn where
  | from | rot | shift | bfly
  deriving DecidableEq, Repr, Inhabited

inductive RedFn where
  | add | min | max | and | or | xor
  deriving DecidableEq, Repr, Inhabited

inductive SignFn where
  | abs | neg | copy
  deriving DecidableEq, Repr, Inhabited

inductive ActFn where
  | relu | gelu | silu
  deriving DecidableEq, Repr, Inhabited

/-- The atomic operations of R132. -/
inductive AtomFn where
  | add | min | max | and | or | xor | exch | cas | inc | dec | fadd | fmin | fmax
  deriving DecidableEq, Repr, Inhabited

/-- The spaces PTR.mk builds pointers of (R91). -/
inductive MkSpace where
  | ctl | ten | loc
  deriving DecidableEq, Repr, Inhabited

/-- The timelines of R33. -/
inductive Tl where
  | copy | gath | mat | coll | xs | q
  deriving DecidableEq, Repr, Inhabited

/-- The shapes of R167. -/
inductive Shape where
  | t1x1 | t2x1 | t1x2 | t2x2
  deriving DecidableEq, Repr, Inhabited

/-- A scope code of R267; 0 is none, 12 to 15 are reserved. -/
abbrev Scope := BitVec 4

/-- LD, LDU, LDX, LR (R125). -/
structure LoadOp where
  c : Ctl
  ty : Ty
  acq : Bool
  sc : Scope
  pol : BitVec 2
  d : Opnd
  a : Opnd
  disp : Word
  deriving DecidableEq, Repr, Inhabited

/-- ST, STC, SC (R125): D is zero for ST. -/
structure StoreOp where
  c : Ctl
  ty : Ty
  rel : Bool
  sc : Scope
  pol : BitVec 2
  d : Opnd
  a : Opnd
  b : Opnd
  disp : Word
  deriving DecidableEq, Repr, Inhabited

/-- XST (R133). -/
structure XstOp where
  c : Ctl
  ty : Ty
  rel : Bool
  sc : Scope
  fl : BitVec 2
  ord : Bool
  a : Opnd
  b : Opnd
  disp : Word
  deriving DecidableEq, Repr, Inhabited

/-- ATOM and XATOM (R130, R131). fl is the flow label of XATOM and 00 for ATOM. -/
structure AtomOp where
  c : Ctl
  op : AtomFn
  acq : Bool
  rel : Bool
  sc : Scope
  fl : BitVec 2
  nr : Bool
  ty : Ty
  d : Opnd
  a : Opnd
  b : Opnd
  x : Opnd
  disp : BitVec 16
  deriving DecidableEq, Repr, Inhabited

/-- Engine commands (R147). -/
structure Eng where
  c : Ctl
  tl : Bool
  bar : Bool
  evt : Bool
  fl : BitVec 2
  d : Opnd
  a : Opnd
  b : Opnd
  deriving DecidableEq, Repr, Inhabited

/-- BCVT's extra modifiers (R120). -/
structure Bcvt where
  sat : Bool
  v : Bool
  res : Bool
  ef : Bool
  dist : BitVec 4
  deriving DecidableEq, Repr, Inhabited

/-- MMA's fields (R167). -/
structure MmaOp where
  shape : Shape
  z : Bool
  sat : Bool
  kr : Bool
  ctr : BitVec 2
  d : Opnd
  a : Opnd
  b : Opnd
  kb0 : BitVec 12
  kbn : BitVec 12
  brow : BitVec 4
  arow : BitVec 4
  deriving DecidableEq, Repr, Inhabited

/-- A packet of the fabric as its destination sees it: the header of R315 and the operation record. sealKey is the key its
body was sealed with and intact says that header and body arrived unchanged: decryption (R319) succeeds exactly when
intact holds and the destination's entry for keyid is valid and holds sealKey. part, ty and len carry what a home needs
and the record has no named place for: the request's partition (R288), an atomic's type, the bytes a read asks for, the whole access of which the packet is a piece (log 11). -/
structure Packet where
  dst : BitVec 12
  src : BitVec 12
  sctx : BitVec 12
  keyid : BitVec 12
  kind : BitVec 8
  /-- the plane that it travels on (R311): 0 control, 1 tensor -/
  plane : BitVec 2
  ord : Bool
  flabel : BitVec 2
  path : BitVec 2
  hops : BitVec 3
  route : BitVec 24
  fseq : BitVec 16
  dseq : BitVec 32
  nctr : BitVec 64
  addr : Long
  tag : BitVec 32
  opinfo : BitVec 8
  status : BitVec 8
  data : List Byte
  sealKey : BitVec 256
  intact : Bool
  part : BitVec 6
  ty : Ty
  len : Nat
  /-- the whole of a rank's access, of which the packet is a piece: pointer and bytes (R290) -/
  whole : Option (Long × Nat) := none
  deriving DecidableEq, Repr, Inhabited

/-- BLEN: the operation record's 16 bytes and the data (R315). -/
def Packet.blen (p : Packet) : Nat := 16 + p.data.length

/-- What a request says that the operation record has no place for (log 11). -/
structure PacketRest where
  part : BitVec 6
  ty : Ty
  len : Nat
  whole : Option (Long × Nat)
  deriving DecidableEq, Repr, Inhabited

/-- A flit (R314): its header, its payload and its link tag. -/
structure Flit where
  plane : BitVec 2
  chan : BitVec 3
  fidx : BitVec 4
  last : Bool
  lseq : BitVec 32
  crchan : BitVec 4
  crcnt : BitVec 8
  payload : List Byte
  tag : BitVec 64
  deriving DecidableEq, Repr, Inhabited

/-- A control core's store into the package control block (R394). hyper: made at hypervisor level. -/
structure PcbStore where
  off : Nat
  data : List Byte
  hyper : Bool
  deriving DecidableEq, Repr, Inhabited

/-- A launch frame of an Ethernet port (R393). -/
structure LaunchFrame where
  port : Nat
  part : BitVec 6
  srcmac : BitVec 48
  keyid : BitVec 12
  sealKey : BitVec 256
  intact : Bool
  bytes : List Byte
  deriving DecidableEq, Repr, Inhabited

/-- A host command over the SPDM session (R396). inSession: it came inside a verified session (R392). -/
structure HostCmd where
  cmd : BitVec 16
  flags : BitVec 16
  len : BitVec 32
  seq : BitVec 64
  body : List Byte
  inSession : Bool
  deriving DecidableEq, Repr, Inhabited

/-- A table load of the fabric manager (R310): route entries, scope entries, and the figures of SCOPETAB. -/
structure TableLoad where
  routes : List (Nat × BitVec 128)
  scopes : List (Nat × BitVec 4)
  ndom : BitVec 13
  self : BitVec 12
  /-- the packages of the coherence domain by position, 0 to 63, which the fabric manager assigns (R327; log 33) -/
  domain : List (BitVec 12) := []
  deriving DecidableEq, Repr, Inhabited

/-- A mirror that is named for a region (R328, R329): its package, its power feed, and whether the pairing overrides the rule of R387. -/
structure MirrorOffer where
  pkg : BitVec 12
  feed : Nat
  override : Bool
  deriving DecidableEq, Repr, Inhabited

/-- A request for a reduction slot (R324), or an answer to one: grant holds the answer of another router. -/
structure SlotReq where
  asker : BitVec 12
  router : BitVec 12
  keyid : BitVec 12
  collid : BitVec 32
  grant : Option Bool
  deriving DecidableEq, Repr, Inhabited

/-- What patrol scrub found in a row (R297). -/
inductive ScrubResult where
  | clean | corrected | uncorrectable
  deriving DecidableEq, Repr, Inhabited

/-- The outcome of one boot step and unit (R390, R391). -/
structure BootOutcome where
  step : BitVec 8
  unit : BitVec 8
  ok : Bool
  code : BitVec 16
  deriving DecidableEq, Repr, Inhabited

/-- An engine (R147). -/
inductive EngineId where
  | copy (core : Nat)
  | gather (quad : Nat)
  | coll (k : Nat)
  deriving DecidableEq, Repr, Inhabited

/-- The rows of the opcode table. -/
inductive Instr where
  -- words of thread code and of the M-stream
  | nop (c : Ctl)
  | illegalOpcode (w : IWord)
  | extensionOpcode (w : IWord)
  | iadd (sat : Bool) (x : Alu2)
  | isub (sat : Bool) (x : Alu2)
  | imul (f : MulFn) (x : Alu2)
  | imad (f : MulFn) (x : Alu3)
  | idiv (rem : Bool) (x : Alu2)
  | imin (x : Alu2)
  | imax (x : Alu2)
  | iabs (sat : Bool) (x : Alu1)
  | ineg (sat : Bool) (x : Alu1)
  | iset (cc : Cmp) (x : Alu2)
  | idot (sat : Bool) (x : Alu3)
  | and (inv : Bool) (x : Alu2)
  | or (inv : Bool) (x : Alu2)
  | xor (x : Alu2)
  | not (x : Alu1)
  | lut (tab : BitVec 16) (x : Alu3)
  | shl (x : Alu2)
  | shr (arith : Bool) (x : Alu2)
  | rot (right : Bool) (x : Alu2)
  | shf (right : Bool) (x : Alu3)
  | popc (x : Alu1)
  | clz (x : Alu1)
  | ctz (x : Alu1)
  | brev (x : Alu1)
  | bfx (sx : Bool) (x : Alu3)
  | bfi (x : Alu3)
  | bmix (x : Alu3)
  | mov (x : Alu1)
  | sel (x : Alu3)
  | pset (f : PsetFn) (x : Alu2)
  | pmovPack (c : Ctl) (d : Opnd)
  | pmovUnpack (c : Ctl) (a : Opnd)
  | lea (c : Ctl) (sh : BitVec 3) (zx : Bool) (d a b x : Opnd)
  | ptrMk (c : Ctl) (sp : MkSpace) (d a b : Opnd) (imm : Word)
  | ptrAdd (c : Ctl) (d a b : Opnd) (imm : Word)
  | ptrChk (c : Ctl) (d a b : Opnd) (imm : Word)
  | bra (c : Ctl) (imm : Word)
  | brx (c : Ctl) (a : Opnd)
  | call (c : Ctl) (imm : Word)
  | callx (c : Ctl) (a : Opnd)
  | ret (c : Ctl)
  | join (c : Ctl) (d : Opnd)
  | wait (c : Ctl) (a b : Opnd) (imm : Word)
  | jset (c : Ctl) (d a : Opnd) (imm : Word)
  | exit (c : Ctl)
  | bkpt (c : Ctl) (code : BitVec 16)
  | ballot (x : Alu1)
  | census (f : CensusFn) (x : Alu1)
  | same (f : SameFn) (x : Alu1)
  | shfl (f : ShflFn) (seg : BitVec 3) (x : Alu3)
  | red (f : RedFn) (x : Alu1)
  | scan (f : RedFn) (excl : Bool) (x : Alu1)
  | bcast (x : Alu2)
  | fadd (x : Alu2)
  | fsub (x : Alu2)
  | fmul (x : Alu2)
  | ffma (ftz : Bool) (x : Alu3)
  | fmin (x : Alu2)
  | fmax (x : Alu2)
  | fset (cc : FCmp) (x : Alu2)
  | fsign (f : SignFn) (x : Alu2)
  | fdiv (x : Alu2)
  | fsqrt (x : Alu1)
  | frcp (x : Alu1)
  | frsq (x : Alu1)
  | fexp2 (x : Alu1)
  | flog2 (x : Alu1)
  | fsin (x : Alu1)
  | fcos (x : Alu1)
  | ftanh (x : Alu1)
  | fclass (x : Alu1)
  | frnd (x : Alu1)
  | fdot (ftz : Bool) (x : Alu3)
  | fact (f : ActFn) (x : Alu1)
  | cvt (sat : Bool) (sty : Ty) (x : Alu1)
  | bcvtPack (m : Bcvt) (x : Alu1)
  | bcvtUnpack (m : Bcvt) (x : Alu2)
  | ld (x : LoadOp)
  | st (x : StoreOp)
  | ldu (x : LoadOp)
  | ldx (x : LoadOp)
  | stc (x : StoreOp)
  | lr (x : LoadOp)
  | sc (x : StoreOp)
  | atom (x : AtomOp)
  | xst (x : XstOp)
  | xatom (x : AtomOp)
  | fenceAcq (c : Ctl) (sc : Scope)
  | fenceRel (c : Ctl) (sc : Scope)
  | fenceAr (c : Ctl) (sc : Scope)
  | fenceSc (c : Ctl) (sc : Scope)
  | fenceAck (c : Ctl)
  | fenceTc (c : Ctl) (sc : Scope)
  | cflushWb (c : Ctl) (a : Opnd) (disp : Word)
  | cflushInv (c : Ctl) (a : Opnd) (disp : Word)
  | cflushWbinv (c : Ctl) (a : Opnd) (disp : Word)
  | pref (c : Ctl) (pol : BitVec 2) (a : Opnd) (disp : Word)
  | barCfg (c : Ctl) (a b : Opnd) (imm : Word)
  | barArv (c : Ctl) (sc : Scope) (d a : Opnd) (imm : Word)
  | barWait (c : Ctl) (sc : Scope) (a b : Opnd) (imm : Word)
  | barSync (c : Ctl) (sc : Scope) (a : Opnd) (imm : Word)
  | barAdd (c : Ctl) (sc : Scope) (a b : Opnd) (imm : Word)
  | barTest (c : Ctl) (sc : Scope) (d a b : Opnd) (imm : Word)
  | tlWait (c : Ctl) (sc : Scope) (tl : Tl) (d a : Opnd) (imm : Word)
  | tlRead (c : Ctl) (tl : Tl) (d : Opnd) (imm : Word)
  | copy (e : Eng)
  | copyPl (t : BitVec 4) (e : Eng)
  | gather (e : Eng)
  | scadd (e : Eng)
  | sort (e : Eng)
  | tcfg (c : Ctl) (wait : Bool) (d a : Opnd) (scaleoff : BitVec 20)
  | trel (c : Ctl) (wait : Bool) (a : Opnd)
  | acfgTake (c : Ctl) (d a : Opnd)
  | acfgRel (c : Ctl) (a : Opnd)
  | peer (c : Ctl) (n : BitVec 3) (a b : Opnd)
  | mstart (c : Ctl) (a : Opnd)
  | coll (e : Eng)
  | mma (m : MmaOp)
  | mzero (shape : Shape) (d : Opnd)
  | mepi (shape : Shape) (a : Opnd) (desc : BitVec 19)
  | mwait (sc : Scope) (pr : Bool) (ctr : BitVec 2) (a : Opnd) (phase : Word)
  | marv (sc : Scope) (a : Opnd) (amount : Word)
  | mloop (ctr : BitVec 2) (limit : BitVec 12) (off : BitVec 20)
  | mjmp (off : Word)
  | mstop
  | trap (c : Ctl) (code : BitVec 16)
  | rtt (c : Ctl)
  | srd (c : Ctl) (d : Opnd) (num : BitVec 12) (idx : BitVec 3)
  | swr (c : Ctl) (a : Opnd) (num : BitVec 12) (idx : BitVec 3)
  | yield (c : Ctl)
  | launch (c : Ctl) (a : Opnd)
  | evqPost (c : Ctl) (a b : Opnd)
  | ctxFrz (c : Ctl) (a : Opnd)
  | ctxSav (c : Ctl) (a b : Opnd)
  | ctxLd (c : Ctl) (a b : Opnd)
  | ctxRes (c : Ctl) (a : Opnd)
  | xinv (c : Ctl) (a b : Opnd)
  | bufset (c : Ctl) (a b : Opnd)
  | eread (c : Ctl) (d : Opnd)
  | halt (c : Ctl)
  -- events of the package
  | loadResponse (k : Nat)
  | lineFill (g r : Nat)
  | impreciseFaultTaken (g r : Nat)
  | laneChoice (core lane : Nat)
  | staticEnergyBoundary
  | homeRequest (k : Nat)
  | engineCommandStart (e : EngineId)
  | engineAccessFault (k : Nat)
  | commandComplete (k : Nat)
  | reducerAdd (k : Nat)
  | mmaKblockWrite (g k : Nat)
  | mepiRowRetire (g k : Nat)
  | launchWindowWrite (q : Nat) (data : List Byte)
  | launchFrame (f : LaunchFrame)
  | dispatchRound
  | roomHold (q : Nat)
  | queueTableWrite (st : PcbStore)
  | contextTableWrite (st : PcbStore)
  | hostContextTableWrite (st : PcbStore)
  | hevqWrite (st : PcbStore)
  | ctxStepWindowFrz (st : PcbStore)
  | ctxStepWindowSav (st : PcbStore)
  | ctxStepWindowLd (st : PcbStore)
  | ctxStepWindowRes (st : PcbStore)
  | ctxStepComplete (k : Nat)
  | yieldTrap (g : Nat)
  | yieldDeadline (ctx : Nat)
  -- packets of the fabric
  | write (p : Packet)
  | atomicReturning (p : Packet)
  | atomicNotReturning (p : Packet)
  | readRequest (p : Packet)
  | readResponse (p : Packet)
  | acknowledgement (p : Packet)
  | refusal (p : Packet)
  | peerPut (p : Packet)
  | peerAdd (p : Packet)
  | reductionContribution (p : Packet)
  | reductionResult (p : Packet)
  | slotRequest (r : SlotReq)
  | readShared (p : Packet)
  | readOwn (p : Packet)
  | upgrade (p : Packet)
  | writeBack (p : Packet)
  | invalidate (p : Packet)
  | lineData (p : Packet)
  | mirrorWrite (p : Packet)
  | mirrorAcknowledgement (p : Packet)
  | homeChange (p : Packet)
  | launchPacket (p : Packet)
  | flitReceive (port : Nat) (f : Flit)
  | linkReplayRequest (port : Nat) (lseq : BitVec 32)
  | portLockNotice (port : Nat) (pkg : BitVec 12)
  | resetNotice (src sctx : BitVec 12)
  | ordRetryResend (k : Nat)
  | peerRetryResend (k : Nat)
  | tableLoad (t : TableLoad)
  | heartbeat
  | lossAnnouncement (pkg : BitVec 12)
  | mirrorTakeover (region : Nat)
  | mirrorNamed (region : Nat) (mirror : MirrorOffer)
  -- memory and management
  | zeroingComplete (k : Nat)
  | patrolScrub (chan row : Nat) (found : ScrubResult)
  | refresh (chan row : Nat)
  | layerRetireProceed (stack layer : Nat)
  | layoutPrepare (h : HostCmd)
  | layoutActivate (h : HostCmd)
  | layoutRead (h : HostCmd)
  | mpRestart
  | bearoff (h : HostCmd)
  | bearoffEvaluation
  | bearoffComparator
  | bearoffDeadline (reqid : BitVec 32)
  | bearoffComplete (reqid : BitVec 32)
  | ckpt (h : HostCmd)
  | partnerDeltaStream (part : Nat)
  | pair (h : HostCmd)
  | restore (h : HostCmd)
  | keySet (h : HostCmd)
  | launchtabSet (h : HostCmd)
  | journalRead (h : HostCmd)
  | routeRead (h : HostCmd)
  | slotRead (h : HostCmd)
  | retire (h : HostCmd)
  | attestationRequest (bytes : List Byte) (opens : Bool)
  | powerGood (us : Nat) (outcomes : List BootOutcome)
  | clockStepDown (drawMw : Nat)
  | clockStepUp (drawMw : Nat)
  | thermalTrip (dieTemps : List Nat)
  | thermalResume (dieTemps : List Nat)
  | conflictingWriteHoldExpiry (granule : Nat)
  | regionCopyComplete (region : Nat)
  deriving DecidableEq, Repr, Inhabited

end Sys2Proof
end

