-- ==== Sys2Proof/Machine/Flags.lean ====
section
/-! DEFINITION. Number formats and exact arithmetic (R41 to R60, R65 to R69, R110 to R117): exact dyadic values, one rounding.
The machine has no status flags (R45, R73). -/

set_option linter.unusedVariables false

namespace Sys2Proof.Machine

/-! ### Exact values and formats -/

/-- An exact value: NaN, a signed infinity, or (−1)^neg × m × 2^e, a signed zero when m is 0. -/
inductive XNum where
  | nan
  | inf (neg : Bool)
  | fin (neg : Bool) (m : Nat) (e : Int)
  deriving DecidableEq, Repr, Inhabited

/-- What the all-ones exponent field encodes (R43). -/
inductive Top where
  | ieee | e4m3 | normal
  deriving DecidableEq, Repr, Inhabited

/-- A floating-point format of R43: fraction and exponent widths, bias. TF32 is taken without its 13 unused low bits. -/
structure Fmt where
  frac : Nat
  exp : Nat
  bias : Nat
  top : Top
  deriving DecidableEq, Repr, Inhabited

def fmtF64 : Fmt := { frac := 52, exp := 11, bias := 1023, top := .ieee }
def fmtF32 : Fmt := { frac := 23, exp := 8, bias := 127, top := .ieee }
def fmtTf32 : Fmt := { frac := 10, exp := 8, bias := 127, top := .ieee }
def fmtF16 : Fmt := { frac := 10, exp := 5, bias := 15, top := .ieee }
def fmtBf16 : Fmt := { frac := 7, exp := 8, bias := 127, top := .ieee }
def fmtE5m2 : Fmt := { frac := 2, exp := 5, bias := 15, top := .ieee }
def fmtE4m3 : Fmt := { frac := 3, exp := 4, bias := 7, top := .e4m3 }
def fmtE2m1 : Fmt := { frac := 1, exp := 2, bias := 1, top := .normal }

/-- The format of a floating-point type; of an x2 type, its element's. -/
def Ty.fmt? : Ty → Option Fmt
  | .f16 | .f16x2 => some fmtF16
  | .bf16 | .bf16x2 => some fmtBf16
  | .tf32 => some fmtTf32
  | .f32 => some fmtF32
  | .f64 => some fmtF64
  | .e4m3 => some fmtE4m3
  | .e5m2 => some fmtE5m2
  | _ => none

def Ty.fmt (t : Ty) : Fmt := (Ty.fmt? t).getD fmtF32

def Fmt.width (f : Fmt) : Nat := 1 + f.exp + f.frac

/-- The largest exponent field of a finite value. -/
def Fmt.emax (f : Fmt) : Nat := match f.top with
  | .ieee => 2 ^ f.exp - 2
  | _ => 2 ^ f.exp - 1

/-- The fraction field of the largest finite value. -/
def Fmt.fmax (f : Fmt) : Nat := match f.top with
  | .e4m3 => 2 ^ f.frac - 2
  | _ => 2 ^ f.frac - 1

/-- Canonical NaN (R45). -/
def Fmt.nan (f : Fmt) : Nat := match f.top with
  | .ieee => (2 ^ f.exp - 1) * 2 ^ f.frac + 2 ^ (f.frac - 1)
  | _ => 2 ^ (f.exp + f.frac) - 1

def Fmt.infinity (f : Fmt) (neg : Bool) : Nat := (2 ^ f.exp - 1) * 2 ^ f.frac + (if neg then 2 ^ (f.exp + f.frac) else 0)
def Fmt.maxFinite (f : Fmt) (neg : Bool) : Nat :=
  f.emax * 2 ^ f.frac + f.fmax + (if neg then 2 ^ (f.exp + f.frac) else 0)

/-- The smallest exponent of a unit in the last place: of the subnormals. -/
def Fmt.qmin (f : Fmt) : Int := 1 - (f.bias : Int) - f.frac

/-- R43: the value of an encoding. -/
def Fmt.decode (f : Fmt) (x : Nat) : XNum :=
  let neg := bit x (f.exp + f.frac)
  let e := bits x f.frac f.exp
  let r := bits x 0 f.frac
  if e = 2 ^ f.exp - 1 ∧ f.top = .ieee then (if r = 0 then .inf neg else .nan)
  else if e = 2 ^ f.exp - 1 ∧ f.top = .e4m3 ∧ r = 2 ^ f.frac - 1 then .nan
  else if e = 0 then .fin neg r f.qmin
  else .fin neg (2 ^ f.frac + r) ((e : Int) - f.bias - f.frac)

/-- An encoding's subnormal (R46). -/
def Fmt.subnormal (f : Fmt) (x : Nat) : Bool := bits x f.frac f.exp == 0 && bits x 0 f.frac != 0

/-! ### Rounding -/

/-- m × 2^−k to an integer in a mode, for a value of sign neg (R47). -/
def roundShift (mode : Rnd) (neg : Bool) (m k : Nat) : Nat :=
  let q := m / 2 ^ k
  let r := m % 2 ^ k
  if r = 0 then q
  else
    match mode with
    | .rz => q
    | .ru => if neg then q else q + 1
    | .rd => if neg then q + 1 else q
    | .rne => if 2 * r < 2 ^ k then q else if 2 ^ k < 2 * r then q + 1 else if q % 2 = 0 then q else q + 1

/-- RoundUnbounded of R47: the result is n × 2^q. -/
def roundTo (f : Fmt) (mode : Rnd) (neg : Bool) (m : Nat) (e : Int) : Nat × Int :=
  if m = 0 then (0, f.qmin)
  else
    let top : Int := e + Nat.log2 m
    let q : Int := max (top - f.frac) f.qmin
    if q ≤ e then (m * 2 ^ (e - q).toNat, q) else (roundShift mode neg m (q - e).toNat, q)

/-- The encoding of n × 2^q, n at most 2^(frac + 1), that does not exceed MaxFinite; none when it does. -/
def Fmt.encode? (f : Fmt) (neg : Bool) (n : Nat) (q : Int) : Option Nat :=
  let sign := if neg then 2 ^ (f.exp + f.frac) else 0
  let n' := if n = 2 ^ (f.frac + 1) then n / 2 else n
  let q' := if n = 2 ^ (f.frac + 1) then q + 1 else q
  if n' < 2 ^ f.frac then some (sign + n')
  else
    let e := q' + f.frac + f.bias
    if e < f.emax ∨ (e = f.emax ∧ n' - 2 ^ f.frac ≤ f.fmax) then some (sign + e.toNat * 2 ^ f.frac + (n' - 2 ^ f.frac))
    else none

/-- What a narrowing gives: an encoding, or an overflow (or NaN) that the destination has no encoding for (R48). -/
inductive Narrowed where
  | code (x : Nat)
  | over
  deriving DecidableEq, Repr, Inhabited

/-- IeeeOverflow of R48. -/
def Fmt.overflow (f : Fmt) (mode : Rnd) (neg : Bool) : Narrowed :=
  match f.top with
  | .e4m3 => .code f.nan
  | .normal => .over
  | .ieee =>
    match mode, neg with
    | .rne, _ => .code (f.infinity neg)
    | .rz, _ => .code (f.maxFinite neg)
    | .ru, false => .code (f.infinity false)
    | .ru, true => .code (f.maxFinite true)
    | .rd, false => .code (f.maxFinite false)
    | .rd, true => .code (f.infinity true)

/-- Narrow of R48. -/
def narrowTo (f : Fmt) (mode : Rnd) (sat : Bool) : XNum → Narrowed
  | .nan => match f.top with
    | .normal => .over
    | _ => .code f.nan
  | .inf neg =>
    if sat then .code (f.maxFinite neg)
    else match f.top with
      | .ieee => .code (f.infinity neg)
      | .e4m3 => .code f.nan
      | .normal => .over
  | .fin neg m e =>
    let r := roundTo f mode neg m e
    match f.encode? neg r.1 r.2 with
    | some x => .code x
    | none => if sat then .code (f.maxFinite neg) else f.overflow mode neg

/-- Narrow for the formats that have a code for every outcome. -/
def narrow (f : Fmt) (mode : Rnd) (sat : Bool) (x : XNum) : Nat :=
  match narrowTo f mode sat x with
  | .code c => c
  | .over => f.nan

/-! ### Exact arithmetic -/

/-- Exact sum of finite values as an integer times 2^e. -/
def scaledInt (neg : Bool) (m : Nat) (e lo : Int) : Int :=
  let v : Int := (m * 2 ^ (e - lo).toNat : Nat)
  if neg then -v else v

/-- An exact sum (R47): a zero sum of opposite-signed operands is +0, −0 under RD. -/
def numAdd (mode : Rnd) : XNum → XNum → XNum
  | .nan, _ => .nan
  | _, .nan => .nan
  | .inf a, .inf b => if a = b then .inf a else .nan
  | .inf a, _ => .inf a
  | _, .inf b => .inf b
  | .fin a m e, .fin b n f =>
    let lo := min e f
    let v := scaledInt a m e lo + scaledInt b n f lo
    if v = 0 then .fin (if a = b then a else mode = .rd) 0 lo else .fin (v < 0) v.natAbs lo

def numNeg : XNum → XNum
  | .nan => .nan
  | .inf a => .inf (!a)
  | .fin a m e => .fin (!a) m e

/-- An exact product (R110). -/
def numMul : XNum → XNum → XNum
  | .nan, _ => .nan
  | _, .nan => .nan
  | .inf a, .inf b => .inf (a != b)
  | .inf a, .fin b n _ => if n = 0 then .nan else .inf (a != b)
  | .fin a m _, .inf b => if m = 0 then .nan else .inf (a != b)
  | .fin a m e, .fin b n f => .fin (a != b) (m * n) (e + f)

/-- A quotient (R110), exact but for a sticky bit far below every format's precision. -/
def numDiv : XNum → XNum → XNum
  | .nan, _ => .nan
  | _, .nan => .nan
  | .inf _, .inf _ => .nan
  | .inf a, .fin b _ _ => .inf (a != b)
  | .fin a _ _, .inf b => .fin (a != b) 0 0
  | .fin a m e, .fin b n f =>
    if n = 0 then (if m = 0 then .nan else .inf (a != b))
    else if m = 0 then .fin (a != b) 0 0
    else
      let q := m * 2 ^ 256 / n
      let st := if m * 2 ^ 256 % n = 0 then 0 else 1
      .fin (a != b) (2 * q + st) (e - f - 257)

/-- x × 2^k. -/
def numScale (k : Int) : XNum → XNum
  | .fin a m e => .fin a m (e + k)
  | x => x

/-- The sum of exact terms: FDOT (R116) and a group of R65. The sign of a zero sum of terms of both signs is R47's. -/
def numSum (mode : Rnd) (l : List XNum) : XNum :=
  if l.any (· == .nan) || (l.contains (.inf true) && l.contains (.inf false)) then .nan
  else if l.contains (.inf true) then .inf true
  else if l.contains (.inf false) then .inf false
  else
    let lo := l.foldl (fun (a : Int) x => match x with
      | .fin _ _ e => min a e
      | _ => a) 0
    let v := l.foldl (fun (a : Int) x => match x with
      | .fin s m e => a + scaledInt s m e lo
      | _ => a) 0
    if v = 0 then
      .fin (if l.all fun x => match x with
              | .fin s _ _ => s
              | _ => false then !l.isEmpty
            else if l.all fun x => match x with
              | .fin s _ _ => !s
              | _ => false then false
            else mode = .rd) 0 lo
    else .fin (v < 0) v.natAbs lo

/-- Order of two values that are not NaN: negative, zero or positive as a is below, equal to or above b; zeros are equal. -/
def numCmp : XNum → XNum → Int
  | .nan, _ => 0
  | _, .nan => 0
  | .inf a, .inf b => if a = b then 0 else if a then -1 else 1
  | .inf a, _ => if a then -1 else 1
  | _, .inf b => if b then 1 else -1
  | .fin a m e, .fin b n f =>
    let lo := min e f
    let d := scaledInt a m e lo - scaledInt b n f lo
    if d < 0 then -1 else if d = 0 then 0 else 1

def XNum.isNan : XNum → Bool
  | .nan => true
  | _ => false

def XNum.isInf : XNum → Bool
  | .inf _ => true
  | _ => false

def XNum.neg : XNum → Bool
  | .nan => false
  | .inf a => a
  | .fin a _ _ => a

def XNum.isZero : XNum → Bool
  | .fin _ m _ => m == 0
  | _ => false

/-- R106, R111: a NaN loses to any number, −0 orders below +0. True when the first is taken. -/
def takesFirst (isMax : Bool) (a b : XNum) : Bool :=
  let c := numCmp a b
  if a.isNan then false
  else if b.isNan then true
  else if c = 0 then (if a.neg = b.neg then true else if isMax then !a.neg else a.neg)
  else if isMax then decide (0 < c) else decide (c < 0)

/-- FMIN and FMAX on encodings: two NaNs give the canonical NaN. -/
def fminmax (f : Fmt) (isMax : Bool) (x y : Nat) : Nat :=
  let a := f.decode x
  let b := f.decode y
  if a.isNan && b.isNan then f.nan else if takesFirst isMax a b then x % 2 ^ f.width else y % 2 ^ f.width

/-- An input under flush-to-zero (R46): only .f16 and .bf16 have it. -/
def Fmt.input (f : Fmt) (ftz : Bool) (x : Nat) : XNum :=
  if ftz && f.subnormal x then .fin (bit x (f.exp + f.frac)) 0 0 else f.decode x

/-! ### Integers -/

/-- Round an exact finite value to an integer (R49, R55). -/
def roundInt (mode : Rnd) (neg : Bool) (m : Nat) (e : Int) : Nat :=
  if 0 ≤ e then m * 2 ^ e.toNat else roundShift mode neg m (-e).toNat

def clamp (lo hi x : Int) : Int := if x < lo then lo else if hi < x then hi else x

/-- The integer of width n in two's complement. -/
def intBits (n : Nat) (x : Int) : Nat := (x % (2 ^ n : Nat)).toNat

def intLo (sgn : Bool) (n : Nat) : Int := if sgn then -(2 ^ (n - 1) : Nat) else 0
def intHi (sgn : Bool) (n : Nat) : Int := if sgn then (2 ^ (n - 1) : Nat) - 1 else (2 ^ n : Nat) - 1

/-- Fit of R75. -/
def fit (sgn sat : Bool) (n : Nat) (x : Int) : Nat :=
  intBits n (if sat then clamp (intLo sgn n) (intHi sgn n) x else x)

/-- A value of width n read by signedness. -/
def intOf (sgn : Bool) (n x : Nat) : Int := if sgn then signed x n else ((x % 2 ^ n : Nat) : Int)

/-- R49: rounded, then clamped; NaN gives 0, an infinity the end of its sign. -/
def toInt (sgn : Bool) (n : Nat) (mode : Rnd) : XNum → Int
  | .nan => 0
  | .inf a => if a then intLo sgn n else intHi sgn n
  | .fin a m e =>
    let v : Int := roundInt mode a m e
    clamp (intLo sgn n) (intHi sgn n) (if a then -v else v)

def numOfInt (x : Int) : XNum := .fin (x < 0) x.natAbs 0

/-! ### Elementary functions

Fixed-point numbers with prec fraction bits, of which the last few may be wrong; every result goes through a sticky bit, so
the rounding of R113 is the exact function's: the results of these functions on binary32 inputs stay much farther from rounding
boundaries than 2^-900, exact cases apart, and those are exact here. -/

def prec : Nat := 1024
def one : Int := (2 ^ prec : Nat)

def fxMul (a b : Int) : Int := a * b / one
def fxDiv (a b : Int) : Int := a * one / b

/-- Integer square root by binary digits. -/
def isqrtGo (x : Nat) : Nat → Nat → Nat
  | 0, r => if (r + 1) * (r + 1) ≤ x then r + 1 else r
  | k + 1, r => isqrtGo x k (if (r + 2 ^ (k + 1)) * (r + 2 ^ (k + 1)) ≤ x then r + 2 ^ (k + 1) else r)

def isqrt (x : Nat) : Nat := isqrtGo x (Nat.log2 x / 2 + 1) 0

/-- 2 × artanh(1/k), k odd terms. -/
def atanhInv (k : Int) : Nat → Int → Int → Int → Int
  | 0, _, _, acc => acc
  | n + 1, p, d, acc => atanhInv k n (p / (k * k)) (d + 2) (acc + p / d)

/-- ln 2 = 2 artanh(1/3). -/
def ln2 : Int := 2 * atanhInv 3 (prec / 3 + 2) (one / 3) 1 0

def atanInv (k : Int) : Nat → Int → Int → Bool → Int → Int
  | 0, _, _, _, acc => acc
  | n + 1, p, d, sg, acc => atanInv k n (p / (k * k)) (d + 2) (!sg) (if sg then acc - p / d else acc + p / d)

/-- π by Machin's formula. -/
def piFx : Int := 16 * atanInv 5 (prec / 4 + 2) (one / 5) 1 false 0 - 4 * atanInv 239 (prec / 15 + 2) (one / 239) 1 false 0

/-- Σ x^n / n!, for |x| ≤ 1. -/
def expSum (x : Int) : Nat → Int → Int → Int → Int
  | 0, _, _, acc => acc
  | n + 1, k, term, acc => expSum x n (k + 1) (fxMul term x / k) (acc + term)

/-- e^x for 0 ≤ x ≤ ln 2: between 1 and 2. -/
def expFx (x : Int) : Int := expSum x 200 1 one 0

/-- The fixed-point number of m × 2^e. -/
def toFx (neg : Bool) (m : Nat) (e : Int) : Int :=
  let s := e + prec
  let v : Int := if 0 ≤ s then ((m * 2 ^ s.toNat : Nat) : Int) else ((m / 2 ^ (-s).toNat : Nat) : Int)
  if neg then -v else v

/-- A fixed-point value that is not exact: a sticky bit below it. -/
def ofFx (v : Int) (k : Int) : XNum := .fin (v < 0) (2 * v.natAbs + 1) (k - prec - 1)

/-- 2^x for a fixed-point x, as mantissa and exponent. -/
def exp2Fx (x : Int) : Int × Int :=
  let k := x / one
  (expFx (fxMul (x - k * one) ln2), k)

def fnExp2 : XNum → XNum
  | .nan => .nan
  | .inf a => if a then .fin false 0 0 else .inf false
  | .fin a m e =>
    if m = 0 then .fin false 1 0
    else if 0 ≤ e ∧ e < 16 ∧ m < 2 ^ 24 then
      let v : Int := (m * 2 ^ e.toNat : Nat)
      .fin false 1 (clamp (-4096) 4096 (if a then -v else v))
    else if 12 ≤ e + Nat.log2 m then .fin false 3 (if a then -4096 else 4096)
    else if e < 0 ∧ m % 2 ^ (-e).toNat = 0 then
      let v : Int := (m / 2 ^ (-e).toNat : Nat)
      .fin false 1 (if a then -v else v)
    else
      let r := exp2Fx (toFx a m e)
      ofFx r.1 r.2

/-- ln of m × 2^−k between 1 and 2, as 2 artanh((m − 1) / (m + 1)). -/
def lnSum (z2 : Int) : Nat → Int → Int → Int → Int
  | 0, _, _, acc => acc
  | n + 1, p, d, acc => lnSum z2 n (fxMul p z2) (d + 2) (acc + p / d)

def fnLog2 : XNum → XNum
  | .nan => .nan
  | .inf a => if a then .nan else .inf false
  | .fin a m e =>
    if m = 0 then .inf true
    else if a then .nan
    else
      let l := Nat.log2 m
      let k : Int := e + l
      if m = 2 ^ l then numOfInt k
      else
        let x : Int := (m * 2 ^ (prec - l) : Nat)
        let z := fxDiv (x - one) (x + one)
        let ln := 2 * lnSum (fxMul z z) 340 z 1 0
        ofFx (k * one + fxDiv ln ln2) 0

/-- Alternating Taylor sums: sine from x, cosine from 1. -/
def trigSum (x2 : Int) : Nat → Int → Int → Int → Int
  | 0, _, _, acc => acc
  | n + 1, k, term, acc => trigSum x2 n (k + 2) (-(fxMul term x2) / (k * (k + 1))) (acc + term)

def sinFx (x : Int) : Int := trigSum (fxMul x x) 110 2 x 0
def cosFx (x : Int) : Int := trigSum (fxMul x x) 110 1 one 0

/-- The quadrant and the rest of x after subtracting the nearest multiple of π/2. -/
def reduceTrig (x : Int) : Int × Int :=
  let h := piFx / 2
  let k := (2 * x + h) / (2 * h)
  (k % 4, x - k * h)

def fnSin : XNum → XNum
  | .nan | .inf _ => .nan
  | .fin a m e =>
    if m = 0 then .fin a 0 0
    else
      let r := reduceTrig (toFx false m e)
      let v := if r.1 = 0 then sinFx r.2 else if r.1 = 1 then cosFx r.2 else if r.1 = 2 then -(sinFx r.2) else -(cosFx r.2)
      ofFx (if a then -v else v) 0

def fnCos : XNum → XNum
  | .nan | .inf _ => .nan
  | .fin a m e =>
    if m = 0 then .fin false 1 0
    else
      let r := reduceTrig (toFx false m e)
      let v := if r.1 = 0 then cosFx r.2 else if r.1 = 1 then -(sinFx r.2) else if r.1 = 2 then -(cosFx r.2) else sinFx r.2
      -- just below 1 where the sum rounds up to it
      ofFx (if one ≤ v then one - 1 else v) 0

/-- e^(−w) for a fixed-point w ≥ 0, as mantissa in 1..2 and exponent. -/
def expNeg (w : Int) : Int × Int :=
  let t := -(fxDiv w ln2)
  exp2Fx t

def fnTanh : XNum → XNum
  | .nan => .nan
  | .inf a => .fin a 1 0
  | .fin a m e =>
    if m = 0 then .fin a 0 0
    else
      let v := if 9 ≤ e + Nat.log2 m then one - 1
        else
          let r := expNeg (2 * toFx false m e)
          let q := r.1 / (2 ^ (-r.2).toNat : Nat)
          min (fxDiv (one - q) (one + q)) (one - 1)
      ofFx (if a then -v else v) 0

/-- a / (1 + e^(−w)), w a fixed-point number of a's sign: the common form of the two activations. -/
def gate (a : Bool) (m : Nat) (e : Int) (w : Int) : XNum :=
  let r := expNeg (if w < 0 then -w else w)
  let q := r.1 / (2 ^ (min (-r.2).toNat (prec + 2)) : Nat)
  -- 1 / (1 + E), just below 1 where E is lost
  let d := min (fxDiv one (one + q)) (one - 1)
  if a then
    -- a × E / (1 + E)
    let p := fxMul r.1 d
    .fin true (m * (2 * p.toNat + 1)) (e + r.2 - prec - 1)
  else .fin false (m * (2 * d.toNat + 1)) (e - prec - 1)

def fnSilu : XNum → XNum
  | .nan => .nan
  | .inf a => if a then .fin true 0 0 else .inf false
  | .fin a m e =>
    if m = 0 then .fin a 0 0
    else if 14 ≤ e + Nat.log2 m then gate a m e ((if a then -1 else 1) * 16384 * one)
    else gate a m e (toFx a m e)

/-- 2 √(2/π) (x + 0.044715 x³) for a fixed-point x. -/
def geluArg (x : Int) : Int :=
  let root : Int := isqrt (2 * one * one * one / piFx).toNat
  2 * fxMul root (x + fxMul (fxMul x x) x * 44715 / 1000000)

def fnGelu : XNum → XNum
  | .nan => .nan
  | .inf a => if a then .fin true 0 0 else .inf false
  | .fin a m e =>
    if m = 0 then .fin a 0 0
    else if 6 ≤ e + Nat.log2 m then gate a m e ((if a then -1 else 1) * 16384 * one)
    else gate a m e (geluArg (toFx a m e))

/-- √ with a sticky bit; exact roots are exact. -/
def fnSqrt : XNum → XNum
  | .nan => .nan
  | .inf a => if a then .nan else .inf false
  | .fin a m e =>
    if m = 0 then .fin a 0 0
    else if a then .nan
    else
      let m' := if e % 2 = 0 then m * 2 ^ 256 else m * 2 ^ 257
      let e' := if e % 2 = 0 then e - 256 else e - 257
      let r := isqrt m'
      .fin false (2 * r + (if r * r = m' then 0 else 1)) (e' / 2 - 1)

def fnRsqrt : XNum → XNum
  | .nan => .nan
  | .inf a => if a then .nan else .fin false 0 0
  | .fin a m e =>
    if m = 0 then .inf a
    else if a then .nan
    else
      let m' := if e % 2 = 0 then m else 2 * m
      let e' := if e % 2 = 0 then e else e - 1
      let q := 2 ^ 512 / m'
      let r := isqrt q
      .fin false (2 * r + (if r * r * m' = 2 ^ 512 then 0 else 1)) (-(e' / 2) - 257)

def fnRcp (x : XNum) : XNum := numDiv (.fin false 1 0) x

/-- FRND (R115): the integral value keeps the sign. -/
def fnRnd (mode : Rnd) : XNum → XNum
  | .fin a m e => if 0 ≤ e then .fin a m e else .fin a (roundInt mode a m e) 0
  | x => x

/-! ### Microscaling and dual-exponent blocks -/

/-- A block type: element bits, and how blocks are kept (R50, R54). -/
inductive Block where
  | mx4 | mx8 (e5m2 : Bool) | dx4 | dx8
  deriving DecidableEq, Repr, Inhabited

def Block.elemBits : Block → Nat
  | .mx4 | .dx4 => 4
  | _ => 8

def Block.isDx : Block → Bool
  | .dx4 | .dx8 => true
  | _ => false

/-- Scale bytes of a block. -/
def Block.scaleBytes (b : Block) : Nat := if b.isDx then 2 else 1

def Block.elemFmt : Block → Fmt
  | .mx8 true => fmtE5m2
  | .mx8 false => fmtE4m3
  | _ => fmtE2m1

/-- Largest magnitude and exponent offset of the DX formats (R55). -/
def Block.dxMax : Block → Nat
  | .dx8 => 63
  | _ => 3
def Block.dxOff : Block → Int
  | .dx8 => 132
  | _ => 128

/-- The value of an element code under a scale word: X, or Ea + 256 Eb (R51, R54). -/
def Block.decode (b : Block) (scale code : Nat) : XNum :=
  match b with
  | .dx4 | .dx8 =>
    let w := b.elemBits
    let e := if bit code (w - 2) then bits scale 8 8 else bits scale 0 8
    if e = 255 then .nan else .fin (bit code (w - 1)) (bits code 0 (w - 2)) ((e : Int) - b.dxOff)
  | _ => if bits scale 0 8 = 255 then .nan else numScale ((bits scale 0 8 : Int) - 127) (b.elemFmt.decode code)

/-- Magnitude of a value as the encoders take it; none for an infinity. -/
def XNum.mag : XNum → Option (Nat × Int)
  | .fin _ m e => some (m, e)
  | _ => none

/-- The largest magnitude of the inputs that are not NaN. -/
def amax (l : List XNum) : XNum :=
  l.foldl (fun a x => if x.isNan then a
    else
      let y : XNum := match x with
        | .inf _ => .inf false
        | .fin _ m e => .fin false m e
        | .nan => a
      if numCmp a y < 0 then y else a) (.fin false 0 0)

/-- The smallest scale from k upward that passes, in n tries. -/
def firstScale (okay : Nat → Bool) : Nat → Nat → Option Nat
  | 0, _ => none
  | n + 1, k => if okay k then some k else firstScale okay n (k + 1)

/-- An encoded block: 32 element codes, the scale word, and the last residual, none for a NaN block. -/
structure Encoded where
  codes : List Nat
  scale : Nat
  residual : Option XNum
  deriving DecidableEq, Repr, Inhabited

def Block.nanBlock (b : Block) : Encoded :=
  { codes := List.replicate 32 0, scale := if b.isDx then 0xFFFF else 0xFF, residual := none }

/-- v with the residual of the elements before it; a zero residual adds nothing (R57). -/
def feed (ef : Bool) (r x : XNum) : XNum := if ef && !r.isZero then numAdd .rne x r else x

def XNum.finite (x : XNum) : Bool := !x.isNan && !x.isInf

/-- The element loop of R52 (a fed-back excess clamps). take says which threads take part (R58). -/
def mxLoop (f : Fmt) (X : Int) (mode : Rnd) (sat ef : Bool) : List (Bool × XNum) → XNum → List Nat × XNum × Bool
  | [], r => ([], r, false)
  | (takes, x) :: l, r =>
    if !takes then
      let z := mxLoop f X mode sat ef l r
      (0 :: z.1, z.2)
    else
      let v := feed ef r x
      let s := numScale (127 - X) v
      if ef && v.finite then
        let q := narrow f .rne true s
        let r' := numAdd .rne v (numNeg (numScale (X - 127) (f.decode q)))
        let z := mxLoop f X mode sat ef l r'
        (q :: z.1, z.2)
      else
        match narrowTo f mode sat s with
        | .code q =>
          let z := mxLoop f X mode sat ef l (.fin false 0 0)
          (q :: z.1, z.2)
        | .over =>
          let z := mxLoop f X mode sat ef l (.fin false 0 0)
          (0 :: z.1, z.2.1, true)

/-- MxEncode (R52, R53). -/
def mxEncode (b : Block) (mode : Rnd) (sat ef : Bool) (xs : List (Bool × XNum)) : Encoded :=
  let f := b.elemFmt
  let vals := xs.map fun x => if x.1 then x.2 else .fin false 0 0
  if b = .mx4 ∧ vals.any XNum.isNan then b.nanBlock
  else
    let am := amax vals
    let okay (X : Nat) : Bool := match am with
      | .fin _ m e => (f.encode? false (roundTo f mode false m (e + 127 - X)).1 (roundTo f mode false m (e + 127 - X)).2).isSome
      | _ => false
    match firstScale okay 255 0 with
    | none =>
      if b = .mx4 ∧ !sat then b.nanBlock
      else
        let z := mxLoop f 254 mode sat ef xs (.fin false 0 0)
        if z.2.2 then b.nanBlock else { codes := z.1, scale := 254, residual := some z.2.1 }
    | some X =>
      let z := mxLoop f X mode sat ef xs (.fin false 0 0)
      if z.2.2 then b.nanBlock else { codes := z.1, scale := X, residual := some z.2.1 }

/-- One element of R55: the code and the element's exact value. -/
def dxElem (b : Block) (Ea Eb : Nat) (mode : Rnd) (v : XNum) : Nat × XNum :=
  let w := b.elemBits
  let code (neg : Bool) (sel n : Nat) : Nat := (if neg then 2 ^ (w - 1) else 0) + sel * 2 ^ (w - 2) + n
  match v with
  | .inf a => (code a 0 b.dxMax, v)
  | .nan => (0, v)
  | .fin a m e =>
    let n (E : Nat) : Nat := roundInt mode a m (e - ((E : Int) - b.dxOff))
    let val (n E : Nat) : XNum := .fin a n ((E : Int) - b.dxOff)
    let err (E : Nat) : XNum :=
      match numAdd .rne v (numNeg (val (n E) E)) with
      | .fin _ m e => .fin false m e
      | x => x
    if n Eb ≤ b.dxMax ∧ (b.dxMax < n Ea ∨ numCmp (err Eb) (err Ea) < 0) then (code a 1 (n Eb), val (n Eb) Eb)
    else (code a 0 (min (n Ea) b.dxMax), val (min (n Ea) b.dxMax) Ea)

def dxLoop (b : Block) (Ea Eb : Nat) (mode : Rnd) (ef : Bool) : List (Bool × XNum) → XNum → List Nat × XNum
  | [], r => ([], r)
  | (takes, x) :: l, r =>
    if !takes then
      let z := dxLoop b Ea Eb mode ef l r
      (0 :: z.1, z.2)
    else
      let v := feed ef r x
      let c := dxElem b Ea Eb mode v
      let r' : XNum := if v.isInf then .fin false 0 0 else if ef then numAdd .rne v (numNeg c.2) else .fin false 0 0
      let z := dxLoop b Ea Eb mode ef l r'
      (c.1 :: z.1, z.2)

/-- DxEncode (R55, R56). -/
def dxEncode (b : Block) (d : Nat) (mode : Rnd) (sat ef : Bool) (xs : List (Bool × XNum)) : Encoded :=
  let vals := xs.map fun x => if x.1 then x.2 else .fin false 0 0
  if vals.any XNum.isNan then b.nanBlock
  else
    let am := amax vals
    let okay (E : Nat) : Bool := match am with
      | .fin _ m e => decide (roundInt mode false m (e - ((E : Int) - b.dxOff)) ≤ b.dxMax)
      | _ => false
    match firstScale okay 255 0, sat with
    | none, false => b.nanBlock
    | x, _ =>
      let Ea := x.getD 254
      let Eb := Ea - d
      let z := dxLoop b Ea Eb mode ef xs (.fin false 0 0)
      { codes := z.1, scale := Ea + 256 * Eb, residual := some z.2 }

def blockEncode (b : Block) (d : Nat) (mode : Rnd) (sat ef : Bool) (xs : List (Bool × XNum)) : Encoded :=
  if b.isDx then dxEncode b d mode sat ef xs else mxEncode b mode sat ef xs

/-- The element codes packed by R42. -/
def packCodes (w : Nat) (codes : List Nat) : Nat := codes.foldr (fun c a => c % 2 ^ w + 2 ^ w * a) 0

/-- A block type of the type codes. -/
def Ty.block? (v : Bool) : Ty → Option Block
  | .mx4 => some .mx4
  | .mx8 => some (.mx8 v)
  | .dx4 => some .dx4
  | .dx8 => some .dx8
  | _ => none

/-! ### Trees (R68, R69) -/

/-- One combination; an absent operand is skipped. -/
def combine (op : Nat → Nat → Nat) : Option Nat → Option Nat → Option Nat
  | none, b => b
  | a, none => a
  | some a, some b => some (op a b)

/-- The next level of the tree. -/
def pairUp (op : Nat → Nat → Nat) : List (Option Nat) → List (Option Nat)
  | a :: b :: l => combine op a b :: pairUp op l
  | l => l

/-- The levels n[0] to n[5]. -/
def treeLevels (op : Nat → Nat → Nat) : Nat → List (Option Nat) → List (List (Option Nat))
  | 0, l => [l]
  | k + 1, l => l :: treeLevels op k (pairUp op l)

def treeRoot (op : Nat → Nat → Nat) (l : List (Option Nat)) : Option Nat :=
  ((treeLevels op 5 l).getD 5 []).headD none

/-- The inclusive prefix of thread t. -/
def treePrefix (op : Nat → Nat → Nat) (levels : List (List (Option Nat))) (t : Nat) : Nat → Nat → Option Nat → Option Nat
  | 0, _, p => p
  | k + 1, lo, p =>
    if lo + 2 ^ k ≤ t + 1 then treePrefix op levels t k (lo + 2 ^ k) (combine op p (((levels.getD k []).getD (lo / 2 ^ k) none)))
    else treePrefix op levels t k lo p

def inclusive (op : Nat → Nat → Nat) (l : List (Option Nat)) (t : Nat) : Option Nat :=
  treePrefix op (treeLevels op 5 l) t 6 0 none

end Sys2Proof.Machine
end

