-- ==== Sys2Proof/Decode.lean ====
section
/-! DEFINITION. The 96-bit word: its fields (R26, R27), the codes (R21, R22, R31 to R33), the opcode map (R34, R35), checks 1 to 9
of R36 (check 9 with the budget of v registers of R23), and the encoder written from the same map. -/

set_option linter.unusedVariables false

namespace Sys2Proof

/-- The fields of R26. -/
structure Fields where
  opc : BitVec 8
  fn : BitVec 6
  d : BitVec 10
  a : BitVec 10
  b : BitVec 10
  gidx : BitVec 4
  gneg : Bool
  md : BitVec 7
  hint : BitVec 8
  imm : Word
  deriving DecidableEq, Repr, Inhabited

/-- R26: bits 95:88 OPC down to 31:0 IMM. -/
def Fields.toWord (f : Fields) : IWord :=
  f.opc ++ f.fn ++ f.d ++ f.a ++ f.b ++ f.gidx ++ BitVec.ofBool f.gneg ++ f.md ++ f.hint ++ f.imm

def Fields.ofWord (w : IWord) : Fields where
  opc := w.extractLsb' 88 8
  fn := w.extractLsb' 82 6
  d := w.extractLsb' 72 10
  a := w.extractLsb' 62 10
  b := w.extractLsb' 52 10
  gidx := w.extractLsb' 48 4
  gneg := w.getLsbD 47
  md := w.extractLsb' 40 7
  hint := w.extractLsb' 32 8
  imm := w.extractLsb' 0 32

/-- R26: three little-endian 32-bit words, the lowest address first: the word's bytes in rising addresses. -/
def wordBytes (w : IWord) : List Byte := (List.range 12).map fun i => w.extractLsb' (8 * i) 8

def wordOfBytes : List Byte → IWord
  | [] => 0
  | b :: bs => b.setWidth 96 ||| (wordOfBytes bs <<< 8)

/-! ### Codes -/

/-- R32. -/
def Ty.code : Ty → BitVec 5
  | .b8 => 0 | .b16 => 1 | .b32 => 2 | .b64 => 3 | .b128 => 4 | .s8 => 5 | .s16 => 6 | .s32 => 7 | .s64 => 8 | .s4 => 9
  | .f16 => 10 | .bf16 => 11 | .tf32 => 12 | .f32 => 13 | .f64 => 14 | .e4m3 => 15 | .e5m2 => 16 | .f16x2 => 17
  | .bf16x2 => 18 | .mx4 => 19 | .mx8 => 20 | .dx4 => 21 | .dx8 => 22

/-- Codes 23 to 31 are reserved (R32); the decoder sees that the word does not come back from its fields. -/
def Ty.ofCode (c : BitVec 5) : Ty :=
  match c.toNat with
  | 1 => .b16 | 2 => .b32 | 3 => .b64 | 4 => .b128 | 5 => .s8 | 6 => .s16 | 7 => .s32 | 8 => .s64 | 9 => .s4
  | 10 => .f16 | 11 => .bf16 | 12 => .tf32 | 13 => .f32 | 14 => .f64 | 15 => .e4m3 | 16 => .e5m2 | 17 => .f16x2
  | 18 => .bf16x2 | 19 => .mx4 | 20 => .mx8 | 21 => .dx4 | 22 => .dx8
  | _ => .b8

/-- R33. -/
def Rnd.code : Rnd → BitVec 2
  | .rne => 0 | .rz => 1 | .ru => 2 | .rd => 3

def Rnd.ofCode (c : BitVec 2) : Rnd :=
  match c.toNat with
  | 1 => .rz | 2 => .ru | 3 => .rd | _ => .rne

/-- R22. -/
def Special.code : Special → BitVec 6
  | .zero => 0 | .tid => 1 | .lane => 2 | .rank => 3 | .grpid => 4 | .teamid => 5 | .launchid => 6 | .ctxid => 7 | .clk => 8

def Special.ofCode (c : BitVec 6) : Special :=
  match c.toNat with
  | 1 => .tid | 2 => .lane | 3 => .rank | 4 => .grpid | 5 => .teamid | 6 => .launchid | 7 => .ctxid | 8 => .clk
  | _ => .zero

/-- R21. -/
def Opnd.code : Opnd → BitVec 10
  | .v i => (0 : BitVec 2) ++ i
  | .w i => (4 : BitVec 4) ++ i
  | .o i => (40 : BitVec 7) ++ i
  | .y i => (96 : BitVec 8) ++ i
  | .sp s => (7 : BitVec 4) ++ s.code
  | .p i => (32 : BitVec 6) ++ i
  | .j i => (36 : BitVec 6) ++ i
  | .t i => (40 : BitVec 6) ++ i
  | .a i => (88 : BitVec 7) ++ i
  | .b i => (6 : BitVec 3) ++ i
  | .imm => 0x380

def Opnd.ofCode (s : BitVec 10) : Opnd :=
  match (s.extractLsb' 6 4).toNat with
  | 0 | 1 | 2 | 3 => .v (s.extractLsb' 0 8)
  | 4 => .w (s.extractLsb' 0 6)
  | 5 => .o (s.extractLsb' 0 3)
  | 6 => .y (s.extractLsb' 0 2)
  | 7 => .sp (Special.ofCode (s.extractLsb' 0 6))
  | 8 => .p (s.extractLsb' 0 4)
  | 9 => .j (s.extractLsb' 0 4)
  | 10 => .t (s.extractLsb' 0 4)
  | 11 => .a (s.extractLsb' 0 3)
  | 12 | 13 => .b (s.extractLsb' 0 7)
  | _ => .imm

/-- An operand field that is all zero: v0, or nothing where the form has no operand there. -/
def Opnd.none : Opnd := .v 0

/-- The specifier names a special value of a reserved code (R22). -/
def badSpecial (s : BitVec 10) : Bool := s.extractLsb' 6 4 == 7 && decide (9 ≤ (s.extractLsb' 0 6).toNat)

/-- The same field with a reserved special-value code read as code 0. -/
def fixSpecial (s : BitVec 10) : BitVec 10 := if badSpecial s then 0x1C0 else s

/-- R27. -/
def Ctl.hint (c : Ctl) : BitVec 8 := BitVec.ofBool c.pend ++ c.dly ++ c.keep ++ BitVec.ofBool c.fsh ++ (0 : BitVec 1)

def Fields.ctl (f : Fields) : Ctl where
  gidx := f.gidx
  gneg := f.gneg
  pend := f.hint.getLsbD 7
  dly := f.hint.extractLsb' 4 3
  keep := f.hint.extractLsb' 2 2
  fsh := f.hint.getLsbD 1

/-- Class T (R31): type code, rounding code. -/
def modT (t : Ty) (r : Rnd) : BitVec 7 := t.code ++ r.code
def Fields.ty (f : Fields) : Ty := Ty.ofCode (f.md.extractLsb' 2 5)
def Fields.rm (f : Fields) : Rnd := Rnd.ofCode (f.md.extractLsb' 0 2)
/-- Class M and F: scope in bits 46:43. -/
def Fields.sc (f : Fields) : Scope := f.md.extractLsb' 3 4
def Fields.pol (f : Fields) : BitVec 2 := f.md.extractLsb' 1 2
def modM (sc : Scope) (pol : BitVec 2) (o : Bool) : BitVec 7 := sc ++ pol ++ BitVec.ofBool o
def Fields.tyFn (f : Fields) : Ty := Ty.ofCode (f.fn.extractLsb' 0 5)
def fnTy (hi : Bool) (t : Ty) : BitVec 6 := BitVec.ofBool hi ++ t.code
/-- Operand C of a three-source word (R29). -/
def Fields.x (f : Fields) : Opnd := Opnd.ofCode (f.imm.extractLsb' 0 10)
def immX (hi : BitVec 22) (x : Opnd) : Word := hi ++ x.code

def Fields.alu1 (f : Fields) : Alu1 :=
  { c := f.ctl, ty := f.ty, rm := f.rm, d := Opnd.ofCode f.d, a := Opnd.ofCode f.a, imm := f.imm }
def Fields.alu2 (f : Fields) : Alu2 :=
  { c := f.ctl, ty := f.ty, rm := f.rm, d := Opnd.ofCode f.d, a := Opnd.ofCode f.a, b := Opnd.ofCode f.b, imm := f.imm }
def Fields.alu3 (f : Fields) : Alu3 :=
  { c := f.ctl, ty := f.ty, rm := f.rm, d := Opnd.ofCode f.d, a := Opnd.ofCode f.a, b := Opnd.ofCode f.b, x := f.x }
def Fields.load (f : Fields) : LoadOp :=
  { c := f.ctl, ty := f.tyFn, acq := f.fn.getLsbD 5, sc := f.sc, pol := f.pol, d := Opnd.ofCode f.d, a := Opnd.ofCode f.a,
    disp := f.imm }
def Fields.store (f : Fields) : StoreOp :=
  { c := f.ctl, ty := f.tyFn, rel := f.fn.getLsbD 5, sc := f.sc, pol := f.pol, d := Opnd.ofCode f.d, a := Opnd.ofCode f.a,
    b := Opnd.ofCode f.b, disp := f.imm }
def Fields.xst (f : Fields) : XstOp :=
  { c := f.ctl, ty := f.tyFn, rel := f.fn.getLsbD 5, sc := f.sc, fl := f.pol, ord := f.md.getLsbD 0, a := Opnd.ofCode f.a,
    b := Opnd.ofCode f.b, disp := f.imm }
def Fields.eng (f : Fields) : Eng :=
  { c := f.ctl, tl := f.md.getLsbD 6, bar := f.md.getLsbD 5, evt := f.md.getLsbD 4, fl := f.md.extractLsb' 2 2,
    d := Opnd.ofCode f.d, a := Opnd.ofCode f.a, b := Opnd.ofCode f.b }

def AtomFn.code : AtomFn → BitVec 4
  | .add => 0 | .min => 1 | .max => 2 | .and => 3 | .or => 4 | .xor => 5 | .exch => 6 | .cas => 7 | .inc => 8 | .dec => 9
  | .fadd => 10 | .fmin => 11 | .fmax => 12

/-- None for FN bits 3:0 of 13 to 15, unassigned. -/
def AtomFn.ofCode (c : BitVec 4) : Option AtomFn :=
  match c.toNat with
  | 0 => some .add | 1 => some .min | 2 => some .max | 3 => some .and | 4 => some .or | 5 => some .xor | 6 => some .exch
  | 7 => some .cas | 8 => some .inc | 9 => some .dec | 10 => some .fadd | 11 => some .fmin | 12 => some .fmax
  | _ => Option.none

def Fields.atom (f : Fields) (op : AtomFn) : AtomOp :=
  { c := f.ctl, op := op, acq := f.fn.getLsbD 4, rel := f.fn.getLsbD 5, sc := f.sc, fl := f.pol, nr := f.imm.getLsbD 15,
    ty := Ty.ofCode (f.imm.extractLsb' 10 5), d := Opnd.ofCode f.d, a := Opnd.ofCode f.a, b := Opnd.ofCode f.b, x := f.x,
    disp := f.imm.extractLsb' 16 16 }

def Shape.code : Shape → BitVec 2
  | .t1x1 => 0 | .t2x1 => 1 | .t1x2 => 2 | .t2x2 => 3
def Shape.ofCode (c : BitVec 2) : Shape :=
  match c.toNat with
  | 1 => .t2x1 | 2 => .t1x2 | 3 => .t2x2 | _ => .t1x1
def Fields.shape (f : Fields) : Shape := Shape.ofCode (f.md.extractLsb' 5 2)

def MkSpace.code : MkSpace → BitVec 2
  | .ctl => 0 | .ten => 1 | .loc => 2
def MkSpace.ofCode (c : BitVec 2) : MkSpace :=
  match c.toNat with
  | 1 => .ten | 2 => .loc | _ => .ctl

def Tl.code : Tl → BitVec 3
  | .copy => 0 | .gath => 1 | .mat => 2 | .coll => 3 | .xs => 4 | .q => 5
def Tl.ofCode (c : BitVec 3) : Tl :=
  match c.toNat with
  | 1 => .gath | 2 => .mat | 3 => .coll | 4 => .xs | 5 => .q | _ => .copy

def RedFn.code : RedFn → BitVec 6
  | .add => 0 | .min => 1 | .max => 2 | .and => 3 | .or => 4 | .xor => 5
def RedFn.ofNat? (n : Nat) : Option RedFn :=
  match n with
  | 0 => some .add | 1 => some .min | 2 => some .max | 3 => some .and | 4 => some .or | 5 => some .xor | _ => Option.none
def Cmp.code : Cmp → BitVec 6
  | .eq => 0 | .ne => 1 | .lt => 2 | .le => 3 | .gt => 4 | .ge => 5
def Cmp.ofNat? (n : Nat) : Option Cmp :=
  match n with
  | 0 => some .eq | 1 => some .ne | 2 => some .lt | 3 => some .le | 4 => some .gt | 5 => some .ge | _ => Option.none
def FCmp.code : FCmp → BitVec 6
  | .eq => 0 | .ne => 1 | .lt => 2 | .le => 3 | .gt => 4 | .ge => 5 | .num => 6 | .nan => 7
def FCmp.ofNat? (n : Nat) : Option FCmp :=
  match n with
  | 0 => some .eq | 1 => some .ne | 2 => some .lt | 3 => some .le | 4 => some .gt | 5 => some .ge | 6 => some .num
  | 7 => some .nan | _ => Option.none
def MulFn.code : MulFn → BitVec 6
  | .lo => 0 | .hi => 1 | .wide => 2
def MulFn.ofNat? (n : Nat) : Option MulFn :=
  match n with
  | 0 => some .lo | 1 => some .hi | 2 => some .wide | _ => Option.none
def PsetFn.code : PsetFn → BitVec 6
  | .and => 0 | .or => 1 | .xor => 2 | .andn => 3 | .orn => 4
def PsetFn.ofNat? (n : Nat) : Option PsetFn :=
  match n with
  | 0 => some .and | 1 => some .or | 2 => some .xor | 3 => some .andn | 4 => some .orn | _ => Option.none
def CensusFn.code : CensusFn → BitVec 6
  | .none => 0 | .some => 1 | .most => 2 | .all => 3 | .mixed => 4 | .same => 5
def census? (n : Nat) : Option CensusFn :=
  match n with
  | 0 => some .none | 1 => some .some | 2 => some .most | 3 => some .all | 4 => some .mixed | 5 => some .same
  | _ => Option.none
def SameFn.code : SameFn → BitVec 6
  | .mask => 0 | .lead => 1 | .count => 2 | .whole => 3
def SameFn.ofNat? (n : Nat) : Option SameFn :=
  match n with
  | 0 => some .mask | 1 => some .lead | 2 => some .count | 3 => some .whole | _ => Option.none
def ShflFn.code : ShflFn → BitVec 6
  | .from => 0 | .rot => 1 | .shift => 2 | .bfly => 3
def ShflFn.ofNat? (n : Nat) : Option ShflFn :=
  match n with
  | 0 => some .from | 1 => some .rot | 2 => some .shift | 3 => some .bfly | _ => Option.none
def SignFn.code : SignFn → BitVec 6
  | .abs => 0 | .neg => 1 | .copy => 2
def SignFn.ofNat? (n : Nat) : Option SignFn :=
  match n with
  | 0 => some .abs | 1 => some .neg | 2 => some .copy | _ => Option.none
def ActFn.code : ActFn → BitVec 6
  | .relu => 0 | .gelu => 1 | .silu => 2
def ActFn.ofNat? (n : Nat) : Option ActFn :=
  match n with
  | 0 => some .relu | 1 => some .gelu | 2 => some .silu | _ => Option.none

/-- FN values 0 and 1. -/
def flag? (n : Nat) : Option Bool :=
  match n with
  | 0 => some false | 1 => some true | _ => Option.none

def fnBit (b : Bool) : BitVec 6 := (0 : BitVec 5) ++ BitVec.ofBool b

/-! ### The encoder -/

def Alu1.fields (opc : BitVec 8) (fn : BitVec 6) (x : Alu1) : Fields :=
  { opc := opc, fn := fn, d := x.d.code, a := x.a.code, b := 0, gidx := x.c.gidx, gneg := x.c.gneg, md := modT x.ty x.rm,
    hint := x.c.hint, imm := x.imm }
def Alu2.fields (opc : BitVec 8) (fn : BitVec 6) (x : Alu2) : Fields :=
  { opc := opc, fn := fn, d := x.d.code, a := x.a.code, b := x.b.code, gidx := x.c.gidx, gneg := x.c.gneg,
    md := modT x.ty x.rm, hint := x.c.hint, imm := x.imm }
def Alu3.fields (opc : BitVec 8) (fn : BitVec 6) (hi : BitVec 22) (x : Alu3) : Fields :=
  { opc := opc, fn := fn, d := x.d.code, a := x.a.code, b := x.b.code, gidx := x.c.gidx, gneg := x.c.gneg,
    md := modT x.ty x.rm, hint := x.c.hint, imm := immX hi x.x }
/-- A class-E or class-F word. -/
def Ctl.fields (opc : BitVec 8) (fn : BitVec 6) (md : BitVec 7) (d a b : BitVec 10) (imm : Word) (c : Ctl) : Fields :=
  { opc := opc, fn := fn, d := d, a := a, b := b, gidx := c.gidx, gneg := c.gneg, md := md, hint := c.hint, imm := imm }
def LoadOp.fields (opc : BitVec 8) (x : LoadOp) : Fields :=
  x.c.fields opc (fnTy x.acq x.ty) (modM x.sc x.pol false) x.d.code x.a.code 0 x.disp
def StoreOp.fields (opc : BitVec 8) (x : StoreOp) : Fields :=
  x.c.fields opc (fnTy x.rel x.ty) (modM x.sc x.pol false) x.d.code x.a.code x.b.code x.disp
def AtomOp.fields (opc : BitVec 8) (x : AtomOp) : Fields :=
  x.c.fields opc (BitVec.ofBool x.rel ++ BitVec.ofBool x.acq ++ x.op.code) (modM x.sc x.fl false) x.d.code x.a.code x.b.code
    (x.disp ++ BitVec.ofBool x.nr ++ x.ty.code ++ x.x.code)
def Eng.fields (opc : BitVec 8) (fn : BitVec 6) (imm : Word) (e : Eng) : Fields :=
  e.c.fields opc fn (BitVec.ofBool e.tl ++ BitVec.ofBool e.bar ++ BitVec.ofBool e.evt ++ e.fl ++ (0 : BitVec 2))
    e.d.code e.a.code e.b.code imm
/-- An M-stream word: guard and hint byte zero (R167). -/
def mFields (opc : BitVec 8) (md : BitVec 7) (d a b : BitVec 10) (imm : Word) : Fields :=
  { opc := opc, fn := 0, d := d, a := a, b := b, gidx := 0, gneg := false, md := md, hint := 0, imm := imm }
def bcvtHi (m : Bcvt) : BitVec 22 :=
  (0 : BitVec 14) ++ BitVec.ofBool m.sat ++ BitVec.ofBool m.v ++ BitVec.ofBool m.res ++ BitVec.ofBool m.ef ++ m.dist
def modF (sc : Scope) (tl : BitVec 3) : BitVec 7 := sc ++ tl
def immCode (code : BitVec 16) : Word := (0 : BitVec 16) ++ code
def immSys (num : BitVec 12) (idx : BitVec 3) : Word := (0 : BitVec 17) ++ idx ++ num

/-- The fields of a word; an event has no word. -/
def fieldsOf : Instr → Option Fields
  | .nop c => some (c.fields 0x01 0 0 0 0 0 0)
  | .illegalOpcode w => some (Fields.ofWord w)
  | .extensionOpcode w => some (Fields.ofWord w)
  | .iadd sat x => some (x.fields 0x02 (fnBit sat))
  | .isub sat x => some (x.fields 0x03 (fnBit sat))
  | .imul f x => some (x.fields 0x04 f.code)
  | .imad f x => some (x.fields 0x05 f.code 0)
  | .idiv rem x => some (x.fields 0x06 (fnBit rem))
  | .imin x => some (x.fields 0x07 0)
  | .imax x => some (x.fields 0x08 0)
  | .iabs sat x => some (x.fields 0x09 (fnBit sat))
  | .ineg sat x => some (x.fields 0x0A (fnBit sat))
  | .iset cc x => some (x.fields 0x0B cc.code)
  | .idot sat x => some (x.fields 0x0C (fnBit sat) 0)
  | .and inv x => some (x.fields 0x10 (fnBit inv))
  | .or inv x => some (x.fields 0x11 (fnBit inv))
  | .xor x => some (x.fields 0x12 0)
  | .not x => some (x.fields 0x13 0)
  | .lut tab x => some (x.fields 0x14 0 ((0 : BitVec 6) ++ tab))
  | .shl x => some (x.fields 0x18 0)
  | .shr arith x => some (x.fields 0x19 (fnBit arith))
  | .rot right x => some (x.fields 0x1A (fnBit right))
  | .shf right x => some (x.fields 0x1B (fnBit right) 0)
  | .popc x => some (x.fields 0x20 0)
  | .clz x => some (x.fields 0x21 0)
  | .ctz x => some (x.fields 0x22 0)
  | .brev x => some (x.fields 0x23 0)
  | .bfx sx x => some (x.fields 0x24 (fnBit sx) 0)
  | .bfi x => some (x.fields 0x25 0 0)
  | .bmix x => some (x.fields 0x26 0 0)
  | .mov x => some (x.fields 0x28 0)
  | .sel x => some (x.fields 0x29 0 0)
  | .pset f x => some (x.fields 0x2A f.code)
  | .pmovPack c d => some (c.fields 0x2B 0 0 d.code 0 0 0)
  | .pmovUnpack c a => some (c.fields 0x2B 1 0 0 a.code 0 0)
  | .lea c sh zx d a b x =>
      some (c.fields 0x30 0 ((sh ++ BitVec.ofBool zx ++ (0 : BitVec 3)) : BitVec 7) d.code a.code b.code (immX 0 x))
  | .ptrMk c sp d a b imm => some (c.fields 0x31 0 (sp.code ++ (0 : BitVec 5)) d.code a.code b.code imm)
  | .ptrAdd c d a b imm => some (c.fields 0x31 1 0 d.code a.code b.code imm)
  | .ptrChk c d a b imm => some (c.fields 0x31 2 0 d.code a.code b.code imm)
  | .bra c imm => some (c.fields 0x40 0 0 0 0 0 imm)
  | .brx c a => some (c.fields 0x41 0 0 0 a.code 0 0)
  | .call c imm => some (c.fields 0x42 0 0 0 0 0 imm)
  | .callx c a => some (c.fields 0x43 0 0 0 a.code 0 0)
  | .ret c => some (c.fields 0x44 0 0 0 0 0 0)
  | .join c d => some (c.fields 0x45 0 0 d.code 0 0 0)
  | .wait c a b imm => some (c.fields 0x46 0 0 0 a.code b.code imm)
  | .jset c d a imm => some (c.fields 0x47 0 0 d.code a.code 0 imm)
  | .exit c => some (c.fields 0x48 0 0 0 0 0 0)
  | .bkpt c code => some (c.fields 0x49 0 0 0 0 0 (immCode code))
  | .ballot x => some (x.fields 0x50 0)
  | .census f x => some (x.fields 0x51 f.code)
  | .same f x => some (x.fields 0x52 f.code)
  | .shfl f seg x => some (x.fields 0x53 f.code ((0 : BitVec 19) ++ seg))
  | .red f x => some (x.fields 0x54 f.code)
  | .scan f excl x => some (x.fields 0x55 ((0 : BitVec 2) ++ BitVec.ofBool excl ++ f.code.extractLsb' 0 3))
  | .bcast x => some (x.fields 0x56 0)
  | .fadd x => some (x.fields 0x60 0)
  | .fsub x => some (x.fields 0x61 0)
  | .fmul x => some (x.fields 0x62 0)
  | .ffma ftz x => some (x.fields 0x63 0 ((0 : BitVec 21) ++ BitVec.ofBool ftz))
  | .fmin x => some (x.fields 0x64 0)
  | .fmax x => some (x.fields 0x65 0)
  | .fset cc x => some (x.fields 0x66 cc.code)
  | .fsign f x => some (x.fields 0x67 f.code)
  | .fdiv x => some (x.fields 0x68 0)
  | .fsqrt x => some (x.fields 0x69 0)
  | .frcp x => some (x.fields 0x6A 0)
  | .frsq x => some (x.fields 0x6B 0)
  | .fexp2 x => some (x.fields 0x6C 0)
  | .flog2 x => some (x.fields 0x6D 0)
  | .fsin x => some (x.fields 0x6E 0)
  | .fcos x => some (x.fields 0x6F 0)
  | .ftanh x => some (x.fields 0x70 0)
  | .fclass x => some (x.fields 0x71 0)
  | .frnd x => some (x.fields 0x72 0)
  | .fdot ftz x => some (x.fields 0x73 0 ((0 : BitVec 21) ++ BitVec.ofBool ftz))
  | .fact f x => some (x.fields 0x74 f.code)
  | .cvt sat sty x => some (x.fields 0x78 (fnTy sat sty))
  | .bcvtPack m x =>
      some (x.c.fields 0x79 0 (modT x.ty x.rm) x.d.code x.a.code 0 (bcvtHi m ++ (0 : BitVec 10)))
  | .bcvtUnpack m x =>
      some (x.c.fields 0x79 1 (modT x.ty x.rm) x.d.code x.a.code x.b.code (bcvtHi m ++ (0 : BitVec 10)))
  | .ld x => some (x.fields 0x90)
  | .st x => some (x.fields 0x91)
  | .ldu x => some (x.fields 0x92)
  | .ldx x => some (x.fields 0x93)
  | .stc x => some (x.fields 0x94)
  | .lr x => some (x.fields 0x96)
  | .sc x => some (x.fields 0x97)
  | .atom x => some (x.fields 0x95)
  | .xst x => some (x.c.fields 0x98 (fnTy x.rel x.ty) (modM x.sc x.fl x.ord) 0 x.a.code x.b.code x.disp)
  | .xatom x => some (x.fields 0x99)
  | .fenceAcq c sc => some (c.fields 0x9A 0 (modF sc 0) 0 0 0 0)
  | .fenceRel c sc => some (c.fields 0x9A 1 (modF sc 0) 0 0 0 0)
  | .fenceAr c sc => some (c.fields 0x9A 2 (modF sc 0) 0 0 0 0)
  | .fenceSc c sc => some (c.fields 0x9A 3 (modF sc 0) 0 0 0 0)
  | .fenceAck c => some (c.fields 0x9A 4 0 0 0 0 0)
  | .fenceTc c sc => some (c.fields 0x9A 5 (modF sc 0) 0 0 0 0)
  | .cflushWb c a disp => some (c.fields 0x9B 0 0 0 a.code 0 disp)
  | .cflushInv c a disp => some (c.fields 0x9B 1 0 0 a.code 0 disp)
  | .cflushWbinv c a disp => some (c.fields 0x9B 2 0 0 a.code 0 disp)
  | .pref c pol a disp => some (c.fields 0x9C 0 (modM 0 pol false) 0 a.code 0 disp)
  | .barCfg c a b imm => some (c.fields 0xB0 0 0 0 a.code b.code imm)
  | .barArv c sc d a imm => some (c.fields 0xB0 1 (modF sc 0) d.code a.code 0 imm)
  | .barWait c sc a b imm => some (c.fields 0xB0 2 (modF sc 0) 0 a.code b.code imm)
  | .barSync c sc a imm => some (c.fields 0xB0 3 (modF sc 0) 0 a.code 0 imm)
  | .barAdd c sc a b imm => some (c.fields 0xB0 4 (modF sc 0) 0 a.code b.code imm)
  | .barTest c sc d a b imm => some (c.fields 0xB0 5 (modF sc 0) d.code a.code b.code imm)
  | .tlWait c sc tl d a imm => some (c.fields 0xB1 0 (modF sc tl.code) d.code a.code 0 imm)
  | .tlRead c tl d imm => some (c.fields 0xB1 1 (modF 0 tl.code) d.code 0 0 imm)
  | .copy e => some (e.fields 0xC0 0 0)
  | .copyPl t e => some (e.fields 0xC0 1 ((0 : BitVec 28) ++ t))
  | .gather e => some (e.fields 0xC1 0 0)
  | .scadd e => some (e.fields 0xC2 0 0)
  | .sort e => some (e.fields 0xC3 0 0)
  | .tcfg c wait d a scaleoff => some (c.fields 0xC4 (fnBit wait) 0 d.code a.code 0 ((0 : BitVec 12) ++ scaleoff))
  | .trel c wait a => some (c.fields 0xC5 (fnBit wait) 0 0 a.code 0 0)
  | .acfgTake c d a => some (c.fields 0xC6 0 0 d.code a.code 0 0)
  | .acfgRel c a => some (c.fields 0xC6 1 0 0 a.code 0 0)
  | .peer c n a b => some (c.fields 0xC8 0 0 0 a.code b.code ((0 : BitVec 29) ++ n))
  | .mstart c a => some (c.fields 0xC7 0 0 0 a.code 0 0)
  | .coll e => some (e.fields 0xC9 0 0)
  | .mma m =>
      some (mFields 0xD0 (m.shape.code ++ BitVec.ofBool m.z ++ BitVec.ofBool m.sat ++ BitVec.ofBool m.kr ++ m.ctr)
        m.d.code m.a.code m.b.code (m.arow ++ m.brow ++ m.kbn ++ m.kb0))
  | .mzero shape d => some (mFields 0xD1 (shape.code ++ (0 : BitVec 5)) d.code 0 0 0)
  | .mepi shape a desc => some (mFields 0xD2 (shape.code ++ (0 : BitVec 5)) 0 a.code 0 ((0 : BitVec 13) ++ desc))
  | .mwait sc pr ctr a phase => some (mFields 0xD3 (sc ++ BitVec.ofBool pr ++ ctr) 0 a.code 0 phase)
  | .marv sc a amount => some (mFields 0xD4 (modF sc 0) 0 a.code 0 amount)
  | .mloop ctr limit off => some (mFields 0xD5 (ctr ++ (0 : BitVec 5)) 0 0 0 (limit ++ off))
  | .mjmp off => some (mFields 0xD6 0 0 0 0 off)
  | .mstop => some (mFields 0xD7 0 0 0 0 0)
  | .trap c code => some (c.fields 0xE0 0 0 0 0 0 (immCode code))
  | .rtt c => some (c.fields 0xE1 0 0 0 0 0 0)
  | .srd c d num idx => some (c.fields 0xE2 0 0 d.code 0 0 (immSys num idx))
  | .swr c a num idx => some (c.fields 0xE3 0 0 0 a.code 0 (immSys num idx))
  | .yield c => some (c.fields 0xE4 0 0 0 0 0 0)
  | .launch c a => some (c.fields 0xE5 0 0 0 a.code 0 0)
  | .evqPost c a b => some (c.fields 0xE6 0 0 0 a.code b.code 0)
  | .ctxFrz c a => some (c.fields 0xE7 0 0 0 a.code 0 0)
  | .ctxSav c a b => some (c.fields 0xE7 1 0 0 a.code b.code 0)
  | .ctxLd c a b => some (c.fields 0xE7 2 0 0 a.code b.code 0)
  | .ctxRes c a => some (c.fields 0xE7 3 0 0 a.code 0 0)
  | .xinv c a b => some (c.fields 0xE8 0 0 0 a.code b.code 0)
  | .bufset c a b => some (c.fields 0xE9 0 0 0 a.code b.code 0)
  | .eread c d => some (c.fields 0xEA 0 0 d.code 0 0 0)
  | .halt c => some (c.fields 0xEB 0 0 0 0 0 0)
  | _ => Option.none

/-- The word of an instruction; zero for an event. -/
def encode (i : Instr) : IWord :=
  match fieldsOf i with
  | some f => f.toWord
  | Option.none => 0

/-! ### Fields to instruction -/

def parseAtom (mk : AtomOp → Instr) (f : Fields) : Option Instr := (AtomFn.ofCode (f.fn.extractLsb' 0 4)).map fun op => mk (f.atom op)

def parseScan (f : Fields) : Option Instr :=
  if f.fn.extractLsb' 4 2 = 0 then
    (RedFn.ofNat? (f.fn.extractLsb' 0 3).toNat).map fun op => .scan op (f.fn.getLsbD 3) f.alu1
  else Option.none

def Fields.bcvt (f : Fields) : Bcvt :=
  { sat := f.imm.getLsbD 17, v := f.imm.getLsbD 16, res := f.imm.getLsbD 15, ef := f.imm.getLsbD 14,
    dist := f.imm.extractLsb' 10 4 }

/-- The instruction of OPC and FN with the fields as they stand; none where OPC or FN is unassigned (R34, R35). -/
def parse (f : Fields) : Option Instr :=
  let fn := f.fn.toNat
  let z (i : Instr) : Option Instr := if fn = 0 then some i else Option.none
  let c := f.ctl
  let d := Opnd.ofCode f.d
  let a := Opnd.ofCode f.a
  let b := Opnd.ofCode f.b
  match f.opc.toNat with
  | 0x01 => z (.nop c)
  | 0x02 => (flag? fn).map fun s => .iadd s f.alu2
  | 0x03 => (flag? fn).map fun s => .isub s f.alu2
  | 0x04 => (MulFn.ofNat? fn).map fun m => .imul m f.alu2
  | 0x05 => (MulFn.ofNat? fn).map fun m => .imad m f.alu3
  | 0x06 => (flag? fn).map fun s => .idiv s f.alu2
  | 0x07 => z (.imin f.alu2)
  | 0x08 => z (.imax f.alu2)
  | 0x09 => (flag? fn).map fun s => .iabs s f.alu1
  | 0x0A => (flag? fn).map fun s => .ineg s f.alu1
  | 0x0B => (Cmp.ofNat? fn).map fun m => .iset m f.alu2
  | 0x0C => (flag? fn).map fun s => .idot s f.alu3
  | 0x10 => (flag? fn).map fun s => .and s f.alu2
  | 0x11 => (flag? fn).map fun s => .or s f.alu2
  | 0x12 => z (.xor f.alu2)
  | 0x13 => z (.not f.alu1)
  | 0x14 => z (.lut (f.imm.extractLsb' 10 16) f.alu3)
  | 0x18 => z (.shl f.alu2)
  | 0x19 => (flag? fn).map fun s => .shr s f.alu2
  | 0x1A => (flag? fn).map fun s => .rot s f.alu2
  | 0x1B => (flag? fn).map fun s => .shf s f.alu3
  | 0x20 => z (.popc f.alu1)
  | 0x21 => z (.clz f.alu1)
  | 0x22 => z (.ctz f.alu1)
  | 0x23 => z (.brev f.alu1)
  | 0x24 => (flag? fn).map fun s => .bfx s f.alu3
  | 0x25 => z (.bfi f.alu3)
  | 0x26 => z (.bmix f.alu3)
  | 0x28 => z (.mov f.alu1)
  | 0x29 => z (.sel f.alu3)
  | 0x2A => (PsetFn.ofNat? fn).map fun m => .pset m f.alu2
  | 0x2B => (flag? fn).map fun s => if s then .pmovUnpack c a else .pmovPack c d
  | 0x30 => z (.lea c (f.md.extractLsb' 4 3) (f.md.getLsbD 3) d a b f.x)
  | 0x31 =>
    match fn with
    | 0 => some (.ptrMk c (MkSpace.ofCode (f.md.extractLsb' 5 2)) d a b f.imm)
    | 1 => some (.ptrAdd c d a b f.imm)
    | 2 => some (.ptrChk c d a b f.imm)
    | _ => Option.none
  | 0x40 => z (.bra c f.imm)
  | 0x41 => z (.brx c a)
  | 0x42 => z (.call c f.imm)
  | 0x43 => z (.callx c a)
  | 0x44 => z (.ret c)
  | 0x45 => z (.join c d)
  | 0x46 => z (.wait c a b f.imm)
  | 0x47 => z (.jset c d a f.imm)
  | 0x48 => z (.exit c)
  | 0x49 => z (.bkpt c (f.imm.extractLsb' 0 16))
  | 0x50 => z (.ballot f.alu1)
  | 0x51 => (census? fn).map fun m => .census m f.alu1
  | 0x52 => (SameFn.ofNat? fn).map fun m => .same m f.alu1
  | 0x53 => (ShflFn.ofNat? fn).map fun m => .shfl m (f.imm.extractLsb' 10 3) f.alu3
  | 0x54 => (RedFn.ofNat? fn).map fun m => .red m f.alu1
  | 0x55 => parseScan f
  | 0x56 => z (.bcast f.alu2)
  | 0x60 => z (.fadd f.alu2)
  | 0x61 => z (.fsub f.alu2)
  | 0x62 => z (.fmul f.alu2)
  | 0x63 => z (.ffma (f.imm.getLsbD 10) f.alu3)
  | 0x64 => z (.fmin f.alu2)
  | 0x65 => z (.fmax f.alu2)
  | 0x66 => (FCmp.ofNat? fn).map fun m => .fset m f.alu2
  | 0x67 => (SignFn.ofNat? fn).map fun m => .fsign m f.alu2
  | 0x68 => z (.fdiv f.alu2)
  | 0x69 => z (.fsqrt f.alu1)
  | 0x6A => z (.frcp f.alu1)
  | 0x6B => z (.frsq f.alu1)
  | 0x6C => z (.fexp2 f.alu1)
  | 0x6D => z (.flog2 f.alu1)
  | 0x6E => z (.fsin f.alu1)
  | 0x6F => z (.fcos f.alu1)
  | 0x70 => z (.ftanh f.alu1)
  | 0x71 => z (.fclass f.alu1)
  | 0x72 => z (.frnd f.alu1)
  | 0x73 => z (.fdot (f.imm.getLsbD 10) f.alu3)
  | 0x74 => (ActFn.ofNat? fn).map fun m => .fact m f.alu1
  | 0x78 => some (.cvt (f.fn.getLsbD 5) f.tyFn f.alu1)
  | 0x79 => (flag? fn).map fun s =>
      if s then .bcvtUnpack f.bcvt { f.alu2 with imm := 0 } else .bcvtPack f.bcvt { f.alu1 with imm := 0 }
  | 0x90 => some (.ld f.load)
  | 0x91 => some (.st f.store)
  | 0x92 => some (.ldu f.load)
  | 0x93 => some (.ldx f.load)
  | 0x94 => some (.stc f.store)
  | 0x95 => parseAtom .atom f
  | 0x96 => some (.lr f.load)
  | 0x97 => some (.sc f.store)
  | 0x98 => some (.xst f.xst)
  | 0x99 => parseAtom .xatom f
  | 0x9A =>
    match fn with
    | 0 => some (.fenceAcq c f.sc)
    | 1 => some (.fenceRel c f.sc)
    | 2 => some (.fenceAr c f.sc)
    | 3 => some (.fenceSc c f.sc)
    | 4 => some (.fenceAck c)
    | 5 => some (.fenceTc c f.sc)
    | _ => Option.none
  | 0x9B =>
    match fn with
    | 0 => some (.cflushWb c a f.imm)
    | 1 => some (.cflushInv c a f.imm)
    | 2 => some (.cflushWbinv c a f.imm)
    | _ => Option.none
  | 0x9C => z (.pref c f.pol a f.imm)
  | 0xB0 =>
    match fn with
    | 0 => some (.barCfg c a b f.imm)
    | 1 => some (.barArv c f.sc d a f.imm)
    | 2 => some (.barWait c f.sc a b f.imm)
    | 3 => some (.barSync c f.sc a f.imm)
    | 4 => some (.barAdd c f.sc a b f.imm)
    | 5 => some (.barTest c f.sc d a b f.imm)
    | _ => Option.none
  | 0xB1 =>
    match fn with
    | 0 => some (.tlWait c f.sc (Tl.ofCode (f.md.extractLsb' 0 3)) d a f.imm)
    | 1 => some (.tlRead c (Tl.ofCode (f.md.extractLsb' 0 3)) d f.imm)
    | _ => Option.none
  | 0xC0 => (flag? fn).map fun s => if s then .copyPl (f.imm.extractLsb' 0 4) f.eng else .copy f.eng
  | 0xC1 => z (.gather f.eng)
  | 0xC2 => z (.scadd f.eng)
  | 0xC3 => z (.sort f.eng)
  | 0xC4 => (flag? fn).map fun s => .tcfg c s d a (f.imm.extractLsb' 0 20)
  | 0xC5 => (flag? fn).map fun s => .trel c s a
  | 0xC6 => (flag? fn).map fun s => if s then .acfgRel c a else .acfgTake c d a
  | 0xC7 => z (.mstart c a)
  | 0xC8 => z (.peer c (f.imm.extractLsb' 0 3) a b)
  | 0xC9 => z (.coll f.eng)
  | 0xD0 => z (.mma { shape := f.shape, z := f.md.getLsbD 4, sat := f.md.getLsbD 3, kr := f.md.getLsbD 2,
                      ctr := f.md.extractLsb' 0 2, d := d, a := a, b := b, kb0 := f.imm.extractLsb' 0 12,
                      kbn := f.imm.extractLsb' 12 12, brow := f.imm.extractLsb' 24 4, arow := f.imm.extractLsb' 28 4 })
  | 0xD1 => z (.mzero f.shape d)
  | 0xD2 => z (.mepi f.shape a (f.imm.extractLsb' 0 19))
  | 0xD3 => z (.mwait f.sc (f.md.getLsbD 2) (f.md.extractLsb' 0 2) a f.imm)
  | 0xD4 => z (.marv f.sc a f.imm)
  | 0xD5 => z (.mloop (f.md.extractLsb' 5 2) (f.imm.extractLsb' 20 12) (f.imm.extractLsb' 0 20))
  | 0xD6 => z (.mjmp f.imm)
  | 0xD7 => z .mstop
  | 0xE0 => z (.trap c (f.imm.extractLsb' 0 16))
  | 0xE1 => z (.rtt c)
  | 0xE2 => z (.srd c d (f.imm.extractLsb' 0 12) (f.imm.extractLsb' 12 3))
  | 0xE3 => z (.swr c a (f.imm.extractLsb' 0 12) (f.imm.extractLsb' 12 3))
  | 0xE4 => z (.yield c)
  | 0xE5 => z (.launch c a)
  | 0xE6 => z (.evqPost c a b)
  | 0xE7 =>
    match fn with
    | 0 => some (.ctxFrz c a)
    | 1 => some (.ctxSav c a b)
    | 2 => some (.ctxLd c a b)
    | 3 => some (.ctxRes c a)
    | _ => Option.none
  | 0xE8 => z (.xinv c a b)
  | 0xE9 => z (.bufset c a b)
  | 0xEA => z (.eread c d)
  | 0xEB => z (.halt c)
  | _ => Option.none

/-! ### Checks 7 to 9 of R36 -/

/-- The bits an operand of a type occupies: 32, 64 or 128 (R71, R118). -/
def Ty.slot : Ty → Nat
  | .b64 | .s64 | .f64 => 64
  | .b128 => 128
  | _ => 32

/-- What an operand position permits (R71 and the entries). -/
inductive Pos where
  | src (w : Nat) (imm : Bool)
  | dst (w : Nat)
  | perThread (w : Nat)
  | pred
  | uni
  | uniOrImm
  | uniVal (withJ : Bool)
  | uniSpec
  | base
  | mask
  | tile
  | slab
  | bar
  | movSrc (ty : Ty)
  | movDst (ty : Ty) (fromMask : Bool)
  | bcastSrc (w : Nat)
  deriving DecidableEq, Repr, Inhabited

/-- A v register, pair or quad: aligned, inside v255 and below the budget vb of registers per thread (R23). -/
def vOk (vb w : Nat) (i : BitVec 8) : Bool := i.toNat % (w / 32) == 0 && decide (i.toNat + w / 32 ≤ vb)

def srcOk (vb w : Nat) (imm : Bool) : Opnd → Bool
  | .v i => vOk vb w i
  | .w _ | .sp _ => w != 128
  | .o _ | .y _ => w == 32
  | .imm => imm && w != 128
  | _ => false

def dstOk (vb w : Nat) : Opnd → Bool
  | .v i => vOk vb w i
  | .w _ => w != 128
  | .o _ | .y _ => w == 32
  | _ => false

def Pos.ok (vb : Nat) : Pos → Opnd → Bool
  | .src w imm, o => srcOk vb w imm o
  | .dst w, o => dstOk vb w o
  | .perThread w, o => match o with
    | .w _ => false
    | _ => dstOk vb w o
  | .pred, o => match o with
    | .p _ => true
    | _ => false
  | .uni, o => match o with
    | .w _ => true
    | _ => false
  | .uniOrImm, o => match o with
    | .w _ | .imm => true
    | _ => false
  | .uniVal withJ, o => match o with
    | .w _ | .imm => true
    | .j _ => withJ
    | .sp s => s != .tid
    | _ => false
  | .uniSpec, o => match o with
    | .w _ => true
    | .sp s => s != .tid
    | _ => false
  | .base, o => match o with
    | .v i => vOk vb 64 i
    | .w _ => true
    | _ => false
  | .mask, o => match o with
    | .j _ => true
    | _ => false
  | .tile, o => match o with
    | .t _ => true
    | _ => false
  | .slab, o => match o with
    | .a _ => true
    | _ => false
  | .bar, o => match o with
    | .b _ => true
    | _ => false
  | .movSrc ty, o => match o with
    | .j _ => ty == .b32
    | _ => srcOk vb ty.slot true o
  | .movDst ty fromMask, o => match o with
    | .w _ => ty != .b128
    | _ => dstOk vb ty.slot o && !fromMask
  | .bcastSrc w, o => match o with
    | .v i => vOk vb w i
    | .o _ | .y _ => w == 32
    | .sp s => s == .tid && w == 32
    | _ => false

/-- A per-thread source (R24). -/
def Opnd.perThread : Opnd → Bool
  | .v _ | .o _ | .y _ | .p _ => true
  | .sp s => s == .tid
  | _ => false

def Opnd.isUniform : Opnd → Bool
  | .w _ => true
  | _ => false

abbrev PosList := List (Nat × Pos × Opnd)

def s1 (x : Alu1) (wd wa : Nat) (imm : Bool) : PosList := [(0, .dst wd, x.d), (1, .src wa imm, x.a)]
def s2 (x : Alu2) (wd wa wb : Nat) : PosList := [(0, .dst wd, x.d), (1, .src wa true, x.a), (2, .src wb true, x.b)]
def s3 (x : Alu3) (wd wa wb wx : Nat) : PosList :=
  [(0, .dst wd, x.d), (1, .src wa false, x.a), (2, .src wb false, x.b), (3, .src wx false, x.x)]
def sEng (e : Eng) : PosList := [(0, .uni, e.d), (1, .uni, e.a)] ++ (if e.bar then [(2, .bar, e.b)] else [])
def sAtom (x : AtomOp) : PosList :=
  (if x.nr then [] else [(0, .dst x.ty.slot, x.d)]) ++ [(1, .base, x.a), (2, .src x.ty.slot false, x.b)] ++
  (if x.op = .cas then [(3, .src x.ty.slot false, x.x)] else [])

/-- The operand positions of each form, in the order D, A, B, C, with what each permits. -/
def positions : Instr → PosList
  | .iadd _ x | .isub _ x | .idiv _ x | .imin x | .imax x | .and _ x | .or _ x | .xor x => s2 x x.ty.slot x.ty.slot x.ty.slot
  | .imul f x => s2 x (if f = .wide then 2 * x.ty.slot else x.ty.slot) x.ty.slot x.ty.slot
  | .imad f x =>
    s3 x (if f = .wide then 2 * x.ty.slot else x.ty.slot) x.ty.slot x.ty.slot (if f = .wide then 2 * x.ty.slot else x.ty.slot)
  | .iabs _ x | .ineg _ x | .not x | .brev x => s1 x x.ty.slot x.ty.slot false
  | .iset _ x => [(0, .pred, x.d), (1, .src x.ty.slot true, x.a), (2, .src x.ty.slot true, x.b)]
  | .idot _ x => s3 x 32 32 32 32
  | .lut _ x => s3 x x.ty.slot x.ty.slot x.ty.slot x.ty.slot
  | .shl x | .shr _ x | .rot _ x => s2 x x.ty.slot x.ty.slot 32
  | .shf _ x => s3 x x.ty.slot x.ty.slot x.ty.slot 32
  | .popc x | .clz x | .ctz x => s1 x 32 x.ty.slot false
  | .bfx _ x => s3 x x.ty.slot x.ty.slot 32 32
  | .bfi x => s3 x x.ty.slot x.ty.slot x.ty.slot 32
  | .bmix x => s3 x 32 32 32 32
  | .mov x =>
    [(0, .movDst x.ty (match x.a with
      | .j _ => true
      | _ => false), x.d), (1, .movSrc x.ty, x.a)]
  | .sel x =>
    [(0, .dst x.ty.slot, x.d), (1, .src x.ty.slot false, x.a), (2, .src x.ty.slot false, x.b), (3, .pred, x.x)]
  | .pset _ x => [(0, .pred, x.d), (1, .pred, x.a), (2, .pred, x.b)]
  | .pmovPack _ d => [(0, .perThread 32, d)]
  | .pmovUnpack _ a => [(1, .src 32 false, a)]
  | .lea _ _ _ d a b x => [(0, .dst 64, d), (1, .src 64 false, a), (2, .src 32 false, b), (3, .src 64 false, x)]
  | .ptrMk _ sp d a b _ => [(0, .dst 64, d), (1, .src 64 true, a)] ++ (if sp = .ctl then [] else [(2, .src 32 true, b)])
  | .ptrAdd _ d a b _ => [(0, .dst 64, d), (1, .src 64 true, a), (2, .src 64 true, b)]
  | .ptrChk _ d a b _ => [(0, .pred, d), (1, .src 64 true, a), (2, .src 32 true, b)]
  | .brx _ a | .callx _ a => [(1, .src 64 false, a)]
  | .join _ d => [(0, .mask, d)]
  | .wait _ a b _ => [(1, .mask, a), (2, .uniVal true, b)]
  | .jset _ d a _ => [(0, .mask, d), (1, .uniVal true, a)]
  | .ballot x => [(0, .dst 32, x.d), (1, .pred, x.a)]
  | .census _ x => [(0, .pred, x.d), (1, .pred, x.a)]
  | .same _ x => [(0, .perThread 32, x.d), (1, .src x.ty.slot false, x.a)]
  | .shfl _ _ x =>
    [(0, .perThread x.ty.slot, x.d), (1, .src x.ty.slot false, x.a), (2, .src 32 false, x.b), (3, .src x.ty.slot false, x.x)]
  | .red _ x => s1 x x.ty.slot x.ty.slot false
  | .scan _ _ x => [(0, .perThread x.ty.slot, x.d), (1, .src x.ty.slot false, x.a)]
  | .bcast x => [(0, .dst x.ty.slot, x.d), (1, .bcastSrc x.ty.slot, x.a), (2, .uniVal false, x.b)]
  | .fadd x | .fsub x | .fmul x | .fmin x | .fmax x | .fdiv x => s2 x x.ty.slot x.ty.slot x.ty.slot
  | .ffma _ x => s3 x x.ty.slot x.ty.slot x.ty.slot x.ty.slot
  | .fset _ x => [(0, .pred, x.d), (1, .src x.ty.slot true, x.a), (2, .src x.ty.slot true, x.b)]
  | .fsign f x =>
    [(0, .dst x.ty.slot, x.d), (1, .src x.ty.slot true, x.a)] ++ (if f = .copy then [(2, .src x.ty.slot true, x.b)] else [])
  | .fsqrt x | .frcp x | .frsq x | .fexp2 x | .flog2 x | .fsin x | .fcos x | .ftanh x | .frnd x | .fact _ x =>
    s1 x x.ty.slot x.ty.slot false
  | .fclass x => s1 x 32 x.ty.slot false
  | .fdot _ x => s3 x 32 32 32 32
  | .cvt _ sty x => s1 x x.ty.slot sty.slot false
  | .bcvtPack _ x => [(0, .perThread 32, x.d), (1, .src 32 false, x.a)]
  | .bcvtUnpack _ x => [(0, .perThread 32, x.d), (1, .src 32 false, x.a), (2, .uni, x.b)]
  | .ld x => [(0, .perThread x.ty.slot, x.d), (1, .base, x.a)]
  | .st x => [(1, .base, x.a), (2, .src x.ty.slot false, x.b)]
  | .ldu x => [(0, .uni, x.d), (1, .uni, x.a)]
  | .ldx x => [(0, .perThread x.ty.slot, x.d), (1, .uni, x.a)]
  | .stc x => [(0, .uni, x.d), (1, .uni, x.a), (2, .src x.ty.slot false, x.b)]
  | .lr x => [(0, .perThread x.ty.slot, x.d), (1, .base, x.a)]
  | .sc x => [(0, .perThread 32, x.d), (1, .base, x.a), (2, .src x.ty.slot false, x.b)]
  | .atom x | .xatom x => sAtom x
  | .xst x => [(1, .base, x.a), (2, .src x.ty.slot false, x.b)]
  | .cflushWb _ a _ | .cflushInv _ a _ | .cflushWbinv _ a _ | .pref _ _ a _ => [(1, .base, a)]
  | .barCfg _ a b _ => [(1, .bar, a), (2, .uniOrImm, b)]
  | .barArv _ _ d a _ => [(0, .uni, d), (1, .bar, a)]
  | .barWait _ _ a b _ => [(1, .bar, a), (2, .uniOrImm, b)]
  | .barSync _ _ a _ => [(1, .bar, a)]
  | .barAdd _ _ a b _ => [(1, .bar, a), (2, .uniOrImm, b)]
  | .barTest _ _ d a b _ => [(0, .pred, d), (1, .bar, a), (2, .uniOrImm, b)]
  | .tlWait _ _ _ d a _ => [(0, .pred, d), (1, .uniOrImm, a)]
  | .tlRead _ _ d _ => [(0, .uni, d)]
  | .copy e | .copyPl _ e | .gather e | .scadd e | .sort e | .coll e => sEng e
  | .tcfg _ _ d a _ => [(0, .tile, d), (1, .uni, a)]
  | .trel _ _ a => [(1, .tile, a)]
  | .acfgTake _ d a => [(0, .uni, d), (1, .slab, a)]
  | .acfgRel _ a => [(1, .slab, a)]
  | .peer _ _ a b => [(1, .uni, a), (2, .uniSpec, b)]
  | .mstart _ a => [(1, .uni, a)]
  | .mma m => [(0, .slab, m.d), (1, .tile, m.a), (2, .tile, m.b)]
  | .mzero _ d => [(0, .slab, d)]
  | .mepi _ a _ => [(1, .slab, a)]
  | .mwait _ _ _ a _ => [(1, .bar, a)]
  | .marv _ a _ => [(1, .bar, a)]
  | .srd _ d _ _ => [(0, .uni, d)]
  | .swr _ a _ _ => [(1, .uni, a)]
  | .launch _ a => [(1, .uni, a)]
  | .evqPost _ a b => [(1, .uni, a), (2, .uni, b)]
  | .ctxFrz _ a | .ctxRes _ a => [(1, .uni, a)]
  | .ctxSav _ a b | .ctxLd _ a b => [(1, .uni, a), (2, .uni, b)]
  | .xinv _ a b | .bufset _ a b => [(1, .uni, a), (2, .uni, b)]
  | .eread _ d => [(0, .uni, d)]
  | _ => []

/-- The instructions of R24 whose entries define a uniform result from per-thread sources. -/
def uniformException : Instr → Bool
  | .ldu _ | .stc _ | .ballot _ | .red _ _ | .bcast _ | .srd _ _ _ _ => true
  | _ => false

/-- The first position, D to C, whose operand its entry does not permit. raw says which fields hold a special value of a
reserved code. -/
def firstBad (vb : Nat) (raw : Nat → Bool) : PosList → Option Nat
  | [] => Option.none
  | (k, q, o) :: rest => if raw k || !q.ok vb o then some k else firstBad vb raw rest

/-- R24: with a uniform destination, the first per-thread source. DEDUCED (log 91): the operand named is that source. -/
def firstPerThread : PosList → Option Nat
  | [] => Option.none
  | (k, _, o) :: rest => if k != 0 && o.perThread then some k else firstPerThread rest

def uniformDst : PosList → Bool
  | (0, _, o) :: _ => o.isUniform
  | _ => false

/-- Check 9: the operand field named in TVAL. DESIGN CHOICE (log 91): of several failing fields the first in the order D, A, B, C,
a field outside its class (R23) before a per-thread source under a uniform destination (R24). -/
def badOperand (vb : Nat) (raw : Nat → Bool) (i : Instr) : Option Nat :=
  match firstBad vb raw (positions i) with
  | some k => some k
  | Option.none =>
    if uniformDst (positions i) && !uniformException i then firstPerThread (positions i) else Option.none

/-- The immediate word of a form that has none (Use — of R35, Use I without B), and the operand fields that a form of a
shared layout leaves unused, are zero (check 7). -/
def reservedOk : Instr → Bool
  | .iabs _ x | .ineg _ x | .not x | .popc x | .clz x | .ctz x | .brev x | .ballot x | .census _ x | .same _ x
  | .red _ x | .scan _ _ x | .fsqrt x | .frcp x | .frsq x | .fexp2 x | .flog2 x | .fsin x | .fcos x | .ftanh x
  | .fclass x | .frnd x | .fact _ x | .cvt _ _ x | .bcvtPack _ x => x.imm == 0
  | .pset _ x | .bcvtUnpack _ x => x.imm == 0
  | .fsign f x => f == .copy || x.b == Opnd.none
  | .ptrMk _ sp _ _ b _ => sp != .ctl || b == Opnd.none
  | .atom x | .xatom x => (!x.nr || x.d == Opnd.none) && (x.op == .cas || x.x == Opnd.none)
  | .copy e | .copyPl _ e | .gather e | .scadd e | .sort e | .coll e => e.bar || e.b == Opnd.none
  | .st x => x.d == Opnd.none
  | _ => true

def Ty.isInt4 : Ty → Bool
  | .b32 | .s32 | .b64 | .s64 => true
  | _ => false
def Ty.isB : Ty → Bool
  | .b32 | .b64 => true
  | _ => false
/-- .f16 .bf16 .f32 .f64 -/
def Ty.isF : Ty → Bool
  | .f16 | .bf16 | .f32 | .f64 => true
  | _ => false
def Ty.isX2 : Ty → Bool
  | .f16x2 | .bf16x2 => true
  | _ => false
/-- The types of CVT (R118). -/
def Ty.isCvt : Ty → Bool
  | .b8 | .b16 | .b32 | .b64 | .s8 | .s16 | .s32 | .s64 | .f16 | .bf16 | .tf32 | .f32 | .f64 | .e4m3 | .e5m2 => true
  | _ => false
def Ty.isLoad : Ty → Bool
  | .b8 | .b16 | .s8 | .s16 | .b32 | .b64 | .b128 => true
  | _ => false
def Ty.isStore : Ty → Bool
  | .b8 | .b16 | .b32 | .b64 | .b128 => true
  | _ => false
/-- .f16 .bf16 .f32 -/
def Ty.isFn : Ty → Bool
  | .f16 | .bf16 | .f32 => true
  | _ => false

def int1 (x : Alu1) (q : Ty → Bool) : Bool := q x.ty && x.rm == .rne
def int2 (x : Alu2) (q : Ty → Bool) : Bool := q x.ty && x.rm == .rne
def int3 (x : Alu3) (q : Ty → Bool) : Bool := q x.ty && x.rm == .rne

/-- R106. -/
def redOk (f : RedFn) (x : Alu1) : Bool :=
  match f with
  | .add => (x.ty.isInt4 && x.rm == .rne) || x.ty.isF
  | .min | .max => (x.ty.isInt4 || x.ty.isF) && x.rm == .rne
  | .and | .or | .xor => x.ty.isB && x.rm == .rne

/-- R120. -/
def bcvtOk (pack : Bool) (m : Bcvt) (ty : Ty) (rm : Rnd) : Bool :=
  let dx := ty == .dx4 || ty == .dx8
  (dx || ty == .mx4 || ty == .mx8) && (!m.v || ty == .mx8) && (pack || (!m.res && !m.ef)) && (!m.ef || rm == .rne) &&
  (!m.res || m.ef) && (if pack && dx then m.dist != 0 else m.dist == 0)

/-- A scope code with .acq or .rel, and none without (R125, R130); codes 12 to 15 are reserved (R33). -/
def scopeOk (need : Bool) (sc : Scope) : Bool := decide (sc.toNat < 12) && (need == (sc != 0))

/-- R132. -/
def atomTyOk (op : AtomFn) (ty : Ty) : Bool :=
  match op with
  | .add | .min | .max => ty.isInt4
  | .and | .or | .xor | .exch | .cas => ty.isB
  | .inc | .dec => ty == .b32
  | .fadd => ty == .f32 || ty == .f64 || ty.isX2
  | .fmin | .fmax => ty == .f32 || ty == .f64

def atomOk (x : AtomOp) : Bool := atomTyOk x.op x.ty && scopeOk (x.acq || x.rel) x.sc
def loadOk (x : LoadOp) (q : Ty → Bool) : Bool := q x.ty && scopeOk x.acq x.sc && x.pol != 3
def storeOk (x : StoreOp) (q : Ty → Bool) : Bool := q x.ty && scopeOk x.rel x.sc && x.pol != 3

/-- A required scope, at least .quad for the quad-linked barriers (R141, R173). -/
def barScopeOk (sc : Scope) (a : Opnd) : Bool :=
  scopeOk true sc && (match a with
    | .b i => decide (i.toNat < 96) || decide (3 ≤ sc.toNat)
    | _ => true)

/-- Check 8: the codes, and the combinations of codes that an entry rules out. -/
def codesOk : Instr → Bool
  | .iadd _ x | .isub _ x | .idiv _ x | .imin x | .imax x | .iset _ x | .shr _ x => int2 x Ty.isInt4
  | .imul f x => int2 x Ty.isInt4 && (f != .wide || x.ty == .b32 || x.ty == .s32)
  | .imad f x => int3 x Ty.isInt4 && (f != .wide || x.ty == .b32 || x.ty == .s32)
  | .iabs _ x | .ineg _ x => int1 x fun t => t == .s32 || t == .s64
  | .idot _ x => int3 x fun t => t == .s8 || t == .b8 || t == .s4
  | .and _ x | .or _ x | .xor x | .shl x | .rot _ x | .bcast x => int2 x Ty.isB
  | .not x | .popc x | .clz x | .ctz x | .brev x | .same _ x => int1 x Ty.isB
  | .lut _ x | .shf _ x | .bfx _ x | .bfi x | .sel x => int3 x Ty.isB
  | .bmix x => int3 x (· == .b32)
  | .mov x => int1 x fun t => t.isB || t == .b128
  | .pset _ x => int2 x (· == .b8)
  | .ballot x | .census _ x => int1 x (· == .b8)
  | .shfl _ seg x => int3 x Ty.isB && decide (seg.toNat ≤ 5)
  | .red f x | .scan f _ x => redOk f x
  | .fadd x | .fsub x | .fmul x => x.ty.isF || x.ty.isX2
  | .ffma ftz x => (x.ty.isF || x.ty.isX2) && (!ftz || x.ty == .f16 || x.ty == .bf16 || x.ty.isX2)
  | .fmin x | .fmax x | .fsign _ x => int2 x fun t => t.isF || t.isX2
  | .fset _ x => int2 x Ty.isF
  | .fdiv x => x.ty == .f32 || x.ty == .f64
  | .fsqrt x | .frcp x | .frnd x => x.ty.isF
  | .frsq x | .fexp2 x | .flog2 x | .fsin x | .fcos x | .ftanh x => x.ty.isFn
  | .fclass x => int1 x Ty.isF
  | .fdot ftz x => (x.ty.isX2 || x.ty == .e4m3 || x.ty == .e5m2) && (!ftz || x.ty.isX2)
  | .fact f x => (x.ty.isFn || x.ty.isX2) && (f != .relu || x.rm == .rne)
  | .cvt _ sty x => x.ty.isCvt && sty.isCvt
  | .bcvtPack m x => bcvtOk true m x.ty x.rm
  | .bcvtUnpack m x => bcvtOk false m x.ty x.rm
  | .ld x => loadOk x Ty.isLoad
  | .st x => storeOk x Ty.isStore
  | .ldu x | .lr x => loadOk x Ty.isB
  | .ldx x => loadOk x fun t => t.isLoad && t != .b128
  | .stc x => storeOk x fun t => t.isStore && t != .b128
  | .sc x => storeOk x Ty.isB
  | .atom x => atomOk x && x.fl == 0
  | .xatom x => atomOk x
  | .xst x => x.ty.isStore && scopeOk x.rel x.sc
  | .fenceAcq _ sc | .fenceRel _ sc | .fenceAr _ sc | .fenceSc _ sc | .fenceTc _ sc => scopeOk true sc
  | .pref _ pol _ _ => pol != 3
  | .barArv _ sc _ a _ | .barWait _ sc a _ _ | .barSync _ sc a _ | .barAdd _ sc a _ _ | .barTest _ sc _ a _ _ =>
    barScopeOk sc a
  | .tlWait _ sc _ _ _ _ => scopeOk true sc
  | .mwait sc _ _ a _ | .marv sc a _ => barScopeOk sc a
  | _ => true

/-! ### The decoder -/

/-- Who fetched the word: a rank, with the registers-per-thread budget of its role, or a sequencer. -/
inductive Fetcher where
  | rank (vb : Nat)
  | sequencer
  deriving DecidableEq, Repr, Inhabited

/-- Why a word whose opcode and function are assigned is refused: checks 7, 8 and 9 of R36. -/
inductive Reject where
  | reservedField
  | reservedCode
  | operand (field : Nat)
  deriving DecidableEq, Repr, Inhabited

/-- Opcodes 0xD0 to 0xDF, the M-stream (R34). -/
def isMOpcode (opc : BitVec 8) : Bool := opc.extractLsb' 4 4 == 0xD
/-- Opcodes 0xF0 to 0xFE, the extension space (R34). -/
def isExtOpcode (opc : BitVec 8) : Bool := opc.extractLsb' 4 4 == 0xF && opc != 0xFF

/-- Check 5: the opcode belongs to who fetched it. -/
def fetcherOk : Fetcher → BitVec 8 → Bool
  | .rank _, opc => !isMOpcode opc
  | .sequencer, opc => isMOpcode opc || opc == 0x01

def Fetcher.budget : Fetcher → Nat
  | .rank vb => vb
  | .sequencer => 256

/-- The forms whose immediate word is the three-source layout (Use 3 of R35). -/
def isUse3 (opc : BitVec 8) : Bool :=
  [0x05, 0x0C, 0x14, 0x1B, 0x24, 0x25, 0x26, 0x29, 0x30, 0x53, 0x63, 0x73, 0x79, 0x95, 0x99].contains opc.toNat

/-- The fields with reserved special-value codes read as code 0; which fields held one is in rawBad. -/
def Fields.fix (f : Fields) : Fields :=
  { f with d := fixSpecial f.d, a := fixSpecial f.a, b := fixSpecial f.b,
           imm := if isUse3 f.opc then f.imm.extractLsb' 10 22 ++ fixSpecial (f.imm.extractLsb' 0 10) else f.imm }

/-- DEDUCED (log 12): a special-value code above 8 is an index beyond its class, check 9, not a reserved specifier bit. -/
def Fields.rawBad (f : Fields) : Nat → Bool
  | 0 => badSpecial f.d
  | 1 => badSpecial f.a
  | 2 => badSpecial f.b
  | _ => isUse3 f.opc && badSpecial (f.imm.extractLsb' 0 10)

/-- An M-stream NOP has guard and hint byte zero (R35, R36 check 7). -/
def seqNopOk (who : Fetcher) (f : Fields) : Bool :=
  match who with
  | .rank _ => true
  | .sequencer => f.gidx == 0 && !f.gneg && f.hint == 0

/-- The outcome of checks 1 to 9 of R36, in their order. Words of checks 1, 4, 5 and 6 are the row ILLEGAL_OPCODE, those of
check 2 the row EXTENSION_OPCODE (every feature bit of this part is clear, R10). -/
def decodeFields (who : Fetcher) (f : Fields) : Except Reject Instr :=
  if f.opc = 0x00 ∨ f.opc = 0xFF then .ok (.illegalOpcode f.toWord)
  else if isExtOpcode f.opc then .ok (.extensionOpcode f.toWord)
  else
    match parse f.fix with
    | Option.none => .ok (.illegalOpcode f.toWord)
    | some i =>
      if !fetcherOk who f.opc then .ok (.illegalOpcode f.toWord)
      else if fieldsOf i ≠ some f.fix ∨ reservedOk i = false ∨ seqNopOk who f = false then .error .reservedField
      else if codesOk i = false then .error .reservedCode
      else
        match badOperand who.budget f.rawBad i with
        | some k => .error (.operand k)
        | Option.none => .ok i

def decodeWord (who : Fetcher) (w : IWord) : Except Reject Instr := decodeFields who (Fields.ofWord w)

/-- The instruction at the head of a byte string, and the rest: total on any bytes. -/
def decodeBytes (who : Fetcher) (bs : List Byte) : Option (Except Reject Instr × List Byte) :=
  if bs.length < 12 then Option.none else some (decodeWord who (wordOfBytes (bs.take 12)), bs.drop 12)

/-- The instruction of a word of the opcode table: a rank's, or a sequencer's for opcodes 0xD0 to 0xDF. -/
def tableFetcher (w : IWord) : Fetcher := if isMOpcode (w.extractLsb' 88 8) then .sequencer else .rank 256

def decodeTableWord (nbits w : Nat) : Option Instr :=
  let bits : IWord := BitVec.ofNat 96 (w % 2 ^ nbits)
  match decodeWord (tableFetcher bits) bits with
  | .ok i => some i
  | .error _ => Option.none

end Sys2Proof
end

