-- ==== Sys2Proof/Config.lean ====
section
/-! DEFINITION. What the spec fixes as a number for this part, and the free values: what the spec leaves open. The free
values have no body, so nothing can be proved about which value they take. -/

namespace Sys2Proof.Config

/-- Cores of the package (R5). -/
def cores : Nat := 224
/-- Lanes of a core (R5). -/
def lanes : Nat := 32
/-- Rank slots of a lane (R5, R200). -/
def slotsPerLane : Nat := 16
/-- Registers of a lane that ranks share (R200). -/
def laneRoom : Nat := 256
/-- Scratchpad bytes of a core (R5). -/
def scratchBytes : Nat := 524288
/-- Plane-store bytes of a core (R5). -/
def planeBytes : Nat := 1048576
/-- Physical slabs of a core (R232). -/
def slabsPerCore : Nat := 8
/-- Bytes of a slab (R232). -/
def slabBytes : Nat := 65536
/-- Core barriers (R200) and quad-linked barriers (R140). -/
def coreBars : Nat := 96
def quadBars : Nat := 32
/-- Instructions of a ply (R211). -/
def plyLimit : Nat := 24
/-- Entries of a live record (R348). -/
def recordLimit : Nat := 32
/-- Retained tags of a home slice (R352). -/
def tagLimit : Nat := 8192
/-- Response buffers of the fabric interface (R313). -/
def respBuffers : Nat := 65536
/-- ORD packets held (R322), packets cut (R355), entries of an armed ring (R364). -/
def ordLimit : Nat := 64
def cutLimit : Nat := 64
def armedLimit : Nat := 112
/-- Reference cycles in a microsecond (R398). -/
def cyclesPerUs : Nat := 1750
/-- Passed-over cycles before a room hold (R199). -/
def roomHoldCycles : Nat := 65536
/-- Starvation limit (R214) and path limit (R215). -/
def starveLimit : Nat := 256
def pathLimit : Nat := 64
/-- Sectors of a core's L1 of 128 KiB, and lines of the package's L2 of 192 MiB (R5). -/
def l1Sectors : Nat := 1024
def l2Lines : Nat := 393216
/-- What a page-table entry says (R294): valid, leaf, rights (bit 2 RD, 1 WR, 0 EX, as PERM of R295) and bits 47:12 of the next table or of
the page. -/
structure Pte where
  valid : Bool
  leaf : Bool
  perm : BitVec 3
  frame : BitVec 36
  deriving DecidableEq, Repr, Inhabited

/-- FREE VALUE (log 7). The layout of a page-table entry is not given (R294). -/
opaque pte : BitVec 64 → Pte
/-- FREE VALUE (log 8). Whether a load that R265 and R273 let take an L1 copy, or a fetch that R39 lets take an old copy of
a granule, takes the copy; applied to a counter of State. -/
opaque takeCopy : Nat → Bool
/-- FREE VALUE (log 81). Which of the pieces of a command that may go next goes, of those that the spec leaves without order (R155, R160,
R246); applied to a counter of State, taken modulo their number. -/
opaque nextPiece : Nat → Nat
/-- FREE VALUE (log 9). Whether an SC outside the placement that R129 guarantees fails although its reservation stands;
applied to a counter of State. -/
opaque scFails : Nat → Bool
/-- FREE VALUE (log 21). Whether a flowlet that may choose its path afresh does (R320); applied to a counter of State. -/
opaque newPath : Nat → Bool
/-- FREE VALUE (log 88). Flit buffers of a channel of a link, less one (R312). -/
opaque linkCredits : Nat
/-- FREE VALUE (log 88). AES-256-GCM (R319): the key stream of a key and nonce, byte by byte, and the 64-bit tag of a key, nonce,
additional data and ciphertext. -/
opaque keyStream : BitVec 256 → Nat → Nat → Byte
opaque sealTag : BitVec 256 → Nat → Nat → List Byte → BitVec 64
/-- FREE VALUE (log 88). The link key of a port's attested session, by port and count of attestations, and the direction bit of the nonces
that this package sends under there (R317). -/
opaque linkKey : Nat → Nat → BitVec 256
opaque linkDir : Nat → Bool
/-- FREE VALUE (log 11). What a packet's body says beside its record and data. -/
opaque packetRest : List Byte → PacketRest
/-- FREE VALUE (log 22). Which of bounds, rights and owner a rank's fault names when a remote home refuses with status 0x0002;
applied to a counter of State. -/
opaque refusedFor : Nat → Fin 3
/-- FREE VALUE (log 26). The pseudo-channel of an offset of a buffer homed on another package, whose table this package does
not hold: package, partition × 4096 + buffer, offset. -/
opaque remoteChannel : Nat → Nat → Nat → Nat
/-- FREE VALUE (log 35). The retention class a row was binned into at boot (R297), 0 to 2 for 128, 64 and 32 ms: pseudo-channel, row. -/
opaque rowClass : Nat → Nat → Fin 3
/-- FREE VALUE (log 39). The SHA-384 digest of a chunk (R385), of its bytes that are not zero, by offset. -/
opaque sha384 : List (Nat × Byte) → BitVec 384
/-- FREE VALUE (log 40). What a data-parallel replica answers for a chunk of a generation (R388, R389), none where it does not
answer: package, partition, generation, chunk; its digest and its bytes that are not zero. -/
opaque replica : Nat → Nat → Nat → Nat → Option (BitVec 384 × List (Nat × Byte))
/-- The digests that are measured (R392, log 10): the boot ROM; the management firmware, the control-core firmware and the kernel image, of
copy B or copy A. -/
opaque romDigest : BitVec 384
opaque firmwareDigest : Bool → BitVec 384
opaque controlDigest : Bool → BitVec 384
opaque kernelDigest : Bool → BitVec 384

/-- The bytes, by offset, of a slot of a checkpoint's region: partition, generation, time. The spec gives a slot no layout (R385, log 40). -/
opaque slotImage : Nat → Nat → Nat → List (Nat × Byte)

/-- FREE VALUE (log 10). The signed answer to an attestation request (R392): certificate chain, session keys and transcript
bytes belong to SPDM 1.3. -/
opaque spdmAnswer : List Byte → List Byte

/-- FREE VALUE (log 4). The control-space base of the launch-window region, which the management processor reports at host join
(R394). A rejected window write's record holds its window's address (R196). -/
opaque windowBase : BitVec 64
/-- FREE VALUE (log 4). The control-space base of the package control block, reported at host join too (R394). -/
opaque pcbBase : BitVec 64
/-- Bytes of the launch-window region and of the package control block (R394). -/
def windowBytes : Nat := 16777216
def pcbBytes : Nat := 0x20000

end Sys2Proof.Config
end

