-- ==== Sys2Proof/Machine/State.lean ====
section
/-! DEFINITION. The state of one package, plain data: what the spec gives the machine, and the model's own fields, which are
marked so. Lists of (key, value) pairs with rising keys (Sparse) hold what is numbered; an unlisted key is absent or reads as
the default that the reading operation names. -/

namespace Sys2Proof.Machine

/-! ### Ranks -/

/-- A thread's row of the thread table (R366) with its return stack, newest first (R95); hw entries stand in hardware. -/
structure Thread where
  pc : Long
  exited : Bool
  parked : Bool
  waitJ : BitVec 4
  waitMask : Mask
  passed : Nat
  stack : List Long
  hw : Nat
  deriving DecidableEq, Repr, Inhabited

/-- A slot of a record entry (R349). -/
structure Slot where
  a : Long
  b : Quad
  c : Long
  deriving DecidableEq, Repr, Inhabited

/-- The state of a record entry (R349). -/
inductive EntryState where
  | issued | faulted | armed | parkedWait | ctxStep
  deriving DecidableEq, Repr, Inhabited

/-- The idempotence classes (R351). -/
inductive EntryClass where
  | n | s | p | x
  deriving DecidableEq, Repr, Inhabited

/-- An entry of a live or frame record (R349). The fields from id on are the model's: which accesses belong to the entry, how
many pieces have not reported, what the pieces brought, and the first failing thread with its cause and pointer. -/
structure Entry where
  word : IWord
  state : EntryState
  cls : EntryClass
  drop : Bool
  zeroed : BitVec 3
  unif : Bool
  pc : Long
  mask : Mask
  tagBase : BitVec 20
  prog : Nat
  status : BitVec 16
  cause : BitVec 16
  block : List Byte
  slots : Sparse Slot
  id : Nat
  left : Nat
  got : List (Nat × Nat × List Byte)
  bad : Option (Nat × Nat × BitVec 16 × Long)
  replayed : Bool
  /-- of an STC one of whose elements has failed the core's checks: the path, the cause and TVAL of the trap that follows once the
  elements below are performed (R128) -/
  stop : Option (Mask × BitVec 16 × Long) := none
  /-- the model's own: the entry stands before its injection, since a line of the tables must come first or the record is full -/
  waits : Bool := false
  /-- the model's own: MASK at issue, by which its tags are numbered; 0 where MASK has not been edited since (log 98) -/
  mask0 : Mask := 0
  deriving DecidableEq, Repr, Inhabited

/-- Rank states of R218; frozen is the context's state, in a handler is frameActive. -/
inductive RankState where
  | ready | issuing | waitOperand | parkedAtWait | waitBarrier | waitTimeline | retired
  deriving DecidableEq, Repr, Inhabited

/-- The frame copy of R341: thread table, predicates, w0 to w7, j0 to j15. -/
structure FrameCopy where
  threads : List Thread
  p : List Mask
  w : List Long
  j : List Word
  deriving DecidableEq, Repr, Inhabited

/-- An imprecise fault waiting for the ply boundary (R124). -/
structure Imprecise where
  cause : BitVec 16
  tval : Long
  /-- the address of the instruction that failed (R346, R347) -/
  pc : Long
  entry : Option Entry
  deriving DecidableEq, Repr, Inhabited

/-- What a rank in state waitOperand waits for (R212): registers owed to it, a register line, a record entry, a tag, replayed
class-S entries, the loads or all accesses of some threads (FENCE), its remote operations (FENCE.ack), room in an engine. -/
inductive WaitFor where
  | none
  | regs (l : List Nat)
  | line (n : Nat)
  | record
  | tag (n bufs : Nat)
  | replay
  | loads (m : Mask)
  | drained (m : Mask) (wide : Bool)
  | tensor (m : Mask) (wide : Bool)
  | acks
  | room (e : EngineId)
  | stopped
  deriving DecidableEq, Repr, Inhabited

/-- A rank (R218, R366). Registers: v, o and y by register × 32 + thread, w by register; p by register, one bit a thread;
j by register. -/
structure Rank where
  idx : Nat
  lane : Nat
  slot : Nat
  budget : Nat
  copyRole : Bool
  st : RankState
  starve : Nat
  readyAt : Nat
  v : Sparse Word
  o : Sparse Word
  y : Sparse Word
  w : Sparse Long
  p : Sparse Mask
  j : Sparse Word
  threads : List Thread
  /-- the ply in progress: active threads, instructions issued, LR seen (R211, R213) -/
  active : Mask
  plyLen : Nat
  plyLr : Bool
  /-- since the LR no branch and no other memory instruction has run in the ply (R129) -/
  plyClean : Bool
  waitFor : WaitFor
  tcause : Long
  tpc : Long
  tval : Long
  handler : Bool
  frameActive : Bool
  frameCopy : Option FrameCopy
  /-- the yield trap was entered (R359) -/
  yielding : Bool
  live : List Entry
  frame : List Entry
  /-- outstanding remote operations by destination package × 4 + path (R133) -/
  counters : Sparse Nat
  imprecise : List Imprecise
  /-- register lines not resident, and dirty lines (R209) -/
  away : List Nat
  dirty : List Nat
  /-- per thread: the access number before which an acquire wider than .core forbids L1 copies; release marks (R273) -/
  acqAt : Sparse Nat
  /-- by thread: a wait has acquired, and loads numbered below come before later accesses (R142, R273) -/
  acqLoads : Sparse Nat := []
  relAll : Sparse Nat
  relReads : Sparse Nat
  tcMark : Sparse Nat
  tcWide : Sparse Nat
  /-- IFREC (R342), and the word at TPC as the frame header holds it (R36) -/
  ifrec : Long
  /-- the trapping address, once the handler has written TPC (R345) -/
  tpcWas : Option Long
  frameWord : IWord
  /-- the v line that a fill is to bring -/
  fillLine : Option Nat
  /-- the trap's frame stands in the image, where its handler edits it (R350) -/
  frameInMem : Bool := false
  deriving DecidableEq, Repr, Inhabited

/-! ### Groups -/

/-- A named barrier (R140). -/
structure Bar where
  byteMode : Bool
  target : BitVec 31
  count : Word
  phase : Word
  deriving DecidableEq, Repr, Inhabited

inductive SeqState where
  | idle | running | parked | stopped
  deriving DecidableEq, Repr, Inhabited

/-- An outstanding MMA or MEPI (R228, R229). prog is the next K-block, or the next row to be read; of the rows before it, left holds
those with pieces that are not acknowledged, one entry a piece, bad those that were refused, part the bytes landed of the first; skip
holds rows from prog on that were performed before a freeze. turn is the rotation's mark of its last row (R238). paused: a translation
fault of its is not yet taken (R153). waiting: rows that are to be sent again (R356). -/
structure SeqRec where
  id : Nat
  word : IWord
  pc : Long
  number : Nat
  handleA : BitVec 128
  handleB : BitVec 128
  tileA : Nat
  tileB : Nat
  slots : List Nat
  phys : List Nat
  kb0 : Nat
  desc : List Byte
  peer : Long
  prog : Nat
  status : BitVec 16
  bytes : Nat
  tagBase : BitVec 20
  waiting : List Nat
  forceErr : Bool
  rows : Nat
  left : List Nat := []
  bad : List Nat := []
  part : Sparse Nat := []
  skip : List Nat := []
  turn : Nat := 0
  paused : Bool := false
  /-- the sequence numbers that a MEPI's writes and sends take (R146) -/
  tags : Nat := 0
  deriving DecidableEq, Repr, Inhabited

/-- A sequencer (R167, R228). -/
structure Seq where
  mpc : Long
  st : SeqState
  c : List Word
  waitBar : Nat
  waitPhase : Word
  recs : List SeqRec
  deriving DecidableEq, Repr, Inhabited

/-- A group on its core (R188, R201, R365). -/
structure Group where
  ctx : Nat
  launch : Nat
  queue : Nat
  prio : Nat
  grpid : Nat
  teamid : Nat
  launchid : Word
  core : Nat
  /-- offset of the group's image in its context's save area (R364) -/
  imgOff : Nat
  l0 : Nat
  code : Long
  mcode : Long
  scratchBytes : Nat
  planeBytes : Nat
  slabMax : Nat
  lbar : Nat
  qbar : Nat
  team : Nat
  scratch : Sparse Byte
  plane : Sparse Byte
  /-- slot to physical slab (R164) -/
  slabMap : Sparse Nat
  handles : Sparse (BitVec 128)
  peers : Sparse Long
  bars : Sparse Bar
  seq : Seq
  ranks : List Rank
  quiesced : Bool
  /-- the pending yield request's trap has been taken (R359) -/
  yieldTaken : Bool
  frozen : Bool
  placedAt : Nat
  /-- a sequencer fault that the lowest rank is still to take (R167) -/
  seqFault : Option Long
  retiredGroup : Bool
  deriving DecidableEq, Repr, Inhabited

/-- A physical slab that is bound, by core × 8 + slab: the group and its bytes (R164, R232). -/
structure Slab where
  group : Nat
  data : Sparse Byte
  deriving DecidableEq, Repr, Inhabited

/-- The quad-linked barriers of a team (R140). -/
structure Team where
  quad : Nat
  qbar : Nat
  bars : Sparse Bar
  deriving DecidableEq, Repr, Inhabited

/-! ### Contexts and launches -/

inductive CtxMode where
  | running | frozen | saved | held
  deriving DecidableEq, Repr, Inhabited

/-- A timeline (R143): ERR, VALUE, the numbers taken and the completed numbers above VALUE. -/
structure Timeline where
  err : Bool
  value : Nat
  taken : Nat
  done : List Nat
  deriving DecidableEq, Repr, Inhabited

/-- An entry of the armed ring (R356): a peer row recorded for a slab slot of a group that does not run, as the packet that brought it. -/
structure Armed where
  group : Nat
  slot : Nat
  pkt : Packet
  /-- the row could not be recorded: only its bytes are counted -/
  lost : Bool
  deriving DecidableEq, Repr, Inhabited

/-- A context (R362) with its timelines, its send counter and its weights by core (R397). -/
structure Ctx where
  mode : CtxMode
  step : BitVec 24
  part : Nat
  key : BitVec 12
  host : Bool
  rst : Bool
  trapvec : Long
  yvec : Long
  budget : Word
  deadline : Nat
  sticky : Bool
  yieldPending : Bool
  saveva : Long
  savebase : Long
  evqbase : Long
  energy : Nat
  sat : Bool
  enwt : Long
  weights : Sparse (List Word)
  /-- the model's own: cores that have read the table since the context's load, and those whose read is on its way -/
  weightsRead : List Nat := []
  weightsAsked : List Nat := []
  s1pt : Long
  s1rt : Long
  s1rn : Word
  tagSeq : BitVec 20
  tls : List Timeline
  keyEpoch : BitVec 16
  armed : List Armed
  /-- of a saved context: its groups in directory order, and the slabs they held: core, slab, group, slot -/
  savedGroups : List Nat
  landed : List (Nat × Nat × Nat × Nat)
  /-- the barriers that its groups held, configured: group, barrier (R172) -/
  landedBars : List (Nat × Nat) := []
  /-- the live and frame records as they were saved: group, rank (R350, R371) -/
  savedRecs : List (Nat × Nat × List Entry × List Entry) := []
  /-- where the armed ring's oldest entry stands (R364) -/
  armedHead : Nat := 0
  cut : List (Nat × Nat × Nat × Nat)
  thermal : Bool
  bearoff : Bool
  saveBytes : Nat
  deriving DecidableEq, Repr, Inhabited

inductive LaunchState where
  | queued | running | acknowledging
  deriving DecidableEq, Repr, Inhabited

/-- An accepted launch (R194 to R206). -/
structure Launch where
  queue : Nat
  owner : Nat
  part : Nat
  n : Nat
  pkt : List Byte
  cmdaddr : Long
  st : LaunchState
  next : Nat
  retired : Nat
  discarded : Nat
  outstanding : Nat
  status : BitVec 16
  /-- a group of it was ended by an unrecovered fault (R204) -/
  faulted : Bool := false
  firstAt : Option Nat
  passedSince : Option Nat
  holdCore : Option Nat
  holdQuad : Option Nat
  compatDone : Bool
  gone : Bool
  deriving DecidableEq, Repr, Inhabited

/-! ### Memory accesses -/

/-- Who waits for an access: an entry of a rank's live record. -/
structure Issuer where
  group : Nat
  rank : Nat
  entry : Nat
  deriving DecidableEq, Repr, Inhabited

/-- Where a piece goes: a control line's device-physical address, or a tensor buffer's offset, resolved at the home port. -/
inductive Target where
  | ctl (dpa : Nat)
  | ten (buf off : Nat) (dpa : Option Nat)
  deriving DecidableEq, Repr, Inhabited

/-- What a piece does. -/
inductive AccOp where
  | read
  | write (data : List Byte)
  | atom (op : AtomFn) (ty : Ty) (b c : Long)
  | lr
  | sc (data : List Byte)
  | prefetch
  deriving DecidableEq, Repr, Inhabited

/-- A thread that has read a store which is not performed everywhere yet (R273): by its load of this access number. -/
structure ReadMark where
  group : Nat
  rank : Nat
  thread : Nat
  launch : Nat
  access : Nat
  deriving DecidableEq, Repr, Inhabited

/-- One granule piece of one thread's access on its way to its home (R126, R270). id numbers accesses in issue order; all pieces
of one access share it. -/
structure Access where
  id : Nat
  who : Issuer
  core : Nat
  ctx : Nat
  part : Nat
  key : BitVec 12
  thread : Nat
  op : AccOp
  ptr : Long
  off : Nat
  len : Nat
  wholeOff : Nat
  wholeLen : Nat
  target : Target
  tag : Option (BitVec 32)
  elem : Nat
  acq : Bool
  /-- released at a scope wider than .core: waits for every earlier access of the thread and every earlier write of the core -/
  waitAll : Nat
  waitReads : Nat
  waitTensor : Nat
  guaranteed : Bool
  /-- the oldest L1 copy, by access number, that the access may take (R273) -/
  minStamp : Nat
  acqWide : Bool
  /-- XST and XATOM: home package, path it is counted under, flow label, .ord; the instruction's address -/
  home : Nat
  path : Nat
  fl : BitVec 2
  ord : Bool
  remote : Bool
  pc : Long
  /-- an STC's element: they are performed in ascending order (R128) -/
  inOrder : Bool
  waitTcWide : Nat := 0
  /-- a store that has entered its core's write path (R264) -/
  inPath : Bool := false
  /-- cache policy (R33, R126, R139) -/
  pol : BitVec 2 := 0
  /-- made once for the rank (R30): what it acquires or releases it does for every thread -/
  uni : Bool := false
  /-- a wait has acquired: the thread's loads numbered below this come first (R142, R273) -/
  waitLoads : Nat := 0
  readers : List ReadMark := []
  deriving DecidableEq, Repr, Inhabited

/-- A copy of a 128-byte sector in a core's L1 (R265, R266), with the access number of its last refresh. -/
structure L1Copy where
  core : Nat
  ctx : Nat
  sector : Nat
  stamp : Nat
  data : List Byte
  /-- the cache policy under which it came (R33) -/
  pol : BitVec 2 := 0
  deriving DecidableEq, Repr, Inhabited

/-- A fetched copy of a 32-byte granule of code (R39). -/
structure ICopy where
  core : Nat
  ctx : Nat
  granule : Nat
  dpa : Nat
  data : List Byte
  deriving DecidableEq, Repr, Inhabited

/-- A range-TLB entry (R294, R295) with the 512-byte table lines it came from. -/
structure TlbEntry where
  core : Nat
  stage : Nat
  tag : Nat
  perm : BitVec 3
  ibase : Nat
  obase : Nat
  pages : Nat
  lines : List Nat
  deriving DecidableEq, Repr, Inhabited

/-- A thread's reservation at the home (R129). -/
structure Reservation where
  group : Nat
  rank : Nat
  thread : Nat
  granule : Nat
  holdUntil : Nat
  deriving DecidableEq, Repr, Inhabited

/-- A tag retained at a home with its recorded result (R146, R352). target numbers the granule, barrier, queue or landing row. -/
structure Retained where
  pkg : Nat
  tag : BitVec 32
  target : Nat
  result : List Byte
  deriving DecidableEq, Repr, Inhabited

inductive Moesi where
  | m | o | e | s
  deriving DecidableEq, Repr, Inhabited

/-- A 512-byte control line of another home in this package's L2 (R327). -/
structure L2Line where
  state : Moesi
  /-- the context that filled it; 4096 while none has (R266) -/
  ctx : Nat
  data : List Byte
  /-- the launches whose ranks have written it since it was last written back (R205) -/
  writers : List Nat := []
  /-- its bytes stand in a failed row of its home (R297) -/
  failed : Bool := false
  deriving DecidableEq, Repr, Inhabited

/-- The home's directory entry of a control line (R327): owner package, sharers by position in the domain, and the model's own: requests in
their order, and the request whose line is on its way (log 33). -/
structure DirEntry where
  owner : Option Nat
  sharers : BitVec 64
  pending : List Packet
  granting : Option Packet
  deriving DecidableEq, Repr, Inhabited

/-- A 1 GiB control region (R328, R329). -/
structure Region where
  home : Nat
  mirror : Option Nat
  isLost : Bool
  moving : Bool
  copying : Bool
  unprotected : Bool
  /-- survivors that have not yet written back their lines of the region (R302, R329) -/
  awaits : List Nat
  /-- its mirror draws from the home's own power feed (R387) -/
  notIndependent : Bool
  /-- the odd control pseudo-channel of this package that holds the region's mirror, or the region that was one (R287) -/
  slot : Option Nat := none
  /-- packages whose write-backs have come before this package heard of the loss (R302, R329) -/
  passed : List Nat := []
  deriving DecidableEq, Repr, Inhabited

/-- Zeroing in progress (R292, R378): a buffer's entry, or a pseudo-channel. -/
structure Zeroing where
  buffer : Option Nat
  pchan : Option Nat
  /-- the model's own: guest-physical runs of the buffer that stage 2 has not mapped since: address and length -/
  owed : List (Nat × Nat) := []
  deriving DecidableEq, Repr, Inhabited

/-! ### Engines -/

inductive CmdKind where
  | copy | copyPl | gather | scadd | sort | coll
  deriving DecidableEq, Repr, Inhabited

inductive CmdState where
  | waiting | running | paused | finishing
  deriving DecidableEq, Repr, Inhabited

/-- A unit of an engine command that has been begun and is not finished: the progress point at which it begins, the progress it makes,
its pieces, the tags it holds (those of its pieces, then those of their arrivals at the barrier), the next piece to be performed or
sent, the pieces whose answers are out, and whether one was refused (R146, R150, R154). -/
structure Flight where
  u : Nat
  adv : Nat
  tag : BitVec 20
  n : Nat
  held : Nat
  next : Nat
  left : List Nat
  bad : Bool
  /-- bytes that have landed since it was begun or begun again -/
  landed : Nat
  /-- it was begun before a freeze: what it sends goes out again, with flow label 0 (R353) -/
  again : Bool := false
  /-- pieces added at this package's home whose acknowledgements have not come back, with their bytes (R244, R250) -/
  here : List (Nat × Nat) := []
  deriving DecidableEq, Repr, Inhabited

/-- An engine command after its capture (R148). stamp orders it after the rank's accesses (R149), order among its context's commands. -/
structure Cmd where
  kind : CmdKind
  engine : EngineId
  ctx : Nat
  part : Nat
  key : BitVec 12
  core : Nat
  group : Nat
  rank : Nat
  word : IWord
  pc : Long
  blockPtr : Long
  block : List Byte
  number : Nat
  numbered : Bool
  bar : Option Nat
  evt : Bool
  fl : BitVec 2
  tile : Nat
  handle : BitVec 128
  launch : Nat
  launchid : Word
  stamp : Nat
  st : CmdState
  prog : Nat
  sub : Nat
  status : BitVec 16
  counta : Nat
  countb : Nat
  written : Nat
  order : Nat
  flights : List Flight
  mmaBefore : List Nat
  /-- replies of remote homes to the reads of the unit in progress: (pointer, bytes) -/
  fetched : List (Nat × List Byte)
  asked : List Nat
  unacked : Nat
  recDone : Bool
  /-- a collective's algorithm for each axis it has chosen one for: 0 none, 1 ring, 2 network -/
  algs : List Nat
  /-- the collective's local data, and what the other members sent -/
  shard : List Nat
  inbox : List (Nat × List Nat)
  inNetwork : Bool
  axis : Nat
  agreed : Bool
  /-- a SORT's segment table is written -/
  tabDone : Bool
  deriving DecidableEq, Repr, Inhabited

/-! ### Fabric -/

/-- A remote operation of one thread, of an engine piece or of a peer row, until every packet of it is acknowledged (R135). -/
inductive RemoteOwner where
  | entry (group rank entry thread : Nat)
  | cmd (k : Nat)
  /-- piece i of unit u of command k -/
  | piece (k u i : Nat)
  | mepi (group rec row : Nat)
  | prefetchLine
  | mirror
  /-- a write of control core k -/
  | ctl (k : Nat)
  /-- a request of another package, performed here and answered when the mirror holds it -/
  | reply (p : Packet)
  deriving DecidableEq, Repr, Inhabited

/-- A tensor-plane packet kept until it is acknowledged (R321). -/
structure Unacked where
  packet : Packet
  ctx : Nat
  owner : RemoteOwner
  number : Nat
  posted : Bool
  launch : Nat
  pc : Long
  retryAt : Option Nat
  off : Nat
  /-- the number of the access it carries (Access.id) -/
  access : Nat
  /-- its entry was cut or frozen: answers are not delivered; acked holds the status of one that came (R341, R354) -/
  stale : Bool
  acked : Option (BitVec 16)
  /-- an atomic that acquires at a scope wider than .core -/
  acqWide : Bool := false
  /-- an atomic made once for the rank -/
  uni : Bool := false
  deriving DecidableEq, Repr, Inhabited

/-- An operation numbered on tl.xs: packets still open and the worst status (R135). -/
structure XsOp where
  ctx : Nat
  tag : BitVec 32
  number : Nat
  left : Nat
  status : BitVec 16
  pc : Long
  launch : Nat
  launchid : Word
  deriving DecidableEq, Repr, Inhabited

/-- A flowlet of this package (R320). key: context, destination, plane, label. -/
structure Flowlet where
  ctx : Nat
  dst : Nat
  plane : Nat
  label : Nat
  path : Nat
  /-- the path's entry in the route table when it was taken (R310) -/
  route : BitVec 27
  lastAt : Nat
  fseq : BitVec 16
  deriving DecidableEq, Repr, Inhabited

/-- What this package expects next of a remote flowlet (R320). -/
structure Expect where
  src : Nat
  sctx : Nat
  plane : Nat
  label : Nat
  fseq : BitVec 16
  deriving DecidableEq, Repr, Inhabited

/-- The exposure run E of a source context, and the exposed or refused sequences above it (R322). -/
structure Exposure where
  src : Nat
  sctx : Nat
  e : Word
  above : List Nat
  deriving DecidableEq, Repr, Inhabited

/-- A flit that waits at a port or has gone over its link: the port it came by, 16 for this package's interface, and its packet's header
(R312, R317). -/
structure PortFlit where
  input : Nat
  hdr : Nat
  flit : Flit
  deriving DecidableEq, Repr, Inhabited

/-- A Z-port (R312, R317): its counters, the flits not yet credited, those that went out, those that wait, the credits it owes by CRCHAN,
link slots since the last management flit, the alternation of control and tensor, and by channel the input whose packet is open and
the one served last. -/
structure Port where
  connected : Bool
  locked : Bool
  fails : Nat
  /-- the 64-bit link flit counters, out and in, and the count of attestations, which names the link key (R317) -/
  lseqOut : Long
  lseqIn : Long
  session : Nat
  retry : List PortFlit
  sent : List Flit
  waiting : List PortFlit
  owed : Sparse Nat
  mgmtGap : Nat
  even : Bool
  opened : Sparse Nat
  served : Sparse Nat
  deriving DecidableEq, Repr, Inhabited

/-- A reduction slot (R323). -/
structure RedSlot where
  busy : Bool
  key : BitVec 12
  collid : Word
  asker : Nat
  held : Nat
  /-- the cycle of its grant -/
  since : Nat
  deriving DecidableEq, Repr, Inhabited

/-- A key table entry (R318). -/
structure KeyEntry where
  valid : Bool
  enrol : Bool
  epoch : BitVec 16
  key : BitVec 256
  clearing : Bool
  deriving DecidableEq, Repr, Inhabited

/-- What the fabric interface tells the fabric manager, a link's other end or a source (R316, R317, R329). -/
inductive FabReport where
  | replayAsk (port : Nat) (lseq : Word)
  | linkError (port : Nat)
  | portLock (port src : Nat)
  | badKind (kind : Nat)
  | heartbeat
  /-- a loss announcement, and a notice that a package's port is locked, passed on over a port (R311) -/
  | lossOn (port pkg : Nat)
  | lockOn (port lockedPort pkg : Nat)
  | lostRegion (region : Nat)
  /-- a load of another package's tables, passed on over a port -/
  | loadOn (port pkg : Nat)
  deriving DecidableEq, Repr, Inhabited

/-- A packet of which some flits have come (R307, R355): its input port and channel, the next flit index, its bytes so far, whether
another packet has begun on its channel since, and whether the rest of it is dropped. -/
structure Partial where
  port : Nat
  chan : Nat
  next : Nat
  bytes : List Byte
  cut : Bool
  dead : Bool
  deriving DecidableEq, Repr, Inhabited

/-- The fabric interface and router. -/
structure Fabric where
  flowlets : List Flowlet
  dseq : List (Nat × Nat × Word)
  unacked : List Unacked
  xsops : List XsOp
  expects : List Expect
  exposures : List Exposure
  held : List Packet
  /-- collective packets that came before this package's command (log 28) -/
  collEarly : List Packet
  /-- by context × 4096 + key: NCTR (R319) -/
  nonces : Sparse (BitVec 64)
  /-- packets sent that nobody acknowledges, newest first (R321, log 87) -/
  kept : List Packet
  /-- packets of outbox that the link layer has taken -/
  taken : Nat
  /-- flits of frozen contexts that are left to send, by their port (R355) -/
  cuts : List (Nat × PortFlit)
  partials : List Partial
  /-- tags released to the homes of other packages, newest first (R352, log 63) -/
  releases : List (BitVec 32)
  /-- port-lock notices passed on since the last table load (R311) -/
  notedLocks : List (Nat × Nat)
  /-- the loads for other packages that have been passed on, by package (R311) -/
  notedLoads : Sparse TableLoad
  ports : List Port
  slots : List RedSlot
  slotAsks : List SlotReq
  outbox : List Packet
  notices : List (Nat × Nat)
  reports : List FabReport
  deriving DecidableEq, Repr, Inhabited

/-! ### Tables and platform -/

/-- The tables the host and the fabric manager set. -/
structure Tables where
  queues : Sparse (BitVec 64)
  ctxs : Sparse (BitVec 64)
  hostCtx : Sparse (BitVec 16)
  hevq : Long
  launchTab : Sparse (BitVec 128)
  keys : Sparse KeyEntry
  bufs : Sparse (BitVec 256)
  /-- a partition's stage-2 page-table root, range table and count (R294) -/
  s2pt : Sparse Nat
  s2rt : Sparse Nat
  s2rn : Sparse Nat
  routes : Sparse (BitVec 128)
  scopes : Sparse (BitVec 4)
  scopeValid : Bool
  scopeGen : BitVec 20
  ndom : BitVec 13
  /-- the packages of the coherence domain by position (R5, R327) -/
  domain : List Nat
  domh : BitVec 3
  self : BitVec 12
  deriving DecidableEq, Repr, Inhabited

/-- A partition record (R372). -/
structure PartRec where
  cores : BitVec 224
  qos : Word
  slices : BitVec 384
  pchan : BitVec 768
  copyeng : BitVec 224
  gatheng : BitVec 56
  colleng : BitVec 8
  zports : BitVec 16
  pad : BitVec 272
  crc : Word
  tail : Word
  deriving DecidableEq, Repr, Inhabited

/-- A bear-off request (R379). -/
structure BearReq where
  cores : BitVec 224
  reqid : Word
  t : Nat
  noyield : Bool
  nextEval : Nat
  checkpointed : Nat
  discardedQ : Nat
  runQueues : List Nat
  /-- by partition: its contexts with work on the sets when the request was posted (R375) -/
  n : Sparse Nat
  deriving DecidableEq, Repr, Inhabited

/-- A checkpoint generation on this package (R385, R386). -/
structure Generation where
  part : Nat
  gen : Nat
  clk : Nat
  slot : Nat
  base : Nat
  complete : Bool
  notIndependent : Bool
  partnerIncomplete : Bool
  /-- its delta has reached the partner (R386) -/
  atPartner : Bool
  /-- the schedule: contexts, queued packets by queue, buffer entries, tl.q values, pieces of images; then the chunks: buffer, chunk,
  bytes that are not zero, digest -/
  contexts : List Nat
  packets : List (Nat × List Byte)
  bufs : List (Nat × BitVec 256)
  tlq : List (Nat × Nat)
  images : List (Nat × Nat × List Byte)
  chunks : List (Nat × Nat × List (Nat × Byte) × BitVec 384)
  /-- its replica-backed buffers (R389), and the digests of their chunks -/
  replica : List Nat
  backed : List (Nat × Nat × BitVec 384)
  deriving DecidableEq, Repr, Inhabited

/-- A response of the management port (R396): the command's own header, a status, and what a read carries. What answers no command
(an attestation, a boot that stops) has a header of zeros. -/
structure Response where
  cmd : BitVec 16 := 0
  flags : BitVec 16 := 0
  len : BitVec 32 := 0
  seq : BitVec 64 := 0
  status : BitVec 16 := 0
  body : List Byte
  deriving DecidableEq, Repr, Inhabited

/-- Checkpoint set-up of a partition (R385 to R389). -/
structure CkptState where
  part : Nat
  gen : Nat
  replica : List Nat
  streaming : Option Nat
  stream : List (Nat × Nat)
  /-- the CKPT in progress: its region, and the contexts it has frozen -/
  busy : Bool
  base : Nat
  slotBytes : Nat
  frozen : List Nat
  deriving DecidableEq, Repr, Inhabited

/-- A journal record (R391). -/
structure JRec where
  clk : BitVec 64
  bootn : BitVec 16
  step : BitVec 8
  unit : BitVec 8
  result : BitVec 8
  alt : BitVec 8
  code : BitVec 16
  deriving DecidableEq, Repr, Inhabited

/-- The management processor's state (R372 to R398). -/
structure Plat where
  powered : Bool
  stopped : Bool
  joined : Bool
  /-- the bases of the package control block and of the launch-window region, once they are reported (R394) -/
  bases : Option (Long × Long)
  bootn : BitVec 16
  journal : List JRec
  /-- the last outcome of a step and unit: failed -/
  failed : List (Nat × Nat)
  fwCopyB : Bool
  kernelCopyB : Bool
  lowRate : Bool
  cxlDown : List Nat
  session : Bool
  aclk : Nat
  /-- when the arithmetic clock last stepped -/
  clockAt : Option Nat
  hot : Bool
  commit : Word
  /-- the sequence number of the LAYOUT.activate whose steps 3 and 4 are still to come (R376) -/
  activating : Option (BitVec 64)
  copy0 : Sparse PartRec
  copy1 : Sparse PartRec
  feed : Nat
  partner : Option Nat
  notIndependent : Bool
  bearoffs : List BearReq
  ckpts : List CkptState
  gens : List Generation
  /-- what this package's streams have brought to the partner's tier (R386) -/
  partnerGens : List Generation
  retiredLayers : List (Nat × Nat)
  retiring : List (Nat × Nat × Nat)
  failedRows : List (Nat × Nat)
  rowClass : List (Nat × Nat × Nat)
  refreshed : List (Nat × Nat)
  responses : List Response
  deriving DecidableEq, Repr, Inhabited

/-- A CTX step accepted by the context engine (R369). -/
structure CtxStep where
  id : Nat
  target : Nat
  kind : Nat
  area : Long
  /-- the issuer: context, group, rank, entry, address of the CTX word; none for the context-step window -/
  issuer : Option (Nat × Nat × Nat × Nat × Long)
  prog : Nat
  bearReq : Option Word
  deriving DecidableEq, Repr, Inhabited

/-- A unit that issues instructions: a rank, or a group's sequencer. -/
inductive Turn where
  | rank (g r : Nat)
  | seq (g : Nat)
  deriving DecidableEq, Repr, Inhabited

/-- What a control core does to memory (R278): fences name the predecessor and successor sets, reads and writes. -/
inductive CtlOp where
  | load
  | store (data : List Byte)
  | amo (op : AtomFn) (ty : Ty) (b c : Long)
  | lr
  | sc (data : List Byte)
  | fence (predR predW succR succW : Bool)
  deriving DecidableEq, Repr, Inhabited

/-- One access of a control core within one granule: its number in the core's order, its offset in the instruction's access, its device
address, and where it lies in a tensor buffer: partition, buffer, offset. -/
structure CtlAccess where
  id : Nat
  off : Nat
  dpa : Nat
  len : Nat
  op : CtlOp
  aq : Bool
  rl : Bool
  ten : Option (Nat × Nat × Nat)
  /-- made at hypervisor level (R394) -/
  hyper : Bool := false
  deriving DecidableEq, Repr, Inhabited

/-- A control core as memory sees it (R278): accesses that have not been performed, in program order; the results of the others, none
where a failed row was read; the 64 bytes its LR has reserved; the access number at its last one. -/
structure CtlCore where
  pend : List CtlAccess
  got : List (Nat × Nat × Option (List Byte))
  reserve : Option Nat
  last : Nat
  deriving DecidableEq, Repr, Inhabited

/-- A control core issues an access, or its n-th access that is not yet performed takes its place in memory order. -/
inductive CtlAct where
  | issue (a : CtlAccess)
  | perform (n : Nat)
  deriving DecidableEq, Repr, Inhabited

/-- The link layer takes the next packet that leaves, grants a port's link to a flit, or attests a port anew (R312, R317). -/
inductive LinkAct where
  | take
  | grant (port : Nat)
  | attest (port : Nat)
  deriving DecidableEq, Repr, Inhabited

/-- The MODEL's: what happens next. An event of the package or its surroundings, a word of a unit, or time passing. -/
inductive Act where
  | event (i : Instr)
  | turn (u : Turn)
  | tick (n : Nat)
  | control (k : Nat) (a : CtlAct)
  | link (a : LinkAct)
  /-- another package releases a tag at this package's homes (R352) -/
  | release (pkg : Nat) (tag : BitVec 32)
  /-- the host sets a partition's stage-2 roots: range table, descriptors, page table (R294) -/
  | roots (part rt rn pt : Nat)
  /-- a rank issues its next word without finishing it, and finishes it (R73, log 83) -/
  | issueOnly (g r : Nat)
  /-- the management processor does the next automatic step of a layout commit (R376) -/
  | commit
  | finishWord (g r : Nat)
  deriving DecidableEq, Repr, Inhabited

/-- A write to a mirrored region that the mirror does not hold yet (R328): the report it holds back. -/
structure MirrorWait where
  tag : Nat
  owner : RemoteOwner
  off : Nat
  access : Nat
  result : List Byte
  /-- the package that holds the mirror -/
  mirror : Nat
  /-- the class-S request it carries: issuing package, tag, target; a repeated one waits with it (R302) -/
  guards : Option (Nat × BitVec 32 × Nat)
  granule : Nat := 0
  readers : List ReadMark := []
  deriving DecidableEq, Repr, Inhabited

structure State where
  clk : Nat
  /-- how far the arithmetic clock is behind a whole reference cycle: 1,750ths of a cycle times its MHz (R398) -/
  aphase : Nat
  mem : List Host.Cell
  plat : Plat
  tabs : Tables
  groups : Sparse Group
  slabs : Sparse Slab
  /-- by core, the lowest slab of the sequencer whose K-block the array took last (R237) -/
  arrayTurn : Sparse Nat
  teams : Sparse Team
  ctxs : Sparse Ctx
  launches : Sparse Launch
  homeq : List Access
  respq : List Issuer
  l1 : List L1Copy
  icopies : List ICopy
  tlb : List TlbEntry
  resv : List Reservation
  tags : List Retained
  l2 : Sparse L2Line
  dir : Sparse DirEntry
  /-- requests for lines and recalls that are not answered yet: packet kind, line, package -/
  asking : List (Nat × Nat × Nat)
  regions : Sparse Region
  zeroing : Sparse Zeroing
  cmds : Sparse Cmd
  steps : List CtxStep
  fab : Fabric
  /-- the 32 control cores (R1), by number -/
  ctls : Sparse CtlCore
  /-- packages whose loss is announced -/
  lost : List Nat
  mirrorq : List MirrorWait
  /-- records whose queue lies in control lines not yet here: context (4096 for the host queue) and record -/
  deferred : List (Nat × List Byte)
  /-- the package's own writes to save areas whose control lines are not yet here: partition, guest-physical address, bytes -/
  late : List (Nat × Nat × List Byte)
  /-- the bytes of layers that are off, in the management processor's region of the capacity tier: stack × 16 + layer (R299) -/
  layerStore : List (Nat × List Host.Cell)
  /-- 64 MiB chunks of buffers written since their last checkpoint (R385): partition × 4096 + buffer, chunk -/
  written : List (Nat × Nat)
  /-- the MODEL's own fields (log 6) -/
  agenda : List Act
  /-- energy boundaries charged so far (R331) -/
  bound : Nat
  cur : Option Turn
  free : Nat
  fresh : Nat
  deriving DecidableEq, Repr, Inhabited

/-- Why a step can stop. It is the model's and safe: it stops where no unit of the machine acts. -/
inductive Fault where
  /-- raised by the meaning of a word when no unit that issues words of its kind is chosen: safe, the machine issues no word
  without a unit -/
  | noIssuer
  deriving DecidableEq, Repr, Inhabited

/-- Why the model gives an instruction no meaning. -/
inductive Refusal where
  /-- raised by an arm of exec whose instruction has no meaning yet: safe, nothing can be proved of it -/
  | notModelled (mnemonic : String)
  deriving DecidableEq, Repr, Inhabited

/-- Reset values (R192, R308, R363, R393, R269, R318, R288; DESIGN CHOICE log 4 where the spec gives none). -/
def Tables.reset : Tables where
  queues := []
  ctxs := []
  hostCtx := []
  hevq := 0
  launchTab := []
  keys := []
  bufs := []
  s2pt := []
  s2rt := []
  s2rn := []
  routes := []
  scopes := []
  scopeValid := false
  scopeGen := 0
  ndom := 0
  domain := []
  domh := 0
  self := 0

def Plat.reset : Plat where
  powered := false
  stopped := false
  joined := false
  bases := none
  bootn := 0
  journal := []
  failed := []
  fwCopyB := false
  kernelCopyB := false
  lowRate := false
  cxlDown := []
  session := false
  aclk := 1750
  clockAt := none
  hot := false
  commit := 0
  activating := none
  copy0 := []
  copy1 := []
  feed := 0
  partner := none
  notIndependent := false
  bearoffs := []
  ckpts := []
  gens := []
  partnerGens := []
  retiredLayers := []
  retiring := []
  failedRows := []
  rowClass := []
  refreshed := []
  responses := []

def Port.reset : Port where
  connected := false
  locked := false
  fails := 0
  lseqOut := 0
  lseqIn := 0
  session := 0
  retry := []
  sent := []
  waiting := []
  owed := []
  mgmtGap := 0
  even := true
  opened := []
  served := []

def RedSlot.reset : RedSlot where
  busy := false
  key := 0
  collid := 0
  asker := 0
  held := 0
  since := 0

def Fabric.reset : Fabric where
  flowlets := []
  dseq := []
  unacked := []
  xsops := []
  expects := []
  exposures := []
  held := []
  collEarly := []
  nonces := []
  kept := []
  taken := 0
  cuts := []
  partials := []
  releases := []
  notedLocks := []
  notedLoads := []
  ports := List.replicate 16 Port.reset
  slots := List.replicate 32 RedSlot.reset
  slotAsks := []
  outbox := []
  notices := []
  reports := []

/-- The package right after reset: clk 0 (R22), no context, group, launch or access, every table as above, memory with nothing
listed. The agenda is empty. -/
def State.reset : State where
  clk := 0
  aphase := 0
  mem := []
  plat := Plat.reset
  tabs := Tables.reset
  groups := []
  slabs := []
  arrayTurn := []
  teams := []
  ctxs := []
  launches := []
  homeq := []
  respq := []
  l1 := []
  icopies := []
  tlb := []
  resv := []
  tags := []
  l2 := []
  dir := []
  asking := []
  regions := []
  zeroing := []
  cmds := []
  steps := []
  fab := Fabric.reset
  ctls := []
  lost := []
  mirrorq := []
  deferred := []
  late := []
  layerStore := []
  written := []
  agenda := []
  bound := 0
  cur := none
  free := 0
  fresh := 1

end Sys2Proof.Machine
end

