-- ==== Sys2Proof/Machine/Mem.lean ====
section
/-! DEFINITION. Pointers (R91, R262), translation (R294 to R296), the buffer check (R290), reads and writes at a home (R264, R265,
R270, R296, R327, R328), control packets, and event records (R151, R152). -/

set_option linter.unusedVariables false

namespace Sys2Proof.Machine

/-! ### Pointers -/

inductive Space where
  | control | tensor | loc | invalid
  deriving DecidableEq, Repr, Inhabited

def ptrSpace (p : Long) : Space :=
  match (p.extractLsb' 62 2).toNat with
  | 0 => .control
  | 1 => .tensor
  | 2 => .loc
  | _ => .invalid

/-- The offset field's width (R91). -/
def Space.width : Space → Nat
  | .control => 48
  | .tensor => 38
  | .loc => 32
  | .invalid => 0

/-- Well formed (R91). -/
def ptrOk (p : Long) : Bool :=
  match ptrSpace p with
  | .control => p.extractLsb' 48 14 == 0
  | .tensor => true
  | .loc => p.extractLsb' 40 22 == 0 && decide ((p.extractLsb' 32 8).toNat ≤ 2)
  | .invalid => false

/-- The invalid pointer (R91). -/
def invalidPtr : Long := 0xC000000000000000

def ptrOff (p : Long) : Nat := p.toNat % 2 ^ (ptrSpace p).width
def ptrHome (p : Long) : Nat := (p.extractLsb' 50 12).toNat
def ptrBuf (p : Long) : Nat := (p.extractLsb' 38 12).toNat
def ptrRegion (p : Long) : Nat := (p.extractLsb' 32 8).toNat

/-- PTR.add (R91): the offset field moves by d and nothing else changes. -/
def ptrAdd (p : Long) (d : Int) : Long :=
  let o : Int := ptrOff p + d
  if ptrOk p && decide (0 ≤ o) && decide (o < (2 ^ (ptrSpace p).width : Nat)) then
    BitVec.ofNat 64 (p.toNat - ptrOff p + o.toNat)
  else invalidPtr

/-- PTR.chk (R91). -/
def ptrChk (p : Long) (len : Nat) : Bool := ptrOk p && decide (ptrOff p + len ≤ 2 ^ (ptrSpace p).width)

def State.selfPkg (s : State) : Nat := s.tabs.self.toNat

/-! ### Control packets -/

def Packet.empty : Packet where
  dst := 0
  src := 0
  sctx := 0
  keyid := 0
  kind := 0
  plane := 0
  ord := false
  flabel := 0
  path := 0
  hops := 0
  route := 0
  fseq := 0
  dseq := 0
  nctr := 0
  addr := 0
  tag := 0
  opinfo := 0
  status := 0
  data := []
  sealKey := 0
  intact := true
  part := 0
  ty := .b8
  len := 0

/-- A route entry (R308). -/
def routeEntry (s : State) (d : Nat) : BitVec 128 := sgetD d 0 s.tabs.routes
def routeValid (s : State) (d : Nat) : Bool := (routeEntry s d).getLsbD 111
def routePath (e : BitVec 128) (k : Nat) : BitVec 27 := e.extractLsb' (27 * k) 27

/-- A package is lost once its loss is announced (R303, R329). -/
def pkgLost (s : State) (d : Nat) : Bool := s.lost.contains d || (routeEntry s d).getLsbD 110

/-- Key 0 of the control and management planes (R318). -/
def keyValue (s : State) (k : Nat) : BitVec 256 := ((sget k s.tabs.keys).map (·.key)).getD 0
def keyOk (s : State) (k : Nat) : Bool := k == 0 || ((sget k s.tabs.keys).map (·.valid)).getD false

def out (p : Packet) (s : State) : State := { s with fab := { s.fab with outbox := s.fab.outbox ++ [p] } }

/-! ### Flowlets and the numbers of a packet (R315, R319, R320) -/

/-- The answers of the tensor plane (R316). -/
def isAnswer (k : BitVec 8) : Bool := k == 0x05 || k == 0x06 || k == 0x07

/-- Packets of one order: coherence on the control plane (0), requests of the tensor plane (1), launch packets (2), answers on the tensor
plane, whose SCTX is a context of their destination (3) (log 87). -/
def flowClass (p : Packet) : Nat :=
  if p.plane = 1 then (if isAnswer p.kind then 3 else 1) else if p.kind = 0x20 then 2 else 0

def flowlet? (s : State) (cid dst plane label : Nat) : Option Flowlet :=
  s.fab.flowlets.find? fun f => f.ctx == cid && f.dst == dst && f.plane == plane && f.label == label

def pathsOf (e : BitVec 128) : List Nat := List.range ((e.extractLsb' 108 2).toNat + 1)

/-- Steps 1 and 2 of R320 among some paths of an entry. -/
def bestPath (s : State) (dst label : Nat) (ok : List Nat) : Nat :=
  let load (p : Nat) : Nat := (s.fab.unacked.filter fun u => u.packet.dst.toNat == dst && u.packet.path.toNat == p).length
  let least := (minList (ok.map load)).getD 0
  let good := ok.filter fun p => load p == least
  let want := label % (pathsOf (routeEntry s dst)).length
  if good.contains want then want else good.headD 0

/-- The index at which a flowlet's path stands in its entry now; none where a load has withdrawn it (R310). -/
def pathNow (e : BitVec 128) (f : Flowlet) : Option Nat :=
  (pathsOf e).find? fun k => routePath e k == f.route && (k == f.path || !((pathsOf e).contains f.path && routePath e f.path == f.route))

/-- The path of a flowlet's next packet, and whether a free choice was made. The idle gap is SKEW + 64 ns of the 1.75 GHz clock. -/
def nextPath (s : State) (cid dst plane label : Nat) : Nat × Bool :=
  let e := routeEntry s dst
  match flowlet? s cid dst plane label with
  | none => (bestPath s dst label (pathsOf e), false)
  | some f =>
    match pathNow e f with
    | none => (bestPath s dst label (pathsOf e), false)
    | some k =>
      if ((e.extractLsb' 112 16).toNat + 64) * 1750 < (s.clk - f.lastAt) * 1000 then
        (if Config.newPath s.free then bestPath s dst label (pathsOf e) else k, true)
      else (k, false)

/-- NCTR of a source context's next packet under a key: no nonce of a key comes twice (R319). -/
def nonceAt (s : State) (ctx key : Nat) : Long := sgetD (ctx * 4096 + key) 0 s.fab.nonces

/-- The numbers of sequence: the answers of the tensor plane have their own (log 87). -/
def dseqKey (p : Packet) : Nat := if flowClass p = 3 then p.sctx.toNat + 4096 else p.sctx.toNat

def dseqOf (s : State) (ctx dst : Nat) : Word :=
  ((s.fab.dseq.find? fun e => e.1 == ctx && e.2.1 == dst).map (·.2.2)).getD 0

def setDseq (ctx dst : Nat) (v : Word) (l : List (Nat × Nat × Word)) : List (Nat × Nat × Word) :=
  (l.filter fun e => !(e.1 == ctx && e.2.1 == dst)) ++ [(ctx, dst, v)]

/-- A packet as it leaves: its source, its flowlet's path and sequence, its nonce and its seal. was is its sequence among the packets of its
context to its destination, when it is sent again (R353). -/
def stamped (p : Packet) (was : Option Word) (s : State) : Packet :=
  let f := flowlet? s p.sctx.toNat p.dst.toNat (flowClass p) p.flabel.toNat
  let path := (nextPath s p.sctx.toNat p.dst.toNat (flowClass p) p.flabel.toNat).1
  let rp := routePath (routeEntry s p.dst.toNat) path
  { p with src := s.tabs.self, path := BitVec.ofNat 2 path, hops := rp.extractLsb' 24 3, route := rp.extractLsb' 0 24,
           fseq := (f.map (·.fseq)).getD 0
           dseq := if p.plane = 1 then was.getD (dseqOf s (dseqKey p) p.dst.toNat) else 0
           nctr := nonceAt s p.sctx.toNat p.keyid.toNat, sealKey := keyValue s p.keyid.toNat, intact := true }

/-- What the interface notes of a packet that leaves. -/
def noteSent (q : Packet) (was : Option Word) (s : State) : State :=
  let cls := flowClass q
  let f : Flowlet := { ctx := q.sctx.toNat, dst := q.dst.toNat, plane := cls, label := q.flabel.toNat, path := q.path.toNat,
                       route := q.hops ++ q.route, lastAt := s.clk, fseq := q.fseq + 1 }
  let others := s.fab.flowlets.filter fun (y : Flowlet) => !(y.ctx == f.ctx && y.dst == f.dst && y.plane == cls && y.label == f.label)
  { s with free := if (nextPath s f.ctx f.dst cls f.label).2 then s.free + 1 else s.free
           fab := { s.fab with
             flowlets := others ++ [f]
             nonces := sset (q.sctx.toNat * 4096 + q.keyid.toNat) (q.nctr + 1) s.fab.nonces
             dseq := if q.plane ≠ 1 ∨ was.isSome then s.fab.dseq else setDseq (dseqKey q) q.dst.toNat (q.dseq + 1) s.fab.dseq
             kept := if cls = 1 then s.fab.kept else q :: s.fab.kept } }

/-- Header bits 319:64, which the seal covers. -/
def hdrUpper (p : Packet) : Nat :=
  p.dst.toNat * 2 ^ 244 + p.src.toNat * 2 ^ 232 + p.sctx.toNat * 2 ^ 220 + p.keyid.toNat * 2 ^ 208 + p.kind.toNat * 2 ^ 200 +
  (if p.ord then 2 ^ 199 else 0) + p.flabel.toNat * 2 ^ 197 + p.path.toNat * 2 ^ 195 + p.hops.toNat * 2 ^ 192 + p.route.toNat * 2 ^ 168 +
  p.fseq.toNat * 2 ^ 152 + p.dseq.toNat * 2 ^ 120 + p.blen * 2 ^ 110 + p.nctr.toNat

/-- The fields of a packet header, as a number of 320 bits (R315). -/
def hdrDst (h : Nat) : Nat := bits h 308 12
def hdrSrc (h : Nat) : Nat := bits h 296 12
def hdrCtx (h : Nat) : Nat := bits h 284 12
def hdrKind (h : Nat) : BitVec 8 := BitVec.ofNat 8 (bits h 264 8)
def hdrHops (h : Nat) : Nat := bits h 256 3
def hdrBlen (h : Nat) : Nat := bits h 174 10
/-- The output port at an index of the route. -/
def hdrPort (h i : Nat) : Nat := bits h (232 + 4 * i) 4

def modPort (n : Nat) (f : Port → Port) (s : State) : State := { s with fab := { s.fab with ports := modAt s.fab.ports n f } }

/-- A packet leaves this package. -/
def sendOut (p : Packet) (s : State) : State := out (stamped p none s) (noteSent (stamped p none s) none s)

/-- Send a control-plane packet under key 0 (R319). -/
def sendCtl (kind : BitVec 8) (dst : Nat) (addr : Nat) (tag : BitVec 32) (data : List Byte) (s : State) : State :=
  sendOut { Packet.empty with dst := BitVec.ofNat 12 dst, kind := kind, addr := BitVec.ofNat 64 addr, tag := tag, data := data } s

/-! ### Control lines and their homes -/

def regionOf (s : State) (dpa : Nat) : Option Region := sget (dpa / 2 ^ 30) s.regions

/-- The home package of a control line; a region that is not listed is homed here (log 14). -/
def homeOf (s : State) (dpa : Nat) : Nat :=
  match regionOf s dpa with
  | some r => r.home
  | none => s.selfPkg

def homedHere (s : State) (dpa : Nat) : Bool := homeOf s dpa == s.selfPkg

def regionLost (s : State) (dpa : Nat) : Bool := ((regionOf s dpa).map (·.isLost)).getD false
def regionMoving (s : State) (dpa : Nat) : Bool := ((regionOf s dpa).map (·.moving)).getD false

/-- The package that must hold a write of a line homed here before it is acknowledged (R328). -/
def mirrorOf (s : State) (dpa : Nat) : Option Nat :=
  match regionOf s dpa with
  | some r => if r.home == s.selfPkg && !r.copying then r.mirror else none
  | none => none

/-- Where this package keeps a byte of a control region: a mirror's, and that of a home that was one, in an odd control pseudo-channel (R287);
any other at its own address. -/
def cellAt (s : State) (dpa : Nat) : Nat :=
  match (regionOf s dpa).bind (·.slot) with
  | some p => p * 2 ^ 30 + dpa % 2 ^ 30
  | none => dpa

/-- The package's place in the coherence domain (R327). -/
def posOf (s : State) (pkg : Nat) : Option Nat :=
  let i := (s.tabs.domain.take 64).findIdx fun p => p == pkg
  if i < (s.tabs.domain.take 64).length then some i else none

/-- The bit of a package in a sharer vector. -/
def shareBit (s : State) (pkg : Nat) : BitVec 64 :=
  match posOf s pkg with
  | some i => 1#64 <<< i
  | none => 0

/-- The packages of a sharer vector. -/
def sharersOf (s : State) (v : BitVec 64) : List Nat := s.tabs.domain.take 64 |>.filter fun p => (v &&& shareBit s p) != 0

def dirEntry (s : State) (line : Nat) : Option DirEntry := sget line s.dir

/-- A read (or write) of the granule can be performed now: the line is homed here with no owner elsewhere (and, for a write, no
sharer elsewhere), or this package's L2 holds it in a state that allows it (R327). -/
def lineReady (s : State) (dpa : Nat) (write : Bool) : Bool :=
  if regionMoving s dpa then false
  else if homedHere s dpa then
    match dirEntry s (dpa / 512) with
    | none => true
    | some d => d.owner.isNone && (!write || d.sharers == 0) && d.pending.isEmpty
  else
    match sget (dpa / 512) s.l2 with
    | none => false
    | some l => !write || l.state == .m || l.state == .e

/-- A coherence request for a line, sent once until it is answered. -/
def askOnce (kind : BitVec 8) (line dst : Nat) (s : State) : State :=
  if s.asking.contains (kind.toNat, line, dst) then s
  else sendCtl kind dst (line * 512) 0 [] { s with asking := s.asking ++ [(kind.toNat, line, dst)] }

/-- Ask for what lineReady lacks: the home recalls or invalidates, another package asks the home (R327). -/
def askLine (s : State) (dpa : Nat) (write : Bool) : State :=
  let line := dpa / 512
  if regionMoving s dpa then s
  else if homedHere s dpa then
    match dirEntry s line with
    | none => s
    | some d =>
      if d.granting.isSome then s
      else
      let s1 := match d.owner with
        | some p => askOnce 0x14 line p s
        | none => s
      if write then (sharersOf s d.sharers).foldl (fun s p => askOnce 0x14 line p s) s1 else s1
  else
    let kind : BitVec 8 := if write then (if (sget line s.l2).isSome then 0x12 else 0x11) else 0x10
    askOnce kind line (homeOf s dpa) s

/-! ### Bytes at a home -/

/-- The row of a pseudo-channel that holds a byte; a row is 1,024 bytes of it (log 15). -/
def rowOf (dpa : Nat) : Nat × Nat := (dpa / 2 ^ 30, dpa % 2 ^ 30 / 1024)

/-- A read of a failed row is an uncorrectable error (R297); of a line homed elsewhere its home has said whether it stands in one. -/
def rowFailed (s : State) (dpa : Nat) : Bool :=
  if homedHere s dpa then cellAt s dpa < 2 ^ 43 && s.plat.failedRows.contains (rowOf (cellAt s dpa))
  else (sget (dpa / 512) s.l2).any (·.failed)

def isControlChan (p : Nat) : Bool := p % 24 == 23

/-- The byte lies in the tenant portion of a retired layer (R299), or on a CXL port that the boot left out (R390, log 45). -/
def layerOff (s : State) (dpa : Nat) : Bool :=
  if dpa < 2 ^ 43 then !isControlChan (dpa / 2 ^ 30) && s.plat.retiredLayers.contains (dpa / 2 ^ 36, dpa % 2 ^ 30 / 2 ^ 26)
  else s.plat.cxlDown.contains ((dpa - 2 ^ 43) / 2 ^ 40)

/-- The value of a granule piece: the home's bytes, or the L2 line of a line homed elsewhere. -/
def homeRead (s : State) (dpa n : Nat) : List Byte :=
  if homedHere s dpa then readBytes s.mem (cellAt s dpa) n
  else
    match sget (dpa / 512) s.l2 with
    | some l => (l.data.drop (dpa % 512)).take n
    | none => zeros n

/-- The agent of a write, for R265 and R266: the core whose L1 copies follow it, and the context; 4096 stands for no context. -/
structure Writer where
  core : Option Nat
  ctx : Nat
  /-- the package that issued it, where it is another one -/
  pkg : Option (BitVec 12) := none
  /-- the launch whose rank issued it -/
  launch : Option Nat := none

/-- R265, R266: copies of the sector under other identifiers go before a context's store; the writing core's copies take the granule's
new value, as one point of memory order has it (R271). -/
def l1Write (w : Writer) (dpa : Nat) (granule : List Byte) (l : List L1Copy) : List L1Copy :=
  (l.filter fun c => c.sector ≠ dpa / 128 || w.ctx == 4096 || c.ctx == w.ctx).map fun c =>
    if c.sector = dpa / 128 && w.core == some c.core then { c with data := patch c.data (dpa % 128 / 32 * 32) granule } else c

def granuleOf (dpa : Nat) : Nat := dpa / 32

/-- Another agent's reservation holds off a write to the granule (R129). -/
def resvHolds (s : State) (dpa : Nat) : Bool := s.resv.any fun v => v.granule == granuleOf dpa && decide (s.clk < v.holdUntil)

/-- The data of a mirror write (log 33): its length, the issuing package, what a tag that comes with it names (0 without one, 1 the granule,
2 + n the event queue of context n), the tag, then the bytes and the tag's recorded result. -/
def mirrorData (pkg : BitVec 12) (bs : List Byte) (tg : Option (BitVec 32 × List Byte)) (queue : Option Nat := none) : List Byte :=
  leBytes bs.length 2 ++ leBytes pkg.toNat 2 ++ leBytes (if tg.isSome then (queue.map (· + 2)).getD 1 else 0) 4 ++ leBytes ((tg.map fun x => x.1.toNat).getD 0) 4 ++ bs ++
    (tg.map (·.2)).getD []

/-- A change of memory homed here goes to the mirror (R328), with the retained tag, its issuing package and its result; its number stands in
TAG. -/
def mirrorSend (pkg : BitVec 12) (dpa : Nat) (bs : List Byte) (tg : Option (BitVec 32 × List Byte)) (s : State) (queue : Option Nat := none) :
    State :=
  match mirrorOf s dpa with
  | none => s
  | some m => sendCtl 0x16 m dpa (BitVec.ofNat 32 s.fresh) (mirrorData pkg bs tg queue) { s with fresh := s.fresh + 1 }

/-- The reservations that control cores hold of 64 bytes go (R278). -/
def dropCtl (hit : Nat → Bool) (l : Sparse CtlCore) : Sparse CtlCore :=
  l.map fun e => (e.1, if e.2.reserve.any hit then { e.2 with reserve := none } else e.2)

/-- A write of one granule piece takes its place in memory order at its home: bytes, translation lines (R296), L1 copies (R265,
R266), reservations of other threads (R129), and the mirror (R328). tg is a class-S write's tag with its recorded result. -/
def homeWrite (w : Writer) (keep : Option (Nat × Nat × Nat)) (tg : Option (BitVec 32 × List Byte)) (dpa : Nat) (bs : List Byte)
    (s : State) : State :=
  let s1 := if homedHere s dpa then mirrorSend (w.pkg.getD s.tabs.self) dpa bs tg { s with mem := writeBytes s.mem (cellAt s dpa) bs }
    else { s with l2 := smod (dpa / 512) (fun l => { l with
      state := .m, ctx := if w.ctx = 4096 then l.ctx else w.ctx, data := patch l.data (dpa % 512) bs
      writers := match w.launch with
        | some n => if l.writers.contains n then l.writers else n :: l.writers
        | none => l.writers }) s.l2 }
  { s1 with
    tlb := s1.tlb.filter fun e => !e.lines.contains (dpa / 512)
    l1 := l1Write w dpa (homeRead s1 (dpa / 32 * 32) 32) s1.l1
    ctls := dropCtl (fun b => b == dpa / 64) s1.ctls
    resv := s1.resv.filter fun r => r.granule ≠ granuleOf dpa || keep == some (r.group, r.rank, r.thread) }

/-- The package's copy of a line of another home stands under another context's identifier: a lookup misses (R266). -/
def tagMiss (s : State) (cid dpa : Nat) : Bool :=
  !homedHere s dpa && (sget (dpa / 512) s.l2).any fun l => l.ctx != 4096 && l.ctx != cid

/-- The context whose access finds a line nobody has used has filled it (R266). -/
def claimLine (cid dpa : Nat) (s : State) : State :=
  if homedHere s dpa then s
  else { s with l2 := smod (dpa / 512) (fun l => if l.ctx = 4096 then { l with ctx := cid } else l) s.l2 }

/-- Memory written by the package itself: no L1 follows. -/
def pkgWrite (dpa : Nat) (bs : List Byte) (s : State) : State := homeWrite { core := none, ctx := 4096 } none none dpa bs s

/-- The pieces of an access, one per 32-byte granule (R126): offset in the access and length. -/
def granules (start len : Nat) : List (Nat × Nat) :=
  let n := (start % 32 + len + 31) / 32
  (List.range n).map fun k =>
    let lo := if k = 0 then 0 else 32 * k - start % 32
    let hi := min len (32 * (k + 1) - start % 32)
    (lo, hi - lo)

/-- Write a run of bytes piece by piece. -/
def pkgWriteRun (dpa : Nat) (bs : List Byte) (s : State) : State :=
  (granules dpa bs.length).foldl (fun s p => pkgWrite (dpa + p.1) ((bs.drop p.1).take p.2) s) s

/-! ### Translation -/

inductive Right where
  | rd | wr | ex
  deriving DecidableEq, Repr, Inhabited

/-- PERM: bit 2 RD, bit 1 WR, bit 0 EX (R295). -/
def Right.in (r : Right) (perm : BitVec 3) : Bool :=
  match r with
  | .rd => perm.getLsbD 2
  | .wr => perm.getLsbD 1
  | .ex => perm.getLsbD 0

inductive Xlat where
  | ok (a : Nat)
  | stage1
  | stage2 (gpa : Nat)
  | lacks (dpa : Nat)
  deriving DecidableEq, Repr, Inhabited

/-- A mapping found by a search: rights, pages and where it comes from. -/
structure Mapping where
  perm : BitVec 3
  ibase : Nat
  obase : Nat
  pages : Nat
  lines : List Nat
  deriving DecidableEq, Repr, Inhabited

/-- A range descriptor (R295): none unless VALID with no reserved bit. -/
def rangeDesc (d : Nat) (line : Nat) : Option Mapping :=
  if bit d 127 && bits d 116 8 == 0 && bits d 0 16 == 0 then
    some { perm := BitVec.ofNat 3 (bits d 124 3), ibase := bits d 80 36, obase := bits d 44 36, pages := bits d 16 28 + 1,
           lines := [line] }
  else none

def Mapping.covers (m : Mapping) (a : Nat) : Bool := decide (m.ibase ≤ a / 4096) && decide (a / 4096 < m.ibase + m.pages)
/-- The address that a mapping gives. DESIGN CHOICE (log 110): a stage-2 output that is neither of the two forms of R286 (bits 47:44 set,
bits 42:40 set with bit 43 clear, or a pseudo-channel of 768 and above) is used as plain memory. -/
def Mapping.apply (m : Mapping) (a : Nat) : Nat := (m.obase + (a / 4096 - m.ibase)) * 4096 + a % 4096

/-- What a search of tables in memory gives: something, nothing, or a control line that must come first (R296, log 75). -/
inductive Look (α : Type) where
  | found (a : α)
  | absent
  | lacks (dpa : Nat)
  /-- a page of the tables that stage 2 does not map for reading: its guest-physical address (R294) -/
  | fault (gpa : Nat)
  deriving DecidableEq, Repr, Inhabited

def Look.opt {α : Type} : Look α → Option α
  | .found a => some a
  | _ => none

/-- What a search of tables can read at a device address (R297, R299): a failed row and a layer that is off give nothing (log 79). -/
def tableLook (s : State) (p n : Nat) : Look Nat :=
  if rowFailed s p || layerOff s p then .absent
  else if !lineReady s p false then .lacks p
  else .found (leNat (homeRead s p n))

/-- Search a range table of n descriptors in table order (R294); wher gives each descriptor's device address, and the lines that say where
it stands. -/
def searchRanges (s : State) (wher : Nat → Look (Nat × List Nat)) (a : Nat) : Nat → Nat → Look Mapping
  | _, 0 => .absent
  | i, n + 1 =>
    match wher i with
    | .absent => searchRanges s wher a (i + 1) n
    | .lacks d => .lacks d
    | .fault gpa => .fault gpa
    | .found p =>
      match tableLook s p.1 16 with
      | .lacks d => .lacks d
      | .fault gpa => .fault gpa
      | .absent => searchRanges s wher a (i + 1) n
      | .found v =>
        match rangeDesc v (p.1 / 512) with
        | some m => if m.covers a then .found { m with lines := m.lines ++ p.2 } else searchRanges s wher a (i + 1) n
        | none => searchRanges s wher a (i + 1) n

/-- A page walk (R294): levels 1 to 4 at bits 39, 30, 21, 12; leaves at level 2 to 4. -/
def walkPages (s : State) (wher : Nat → Look (Nat × List Nat)) (a : Nat) : List Nat → Nat → List Nat → Look Mapping
  | [], _, _ => .absent
  | sh :: rest, table, seen =>
    match wher (table + 8 * (a / 2 ^ sh % 512)) with
    | .absent => .absent
    | .lacks d => .lacks d
    | .fault gpa => .fault gpa
    | .found p =>
      match tableLook s p.1 8 with
      | .lacks d => .lacks d
      | .fault gpa => .fault gpa
      | .absent => .absent
      | .found v =>
        let e := Config.pte (BitVec.ofNat 64 v)
        let lines := p.1 / 512 :: p.2 ++ seen
        if !e.valid then .absent
        else if e.leaf && sh != 39 then
          let pages := 2 ^ (sh - 12)
          .found { perm := e.perm, ibase := a / 4096 / pages * pages, obase := e.frame.toNat / pages * pages, pages := pages,
                   lines := lines }
        else walkPages s wher a rest (e.frame.toNat * 4096) lines

def findMapping (s : State) (wher : Nat → Look (Nat × List Nat)) (rt rn pt a : Nat) : Look Mapping :=
  match searchRanges s (fun i => wher (rt + 16 * i)) a 0 rn with
  | .absent => if pt = 0 then .absent else walkPages s wher a [39, 30, 21, 12] pt []
  | l => l

def tlbFind (s : State) (core stage tag a : Nat) : Option TlbEntry :=
  s.tlb.find? fun e => e.core == core && e.stage == stage && e.tag == tag && decide (e.ibase ≤ a / 4096) &&
    decide (a / 4096 < e.ibase + e.pages)

/-- A core's TLB holds 64 entries (R294); the oldest goes. -/
def tlbFill (core stage tag : Nat) (m : Mapping) (s : State) : State :=
  let e : TlbEntry := { core := core, stage := stage, tag := tag, perm := m.perm, ibase := m.ibase, obase := m.obase,
                        pages := m.pages, lines := m.lines }
  let mine := s.tlb.filter fun e => e.core == core
  let kept := if 64 ≤ mine.length then s.tlb.erase (mine.headD e) else s.tlb
  { s with tlb := kept ++ [e] }

/-- The host sets a partition's stage-2 roots (R294). TLB entries stay: they go with the lines they were read from (R296). -/
def setRoots (part rt rn pt : Nat) (s : State) : State :=
  { s with tabs := { s.tabs with s2rt := sput 0 part rt s.tabs.s2rt, s2rn := sput 0 part rn s.tabs.s2rn, s2pt := sput 0 part pt s.tabs.s2pt } }

/-- The mapping that a partition's stage-2 tables give a guest-physical address, whatever its rights. -/
def stage2Map (s : State) (part gpa : Nat) : Look Mapping :=
  findMapping s (fun p => .found (p, [])) (sgetD part 0 s.tabs.s2rt) (sgetD part 0 s.tabs.s2rn) (sgetD part 0 s.tabs.s2pt) gpa

/-- Where a guest-physical address stands, whatever the rights. -/
def stage2Any (s : State) (part gpa : Nat) : Look Nat :=
  match stage2Map s part gpa with
  | .found m => .found (m.apply gpa)
  | .absent => .absent
  | .lacks d => .lacks d
  | .fault g => .fault g

/-- Where a stage-1 table's bytes stand, and the lines of the stage-2 tables that say so (R296); a page that stage 2 does not map is a
stage-2 fault (R294). -/
def stage2Lines (s : State) (part gpa : Nat) : Look (Nat × List Nat) :=
  match stage2Map s part gpa with
  | .found m => if Right.rd.in m.perm then .found (m.apply gpa, m.lines) else .fault gpa
  | .absent => .fault gpa
  | .lacks d => .lacks d
  | .fault g => .fault g

/-- Stage 2 (R294): guest-physical to device-physical. core none: the home port and the package's own units search the tables
each time; a core's TLB is looked up first. -/
def stage2 (core : Option Nat) (part gpa : Nat) (r : Right) (s : State) : State × Look Nat :=
  let hit := match core with
    | some c => tlbFind s c 2 part gpa
    | none => none
  match hit with
  | some e => (s, if r.in e.perm then .found ((e.obase + (gpa / 4096 - e.ibase)) * 4096 + gpa % 4096) else .absent)
  | none =>
    match stage2Map s part gpa with
    | .absent => (s, .absent)
    | .lacks d => (s, .lacks d)
    | .fault g => (s, .fault g)
    | .found m =>
      let s1 := match core with
        | some c => tlbFill c 2 part m s
        | none => s
      (s1, if r.in m.perm then .found (m.apply gpa) else .absent)

def stage2Addr (s : State) (part gpa : Nat) (r : Right) : Look Nat := (stage2 none part gpa r s).2

/-- Both stages (R294). Stage-1 tables stand in guest-physical space. -/
def translate (core : Option Nat) (cid va : Nat) (r : Right) (s : State) : State × Xlat :=
  match sget cid s.ctxs with
  | none => (s, .stage1)
  | some c =>
    let hit := match core with
      | some k => tlbFind s k 1 cid va
      | none => none
    let found : State × Look Mapping := match hit with
      | some e => (s, .found { perm := e.perm, ibase := e.ibase, obase := e.obase, pages := e.pages, lines := e.lines })
      | none =>
        match findMapping s (stage2Lines s c.part) c.s1rt.toNat c.s1rn.toNat c.s1pt.toNat va with
        | .found m => ((match core with
            | some k => tlbFill k 1 cid m s
            | none => s), .found m)
        | l => (s, l)
    match found.2 with
    | .absent => (found.1, .stage1)
    | .lacks d => (found.1, .lacks d)
    | .fault g => (found.1, .stage2 g)
    | .found m =>
      if !r.in m.perm then (found.1, .stage1)
      else
        let gpa := m.apply va
        match stage2 core c.part gpa r found.1 with
        | (s2, .found a) => (s2, .ok a)
        | (s2, .lacks d) => (s2, .lacks d)
        | (s2, .absent) => (s2, .stage2 gpa)
        | (s2, .fault g) => (s2, .stage2 g)

/-- Translation by a unit of the package that has no TLB. -/
def translateNow (s : State) (cid va : Nat) (r : Right) : Look Nat :=
  match (translate none cid va r s).2 with
  | .ok a => .found a
  | .lacks d => .lacks d
  | _ => .absent

/-! ### The buffer check -/

/-- An entry of a buffer table (R288). -/
def bufEntry (s : State) (part buf : Nat) : BitVec 256 := sgetD (part * 4096 + buf) 0 s.tabs.bufs

namespace Buf
def valid (e : BitVec 256) : Bool := e.getLsbD 255
def shared (e : BitVec 256) : Bool := e.getLsbD 254
def at' (e : BitVec 256) : Bool := e.getLsbD 253
def wr (e : BitVec 256) : Bool := e.getLsbD 252
def rd (e : BitVec 256) : Bool := e.getLsbD 251
def res (e : BitVec 256) : Bool := e.getLsbD 250
def zpend (e : BitVec 256) : Bool := e.getLsbD 249
def tier (e : BitVec 256) : Bool := e.getLsbD 248
def keyid (e : BitVec 256) : BitVec 12 := e.extractLsb' 236 12
def ownctx (e : BitVec 256) : Nat := (e.extractLsb' 224 12).toNat
def ownpkg (e : BitVec 256) : Nat := (e.extractLsb' 212 12).toNat
def ig (e : BitVec 256) : Nat := (e.extractLsb' 189 3).toNat
def chfirst (e : BitVec 256) : Nat := (e.extractLsb' 179 10).toNat
def chcnt (e : BitVec 256) : Nat := (e.extractLsb' 169 10).toNat
def chstep (e : BitVec 256) : Nat := (e.extractLsb' 161 8).toNat
def last (e : BitVec 256) : Nat := (e.extractLsb' 64 38).toNat
def gbase (e : BitVec 256) : Nat := (e.extractLsb' 12 36).toNat
/-- Members, and the span of each (R290). -/
def members (e : BitVec 256) : Nat := if tier e then 8 else chcnt e
def granule (e : BitVec 256) : Nat := 512 * 2 ^ ig e
def span (e : BitVec 256) : Nat := ceilDiv (last e + 1) (granule e * members e) * granule e
end Buf

/-- The right an access needs (R288). -/
inductive BufRight where
  | rd | wr | at
  deriving DecidableEq, Repr, Inhabited

/-- Who asks a home port (R290): package, context, key, partition. -/
structure Asker where
  pkg : Nat
  ctx : Nat
  key : BitVec 12
  part : Nat
  deriving DecidableEq, Repr, Inhabited

/-- How a home port answers (R290). -/
inductive PortAnswer where
  | ok (dpa : Nat)
  | bounds | rights | owner | notResident
  | stage2 (gpa : Nat)
  | lacks (dpa : Nat)
  deriving DecidableEq, Repr, Inhabited

/-- The pseudo-channel (or port) of an offset, and the offset in the member (R290). -/
def bufPlace (e : BitVec 256) (off : Nat) : Nat × Nat :=
  let g := off / Buf.granule e
  if Buf.tier e then (g % 8, g / 8 * Buf.granule e + off % Buf.granule e)
  else (Buf.chfirst e + g % Buf.chcnt e * Buf.chstep e, g / Buf.chcnt e * Buf.granule e + off % Buf.granule e)

/-- The first four checks of R290. -/
def portCheck (s : State) (k : Asker) (buf off size : Nat) (r : BufRight) : Option PortAnswer :=
  let e := bufEntry s k.part buf
  if !Buf.valid e || decide (Buf.last e < off + size - 1) then some .bounds
  else if !(match r with
    | .rd => Buf.rd e
    | .wr => Buf.wr e
    | .at => Buf.at' e) then some .rights
  else if k.key ≠ Buf.keyid e || (!Buf.shared e && (k.pkg ≠ Buf.ownpkg e || k.ctx ≠ Buf.ownctx e)) then some .owner
  else if !Buf.res e then some .notResident
  else none

/-- The rights that stage 2 must give an access (R294). -/
def BufRight.pages : BufRight → List Right
  | .rd => [.rd]
  | .wr => [.wr]
  | .at => [.rd, .wr]

/-- Stage 2 under every right of a list. -/
def stage2All (s : State) (part gpa : Nat) : List Right → Look Nat
  | [] => .absent
  | [r] => stage2Addr s part gpa r
  | r :: rs => match stage2Addr s part gpa r with
    | .found _ => stage2All s part gpa rs
    | l => l

/-- The device address of one granule piece (R290). -/
def portPlace (s : State) (part buf off : Nat) (r : BufRight) : PortAnswer :=
  let e := bufEntry s part buf
  let c := bufPlace e off
  let gpa := Buf.gbase e * 4096 + c.2
  match stage2All s part gpa r.pages with
  | .absent | .fault _ => .stage2 gpa
  | .lacks d => .lacks d
  | .found a =>
    let dpa := if Buf.tier e then 2 ^ 43 + c.1 * 2 ^ 40 + a % 2 ^ 40 else c.1 * 2 ^ 30 + a % 2 ^ 30
    if layerOff s dpa then .notResident else .ok dpa

def portResolve (s : State) (k : Asker) (buf off size : Nat) (r : BufRight) : PortAnswer :=
  match portCheck s k buf off size r with
  | some a => a
  | none => portPlace s k.part buf off r

/-- What a home port finds for a whole access (R290): the device address of each granule piece by its offset in the access, or the first
failure with the piece's offset. -/
inductive PortPieces where
  | ok (l : List (Nat × Nat))
  | bad (ans : PortAnswer) (off : Nat)
  | lacks (dpa : Nat)
  deriving DecidableEq, Repr, Inhabited

def portPieces (s : State) (k : Asker) (buf off size : Nat) (r : BufRight) : PortPieces :=
  let next (acc : PortPieces) (q : Nat × Nat) : PortPieces :=
    match acc with
    | .ok l => match portPlace s k.part buf (off + q.1) r with
      | .ok d => .ok (l ++ [(q.1, d)])
      | .lacks d => .lacks d
      | ans => .bad ans q.1
    | _ => acc
  match portCheck s k buf off size r with
  | some ans => .bad ans 0
  | none => (granules off size).foldl next (.ok [])

/-- The cause of R343 for a rank's access. -/
def PortAnswer.cause : PortAnswer → BitVec 16
  | .ok _ => 0
  | .bounds => 0x15
  | .rights => 0x16
  | .owner => 0x17
  | .notResident => 0x18
  | .stage2 _ => 0x14
  | .lacks _ => 0

/-- The status of R153 for an engine's. -/
def PortAnswer.status : PortAnswer → BitVec 16
  | .ok _ | .lacks _ => 0
  | .notResident => 0x0009
  | .stage2 _ => 0x0003
  | _ => 0x0002

/-- The home ports keep a written bit per 64 MiB chunk of a buffer (R385). -/
def noteWritten (part buf off : Nat) (s : State) : State :=
  let k := (part * 4096 + buf, off / 2 ^ 26)
  if s.written.contains k then s else { s with written := s.written ++ [k] }

/-! ### Retained tags -/

def findTag (s : State) (pkg : Nat) (tag : BitVec 32) (target : Nat) : Option (List Byte) :=
  (s.tags.find? fun r => r.pkg == pkg && r.tag == tag && r.target == target).map (·.result)

def keepTag (pkg : Nat) (tag : BitVec 32) (target : Nat) (result : List Byte) (s : State) : State :=
  { s with tags := s.tags ++ [{ pkg := pkg, tag := tag, target := target, result := result }] }

/-- A request performed here whose mirror has not answered yet. -/
def mirrorPending (s : State) (pkg : Nat) (tag : BitVec 32) (target : Nat) : Bool :=
  s.mirrorq.any fun m => m.guards == some (pkg, tag, target)

/-- A repeated request takes the place of the first as the one that the mirror's answer reports to. -/
def joinMirror (pkg : Nat) (tag : BitVec 32) (target : Nat) (f : MirrorWait → MirrorWait) (s : State) : State :=
  { s with mirrorq := s.mirrorq.map fun m => if m.guards = some (pkg, tag, target) then f m else m }

/-- This package's homes free a tag that its issuing package has released (R352). -/
def freeTag (pkg : Nat) (tag : BitVec 32) (s : State) : State :=
  { s with tags := s.tags.filter fun r => !(r.pkg == pkg && r.tag == tag) }

/-- A core of this package releases a tag once its operation is reported (R352): here, and at the homes of other packages (log 63). -/
def releaseTag (tag : BitVec 32) (s : State) : State :=
  let s1 := freeTag s.selfPkg tag s
  if s.tabs.routes.isEmpty then s1 else { s1 with fab := { s1.fab with releases := tag :: s1.fab.releases } }

/-- Tag targets other than granules (R146): an event queue, a barrier, a landing row, and 32 bytes of a core's local store. -/
def queueTarget (ctx : Nat) : Nat := 2 ^ 64 + ctx
def barTarget (core b : Nat) : Nat := 2 ^ 65 + core * 128 + b
def rowTarget (core slab row : Nat) : Nat := 2 ^ 66 + (core * 8 + slab) * 128 + row
def localTarget (g region off : Nat) : Nat := 2 ^ 67 + (g * 4 + region) * 2 ^ 32 + off / 32

/-! ### Event records -/

/-- The contents of a record (R151). -/
structure Record where
  cmdaddr : Long := 0
  tlval : Long := 0
  status : BitVec 16 := 0
  source : Nat := 0
  tlcode : Nat := 0
  ctx : Nat := 0
  part : Nat := 0
  counta : Nat := 0
  countb : Nat := 0
  progress : Nat := 0
  user : Word := 0
  launch : Word := 0
  deriving DecidableEq, Repr, Inhabited

def Record.bytes (r : Record) : List Byte :=
  leBytes r.cmdaddr.toNat 8 ++ leBytes r.tlval.toNat 8 ++ leBytes r.status.toNat 2 ++ leBytes r.source 1 ++
  leBytes r.tlcode 1 ++ leBytes (r.ctx % 4096 + r.part % 64 * 4096) 4 ++ leBytes r.counta 8 ++ leBytes r.countb 8 ++
  leBytes r.progress 8 ++ leBytes r.user.toNat 4 ++ leBytes r.launch.toNat 4 ++ zeros 8

def modCtx (cid : Nat) (f : Ctx → Ctx) (s : State) : State := { s with ctxs := smod cid f s.ctxs }

/-- What a posting does to a queue whose header stands at device address h (R152): true when the record was placed, false when
the queue is full. wher gives the address of byte offset o of the queue; a header or a place that no access can reach (R297, R299) is none
(log 79). -/
def postTo (wher : Nat → Look Nat) (rec : List Byte) (s : State) : State × Option Bool :=
  match (wher 0).opt with
  | none => (s, none)
  | some h =>
    let hd := homeRead s h 32
    let log2n := field hd 0 4
    let flags := field hd 4 4
    let tail := field hd 8 8
    let head := field hd 16 8
    let lost := field hd 24 8
    if rowFailed s h || layerOff s h || log2n < 4 || 20 < log2n then (s, none)
    else if (tail - head) % 2 ^ 64 < 2 ^ log2n then
      match (wher (64 + 64 * (tail % 2 ^ log2n))).opt with
      | none => (s, none)
      | some a => if layerOff s a then (s, none) else (pkgWrite (h + 8) (leBytes (tail + 1) 8) (pkgWriteRun a rec s), some true)
    else (pkgWrite (h + 24) (leBytes (lost + 1) 8) (pkgWrite (h + 4) (leBytes (flags ||| 1) 4) s), some false)

/-- The device address of offset o of a context's event queue, for a write; EVQBASE 0 is no queue. -/
def evqAddr (s : State) (cid : Nat) (o : Nat) : Look Nat :=
  match sget cid s.ctxs with
  | none => .absent
  | some c => if c.evqbase = 0 || !ptrOk c.evqbase || ptrSpace c.evqbase != .control then .absent
    else translateNow s cid (ptrOff c.evqbase + o) .wr

def hostqAddr (s : State) (o : Nat) : Look Nat := if s.tabs.hevq = 0 then .absent else .found (s.tabs.hevq.toNat + o)

/-- The first control line a posting needs that is not here, and whether it is to be written. -/
def queueLacks (s : State) (wher : Nat → Look Nat) : Option (Nat × Bool) :=
  match wher 0 with
  | .absent | .fault _ => none
  | .lacks d => some (d, false)
  | .found h =>
    if !lineReady s h true then some (h, true)
    else
      let hd := homeRead s h 32
      let log2n := field hd 0 4
      if log2n < 4 || 20 < log2n then none
      else match wher (64 + 64 * (field hd 8 8 % 2 ^ log2n)) with
        | .absent | .fault _ => none
        | .lacks d => some (d, false)
        | .found a => if lineReady s a true then none else some (a, true)

/-- A reservation holds off the writes of a posting (R129). -/
def queueHeld (s : State) (wher : Nat → Look Nat) : Bool :=
  match (wher 0).opt with
  | none => false
  | some h =>
    let hd := homeRead s h 32
    resvHolds s h || (match (wher (64 + 64 * (field hd 8 8 % 2 ^ min 20 (field hd 0 4)))).opt with
      | some a => resvHolds s a || resvHolds s (a + 32)
      | none => false)

def queueReady (s : State) (wher : Nat → Look Nat) : Bool := (queueLacks s wher).isNone && !queueHeld s wher

def askQueue (s : State) (wher : Nat → Look Nat) : State :=
  match queueLacks s wher with
  | some l => askLine s l.1 l.2
  | none => s

/-- Post to the host queue (R394). -/
def postHostNow (rec : List Byte) (s : State) : State := (postTo (hostqAddr s) rec s).1

def postHostBytes (rec : List Byte) (s : State) : State :=
  if queueReady s (hostqAddr s) && !(s.deferred.any fun d => d.1 == 4096) then postHostNow rec s
  else { askQueue s (hostqAddr s) with deferred := s.deferred ++ [(4096, rec)] }

def postHost (r : Record) (s : State) : State := postHostBytes r.bytes s

def setSticky (cid : Nat) (s : State) : State := modCtx cid (fun c => { c with sticky := true }) s

/-- Post to a context's queue (R152): a full queue or one that cannot be written sets the sticky error bit; the latter also tells
the host. -/
def postCtxNow (cid : Nat) (rec : List Byte) (s : State) : State :=
  match postTo (evqAddr s cid) rec s with
  | (s1, some true) => s1
  | (s1, some false) => setSticky cid s1
  | (s1, none) => postHost { source := 0, status := 0x0003, counta := cid } (setSticky cid s1)

def postCtxBytes (cid : Nat) (rec : List Byte) (s : State) : State :=
  if queueReady s (evqAddr s cid) && !(s.deferred.any fun d => d.1 == cid) then postCtxNow cid rec s
  else { askQueue s (evqAddr s cid) with deferred := s.deferred ++ [(cid, rec)] }

def ctxPart (s : State) (cid : Nat) : Nat := ((sget cid s.ctxs).map (·.part)).getD 0

/-- A record to a context carries the context and its partition. -/
def postCtx (cid : Nat) (r : Record) (s : State) : State := postCtxBytes cid { r with ctx := cid, part := ctxPart s cid }.bytes s

/-- R394: to the host context of a partition, or to the host queue when none is VALID. -/
def postHostCtx (part : Nat) (r : Record) (s : State) : State :=
  let e := sgetD part 0 s.tabs.hostCtx
  if e.getLsbD 15 then postCtxBytes (e.extractLsb' 0 12).toNat r.bytes s else postHost r s

/-- Records that waited for control lines (log 16), tried again in order. -/
def retryDeferred (s : State) : State :=
  let q := s.deferred
  q.foldl (fun s d => if d.1 = 4096 then postHostBytes d.2 s else postCtxBytes d.1 d.2 s) { s with deferred := [] }

end Sys2Proof.Machine
end

