-- ==== Sys2Proof/Machine/Launch.lean ====
section
/-! DEFINITION. The launch packet (R194) and what a launch does when its groups have retired (R203 to R205). -/

set_option linter.unusedVariables false

namespace Sys2Proof.Machine

/-! ### Fields of the packet (R194) -/

namespace Pkt
def code (p : List Byte) : Long := BitVec.ofNat 64 (field p 0 8)
def mcode (p : List Byte) : Long := BitVec.ofNat 64 (field p 8 8)
def args (p : List Byte) : Long := BitVec.ofNat 64 (field p 16 8)
def depn (p : List Byte) : Nat := field p 24 8
def signal (p : List Byte) : Long := BitVec.ofNat 64 (field p 32 8)
def grid (p : List Byte) : Nat := field p 40 4
def shape (p : List Byte) : Nat := field p 44 4
def sizes (p : List Byte) : Nat := field p 48 4
def room (p : List Byte) : Nat := field p 52 4
def qctl (p : List Byte) : Nat := field p 56 4
def sigval (p : List Byte) : List Byte := (p.drop 60).take 4
def ranks (p : List Byte) : Nat := bits (shape p) 0 7
def cranks (p : List Byte) : Nat := bits (shape p) 7 7
def team (p : List Byte) : Nat := bits (shape p) 14 3
def vregs (p : List Byte) : Nat := bits (sizes p) 0 6
def cregs (p : List Byte) : Nat := bits (sizes p) 6 6
def scratch (p : List Byte) : Nat := bits (sizes p) 12 13
def slabs (p : List Byte) : Nat := bits (sizes p) 25 4
def plane (p : List Byte) : Nat := bits (room p) 0 14
def lbar (p : List Byte) : Nat := bits (room p) 14 7
def qbar (p : List Byte) : Nat := bits (room p) 21 6
def queue (p : List Byte) : Nat := bits (qctl p) 0 12
def depctx (p : List Byte) : Nat := bits (qctl p) 12 12
def deptl (p : List Byte) : Nat := bits (qctl p) 24 3
def depen (p : List Byte) : Bool := bit (qctl p) 27
def evt (p : List Byte) : Bool := bit (qctl p) 28
def compat (p : List Byte) : Bool := bit (qctl p) 29
/-- Members placed together, and groups in all. -/
def step (p : List Byte) : Nat := if team p = 0 then 1 else team p
def total (p : List Byte) : Nat := grid p * step p
/-- The budget of registers per thread of rank r (R195). -/
def budget (p : List Byte) (r : Nat) : Nat := 8 * (if r < ranks p - cranks p then vregs p else cregs p)
end Pkt

/-! ### Timelines (R143) -/

def Timeline.zero : Timeline := { err := false, value := 0, taken := 0, done := [] }

def tlIndex : Tl → Nat
  | .copy => 0 | .gath => 1 | .mat => 2 | .coll => 3 | .xs => 4 | .q => 5

def ctx? (s : State) (cid : Nat) : Option Ctx := sget cid s.ctxs

def timeline (s : State) (cid i : Nat) : Timeline := ((ctx? s cid).map fun c => c.tls.getD i Timeline.zero).getD Timeline.zero

/-- The next number on a timeline (R143): numbered from 1. -/
def takeNumber (cid i : Nat) (s : State) : State × Nat :=
  let n := (timeline s cid i).taken + 1
  (modCtx cid (fun c => { c with tls := modAt c.tls i fun t => { t with taken := n } }) s, n)

/-- VALUE is the largest n with every operation up to n completed. -/
def Timeline.settle (t : Timeline) : Nat → Timeline
  | 0 => t
  | k + 1 => if t.done.contains (t.value + 1) then
      Timeline.settle { t with value := t.value + 1, done := t.done.erase (t.value + 1) } k else t

def Timeline.complete (t : Timeline) (n : Nat) (err : Bool) : Timeline :=
  let t1 := { t with err := t.err || err, done := if n ≤ t.value then t.done else n :: t.done }
  t1.settle t1.done.length

def advance (cid i n : Nat) (err : Bool) (s : State) : State :=
  modCtx cid (fun c => { c with tls := modAt c.tls i fun t => t.complete n err }) s

/-- EREAD's and TL.read's layout: bit 63 ERR, bits 62:0 VALUE (R143). -/
def Timeline.word (t : Timeline) : Long := BitVec.ofNat 64 (t.value % 2 ^ 63 + (if t.err then 2 ^ 63 else 0))

/-! ### Completion -/

/-- A line of another home that this package holds in M or O goes back to its home (R138, R329); it stays, clean. -/
def writeBackLine (line : Nat) (s : State) : State :=
  match sget line s.l2 with
  | some l =>
    if l.state == .m || l.state == .o then
      sendCtl 0x13 (homeOf s (line * 512)) (line * 512) 0 l.data
        { s with l2 := sset line { l with state := if l.state = .m then .e else .o, writers := [] } s.l2 }
    else s
  | none => s

/-- A line leaves this package: its translations go (R296), and reservations in it. -/
def loseLine (line : Nat) (s : State) : State :=
  { s with l2 := sdel line s.l2
           tlb := s.tlb.filter fun e => !e.lines.contains line
           ctls := dropCtl (fun b => b / 8 == line) s.ctls
           resv := s.resv.filter fun r => r.granule / 16 != line }

/-- A line of another home leaves this package: where the home counts this package as its owner, its bytes go back. -/
def giveLine (line : Nat) (s : State) : State :=
  match sget line s.l2 with
  | some l =>
    let s1 := loseLine line s
    if l.state == .s then s1 else sendCtl 0x13 (homeOf s (line * 512)) (line * 512) 2 l.data s1
  | none => s

/-- The lines of other homes that a launch's ranks have written go back (R205). -/
def writeBackLaunch (l : Nat) (s : State) : State :=
  ((s.l2.filter fun e => e.2.writers.contains l).map (·.1)).foldl (fun s n => writeBackLine n s) s

/-- Where SIGNAL lies: its device address, a status, or none while the line is not here. -/
inductive SignalAt where
  | ok (dpa : Nat) | bad (status : BitVec 16) | notHere (dpa : Nat) (write : Bool)
  deriving DecidableEq, Repr, Inhabited

def signalAt (s : State) (x : Launch) : SignalAt :=
  let p := Pkt.signal x.pkt
  if ptrSpace p = .tensor then
    let key : BitVec 12 := ((ctx? s x.owner).map (·.key)).getD 0
    let a := portResolve s { pkg := s.selfPkg, ctx := x.owner, key := key, part := x.part } (ptrBuf p) (ptrOff p) 4 .wr
    match a with
    | .ok dpa => .ok dpa
    | .lacks d => .notHere d false
    | a => .bad a.status
  else
    match translateNow s x.owner (ptrOff p) .wr with
    | .absent | .fault _ => .bad 0x0003
    | .lacks d => .notHere d false
    | .found dpa => if lineReady s dpa true then .ok dpa else .notHere dpa true

def modLaunch (l : Nat) (f : Launch → Launch) (s : State) : State := { s with launches := smod l f s.launches }

def Launch.addStatus (x : Launch) (st : BitVec 16) : Launch := { x with status := if x.status = 0 then st else x.status }

/-- The store of SIGVAL (R205): after the lines that the launch's ranks wrote for other homes have gone back. -/
def signalStore (l : Nat) (x : Launch) (s : State) : State :=
  match signalAt s x with
  | .notHere dpa w => askLine s dpa w
  | .bad st =>
    modLaunch l (fun x => { x.addStatus st with compatDone := true })
      (postCtx x.owner { source := 6, status := st, cmdaddr := Pkt.signal x.pkt, launch := BitVec.ofNat 32 x.n } s)
  | .ok dpa =>
    let s1 := writeBackLaunch l s
    let p := Pkt.signal x.pkt
    let s2 := if ptrSpace p = .tensor then noteWritten x.part (ptrBuf p) (ptrOff p) s1 else s1
    modLaunch l (fun x => { x with compatDone := true }) (pkgWrite dpa (Pkt.sigval x.pkt) s2)

/-- Completion (R203, R204): tl.q, then the event record. -/
def completeLaunch (l : Nat) (x : Launch) (s : State) : State :=
  let err := x.status != 0 || x.faulted
  let s1 := advance x.owner 5 x.n err s
  let s2 := if Pkt.evt x.pkt then
      postCtx x.owner { cmdaddr := Pkt.code x.pkt, tlval := BitVec.ofNat 64 (x.n % 2 ^ 63 + (if err then 2 ^ 63 else 0)),
                        status := x.status, source := 6, tlcode := 0x85, counta := Pkt.grid x.pkt, countb := x.discarded,
                        progress := x.retired, launch := BitVec.ofNat 32 x.n } s1
    else s1
  { s2 with launches := sdel l s2.launches }

/-- The group belongs to the launch. -/
def ofLaunch (s : State) (l g : Nat) : Bool := ((sget g s.groups).map fun x => x.launch == l).getD false

def ownerOf (s : State) (l : Nat) (o : RemoteOwner) : Bool :=
  match o with
  | .entry g _ _ _ => ofLaunch s l g
  | .mepi g _ _ => ofLaunch s l g
  | _ => false

/-- The launch's ranks have no access to control or own-home tensor space on its way: none queued for its home, none at another package's
home, none that its mirror does not hold; and none such is a store that they have read (R203, R205, R273). Remote operations and peer sends are what the counters count. -/
def launchQuiet (s : State) (l : Nat) : Bool :=
  !(s.homeq.any fun a => (!a.remote && ofLaunch s l a.who.group) || a.readers.any fun v => v.launch == l) &&
  !(s.fab.unacked.any fun u => ptrSpace u.packet.addr == .control && u.packet.kind != 0x08 && u.packet.kind != 0x09 && ownerOf s l u.owner) &&
  !(s.mirrorq.any fun m => ownerOf s l m.owner || m.readers.any fun v => v.launch == l)

def ctxActive (s : State) (cid : Nat) : Bool := ((ctx? s cid).map fun c => c.mode == .running).getD false

/-- A launch all of whose groups have retired or are discarded: the compatibility signal, then native completion once its counters
read zero and its ranks' accesses are performed, which tl.q releases at .dom (R203, R205, R206). A launch with discarded groups stores no
SIGVAL. A frozen context's launch stays, unless bear-off has discarded it. -/
def settleLaunch (l : Nat) (s : State) : State :=
  match sget l s.launches with
  | none => s
  | some x =>
    if x.retired + x.discarded < Pkt.total x.pkt || (!ctxActive s x.owner && x.discarded == 0) then s
    else
      let s1 := modLaunch l (fun x => { x with st := .acknowledging }) s
      let signals (y : Launch) : Bool := Pkt.compat y.pkt && !y.compatDone && !y.gone && y.retired == Pkt.total y.pkt
      let s2 := if signals x && launchQuiet s l then signalStore l x s1 else s1
      match sget l s2.launches with
      | none => s2
      | some y =>
        if signals y || y.outstanding ≠ 0 || !launchQuiet s l then s2
        else completeLaunch l y s2

/-- The launch's outstanding counter rises (R203). -/
def launchUp (l n : Nat) (s : State) : State := modLaunch l (fun x => { x with outstanding := x.outstanding + n }) s

/-- It falls; the first non-zero status is kept (R203). -/
def launchDown (l : Nat) (status : BitVec 16) (s : State) : State :=
  settleLaunch l (modLaunch l (fun x => { x.addStatus status with outstanding := x.outstanding - 1 }) s)

def launchStatus (l : Nat) (status : BitVec 16) (s : State) : State := modLaunch l (fun x => x.addStatus status) s

/-- A fault that nothing recovers ends a group of the launch: ERR of its tl.q, and no status of a command (R203, R204). DESIGN CHOICE
(log 99): such a fault is one that no rank or thread is left to take. -/
def launchFaulted (l : Nat) (s : State) : State := modLaunch l (fun x => { x with faulted := true }) s

/-! ### Retirement (R202) -/

/-- A row for one of the group's slabs stands in the fabric interface (R202). -/
def arrivalHeld (s : State) (g : Nat) : Bool :=
  s.fab.held.any fun p => (p.kind == 0x08 || p.kind == 0x09) &&
    (sget (bits p.addr.toNat 44 8 * 8 + bits p.addr.toNat 41 3) s.slabs).any fun b => b.group == g

/-- Nothing of the group is still on its way: accesses, engine commands, matrix instructions, peer sends and arrivals (R202). -/
def groupQuiet (s : State) (g : Nat) : Bool :=
  !arrivalHeld s g && ((sget g s.groups).map fun x => x.seq.recs.isEmpty).getD true &&
  !(s.homeq.any fun a => a.who.group == g) && !(s.respq.any fun a => a.group == g) && !(s.cmds.any fun e => e.2.group == g) &&
  !(s.fab.unacked.any fun u => match u.owner with
    | .entry g' _ _ _ => g' == g
    | .mepi g' _ _ => g' == g
    | _ => false) &&
  !(s.mirrorq.any fun m => match m.owner with
    | .entry g' _ _ _ => g' == g
    | .mepi g' _ _ => g' == g
    | _ => false)

/-- The resources of a retired group that nothing names any more are free, and its launch may be able to complete. -/
def freeGroup (g : Nat) (s : State) : State :=
  match sget g s.groups with
  | some x =>
    if x.retiredGroup && groupQuiet s g then
      let s1 := { s with groups := sdel g s.groups, slabs := s.slabs.filter fun e => e.2.group ≠ g }
      settleLaunch x.launch (if s1.groups.any fun e => e.2.team == x.team && x.team != 0 then s1 else { s1 with teams := sdel x.team s1.teams })
    else s
  | none => s

/-- Traffic of a group has ended: a retired group's launch may complete, and its resources be free. -/
def trafficEnds (g : Nat) (s : State) : State :=
  match sget g s.groups with
  | some x => if x.retiredGroup then freeGroup g (settleLaunch x.launch s) else s
  | none => s

/-- A group retires when its ranks have exited, their faults are posted (R347), and its sequencer is idle: never started, stopped by MSTOP or by a fault (R166). -/
def settleGroup (g : Nat) (s : State) : State :=
  match sget g s.groups with
  | some x =>
    if x.retiredGroup || x.frozen then freeGroup g s
    else if (x.ranks.all fun k => k.st == .retired && k.imprecise.isEmpty) && (x.seq.st == .idle || x.seq.st == .stopped) then
      freeGroup g (settleLaunch x.launch (modLaunch x.launch (fun y => { y with retired := y.retired + 1 })
        { s with groups := sset g { x with retiredGroup := true } s.groups }))
    else s
  | none => s

end Sys2Proof.Machine
end

