-- ==== Sys2Proof/Machine/Image.lean ====
section
/-! DEFINITION. The save area of a context in memory (R362 to R366): addresses, and the byte forms of an in-flight record entry
(R349), a thread table, a frame copy and a frame header (R366). -/

set_option linter.unusedVariables false

namespace Sys2Proof.Machine

/-! ### Reading and writing a save area -/

/-- The pieces of a run of bytes within pages of 4,096: offset in the run and length. -/
def pagePieces (start len : Nat) : List (Nat × Nat) :=
  let n := (start % 4096 + len + 4095) / 4096
  (List.range n).map fun k =>
    let lo := if k = 0 then 0 else 4096 * k - start % 4096
    let hi := min len (4096 * (k + 1) - start % 4096)
    (lo, hi - lo)

/-- The bytes of a run of device addresses, line by line where they are homed elsewhere. -/
def runRead (s : State) (a n : Nat) : List Byte :=
  if homedHere s a then homeRead s a n
  else
    let line (k : Nat) : List Byte :=
      let p := if k = 0 then a else (a / 512 + k) * 512
      (homeRead s p 512).take (512 - p % 512)
    ((List.range ((a % 512 + n + 511) / 512)).flatMap line).take n

/-- A byte of the run stands in a failed row (R297). -/
def runFailed (s : State) (a n : Nat) : Bool := (List.range ((a % 1024 + n + 1023) / 1024)).any fun k => rowFailed s (a + 1024 * k)

/-- Memory's bytes of a guest-physical run; none when a row of it has failed, stage 2 does not map it for reading, or a layer that holds it is off. -/
def gpaRead (s : State) (part gpa n : Nat) : Option (List Byte) :=
  (pagePieces gpa n).foldl (fun acc p => match acc with
    | none => none
    | some bs => match (stage2Addr s part (gpa + p.1) .rd).opt with
      | some a => if layerOff s a || runFailed s a p.2 then none else some (bs ++ runRead s a p.2)
      | none => none) (some [])

/-- The control lines of n bytes at a that cannot be read (or written) here now. -/
def linesLack (s : State) (a n : Nat) (write : Bool) : List (Nat × Bool) :=
  ((List.range ((a % 512 + n + 511) / 512)).map fun k => ((a / 512 + k) * 512, write)).filter fun l => !lineReady s l.1 write

/-- Those of a guest-physical run, and of the tables that map it. A write that is still to be made there comes first (log 75). -/
def runLacks (s : State) (part gpa n : Nat) (write : Bool) : List (Nat × Bool) :=
  let mine (gpa n : Nat) (write : Bool) : List (Nat × Bool) := (pagePieces gpa n).flatMap fun p =>
    match stage2Addr s part (gpa + p.1) (if write then .wr else .rd) with
    | .lacks d => [(d, false)]
    | .absent | .fault _ => []
    | .found a => if layerOff s a then [] else linesLack s a p.2 write
  (s.late.filter fun l => l.1 == part && decide (l.2.1 < gpa + n) && decide (gpa < l.2.1 + l.2.2.length)).flatMap
    (fun l => mine l.2.1 l.2.2.length true) ++ mine gpa n write

def askAll (l : List (Nat × Bool)) (s : State) : State := l.foldl (fun s x => askLine s x.1 x.2) s

/-- Write a guest-physical run whose lines are here; the guest-physical address that failed, if one did. -/
def gpaWriteNow (part gpa : Nat) (bs : List Byte) (s : State) : State × Option Nat :=
  (pagePieces gpa bs.length).foldl (fun acc p => match acc.2 with
    | some g => acc
    | none => match (stage2Addr acc.1 part (gpa + p.1) .wr).opt with
      | some a => if layerOff acc.1 a then (acc.1, some (gpa + p.1))
        else (pkgWriteRun a ((bs.drop p.1).take p.2) acc.1, none)
      | none => (acc.1, some (gpa + p.1))) (s, none)

/-- Write a guest-physical run; it waits in State while a line it needs is elsewhere (log 75). -/
def gpaWrite (part gpa : Nat) (bs : List Byte) (s : State) : State × Option Nat :=
  let l := runLacks s part gpa bs.length true
  if l.isEmpty then gpaWriteNow part gpa bs s else (askAll l { s with late := s.late ++ [(part, gpa, bs)] }, none)

/-- The writes that waited, tried again in order. -/
def retryLate (s : State) : State :=
  let q := s.late
  q.foldl (fun s w => (gpaWrite w.1 w.2.1 w.2.2 s).1) { s with late := [] }

/-! ### Entries (R349) -/

def EntryState.code : EntryState → Nat
  | .issued => 0 | .faulted => 1 | .armed => 2 | .parkedWait => 3 | .ctxStep => 4
def EntryState.ofCode : Nat → EntryState
  | 1 => .faulted | 2 => .armed | 3 => .parkedWait | 4 => .ctxStep | _ => .issued

def EntryClass.code : EntryClass → Nat
  | .n => 0 | .s => 1 | .p => 2 | .x => 3
def EntryClass.ofCode : Nat → EntryClass
  | 1 => .s | 2 => .p | 3 => .x | _ => .n

def padTo (n : Nat) (bs : List Byte) : List Byte := bs.take n ++ zeros (n - bs.length)

def Slot.zero : Slot := { a := 0, b := 0, c := 0 }

def Slot.bytes (x : Slot) : List Byte := leBytes x.a.toNat 8 ++ leBytes x.b.toNat 16 ++ leBytes x.c.toNat 8

def Slot.ofBytes (bs : List Byte) : Slot :=
  { a := BitVec.ofNat 64 (field bs 0 8), b := BitVec.ofNat 128 (field bs 8 16), c := BitVec.ofNat 64 (field bs 24 8) }

/-- The slots of a list of bytes: those that are not all zero. -/
def slotsOf (bs : List Byte) : Sparse Slot :=
  (List.range 32).foldl (fun m t => sput Slot.zero t (Slot.ofBytes (bs.drop (32 * t))) m) []

/-- TAGBASE is a whole tag, its context's identifier included (R146, R349); an entry that holds no tag has 0. -/
def Entry.tagWord (cid : Nat) (e : Entry) : Nat :=
  if e.cls = .s ∨ e.tagBase ≠ 0 then cid * 2 ^ 20 + e.tagBase.toNat else 0

def Entry.bytes (cid : Nat) (e : Entry) : List Byte :=
  wordBytes e.word ++ leBytes e.state.code 1 ++ leBytes e.cls.code 1 ++
  leBytes ((if e.drop then 1 else 0) + 2 * e.zeroed.toNat + (if e.unif then 16 else 0)) 1 ++ zeros 1 ++
  leBytes e.pc.toNat 8 ++ leBytes e.mask.toNat 4 ++ leBytes (e.tagWord cid) 4 ++ leBytes e.prog 8 ++
  leBytes e.status.toNat 2 ++ leBytes e.cause.toNat 2 ++ zeros 20 ++ padTo 128 e.block ++
  ((List.range 32).flatMap fun t => (sgetD t Slot.zero e.slots).bytes) ++ zeros 64

def Entry.ofBytes (id : Nat) (bs : List Byte) : Entry where
  word := wordOfBytes (bs.take 12)
  state := EntryState.ofCode (field bs 12 1)
  cls := EntryClass.ofCode (field bs 13 1)
  drop := bit (field bs 14 1) 0
  zeroed := BitVec.ofNat 3 (field bs 14 1 / 2)
  unif := bit (field bs 14 1) 4
  pc := BitVec.ofNat 64 (field bs 16 8)
  mask := BitVec.ofNat 32 (field bs 24 4)
  tagBase := BitVec.ofNat 20 (field bs 28 4)
  prog := field bs 32 8
  status := BitVec.ofNat 16 (field bs 40 2)
  cause := BitVec.ofNat 16 (field bs 42 2)
  block := (bs.drop 64).take 128
  slots := slotsOf ((bs.drop 192).take 1024)
  id := id
  left := 0
  got := []
  bad := none
  replayed := false

/-- Bytes of a v line, and the line read back (R366). -/
def lineBytes (m : Sparse Word) (n : Nat) : List Byte := (List.range 32).flatMap fun t => leBytes (sgetD (n * 32 + t) 0 m).toNat 4

def lineOf (n : Nat) (bs : List Byte) (m : Sparse Word) : Sparse Word :=
  (List.range 32).foldl (fun m t => sput 0 (n * 32 + t) (BitVec.ofNat 32 (field bs (4 * t) 4)) m) m

/-- An edit lowers PROG of an STC or of a class-P entry (R350). -/
def Entry.lowered (e n : Entry) : Bool := (e.word.extractLsb' 88 8 == 0x94 || e.cls == .p) && decide (n.prog < e.prog)

/-- What RTT takes of a handler's edits of an entry (R350): DROP set, the slots, cleared MASK bits, a lowered PROG. Its tags stay those
of MASK at issue. -/
def Entry.takeEdits (e n : Entry) : Entry :=
  { e with drop := e.drop || n.drop, slots := n.slots, mask := e.mask &&& n.mask, prog := if e.lowered n then n.prog else e.prog,
           mask0 := if e.mask0 = 0 ∧ e.mask &&& n.mask ≠ e.mask then e.mask else e.mask0 }

def Entry.edited (e : Entry) (bs : List Byte) : Entry := e.takeEdits (Entry.ofBytes e.id bs)

/-! ### Thread tables and frames (R366) -/

def Thread.bytes (t : Thread) : List Byte :=
  leBytes t.pc.toNat 8 ++ leBytes t.stack.length 2 ++
  leBytes ((if t.exited then 1 else 0) + (if t.parked then 2 else 0) + 4 * t.waitJ.toNat) 2 ++
  leBytes t.passed 4 ++ leBytes t.waitMask.toNat 4 ++ zeros 12

/-- A return stack at the depth a thread table gives: the entries that stand, oldest kept; above them those of was. -/
def stackAt (depth : Nat) (live was : List Long) : List Long :=
  let up := live.reverse
  ((up ++ was.reverse.drop up.length ++ List.replicate 256 0).take (min depth 256)).reverse

/-- A thread from its 32 bytes, its stack being what stands in hardware or in was. -/
def Thread.ofBytes (live was : List Long) (bs : List Byte) : Thread :=
  let st := stackAt (field bs 8 2) live was
  { pc := BitVec.ofNat 64 (field bs 0 8), exited := bit (field bs 10 2) 0, parked := bit (field bs 10 2) 1,
    waitJ := BitVec.ofNat 4 (field bs 10 2 / 4), waitMask := BitVec.ofNat 32 (field bs 16 4), passed := field bs 12 4,
    stack := st, hw := min st.length 16 }

/-- 2 bytes per thread, bit i is p i. -/
def predBytes (p : Nat → Mask) : List Byte :=
  (List.range 32).flatMap fun t =>
    leBytes ((List.range 16).foldl (fun a i => a + (if (p i).getLsbD t then 2 ^ i else 0)) 0) 2

def predOf (bs : List Byte) (i : Nat) : Mask := maskOf fun t => bit (field bs (2 * t) 2) i

def FrameCopy.bytes (f : FrameCopy) : List Byte :=
  padTo 2048 ((f.threads.flatMap Thread.bytes) ++ predBytes (fun i => if i = 0 then BitVec.allOnes 32 else f.p.getD i 0) ++
    (f.w.flatMap fun x => leBytes x.toNat 8) ++ (f.j.flatMap fun x => leBytes x.toNat 4))

/-- The frame copy as the handler has left it (R345). -/
def FrameCopy.edited (f : FrameCopy) (live : List Thread) (bs : List Byte) : FrameCopy where
  threads := (List.range 32).map fun t =>
    Thread.ofBytes ((live.getD t default).stack) ((f.threads.getD t default).stack) ((bs.drop (32 * t)).take 32)
  p := (List.range 16).map fun i => predOf ((bs.drop 1024).take 64) i
  w := (List.range 8).map fun i => BitVec.ofNat 64 (field bs (1088 + 8 * i) 8)
  j := (List.range 16).map fun i => BitVec.ofNat 32 (field bs (1152 + 4 * i) 4)

/-- The entries of an image's live record, at most 32 (R348): those that wait to be injected again stand in its frame record, which no
handler uses then. -/
def Rank.liveOut (k : Rank) : List Entry := k.live.take Config.recordLimit
def Rank.frameOut (k : Rank) : List Entry := k.live.drop Config.recordLimit ++ k.frame

/-- The frame header: TCAUSE, TPC, TVAL, counts of frame and live entries, the word (the order is the model's, log 17). -/
def frameHeader (k : Rank) : List Byte :=
  padTo 64 (leBytes k.tcause.toNat 8 ++ leBytes k.tpc.toNat 8 ++ leBytes k.tval.toNat 8 ++ leBytes k.frameOut.length 4 ++
    leBytes k.liveOut.length 4 ++ wordBytes k.frameWord ++ leBytes (match k.tpcWas with
      | some p => 2 * (p.toNat % 2 ^ 64) + 1
      | none => 0) 9)

def CtxMode.code : CtxMode → Nat
  | .running => 0 | .frozen => 1 | .saved => 2 | .held => 3

/-- STATE of a descriptor (R362): the mode, and the step in progress. -/
def stateWord (c : Ctx) : Nat := c.mode.code + c.step.toNat * 256

/-- The engine updates STATE in the descriptor that stands in the save area (R362). -/
def noteState (cid : Nat) (s : State) : State :=
  match ctx? s cid with
  | none => s
  | some c => (gpaWrite c.part c.savebase.toNat (leBytes (stateWord c) 4) s).1

/-! ### Where images stand -/

def alignUp (n k : Nat) : Nat := (n + k - 1) / k * k

/-- The rank images of a group image stand after its scratchpad, planes and slabs (R365). -/
def rankImageOff (x : Group) (r : Nat) : Nat :=
  alignUp (0x2000 + x.scratchBytes + x.planeBytes + 65536 * x.slabMax) 64 + 0x2E000 * r

def groupImageSize (x : Group) : Nat := alignUp (rankImageOff x x.ranks.length) 4096

/-- Group images start after a directory for as many groups as the n cores of the partition have rank slots (R364; the choice is the
model's, log 17). -/
def imageBase (n : Nat) : Nat := alignUp (0x11000 + 64 * 512 * n) 4096

/-- The directory has room for n groups more. -/
def dirRoom (taken : List (Nat × Nat)) (n : Nat) : Bool := taken.all fun p => decide (0x11000 + 64 * (taken.length + n) ≤ p.1)

/-- The lowest place in a context's save area for an image of n bytes, clear of the images that stand. -/
def placeImage (taken : List (Nat × Nat)) (n : Nat) : Nat → Nat → Nat
  | 0, at' => at'
  | k + 1, at' =>
    match taken.find? fun p => decide (p.1 < at' + n) && decide (at' < p.1 + p.2) with
    | some p => placeImage taken n k (p.1 + p.2)
    | none => at'

/-- The offset of a rank's image from the save area's start. -/
def rankArea (x : Group) (r : Nat) : Nat := x.imgOff + rankImageOff x r

end Sys2Proof.Machine
end

