-- ==== Sys2Proof/Machine/Ops.lean ====
section
/-! DEFINITION. The shared operations: ranks and groups, passes and plies (R207 to R218), energy (R330 to R332), timelines (R143),
the freeze (R354), taking a trap (R341 to R347) and what an issued instruction goes through before and after its effect. -/

set_option linter.unusedVariables false

namespace Sys2Proof.Machine

/-! ### Groups and ranks -/

def group? (s : State) (g : Nat) : Option Group := sget g s.groups
def rank? (s : State) (g r : Nat) : Option Rank := (group? s g).bind fun x => x.ranks[r]?
def modGroup (g : Nat) (f : Group → Group) (s : State) : State := { s with groups := smod g f s.groups }
def modRank (g r : Nat) (f : Rank → Rank) (s : State) : State := modGroup g (fun x => { x with ranks := modAt x.ranks r f }) s

/-- Not a multiple of 4 (R38, R93). -/
def misaligned (p : Long) : Bool := p.extractLsb' 0 2 != 0

def Thread.zero : Thread :=
  { pc := 0, exited := false, parked := false, waitJ := 0, waitMask := 0, passed := 0, stack := [], hw := 0 }
def Rank.thread (k : Rank) (t : Nat) : Thread := k.threads.getD t Thread.zero
def Rank.modThread (k : Rank) (t : Nat) (f : Thread → Thread) : Rank := { k with threads := modAt k.threads t f }
def Rank.exitedMask (k : Rank) : Mask := maskOf fun t => (k.thread t).exited
def Rank.parkedMask (k : Rank) : Mask := maskOf fun t => (k.thread t).parked
/-- Threads that stand at a PC: neither exited nor parked. -/
def Rank.standing (k : Rank) : Mask := maskOf fun t => !(k.thread t).exited && !(k.thread t).parked
def Rank.allExited (k : Rank) : Bool := k.exitedMask == BitVec.allOnes 32

/-- Lane of a core as one number. -/
def laneOf (x : Group) (k : Rank) : Nat := x.core * 32 + k.lane

/-- A context that runs; a group of it that is not frozen or quiesced acts. -/
def ctxRuns (s : State) (cid : Nat) : Bool :=
  match ctx? s cid with
  | some c => c.mode == .running && !c.thermal
  | none => false

/-- The lowest-numbered rank that has not exited. -/
def lowestRank (x : Group) : Option Nat := (List.range x.ranks.length).find? fun r =>
  match x.ranks[r]? with
  | some k => k.st != .retired
  | none => false

/-! ### Time -/

/-- Reference cycles pass. -/
def tick (n : Nat) (s : State) : State := { s with clk := s.clk + n }

/-- n cycles of the arithmetic clock pass (R398): clk keeps its rate of 1,750 MHz, and what is left of a cycle counts in the next. -/
def arith (n : Nat) (s : State) : State :=
  { s with clk := s.clk + (s.aphase + n * 1750) / s.plat.aclk, aphase := (s.aphase + n * 1750) % s.plat.aclk }

/-- A pass of n arithmetic cycles occupies the lane of rank r of group g: every other ready rank of the lane counts it toward
starvation (R214). -/
def passCycles (g r n : Nat) (s : State) : State :=
  match (group? s g).bind fun x => (x.ranks[r]?).map fun k => laneOf x k with
  | none => s
  | some ln =>
    let older (e : Nat × Group) (k : Rank) : Rank :=
      if laneOf e.2 k = ln ∧ ¬(e.1 = g ∧ k.idx = r) ∧ k.st = .ready ∧ ¬e.2.frozen then { k with starve := k.starve + n } else k
    arith n { s with groups := s.groups.map fun e => (e.1, { e.2 with ranks := e.2.ranks.map (older e) }) }

/-! ### Energy -/

/-- R332: the count saturates at 2^48 − 1. -/
def charge (cid n : Nat) (s : State) : State :=
  modCtx cid (fun c => if c.sat then c else if c.energy + n < 2 ^ 48 then { c with energy := c.energy + n }
    else { c with energy := 2 ^ 48 - 1, sat := true }) s

/-- The dynamic weight of a class under the core's copy of the context's table (R397). -/
def weightOf (s : State) (cid core cls : Nat) : Nat :=
  match ctx? s cid with
  | none => 0
  | some c => (((sgetD core [] c.weights).getD cls 0 : Word)).toNat

/-- The class of an instruction word (R397): by opcode. -/
def energyClass (w : IWord) : Nat :=
  let opc := (w.extractLsb' 88 8).toNat
  if opc = 0x01 then 0
  else if opc ≤ 0x31 then 1
  else if opc < 0x50 then 0
  else if opc ≤ 0x56 then 2
  else if opc ≤ 0x68 then 3
  else if opc ≤ 0x70 then 4
  else if opc ≤ 0x73 then 3
  else if opc = 0x74 then 4
  else if opc ≤ 0x79 then 3
  else if opc = 0x91 ∨ opc = 0x94 ∨ opc = 0x97 ∨ opc = 0x9B then 6
  else if opc = 0x95 then 7
  else if opc = 0x98 ∨ opc = 0x99 then 8
  else if opc = 0x9A ∨ opc = 0xB0 ∨ opc = 0xB1 then 9
  else if opc < 0xA0 then 5
  else if opc < 0xD0 then 10
  else if opc < 0xE0 then 12
  else 11

/-! ### Tags -/

/-- Take n tag sequence numbers of a context (R146); the first. -/
def takeTags (cid n : Nat) (s : State) : State × BitVec 20 :=
  match ctx? s cid with
  | none => (s, 0)
  | some c => (modCtx cid (fun c => { c with tagSeq := c.tagSeq + BitVec.ofNat 20 n }) s, c.tagSeq)

def tagOf (cid : Nat) (base : BitVec 20) (k : Nat) : BitVec 32 := BitVec.ofNat 12 cid ++ (base + BitVec.ofNat 20 k)

/-! ### Plies -/

/-- An SC of a reservation's thread is on its way to its home. -/
def scOnWay (s : State) (v : Reservation) : Bool := s.homeq.any fun a =>
  a.who.group == v.group && a.who.rank == v.rank && a.thread == v.thread && match a.op with
    | .sc _ => true
    | _ => false

/-- The ply of rank r of group g ends: its reservations go (R129), but for those whose SC, issued in the ply, is on its way; and it is
ready, or in state st. -/
def endPly (g r : Nat) (st : RankState) (s : State) : State :=
  let s1 := modRank g r (fun k => { k with st := st, active := 0, plyLen := 0, plyLr := false, readyAt := s.clk, starve := 0,
                                           plyClean := false, waitFor := .none }) s
  { s1 with resv := s1.resv.filter fun v => !(v.group == g && v.rank == r) || scOnWay s v
            cur := if s1.cur == some (.rank g r) then none else s1.cur }

/-- The lane stalls within a ply that holds a reservation (R213): the rank stays issuing, time passes. -/
def stallPly (g r : Nat) (s : State) : State := arith 1 { s with cur := none }

/-- A break (R212): the ply ends before the instruction and the rank waits. -/
def breakPly (g r : Nat) (why : WaitFor) (s : State) : State :=
  modRank g r (fun k => { k with waitFor := why }) (endPly g r .waitOperand s)

/-! ### The freeze -/

/-- An entry as a freeze or a cut leaves it: nothing of it has been received. -/
def Entry.reset (e : Entry) : Entry := { e with left := 0, got := [], bad := none, waits := false }

/-- Threads of an entry stand after it (R341 step 3). -/
def stepPast (m : Mask) (pc : Long) (ts : List Thread) : List Thread :=
  (List.range ts.length).map fun t =>
    let x := ts.getD t Thread.zero
    if m.getLsbD t then { x with pc := ptrAdd pc 12 } else x

/-- An STC that waits to trap stands in the record as one that goes on at its progress point, its path after it (R128). -/
def Rank.unstop (k : Rank) : Rank :=
  { k with
    threads := k.live.foldl (fun ts e => match e.stop with
      | some p => stepPast p.1 e.pc ts
      | none => ts) k.threads
    live := k.live.map fun e => if e.stop.isSome then { e with stop := none, state := .issued, cause := 0 } else e }

/-- A rank at the freeze (R354): its ply ends, its unfinished entries stay in the live record. -/
def freezeRank (r : Rank) : Rank :=
  let k := r.unstop
  { k with imprecise := k.imprecise.filter fun f => f.entry.isNone && f.cause != 0x14, st := if k.st = .issuing then .ready else k.st, active := 0, plyLen := 0, plyLr := false, live := k.live.map Entry.reset }

def inCtx (s : State) (cid g : Nat) : Bool := ((group? s g).map fun x => x.ctx == cid).getD false

/-- The rank's outstanding counters rise for a pair of destination and path (R133). -/
def countUp (g r dst path : Nat) (s : State) : State :=
  modRank g r (fun k => { k with counters := sput 0 (dst * 4 + path) (sgetD (dst * 4 + path) 0 k.counters + 1) k.counters }) s

def countDown (g r dst path : Nat) (s : State) : State :=
  modRank g r (fun k => { k with counters := sput 0 (dst * 4 + path) (sgetD (dst * 4 + path) 0 k.counters - 1) k.counters }) s

/-- The requests of entries that a cut takes out of the core: loads need no answer any more, and remote operations that the fabric
interface has not accepted do not leave; the others are performed by their homes, which retain their tags, and nobody waits for
them (R341 step 2, R354). Entry 0 is nobody's. -/
def orphan (mine : Issuer → Bool) (s : State) : State :=
  let reads (a : Access) : Bool := match a.op with
    | .read | .lr | .prefetch => true
    | _ => false
  let lose (a : Access) : Access := if mine a.who then { a with who := { a.who with entry := 0 } } else a
  let old (u : Unacked) : Unacked := match u.owner with
    | .entry g r e _ => if mine { group := g, rank := r, entry := e } then { u with stale := true } else u
    | _ => u
  let away (m : MirrorWait) : MirrorWait := match m.owner with
    | .entry g r e t => if mine { group := g, rank := r, entry := e } then { m with owner := .entry g r 0 t } else m
    | _ => m
  let unsent := s.homeq.filter fun a => mine a.who && a.remote
  let s := unsent.foldl (fun s (a : Access) => countDown a.who.group a.who.rank a.home a.path s) s
  { s with homeq := (s.homeq.filter fun a => !(mine a.who && (reads a || a.remote))).map lose
           respq := s.respq.filter fun a => !mine a
           mirrorq := s.mirrorq.map away
           fab := { s.fab with unacked := s.fab.unacked.map old } }

/-- A group stops at the freeze: its reservations go (R129), nothing more is delivered to it (R354), and it is no unit's turn. -/
def dropTraffic (g : Nat) (s : State) : State :=
  let s1 := orphan (fun a => a.group == g) s
  { s1 with resv := s1.resv.filter fun v => v.group ≠ g
            cur := match s1.cur with
              | some (.rank g' _) => if g' = g then none else s1.cur
              | some (.seq g') => if g' = g then none else s1.cur
              | none => none }

/-- A command at the freeze: it stands at its progress point, and what it has read and recounted goes (R254). Its packets stay, and
their answers are not delivered. -/
def Cmd.freeze (c : Cmd) : Cmd :=
  let again (f : Flight) : Flight := { f with next := 0, left := [], bad := false, landed := 0, again := true, here := [] }
  let c := { c with flights := c.flights.map again, written := c.written - (c.flights.map (·.landed)).sum }
  if c.kind == .coll then c else { c with sub := 0, unacked := 0, asked := [], fetched := [], agreed := false }

/-- The commands of a test go back to their progress points; answers to what they sent are kept, not delivered (R354). -/
def freezeCmdsOf (mine : Nat → Bool) (s : State) : State :=
  let old (u : Unacked) : Unacked := match u.owner with
    | .cmd k | .piece k _ _ => if mine k then { u with stale := true } else u
    | _ => u
  { s with cmds := s.cmds.map fun e => if mine e.1 then (e.1, e.2.freeze) else e
           fab := { s.fab with unacked := s.fab.unacked.map old }
           mirrorq := s.mirrorq.map fun m => match m.owner with
             | .cmd k | .piece k _ _ => if mine k then { m with owner := .mirror } else m
             | _ => m }

def freezeCmds (g : Nat) (s : State) : State := freezeCmdsOf (fun k => (sget k s.cmds).any fun c => c.group == g) s

/-- Rows of a MEPI that are retired: those below are performed (R154, R171). -/
def SeqRec.point (r : SeqRec) : Nat := (r.left ++ r.bad).foldl min r.prog

/-- A record at the freeze stands at its progress point; rows after it that are performed are not sent again (R354, R236). -/
def SeqRec.freeze (r : SeqRec) : SeqRec :=
  let done (i : Nat) : Bool := decide (r.point ≤ i) && !r.left.contains i && !r.bad.contains i
  { r with skip := r.skip ++ (List.range r.prog).filter done, prog := r.point, left := [], bad := [], part := [], waiting := [], paused := false }

/-- What an outstanding MEPI of the group has sent is sent again at resume: its answers are not delivered. -/
def freezeSeq (g : Nat) (s : State) : State :=
  let old (u : Unacked) : Unacked := match u.owner with
    | .mepi g' _ _ => if g' = g then { u with stale := true } else u
    | _ => u
  modGroup g (fun x => { x with seq := { x.seq with recs := x.seq.recs.map SeqRec.freeze } })
    { s with fab := { s.fab with unacked := s.fab.unacked.map old } }

def freezeGroup (g : Nat) (s : State) : State :=
  freezeCmds g <| freezeSeq g <| dropTraffic g (modGroup g (fun x => { x with frozen := true, ranks := x.ranks.map freezeRank }) s)

/-- A flit of a request of a context that this package's interface has still to send. -/
def PortFlit.ofCtx (cid : Nat) (g : PortFlit) : Bool :=
  g.input == 16 && g.flit.plane == 1 && hdrCtx g.hdr == cid && !isAnswer (hdrKind g.hdr)

/-- The context's requests are cut between flits: what is left of them is held (R355). -/
def cutPackets (cid : Nat) (s : State) : State :=
  let ofPort (n : Nat) : List (Nat × PortFlit) := (((s.fab.ports[n]?.map (·.waiting)).getD []).filter (PortFlit.ofCtx cid)).map fun g => (n, g)
  let close (q : Port) : Port :=
    { q with waiting := q.waiting.filter fun g => !g.ofCtx cid
             opened := q.opened.filter fun e => !(e.2 == 16 && q.waiting.any fun g => g.ofCtx cid && g.flit.fidx != 0 &&
               g.flit.plane.toNat * 6 + g.flit.chan.toNat == e.1) }
  { s with fab := { s.fab with cuts := s.fab.cuts ++ (List.range s.fab.ports.length).flatMap ofPort, ports := s.fab.ports.map close } }

/-- The flit is one of this packet's. -/
def PortFlit.isOf (p : Packet) (g : PortFlit) : Bool :=
  hdrCtx g.hdr == p.sctx.toNat && hdrDst g.hdr == p.dst.toNat && bits g.hdr 261 2 == p.flabel.toNat && bits g.hdr 216 16 == p.fseq.toNat

/-- CTX.frz without a yield (R354): every unit of the context stops at once. Its queues' heads are not passed over meanwhile (R199). -/
def freezeCtx (cid : Nat) (s0 : State) : State :=
  let s := cutPackets cid s0
  let gs := (s.groups.filter fun e => e.2.ctx == cid && !e.2.frozen).map (·.1)
  let still (e : Nat × Launch) : Nat × Launch := if e.2.owner = cid then (e.1, { e.2 with passedSince := none }) else e
  noteState cid (modCtx cid (fun c => { c with mode := .frozen, yieldPending := false, deadline := 0 })
    (gs.foldl (fun s g => freezeGroup g s) { s with launches := s.launches.map still }))

/-- HALT and halting traps (R181, R344, R371): the context is frozen and handed to the context engine to be saved to SAVEBASE. -/
def haltCtx (cid : Nat) (s : State) : State :=
  let s1 := freezeCtx cid s
  match ctx? s1 cid with
  | none => s1
  | some c => { s1 with fresh := s1.fresh + 1
                        steps := s1.steps ++ [{ id := s1.fresh, target := cid, kind := 4, area := c.savebase, issuer := none,
                                                prog := 0, bearReq := none }] }

/-! ### Traps -/

/-- Causes that set DONE (R342). -/
def causeDone (cause : BitVec 16) : Bool := cause == 0x02 || cause == 0x08 || cause == 0x09

/-- TCAUSE (R342). -/
def tcauseWord (impr done : Bool) (cause : BitVec 16) : Long :=
  BitVec.ofNat 64 (cause.toNat + (if impr then 2 ^ 31 else 0) + (if done then 2 ^ 30 else 0))

/-- A posted operation: its rank receives nothing of it. -/
def isPostedWord (w : IWord) : Bool :=
  let opc := (w.extractLsb' 88 8).toNat
  opc == 0x91 || opc == 0x98 || ((opc == 0x99 || opc == 0x95) && w.getLsbD 15)

/-- A word whose result no register receives and no rank waits for: a posted operation, a flush, a word that reads a block. -/
def isSideWord (w : IWord) : Bool :=
  let opc := (w.extractLsb' 88 8).toNat
  isPostedWord w || opc == 0x9B || decide (0xC0 ≤ opc ∧ opc ≤ 0xC9 ∧ opc ≠ 0xC4 ∧ opc ≠ 0xC5) || opc == 0xE5 || opc == 0xE9

/-- The entries a trap moves to the frame record (R341): results the rank has yet to receive, those that have failed among them, parked
waits, replayed entries. -/
def Entry.cut (e : Entry) : Bool := e.state != .ctxStep && (!(isSideWord e.word) || e.replayed)

/-- The address of the frame header (IFREC) in the context's own mapping of its save area. -/
def ifrec (s : State) (g r : Nat) : Long :=
  match group? s g with
  | none => 0
  | some x =>
    match ctx? s x.ctx with
    | none => 0
    | some c => c.saveva + BitVec.ofNat 64 (rankArea x r + 0x40)

/-- The frame header, the frame copy and the frame record stand in the rank's image, where a handler reads and edits them (R341,
R350); nothing is written where the save area is not mapped. -/
def writeFrame (g r : Nat) (s : State) : State :=
  match group? s g, rank? s g r with
  | some x, some k =>
    match ctx? s x.ctx with
    | some c =>
      let base := c.savebase.toNat + rankArea x r
      let put (a : State × Bool) (p : Nat × List Byte) : State × Bool :=
        match gpaWrite c.part (base + p.1) p.2 a.1 with
        | (s, none) => (s, a.2)
        | (s, some _) => (s, false)
      let w := [(0x40, frameHeader k), (0xD00, (k.frameCopy.map FrameCopy.bytes).getD []),
        (0x1B500, k.frame.flatMap (Entry.bytes x.ctx))].foldl put (s, true)
      modRank g r (fun k => { k with frameInMem := w.2 }) w.1
    | none => s
  | _, _ => s

/-- The other threads of the trapping path, whose guard was false, have nothing to do at the word and go past it with the entry's
(R186, log 73). -/
def pathPast (impr : Bool) (fault : Option Entry) (k : Rank) : Rank :=
  match fault with
  | some e => if impr || e.drop || e.replayed then k else { k with threads := stepPast (k.active &&& ~~~e.mask) e.pc k.threads }
  | none => k

def Rank.copyFrame (k : Rank) (ts : List Thread) : FrameCopy :=
  { threads := ts, p := (List.range 16).map fun i => sgetD i 0 k.p, w := (List.range 8).map fun i => sgetD i 0 k.w,
    j := (List.range 16).map fun i => sgetD i 0 k.j }

/-- The record with its faulting entry, in issue order. -/
def withFault (fault : Option Entry) (l : List Entry) : List Entry :=
  match fault with
  | none => l
  | some e => if l.any fun y => y.id == e.id then l.map fun y => if y.id = e.id then e else y else l ++ [e]

/-- Trap entry of R341 for the rank itself: cut, frame copy, registers, handler start at entry (TRAPVEC, or YVEC for a yield). A fault
of an entry that goes to the frame is raised again by its re-injection. DESIGN CHOICE (log 100): the threads start at entry as it stands, a
multiple of 4 or not; R38 gives the alignment trap to branches, calls, returns and RTT alone. -/
def enterTrap (entry hdr : Long) (impr : Bool) (cause : BitVec 16) (tpc tval : Long) (fault : Option Entry) (k : Rank) : Rank :=
  let live := withFault fault k.live
  let goes (e : Entry) : Bool := e.cut || (fault.map (·.id)) == some e.id
  let ts := match fault with
    | some e => if impr || e.drop || e.replayed then k.threads else stepPast e.mask e.pc k.threads
    | none => k.threads
  { k with
    live := live.filter fun e => !goes e
    frame := (live.filter goes).map Entry.reset
    frameCopy := some (k.copyFrame ts)
    frameActive := true
    handler := true
    tcause := tcauseWord impr (causeDone cause) cause
    tpc := tpc
    tval := tval
    ifrec := hdr
    tpcWas := none
    imprecise := k.imprecise.filter fun f => !(f.entry.any fun e => (live.filter goes).any fun y => y.id == e.id)
    threads := k.threads.map fun t => if t.exited then t else { t with pc := entry, parked := false, passed := 0 }
    fillLine := none }

/-- What is answered of the entries moved to the frame record is no longer delivered (R341 step 2). -/
def dropCut (g r : Nat) (s : State) : State :=
  match rank? s g r with
  | none => s
  | some k =>
    let ids := k.frame.map (·.id)
    orphan (fun a => a.group == g && a.rank == r && ids.contains a.entry) s

/-- The faulting entry stays in the live record of a context that is frozen or halted, its threads after it (R344, R346). -/
def keepFault (g r : Nat) (impr : Bool) (fault : Option Entry) (s : State) : State :=
  match fault with
  | none => s
  | some e =>
    if e.drop then s
    else modRank g r (fun k => { k with live := withFault fault k.live,
                                        threads := if impr || e.replayed then k.threads else stepPast e.mask e.pc k.threads }) s

/-- TAKING A TRAP (R341 to R346), once for all causes. fault is the faulting entry where one exists, word the address of the instruction.
A stage-2 page fault freezes the context and tells the host (R346); a trap in a handler, or with TRAPVEC 0, halts it (R344). -/
def takeTrapOf (g r : Nat) (impr : Bool) (cause : BitVec 16) (word tpc tval : Long) (fault : Option Entry) (s : State) : State :=
  match group? s g with
  | none => s
  | some x =>
    match ctx? s x.ctx, rank? s g r with
    | some c, some k =>
      let s0 := endPly g r .ready (modRank g r (fun k => (pathPast impr fault k).unstop) s)
      let s1 := { s0 with resv := s0.resv.filter fun v => !(v.group == g && v.rank == r) }
      if cause = 0x14 then
        postHostCtx c.part { source := 0, status := 0x0003, cmdaddr := word, counta := 0x14, countb := tval.toNat, ctx := x.ctx,
                             part := c.part, launch := x.launchid }
          (freezeCtx x.ctx (keepFault g r impr fault s1))
      else if k.frameActive ∨ c.trapvec = 0 then
        postCtx x.ctx { source := 0, status := 0x000D, cmdaddr := tpc, counta := cause.toNat, countb := tval.toNat,
                        launch := x.launchid }
          (haltCtx x.ctx (keepFault g r impr fault
            (if causeDone cause then modRank g r (fun k => { k with threads := k.threads.map fun t =>
              if t.pc = tpc ∧ ¬t.exited then { t with pc := ptrAdd t.pc 12 } else t }) s1 else s1)))
      else
        writeFrame g r (dropCut g r (modRank g r (enterTrap c.trapvec (ifrec s1 g r) impr cause tpc tval fault) s1))
    | _, _ => s

/-- A precise trap: TPC is the instruction's address. -/
def takeTrap (g r : Nat) (impr : Bool) (cause : BitVec 16) (tpc tval : Long) (fault : Option Entry) (s : State) : State :=
  takeTrapOf g r impr cause tpc tpc tval fault s

/-! ### Issue -/

/-- The unit that issues: a rank with its group, context, path and executing threads (R70). -/
structure Iss where
  g : Nat
  r : Nat
  x : Group
  k : Rank
  c : Ctx
  pc : Long
  /-- active threads of the path, and those whose guard holds -/
  active : Mask
  ex : Mask
  deriving DecidableEq, Repr, Inhabited

/-- Predicate p of all threads: p0 reads true (R71). -/
def Rank.pred (k : Rank) (i : Nat) : Mask := if i = 0 then BitVec.allOnes 32 else sgetD i 0 k.p

/-- The guard (R16, R30). -/
def guardMask (k : Rank) (c : Ctl) : Mask :=
  let m := k.pred c.gidx.toNat
  if c.gneg then ~~~m else m

/-- The address of the path that runs: the PC of its lowest thread. -/
def pathPc (k : Rank) (active : Mask) : Long := match threadsOf active with
  | t :: _ => (k.thread t).pc
  | [] => 0

/-- A path that can run: it has threads, all of them stand (R211, R218), and at one PC. -/
def Rank.pathOk (k : Rank) : Bool :=
  k.threads.length == 32 && k.active != 0 && k.active &&& k.standing == k.active &&
    (threadsOf k.active).all fun t => (k.thread t).pc == pathPc k k.active

/-- The rank whose turn it is, with the threads that execute a word of guard c; none when no rank is issuing. -/
def issuing (s : State) (c : Ctl) : Option Iss :=
  match s.cur with
  | some (.rank g r) =>
    match group? s g, rank? s g r with
    | some x, some k =>
      match ctx? s x.ctx with
      | some cx =>
        if k.st = .issuing ∧ k.pathOk then
          some { g := g, r := r, x := x, k := k, c := cx, pc := pathPc k k.active, active := k.active,
                 ex := k.active &&& guardMask k c }
        else none
      | none => none
    | _, _ => none
  | _ => none

/-- Handler level (R178). -/
def Iss.atHandler (u : Iss) : Bool := u.k.handler || u.c.host

/-- A trap of the issuing word before any effect (R341): the threads stand at it, and the frame holds it (R36). -/
def trapAt (u : Iss) (w : IWord) (cause : BitVec 16) (tval : Long) (s : State) : State :=
  takeTrap u.g u.r false cause u.pc tval none (modRank u.g u.r (fun k => { k with frameWord := w }) s)

/-- The executing pass is charged, the threads of the path move past the word, time passes, and the ply goes on or ends (R207,
R211, R330). pcs says where each active thread goes; park says the ply ends at this instruction. -/
def charged (u : Iss) (w : IWord) (s : State) : State :=
  let opc := (w.extractLsb' 88 8).toNat
  let disturbs := decide (0x40 ≤ opc ∧ opc ≤ 0x44) || decide (0x90 ≤ opc ∧ opc ≤ 0x9C)
  modRank u.g u.r (fun k => { k with plyClean := k.plyClean && !disturbs })
    (charge u.x.ctx (weightOf s u.x.ctx u.x.core (energyClass w) * countMask u.active) s)

/-- Every active thread of the path that still stands at the word moves past it. -/
def advancePcs (u : Iss) (s : State) : State :=
  let past (k : Rank) (t : Nat) : Thread :=
    let x := k.thread t
    if u.active.getLsbD t && !x.exited && x.pc == u.pc then { x with pc := ptrAdd u.pc 12 } else x
  modRank u.g u.r (fun k => { k with threads := (List.range k.threads.length).map (past k) }) s

/-- The path after the word: its threads that still stand. -/
def stillActive (u : Iss) (k : Rank) : Mask := u.active &&& k.standing

/-- The path is still one path: every thread of it stands at one PC. -/
def onePath (k : Rank) (m : Mask) : Bool := (threadsOf m).all fun t => (k.thread t).pc == pathPc k m

/-- The rank after its last thread has exited retires (R100). -/
def afterPly (k : Rank) : RankState :=
  if k.allExited then .retired else if k.standing = 0 then .parkedAtWait else .ready

/-- A sequencer fault whose rank has exited before it was taken is posted as a fault record (R124, R347). -/
def postSeqFault (g r : Nat) (s : State) : State :=
  match group? s g with
  | none => s
  | some x =>
    match x.seqFault with
    | none => s
    | some pc =>
      if (x.ranks.take r).all (fun k => k.st == .retired) then
        let r : Record := { source := 0, status := 0x000B, cmdaddr := pc, counta := 0x28, countb := pc.toNat, launch := x.launchid }
        launchFaulted x.launch (setSticky x.ctx (postCtx x.ctx r (modGroup g (fun x => { x with seqFault := none }) s)))
      else s

/-- A rank all of whose remaining threads are parked takes the rejoin-deadlock trap (R99); one whose threads have all exited may
end its group. -/
def settleRank (g r : Nat) (s : State) : State :=
  match rank? s g r with
  | none => s
  | some k =>
    if k.allExited then settleGroup g (postSeqFault g r s)
    else if k.standing = 0 then
      match threadsOf k.parkedMask with
      | t :: _ => takeTrap g r false 0x0C (k.thread t).pc (k.parkedMask.setWidth 64) none s
      | [] => s
    else s

/-- The ply ends with this pass: the instruction itself ends it (YIELD, a park, a transfer by some of the path, R94), or PEND, or it is the
24th, or the path diverges, or its last thread exits or parks (R211). -/
def plyOver (c : Ctl) (ends : Bool) (u : Iss) (k : Rank) : Bool :=
  ends || c.pend || decide (Config.plyLimit ≤ k.plyLen + 1) || stillActive u k == 0 || !onePath k (stillActive u k)

/-- The pass ends. DLY delays the next pass of this ply, where one follows (R27). -/
def closePass (c : Ctl) (ends : Bool) (u : Iss) (s : State) : State :=
  match rank? s u.g u.r with
  | none => s
  | some k =>
    let s1 := passCycles u.g u.r (if plyOver c ends u k then 16 else 16 + c.dly.toNat) s
    if k.st ≠ .issuing then s1
    else if plyOver c ends u k then settleRank u.g u.r (endPly u.g u.r (afterPly k) s1)
    else modRank u.g u.r (fun k => { k with active := stillActive u k, plyLen := k.plyLen + 1 }) s1

/-- An instruction that does not move its threads by itself. -/
def finish (c : Ctl) (w : IWord) (u : Iss) (s : State) : State := closePass c false u (advancePcs u (charged u w s))

/-! ### Checks before the effect -/

/-- Registers as numbers, for the interlock: v n, o n, y n, w n. -/
def regKeys (w : Nat) : Opnd → List Nat
  | .v i => (List.range (w / 32)).map fun k => i.toNat + k
  | .o i => [256 + i.toNat]
  | .y i => [264 + i.toNat]
  | .w i => [268 + i.toNat]
  | _ => []

def Pos.width : Pos → Nat
  | .src w _ | .dst w | .perThread w | .bcastSrc w => w
  | .base => 64
  | .movSrc ty | .movDst ty _ => ty.slot
  | _ => 32

/-- The registers an instruction reads or writes. -/
def usedRegs (i : Instr) : List Nat :=
  match i with
  | .extensionOpcode w => [w.extractLsb' 62 10, w.extractLsb' 52 10, w.extractLsb' 0 10].flatMap fun f => regKeys 32 (Opnd.ofCode f)
  | _ => (positions i).flatMap fun p => regKeys (Pos.width p.2.1) p.2.2

/-- The registers an unfinished instruction is still to write: its destination. -/
def owedBy (i : Instr) : List Nat :=
  match positions i with
  | (0, q, o) :: _ => regKeys (Pos.width q) o
  | _ => []

def entryInstr (w : IWord) : Option Instr :=
  match decodeWord (.rank 256) w with
  | .ok i => some i
  | .error _ => none

/-- A word of control flow (R92 to R101), BKPT apart, which traps. -/
def isControlWord (w : IWord) : Bool :=
  let opc := (w.extractLsb' 88 8).toNat
  decide (0x40 ≤ opc ∧ opc ≤ 0x48)

/-- A word that R73 has recomputed from its captured operands (log 83): the integer, control, exchange and floating-point chapters'. -/
def isComputed (w : IWord) : Bool :=
  let opc := (w.extractLsb' 88 8).toNat
  (isControlWord w || decide (1 ≤ opc ∧ opc < 0x40) || decide (0x50 ≤ opc ∧ opc < 0x80)) && (entryInstr w).isSome

/-- The word that a rank has issued and not finished (R73). -/
def openWord (k : Rank) : Option Entry := k.live.find? fun e => e.cls == .n && e.state == .issued && isComputed e.word

def owedRegs (k : Rank) : List Nat := (k.live.filter fun e => e.state == .issued).flatMap fun e =>
  match entryInstr e.word with
  | some i => owedBy i
  | none => []

/-- A memory operation, which waits while re-injected class-S entries are open (R353). -/
def isMemoryWord (i : Instr) : Bool :=
  match i with
  | .ld _ | .st _ | .ldu _ | .ldx _ | .stc _ | .lr _ | .sc _ | .atom _ | .xst _ | .xatom _ | .barArv _ _ _ _ _ | .barAdd _ _ _ _ _
  | .barSync _ _ _ _ | .cflushWb _ _ _ | .cflushInv _ _ _ | .cflushWbinv _ _ _ | .pref _ _ _ _ | .evqPost _ _ _ => true
  | _ => false

/-- The word writes its destination in every thread that executes it: BCVT.pack writes some (R121), and of a memory operation some may
fault (R124). -/
def writesWhole (i : Instr) : Bool :=
  match i with
  | .bcvtPack _ _ => false
  | _ => !isMemoryWord i

/-- The registers whose lines must be resident: a line that all threads write whole needs no fill (R209). -/
def filledRegs (i : Instr) (ex : Mask) : List Nat :=
  if ex = BitVec.allOnes 32 ∧ writesWhole i then ((positions i).filter fun p => p.1 != 0).flatMap fun p => regKeys (Pos.width p.2.1) p.2.2
  else usedRegs i

/-- v lines the instruction needs that are not resident (R210). -/
def awayLine (k : Rank) (i : Instr) (ex : Mask) : Option Nat := (filledRegs i ex).find? fun n => k.away.contains n

/-- Where a register line stands in its rank's image (R366). -/
def lineGpa (c : Ctx) (x : Group) (r n : Nat) : Nat := c.savebase.toNat + x.imgOff + rankImageOff x r + 0x25500 + 128 * n

/-- A register line comes from its rank's image (R209), where the image's lines are here and can be read: true where it came (log 86). -/
def bringLine (c : Ctx) (g : Nat) (x : Group) (r n : Nat) (s : State) : State × Bool :=
  let lacks := runLacks s c.part (lineGpa c x r n) 128 false
  if !lacks.isEmpty then (askAll lacks s, false)
  else match gpaRead s c.part (lineGpa c x r n) 128 with
    | none => (s, false)
    | some bs => (modRank g r (fun k => { k with v := lineOf n bs k.v, away := k.away.erase n,
                                                 fillLine := if k.fillLine = some n then none else k.fillLine }) s, true)

/-- Those of some lines that are not resident come, until one does not. -/
def bringLines (c : Ctx) (g : Nat) (x : Group) (r : Nat) (ns : List Nat) (s : State) : State × Bool :=
  ns.foldl (fun acc n => if acc.2 && (rank? acc.1 g r).any (fun k => k.away.contains n) then bringLine c g x r n acc.1 else acc) (s, true)

/-- The instruction adds an entry to the live record (R348), or may: where its block's page is absent, for example. -/
def addsEntry (i : Instr) : Bool :=
  match i with
  | .extensionOpcode _ | .launch _ _ | .bufset _ _ _ | .copy _ | .copyPl _ _ | .gather _ | .scadd _ | .sort _ | .coll _
  | .cflushWb _ _ _ | .cflushInv _ _ _ | .cflushWbinv _ _ _ => true
  | .ld _ | .st _ | .ldu _ | .ldx _ | .stc _ | .lr _ | .sc _ | .atom _ | .xst _ | .xatom _ | .ctxFrz _ _ | .ctxSav _ _ _
  | .ctxLd _ _ _ | .ctxRes _ _ | .barArv _ _ _ _ _ | .barAdd _ _ _ _ _ | .barWait _ _ _ _ _ | .barSync _ _ _ _
  | .tlWait _ _ _ _ _ _ => true
  | .tcfg _ w _ _ _ | .trel _ w _ => w
  | _ => false

/-- The class-S instructions that need a tag (R146); all tags of the context being held, or a home slice's 8,192, is a break. -/
def needsTag (i : Instr) : Bool :=
  match i with
  | .st _ | .stc _ | .sc _ | .atom _ | .xst _ | .xatom _ | .barArv _ _ _ _ _ | .barAdd _ _ _ _ _ | .barSync _ _ _ _ | .evqPost _ _ _ => true
  | _ => false

/-- The tags an entry holds: one per thread of its mask, one for an access of uniform result (R24, R145, R349). -/
def Entry.tagCount (e : Entry) : Nat :=
  let opc := (e.word.extractLsb' 88 8).toNat
  let n := countMask (if e.mask0 = 0 then e.mask else e.mask0)
  if opc = 0xB0 then 1
  else if opc = 0x95 ∨ opc = 0x99 then
    match entryInstr e.word with
    | some (.atom x) | some (.xatom x) => if x.d.isUniform then min 1 n else n
    | _ => n
  else n

/-- The sequence numbers that unacknowledged operations of a context hold, as first number and length (R146). -/
def heldTags (s : State) (cid : Nat) : List (BitVec 20 × Nat) :=
  let ofTag (v : BitVec 32) : List (BitVec 20 × Nat) := if (v.extractLsb' 20 12).toNat = cid then [(v.extractLsb' 0 20, 1)] else []
  let ofEntry (e : Entry) : List (BitVec 20 × Nat) := if e.cls = .s then [(e.tagBase, e.tagCount)] else []
  (s.tags.filter fun r => r.pkg == s.selfPkg).flatMap (fun r => ofTag r.tag) ++
  (s.homeq.filter fun a => a.ctx == cid).flatMap (fun a => (a.tag.map ofTag).getD []) ++
  (s.fab.unacked.filter fun u => u.ctx == cid).flatMap (fun u => ofTag u.packet.tag) ++
  (s.cmds.filter fun e => e.2.ctx == cid).flatMap (fun e => e.2.flights.map fun f => (f.tag, f.held)) ++
  (s.groups.filter fun e => e.2.ctx == cid).flatMap fun e =>
    (e.2.seq.recs.map fun r => (r.tagBase, r.tags)) ++ e.2.ranks.flatMap fun k => (k.live ++ k.frame).flatMap ofEntry

/-- The next n sequence numbers of a context are free (R146). -/
def numbersFree (s : State) (cid n : Nat) : Bool :=
  match ctx? s cid with
  | none => true
  | some c => (heldTags s cid).all fun h => h.2 == 0 || (decide (n ≤ (h.1 - c.tagSeq).toNat) && decide (h.2 ≤ (c.tagSeq - h.1).toNat)) || n == 0

/-- The home slice of a granule: slice s has those of pseudo-channels 2s and 2s + 1 (R374), and a CXL port has a slice of its own
(R300, log 77). -/
def sliceOf (granule : Nat) : Nat :=
  if granule < 2 ^ 38 then granule / 2 ^ 26 else 384 + granule / 2 ^ 35 % 8

/-- A home slice holds 8,192 retained tags: it is full (R352). -/
def sliceFull (s : State) : Bool :=
  decide (Config.tagLimit ≤ s.tags.length) &&
    s.tags.any fun r => decide (r.target < 2 ^ 64) && decide (Config.tagLimit ≤
      (s.tags.filter fun q => decide (q.target < 2 ^ 64) && sliceOf q.target == sliceOf r.target).length)

/-- The slice of a granule is full: an operation that would have a tag kept there waits (R251). -/
def sliceFullAt (s : State) (granule : Nat) : Bool :=
  decide (Config.tagLimit ≤ s.tags.length) && decide (granule < 2 ^ 64) &&
    decide (Config.tagLimit ≤ (s.tags.filter fun q => decide (q.target < 2 ^ 64) && sliceOf q.target == sliceOf granule).length)

/-- Response buffers in use (R313). -/
def buffersUsed (s : State) : Nat := (s.homeq.filter fun a => a.remote).length + s.fab.unacked.length

/-- No response buffer, or not n, are free (R313). -/
def buffersFull (s : State) : Bool := decide (Config.respBuffers ≤ buffersUsed s)
def buffersLack (s : State) (n : Nat) : Bool := n != 0 && decide (Config.respBuffers < buffersUsed s + n)

/-- n tags of a context are free, at its counter and at the home slices, and bufs response buffers. -/
def tagFree (s : State) (cid n bufs : Nat) : Bool :=
  numbersFree s cid n && !sliceFull s && (bufs == 0 || decide (buffersUsed s + bufs ≤ Config.respBuffers))

/-- What a class-S instruction needs of its context's tags, and of the response buffers: those of a remote operation, which may cross a
granule (R313, R315). -/
def tagNeed (i : Instr) (ex : Mask) : Nat × Nat :=
  let n := countMask ex
  match i with
  | .xst _ => (n, 2 * n)
  | .xatom x => if x.d.isUniform then (min 1 n, min 1 n) else (n, n)
  | .atom x => (if x.d.isUniform then min 1 n else n, 0)
  | .barArv _ _ _ _ _ | .barAdd _ _ _ _ _ | .barSync _ _ _ _ | .evqPost _ _ _ => (min 1 n, 0)
  | _ => (n, 0)

/-- R353: while re-injected class-S entries are open, or entries are still to be injected, the rank issues no new memory operation. -/
def replayOpen (k : Rank) : Bool := k.live.any fun e => e.replayed && (e.cls == .s || e.waits)

/-- Why a ply breaks before an instruction (R212, R348, R353). -/
inductive BreakCause where
  | operand (pair : Bool) (regs : List Nat) | line (n : Nat) | record | tag (n bufs : Nat) | replay
  deriving DecidableEq, Repr, Inhabited

def BreakCause.waits : BreakCause → WaitFor
  | .operand _ l => .regs l
  | .line n => .line n
  | .record => .record
  | .tag n b => .tag n b
  | .replay => .replay

/-- An entry whose result R213 lets the lane wait for: LR's, or SC's status. -/
def pairEntry (e : Entry) : Bool :=
  let opc := (e.word.extractLsb' 88 8).toNat
  opc == 0x96 || opc == 0x97

def breakCause (s : State) (u : Iss) (i : Instr) : Option BreakCause :=
  if (usedRegs i).any fun n => (owedRegs u.k).contains n then
    let others := { u.k with live := u.k.live.filter fun (e : Entry) => !pairEntry e }
    some (.operand (!((usedRegs i).any fun n => (owedRegs others).contains n)) (usedRegs i))
  else
    match awayLine u.k i u.ex with
    | some n => some (.line n)
    | none =>
      if addsEntry i && decide (Config.recordLimit ≤ (u.k.live.filter fun (e : Entry) => e.state != .parkedWait).length) then some .record
      else if needsTag i && !tagFree s u.x.ctx (tagNeed i u.ex).1 (tagNeed i u.ex).2 then some (.tag (tagNeed i u.ex).1 (tagNeed i u.ex).2)
      else if isMemoryWord i && replayOpen u.k then some .replay
      else none

/-- A break ends the ply; within a ply with a live reservation the lane stalls instead (R212, R213). -/
def doBreak (u : Iss) (b : BreakCause) (s : State) : State :=
  let s1 := match b with
    | .line n => modRank u.g u.r (fun k => { k with fillLine := some n }) s
    | _ => s
  let stalls := match b with
    | .operand pair _ => pair
    | .line _ | .tag _ _ => true
    | .record | .replay => false
  if u.k.plyLr && stalls then stallPly u.g u.r s1 else breakPly u.g u.r b.waits s1

/-- Instructions that need handler level by their opcode (R36 check 10, R178). -/
def privileged (i : Instr) : Bool :=
  match i with
  | .rtt _ | .ctxFrz _ _ | .ctxSav _ _ _ | .ctxLd _ _ _ | .ctxRes _ _ | .bufset _ _ _ => true
  | _ => false

/-- A barrier the group holds (R36 check 11): b0 to b(LBAR − 1), b96 to b(95 + QBAR). -/
def barHeld (x : Group) (b : Nat) : Bool := if b < 96 then decide (b < x.lbar) else decide (b - 96 < x.qbar)

/-- Check 11: the operand field of a barrier or slab that is not held. Handles always belong to the group (R162); ACFG.take's
slot is exempt (R164). -/
def notHeld (x : Group) (i : Instr) : Option Nat :=
  match i with
  | .acfgTake _ _ _ => none
  | _ => ((positions i).find? fun p => match p.2.2 with
    | .b n => !barHeld x n.toNat
    | .a n => (sget n.toNat x.slabMap).isNone
    | _ => false).map (·.1)

/-- What stands before the effect of every rank instruction: checks 10 and 11 of R36, then the breaks of R212. -/
inductive Hurdle where
  | privilege
  | resource (field : Nat)
  | brk (b : BreakCause)
  deriving DecidableEq, Repr, Inhabited

def hurdle (s : State) (u : Iss) (i : Instr) : Option Hurdle :=
  if privileged i && !u.atHandler then some .privilege
  else
    match notHeld u.x i with
    | some f => some (.resource f)
    | none => (breakCause s u i).map .brk

def doHurdle (u : Iss) (w : IWord) (h : Hurdle) (s : State) : State :=
  match h with
  | .privilege => trapAt u w 0x03 0 s
  | .resource f => trapAt u w 0x04 (BitVec.ofNat 64 f) s
  | .brk b => doBreak u b s

abbrev Out := Host.Outcome State Fault Refusal

/-- An event whose cause is not there changes nothing: the machine shows no such event (log 25). -/
def idle (s : State) : Out := .next s

/-- The platform and the host's tables stay as they were: no rank instruction but BUFSET writes them. -/
def keep (s s' : State) : State := { s' with plat := s.plat, tabs := s.tabs }

/-- The platform as it was. -/
def keepPlat (s s' : State) : State := { s' with plat := s.plat }

/-- The arithmetic clock and the layout as they were. -/
def keepBase (s s' : State) : State :=
  { s' with plat := { s'.plat with aclk := s.plat.aclk, clockAt := s.plat.clockAt, commit := s.plat.commit, copy0 := s.plat.copy0,
                                   copy1 := s.plat.copy1 } }

def mapNext (f : State → State) : Out → Out
  | .next t => .next (f t)
  | o => o

/-- An event that writes neither the platform nor the tables, one that writes tables, and one that writes neither the arithmetic clock
nor the layout. -/
def held (s : State) (o : Out) : Out := mapNext (keep s) o
def heldPlat (s : State) (o : Out) : Out := mapNext (keepPlat s) o
def heldBase (s : State) (o : Out) : Out := mapNext (keepBase s) o

/-- A word issued by a rank: with no rank issuing there is no such step; a hurdle decides first; else its effect. -/
def asRank (i : Instr) (c : Ctl) (effect : Iss → State → State) (s : State) : Out :=
  match issuing s c with
  | none => .fault .noIssuer
  | some u =>
    match hurdle s u i with
    | some h => .next (keep s (doHurdle u (encode i) h s))
    | none => .next (keep s (effect u s))

/-! ### Words of the sequencer -/

/-- The sequencer whose turn it is. -/
def seqIssuing (s : State) : Option (Nat × Group × Ctx) :=
  match s.cur with
  | some (.seq g) =>
    match group? s g with
    | some x =>
      match ctx? s x.ctx with
      | some c => if x.seq.st = .running ∧ ¬x.quiesced then some (g, x, c) else none
      | none => none
    | none => none
  | _ => none

def modSeq (g : Nat) (f : Seq → Seq) (s : State) : State := modGroup g (fun x => { x with seq := f x.seq }) s

/-- A sequencer fault (R167, R231): the sequencer stops at the word, posts its record, its open MEPIs complete with ERR, and the
lowest rank that has not exited is to take the imprecise fault; with no such rank none is raised, and the group's launch has an error
(R204). -/
def seqFaultAt (g : Nat) (cause : BitVec 16) (tval : Long) (s : State) : State :=
  match group? s g with
  | none => s
  | some x =>
    let stop (x : Group) : Group :=
      { x with seqFault := if (lowestRank x).isSome then some x.seq.mpc else none
               seq := { x.seq with st := .stopped, recs := x.seq.recs.map fun r => { r with forceErr := true } } }
    settleGroup g (postCtx x.ctx { source := 3, status := 0x000B, cmdaddr := x.seq.mpc, counta := cause.toNat, countb := tval.toNat,
                                   launch := x.launchid }
      (if (lowestRank x).isSome then { (modGroup g stop s) with cur := none } else launchFaulted x.launch { (modGroup g stop s) with cur := none }))

/-- Everything of a sequencer word: the charge of class 12, and a turn ends. -/
def asSeq (effect : Nat → Group → Ctx → State → State) (s : State) : Out :=
  match seqIssuing s with
  | none => .fault .noIssuer
  | some (g, x, c) => .next (keep s { effect g x c s with cur := none })

def chargeSeq (x : Group) (s : State) : State := charge x.ctx (weightOf s x.ctx x.core 12) s

/-- The next M-stream word. -/
def seqAdvance (g : Nat) (s : State) : State := tick 1 (modSeq g (fun q => { q with mpc := ptrAdd q.mpc 12 }) s)

end Sys2Proof.Machine
end

