-- ==== Sys2Proof/Machine/Operands.lean ====
section
/-! DEFINITION. Reading and writing operands: R21 to R25, R71, R72, R108, R118. -/

set_option linter.unusedVariables false

namespace Sys2Proof.Machine

/-- Bits of a type's value (R32). -/
def Ty.bits : Ty → Nat
  | .s4 => 4
  | .b8 | .s8 | .e4m3 | .e5m2 => 8
  | .b16 | .s16 | .f16 | .bf16 => 16
  | .b64 | .s64 | .f64 => 64
  | .b128 => 128
  | _ => 32

/-- A type that reads and writes two's complement (R41). -/
def Ty.isSigned : Ty → Bool
  | .s4 | .s8 | .s16 | .s32 | .s64 => true
  | _ => false

/-- R25. -/
def immValue (ty : Ty) (imm : Word) : Nat :=
  match ty with
  | .s64 => (imm.signExtend 64).toNat
  | .f64 => narrow fmtF64 .rne false (fmtF32.decode imm.toNat)
  | _ => imm.toNat % 2 ^ Ty.bits ty

/-- R22: what a special value reads as for thread t of the rank. -/
def spValue (clk : Nat) (u : Iss) (t : Nat) : Special → Nat
  | .zero => 0
  | .tid => t
  | .lane => u.k.lane
  | .rank => u.k.idx
  | .grpid => u.x.grpid
  | .teamid => u.x.teamid
  | .launchid => u.x.launchid.toNat
  | .ctxid => u.x.ctx
  | .clk => clk % 2 ^ 64

def Rank.vreg (k : Rank) (i t : Nat) : Nat := (sgetD (i * 32 + t) (0 : Word) k.v).toNat
def Rank.wreg (k : Rank) (i : Nat) : Long := sgetD i 0 k.w
def Rank.jreg (k : Rank) (i : Nat) : Word := sgetD i 0 k.j

/-- n consecutive v registers of a thread, the first in the low bits (R15). -/
def Rank.vgroup (k : Rank) (i t : Nat) : Nat → Nat
  | 0 => 0
  | n + 1 => k.vreg i t + 2 ^ 32 * k.vgroup (i + 1) t n

/-- The value of an operand for thread t at the type's width, zero-extended or cut to it (R22, R71, R118). -/
def readOpnd (clk : Nat) (u : Iss) (ty : Ty) (imm : Word) (o : Opnd) (t : Nat) : Nat :=
  let n := Ty.bits ty
  match o with
  | .v i => u.k.vgroup i.toNat t (ty.slot / 32) % 2 ^ n
  | .w i => (u.k.wreg i.toNat).toNat % 2 ^ n
  | .o i => (sgetD (i.toNat * 32 + t) (0 : Word) u.k.o).toNat % 2 ^ n
  | .y i => (sgetD (i.toNat * 32 + t) (0 : Word) u.k.y).toNat % 2 ^ n
  | .sp s => spValue clk u t s % 2 ^ n
  | .p i => if (u.k.pred i.toNat).getLsbD t then 1 else 0
  | .j i => (u.k.jreg i.toNat).toNat % 2 ^ n
  | .imm => immValue ty imm % 2 ^ n
  | .t i => i.toNat % 2 ^ n
  | .a i => i.toNat % 2 ^ n
  | .b i => i.toNat % 2 ^ n

/-- A predicate source. -/
def readPred (u : Iss) (o : Opnd) (t : Nat) : Bool :=
  match o with
  | .p i => (u.k.pred i.toNat).getLsbD t
  | _ => false

/-- Write a v register of a thread; its line is then resident and dirty (R209). -/
def Rank.setV (k : Rank) (i t : Nat) (x : Nat) : Rank :=
  { k with v := sput 0 (i * 32 + t) (BitVec.ofNat 32 x) k.v, dirty := if k.dirty.contains i then k.dirty else i :: k.dirty, away := k.away.erase i }

/-- Write n consecutive v registers of a thread. -/
def Rank.setVs (k : Rank) (i t x : Nat) : Nat → Rank
  | 0 => k
  | n + 1 => (k.setV i t x).setVs (i + 1) t (x / 2 ^ 32) n

def Rank.setW (k : Rank) (i : Nat) (x : Long) : Rank := { k with w := sput 0 i x k.w }
def Rank.setJ (k : Rank) (i : Nat) (x : Word) : Rank := { k with j := sput 0 i x k.j }

/-- A write to p0 is ignored (R71). -/
def Rank.setP (k : Rank) (i t : Nat) (b : Bool) : Rank :=
  if i = 0 then k else { k with p := sput 0 i (setBit (sgetD i 0 k.p) t b) k.p }

/-- What a 32-bit or 64-bit result of a type puts into a w register (R71). -/
def wideResult (ty : Ty) (x : Nat) : Long :=
  if ty.slot = 64 then BitVec.ofNat 64 x
  else if Ty.isSigned ty then (BitVec.ofNat 32 x).signExtend 64 else BitVec.ofNat 64 (x % 2 ^ 32)

/-- What a result of a type puts into its 32-bit slot: .s8 and .s16 sign-extended, others zero-extended (R118). -/
def slotResult (ty : Ty) (x : Nat) : Nat :=
  let n := Ty.bits ty
  if Ty.isSigned ty && decide (n < 32) then intBits 32 (signed x n) else x % 2 ^ n

/-- Write a result of a type to a destination, for thread t. -/
def writeOpnd (ty : Ty) (o : Opnd) (t x : Nat) (k : Rank) : Rank :=
  match o with
  | .v i => k.setVs i.toNat t (slotResult ty x) (ty.slot / 32)
  | .w i => k.setW i.toNat (wideResult ty (slotResult ty x))
  | .o i => { k with o := sput 0 (i.toNat * 32 + t) (BitVec.ofNat 32 (slotResult ty x)) k.o }
  | .y i => { k with y := sput 0 (i.toNat * 32 + t) (BitVec.ofNat 32 (slotResult ty x)) k.y }
  | .p i => k.setP i.toNat t (x != 0)
  | .j i => k.setJ i.toNat (BitVec.ofNat 32 x)
  | _ => k

/-- The results of the executing threads go to D; a uniform D takes the result once (R24, R30, R70). f may look at every
thread's registers as they were before the instruction (R72). -/
def writeAll (ex : Mask) (ty : Ty) (d : Opnd) (f : Nat → Nat) (k : Rank) : Rank :=
  if d.isUniform then
    match threadsOf ex with
    | [] => k
    | t :: _ => writeOpnd ty d t (f t) k
  else (threadsOf ex).foldl (fun k t => writeOpnd ty d t (f t) k) k

/-- A register result as an instruction's whole effect. -/
def setD (u : Iss) (ty : Ty) (d : Opnd) (f : Nat → Nat) (s : State) : State :=
  modRank u.g u.r (writeAll u.ex ty d f) s

/-- An instruction that computes its destination from registers and ends like every pass. -/
def compute (i : Instr) (c : Ctl) (ty : Ty) (d : Opnd) (f : Nat → Iss → Nat → Nat) (s : State) : Out :=
  asRank i c (fun u s => finish c (encode i) u (setD u ty d (f s.clk u) s)) s

end Sys2Proof.Machine
end

