-- ==== Sys2Proof/Machine/Float.lean ====
section
/-! DEFINITION. Floating-point arithmetic, functions and activations (R108 to R117). -/

set_option linter.unusedVariables false

namespace Sys2Proof.Machine

/-- Element h of an operand: x2 types hold two of 16 bits (R108). -/
def elemOf (ty : Ty) (x h : Nat) : Nat := if Ty.isX2 ty then bits x (16 * h) 16 else x

/-- A container's bits for the format: TF32 ignores bits 12:0 (R44). -/
def fromSlot (ty : Ty) (x : Nat) : Nat := if ty = .tf32 then x / 2 ^ 13 else x
def toSlot (ty : Ty) (x : Nat) : Nat := if ty = .tf32 then x * 2 ^ 13 else x

/-- The result of a function of encodings, element by element. -/
def perElem (ty : Ty) (f : Nat → Nat) : Nat := if Ty.isX2 ty then f 0 + 2 ^ 16 * f 1 else f 0

/-- An input value, with the flush of R46. -/
def fpIn (ty : Ty) (ftz : Bool) (x h : Nat) : XNum := (Ty.fmt ty).input ftz (fromSlot ty (elemOf ty x h))

/-- The destination's encoding of an exact value (R48). -/
def fpOut (ty : Ty) (mode : Rnd) (x : XNum) : Nat := toSlot ty (narrow (Ty.fmt ty) mode false x)

def fpOp1 (i : Instr) (x : Alu1) (f : XNum → XNum) (s : State) : Out :=
  compute i x.c x.ty x.d (fun clk u t =>
    let a := readOpnd clk u x.ty x.imm x.a t
    perElem x.ty fun h => fpOut x.ty x.rm (f (fpIn x.ty false a h))) s

def fpOp2 (i : Instr) (x : Alu2) (f : XNum → XNum → XNum) (s : State) : Out :=
  compute i x.c x.ty x.d (fun clk u t =>
    let a := readOpnd clk u x.ty x.imm x.a t
    let b := readOpnd clk u x.ty x.imm x.b t
    perElem x.ty fun h => fpOut x.ty x.rm (f (fpIn x.ty false a h) (fpIn x.ty false b h))) s

def execFadd (x : Alu2) (s : State) : Out := fpOp2 (.fadd x) x (numAdd x.rm) s
def execFsub (x : Alu2) (s : State) : Out := fpOp2 (.fsub x) x (fun a b => numAdd x.rm a (numNeg b)) s
def execFmul (x : Alu2) (s : State) : Out := fpOp2 (.fmul x) x numMul s
def execFdiv (x : Alu2) (s : State) : Out := fpOp2 (.fdiv x) x numDiv s

def execFfma (ftz : Bool) (x : Alu3) (s : State) : Out :=
  compute (.ffma ftz x) x.c x.ty x.d (fun clk u t =>
    let a := readOpnd clk u x.ty 0 x.a t
    let b := readOpnd clk u x.ty 0 x.b t
    let c := readOpnd clk u x.ty 0 x.x t
    perElem x.ty fun h =>
      fpOut x.ty x.rm (numAdd x.rm (numMul (fpIn x.ty ftz a h) (fpIn x.ty ftz b h)) (fpIn x.ty ftz c h))) s

/-- FMIN, FMAX (R111). -/
def minmaxOp (i : Instr) (isMax : Bool) (x : Alu2) (s : State) : Out :=
  compute i x.c x.ty x.d (fun clk u t =>
    let a := readOpnd clk u x.ty x.imm x.a t
    let b := readOpnd clk u x.ty x.imm x.b t
    perElem x.ty fun h => fminmax (Ty.fmt x.ty) isMax (elemOf x.ty a h) (elemOf x.ty b h)) s

def execFmin (x : Alu2) (s : State) : Out := minmaxOp (.fmin x) false x s
def execFmax (x : Alu2) (s : State) : Out := minmaxOp (.fmax x) true x s

/-- FSET (R111). -/
def fsetHolds (cc : FCmp) (a b : XNum) : Bool :=
  let un := a.isNan || b.isNan
  let d := numCmp a b
  match cc with
  | .eq => !un && d == 0
  | .ne => un || d != 0
  | .lt => !un && decide (d < 0)
  | .le => !un && decide (d ≤ 0)
  | .gt => !un && decide (0 < d)
  | .ge => !un && decide (0 ≤ d)
  | .num => !un
  | .nan => un

def execFset (cc : FCmp) (x : Alu2) (s : State) : Out :=
  compute (.fset cc x) x.c .b32 x.d (fun clk u t =>
    if fsetHolds cc (fpIn x.ty false (readOpnd clk u x.ty x.imm x.a t) 0) (fpIn x.ty false (readOpnd clk u x.ty x.imm x.b t) 0)
    then 1 else 0) s

/-- FSIGN (R112): only the sign bit changes. -/
def signElem (f : SignFn) (n a b : Nat) : Nat :=
  let rest := a % 2 ^ (n - 1)
  match f with
  | .abs => rest
  | .neg => if bit a (n - 1) then rest else rest + 2 ^ (n - 1)
  | .copy => if bit b (n - 1) then rest + 2 ^ (n - 1) else rest

def execFsign (f : SignFn) (x : Alu2) (s : State) : Out :=
  compute (.fsign f x) x.c x.ty x.d (fun clk u t =>
    let a := readOpnd clk u x.ty x.imm x.a t
    let b := if f = .copy then readOpnd clk u x.ty x.imm x.b t else 0
    perElem x.ty fun h => signElem f (Ty.fmt x.ty).width (elemOf x.ty a h) (elemOf x.ty b h)) s

def execFsqrt (x : Alu1) (s : State) : Out := fpOp1 (.fsqrt x) x fnSqrt s
def execFrcp (x : Alu1) (s : State) : Out := fpOp1 (.frcp x) x fnRcp s
def execFrsq (x : Alu1) (s : State) : Out := fpOp1 (.frsq x) x fnRsqrt s
def execFexp2 (x : Alu1) (s : State) : Out := fpOp1 (.fexp2 x) x fnExp2 s
def execFlog2 (x : Alu1) (s : State) : Out := fpOp1 (.flog2 x) x fnLog2 s
def execFsin (x : Alu1) (s : State) : Out := fpOp1 (.fsin x) x fnSin s
def execFcos (x : Alu1) (s : State) : Out := fpOp1 (.fcos x) x fnCos s
def execFtanh (x : Alu1) (s : State) : Out := fpOp1 (.ftanh x) x fnTanh s
def execFrnd (x : Alu1) (s : State) : Out := fpOp1 (.frnd x) x (fnRnd x.rm) s

/-- FCLASS (R114): the class bit of an encoding. -/
def classBit (f : Fmt) (x : Nat) : Nat :=
  let neg := bit x (f.exp + f.frac)
  let e := bits x f.frac f.exp
  let r := bits x 0 f.frac
  if e = 2 ^ f.exp - 1 then (if r = 0 then (if neg then 0 else 7) else if bit x (f.frac - 1) then 9 else 8)
  else if e = 0 then (if r = 0 then (if neg then 3 else 4) else if neg then 2 else 5)
  else if neg then 1 else 6

def execFclass (x : Alu1) (s : State) : Out :=
  compute (.fclass x) x.c .b32 x.d (fun clk u t => 2 ^ classBit (Ty.fmt x.ty) (readOpnd clk u x.ty 0 x.a t)) s

/-- The elements of a packed 32-bit operand of FDOT (R116). -/
def dotElem (ty : Ty) (ftz : Bool) (x k : Nat) : XNum :=
  let w := (Ty.fmt ty).width
  (Ty.fmt ty).input ftz (bits x (w * k) w)

def dotTerms (ty : Ty) (ftz : Bool) (a b : Nat) : List XNum :=
  (List.range (32 / (Ty.fmt ty).width)).map fun k => numMul (dotElem ty ftz a k) (dotElem ty ftz b k)

def execFdot (ftz : Bool) (x : Alu3) (s : State) : Out :=
  compute (.fdot ftz x) x.c .f32 x.d (fun clk u t =>
    narrow fmtF32 x.rm false (numSum x.rm
      (fmtF32.decode (readOpnd clk u .f32 0 x.x t) ::
        dotTerms x.ty ftz (readOpnd clk u .b32 0 x.a t) (readOpnd clk u .b32 0 x.b t)))) s

/-- The activations (R117). -/
def actFn (f : ActFn) (x : XNum) : XNum :=
  match f with
  | .relu => if x.isNan then .nan else if x.neg || x.isZero then .fin false 0 0 else x
  | .gelu => fnGelu x
  | .silu => fnSilu x

def execFact (f : ActFn) (x : Alu1) (s : State) : Out := fpOp1 (.fact f x) x (actFn f) s

end Sys2Proof.Machine
end

