-- ==== Sys2Proof/Machine/Planes.lean ====
section
/-! DEFINITION. The format byte (R59, R60), bit planes (R61 to R64), reservation records (R223), and engine formats. -/

set_option linter.unusedVariables false

namespace Sys2Proof.Machine

/-! ### The format byte (R59, R60) -/

def fmtTy (b : Nat) : Ty := Ty.ofCode (BitVec.ofNat 5 b)
def fmtV (b : Nat) : Bool := bit b 5
def fmtFtz (b : Nat) : Bool := bit b 6

def fmtAccepted : Ty → Bool
  | .s4 | .s8 | .f16 | .bf16 | .tf32 | .f32 | .f64 | .e4m3 | .e5m2 | .mx4 | .mx8 | .dx4 | .dx8 => true
  | _ => false

def fmtOk (b : Nat) : Bool :=
  let t := fmtTy b
  decide (t.code.toNat = b % 32) && !bit b 7 && fmtAccepted t &&
  (!fmtFtz b || t == .f16 || t == .bf16) && (!fmtV b || t == .mx8)

def fmtBlock (b : Nat) : Option Block := Ty.block? (fmtV b) (fmtTy b)

/-- Bits of an element in memory. -/
def fmtElemBits (b : Nat) : Nat :=
  match fmtBlock b with
  | some k => k.elemBits
  | none => Ty.bits (fmtTy b)

/-- Bytes of a scale entry: 1 MX, 2 DX, 0 otherwise. -/
def fmtScale (b : Nat) : Nat := ((fmtBlock b).map Block.scaleBytes).getD 0

def fmtIsInt (b : Nat) : Bool := fmtTy b == .s4 || fmtTy b == .s8

/-! ### Planes -/

/-- Plane widths of a format (R62): magnitude, selector, exponent. -/
structure Planing where
  mag : Nat
  sel : Nat
  exp : Nat
  deriving DecidableEq, Repr, Inhabited

/-- The element format whose fields are planed. -/
def planeFmt (b : Nat) : Fmt :=
  match fmtBlock b with
  | some k => k.elemFmt
  | none => Ty.fmt (fmtTy b)

def planing (b : Nat) : Planing :=
  match fmtTy b with
  | .dx4 => { mag := 2, sel := 1, exp := 0 }
  | .dx8 => { mag := 6, sel := 1, exp := 0 }
  | .s4 => { mag := 4, sel := 0, exp := 0 }
  | .s8 => { mag := 8, sel := 0, exp := 0 }
  | _ => { mag := (planeFmt b).frac + 1, sel := 0, exp := (planeFmt b).exp }

def planeCount (b : Nat) : Nat := 1 + (planing b).sel + (planing b).mag + (planing b).exp

/-- The planed field of an element code (R63): sign, selector, magnitude and exponent planes from bit 0 upward. DESIGN CHOICE (log 104):
of an infinity or a NaN the magnitude planes hold a leading bit of 1 and the whole fraction. DESIGN CHOICE (log 105): a subnormal that
COPY.pl's own conversion has produced is flushed under FTZ as one that was read. -/
def planed (b code : Nat) : Nat :=
  let p := planing b
  let pack (neg : Bool) (sel mag exp : Nat) : Nat :=
    (if neg then 1 else 0) + 2 * sel + 2 ^ (1 + p.sel) * mag + 2 ^ (1 + p.sel + p.mag) * exp
  if p.sel = 1 then pack (bit code (p.mag + 1)) (bits code p.mag 1) (bits code 0 p.mag) 0
  else if fmtIsInt b then
    let x := signed code p.mag
    pack (x < 0) 0 x.natAbs 0
  else
    let f := planeFmt b
    let e := bits code f.frac f.exp
    let r := bits code 0 f.frac
    if fmtFtz b && f.subnormal code then pack (bit code (f.exp + f.frac)) 0 0 0
    else pack (bit code (f.exp + f.frac)) 0 (r + if e = 0 then 0 else 2 ^ f.frac) e

/-- The value the matrix unit reads from a planed field under a scale entry (R51, R54, R63): a raw exponent field of 0 reads as 1. -/
def planeValue (b scale x : Nat) : XNum :=
  let p := planing b
  let neg := bit x 0
  let mag := bits x (1 + p.sel) p.mag
  let e := bits x (1 + p.sel + p.mag) p.exp
  if fmtIsInt b then .fin neg mag 0
  else
    match fmtBlock b with
    | some .dx4 => Block.dx4.decode scale ((if neg then 8 else 0) + 4 * bits x 1 1 + mag)
    | some .dx8 => Block.dx8.decode scale ((if neg then 128 else 0) + 64 * bits x 1 1 + mag)
    | k =>
      let f := planeFmt b
      let r := mag % 2 ^ f.frac
      let v : XNum :=
        if e = 2 ^ f.exp - 1 ∧ f.top = .ieee then (if r = 0 then .inf neg else .nan)
        else if e = 2 ^ f.exp - 1 ∧ f.top = .e4m3 ∧ r = 2 ^ f.frac - 1 then .nan
        else .fin neg mag ((max e 1 : Nat) - (f.bias : Int) - f.frac)
      match k with
      | none => v
      | some _ => if scale % 256 = 255 then .nan else numScale ((scale % 256 : Nat) - 127) v

/-! ### Reservation records (R223) -/

abbrev Handle := BitVec 128

def hField (h : Handle) (lo n : Nat) : Nat := bits h.toNat lo n
def hInuse (h : Handle) : Nat := hField h 112 16
def hCfg (h : Handle) : Bool := h.getLsbD 111
def hScaleOff (h : Handle) : Nat := hField h 84 20
def hOffset (h : Handle) : Nat := hField h 64 20
def hPlanes (h : Handle) : Nat := hField h 40 7
def hKbs (h : Handle) : Nat := hField h 28 12
def hRows (h : Handle) : Nat := hField h 16 12
def hFmt (h : Handle) : Nat := hField h 0 8

def handleRecord (fmt rows kbs off scaleOff : Nat) : Handle :=
  BitVec.ofNat 128 (fmt + 32 * 2 ^ 8 + rows * 2 ^ 16 + kbs * 2 ^ 28 + planeCount fmt * 2 ^ 40 + kbs * 32 * 2 ^ 47 + off * 2 ^ 64 +
    scaleOff * 2 ^ 84 + 2 ^ 111)

def hSetInuse (h : Handle) (n : Nat) : Handle := BitVec.ofNat 16 n ++ h.extractLsb' 0 112

def handleOf (x : Group) (t : Nat) : Handle := sgetD t 0 x.handles

def addInuse (g t : Nat) (d : Int) (s : State) : State :=
  modGroup g (fun x => { x with handles := sput 0 t (hSetInuse (handleOf x t) (((hInuse (handleOf x t) : Nat) + d).toNat)) x.handles }) s

/-- Plane and scale byte ranges of a reservation (R162): start and length. -/
def planeSpan (h : Handle) : Nat × Nat := (hOffset h, hRows h * hKbs h * hPlanes h * 4)
def scaleSpan (h : Handle) : Nat × Nat := (hScaleOff h, hRows h * hKbs h * fmtScale (hFmt h))

/-- Addresses of R64. -/
def planeAt (h : Handle) (row kb p : Nat) : Nat := hOffset h + (row * hKbs h + kb) * hPlanes h * 4 + p * 4
def scaleAt (h : Handle) (row kb : Nat) : Nat := hScaleOff h + (row * hKbs h + kb) * fmtScale (hFmt h)

/-- Element k's field from the plane words of a pair. -/
def fieldAt (words : List Nat) (k : Nat) : Nat :=
  (List.range words.length).foldl (fun a p => a + if bit (words.getD p 0) k then 2 ^ p else 0) 0

/-- The plane words of 32 planed fields. -/
def planeWords (n : Nat) (fields : List Nat) : List Nat :=
  (List.range n).map fun p => (List.range fields.length).foldl (fun a k => a + if bit (fields.getD k 0) p then 2 ^ k else 0) 0

/-- PlaneWrite of R156, R227: 32 element codes and a scale entry of one pair. -/
def planeWrite (h : Handle) (row kb : Nat) (codes : List Nat) (scale : Nat) (plane : Mem) : Mem :=
  let ws := planeWords (hPlanes h) (codes.map (planed (hFmt h)))
  let m := writeBytes plane (planeAt h row kb 0) (ws.flatMap fun w => leBytes w 4)
  if fmtScale (hFmt h) = 0 then m else writeBytes m (scaleAt h row kb) (leBytes scale (fmtScale (hFmt h)))

/-- The 32 values of a pair as the matrix unit reads them; a row beyond the reservation is zero (R169). -/
def planeRow (h : Handle) (plane : Mem) (row kb : Nat) : List XNum :=
  if hRows h ≤ row then List.replicate 32 (.fin false 0 0)
  else
    let ws := (List.range (hPlanes h)).map fun p => leNat (readBytes plane (planeAt h row kb p) 4)
    let sc := leNat (readBytes plane (scaleAt h row kb) (fmtScale (hFmt h)))
    (List.range 32).map fun k => planeValue (hFmt h) sc (fieldAt ws k)

end Sys2Proof.Machine
end

