-- ==== Sys2Proof/Machine/Memory.lean ====
section
/-! DEFINITION. What a memory instruction asks for (R123 to R125, R130, R131), the values of atomics (R132), the group's local
store (R263, R277), checks and placing of an access (R123, R124), and its issue (R126 to R129, R133). The same issue serves a
replayed entry (R353). -/

set_option linter.unusedVariables false

namespace Sys2Proof.Machine

/-! ### Requests -/

inductive MemKind where
  | ld | ldu | ldx | lr | st | stc | sc | atom | xst | xatom
  deriving DecidableEq, Repr, Inhabited

/-- A memory instruction's fields. -/
structure MemOp where
  kind : MemKind
  c : Ctl
  ty : Ty
  acq : Bool
  rel : Bool
  sc : Scope
  fl : BitVec 2
  ord : Bool
  nr : Bool
  fn : AtomFn
  d : Opnd
  a : Opnd
  b : Opnd
  x : Opnd
  disp : Int
  /-- cache policy -/
  pol : BitVec 2 := 0
  deriving DecidableEq, Repr, Inhabited

def ofLoad (k : MemKind) (x : LoadOp) : MemOp :=
  { kind := k, c := x.c, ty := x.ty, acq := x.acq, rel := false, sc := x.sc, fl := 0, ord := false, nr := false, fn := .add,
    d := x.d, a := x.a, b := .sp .zero, x := .sp .zero, disp := x.disp.toInt, pol := x.pol }

def ofStore (k : MemKind) (x : StoreOp) : MemOp :=
  { kind := k, c := x.c, ty := x.ty, acq := false, rel := x.rel, sc := x.sc, fl := 0, ord := false, nr := k == .st, fn := .add,
    d := x.d, a := x.a, b := x.b, x := .sp .zero, disp := x.disp.toInt, pol := x.pol }

def ofAtom (k : MemKind) (x : AtomOp) : MemOp :=
  { kind := k, c := x.c, ty := x.ty, acq := x.acq, rel := x.rel, sc := x.sc, fl := x.fl, ord := false, nr := x.nr, fn := x.op,
    d := x.d, a := x.a, b := x.b, x := x.x, disp := x.disp.toInt }

def ofXst (x : XstOp) : MemOp :=
  { kind := .xst, c := x.c, ty := x.ty, acq := false, rel := x.rel, sc := x.sc, fl := x.fl, ord := x.ord, nr := true, fn := .add,
    d := .sp .zero, a := x.a, b := x.b, x := .sp .zero, disp := x.disp.toInt }

/-- The request of a word, for a replayed entry. -/
def memOp (i : Instr) : Option MemOp :=
  match i with
  | .ld x => some (ofLoad .ld x)
  | .ldu x => some (ofLoad .ldu x)
  | .ldx x => some (ofLoad .ldx x)
  | .lr x => some (ofLoad .lr x)
  | .st x => some (ofStore .st x)
  | .stc x => some (ofStore .stc x)
  | .sc x => some (ofStore .sc x)
  | .atom x => some (ofAtom .atom x)
  | .xst x => some (ofXst x)
  | .xatom x => some (ofAtom .xatom x)
  | _ => none

def MemOp.bytes (m : MemOp) : Nat := Ty.bits m.ty / 8

def MemOp.isLoad (m : MemOp) : Bool := m.kind == .ld || m.kind == .ldu || m.kind == .ldx || m.kind == .lr
def MemOp.isAtomic (m : MemOp) : Bool := m.kind == .atom || m.kind == .xatom
def MemOp.isRemote (m : MemOp) : Bool := m.kind == .xst || m.kind == .xatom
/-- Elements of LDX and STC are consecutive (R127). -/
def MemOp.packed (m : MemOp) : Bool := m.kind == .ldx || m.kind == .stc
/-- LDU, LR, SC, ATOM and XATOM need natural alignment (R124). -/
def MemOp.aligned (m : MemOp) : Bool := m.kind == .ldu || m.kind == .lr || m.kind == .sc || m.isAtomic

/-- LDU, and an atomic with a uniform destination, access once for the rank (R24, R30, R127). -/
def MemOp.uniform (m : MemOp) : Bool := m.kind == .ldu || (m.isAtomic && match m.d with
  | .w _ => true
  | _ => false)

/-- An operand with one value for the whole rank (R24). -/
def rankWide (o : Opnd) : Bool :=
  match o with
  | .v _ | .o _ | .y _ | .p _ | .sp .tid => false
  | _ => true

/-- Uniform operands, which stand in slot 0 only (R349). -/
def MemOp.uniA (m : MemOp) : Bool := m.uniform || rankWide m.a
def MemOp.uniB (m : MemOp) : Bool := m.uniform || rankWide m.b
def MemOp.uniX (m : MemOp) : Bool := m.uniform || rankWide m.x
/-- FLAGS bit 4: one of the operands that the instruction has is uniform. -/
def MemOp.unif (m : MemOp) : Bool := m.uniA || (!m.isLoad && m.uniB) || (m.isAtomic && m.fn == .cas && m.uniX)

/-- The elements of an instruction that its threads m execute, of STC and LDX too. -/
def MemOp.count (m : MemOp) (ex : Mask) : Nat := if m.uniform then min 1 (countMask ex) else countMask ex

/-- The classes of R145. -/
def MemOp.cls (m : MemOp) : EntryClass := if m.isLoad then .n else .s

/-- A scope wider than .core (R267). -/
def wideScope (sc : Scope) : Bool := decide (3 ≤ sc.toNat)

/-- The table of R123: which pointers an instruction reaches. -/
def MemOp.reaches (m : MemOp) (self : Nat) (p : Long) : Bool :=
  ptrOk p &&
  match ptrSpace p with
  | .control => !m.isRemote
  | .tensor => m.isRemote || ptrHome p == self
  | .loc =>
    match m.kind with
    | .ld | .ldu | .ldx => true
    | .st | .stc => decide (ptrRegion p < 2)
    | .atom => ptrRegion p == 0
    | _ => false
  | .invalid => false

/-! ### Atomics (R132) -/

def atomPart (op : AtomFn) (f : Fmt) (old b : Nat) : Nat :=
  match op with
  | .fmin => fminmax f false old b
  | .fmax => fminmax f true old b
  | _ => narrow f .rne false (numAdd .rne (f.decode old) (f.decode b))

/-- The new value. -/
def atomNew (op : AtomFn) (ty : Ty) (old b c : Nat) : Nat :=
  let n := Ty.bits ty
  let v (x : Nat) : Int := intOf (Ty.isSigned ty) n x
  match op with
  | .add => (old + b) % 2 ^ n
  | .min => if v b < v old then b else old
  | .max => if v old < v b then b else old
  | .and => Nat.land old b
  | .or => Nat.lor old b
  | .xor => Nat.xor old b
  | .exch => b
  | .cas => if old = c then b else old
  | .inc => if b ≤ old then 0 else old + 1
  | .dec => if old = 0 ∨ b < old then b else old - 1
  | .fadd | .fmin | .fmax =>
    if Ty.isX2 ty then
      atomPart op (Ty.fmt ty) (old % 2 ^ 16) (b % 2 ^ 16) + 2 ^ 16 * atomPart op (Ty.fmt ty) (old / 2 ^ 16) (b / 2 ^ 16)
    else atomPart op (Ty.fmt ty) old b

/-! ### The group's local store -/

/-- The allocation of a region (R123). -/
def localSize (x : Group) (region : Nat) : Nat :=
  match region with
  | 0 => x.scratchBytes
  | 1 => x.planeBytes
  | _ => 65536 * x.slabMax

/-- A byte of the accumulator window (R232): 0 where the slot is not bound. -/
def windowByte (s : State) (x : Group) (o : Nat) : Byte :=
  match sget (o / 65536) x.slabMap with
  | some ph => ((sget (x.core * 8 + ph) s.slabs).map fun b => byteAt b.data (o % 65536)).getD 0
  | none => 0

def localRead (s : State) (x : Group) (region off n : Nat) : List Byte :=
  match region with
  | 0 => readBytes x.scratch off n
  | 1 => readBytes x.plane off n
  | _ => (List.range n).map fun i => windowByte s x (off + i)

def localWrite (g region off : Nat) (bs : List Byte) (s : State) : State :=
  modGroup g (fun x => if region = 0 then { x with scratch := writeBytes x.scratch off bs }
    else { x with plane := writeBytes x.plane off bs }) s

/-! ### Elements, checks and placing -/

/-- One thread's access, or one element of LDX or STC. -/
structure Elem where
  k : Nat
  t : Nat
  s : Slot
  deriving DecidableEq, Repr, Inhabited

/-- What the k-th participant t works with: uniform operands from slot 0, and the elements of LDX and STC one after the other from the
base pointer there (R127, R349). -/
def MemOp.slotFor (m : MemOp) (slots : Sparse Slot) (k t : Nat) : Slot :=
  let z := sgetD 0 Slot.zero slots
  let y := sgetD t Slot.zero slots
  let p := if m.uniA then z.a else y.a
  { a := if m.packed then ptrAdd p ((k * m.bytes : Nat) : Int) else p, b := if m.uniB then z.b else y.b, c := if m.uniX then z.c else y.c }

/-- The elements of an entry (R126, R127). -/
def elemsOf (m : MemOp) (mask : Mask) (slots : Sparse Slot) : List Elem :=
  let ts := if m.uniform then (threadsOf mask).take 1 else threadsOf mask
  (List.range ts.length).map fun k => { k := k, t := ts.getD k 0, s := m.slotFor slots k (ts.getD k 0) }

/-- Where an access lies: local, pieces of control lines (offset, length, device address), or a tensor buffer. -/
inductive Place where
  | loc (region off : Nat)
  | ctl (ps : List (Nat × Nat × Nat))
  | ten (home buf off : Nat)
  deriving DecidableEq, Repr, Inhabited

def Place.isLocal : Place → Bool
  | .loc _ _ => true
  | _ => false

inductive Placed where
  | ok (p : Place)
  | bad (cause : BitVec 16) (tval : Long)
  /-- a line of the tables must come first -/
  | lacks (dpa : Nat)
  deriving DecidableEq, Repr, Inhabited

def MemOp.rights (m : MemOp) : List Right :=
  if m.isLoad then [.rd] else if m.isAtomic then [.rd, .wr] else [.wr]

/-- Translation of a control access, piece by piece: both stages fault precisely, with the thread's effective pointer or the
guest-physical address (R124, R343). -/
def translatePieces (cid core : Nat) (p : Long) (rs : List Right) :
    List (Nat × Nat) → List (Nat × Nat × Nat) → State → State × Placed
  | [], got, s => (s, .ok (.ctl got))
  | (off, len) :: rest, got, s =>
    let step (acc : State × Xlat) (r : Right) : State × Xlat := match acc.2 with
      | .ok _ => translate (some core) cid (ptrOff p + off) r acc.1
      | _ => acc
    match rs.foldl step (s, .ok 0) with
    | (s1, .ok a) => translatePieces cid core p rs rest (got ++ [(off, len, a)]) s1
    | (s1, .stage1) => (s1, .bad 0x13 p)
    | (s1, .stage2 gpa) => (s1, .bad 0x14 (BitVec.ofNat 64 gpa))
    | (s1, .lacks d) => (s1, .lacks d)

/-- The checks of an access at the core (R123, R124). DESIGN CHOICE (log 106): where several fail, the first in the order space, alignment,
bounds, translation is the one that is raised. -/
def placeAccess (m : MemOp) (cid core : Nat) (x : Group) (p : Long) (s : State) : State × Placed :=
  let n := m.bytes
  let o := ptrOff p
  if !m.reaches s.selfPkg p || (ptrSpace p == .control && decide (2 ^ 48 < o + n)) then (s, .bad 0x10 p)
  else if m.aligned && o % n != 0 then (s, .bad 0x11 p)
  else
    match ptrSpace p with
    | .loc => (s, if localSize x (ptrRegion p) < o + n then .bad 0x12 p else .ok (.loc (ptrRegion p) o))
    | .tensor => (s, .ok (.ten (ptrHome p) (ptrBuf p) o))
    | _ => translatePieces cid core p m.rights (granules o n) [] s

/-- What stops an issue: which element, its fault's cause and TVAL, or the line of the tables that must come first. -/
structure Flt where
  k : Nat
  cause : BitVec 16
  tval : Long
  line : Option Nat
  deriving DecidableEq, Repr, Inhabited

/-- The accesses of an instruction in ascending thread order, up to the lowest that faults. A line that the tables lack is asked
for. -/
def placeAll (m : MemOp) (cid core : Nat) (x : Group) :
    List Elem → List (Elem × Place) → State → State × List (Elem × Place) × Option Flt
  | [], got, s => (s, got, none)
  | e :: rest, got, s =>
    match placeAccess m cid core x e.s.a s with
    | (s1, .ok p) => placeAll m cid core x rest (got ++ [(e, p)]) s1
    | (s1, .bad cause tval) => (s1, got, some { k := e.k, cause := cause, tval := tval, line := none })
    | (s1, .lacks d) => (askLine s1 d false, got, some { k := e.k, cause := 0, tval := 0, line := some d })

/-! ### What waits for what -/

def AccOp.isWrite : AccOp → Bool
  | .write _ | .atom _ _ _ _ | .sc _ => true
  | _ => false

def Access.isWrite (a : Access) : Bool := a.op.isWrite

def ofThread (g r t : Nat) (a : Access) : Bool := a.who.group == g && a.who.rank == r && a.thread == t

/-- The threads for which an access acquires or releases: all of the rank where the word is done once for it (R30). -/
def Access.threads (a : Access) : List Nat := if a.uni then List.range 32 else [a.thread]

/-- An acquiring access holds back thread t of the rank. -/
def acquiresFor (g r t : Nat) (b : Access) : Bool := b.acq && b.who.group == g && b.who.rank == r && (b.uni || b.thread == t)

/-- A load of the thread numbered below mark has read what carries these readers. -/
def readBy (g r t mark : Nat) (l : List ReadMark) : Bool := l.any fun v =>
  v.group == g && v.rank == r && v.thread == t && decide (v.access < mark)

def ofRank (g r : Nat) (o : RemoteOwner) : Bool :=
  match o with
  | .entry g' r' _ _ => g' == g && r' == r
  | _ => false

def ownerThread (g r t : Nat) (o : RemoteOwner) : Bool :=
  match o with
  | .entry g' r' _ t' => g' == g && r' == r && t' == t
  | _ => false

def Target.isTensor : Target → Bool
  | .ten _ _ _ => true
  | .ctl _ => false

def Access.asker (s : State) (a : Access) : Asker := { pkg := s.selfPkg, ctx := a.ctx, key := a.key, part := a.part }

def Access.right (a : Access) : BufRight :=
  match a.op with
  | .read | .lr | .prefetch => .rd
  | .write _ | .sc _ => .wr
  | .atom _ _ _ _ => .at

/-- The granule (or offset) a piece names, for tags (R146) and for order. -/
def Access.granule (s : State) (a : Access) : Nat :=
  match a.target with
  | .ctl dpa => granuleOf dpa
  | .ten buf off _ => 2 ^ 50 + ((a.home * 64 + a.part) * 4096 + buf) * 2 ^ 33 + off / 32

/-- The device address of a queued piece, where it has one: of a tensor piece the one it was admitted with (R291). -/
def accessDpa (s : State) (a : Access) : Option Nat :=
  match a.target with
  | .ctl dpa => some dpa
  | .ten _ _ (some dpa) => some dpa
  | .ten buf off none => if a.home ≠ s.selfPkg then none else match portPlace s a.part buf off a.right with
    | .ok dpa => some dpa
    | _ => none

/-- Two pieces name one granule: by device address where both have one. -/
def samePlace (s : State) (a b : Access) : Bool :=
  a.granule s == b.granule s ||
  match accessDpa s a, accessDpa s b with
  | some p, some q => granuleOf p == granuleOf q
  | _, _ => false

/-- A barrier arrival that waits for its release stands in the live record, issued (R145). -/
def isArrival (e : Entry) : Bool :=
  e.state == .issued && e.cls == .s && e.word.extractLsb' 88 8 == 0xB0

def arrivalOpen (s : State) (g r mark : Nat) : Bool :=
  (rank? s g r).any fun k => k.live.any fun e => decide (e.id < mark) && isArrival e

/-- The owner is a rank's access of the core. -/
def ofCore (s : State) (core : Nat) (o : RemoteOwner) : Bool :=
  match o with
  | .entry g _ _ _ => (group? s g).any fun x => x.core == core
  | _ => false

/-- Release at a scope wider than .core (R264, R273): of what is numbered below mark, every access of the thread has been performed, every
remote operation of the rank is acknowledged (R259), and every write that the thread may have read (log 23), that is each write that
was in its core's write path, or that one of its loads has read since, and each such write whose mirror does not hold it yet, is
performed. -/
def drainedWide (s : State) (core g r t mark : Nat) : Bool :=
  !(s.homeq.any fun a => (decide (a.id < mark) &&
    (ofThread g r t a || (a.core == core && a.inPath) || (a.remote && a.who.group == g && a.who.rank == r))) || readBy g r t mark a.readers) &&
  !(s.fab.unacked.any fun u => !u.stale && decide (u.access < mark) && ofRank g r u.owner) &&
  !(s.mirrorq.any fun w => decide (w.tag < mark) || (decide (w.access < mark) && ofCore s core w.owner) || readBy g r t mark w.readers) &&
  !arrivalOpen s g r mark

/-- Release at .grp or .core (R264): stores have entered the core's write path; loads, atomics and remote operations are awaited. -/
def drainedCore (s : State) (g r t mark : Nat) : Bool :=
  !(s.homeq.any fun a => decide (a.id < mark) && ofThread g r t a && !a.inPath) &&
  !(s.fab.unacked.any fun u => !u.stale && decide (u.access < mark) && ownerThread g r t u.owner) && !arrivalOpen s g r mark

/-- FENCE.tc (R276): every tensor-space write of the thread numbered below mark is acknowledged at its home, and every write in the
core's write path numbered below wide, which the thread may have observed, is performed. -/
def drainedTensor (s : State) (core g r t mark wide : Nat) : Bool :=
  !(s.homeq.any fun a => a.target.isTensor && a.isWrite &&
    ((decide (a.id < mark) && ofThread g r t a) || (decide (a.id < wide) && a.core == core && a.inPath) || readBy g r t wide a.readers)) &&
  !(s.fab.unacked.any fun u => !u.stale && decide (u.access < mark) && ownerThread g r t u.owner && ptrSpace u.packet.addr == .tensor)

/-- The release and FENCE.tc marks of a thread hold no more. -/
def marksDone (s : State) (core g r : Nat) (k : Rank) (t : Nat) : Bool :=
  drainedWide s core g r t (sgetD t 0 k.relAll) && drainedCore s g r t (sgetD t 0 k.relReads) &&
  drainedTensor s core g r t (sgetD t 0 k.tcMark) (sgetD t 0 k.tcWide)

def AccOp.takesValue : AccOp → Bool
  | .read | .lr | .atom _ _ _ _ => true
  | _ => false

/-- An acquiring access of the thread has not taken its value. -/
def acqPending (s : State) (g r t : Nat) : Bool :=
  (s.homeq.any (acquiresFor g r t)) ||
  (s.fab.unacked.any fun u => !u.stale && u.packet.opinfo.getLsbD 4 && (ownerThread g r t u.owner || (u.uni && ofRank g r u.owner)))

/-- A load, LR or returning atomic of the thread numbered below mark has not taken its value. -/
def loadPending (s : State) (g r t mark : Nat) : Bool :=
  (s.homeq.any fun a => decide (a.id < mark) && ofThread g r t a && a.op.takesValue) ||
  (s.fab.unacked.any fun u => !u.stale && decide (u.access < mark) && u.packet.kind == 0x02 && ownerThread g r t u.owner)

/-- Local accesses are made at once: the lane waits before one that an acquire or a release holds back. For local space every scope acts
as .grp (R268), and FENCE.tc does not hold it (R276). -/
def localHeld (s : State) (u : Iss) (m : MemOp) (t : Nat) : Bool :=
  acqPending s u.g u.r t || loadPending s u.g u.r t (sgetD t 0 u.k.acqLoads) ||
  (!m.isLoad && (!drainedCore s u.g u.r t (max (sgetD t 0 u.k.relAll) (sgetD t 0 u.k.relReads)) ||
    (m.rel && !drainedCore s u.g u.r t s.fresh)))

/-! ### Which pieces may go -/

/-- LR and SC: those of one thread are performed in its order (R129). -/
def AccOp.reserves : AccOp → Bool
  | .lr | .sc _ => true
  | _ => false

def AccOp.isSc : AccOp → Bool
  | .sc _ => true
  | _ => false

def AccOp.isAtom : AccOp → Bool
  | .atom _ _ _ _ => true
  | _ => false

def AccOp.isPlain : AccOp → Bool
  | .write _ => true
  | _ => false

/-- An operation of the thread that travels to another home holds a later access: one that acquires (R273), or an atomic on the same
control granule (R126). -/
def unackedHolds (s : State) (a : Access) : Bool :=
  s.fab.unacked.any fun u => !u.stale && decide (u.access < a.id) &&
    ((u.packet.opinfo.getLsbD 4 && u.uni && ofRank a.who.group a.who.rank u.owner) ||
      (ownerThread a.who.group a.who.rank a.thread u.owner && (u.packet.opinfo.getLsbD 4 || (ptrSpace u.packet.addr == .control && match a.target with
        | .ctl dpa => granuleOf dpa == granuleOf u.packet.addr.toNat
        | .ten _ _ _ => false))))

/-- Program order, acquires, releases, fences, STC's order, flowlets and reservations let the k-th queued piece go on (R126, R128, R129,
R273, R275, R276, R322): to its home, or into its core's write path. -/
def ordered (s : State) (k : Nat) (a : Access) : Bool :=
  let mine := ofThread a.who.group a.who.rank a.thread
  let others := { s with homeq := s.homeq.filter fun b => b.id != a.id }
  !((s.homeq.take k).any fun b =>
    (acquiresFor a.who.group a.who.rank a.thread b && b.id != a.id) ||
    (mine b && ((b.op.reserves && a.op.reserves) ||
      (!(b.remote && !a.remote && !b.op.isAtom) && !(b.inPath && !a.remote) && samePlace s b a))) ||
    (b.inOrder && a.inOrder && b.who == a.who && decide (b.elem < a.elem) && !b.inPath) ||
    (b.isWrite && a.isWrite && !a.remote && b.who == a.who && !b.inPath && samePlace s b a) ||
    (a.remote && b.remote && b.ctx == a.ctx && b.home == a.home && (a.ord || b.fl == a.fl))) &&
  !unackedHolds s a && !loadPending others a.who.group a.who.rank a.thread a.waitLoads &&
  a.threads.all fun t => drainedWide others a.core a.who.group a.who.rank t a.waitAll &&
    drainedCore others a.who.group a.who.rank t a.waitReads &&
    drainedTensor others a.core a.who.group a.who.rank t a.waitTensor a.waitTcWide

/-- A store of this core to the granule stands in the core's write path. -/
def pathStore (s : State) (a b : Access) : Bool := b.inPath && b.core == a.core && samePlace s b a

/-- The k-th queued piece may enter its core's write path (R264): stores of the core to one granule enter it in one order. -/
def mayEnter (s : State) (k : Nat) (a : Access) : Bool :=
  a.op.isPlain && !a.remote && !a.inPath && ordered s k a && !((s.homeq.drop (k + 1)).any (pathStore s a))

/-- The k-th queued piece may be performed, as far as order goes: stores of a core to a granule leave its write path in order. -/
def mayGo (s : State) (k : Nat) (a : Access) : Bool :=
  (a.inPath || ordered s k a) &&
  (a.remote || !a.isWrite || !((s.homeq.take k).any (pathStore s a))) &&
  !((s.homeq.take k).any fun b => b.inOrder && a.inOrder && b.who == a.who && decide (b.elem < a.elem))

/-! ### Admission at the home port -/

/-- What a home port finds out about a piece. -/
inductive Resolved where
  | ok (dpa : Nat)
  | bad (cause : BitVec 16) (tval : Long)
  /-- the whole access fails, at the piece of this offset -/
  | badAll (cause : BitVec 16) (tval : Long) (off : Nat)
  | discard
  /-- a line of the tables must come first -/
  | lacks (dpa : Nat)
  deriving DecidableEq, Repr, Inhabited

/-- All pieces of an access are admitted at one point, under one entry (R290, R291). -/
def stampPieces (id : Nat) (l : List (Nat × Nat)) (s : State) : State :=
  let stamp (b : Access) : Access := match b.target with
    | .ten buf off _ => if b.id = id then { b with target := .ten buf off ((l.find? fun q => q.1 == b.off).map (·.2)) } else b
    | .ctl _ => b
  { s with homeq := s.homeq.map stamp }

/-- The home port's checks (R290), of the whole access before any part of it; failed rows (R297) and lost regions (R329). -/
def resolve (s : State) (a : Access) : State × Resolved :=
  let reads := !(match a.op with
    | .write _ | .sc _ => true
    | _ => false)
  let row (dpa : Nat) : Resolved := if reads && rowFailed s dpa then .bad 0x19 (ptrAdd a.ptr a.off) else .ok dpa
  match a.target with
  | .ctl dpa =>
    (s, if regionLost s dpa then (if reads then .bad 0x1A (ptrAdd a.ptr a.off) else .discard)
      else if layerOff s dpa then .bad 0x18 (ptrAdd a.ptr a.off) else row dpa)
  | .ten _ _ (some dpa) => (s, row dpa)
  | .ten buf _ none =>
    match portPieces s (a.asker s) buf a.wholeOff a.wholeLen a.right with
    | .lacks d => (s, .lacks d)
    | .ok l => (stampPieces a.id l s, match (l.find? fun q => q.1 == a.off).map (·.2) with
        | some dpa => row dpa
        | none => .badAll 0x15 a.ptr 0)
    | .bad (.stage2 gpa) off => (s, .badAll 0x14 (BitVec.ofNat 64 gpa) off)
    | .bad ans off => (s, .badAll ans.cause (if off = 0 then a.ptr else ptrAdd a.ptr off) off)

/-- The k-th queued piece enters its core's write path where it may: from then on the core's loads see it (R264). -/
def enterPath (k : Nat) (s : State) : State :=
  match s.homeq[k]? with
  | none => s
  | some a =>
    if mayEnter s k a then
      match resolve s a with
      | (s1, .ok _) => { s1 with homeq := modAt s1.homeq k fun b => { b with inPath := true } }
      | _ => s
    else s

/-- What a load of the core must see of its write path (R264): nothing, the bytes of the newest store, or something that only the home
will have. -/
inductive Seen where
  | nothing
  | bytes (bs : List Byte)
  | waits
  deriving DecidableEq, Repr, Inhabited

def seenInPath (s : State) (a : Access) (dpa : Nat) : Seen :=
  match ((s.homeq.filter (pathStore s a)).reverse.head? : Option Access) with
  | none => .nothing
  | some b => match b.op, accessDpa s b with
    | .write d, some q => if q ≤ dpa ∧ dpa + a.len ≤ q + b.len then .bytes ((((d.drop b.off).take b.len).drop (dpa - q)).take a.len) else .waits
    | _, _ => .waits

/-! ### Issue -/

/-- The entry of an instruction as it is captured at issue (R349). -/
def memEntry (clk : Nat) (u : Iss) (w : IWord) (m : MemOp) (id : Nat) (base : BitVec 20) : Entry :=
  let ts := threadsOf u.ex
  let slot (t : Nat) : Slot :=
    { a := ptrAdd (BitVec.ofNat 64 (readOpnd clk u .b64 0 m.a t)) m.disp, b := BitVec.ofNat 128 (readOpnd clk u m.ty 0 m.b t),
      c := BitVec.ofNat 64 (readOpnd clk u m.ty 0 m.x t) }
  let mix (uni : Bool → Bool) (x y : Slot) : Slot :=
    { a := if uni m.uniA then x.a else y.a, b := if uni m.uniB then x.b else y.b, c := if uni m.uniX then x.c else y.c }
  let own := ts.foldl (fun acc t => sput Slot.zero t (mix not (slot t) Slot.zero) acc) []
  let slots := match ts with
    | [] => []
    | t :: _ => sput Slot.zero 0 (mix (fun b => b) (slot t) (sgetD 0 Slot.zero own)) own
  { word := w, state := .issued, cls := m.cls, drop := false, zeroed := 0, unif := m.unif, pc := u.pc, mask := u.ex,
    tagBase := base, prog := 0, status := 0, cause := 0, block := [], slots := slots, id := id, left := 0, got := [],
    bad := none, replayed := false }

/-- The bytes of a type's value. -/
def dataBytes (m : MemOp) (s : Slot) : List Byte := leBytes s.b.toNat m.bytes

def MemOp.accOp (m : MemOp) (s : Slot) : AccOp :=
  match m.kind with
  | .ld | .ldu | .ldx => .read
  | .lr => .lr
  | .st | .stc | .xst => .write (dataBytes m s)
  | .sc => .sc (dataBytes m s)
  | .atom | .xatom => .atom m.fn m.ty (s.b.setWidth 64) s.c

/-- A local access, performed where it stands (R277): what it returns. -/
def localAccess (g : Nat) (m : MemOp) (e : Elem) (region off : Nat) (s : State) : State × List (Nat × Nat × List Byte) :=
  match group? s g with
  | none => (s, [])
  | some x =>
    let old := localRead s x region off m.bytes
    if m.isLoad then (s, [(e.t, 0, old)])
    else if m.isAtomic then
      let new := atomNew m.fn m.ty (leNat old) (e.s.b.toNat % 2 ^ Ty.bits m.ty) e.s.c.toNat
      (localWrite g region off (leBytes new m.bytes) s, [(e.t, 0, old)])
    else (localWrite g region off (dataBytes m e.s) s, [])

/-- Where a thread stands in a mask. -/
def maskIndex (m : Mask) (t : Nat) : Nat := ((threadsOf m).filter fun i => decide (i < t)).length

/-- The number of an element's tag: its place among the threads that the entry had at issue (R349, R351, log 98). -/
def Entry.tagIndex (e : Entry) (el : Elem) : Nat :=
  if e.mask0 = 0 ∨ e.tagCount ≤ 1 then el.k else maskIndex e.mask0 el.t

/-- The tags of an entry: those of the threads it had at issue. -/
def Entry.tagsIn (e : Entry) (m : MemOp) : Nat := m.count (if e.mask0 = 0 then e.mask else e.mask0)

/-- A piece of an access in the queue to its home. What a re-injected entry's thread must wait for was numbered afresh with it (R353); a
mark of 1, which holds nothing back, stands for marks that a save has not kept. -/
def queuePiece (u : Iss) (m : MemOp) (e : Entry) (el : Elem) (id : Nat) (off len wholeOff : Nat) (target : Target)
    (home path : Nat) (s : State) : State :=
  let wide := wideScope m.sc
  let uni := m.uniform && (m.acq || m.rel)
  let most (l : Sparse Nat) : Nat := if uni then l.foldl (fun v e => max v e.2) 0 else sgetD el.t 0 l
  let mark (l : Sparse Nat) : Nat := if m.isLoad then 0 else let v := most l; if e.replayed && decide (1 < v) then id else v
  let a : Access :=
    { id := id, who := { group := u.g, rank := u.r, entry := e.id }, core := u.x.core, ctx := u.x.ctx, part := u.c.part,
      key := u.c.key, thread := el.t, op := m.accOp el.s, ptr := el.s.a, off := off, len := len, wholeOff := wholeOff,
      wholeLen := m.bytes, target := target, tag := if m.isLoad then none else some (tagOf u.x.ctx e.tagBase (e.tagIndex el)), elem := el.k,
      acq := m.acq,
      waitAll := max (mark u.k.relAll) (if m.rel && wide then id else 0),
      waitReads := max (mark u.k.relReads) (if m.rel && !wide then id else 0),
      waitTensor := if target.isTensor then 0 else mark u.k.tcMark,
      waitTcWide := if target.isTensor then 0 else mark u.k.tcWide,
      guaranteed := u.k.plyLr && u.k.plyClean && decide (u.k.plyLen < 16), minStamp := sgetD el.t 0 u.k.acqAt,
      acqWide := m.acq && wide, home := home, path := path, fl := if e.replayed then 0 else m.fl, ord := m.ord,
      remote := m.isRemote, pc := e.pc, inOrder := m.kind == .stc, pol := m.pol,
      uni := uni, waitLoads := most u.k.acqLoads }
  enterPath s.homeq.length { s with homeq := s.homeq ++ [a] }

/-- A packet of a re-injected entry that was sent before the cut still counts (R353), on the path that it took. -/
def stillCounted (s : State) (u : Iss) (e : Entry) (el : Elem) (off : Nat) : Option Nat :=
  if e.replayed then
    (s.fab.unacked.find? fun v => v.stale && v.ctx == u.x.ctx && v.packet.tag == tagOf u.x.ctx e.tagBase (e.tagIndex el) && v.off == off).map fun v =>
      v.packet.path.toNat
  else none

/-- A remote packet is counted at issue (R133); one that was sent before the cut moves to its new path. -/
def countPiece (u : Iss) (home path : Nat) (was : Option Nat) (s : State) : State :=
  countUp u.g u.r home path (match was with
    | some p => countDown u.g u.r home p s
    | none => s)

/-- One element's accesses: local ones are made, others are queued for their homes. -/
def issueElem (u : Iss) (m : MemOp) (e : Entry) (el : Elem) (p : Place) (s : State) :
    State × List (Nat × Nat × List Byte) × Nat :=
  match p with
  | .loc region off =>
    let r := localAccess u.g m el region off s
    (r.1, r.2, 0)
  | .ctl ps =>
    let id := s.fresh
    let put (s : State) (q : Nat × Nat × Nat) : State := queuePiece u m e el id q.1 q.2.1 0 (.ctl q.2.2) s.selfPkg 0 s
    (ps.foldl put { s with fresh := id + 1 }, [], ps.length)
  | .ten home buf off =>
    let id := s.fresh
    let path := if m.isRemote && home != s.selfPkg then
        (nextPath s u.x.ctx home 1 (if e.replayed then 0 else m.fl.toNat)).1 else 0
    let put (s : State) (q : Nat × Nat) : State :=
      let s1 := queuePiece u m e el id q.1 q.2 off (.ten buf (off + q.1) none) home path s
      if m.isRemote then countPiece u home path (stillCounted s u e el q.1) s1 else s1
    let ps := granules off m.bytes
    let again (o : XsOp) : XsOp := if e.replayed && o.ctx == u.x.ctx && o.tag == tagOf u.x.ctx e.tagBase (e.tagIndex el) then
        { o with left := ps.length } else o
    let s1 := ps.foldl put { s with fresh := id + 1, fab := { s.fab with xsops := s.fab.xsops.map again } }
    (if m.isRemote && !e.replayed then launchUp u.x.launch 1 s1 else s1, [], ps.length)

/-- All elements. -/
def issueElems (u : Iss) (m : MemOp) (e : Entry) :
    List (Elem × Place) → State × List (Nat × Nat × List Byte) × Nat → State × List (Nat × Nat × List Byte) × Nat
  | [], acc => acc
  | (el, p) :: rest, (s, got, n) =>
    let r := issueElem u m e el p s
    issueElems u m e rest (r.1, got ++ r.2.1, n + r.2.2)

/-! ### Results -/

/-- The value a thread's pieces brought. -/
def gotValue (got : List (Nat × Nat × List Byte)) (t : Nat) : Nat :=
  (got.filter fun p => p.1 == t).foldl (fun a p => a + leNat p.2.2 * 2 ^ (8 * p.2.1)) 0

/-- Writing the destination (R125 to R129, R132): STC its count, SC its status, the others what they read. -/
def deliver (m : MemOp) (e : Entry) (k : Rank) : Rank :=
  match m.kind with
  | .st | .xst => k
  | .stc => if e.mask = 0 then k else writeOpnd .b64 m.d 0 (countMask e.mask) k
  | .sc => (threadsOf e.mask).foldl (fun k t => writeOpnd .b32 m.d t (gotValue e.got t) k) k
  | _ => if m.nr then k
    else if m.uniform then (threadsOf e.mask).head?.elim k fun t => writeOpnd m.ty m.d t (gotValue e.got t) k
    else (threadsOf e.mask).foldl (fun k t => writeOpnd m.ty m.d t (gotValue e.got t) k) k

def releaseTags (cid : Nat) (m : MemOp) (e : Entry) (s : State) : State :=
  if m.isLoad then s
  else (List.range (e.tagsIn m)).foldl (fun s k => releaseTag (tagOf cid e.tagBase k) s) s

/-- An entry that is done leaves the live record; its tags are released (R352). -/
def retireEntry (g r : Nat) (m : MemOp) (e : Entry) (s : State) : State :=
  match group? s g with
  | none => s
  | some x => releaseTags x.ctx m e (modRank g r (fun k => { k with live := k.live.filter fun (y : Entry) => y.id ≠ e.id }) s)

/-- The issue of placed accesses: an entry in the live record unless nothing of it is outstanding. -/
def issuePlaced (u : Iss) (m : MemOp) (e : Entry) (ps : List (Elem × Place)) (s : State) : State :=
  let r := issueElems u m e ps (s, [], 0)
  let e1 := { e with left := r.2.2, got := r.2.1 }
  if r.2.2 = 0 then modRank u.g u.r (deliver m e1) r.1
  else modRank u.g u.r (fun k => { k with live := k.live ++ [e1] }) r.1

/-- An STC whose element f.k fails the core's checks: the elements below are stored, and its trap follows when they have been performed
(R128). path is what the trap finds active. -/
def issueStop (u : Iss) (m : MemOp) (e : Entry) (path : Mask) (f : Flt) (ps : List (Elem × Place)) (s : State) : State :=
  let r := issueElems u m e ps (s, [], 0)
  let e1 := { e with state := .faulted, cause := f.cause, left := r.2.2, got := [], stop := some (path, f.cause, f.tval) }
  modRank u.g u.r (fun k => { k with live := k.live ++ [e1] }) r.1

/-- A precise fault (R124): only recoverable page faults and STC leave an entry (R341). -/
def memFault (u : Iss) (w : IWord) (m : MemOp) (e : Entry) (f : Flt) (s : State) : State :=
  let kept : Option Entry := if f.cause == 0x13 || f.cause == 0x14 || m.kind == .stc then
      some { e with state := .faulted, cause := f.cause, prog := if m.kind = .stc then f.k else 0 } else none
  takeTrap u.g u.r false f.cause u.pc f.tval kept
    (modRank u.g u.r (fun k => { k with frameWord := w }) (if kept.isSome then charged u w s else s))

/-- Whether one of the accesses is local and must wait. -/
def anyLocalHeld (s : State) (u : Iss) (m : MemOp) (ps : List (Elem × Place)) : Bool :=
  ps.any fun p => match p.2 with
    | .loc _ _ => localHeld s u m p.1.t
    | _ => false

/-- LR marks the ply (R213). -/
def noteLr (u : Iss) (m : MemOp) (s : State) : State :=
  if m.kind = .lr ∧ u.ex ≠ 0 then modRank u.g u.r (fun k => { k with plyLr := true, plyClean := true }) s else s

/-- A memory instruction (R123 to R135): capture, checks, then the accesses. -/
def memIssue (i : Instr) (m : MemOp) (s : State) : Out :=
  asRank i m.c (fun u s =>
    let w := encode i
    let n := if m.isLoad then 0 else m.count u.ex
    let tg := takeTags u.x.ctx n s
    let e := memEntry s.clk u w m s.fresh tg.2
    let pl := placeAll m u.x.ctx u.x.core u.x (elemsOf m e.mask e.slots) [] s
    match pl.2.2 with
    | some f =>
      if f.line.isSome then stallPly u.g u.r pl.1
      else if m.kind = .stc then
        let s1 := { (takeTags u.x.ctx n pl.1).1 with fresh := pl.1.fresh + 1 }
        if anyLocalHeld pl.1 u m pl.2.1 then stallPly u.g u.r pl.1
        else if pl.2.1.all fun p => p.2.isLocal then
          memFault u w m e f (issueElems u m e pl.2.1 (s1, [], 0)).1
        else
          breakPly u.g u.r .stopped (modRank u.g u.r (fun k => { k with frameWord := w })
            (issueStop u m e u.active f pl.2.1 (charged u w s1)))
      else
        let tags := if f.cause == 0x13 || f.cause == 0x14 then n else 0
        memFault u w m e f { (takeTags u.x.ctx tags pl.1).1 with fresh := pl.1.fresh + 1 }
    | none =>
      if anyLocalHeld pl.1 u m pl.2.1 then stallPly u.g u.r pl.1
      else
        let s1 := { (takeTags u.x.ctx n pl.1).1 with fresh := pl.1.fresh + 1 }
        closePass m.c false u (advancePcs u (noteLr u m (charged u w (issuePlaced u m e pl.2.1 s1))))) s

/-! ### Instructions -/

def execLd (x : LoadOp) (s : State) : Out := memIssue (.ld x) (ofLoad .ld x) s
def execSt (x : StoreOp) (s : State) : Out := memIssue (.st x) (ofStore .st x) s
def execLdu (x : LoadOp) (s : State) : Out := memIssue (.ldu x) (ofLoad .ldu x) s
def execLdx (x : LoadOp) (s : State) : Out := memIssue (.ldx x) (ofLoad .ldx x) s
def execStc (x : StoreOp) (s : State) : Out := memIssue (.stc x) (ofStore .stc x) s
def execLr (x : LoadOp) (s : State) : Out := memIssue (.lr x) (ofLoad .lr x) s
def execSc (x : StoreOp) (s : State) : Out := memIssue (.sc x) (ofStore .sc x) s
def execAtom (x : AtomOp) (s : State) : Out := memIssue (.atom x) (ofAtom .atom x) s
def execXst (x : XstOp) (s : State) : Out := memIssue (.xst x) (ofXst x) s
def execXatom (x : AtomOp) (s : State) : Out := memIssue (.xatom x) (ofAtom .xatom x) s

end Sys2Proof.Machine
end

