-- ==== Sys2Proof/Machine/Waits.lean ====
section
/-! DEFINITION. The paths of a rank (R215), named barriers (R140, R142), and what ranks and sequencers wait for and how they go on
(R137, R142, R144, R173, R212, R218). -/

set_option linter.unusedVariables false

namespace Sys2Proof.Machine

/-! ### Paths of a rank (R215) -/

/-- The standing paths of a rank: a PC and the threads that stand at it. -/
def pathsOfRank (k : Rank) : List (Long × Mask) :=
  let add (l : List Long) (t : Nat) : List Long := if l.contains (k.thread t).pc then l else l ++ [(k.thread t).pc]
  ((threadsOf k.standing).foldl add []).map fun p => (p, maskOf fun t => k.standing.getLsbD t && (k.thread t).pc == p)

/-- A path's passed-over count: that of its threads, 0 when paths with different counts have merged. -/
def pathPassed (k : Rank) (p : Long × Mask) : Nat :=
  match (threadsOf p.2).map fun t => (k.thread t).passed with
  | [] => 0
  | c :: cs => if cs.all (· == c) then c else 0

/-- Whether path a is chosen before path b: passed over 64 times, longest first; then more threads; then the lower PC. -/
def pathBefore (passed : Long × Mask → Nat) (a b : Long × Mask) : Bool :=
  let la := decide (Config.pathLimit ≤ passed a)
  let lb := decide (Config.pathLimit ≤ passed b)
  if la != lb then la
  else if la then decide (passed b < passed a) || (passed a == passed b && decide (a.1.toNat < b.1.toNat))
  else decide (countMask b.2 < countMask a.2) || (countMask a.2 == countMask b.2 && decide (a.1.toNat < b.1.toNat))

/-- A parked TCFG.wait or TREL.wait. -/
def tileWait (e : Entry) : Bool :=
  let opc := (e.word.extractLsb' 88 8).toNat
  e.state == .parkedWait && !e.waits && (opc == 0xC4 || opc == 0xC5)

/-- The path of the next ply (R215). -/
def choosePath (k : Rank) : Option (Long × Mask) :=
  (pathsOfRank k).foldl (fun (best : Option (Long × Mask)) p => match best with
    | none => some p
    | some b => some (if pathBefore (pathPassed k) p b then p else b)) none

/-- The address a rank would issue from next: that of the TCFG.wait or TREL.wait at which it is parked, or its next path's. -/
def nextPc (k : Rank) : Long := match k.live.find? tileWait, choosePath k with
  | some e, _ => e.pc
  | none, some p => p.1
  | none, none => match threadsOf (~~~k.exitedMask) with
    | t :: _ => (k.thread t).pc
    | [] => 0

/-! ### Waits -/

/-- A load, LR or returning atomic of one of the threads has not returned (FENCE.acq). -/
def loadsOpen (k : Rank) (m : Mask) : Bool := k.live.any fun e =>
  e.state == .issued && (e.mask &&& m) != 0 && match (entryInstr e.word).bind memOp with
    | some o => o.isLoad || (o.isAtomic && !o.nr)
    | none => false

/-- Every access of the threads has been performed at the scope (FENCE.sc). -/
def threadsDrained (s : State) (x : Group) (g : Nat) (k : Rank) (m : Mask) (wide : Bool) : Bool :=
  (threadsOf m).all fun t => if wide then drainedWide s x.core g k.idx t s.fresh else drainedCore s g k.idx t s.fresh

/-- The tensor-space writes of the threads, and those they may have observed, are performed (FENCE.tc). -/
def tensorDrained (s : State) (x : Group) (g : Nat) (k : Rank) (m : Mask) (wide : Bool) : Bool :=
  (threadsOf m).all fun t => drainedTensor s x.core g k.idx t s.fresh (if wide then s.fresh else 0)

/-- The rank's outstanding counters read zero (FENCE.ack). -/
def acksZero (k : Rank) : Bool := k.counters.isEmpty

/-- Room in an engine (R147). -/
def engineRoom (s : State) (e : EngineId) : Bool :=
  decide ((s.cmds.filter fun c => c.2.engine == e).length < match e with
    | .coll _ => 16
    | _ => 64)

def waitOver (s : State) (x : Group) (g : Nat) (k : Rank) : Bool :=
  match k.waitFor with
  | .none => true
  | .regs l => !(l.any fun n => (owedRegs k).contains n)
  | .line n => !k.away.contains n
  | .record => decide (k.live.length < Config.recordLimit)
  | .tag n bufs => tagFree s x.ctx n bufs
  | .replay => !replayOpen k
  | .loads m => !loadsOpen k m
  | .drained m wide => !loadsOpen k m && threadsDrained s x g k m wide
  | .tensor m wide => tensorDrained s x g k m wide
  | .acks => acksZero k
  | .room e => engineRoom s e
  | .stopped => false

/-! ### Named barriers -/

def Bar.zero : Bar := { byteMode := false, target := 0, count := 0, phase := 0 }

/-- b0 to b95 are the group's own, b96 to b127 its team's (R140). -/
def barGet (s : State) (x : Group) (b : Nat) : Bar :=
  if b < 96 then sgetD b Bar.zero x.bars
  else ((sget x.team s.teams).map fun t => sgetD (b - 96) Bar.zero t.bars).getD Bar.zero

def barSet (g b : Nat) (v : Bar) (s : State) : State :=
  match group? s g with
  | none => s
  | some x =>
    if b < 96 then modGroup g (fun x => { x with bars := sput Bar.zero b v x.bars }) s
    else { s with teams := smod x.team (fun t => { t with bars := sput Bar.zero (b - 96) v t.bars }) s.teams }

/-- Adding to a barrier (R142): one add may complete several phases. -/
def Bar.add (v : Bar) (n : Nat) : Bar :=
  if v.target = 0 then v
  else
    let sum := v.count.toNat + n
    { v with count := BitVec.ofNat 32 (sum % v.target.toNat), phase := v.phase + BitVec.ofNat 32 (sum / v.target.toNat) }

/-- Phase p is done when (PHASE − p) mod 2^32 lies between 1 and 2^31 (R142). -/
def Bar.isDone (v : Bar) (p : Word) : Bool :=
  let d := (v.phase - p).toNat
  decide (1 ≤ d) && decide (d ≤ 2 ^ 31)

/-! ### Going on -/

/-- An acquire wider than .core: later loads of the threads take no older L1 copies (R273). -/
def Rank.acquireWide (k : Rank) (m : Mask) (stamp : Nat) : Rank :=
  { k with acqAt := (threadsOf m).foldl (fun a t => sput 0 t stamp a) k.acqAt }

def Rank.acquire (k : Rank) (sc : Scope) (m : Mask) (stamp : Nat) : Rank :=
  { (if wideScope sc then k.acquireWide m stamp else k) with acqLoads := (threadsOf m).foldl (fun a t => sput 0 t stamp a) k.acqLoads }

/-- The value a parked wait has captured. -/
def waitValue (e : Entry) : Long := (sgetD 0 Slot.zero e.slots).a

/-- A parked BAR.wait, BAR.sync or TL.wait whose condition holds: the rank with its destination written; none while it does not, or
for a parked TCFG.wait or TREL.wait. -/
def passWait (s : State) (x : Group) (k : Rank) (e : Entry) : Option Rank :=
  let bar (b : Opnd) (sc : Scope) : Option Rank :=
    match b with
    | .b n => if (barGet s x n.toNat).isDone ((waitValue e).setWidth 32) then some (k.acquire sc (BitVec.allOnes 32) s.fresh) else none
    | _ => none
  match entryInstr e.word with
  | some (.barWait _ sc a _ _) => bar a sc
  | some (.barSync _ sc a _) => bar a sc
  | some (.tlWait _ sc tl d _ _) =>
    let v := timeline s x.ctx (tlIndex tl)
    if (waitValue e).toNat % 2 ^ 63 ≤ v.value then
      some ((threadsOf e.mask).foldl (fun k t => writeOpnd .b32 d t (if v.err then 1 else 0) k) (k.acquire sc (BitVec.allOnes 32) s.fresh))
    else none
  | _ => none

/-! ### TCFG and TREL -/

/-- A local pointer. -/
def localPtr (region off : Nat) : Long := BitVec.ofNat 64 (2 ^ 63 + region * 2 ^ 32 + off)

def rangesMeet (a b : Nat × Nat) : Bool := decide (a.1 < b.1 + b.2) && decide (b.1 < a.1 + a.2) && a.2 != 0 && b.2 != 0

def overlapsOther (x : Group) (t : Nat) (h : Handle) : Bool :=
  x.handles.any fun e => e.1 != t && hCfg e.2 &&
    (rangesMeet (planeSpan h) (planeSpan e.2) || rangesMeet (planeSpan h) (scaleSpan e.2) ||
     rangesMeet (scaleSpan h) (planeSpan e.2) || rangesMeet (scaleSpan h) (scaleSpan e.2))

/-- What stands in the way of a TCFG or TREL, other than the busy check. -/
def tcfgBad (x : Group) (t : Nat) (v : Long) (scaleOff : Nat) : Option (BitVec 16 × Long) :=
  let n := v.toNat
  let h := handleRecord (bits n 0 8) (bits n 16 12) (bits n 28 12) (bits n 40 20) scaleOff
  if bits n 60 4 ≠ 0 ∨ bits n 8 8 ≠ 0 ∨ !fmtOk (bits n 0 8) ∨ bits n 16 12 = 0 ∨ bits n 28 12 = 0 ∨ bits n 40 20 % 4 ≠ 0 ∨
      (fmtScale (bits n 0 8) = 0 ∧ scaleOff ≠ 0) ∨ overlapsOther x t h then some (0x20, v)
  else if x.planeBytes < (planeSpan h).1 + (planeSpan h).2 then some (0x12, localPtr 1 (max (planeSpan h).1 x.planeBytes))
  else if fmtScale (bits n 0 8) ≠ 0 ∧ x.planeBytes < (scaleSpan h).1 + (scaleSpan h).2 then
    some (0x12, localPtr 1 (max (scaleSpan h).1 x.planeBytes))
  else none

/-- R162: the ranges are zeroed and the record is written. -/
def tcfgDo (g t : Nat) (v : Long) (scaleOff : Nat) (s : State) : State :=
  let n := v.toNat
  let h := handleRecord (bits n 0 8) (bits n 16 12) (bits n 28 12) (bits n 40 20) scaleOff
  modGroup g (fun x =>
    let p := zeroRange x.plane (planeSpan h).1 (planeSpan h).2
    { x with plane := zeroRange p (scaleSpan h).1 (scaleSpan h).2, handles := sput 0 t h x.handles }) s

def trelDo (g t : Nat) (s : State) : State := modGroup g (fun x => { x with handles := sput 0 t 0 x.handles }) s

def tileBusy (x : Group) (t : Nat) : Bool := hCfg (handleOf x t) && hInuse (handleOf x t) != 0

/-- A captured TCFG or TREL against the group's present state: a trap, busy, or its effect (R162, R163, R225). -/
inductive TileStep where
  | trap (cause : BitVec 16) (tval : Long)
  | busy
  | done (s : State)

def tileStep (g : Nat) (x : Group) (i : Instr) (v : Long) (s : State) : TileStep :=
  match i with
  | .tcfg _ _ d _ so =>
    match d with
    | .t n =>
      match tcfgBad x n.toNat v so.toNat with
      | some b => .trap b.1 b.2
      | none => if tileBusy x n.toNat then .busy else .done (tcfgDo g n.toNat v so.toNat s)
    | _ => .done s
  | .trel _ _ a =>
    match a with
    | .t n =>
      if !hCfg (handleOf x n.toNat) then .trap 0x21 (BitVec.ofNat 64 n.toNat)
      else if tileBusy x n.toNat then .busy else .done (trelDo g n.toNat s)
    | _ => .done s
  | _ => .done s

/-- The handle a parked wait names. -/
def waitTile (e : Entry) : Option Nat :=
  if !tileWait e then none
  else match entryInstr e.word with
    | some (.tcfg _ _ (.t n) _ _) => some n.toNat
    | some (.trel _ _ (.t n)) => some n.toNat
    | _ => none

/-- The waits parked on a handle, in the order in which they parked. -/
def tileWaiters (x : Group) (t : Nat) : List (Nat × Entry) :=
  let all : List (Nat × Entry) := x.ranks.flatMap fun k => (k.live.filter fun e => waitTile e == some t).map fun e => (k.idx, e)
  sortBy (fun a b => decide (a.2.id ≤ b.2.id)) all

/-- A TCFG.wait or TREL.wait is performed when the in-use count reads 0 and it is the first of those parked on its handle (R224, R225). -/
def tileFree (x : Group) (k : Rank) (e : Entry) : Bool :=
  match waitTile e with
  | some t => !tileBusy x t && (tileWaiters x t).head? == some (k.idx, e)
  | none => false

/-- A parked rank goes on when its wait is over. -/
def unparkRank (s : State) (x : Group) (k : Rank) : Rank :=
  if k.st = .waitBarrier ∨ k.st = .waitTimeline then
    match k.live.find? fun (e : Entry) => e.state == .parkedWait && !e.waits with
    | none => k
    | some e =>
      match passWait s x k e with
      | some k1 => { k1 with live := k1.live.filter fun (y : Entry) => y.id ≠ e.id, st := .ready, readyAt := s.clk, starve := 0 }
      | none => k
  else k

/-- A sequencer parked at MWAIT goes on past it (R173). -/
def unparkSeq (s : State) (x : Group) : Seq :=
  if x.seq.st = .parked ∧ (barGet s x x.seq.waitBar).isDone x.seq.waitPhase then
    { x.seq with st := .running, mpc := ptrAdd x.seq.mpc 12 }
  else x.seq

/-- Ranks that wait for an operand become ready when what they wait for has come (R212), parked ranks and sequencers go on when their
waits are over. -/
def wakeRanks (s : State) : State :=
  let up (e : Nat × Group) (k : Rank) : Rank :=
    if k.st = .waitOperand ∧ waitOver s e.2 e.1 k then { k with st := .ready, waitFor := .none, readyAt := s.clk, starve := 0 } else k
  let go (e : Nat × Group) : Nat × Group :=
    if e.2.frozen then e
    else (e.1, { e.2 with ranks := e.2.ranks.map fun k => unparkRank s e.2 (up e k), seq := unparkSeq s e.2 })
  { s with groups := s.groups.map go }

/-- A parked TCFG.wait or TREL.wait whose handle is free: its group, rank and entry. -/
def freeWait (s : State) : Option (Nat × Group × Nat × Entry) :=
  (s.groups.filter fun e => !e.2.frozen).findSome? fun e =>
    (e.2.ranks.filter fun k => k.st == .waitTimeline).findSome? fun k =>
      (k.live.find? fun y => tileFree e.2 k y).map fun y => (e.1, e.2, k.idx, y)

/-- It is performed: checked again, with the value it captured; what stands at the word goes on after it (R225). -/
def performWait (g : Nat) (x : Group) (r : Nat) (e : Entry) (s0 : State) : State :=
  let s := modRank g r (fun k => { k with live := k.live.filter fun (y : Entry) => y.id ≠ e.id }) s0
  let past (k : Rank) : Rank :=
    let there (t : Nat) : Bool := k.standing.getLsbD t && (k.thread t).pc == e.pc
    { k with st := .ready, readyAt := s.clk, starve := 0,
             threads := (List.range k.threads.length).map fun t => if there t then { k.thread t with pc := ptrAdd e.pc 12 } else k.thread t }
  match (entryInstr e.word).map fun i => tileStep g x i (waitValue e) s with
  | some (.trap c v) => takeTrap g r false c e.pc v none (modRank g r (fun k => { k with frameWord := e.word }) s)
  | some (.done s1) => modRank g r past s1
  | some .busy | none => s

/-- Those whose handles are free are performed one at a time, in the order in which they parked. -/
def performWaits : Nat → State → State
  | 0, s => s
  | n + 1, s =>
    match freeWait s with
    | none => s
    | some (g, x, r, e) => performWaits n (performWait g x r e s)

def performTiles (s : State) : State := performWaits (s.groups.map fun e => (e.2.ranks.map fun k => (k.live.filter tileWait).length).sum).sum s

/-! ### Arrivals (R142, R145) -/

/-- The arrival's release holds: what the rank's threads have done before it is performed at the scope, and FENCE.rel and FENCE.tc marks
hold nothing back. -/
def arrivalReady (s : State) (core g : Nat) (k : Rank) (sc : Scope) (mark : Nat) : Bool :=
  (List.range 32).all fun t =>
    (if wideScope sc then drainedWide s core g k.idx t mark else drainedCore s g k.idx t mark) && marksDone s core g k.idx k t

/-- What an arrival does: its barrier, its scope, its destination, and whether its rank then waits. -/
structure Arrival where
  bar : Nat
  sc : Scope
  d : Option Opnd
  waits : Bool

def arrivalOf (w : IWord) : Option Arrival :=
  let at' (o : Opnd) : Nat := match o with
    | .b n => n.toNat
    | _ => 0
  match entryInstr w with
  | some (.barArv _ sc d a _) => some { bar := at' a, sc := sc, d := some d, waits := false }
  | some (.barAdd _ sc a _ _) => some { bar := at' a, sc := sc, d := none, waits := false }
  | some (.barSync _ sc a _) => some { bar := at' a, sc := sc, d := none, waits := true }
  | _ => none

/-- An arrival's D gets the phase p, in every thread of its entry or in the one uniform place. -/
def Rank.phased (a : Arrival) (e : Entry) (p : Word) (k : Rank) : Rank :=
  match a.d, threadsOf e.mask with
  | some d, t :: _ => if d.isUniform then writeOpnd .b32 d t p.toNat k
    else (threadsOf e.mask).foldl (fun k t => writeOpnd .b32 d t p.toNat k) k
  | _, _ => k

/-- The rank when its arrival e in phase p is answered (R142): D gets the phase, and the entry goes; of BAR.sync the entry waits for it. -/
def Rank.arrived (a : Arrival) (e : Entry) (p : Word) (k : Rank) : Rank :=
  let after (y : Entry) : List Entry :=
    if y.id ≠ e.id then [y]
    else if a.waits then [{ y with state := .parkedWait, cls := .n, slots := sput Slot.zero 0 { Slot.zero with a := p.setWidth 64 } [] }]
    else []
  { k.phased a e p with live := (k.phased a e p).live.flatMap after }

/-- An arrival of amount n that is performed and answered in the step of its word (R142): D gets the phase before it (log 78). -/
def arriveAt (g r : Nat) (a : Arrival) (n : Nat) (e : Entry) (s : State) : State :=
  match group? s g with
  | none => s
  | some x =>
    let v := barGet s x a.bar
    barSet g a.bar (v.add n) (modRank g r (Rank.arrived a e v.phase) s)

/-- The phase that the barrier's core has recorded for an arrival's tag (R145, R352). -/
def recordedPhase (s : State) (x : Group) (a : Arrival) (e : Entry) : Option Word :=
  (findTag s s.selfPkg (tagOf x.ctx e.tagBase 0) (barTarget x.core a.bar)).map fun bs => BitVec.ofNat 32 (leNat bs)

/-- An arrival of the live record is performed at the barrier's core, which retains its tag with the phase; one whose tag it holds, a
replay, is not performed again. Its answer is on its way. -/
def arriveTagged (g r : Nat) (a : Arrival) (n : Nat) (e : Entry) (s : State) : State :=
  match group? s g with
  | none => s
  | some x =>
    let v := barGet s x a.bar
    let s1 := if (recordedPhase s x a e).isSome then s
      else keepTag s.selfPkg (tagOf x.ctx e.tagBase 0) (barTarget x.core a.bar) (leBytes v.phase.toNat 4) (barSet g a.bar (v.add n) s)
    { s1 with respq := s1.respq ++ [{ group := g, rank := r, entry := e.id }] }

/-- An arrival's answer reaches its rank: D is written with the recorded phase, and the tag is released. -/
def arrivalAnswer (g r : Nat) (e : Entry) (s : State) : State :=
  match group? s g, arrivalOf e.word with
  | some x, some a => match recordedPhase s x a e with
    | some p => releaseTag (tagOf x.ctx e.tagBase 0) (modRank g r (Rank.arrived a e p) s)
    | none => s
  | _, _ => s

/-- An arrival of the live record that is not on its way back. -/
def arrivalToGo (s : State) (g r : Nat) (e : Entry) : Bool :=
  isArrival e && !s.respq.any fun w => w.group == g && w.rank == r && w.entry == e.id

/-- The oldest arrival of a rank whose release holds. -/
def arrivalDue (s : State) : Option (Nat × Nat × Arrival × Entry) :=
  s.groups.findSome? fun e => if e.2.frozen then none else e.2.ranks.findSome? fun k =>
    match k.live.find? (arrivalToGo s e.1 k.idx) with
    | none => none
    | some y => match arrivalOf y.word with
      | some a => if !y.waits && arrivalReady s e.2.core e.1 k a.sc y.id then some (e.1, k.idx, a, y) else none
      | none => none

/-- Arrivals whose releases hold are made. -/
def arrivals : Nat → State → State
  | 0, s => s
  | n + 1, s => match arrivalDue s with
    | some (g, r, a, e) => arrivals n (arriveTagged g r a (waitValue e).toNat e s)
    | none => s

/-- Arrivals are made and waits end. Events that can end a wait end with this. -/
def wake (s : State) : State :=
  let open_ := (s.groups.map fun e => (e.2.ranks.map fun k => (k.live.filter isArrival).length).sum).sum
  wakeRanks (arrivals open_ s)

/-- Amount n is added to barrier b of group g (R142). -/
def barAdd (g b n : Nat) (s : State) : State :=
  match group? s g with
  | none => s
  | some x => wake (barSet g b ((barGet s x b).add n) s)

end Sys2Proof.Machine
end

