-- ==== Sys2Proof/Machine/Home.lean ====
section
/-! DEFINITION. Accesses at their homes (R264 to R273, R129, R132, R270, R290), what becomes of their results (R124, R126, R347,
R352), and the sending of remote operations (R133 to R136, R320). -/

set_option linter.unusedVariables false

namespace Sys2Proof.Machine

/-! ### Results -/

/-- What a home answers. -/
inductive Outcome where
  | value (bs : List Byte)
  | bad (cause : BitVec 16) (tval : Long)
  deriving DecidableEq, Repr, Inhabited

/-- The status of a fault record (R347), and of an operation that ends with the cause. -/
def causeStatus (cause : BitVec 16) : BitVec 16 :=
  if cause = 0x15 ∨ cause = 0x16 ∨ cause = 0x17 then 0x0002
  else if cause = 0x13 ∨ cause = 0x14 then 0x0003
  else if cause = 0x1A then 0x0004
  else if cause = 0x18 ∨ cause = 0x19 then 0x0009
  else if cause = 0x28 then 0x000B
  else 0

/-- An entry after one of its pieces is answered: of failing pieces the lowest thread's counts, and of these the lower piece (R124). -/
def Entry.answered (e : Entry) (t off : Nat) (o : Outcome) : Entry :=
  match o with
  | .value bs => { e with left := e.left - 1, got := e.got ++ [(t, off, bs)] }
  | .bad c p => { e with left := e.left - 1, bad := match e.bad with
      | none => some (t, off, c, p)
      | some b => if b.1 < t ∨ (b.1 = t ∧ b.2.1 ≤ off) then some b else some (t, off, c, p) }

/-- A fault record where no thread of the rank remains (R124, R347): nothing recovers the fault, and the launch has an error (R204). -/
def postFault (x : Group) (pc : Long) (cause : BitVec 16) (tval : Long) (s : State) : State :=
  let r : Record := { source := 0, status := causeStatus cause, cmdaddr := pc, counta := cause.toNat, countb := tval.toNat, launch := x.launchid }
  launchFaulted x.launch (setSticky x.ctx (postCtx x.ctx r s))

/-- The entry of an instruction some of whose accesses failed (R124). -/
def failEntry (g r : Nat) (x : Group) (k : Rank) (e : Entry) (cause : BitVec 16) (tval : Long) (s : State) : State :=
  if k.allExited then
    let s1 := match (entryInstr e.word).bind memOp with
      | some m => retireEntry g r m e s
      | none => s
    settleGroup g (postFault x e.pc cause tval s1)
  else
    let e1 := { e with state := .faulted, cause := cause, status := causeStatus cause }
    modRank g r (fun k => { k with
      live := k.live.map fun (y : Entry) => if y.id = e.id then e1 else y
      imprecise := k.imprecise ++ [{ cause := cause, tval := tval, pc := e.pc, entry := some e1 }] }) s

/-- The elements of an STC below the one that failed the core's checks are performed: its trap is taken, with the count of leading
elements that are performed (R128). -/
def stopTrap (g r : Nat) (e : Entry) (p : Mask × BitVec 16 × Long) (s : State) : State :=
  takeTrap g r false p.2.1 e.pc p.2.2 (some { e with stop := none, got := [] })
    (modRank g r (fun k => { k with live := k.live.filter fun (y : Entry) => y.id ≠ e.id, active := p.1, frameWord := e.word }) s)

/-- All pieces of an entry are answered: posted entries go, others respond, failed ones fault. -/
def settleEntry (who : Issuer) (s : State) : State :=
  match group? s who.group, rank? s who.group who.rank with
  | some x, some k =>
    match k.live.find? fun (e : Entry) => e.id == who.entry with
    | none => s
    | some e =>
      if e.left ≠ 0 then s
      else
        match e.bad, e.stop with
        | some b, _ =>
          let k1 := if e.stop.isSome then { k.unstop with st := .ready, waitFor := .none } else k
          failEntry who.group who.rank x k1 { e with stop := none } b.2.2.1 b.2.2.2 (modRank who.group who.rank (fun _ => k1) s)
        | none, some p => stopTrap who.group who.rank e p s
        | none, none =>
          if isPostedWord e.word then
            match (entryInstr e.word).bind memOp with
            | some m => freeGroup who.group (retireEntry who.group who.rank m e s)
            | none => s
          else { s with respq := s.respq ++ [who] }
  | _, _ => s

/-- A piece is answered. -/
def reportTo (who : Issuer) (t off : Nat) (o : Outcome) (s : State) : State :=
  if who.entry = 0 then s
  else settleEntry who (modRank who.group who.rank (fun k => { k with
    live := k.live.map fun (y : Entry) => if y.id = who.entry then y.answered t off o else y }) s)

/-- A result reaches the rank: the destination is written, the tags are released and the entry goes (R126, R352). A barrier arrival's is
the recorded phase (R145). -/
def respond (who : Issuer) (s : State) : State :=
  match rank? s who.group who.rank with
  | none => s
  | some k =>
    match k.live.find? fun (e : Entry) => e.id == who.entry with
    | none => s
    | some e =>
      match (entryInstr e.word).bind memOp with
      | none => arrivalAnswer who.group who.rank e s
      | some m => freeGroup who.group (retireEntry who.group who.rank m e (modRank who.group who.rank (deliver m e) s))

def execLoadResponse (k : Nat) (s : State) : Out := held s <|
  match s.respq[k]? with
  | none => idle s
  | some who => .next (wake (respond who { s with respq := dropAt s.respq k }))

/-! ### Numbering on tl.xs (R135, R136) -/

/-- The operation of a tag is numbered when the fabric interface accepts its first packet. -/
def xsOpen (ctx : Nat) (tag : BitVec 32) (pieces : Nat) (pc : Long) (x : Group) (s : State) : State :=
  if s.fab.xsops.any fun o => o.ctx == ctx && o.tag == tag then s
  else
    let r := takeNumber ctx 4 s
    let o : XsOp := { ctx := ctx, tag := tag, number := r.2, left := pieces, status := 0, pc := pc, launch := x.launch,
                      launchid := x.launchid }
    { r.1 with fab := { r.1.fab with xsops := r.1.fab.xsops ++ [o] } }

/-- A packet of a numbered operation is acknowledged; with the last the number completes. A lost home and a refused landing are
reported by a record (R136, R319); what the home port refuses is reported as a fault (R290). -/
def xsDone (ctx : Nat) (tag : BitVec 32) (status : BitVec 16) (s : State) : State :=
  match s.fab.xsops.find? fun o => o.ctx == ctx && o.tag == tag with
  | none => s
  | some o =>
    let o1 := { o with left := o.left - 1, status := if o.status = 0 then status else o.status }
    let rest := s.fab.xsops.filter fun (y : XsOp) => !(y.ctx == ctx && y.tag == tag)
    if o1.left ≠ 0 then { s with fab := { s.fab with xsops := rest ++ [o1] } }
    else
      let bad := o1.status != 0
      let s1 := advance ctx 4 o.number bad { s with fab := { s.fab with xsops := rest } }
      let s2 := if o1.status = 0x0004 ∨ o1.status = 0x0005 then
          postCtx ctx { source := 5, status := o1.status, cmdaddr := o.pc, tlval := BitVec.ofNat 64 (o.number % 2 ^ 63 + 2 ^ 63),
                        tlcode := 0x84, launch := o.launchid } (setSticky ctx s1)
        else s1
      launchDown o.launch o1.status s2

/-! ### Sending on the tensor plane (R315, R319 to R321) -/

/-- What a tensor-plane request carries. -/
structure Send where
  kind : BitVec 8
  dst : Nat
  ctx : Nat
  key : BitVec 12
  part : Nat
  label : Nat
  ord : Bool
  addr : Long
  tag : BitVec 32
  opinfo : BitVec 8
  ty : Ty
  len : Nat
  data : List Byte
  owner : RemoteOwner
  number : Nat
  launch : Nat
  pc : Long
  off : Nat
  access : Nat
  acqWide : Bool := false
  uni : Bool := false
  /-- the packet's sequence among those of its context to the destination, when it is sent again (R353) -/
  dseqWas : Option Word
  whole : Option (Long × Nat) := none

/-- A request takes its flowlet's path and numbers and leaves; the source keeps it until it is acknowledged. The path it took. -/
def sendTensor (m : Send) (s : State) : State × Nat :=
  let p : Packet := stamped
    { Packet.empty with
      dst := BitVec.ofNat 12 m.dst, sctx := BitVec.ofNat 12 m.ctx, keyid := m.key, kind := m.kind, plane := 1, ord := m.ord,
      flabel := BitVec.ofNat 2 m.label, addr := m.addr, tag := m.tag, opinfo := m.opinfo, data := m.data,
      part := BitVec.ofNat 6 m.part, ty := m.ty, len := m.len, whole := m.whole } m.dseqWas s
  let s1 := noteSent p m.dseqWas s
  let kept : Unacked := { packet := p, ctx := m.ctx, owner := m.owner, number := m.number, posted := false, launch := m.launch,
                          pc := m.pc, retryAt := none, off := m.off, access := m.access, stale := false, acked := none, acqWide := m.acqWide,
                          uni := m.uni }
  (out p { s1 with fab := { s1.fab with unacked := s1.fab.unacked ++ [kept] } }, p.path.toNat)

/-- OPINFO of an atomic (R315): operation and ordering. -/
def atomInfo (op : AtomFn) (acq rel : Bool) : BitVec 8 :=
  BitVec.ofNat 8 (op.code.toNat + (if acq then 16 else 0) + (if rel then 32 else 0))

/-- The request packet of an access to another home. -/
def requestOf (a : Access) (returning : Bool) (addr : Long) (dseqWas : Option Word) (g : Option Group) : Send :=
  let base : Send :=
    { kind := 0x01, dst := a.home, ctx := a.ctx, key := a.key, part := a.part, label := a.fl.toNat, ord := a.ord, addr := addr,
      tag := a.tag.getD 0, opinfo := 0, ty := .b8, len := a.len, data := [],
      owner := .entry a.who.group a.who.rank a.who.entry a.thread, number := 0, launch := (g.map (·.launch)).getD 0, pc := a.pc,
      off := a.off, access := a.id, acqWide := a.acqWide, uni := a.uni, dseqWas := dseqWas, whole := if a.remote then some (a.ptr, a.wholeLen) else none }
  match a.op with
  | .write bs => { base with data := (bs.drop a.off).take a.len }
  | .atom op ty b c => { base with kind := if returning then 0x02 else 0x03, opinfo := atomInfo op a.acq (a.waitAll ≠ 0),
                                   ty := ty, data := leBytes b.toNat 8 ++ leBytes c.toNat 8 }
  | _ => base

/-! ### A home's work -/

/-- The copy that a full L1 gives up: one that came under .stream first, one under .keep last (R33, R126); of these the oldest (R5; log 97). -/
def firstOut (l : List L1Copy) : Option L1Copy :=
  match l.find? fun c => c.pol == 1 with
  | some c => some c
  | none => match l.find? fun c => c.pol != 2 with
    | some c => some c
    | none => l.head?

/-- Refresh the core's copy (R265): what other contexts hold of the sector there goes, so that no load of the core goes back, and so does
another sector where the L1 is full. The copy's age is its number. -/
def refresh (core cid : Nat) (pol : BitVec 2) (dpa : Nat) (s : State) : State :=
  let rest := s.l1.filter fun (c : L1Copy) => !(c.core == core && c.sector == dpa / 128)
  let mine := rest.filter fun c => c.core == core
  let kept := match firstOut mine with
    | some c => if Config.l1Sectors ≤ mine.length then rest.erase c else rest
    | none => rest
  { s with l1 := kept ++ [{ core := core, ctx := cid, sector := dpa / 128, stamp := s.fresh, data := homeRead s (dpa / 128 * 128) 128,
                            pol := pol }]
           fresh := s.fresh + 1 }

/-- A thread reads a granule: what is not performed everywhere yet of the writes there keeps it (R273), so that its releases wait for them. -/
def noteReader (a : Access) (dpa : Nat) (s : State) : State :=
  let v : ReadMark := { group := a.who.group, rank := a.who.rank, thread := a.thread, launch := ((group? s a.who.group).map (·.launch)).getD 0,
                         access := a.id }
  let path (b : Access) : Access := if pathStore s a b then { b with readers := v :: b.readers } else b
  { s with homeq := s.homeq.map path
           mirrorq := s.mirrorq.map fun w => if w.granule = granuleOf dpa then { w with readers := v :: w.readers } else w }

/-- A load's value: at the home, or from a copy that R265 and R273 allow where the free choice takes it. -/
def loadValue (a : Access) (dpa : Nat) (s : State) : State × List Byte :=
  let fits (c : L1Copy) : Bool := c.core == a.core && c.ctx == a.ctx && c.sector == dpa / 128 && decide (a.minStamp ≤ c.stamp)
  match s.l1.find? fits with
  | some c =>
    if Config.takeCopy s.free then ({ s with free := s.free + 1 }, (c.data.drop (dpa % 128)).take a.len)
    else (refresh a.core a.ctx a.pol dpa { s with free := s.free + 1 }, homeRead s dpa a.len)
  | none => (refresh a.core a.ctx a.pol dpa s, homeRead s dpa a.len)

def reserved (s : State) (a : Access) (dpa : Nat) : Bool :=
  s.resv.any fun v => v.group == a.who.group && v.rank == a.who.rank && v.thread == a.thread && v.granule == granuleOf dpa

def dropReservation (a : Access) (s : State) : State :=
  { s with resv := s.resv.filter fun (v : Reservation) => !(v.group == a.who.group && v.rank == a.who.rank && v.thread == a.thread) }

def noteTarget (a : Access) (s : State) : State :=
  match a.target with
  | .ten buf off _ => noteWritten a.part buf off s
  | .ctl _ => s

/-- The piece is performed. An LR whose ply has ended without an SC of its thread leaves no reservation. The value is its recorded result (R129, R132, R270). -/
def perform (a : Access) (dpa : Nat) (s : State) : State × List Byte :=
  let w : Writer := { core := if a.remote then none else some a.core, ctx := a.ctx, launch := (group? s a.who.group).map (·.launch) }
  let me : Option (Nat × Nat × Nat) := some (a.who.group, a.who.rank, a.thread)
  let tag := a.tag.getD 0
  match a.op with
  | .read => loadValue a dpa s
  | .prefetch => (refresh a.core a.ctx a.pol dpa s, [])
  | .lr =>
    let s1 := dropReservation a s
    let v : Reservation := { group := a.who.group, rank := a.who.rank, thread := a.thread, granule := granuleOf dpa,
                             holdUntil := s.clk + 256 }
    let open_ := a.who.entry ≠ 0 ∧ (((rank? s a.who.group a.who.rank).any fun k => k.plyLr) || scOnWay s v)
    (refresh a.core a.ctx a.pol dpa (if open_ then { s1 with resv := s1.resv ++ [v] } else s1), homeRead s dpa a.len)
  | .write bs => (noteTarget a (homeWrite w me (some (tag, [])) dpa ((bs.drop a.off).take a.len) s), [])
  | .atom op ty b c =>
    let old := homeRead s dpa a.len
    let new := leBytes (atomNew op ty (leNat old) (b.toNat % 2 ^ Ty.bits ty) c.toNat) a.len
    (noteTarget a (homeWrite w me (some (tag, old)) dpa new s), old)
  | .sc bs =>
    let ok := reserved s a dpa && (a.guaranteed || !Config.scFails s.free)
    let free := if reserved s a dpa && !a.guaranteed then s.free + 1 else s.free
    let s1 := dropReservation a { s with free := free }
    if ok then (noteTarget a (homeWrite w me (some (tag, [0])) dpa (bs.take a.len) s1), [0])
    else (mirrorSend s.tabs.self dpa [] (some (tag, [1])) { s1 with resv := s1.resv.filter fun (v : Reservation) => v.granule ≠ granuleOf dpa }, [1])

/-- STC's progress (R128): elements are performed in ascending order. A failing element ends the others. -/
def stcProgress (a : Access) (o : Outcome) (s : State) : State :=
  let same (b : Access) : Bool := b.who == a.who
  let isStc := match rank? s a.who.group a.who.rank with
    | some k => k.live.any fun (e : Entry) => e.id == a.who.entry && e.word.extractLsb' 88 8 == 0x94
    | none => false
  if !isStc || a.who.entry == 0 then s
  else
    match o with
    | .value _ => if s.homeq.any fun b => same b && b.elem == a.elem then s
      else modRank a.who.group a.who.rank (fun k => { k with
        live := k.live.map fun (y : Entry) => if y.id = a.who.entry then { y with prog := a.elem + 1 } else y }) s
    | .bad _ _ =>
      modRank a.who.group a.who.rank (fun k => { k with
        live := k.live.map fun (y : Entry) => if y.id = a.who.entry then { y with left := 1, prog := a.elem } else y })
        { s with homeq := s.homeq.filter fun b => !same b }

/-- An acquiring access of a thread, numbered id, has taken its value: the thread's later loads take none from copies older than mark
(R273). DEDUCED (log 111): one made once for the rank acquires for all its threads (R30, R259). -/
def acquireAt (g r t id mark : Nat) (s : State) : State :=
  let later (b : Access) : Bool := ofThread g r t b && decide (id < b.id)
  { (modRank g r (fun k => { k with acqAt := sput 0 t mark k.acqAt }) s) with
    homeq := s.homeq.map fun b => if later b then { b with minStamp := max b.minStamp mark } else b }

def acquireFor (g r : Nat) (ts : List Nat) (id mark : Nat) (s : State) : State := ts.foldl (fun s t => acquireAt g r t id mark s) s

def acquired (a : Access) (mark : Nat) (s : State) : State :=
  if a.acqWide then acquireFor a.who.group a.who.rank a.threads a.id mark s else s

/-- Launches whose completion the writes that these readers read may have held back (R203). -/
def settleReaders (l : List ReadMark) (s : State) : State := (l.map (·.launch)).eraseDups.foldl (fun s n => settleLaunch n s) s

/-- A piece has its outcome at a home of this package. -/
def finishPiece (a : Access) (o : Outcome) (s : State) : State :=
  let s1 := reportTo a.who a.thread a.off o (stcProgress a o s)
  let s2 := if a.remote && a.who.entry != 0 then
      xsDone a.ctx (a.tag.getD 0) (match o with
        | .value _ => 0
        | .bad c _ => causeStatus c) (countDown a.who.group a.who.rank s.selfPkg a.path s1)
    else s1
  settleReaders a.readers (trafficEnds a.who.group s2)

/-- The pieces of one access. -/
def piecesOf (a : Access) : Nat := (granules a.wholeOff a.wholeLen).length

/-- A remote access leaves through the fabric interface, or ends at once when its home is lost or cannot be reached (R136, R303,
R307). A packet sent again keeps its sequence (R353). -/
def sendAccess (a : Access) (s : State) : State :=
  let live := a.who.entry != 0
  let x := group? s a.who.group
  let mineStale (u : Unacked) : Bool := u.stale && u.ctx == a.ctx && u.packet.tag == a.tag.getD 0 && u.off == a.off
  let was := (s.fab.unacked.find? mineStale).map (·.packet.dseq)
  let returning := match rank? s a.who.group a.who.rank with
    | some k => k.live.any fun (e : Entry) => e.id == a.who.entry && !isPostedWord e.word
    | none => false
  let s1 := match x with
    | some x => if live then xsOpen a.ctx (a.tag.getD 0) (piecesOf a) a.pc x s else s
    | none => s
  let s2 := { s1 with fab := { s1.fab with unacked := s1.fab.unacked.filter fun u => !mineStale u } }
  if !routeValid s a.home || pkgLost s a.home then
    let o : Outcome := if returning then .bad 0x1A (ptrAdd a.ptr a.off) else .value []
    xsDone a.ctx (a.tag.getD 0) 0x0004 (countDown a.who.group a.who.rank a.home a.path (reportTo a.who a.thread a.off o s2))
  else
    let r := sendTensor (requestOf a returning (ptrAdd a.ptr a.off) was x) s2
    if r.2 = a.path then r.1
    else countUp a.who.group a.who.rank a.home r.2 (countDown a.who.group a.who.rank a.home a.path r.1)

/-- A control atomic to a line of another home travels to that home (R327); the packet carries the line's address (log 24). -/
def sendCtlAtomic (a : Access) (dpa : Nat) (s : State) : State :=
  let returning := match rank? s a.who.group a.who.rank with
    | some k => k.live.any fun (e : Entry) => e.id == a.who.entry && !isPostedWord e.word
    | none => false
  (sendTensor (requestOf { a with home := homeOf s dpa } returning (BitVec.ofNat 64 dpa) none (group? s a.who.group)) s).1

/-- The fabric interface has accepted a remote operation of this package toward its own home (R135). -/
def openHere (a : Access) (s : State) : State :=
  match group? s a.who.group with
  | some x => if a.remote && a.who.entry != 0 && (findTag s s.selfPkg (a.tag.getD 0) (a.granule s)).isNone then
      xsOpen a.ctx (a.tag.getD 0) (piecesOf a) a.pc x s else s
  | none => s

def isStcEntry (s : State) (who : Issuer) : Bool :=
  (rank? s who.group who.rank).any fun k => k.live.any fun (e : Entry) => e.id == who.entry && e.word.extractLsb' 88 8 == 0x94

/-- A whole access fails: each of its pieces is reported with the failing piece's outcome (R124, R290). -/
def failAccess (a : Access) (o : Outcome) (off : Nat) (s : State) : State :=
  let all := s.homeq.filter fun (b : Access) => b.id == a.id
  let s1 := { s with homeq := s.homeq.filter fun (b : Access) => b.id != a.id }
  if isStcEntry s a.who then finishPiece { a with off := off } o s1
  else all.foldl (fun s b => finishPiece { b with off := off } o (openHere b s)) s1

/-- An admitted piece at the device address of its home: what its line lacks is asked for, a retained tag answers it, or it is performed
(R270, R327, R328, R352). -/
def performAt (k : Nat) (a : Access) (dpa : Nat) (s : State) : State :=
  let gone := openHere a { s with homeq := dropAt s.homeq k }
  if a.op.isAtom && !homedHere s dpa then
    if pkgLost s (homeOf s dpa) || regionMoving s dpa || buffersLack s 1 then s else sendCtlAtomic a dpa { s with homeq := dropAt s.homeq k }
  else if tagMiss s a.ctx dpa then askLine (giveLine (dpa / 512) s) dpa a.isWrite
  else if !lineReady s dpa a.isWrite then askLine s dpa a.isWrite
  else
    match if a.tag.isSome then findTag s s.selfPkg (a.tag.getD 0) (a.granule s) else none with
    | some result =>
      if mirrorPending s s.selfPkg (a.tag.getD 0) (a.granule s) then
        joinMirror s.selfPkg (a.tag.getD 0) (a.granule s) (fun m => { m with
          owner := .entry a.who.group a.who.rank a.who.entry a.thread, off := a.off, access := a.id }) (acquired a s.fresh gone)
      else finishPiece a (.value result) (acquired a s.fresh gone)
    | none =>
      if a.tag.isSome && sliceFullAt s (a.granule s) then s
      else
      let r := perform a dpa (claimLine a.ctx dpa (if a.op.takesValue then noteReader a dpa gone else gone))
      let s0 := acquired a s.fresh r.1
      let s1 := match a.tag with
        | some t => keepTag s.selfPkg t (a.granule s) r.2 s0
        | none => s0
      if a.isWrite && homedHere s dpa && (mirrorOf s dpa).isSome && r.1.fresh != gone.fresh then
        { s1 with mirrorq := s1.mirrorq ++ [{ tag := gone.fresh, owner := .entry a.who.group a.who.rank a.who.entry a.thread,
                                              off := a.off, access := a.id, result := r.2, mirror := (mirrorOf s dpa).getD 0,
                                              guards := a.tag.map fun t => (s.selfPkg, t, a.granule s),
                                              granule := granuleOf dpa, readers := a.readers }] }
      else finishPiece a (.value r.2) s1

/-- The k-th queued piece reaches its home. A load sees the core's write path first (R264). -/
def requestHome (k : Nat) (a : Access) (s : State) : State :=
  if a.remote && a.home != s.selfPkg then sendAccess a { s with homeq := dropAt s.homeq k }
  else
    let gone := openHere a { s with homeq := dropAt s.homeq k }
    match resolve s a with
    | (_, .lacks d) => askLine s d false
    | (_, .discard) => finishPiece a (.value []) gone
    | (_, .bad c p) => finishPiece a (.bad c p) gone
    | (_, .badAll c p off) => failAccess a (.bad c p) off s
    | (s1, .ok dpa) =>
      if a.op.isPlain then performAt k a dpa s1
      else match seenInPath s1 a dpa, a.op with
        | .nothing, _ | _, .prefetch | _, .atom _ _ _ _ | _, .sc _ => performAt k a dpa s1
        | .bytes bs, .read => finishPiece a (.value bs) (acquired a s.fresh (noteReader a dpa { s1 with homeq := dropAt s1.homeq k }))
        | _, _ => s1

/-- The accesses of a kind that the home port has admitted, with their device addresses, are performed in queue order (R291, R293). -/
def performAdmitted (kind : Access → Bool) : Nat → State → State
  | 0, s => s
  | n + 1, s =>
    let admitted (a : Access) : Bool := kind a && match a.target with
      | .ten _ _ (some _) => a.home == s.selfPkg
      | _ => false
    match (List.range s.homeq.length).find? fun k => (s.homeq[k]?).any admitted with
    | none => s
    | some k =>
      match s.homeq[k]? with
      | none => s
      | some a =>
        match (resolve s a).2 with
        | .ok dpa => performAdmitted kind n (performAt k a dpa s)
        | .bad c p => performAdmitted kind n (finishPiece a (.bad c p) (openHere a { s with homeq := dropAt s.homeq k }))
        | _ => s

/-- Another thread's reservation holds the write off (R129), but for the SC of a thread that holds a reservation itself (log 9). -/
def heldOff (s : State) (a : Access) : Bool :=
  a.isWrite && match accessDpa s a with
    | some dpa => !(a.op.isSc && reserved s a dpa) && s.resv.any fun v => v.granule == granuleOf dpa && decide (s.clk < v.holdUntil) &&
        !(v.group == a.who.group && v.rank == a.who.rank && v.thread == a.thread)
    | none => false

def execHomeRequest (k : Nat) (s : State) : Out := held s <|
  match s.homeq[k]? with
  | none => idle s
  | some b =>
    let s1 := enterPath k s
    match s1.homeq[k]? with
    | some a =>
      if mayGo s1 k a && !heldOff s1 a then .next (wake (requestHome k a s1))
      else if a.inPath != b.inPath then .next (wake s1)
      else idle s
    | none => idle s

/-- A queued write to a granule. -/
def writesGranule (s : State) (gran : Nat) (a : Access) : Bool :=
  a.isWrite && ((accessDpa s a).any fun d => granuleOf d == gran)

/-- The conflicting writes that may go are performed, in queue order (R129). -/
def performHeld (gran : Nat) : Nat → State → State
  | 0, s => s
  | n + 1, s =>
    let ready (k : Nat) : Bool := match s.homeq[k]? with
      | some a => writesGranule s gran a && mayGo s k a && !heldOff s a
      | none => false
    match (List.range s.homeq.length).find? ready with
    | none => s
    | some k => match s.homeq[k]? with
      | some a => performHeld gran n (requestHome k a s)
      | none => s

/-- The SC of a reservation's thread may be performed now. -/
def scMayGo (s : State) (v : Reservation) : Bool := (List.range s.homeq.length).any fun k => match s.homeq[k]? with
  | some a => a.op.isSc && a.who.group == v.group && a.who.rank == v.rank && a.thread == v.thread && mayGo s k a
  | none => false

/-- A reservation of a granule whose hold has run out while another's write waits for it, and whose own SC is not about to be
performed. -/
def expiredHold (granule : Nat) (s : State) : Option Reservation :=
  s.resv.find? fun v => v.granule == granule && decide (v.holdUntil ≤ s.clk) && !scMayGo s v && s.homeq.any fun a => writesGranule s v.granule a &&
    !(v.group == a.who.group && v.rank == a.who.rank && v.thread == a.thread)

/-- When the hold of 256 cycles has run out, the conflicting writes are performed and the reservation is cleared (R129). -/
def execConflictingWriteHoldExpiry (granule : Nat) (s : State) : Out := held s <|
  match expiredHold granule s with
  | none => idle s
  | some v => .next (wake (performHeld v.granule s.homeq.length
      { s with resv := s.resv.filter fun (y : Reservation) => !(y == v) }))

/-! ### Imprecise faults -/

/-- R124: taken at a ply boundary; TPC is where the path that issued the instruction stands, and a stage-2 fault's record has the
instruction's own address (R346). -/
def takeImprecise (g r : Nat) (k : Rank) (f : Imprecise) (s : State) : State :=
  let pc := match f.entry with
    | some e => match threadsOf (e.mask &&& ~~~k.exitedMask) with
      | t :: _ => (k.thread t).pc
      | [] => nextPc k
    | none => nextPc k
  takeTrapOf g r true f.cause f.pc pc f.tval f.entry (modRank g r (fun k => { k with imprecise := k.imprecise.drop 1 }) s)

/-- A fault of a rank whose threads have all exited: a command's goes to the lowest rank of the group that has not, or ends the command
with status 0x0003 (R153); any other is posted as a record (R124, R347). -/
def exitedFault (g r : Nat) (x : Group) (f : Imprecise) (s : State) : State :=
  let cmd := f.entry.bind fun e => (sget e.id s.cmds).map fun _ => e
  match cmd with
  | some e =>
    let s1 := modRank g r (fun k => { k with live := k.live.filter fun (y : Entry) => y.id ≠ e.id }) s
    match lowestRank x with
    | some q => modRank g q (fun k => { k with live := k.live ++ [e], imprecise := k.imprecise ++ [f] }) s1
    | none => settleGroup g { s1 with cmds := smod e.id (fun c => { c with st := .running, status := if c.status = 0 then 0x0003 else c.status }) s1.cmds }
  | none => settleGroup g (postFault x f.pc f.cause f.tval s)

def execImpreciseFaultTaken (g r : Nat) (s : State) : Out := held s <|
  match group? s g, rank? s g r with
  | some x, some k =>
    if x.frozen || k.st == .issuing || (openWord k).isSome then idle s
    else
      match k.imprecise with
      | f :: _ =>
        if k.allExited then
          .next (exitedFault g r x f (modRank g r (fun k => { k with imprecise := k.imprecise.drop 1 }) s))
        else .next (takeImprecise g r k f s)
      | [] =>
        match x.seqFault with
        | some pc => if lowestRank x = some r then
            .next (takeTrap g r true 0x28 (nextPc k) pc none (modGroup g (fun x => { x with seqFault := none }) s))
          else idle s
        | none => idle s
  | _, _ => idle s

end Sys2Proof.Machine
end

