-- ==== Sys2Proof/Machine/Sync.lean ====
section
/-! DEFINITION. Fences and cache control (R137 to R139, R276), named barriers (R140 to R142), timelines (R143, R144). -/

set_option linter.unusedVariables false

namespace Sys2Proof.Machine

/-! ### Fences -/

/-- A break at an instruction that waits. -/
def waitHere (u : Iss) (why : WaitFor) (s : State) : State := breakPly u.g u.r why s

def Rank.markAll (f : Sparse Nat) (m : Mask) (stamp : Nat) : Sparse Nat := (threadsOf m).foldl (fun a t => sput 0 t stamp a) f

/-- Later writes of the threads wait for the accesses before (R137 .rel). -/
def Rank.release (k : Rank) (sc : Scope) (m : Mask) (stamp : Nat) : Rank :=
  if wideScope sc then { k with relAll := Rank.markAll k.relAll m stamp } else { k with relReads := Rank.markAll k.relReads m stamp }

/-- .acq: earlier loads have returned. -/
def execFenceAcq (c : Ctl) (sc : Scope) (s : State) : Out :=
  asRank (.fenceAcq c sc) c (fun u s =>
    if loadsOpen u.k u.ex then waitHere u (.loads u.ex) s
    else finish c (encode (.fenceAcq c sc)) u (modRank u.g u.r (fun k => k.acquire sc u.ex s.fresh) s)) s

/-- A fence that is satisfied goes on, and one that is not breaks the ply: the rank does not issue past it (R137, R212; log 76). -/
def fenceHere (i : Instr) (c : Ctl) (u : Iss) (ok : Bool) (why : WaitFor) (mark : State → State) (s : State) : State :=
  if ok then finish c (encode i) u (mark s) else waitHere u why s

/-- What a fence that is not satisfied waits for, toward the threads ex (R137): none for other words. -/
def fenceWait (i : Instr) (ex : Mask) : Option WaitFor :=
  match i with
  | .fenceAcq _ _ => some (.loads ex)
  | .fenceRel _ sc | .fenceAr _ sc | .fenceSc _ sc => some (.drained ex (wideScope sc))
  | .fenceAck _ => some .acks
  | .fenceTc _ sc => some (.tensor ex (wideScope sc))
  | _ => none

/-- .rel: every earlier access of the threads is performed at the scope. -/
def execFenceRel (c : Ctl) (sc : Scope) (s : State) : Out :=
  asRank (.fenceRel c sc) c (fun u s =>
    fenceHere (.fenceRel c sc) c u (threadsDrained s u.x u.g u.k u.ex (wideScope sc)) (.drained u.ex (wideScope sc))
      (fun s => modRank u.g u.r (fun k => k.release sc u.ex s.fresh) s) s) s

/-- .ar: both. -/
def execFenceAr (c : Ctl) (sc : Scope) (s : State) : Out :=
  asRank (.fenceAr c sc) c (fun u s =>
    if loadsOpen u.k u.ex then waitHere u (.loads u.ex) s
    else fenceHere (.fenceAr c sc) c u (threadsDrained s u.x u.g u.k u.ex (wideScope sc)) (.drained u.ex (wideScope sc))
      (fun s => modRank u.g u.r (fun k => (k.acquire sc u.ex s.fresh).release sc u.ex s.fresh) s) s) s

/-- .sc: every earlier access is performed at the scope before any later one; the fences stand in the order of their steps. -/
def execFenceSc (c : Ctl) (sc : Scope) (s : State) : Out :=
  asRank (.fenceSc c sc) c (fun u s =>
    if loadsOpen u.k u.ex || !threadsDrained s u.x u.g u.k u.ex (wideScope sc) then
      waitHere u (.drained u.ex (wideScope sc)) s
    else finish c (encode (.fenceSc c sc)) u (modRank u.g u.r (fun k => k.acquire sc u.ex s.fresh) s)) s

/-- .ack: the rank's outstanding counters read zero. -/
def execFenceAck (c : Ctl) (s : State) : Out :=
  asRank (.fenceAck c) c (fun u s =>
    if u.ex ≠ 0 ∧ !acksZero u.k then waitHere u .acks s else finish c (encode (.fenceAck c)) u s) s

/-- Later control-space writes of the threads wait for the tensor writes before, at a scope wider than .core for those of the core too. -/
def Rank.tensorMark (k : Rank) (sc : Scope) (m : Mask) (stamp : Nat) : Rank :=
  let k1 := { k with tcMark := Rank.markAll k.tcMark m stamp }
  if wideScope sc then { k1 with tcWide := Rank.markAll k1.tcWide m stamp } else k1

/-- .tc (R276). What the threads have observed through waits has been performed at its home already. -/
def execFenceTc (c : Ctl) (sc : Scope) (s : State) : Out :=
  asRank (.fenceTc c sc) c (fun u s =>
    fenceHere (.fenceTc c sc) c u (tensorDrained s u.x u.g u.k u.ex (wideScope sc)) (.tensor u.ex (wideScope sc))
      (fun s => modRank u.g u.r (fun k => k.tensorMark sc u.ex s.fresh) s) s) s

/-! ### Cache control -/

inductive Flush where
  | wb | inv | wbinv
  deriving DecidableEq, Repr, Inhabited

/-- The package holds a copy of a line of another home under the context's identifier (R138, R266). -/
def holdsLine (s : State) (cid dpa : Nat) : Bool := !homedHere s dpa && (sget (dpa / 512) s.l2).any fun l => l.ctx == cid

/-- The core's copies of a 512-byte line go, and the package's copy of a line of another home, written back first (R138). -/
def dropLine (core cid dpa : Nat) (s : State) : State :=
  let s1 := { s with l1 := s.l1.filter fun (c : L1Copy) => !(c.core == core && c.ctx == cid && c.sector / 4 == dpa / 512) }
  if holdsLine s cid dpa then giveLine (dpa / 512) s1 else s1

/-- CFLUSH acts on the issuing context's copies (R138). -/
def flushLine (f : Flush) (core cid dpa : Nat) (s : State) : State :=
  match f with
  | .wb => if holdsLine s cid dpa then writeBackLine (dpa / 512) s else s
  | .inv | .wbinv => dropLine core cid dpa s

/-- Where a thread's CFLUSH acts: a line, nowhere, or a fault: precise, or imprecise from the home port. -/
inductive FlushAt where
  | line (dpa : Nat) | nothing
  | precise (cause : BitVec 16) (tval : Long)
  | imprecise (cause : BitVec 16) (tval : Long)
  | lacks (dpa : Nat)
  deriving DecidableEq, Repr, Inhabited

def flushAt (u : Iss) (p : Long) (s : State) : State × FlushAt :=
  if !ptrOk p then (s, .precise 0x10 p)
  else
    match ptrSpace p with
    | .loc | .invalid => (s, .nothing)
    | .tensor =>
      if ptrHome p ≠ s.selfPkg then (s, .nothing)
      else
        match portResolve s { pkg := s.selfPkg, ctx := u.x.ctx, key := u.c.key, part := u.c.part } (ptrBuf p) (ptrOff p) 1 .rd with
        | .ok dpa => (s, .line dpa)
        | .stage2 gpa => (s, .imprecise 0x14 (BitVec.ofNat 64 gpa))
        | .lacks d => (s, .lacks d)
        | a => (s, .imprecise a.cause p)
    | .control =>
      match translate (some u.x.core) u.x.ctx (ptrOff p) .rd s with
      | (s1, .ok dpa) => (s1, .line dpa)
      | (s1, .stage1) => (s1, .precise 0x13 p)
      | (s1, .stage2 gpa) => (s1, .precise 0x14 (BitVec.ofNat 64 gpa))
      | (s1, .lacks d) => (s1, .lacks d)

/-- The threads' places in ascending order. -/
def flushPlaces (u : Iss) (slots : Sparse Slot) (s : State) : State × List (Nat × FlushAt) :=
  (threadsOf u.ex).foldl (fun acc t =>
    let r := flushAt u (sgetD t Slot.zero slots).a acc.1
    (r.1, acc.2 ++ [(t, r.2)])) (s, [])

def firstPrecise : List (Nat × FlushAt) → Option (BitVec 16 × Long)
  | [] => none
  | (_, .precise c v) :: _ => some (c, v)
  | _ :: l => firstPrecise l

def firstLack : List (Nat × FlushAt) → Option Nat
  | [] => none
  | (_, .lacks d) :: _ => some d
  | _ :: l => firstLack l

def firstImprecise : List (Nat × FlushAt) → Option (BitVec 16 × Long)
  | [] => none
  | (_, .imprecise c v) :: _ => some (c, v)
  | _ :: l => firstImprecise l

/-- An entry of class N for an instruction whose page fault is to be tried again (R341, R345). -/
def pageEntry (u : Iss) (w : IWord) (slots : Sparse Slot) (id : Nat) : Entry :=
  { word := w, state := .issued, cls := .n, drop := false, zeroed := 0, unif := false, pc := u.pc, mask := u.ex, tagBase := 0,
    prog := 0, status := 0, cause := 0, block := [], slots := slots, id := id, left := 0, got := [], bad := none, replayed := false }

/-- The lines of the threads are flushed; failures at the home port raise one imprecise fault (R124). -/
def flushAll (f : Flush) (u : Iss) (e : Entry) (ps : List (Nat × FlushAt)) (s : State) : State :=
  let s1 := ps.foldl (fun s p => match p.2 with
    | .line dpa => flushLine f u.x.core u.x.ctx dpa s
    | _ => s) s
  match firstImprecise ps with
  | none => s1
  | some (c, v) =>
    let e1 := { e with state := .faulted, cause := c, status := causeStatus c }
    modRank u.g u.r (fun k => { k with live := k.live ++ [e1],
                                       imprecise := k.imprecise ++ [{ cause := c, tval := v, pc := e.pc, entry := some e1 }] }) s1

def pointerSlots (clk : Nat) (u : Iss) (a : Opnd) (disp : Word) : Sparse Slot :=
  (threadsOf u.ex).foldl (fun m t => sput Slot.zero t
    { Slot.zero with a := ptrAdd (BitVec.ofNat 64 (readOpnd clk u .b64 0 a t)) disp.toInt } m) []

/-- CFLUSH (R138): precise faults first, then every thread's line. -/
def cflush (f : Flush) (i : Instr) (c : Ctl) (a : Opnd) (disp : Word) (s : State) : Out :=
  asRank i c (fun u s =>
    let w := encode i
    let slots := pointerSlots s.clk u a disp
    let e := pageEntry u w slots s.fresh
    let ps := flushPlaces u slots { s with fresh := s.fresh + 1 }
    match firstLack ps.2, firstPrecise ps.2 with
    | some d, _ => stallPly u.g u.r (askLine ps.1 d false)
    | none, some (cause, v) =>
      let page := decide (cause = 0x13 ∨ cause = 0x14)
      takeTrap u.g u.r false cause u.pc v (if page then some { e with state := .faulted, cause := cause } else none)
        (modRank u.g u.r (fun k => { k with frameWord := w }) (if page then charged u w ps.1 else ps.1))
    | none, none => finish c w u (flushAll f u e ps.2 ps.1)) s

def execCflushWb (c : Ctl) (a : Opnd) (disp : Word) (s : State) : Out := cflush .wb (.cflushWb c a disp) c a disp s
def execCflushInv (c : Ctl) (a : Opnd) (disp : Word) (s : State) : Out := cflush .inv (.cflushInv c a disp) c a disp s
def execCflushWbinv (c : Ctl) (a : Opnd) (disp : Word) (s : State) : Out := cflush .wbinv (.cflushWbinv c a disp) c a disp s

/-- A prefetch's way to its home: nobody waits for it. -/
def prefetchPiece (u : Iss) (pol : BitVec 2) (t : Nat) (p : Long) (target : Target) (s : State) : State :=
  let a : Access :=
    { id := s.fresh, who := { group := u.g, rank := u.r, entry := 0 }, core := u.x.core, ctx := u.x.ctx, part := u.c.part,
      key := u.c.key, thread := t, op := .prefetch, ptr := p, off := 0, len := 1, wholeOff := ptrOff p, wholeLen := 1,
      target := target, tag := none, elem := 0, acq := false, waitAll := 0, waitReads := 0, waitTensor := 0, guaranteed := false,
      minStamp := 0, acqWide := false, home := s.selfPkg, path := 0, fl := 0, ord := false, remote := false, pc := u.pc,
      inOrder := false, pol := pol }
  { s with homeq := s.homeq ++ [a], fresh := s.fresh + 1 }

/-- PREF (R139): one that would fault is dropped. -/
def prefetch (u : Iss) (pol : BitVec 2) (slots : Sparse Slot) (s : State) : State :=
  (threadsOf u.ex).foldl (fun s t =>
    let p := (sgetD t Slot.zero slots).a
    match flushAt u p s with
    | (s1, .line dpa) =>
      prefetchPiece u pol t p (if ptrSpace p = .tensor then .ten (ptrBuf p) (ptrOff p) none else .ctl dpa) s1
    | (s1, _) => s1) s

def execPref (c : Ctl) (pol : BitVec 2) (a : Opnd) (disp : Word) (s : State) : Out :=
  asRank (.pref c pol a disp) c (fun u s =>
    finish c (encode (.pref c pol a disp)) u (prefetch u pol (pointerSlots s.clk u a disp) s)) s

/-! ### Barriers -/

def barIdx : Opnd → Nat
  | .b n => n.toNat
  | _ => 0

/-- The common frame of the barrier forms but .cfg: rank scope (R30), and the barrier is configured (R142). -/
def barForm (i : Instr) (c : Ctl) (a : Opnd) (effect : Iss → Bar → State → State) (s : State) : Out :=
  asRank i c (fun u s =>
    if u.ex = 0 then finish c (encode i) u s
    else
      let v := barGet s u.x (barIdx a)
      if v.target = 0 then trapAt u (encode i) 0x23 (BitVec.ofNat 64 (barIdx a)) s
      else effect u v s) s

/-- The entry of a parked wait (R145, R349). -/
def waitEntry (u : Iss) (w : IWord) (v : Long) (id : Nat) : Entry :=
  { pageEntry u w (sput Slot.zero 0 { Slot.zero with a := v } []) id with state := .parkedWait, unif := true }

/-- The rank parks with an entry: its threads stand after the word, and the entry holds the wait (log 19). -/
def parkWith (c : Ctl) (u : Iss) (w : IWord) (e : Nat → Entry) (st : RankState) (s : State) : State :=
  let s1 := passCycles u.g u.r 16 (advancePcs u (charged u w s))
  modRank u.g u.r (fun k => { k with live := k.live ++ [e s1.fresh] }) (endPly u.g u.r st { s1 with fresh := s1.fresh + 1 })

def parkRank (c : Ctl) (u : Iss) (w : IWord) (v : Long) (st : RankState) (s : State) : State := parkWith c u w (waitEntry u w v) st s

/-- The entry of an arrival of amount n (R145). -/
def arrivalEntry (u : Iss) (w : IWord) (n : Nat) (base : BitVec 20) (id : Nat) : Entry :=
  { pageEntry u w (sput Slot.zero 0 { Slot.zero with a := BitVec.ofNat 64 n } []) id with cls := .s, unif := true, tagBase := base }

/-- The rank and its group as they stand. -/
def arriveReady (s : State) (u : Iss) (sc : Scope) : Bool :=
  match group? s u.g, rank? s u.g u.r with
  | some x, some k => arrivalReady s x.core u.g k sc s.fresh
  | _, _ => false

/-- BAR.arv and BAR.add (R142): at once where the release holds; else the entry stands in the record until then (R145). -/
def arriving (i : Instr) (c : Ctl) (u : Iss) (a : Arrival) (n : Nat) (s : State) : State :=
  let tg := takeTags u.x.ctx 1 s
  let e := arrivalEntry u (encode i) n tg.2 s.fresh
  let s1 := { tg.1 with fresh := s.fresh + 1 }
  if arriveReady s u a.sc then finish c (encode i) u (wake (arriveAt u.g u.r a n e s1))
  else finish c (encode i) u (modRank u.g u.r (fun k => { k with live := k.live ++ [e] }) s1)

/-- .wait on a phase: it goes on when the phase is done, else it parks. -/
def barWaitOn (c : Ctl) (sc : Scope) (u : Iss) (w : IWord) (b : Nat) (p : Word) (s : State) : State :=
  if (barGet s ((group? s u.g).getD u.x) b).isDone p then
    finish c w u (modRank u.g u.r (fun k => k.acquire sc (BitVec.allOnes 32) s.fresh) s)
  else parkRank c u w (p.setWidth 64) .waitBarrier s

/-- A command that counts into the barrier is outstanding; barriers of a team are shared by its groups. -/
def barNamed (s : State) (g : Nat) (x : Group) (b : Nat) : Bool :=
  s.cmds.any fun e => e.2.bar == some b && (e.2.group == g || (decide (96 ≤ b) && ((group? s e.2.group).map (·.team)) == some x.team))

/-- The entry parks its rank on barrier b: a wait, or a BAR.sync whose arrival is still to be performed or answered. -/
def waitsOn (e : Entry) (b : Nat) : Bool :=
  match entryInstr e.word with
  | some (.barWait _ _ a _ _) => e.state == .parkedWait && barIdx a == b
  | some (.barSync _ _ a _) => (e.state == .parkedWait || isArrival e) && barIdx a == b
  | _ => false

/-- A rank or sequencer is parked on the barrier. -/
def barParked (s : State) (g : Nat) (x : Group) (b : Nat) : Bool :=
  s.groups.any fun e => (e.1 == g || (decide (96 ≤ b) && e.2.team == x.team)) &&
    ((e.2.ranks.any fun k => k.live.any fun y => waitsOn y b) || (e.2.seq.st == .parked && e.2.seq.waitBar == b))

/-- BAR.cfg (R142). -/
def execBarCfg (c : Ctl) (a b : Opnd) (imm : Word) (s : State) : Out :=
  asRank (.barCfg c a b imm) c (fun u s =>
    let w := encode (.barCfg c a b imm)
    let v : Word := BitVec.ofNat 32 (readOpnd s.clk u .b32 imm b 0)
    if u.ex = 0 then finish c w u s
    else if v.extractLsb' 0 31 = 0 then trapAt u w 0x01 0 s
    else if barParked s u.g u.x (barIdx a) || barNamed s u.g u.x (barIdx a) then trapAt u w 0x24 (BitVec.ofNat 64 (barIdx a)) s
    else finish c w u (barSet u.g (barIdx a)
      { byteMode := v.getLsbD 31, target := v.extractLsb' 0 31, count := 0, phase := 0 } s)) s

/-- BAR.arv (R142). -/
def execBarArv (c : Ctl) (sc : Scope) (d a : Opnd) (imm : Word) (s : State) : Out :=
  barForm (.barArv c sc d a imm) c a (fun u _ s =>
    arriving (.barArv c sc d a imm) c u { bar := barIdx a, sc := sc, d := some d, waits := false } 1 s) s

/-- BAR.add (R142). -/
def execBarAdd (c : Ctl) (sc : Scope) (a b : Opnd) (imm : Word) (s : State) : Out :=
  barForm (.barAdd c sc a b imm) c a (fun u _ s =>
    arriving (.barAdd c sc a b imm) c u { bar := barIdx a, sc := sc, d := none, waits := false } (readOpnd s.clk u .b32 imm b 0) s) s

/-- BAR.wait (R142). -/
def execBarWait (c : Ctl) (sc : Scope) (a b : Opnd) (imm : Word) (s : State) : Out :=
  barForm (.barWait c sc a b imm) c a (fun u _ s =>
    barWaitOn c sc u (encode (.barWait c sc a b imm)) (barIdx a) (BitVec.ofNat 32 (readOpnd s.clk u .b32 imm b 0)) s) s

/-- BAR.sync (R142): the arrival, then the wait on the phase it arrived in. Where the release does not hold yet, the rank parks with the
arrival. -/
def execBarSync (c : Ctl) (sc : Scope) (a : Opnd) (imm : Word) (s : State) : Out :=
  barForm (.barSync c sc a imm) c a (fun u v s =>
    let w := encode (.barSync c sc a imm)
    let tg := takeTags u.x.ctx 1 s
    if arriveReady s u sc then barWaitOn c sc u w (barIdx a) v.phase (barAdd u.g (barIdx a) 1 tg.1)
    else parkWith c u w (arrivalEntry u w 1 tg.2) .waitBarrier tg.1) s

/-- BAR.test (R142). -/
def execBarTest (c : Ctl) (sc : Scope) (d a b : Opnd) (imm : Word) (s : State) : Out :=
  barForm (.barTest c sc d a b imm) c a (fun u v s =>
    let ok := v.isDone (BitVec.ofNat 32 (readOpnd s.clk u .b32 imm b 0))
    let s1 := setD u .b32 d (fun _ => if ok then 1 else 0) s
    finish c (encode (.barTest c sc d a b imm)) u
      (if ok then modRank u.g u.r (fun k => k.acquire sc (BitVec.allOnes 32) s.fresh) s1 else s1)) s

/-! ### Timelines -/

/-- TL.wait (R144). -/
def execTlWait (c : Ctl) (sc : Scope) (tl : Tl) (d a : Opnd) (imm : Word) (s : State) : Out :=
  asRank (.tlWait c sc tl d a imm) c (fun u s =>
    let w := encode (.tlWait c sc tl d a imm)
    if u.ex = 0 then finish c w u s
    else
      let n := readOpnd s.clk u .b64 imm a 0
      let v := timeline s u.x.ctx (tlIndex tl)
      if n % 2 ^ 63 ≤ v.value then
        finish c w u (modRank u.g u.r (fun k => k.acquire sc (BitVec.allOnes 32) s.fresh)
          (setD u .b32 d (fun _ => if v.err then 1 else 0) s))
      else parkRank c u w (BitVec.ofNat 64 n) .waitTimeline s) s

/-- TL.read (R144). -/
def execTlRead (c : Ctl) (tl : Tl) (d : Opnd) (imm : Word) (s : State) : Out :=
  asRank (.tlRead c tl d imm) c (fun u s =>
    finish c (encode (.tlRead c tl d imm)) u
      (setD u .b64 d (fun _ => (timeline s u.x.ctx (tlIndex tl)).word.toNat) s)) s

end Sys2Proof.Machine
end

