-- ==== Sys2Proof/Machine/Engine.lean ====
section
/-! DEFINITION. Issue of engine commands (R147 to R149): the reading of a block, its validation (R155, R156, R158, R161, R174,
R175), room and capture. -/

set_option linter.unusedVariables false

namespace Sys2Proof.Machine

/-! ### The layout in force (R372, R374) -/

/-- The commit word (R376): STATE in bits 1:0, ACTIVE in bit 2. -/
def layoutActive (s : State) : Sparse PartRec := if s.plat.commit.getLsbD 2 then s.plat.copy1 else s.plat.copy0

def PartRec.zero : PartRec :=
  { cores := 0, qos := 0, slices := 0, pchan := 0, copyeng := 0, gatheng := 0, colleng := 0, zports := 0, pad := 0, crc := 0, tail := 0 }

def partOf (s : State) (p : Nat) : PartRec := sgetD p PartRec.zero (layoutActive s)

def ownsEngine (s : State) (part : Nat) (e : EngineId) : Bool :=
  let r := partOf s part
  match e with
  | .copy c => r.copyeng.getLsbD c
  | .gather q => r.gatheng.getLsbD q
  | .coll k => r.colleng.getLsbD k

/-! ### Reading a block -/

/-- What reading a block, packet or image gives: bytes, a precise fault, or a wait for a line or for the core's own stores. -/
inductive BlockRead where
  | bytes (bs : List Byte)
  | fault (cause : BitVec 16) (tval : Long)
  | wait
  deriving DecidableEq, Repr, Inhabited

/-- The pieces of a read, each translated, checked and ready (R148 step 2, R181). -/
def readPieces (u : Iss) (p : Long) (n : Nat) : List (Nat × Nat) → List Byte → State → State × BlockRead
  | [], got, s => (s, .bytes got)
  | (off, len) :: rest, got, s =>
    let go (s1 : State) (dpa : Nat) : State × BlockRead :=
      if rowFailed s1 dpa then (s1, .fault 0x19 (ptrAdd p off))
      else if !lineReady s1 dpa false then (askLine s1 dpa false, .wait)
      else if s1.homeq.any fun a => a.core == u.x.core && a.isWrite && !a.remote && (accessDpa s1 a).any fun d => granuleOf d == granuleOf dpa then
        (s1, .wait)
      else readPieces u p n rest (got ++ homeRead s1 dpa len) s1
    if ptrSpace p = .tensor then
      match portResolve s { pkg := s.selfPkg, ctx := u.x.ctx, key := u.c.key, part := u.c.part } (ptrBuf p) (ptrOff p + off) len .rd with
      | .ok dpa => go s dpa
      | .lacks d => (askLine s d false, .wait)
      | .stage2 gpa => (s, .fault 0x14 (BitVec.ofNat 64 gpa))
      | a => (s, .fault a.cause (ptrAdd p off))
    else
      match translate (some u.x.core) u.x.ctx (ptrOff p + off) .rd s with
      | (s1, .ok dpa) => if regionLost s1 dpa then (s1, .fault 0x1A (ptrAdd p off))
        else if layerOff s1 dpa then (s1, .fault 0x18 (ptrAdd p off)) else go s1 dpa
      | (s1, .lacks d) => (askLine s1 d false, .wait)
      | (s1, .stage1) => (s1, .fault 0x13 (ptrAdd p off))
      | (s1, .stage2 gpa) => (s1, .fault 0x14 (BitVec.ofNat 64 gpa))

/-- A block of n bytes at p (R148 step 2): control, own-home tensor or scratchpad; any other space is a space fault. -/
def readBlock (u : Iss) (p : Long) (n align : Nat) (s : State) : State × BlockRead :=
  if p.toNat % align ≠ 0 then (s, .fault 0x11 p)
  else if !ptrOk p || ptrOff p + n > 2 ^ (ptrSpace p).width then (s, .fault 0x10 p)
  else
    match ptrSpace p with
    | .invalid => (s, .fault 0x10 p)
    | .loc =>
      if ptrRegion p ≠ 0 then (s, .fault 0x10 p)
      else if u.x.scratchBytes < ptrOff p + n then (s, .fault 0x12 p)
      else (s, .bytes (readBytes ((group? s u.g).getD u.x).scratch (ptrOff p) n))
    | .tensor => if ptrHome p ≠ s.selfPkg then (s, .fault 0x10 p) else readPieces u p n (granules (ptrOff p) n) [] s
    | .control => readPieces u p n (granules (ptrOff p) n) [] s

/-! ### Validation (R148 step 3) -/

/-- Places a pointer field may name. -/
inductive Zone where
  | ctl | tenAny | tenOwn | scratch | plane | window
  deriving DecidableEq, Repr, Inhabited

def anywhere : List Zone := [.ctl, .tenAny, .scratch]
def recZones : List Zone := [.ctl, .tenOwn, .scratch]

/-- Well formed, in an allowed place, and extent bytes from it stay inside the offset field. -/
def ptrIn (self : Nat) (zs : List Zone) (p : Nat) (extent : Nat) : Bool :=
  let q : Long := BitVec.ofNat 64 p
  ptrOk q && decide (ptrOff q + extent ≤ 2 ^ (ptrSpace q).width) &&
  match ptrSpace q with
  | .control => zs.contains .ctl
  | .tensor => zs.contains .tenAny || (zs.contains .tenOwn && ptrHome q == self)
  | .loc => match ptrRegion q with
    | 0 => zs.contains .scratch
    | 1 => zs.contains .plane
    | _ => zs.contains .window
  | .invalid => false

/-- A completion record pointer: 0, or a multiple of 64 in its places. -/
def crecOk (self p : Nat) : Bool := p == 0 || (p % 64 == 0 && ptrIn self recZones p 64)

def firstFail (l : List (Nat × Bool)) : Option Nat := minList ((l.filter fun e => !e.2).map (·.1))

def zeroBytes (bs : List Byte) (off n : Nat) : Bool := field bs off n == 0

def copyChecks (self : Nat) (b : List Byte) : List (Nat × Bool) :=
  let rb := field b 32 4
  let rows := field b 36 4
  let span (stride : Nat) : Nat := if rb = 0 ∨ rows = 0 then 1 else (rows - 1) * stride + rb
  [(0, ptrIn self [.ctl, .tenAny, .scratch, .plane, .window] (field b 0 8) (span (field b 16 8))),
   (8, ptrIn self [.ctl, .tenAny, .scratch, .plane] (field b 8 8) (span (field b 24 8))),
   (32, rb != 0), (36, rows != 0), (40, crecOk self (field b 40 8)), (52, zeroBytes b 52 12)]

/-- Bytes that 32 n elements of a format take in memory. -/
def kbBytes (fmt n : Nat) : Nat := 4 * fmtElemBits fmt * n

def copyPlChecks (self : Nat) (h : Handle) (b : List Byte) : List (Nat × Bool) :=
  let sf := field b 48 1
  let rf := hFmt h
  let conv := field b 49 1
  let rows := field b 28 4
  let kbs := field b 36 4
  let same := sf == rf
  let st := fmtTy sf
  let fits := fmtOk sf && (same || ((st == .f32 || st == .bf16 || st == .f16) && !fmtIsInt rf) || (st == .f32 && fmtIsInt rf))
  let isDx := ((fmtBlock rf).map Block.isDx).getD false
  let dist := bits conv 4 4
  let convOk := bits conv 2 2 == 0 && (!same || conv == 0) && (!bit conv 1 || (fmtBlock rf).isSome) &&
    ((isDx && !same && dist != 0) || (!(isDx && !same) && dist == 0))
  let span := if rows = 0 ∨ kbs = 0 then 1 else (rows - 1) * field b 8 8 + kbBytes sf kbs
  let sc := if same then fmtScale sf else 0
  [(0, ptrIn self anywhere (field b 0 8) (if fits then span else 1)),
   (16, if !fits then field b 16 8 == 0 || ptrIn self anywhere (field b 16 8) 1
     else if sc = 0 then field b 16 8 == 0 else ptrIn self anywhere (field b 16 8) (max 1 (rows * kbs * sc))),
   (28, rows != 0 && decide (field b 24 4 + rows ≤ hRows h)), (36, kbs != 0 && decide (field b 32 4 + kbs ≤ hKbs h)),
   (40, crecOk self (field b 40 8)), (48, fits), (49, convOk), (50, zeroBytes b 50 2), (56, zeroBytes b 56 8)]

/-- Types of GATHER and SCADD rows: .f32 or .bf16. -/
def rowTypeOk (c : Nat) : Bool := c == 13 || c == 11
def rowTypeBytes (c : Nat) : Nat := if c = 11 then 2 else 4

namespace Gs
def table (b : List Byte) : Long := BitVec.ofNat 64 (field b 0 8)
def trows (b : List Byte) : Nat := field b 8 8
def tstride (b : List Byte) : Nat := field b 16 4
def cols (b : List Byte) : Nat := field b 20 4
def index (b : List Byte) : Long := BitVec.ofNat 64 (field b 24 8)
def nidx (b : List Byte) : Nat := field b 32 4
def nbag (b : List Byte) : Nat := field b 36 4
def offsets (b : List Byte) : Long := BitVec.ofNat 64 (field b 40 8)
def data (b : List Byte) : Long := BitVec.ofNat 64 (field b 48 8)
def dstride (b : List Byte) : Nat := field b 56 4
def ctrl (b : List Byte) : Nat := field b 60 4
def mode (b : List Byte) : Nat := bits (ctrl b) 0 2
def policy (b : List Byte) : Nat := bits (ctrl b) 2 2
def idxBytes (b : List Byte) : Nat := if bit (ctrl b) 4 then 8 else 4
def ttype (b : List Byte) : Nat := bits (ctrl b) 5 5
def dtype (b : List Byte) : Nat := bits (ctrl b) 10 5
/-- Data rows: one per position, or one per bag. -/
def rows (b : List Byte) : Nat := if mode b = 0 then nidx b else nbag b
end Gs

def gatherChecks (self : Nat) (scadd : Bool) (b : List Byte) : List (Nat × Bool) :=
  let es := rowTypeBytes (Gs.ttype b)
  let ds := rowTypeBytes (Gs.dtype b)
  let perRow := Gs.mode b == 0
  [(0, ptrIn self [.tenAny] (field b 0 8) ((max 1 (Gs.trows b) - 1) * Gs.tstride b + Gs.cols b * es) &&
       (!scadd || ptrOff (Gs.table b) % es == 0)),
   (8, decide (1 ≤ Gs.trows b ∧ Gs.trows b ≤ 2 ^ 38)),
   (16, decide (Gs.cols b * es ≤ Gs.tstride b) && (!scadd || Gs.tstride b % es == 0)),
   (20, decide (1 ≤ Gs.cols b ∧ Gs.cols b ≤ 65536)),
   (24, ptrIn self anywhere (field b 24 8) (Gs.nidx b * Gs.idxBytes b)), (32, Gs.nidx b != 0),
   (36, if perRow then Gs.nbag b == 0 else decide (1 ≤ Gs.nbag b ∧ Gs.nbag b ≤ Gs.nidx b)),
   (40, if perRow then field b 40 8 == 0 else ptrIn self anywhere (field b 40 8) (4 * Gs.nbag b)),
   (48, ptrIn self anywhere (field b 48 8) ((max 1 (Gs.rows b) - 1) * Gs.dstride b + Gs.cols b * ds)),
   (60, bits (Gs.ctrl b) 15 17 == 0 && rowTypeOk (Gs.ttype b) && rowTypeOk (Gs.dtype b) && !(scadd && Gs.mode b == 3)),
   (64, crecOk self (field b 64 8)), (76, zeroBytes b 76 20)]

namespace Srt
def keys (b : List Byte) : Long := BitVec.ofNat 64 (field b 0 8)
def vals (b : List Byte) : Long := BitVec.ofNat 64 (field b 8 8)
def okeys (b : List Byte) : Long := BitVec.ofNat 64 (field b 16 8)
def ovals (b : List Byte) : Long := BitVec.ofNat 64 (field b 24 8)
def segtab (b : List Byte) : Long := BitVec.ofNat 64 (field b 32 8)
def n (b : List Byte) : Nat := field b 40 4
def segs (b : List Byte) : Nat := field b 44 4
def digits (b : List Byte) : Nat := bits (field b 56 4) 0 2 + 1
end Srt

/-- Overlap by pointer: same space and buffer or region (R161). -/
def ptrOverlap (p q : Long) (n : Nat) : Bool :=
  p.toNat - ptrOff p == q.toNat - ptrOff q && decide (ptrOff p < ptrOff q + n) && decide (ptrOff q < ptrOff p + n)

def sortChecks (self : Nat) (b : List Byte) : List (Nat × Bool) :=
  let ext := 4 * max 1 (Srt.n b)
  let inZone (off : Nat) : Bool := ptrIn self anywhere (field b off 8) ext
  let hasVals := field b 8 8 != 0
  let clear (o : Long) : Bool := !ptrOverlap o (Srt.keys b) (4 * Srt.n b) && !(hasVals && ptrOverlap o (Srt.vals b) (4 * Srt.n b))
  let hasSeg := field b 32 8 != 0
  [(0, inZone 0), (8, !hasVals || inZone 8), (16, inZone 16 && clear (Srt.okeys b)),
   (24, (field b 24 8 != 0) == hasVals && (!hasVals || (inZone 24 && clear (Srt.ovals b)))),
   (32, !hasSeg || ptrIn self anywhere (field b 32 8) (4 * (Srt.segs b + 1))), (40, Srt.n b != 0),
   (44, if hasSeg then decide (1 ≤ Srt.segs b ∧ Srt.segs b ≤ 65536) else Srt.segs b == 0),
   (48, crecOk self (field b 48 8)), (56, bits (field b 56 4) 2 30 == 0)]

namespace Cl
def spos (b : List Byte) : Long := BitVec.ofNat 64 (field b 0 8)
def dpos (b : List Byte) : Long := BitVec.ofNat 64 (field b 8 8)
def members (b : List Byte) : Long := BitVec.ofNat 64 (field b 16 8)
def dim (b : List Byte) (d : Nat) : Nat := field b (24 + 4 * d) 4
def axis (b : List Byte) (a : Nat) : Nat := field b (40 + 2 * a) 2
def ctrl (b : List Byte) : Nat := field b 72 4
def ty (b : List Byte) : Ty := Ty.ofCode (BitVec.ofNat 5 (ctrl b))
def op (b : List Byte) : Nat := bits (ctrl b) 5 3
def ndims (b : List Byte) : Nat := bits (ctrl b) 8 2 + 1
def naxes (b : List Byte) : Nat := bits (ctrl b) 10 2 + 1
def noinc (b : List Byte) : Bool := bit (ctrl b) 12
def collid (b : List Byte) : Nat := field b 76 4
/-- Positions of the mesh. -/
def size (b : List Byte) : Nat := axis b 0 * axis b 1 * axis b 2 * axis b 3
end Cl

/-- One axis of a layout (R175). -/
structure Axis where
  role : Nat
  dim : Nat
  ord : Nat
  deriving DecidableEq, Repr, Inhabited

def layoutAxis (b : List Byte) (off a : Nat) : Axis :=
  let v := field b (off + a) 1
  { role := bits v 0 2, dim := bits v 2 2, ord := bits v 4 2 }

/-- The axes that shard dimension d, by ORD. -/
def sharding (l : List Axis) (d : Nat) : List Nat :=
  (List.range 4).filterMap fun o => (List.range l.length).find? fun a =>
    (l.getD a default).role == 1 && (l.getD a default).dim == d && (l.getD a default).ord == o

def layoutOf (b : List Byte) (off : Nat) : List Axis := (List.range (Cl.naxes b)).map (layoutAxis b off)

/-- A layout is legal (R175). DESIGN CHOICE (log 95): the byte of an axis beyond NAXES is zero. -/
def layoutOk (b : List Byte) (off : Nat) : Bool :=
  let l := layoutOf b off
  zeroBytes b (off + 4) 4 &&
  ((List.range 4).all fun a => bits (field b (off + a) 1) 6 2 == 0 && (a < Cl.naxes b || field b (off + a) 1 == 0)) &&
  (l.all fun x => decide (x.role < 3) && (x.role != 1 || decide (x.dim < Cl.ndims b))) &&
  ((List.range 4).all fun d =>
    let on := l.filter fun x => x.role == 1 && x.dim == d
    let by' := sharding l d
    on.length == by'.length && (on.all fun x => decide (x.ord < on.length)) &&
    (let sz := by'.foldl (fun p a => p * Cl.axis b a) 1
     sz != 0 && Cl.dim b d % sz == 0))

/-- Bytes of a package's shard under a layout: each dimension is cut by the sizes of the axes that shard it (R175). -/
def shardBytes (b : List Byte) (off : Nat) : Nat :=
  let l := layoutOf b off
  ((List.range 4).map fun d => Cl.dim b d / (sharding l d).foldl (fun p a => p * Cl.axis b a) 1).foldl (· * ·) (Ty.bits (Cl.ty b) / 8)

/-- The checks of COLL's block (R174). DESIGN CHOICE (log 95): MEMBERS may name control space, tensor space of this home and the
scratchpad; an extent or an axis size of zero fails. -/
def collChecks (self : Nat) (b : List Byte) : List (Nat × Bool) :=
  let src := layoutOf b 48
  let dst := layoutOf b 56
  let partialAxis := src.any (fun x => x.role == 2) || dst.any (fun x => x.role == 2)
  let c := bits (Cl.ctrl b) 0 5
  [(0, ptrIn self [.tenOwn] (field b 0 8) (max 1 (shardBytes b 48))), (8, ptrIn self [.tenOwn] (field b 8 8) (max 1 (shardBytes b 56))),
   (16, ptrIn self recZones (field b 16 8) (2 * Cl.size b)),
   (24, (List.range 4).all fun d => if d < Cl.ndims b then Cl.dim b d != 0 else Cl.dim b d == 1),
   (40, ((List.range 4).all fun a => if a < Cl.naxes b then Cl.axis b a != 0 else Cl.axis b a == 1) && decide (Cl.size b ≤ 4096)),
   (48, layoutOk b 48),
   (56, layoutOk b 56 && (List.range (Cl.naxes b)).all fun a =>
      !((src.getD a default).role == 1 && (dst.getD a default).role == 2)),
   (64, crecOk self (field b 64 8)),
   (72, (c == 13 || c == 11 || c == 10 || c == 7 || (c == 2 && !partialAxis)) && decide (Cl.op b < 3) && bits (Cl.ctrl b) 13 19 == 0),
   (84, zeroBytes b 84 44)]

/-! ### Local ranges -/

/-- The local ranges a command will touch: pointer and bytes. -/
def localRanges (kind : CmdKind) (h : Handle) (b : List Byte) : List (Long × Nat) :=
  let p (off : Nat) : Long := BitVec.ofNat 64 (field b off 8)
  match kind with
  | .copy =>
    let span (stride : Nat) : Nat := (field b 36 4 - 1) * stride + field b 32 4
    [(p 0, span (field b 16 8)), (p 8, span (field b 24 8)), (p 40, 64)]
  | .copyPl =>
    let sf := field b 48 1
    let sc := if sf = hFmt h then fmtScale sf else 0
    [(p 0, (field b 28 4 - 1) * field b 8 8 + kbBytes sf (field b 36 4)), (p 16, field b 28 4 * field b 36 4 * sc), (p 40, 64)]
  | .gather | .scadd =>
    [(p 24, Gs.nidx b * Gs.idxBytes b), (p 40, 4 * Gs.nbag b),
     (p 48, (Gs.rows b - 1) * Gs.dstride b + Gs.cols b * rowTypeBytes (Gs.dtype b)), (p 64, 64)]
  | .sort =>
    [(p 0, 4 * Srt.n b), (p 8, 4 * Srt.n b), (p 16, 4 * Srt.n b), (p 24, 4 * Srt.n b), (p 32, 4 * (Srt.segs b + 1)), (p 48, 64)]
  | .coll => [(p 16, 2 * Cl.size b), (p 64, 64)]

/-- The first pointer outside an allocation. DESIGN CHOICE (log 101): a strided range is taken for the one span from its first byte to its
last, so the pointer may lie in a gap between rows. -/
def localOutside (x : Group) : List (Long × Nat) → Option Long
  | [] => none
  | (p, n) :: l =>
    let size := localSize x (ptrRegion p)
    if ptrSpace p = .loc ∧ n ≠ 0 ∧ size < ptrOff p + n then some (ptrAdd p ((size - ptrOff p : Nat) : Int)) else localOutside x l

def cmdChecks (self : Nat) (kind : CmdKind) (h : Handle) (b : List Byte) : List (Nat × Bool) :=
  match kind with
  | .copy => copyChecks self b
  | .copyPl => copyPlChecks self h b
  | .gather => gatherChecks self false b
  | .scadd => gatherChecks self true b
  | .sort => sortChecks self b
  | .coll => collChecks self b

def blockBytes : CmdKind → Nat
  | .copy | .copyPl | .sort => 64
  | .gather | .scadd => 96
  | .coll => 128

/-! ### Issue -/

/-- The timeline of a command (R147). -/
def cmdTl : CmdKind → Nat
  | .copy | .copyPl => 0
  | .gather | .scadd | .sort => 1
  | .coll => 3

/-- The engine a command would run on, or none when the partition owns none (R148, R324). -/
def cmdEngine (s : State) (kind : CmdKind) (core part : Nat) : Option EngineId :=
  let one (e : EngineId) : Option EngineId := if ownsEngine s part e then some e else none
  match kind with
  | .copy | .copyPl => one (.copy core)
  | .gather | .scadd | .sort => one (.gather (core / 4))
  | .coll =>
    let owned := (List.range 4).filter fun k => ownsEngine s part (.coll k)
    match owned.find? fun k => engineRoom s (.coll k) with
    | some k => some (.coll k)
    | none => owned.head?.map .coll

/-- An MMA of the group's sequencer that captured a handle (R157, R167). -/
def mmasOn (x : Group) (t : Nat) : List Nat :=
  (x.seq.recs.filter fun r => r.word.extractLsb' 88 8 == 0xD0 && (r.tileA == t || r.tileB == t)).map (·.id)

/-- How the issue of a command ends (R148). -/
inductive CmdIssue where
  | trap (cause : BitVec 16) (tval : Long)
  | page (cause : BitVec 16) (tval : Long)
  | stall
  | room (e : EngineId)
  | go (e : EngineId) (block : List Byte)
  deriving DecidableEq, Repr, Inhabited

def barUnset (s : State) (u : Iss) (e : Eng) : Bool := e.bar && (barGet s u.x (barIdx e.b)).target == 0

/-- Steps 2 to 5 of R148 on a captured block, with step 4 before step 3; h is the reservation of a COPY.pl. -/
def cmdTests (u : Iss) (kind : CmdKind) (tile : Nat) (h : Handle) (b : List Byte) (s : State) : CmdIssue :=
  if kind = .copyPl ∧ !hCfg h then .trap 0x21 (BitVec.ofNat 64 tile)
  else
    match firstFail (cmdChecks s.selfPkg kind h b) with
    | some off => .trap 0x20 (BitVec.ofNat 64 off)
    | none =>
      match localOutside u.x (localRanges kind h b) with
      | some q => .trap 0x12 q
      | none =>
        match cmdEngine s kind u.x.core u.c.part with
        | none => .trap 0x20 0
        | some en => if engineRoom s en then .go en b else .room en

/-- Steps 1 to 5 of R148. -/
def cmdIssue (u : Iss) (kind : CmdKind) (tile : Nat) (e : Eng) (p : Long) (s : State) : State × CmdIssue :=
  if barUnset s u e then (s, .trap 0x23 (BitVec.ofNat 64 (barIdx e.b)))
  else
    match readBlock u p (blockBytes kind) 64 s with
    | (s1, .fault c v) => (s1, if c = 0x13 ∨ c = 0x14 then .page c v else .trap c v)
    | (s1, .wait) => (s1, .stall)
    | (s1, .bytes b) => (s1, cmdTests u kind tile (handleOf u.x tile) b s1)

/-- Step 6 of R148: the command is captured and takes its number. -/
def cmdCapture (u : Iss) (w : IWord) (kind : CmdKind) (tile : Nat) (e : Eng) (p : Long) (en : EngineId) (b : List Byte)
    (s : State) : State :=
  let r := if e.tl then takeNumber u.x.ctx (cmdTl kind) s else (s, 0)
  let h := if kind = .copyPl then handleOf u.x tile else 0
  let user (off : Nat) : Nat := field b off 4
  let c : Cmd :=
    { kind := kind, engine := en, ctx := u.x.ctx, part := u.c.part, key := u.c.key, core := u.x.core, group := u.g, rank := u.r,
      word := w, pc := u.pc, blockPtr := p, block := if kind = .copyPl then b ++ leBytes h.toNat 16 else b, number := r.2,
      numbered := e.tl, bar := if e.bar then some (barIdx e.b) else none, evt := e.evt, fl := e.fl, tile := tile, handle := h,
      launch := u.x.launch, launchid := u.x.launchid, stamp := s.fresh, st := .waiting, prog := 0, sub := 0, status := 0,
      counta := 0, countb := 0, written := 0, order := s.fresh, flights := [], mmaBefore := if kind = .copyPl then mmasOn u.x tile else [],
      fetched := [], asked := [], unacked := 0, recDone := false, algs := [], shard := [], inbox := [], inNetwork := false, axis := 0,
      agreed := false, tabDone := false }
  let s1 := { r.1 with cmds := sset s.fresh c r.1.cmds, fresh := s.fresh + 1 }
  launchUp u.x.launch 1 (if kind = .copyPl then addInuse u.g tile 1 s1 else s1)

/-- An engine command (R147, R148). -/
def engineWord (i : Instr) (kind : CmdKind) (tile : Nat) (e : Eng) (s : State) : Out :=
  asRank i e.c (fun u s =>
    let w := encode i
    if u.ex = 0 then finish e.c w u s
    else
      let p : Long := BitVec.ofNat 64 (readOpnd s.clk u .b64 0 e.a 0)
      let r := cmdIssue u kind tile e p s
      match r.2 with
      | .trap c v => trapAt u w c v r.1
      | .page c v =>
        let entry : Entry := { pageEntry u w (sput Slot.zero 0 { Slot.zero with a := p } []) s.fresh with
          state := .faulted, cls := .p, cause := c, unif := true }
        takeTrap u.g u.r false c u.pc v (some entry)
          (modRank u.g u.r (fun k => { k with frameWord := w }) (charged u w { r.1 with fresh := s.fresh + 1 }))
      | .stall => stallPly u.g u.r r.1
      | .room en => waitHere u (.room en) r.1
      | .go en b =>
        let n := if e.tl then (timeline r.1 u.x.ctx (cmdTl kind)).taken + 1 else 0
        finish e.c w u (setD u .b64 e.d (fun _ => n) (cmdCapture u w kind tile e p en b r.1))) s

def execCopy (e : Eng) (s : State) : Out := engineWord (.copy e) .copy 0 e s
def execCopyPl (t : BitVec 4) (e : Eng) (s : State) : Out := engineWord (.copyPl t e) .copyPl t.toNat e s
def execGather (e : Eng) (s : State) : Out := engineWord (.gather e) .gather 0 e s
def execScadd (e : Eng) (s : State) : Out := engineWord (.scadd e) .scadd 0 e s
def execSort (e : Eng) (s : State) : Out := engineWord (.sort e) .sort 0 e s
def execColl (e : Eng) (s : State) : Out := engineWord (.coll e) .coll 0 e s

end Sys2Proof.Machine
end

