-- ==== Sys2Proof/Machine/Reserve.lean ====
section
/-! DEFINITION. Reservations (R162, R163, R223 to R225), slabs (R164, R232), peer slots (R165) and the start of the sequencer
(R166). -/

set_option linter.unusedVariables false

namespace Sys2Proof.Machine

/-! ### TCFG and TREL -/

/-- A capture completes: INUSE falls (R223), and what is parked on a free handle is performed at once (R224). -/
def releaseTile (g t : Nat) (s : State) : State := performTiles (wake (addInuse g t (-1) s))

/-- TCFG and TREL (R162, R163). Under .wait a busy handle parks the rank, its threads standing at the word, with the value it captured: it
is performed when the in-use count reads 0 (R224, R225). -/
def tileWord (i : Instr) (c : Ctl) (wait : Bool) (t : Nat) (value : Iss → State → Long) (s : State) : Out :=
  asRank i c (fun u s =>
    let w := encode i
    let v := value u s
    if u.ex = 0 then finish c w u s
    else
      match tileStep u.g u.x i v s with
      | .trap cause v => trapAt u w cause v s
      | .done s1 => wake (finish c w u s1)
      | .busy =>
        if wait then
          modRank u.g u.r (fun k => { k with live := k.live ++ [waitEntry u w v s.fresh] })
            (endPly u.g u.r .waitTimeline (passCycles u.g u.r 16 (charged u w { s with fresh := s.fresh + 1 })))
        else trapAt u w 0x22 (BitVec.ofNat 64 t) s) s

def tileIdx : Opnd → Nat
  | .t n => n.toNat
  | _ => 0

def execTcfg (c : Ctl) (wait : Bool) (d a : Opnd) (scaleoff : BitVec 20) (s : State) : Out :=
  tileWord (.tcfg c wait d a scaleoff) c wait (tileIdx d) (fun u s => BitVec.ofNat 64 (readOpnd s.clk u .b64 0 a 0)) s

def execTrel (c : Ctl) (wait : Bool) (a : Opnd) (s : State) : Out :=
  tileWord (.trel c wait a) c wait (tileIdx a) (fun _ _ => 0) s

/-! ### Slabs -/

def slotIdx : Opnd → Nat
  | .a n => n.toNat
  | _ => 0

/-- The lowest-numbered free physical slab of a core. -/
def freeSlab (s : State) (core : Nat) : Option Nat := (List.range 8).find? fun p => (sget (core * 8 + p) s.slabs).isNone

/-- The landing name (R164). -/
def landingName (s : State) (core slab : Nat) : Nat := s.selfPkg * 2 ^ 52 + core * 2 ^ 44 + slab * 2 ^ 41

/-- ACFG.take (R164). -/
def execAcfgTake (c : Ctl) (d a : Opnd) (s : State) : Out :=
  asRank (.acfgTake c d a) c (fun u s =>
    let w := encode (.acfgTake c d a)
    if u.ex = 0 then finish c w u s
    else if (sget (slotIdx a) u.x.slabMap).isSome then trapAt u w 0x25 0 s
    else
      match (if u.x.slabMax ≤ u.x.slabMap.length then none else freeSlab s u.x.core) with
      | none => trapAt u w 0x25 1 s
      | some p =>
        let s1 := { (modGroup u.g (fun x => { x with slabMap := sset (slotIdx a) p x.slabMap }) s) with
          slabs := sset (u.x.core * 8 + p) { group := u.g, data := [] } s.slabs }
        finish c w u (setD u .b64 d (fun _ => landingName s u.x.core p) s1)) s

/-- A slot that an outstanding sequencer instruction names. -/
def slotBusy (x : Group) (n : Nat) : Bool := x.seq.recs.any fun r => r.slots.contains n

/-- ACFG.rel (R164). -/
def execAcfgRel (c : Ctl) (a : Opnd) (s : State) : Out :=
  asRank (.acfgRel c a) c (fun u s =>
    let w := encode (.acfgRel c a)
    if u.ex = 0 then finish c w u s
    else if slotBusy u.x (slotIdx a) then trapAt u w 0x26 (BitVec.ofNat 64 (slotIdx a)) s
    else
      let p := (sget (slotIdx a) u.x.slabMap).getD 0
      finish c w u { (modGroup u.g (fun x => { x with slabMap := sdel (slotIdx a) x.slabMap }) s) with
        slabs := sdel (u.x.core * 8 + p) s.slabs }) s

/-! ### Peer slots and the sequencer's start -/

/-- PEER (R165). -/
def execPeer (c : Ctl) (n : BitVec 3) (a b : Opnd) (s : State) : Out :=
  asRank (.peer c n a b) c (fun u s =>
    let w := encode (.peer c n a b)
    let name := readOpnd s.clk u .b64 0 a 0
    let bar := readOpnd s.clk u .b32 0 b 0
    if u.ex = 0 then finish c w u s
    else if name ≠ 0 ∧ (bits name 0 41 ≠ 0 ∨ 128 ≤ bar) then trapAt u w 0x20 (BitVec.ofNat 64 name) s
    else
      let v : Long := if name = 0 then 0 else BitVec.ofNat 64 (name + bar * 2 ^ 34 + 1)
      finish c w u (modGroup u.g (fun x => { x with peers := sput 0 n.toNat v x.peers }) s)) s

/-- MSTART (R166). -/
def execMstart (c : Ctl) (a : Opnd) (s : State) : Out :=
  asRank (.mstart c a) c (fun u s =>
    let w := encode (.mstart c a)
    let v : Long := BitVec.ofNat 64 (readOpnd s.clk u .b64 0 a 0)
    let entry := if v = 0 then u.x.mcode else v
    if u.ex = 0 then finish c w u s
    else if entry = 0 then trapAt u w 0x20 0 s
    else if misaligned entry then trapAt u w 0x20 entry s
    else if u.x.seq.st = SeqState.running ∨ u.x.seq.st = SeqState.parked then trapAt u w 0x27 0 s
    else finish c w u (modSeq u.g (fun q => { q with mpc := entry, st := .running, c := [0, 0, 0, 0] }) s)) s

end Sys2Proof.Machine
end

