-- ==== Sys2Proof/Machine/Landing.lean ====
section
/-! DEFINITION. Peer rows arriving at a landing slab (R172, R236, R356). -/

set_option linter.unusedVariables false

namespace Sys2Proof.Machine

/-- The elements of a row added to another (R172): binary32, INT32 or binary64. -/
def addRow (fmt : BitVec 2) (old new : List Byte) : List Byte :=
  let w := if fmt = 2 then 8 else 4
  let f := if fmt = 2 then fmtF64 else fmtF32
  (List.range (new.length / w)).flatMap fun i =>
    let a := field old (w * i) w
    let b := field new (w * i) w
    leBytes (if fmt = 1 then (a + b) % 2 ^ 32 else narrow f .rne false (numAdd .rne (f.decode a) (f.decode b))) w

/-- A row is written or added, and its bytes are counted with release at .grp (R172). -/
def performRow (g phys row bar : Nat) (core : Nat) (add : Bool) (fmt : BitVec 2) (data : List Byte) (s : State) : State :=
  let put (b : Slab) : Slab :=
    let old := readBytes b.data (row * 512) data.length
    { b with data := writeBytes b.data (row * 512) (if add then addRow fmt old data else data) }
  barAdd g bar data.length { s with slabs := smod (core * 8 + phys) put s.slabs }

inductive Landed where
  | done | refused | retry
  deriving DecidableEq, Repr, Inhabited

/-- A peer row's landing place in its packet's ADDR (R165): core, slab, barrier and row; the rest of what it says (R315, R316). -/
def rowCore (p : Packet) : Nat := bits p.addr.toNat 44 8
def rowSlab (p : Packet) : Nat := bits p.addr.toNat 41 3
def rowBar (p : Packet) : Nat := bits p.addr.toNat 34 7
def rowIndex (p : Packet) : Nat := bits p.addr.toNat 0 7
def rowAdds (p : Packet) : Bool := p.kind == 0x09
def rowFmt (p : Packet) : BitVec 2 := p.opinfo.extractLsb' 0 2

/-- The bytes of an entry of the armed ring (R364): the packet's header and operation record in the clear, its tag field zero, and the row. -/
def armedBytes (a : Armed) : List Byte :=
  padTo 64 (leBytes (hdrUpper a.pkt * 2 ^ 64) 40 ++ leBytes a.pkt.addr.toNat 8 ++ leBytes a.pkt.tag.toNat 4 ++ [a.pkt.opinfo, a.pkt.status]) ++
  padTo 512 a.pkt.data

/-- The packet of an entry. -/
def armedPacket (bs : List Byte) : Packet :=
  let h := field bs 0 40
  { Packet.empty with
    dst := BitVec.ofNat 12 (hdrDst h), src := BitVec.ofNat 12 (hdrSrc h), sctx := BitVec.ofNat 12 (hdrCtx h),
    keyid := BitVec.ofNat 12 (bits h 272 12), kind := hdrKind h, plane := 1, ord := bit h 263, flabel := BitVec.ofNat 2 (bits h 261 2),
    path := BitVec.ofNat 2 (bits h 259 2), hops := BitVec.ofNat 3 (hdrHops h), route := BitVec.ofNat 24 (bits h 232 24),
    fseq := BitVec.ofNat 16 (bits h 216 16), dseq := BitVec.ofNat 32 (bits h 184 32), nctr := BitVec.ofNat 64 (bits h 64 64),
    addr := BitVec.ofNat 64 (field bs 40 8), tag := BitVec.ofNat 32 (field bs 48 4), opinfo := bs.getD 52 0, status := bs.getD 53 0,
    data := (bs.drop 64).take (hdrBlen h - 16) }

/-- Where the n-th entry after the oldest stands in the ring. -/
def ringOff (head n : Nat) : Nat := 0x1000 + 64 + 576 * ((head + n) % Config.armedLimit)

/-- The entries that stand in the ring. -/
def Ctx.ringed (c : Ctx) : List Armed := c.armed.filter fun a => !a.lost

/-- The row is recorded in the ring of the receiving context (R356). Where the ring cannot be written, only its bytes are kept. -/
def armRow (cid g slot : Nat) (p : Packet) (name : Nat) (s : State) : State × Landed :=
  match ctx? s cid with
  | none => (s, .refused)
  | some c =>
    if Config.armedLimit ≤ c.ringed.length then (s, .retry)
    else
      let a : Armed := { group := g, slot := slot, pkt := p, lost := false }
      let n := c.ringed.length
      let r := gpaWrite c.part (c.savebase.toNat + ringOff c.armedHead n) (armedBytes a) s
      match r.2 with
      | none =>
        let r2 := gpaWrite c.part (c.savebase.toNat + 0x1000) (leBytes (n + 1) 4 ++ leBytes c.armedHead 4) r.1
        (modCtx cid (fun c => { c with armed := c.armed ++ [a] }) r2.1, .done)
      | some _ =>
        let s1 := postCtx cid { source := 5, status := 0x0009, counta := name, countb := p.data.length } r.1
        (modCtx cid (fun c => { c with armed := c.armed ++ [{ a with lost := true }],
                                       tls := modAt c.tls 2 fun t => { t with err := true } }) s1, .done)

/-- The slot a group holds a physical slab in. -/
def slotOfSlab (x : Group) (phys : Nat) : Nat := ((x.slabMap.find? fun e => e.2 == phys).map (·.1)).getD 0

/-- A row for a group of a saved context: the place it held when it was saved, its key and its barriers of then decide (R172, R356). -/
def landSaved (p : Packet) (s : State) : State × Landed :=
  let here (c : Ctx) : Option (Nat × Nat × Nat × Nat) := c.landed.find? fun l => l.1 == rowCore p && l.2.1 == rowSlab p
  match s.ctxs.find? fun e => e.2.mode == .saved && e.2.key == p.keyid && (here e.2).isSome with
  | none => (s, .refused)
  | some (cid, c) =>
    match here c with
    | none => (s, .refused)
    | some l =>
      if c.landedBars.contains (l.2.2.1, rowBar p) then armRow cid l.2.2.1 l.2.2.2 p (landingName s (rowCore p) (rowSlab p)) s
      else (s, .refused)

/-- R172: accepted only where the slab is bound to a group whose context has the sender's key identifier, that holds the barrier,
which is configured; else refused. A frozen or saved receiver's rows are armed, a saved one's also where another group has its slab
by now (R3). -/
def landRow (p : Packet) (s : State) : State × Landed :=
  let phys := rowSlab p
  match (sget (rowCore p * 8 + phys) s.slabs).bind fun b => (group? s b.group).map fun x => (b.group, x) with
  | none => landSaved p s
  | some (g, x) =>
    if ((ctx? s x.ctx).map (·.key)) ≠ some p.keyid then landSaved p s
    else if !barHeld x (rowBar p) || (barGet s x (rowBar p)).target == 0 then landSaved p s
    else if x.frozen then armRow x.ctx g (slotOfSlab x phys) p (landingName s (rowCore p) phys) s
    else (performRow g phys (rowIndex p) (rowBar p) (rowCore p) (rowAdds p) (rowFmt p) p.data s, .done)

/-- Armed entries of a context in arrival order, at resume (R356): a slot no longer bound takes nothing but the count. The ring's head
goes past those that stood in it. -/
def fireArmed (cid : Nat) (s : State) : State :=
  match ctx? s cid with
  | none => s
  | some c =>
    let fire (s : State) (a : Armed) : State :=
      match group? s a.group with
      | none => s
      | some x =>
        match sget a.slot x.slabMap with
        | some q => if a.lost then barAdd a.group (rowBar a.pkt) a.pkt.data.length s
          else performRow a.group q (rowIndex a.pkt) (rowBar a.pkt) x.core (rowAdds a.pkt) (rowFmt a.pkt) a.pkt.data s
        | none => barAdd a.group (rowBar a.pkt) a.pkt.data.length s
    let head := (c.armedHead + c.ringed.length) % Config.armedLimit
    let s1 := modCtx cid (fun c => { c with armed := [], armedHead := head }) (c.armed.foldl fire s)
    if c.armed.isEmpty then s1 else (gpaWrite c.part (c.savebase.toNat + 0x1000) (leBytes 0 4 ++ leBytes head 4) s1).1

end Sys2Proof.Machine
end

