-- ==== Sys2Proof/Machine/Matrix.lean ====
section
/-! DEFINITION. The M-stream (R167 to R173, R228, R229), K-blocks of the matrix unit (R65 to R67, R169, R233), and the rows of the
epilogue unit (R170, R171, R236). -/

set_option linter.unusedVariables false

namespace Sys2Proof.Machine

/-! ### Shapes (R167, R168) -/

def shapeRows : Shape → Nat
  | .t2x1 | .t2x2 => 2
  | _ => 1
def shapeCols : Shape → Nat
  | .t1x2 | .t2x2 => 2
  | _ => 1
def shapeSlots (sh : Shape) (n : Nat) : List Nat := (List.range (shapeRows sh * shapeCols sh)).map fun k => n + k

/-- A sequencer fault found in a word's own checks: cause and TVAL (R167). -/
abbrev SeqBad := Option (BitVec 16 × Long)

/-- The slots a shape names: held, at most a7, all bound. field is the operand that names the first. -/
def shapeBad (x : Group) (sh : Shape) (n field : Nat) : SeqBad :=
  if (sget n x.slabMap).isNone then some (0x04, BitVec.ofNat 64 field)
  else
    match (shapeSlots sh n).find? fun a => decide (7 < a) with
    | some a => some (0x04, BitVec.ofNat 64 a)
    | none => if (shapeSlots sh n).all fun a => (sget a x.slabMap).isSome then none else some (0x04, BitVec.ofNat 64 field)

/-- A slot that an unfinished instruction names: the word waits (R167). -/
def slotsBusy (x : Group) (l : List Nat) : Bool := l.any fun a => slotBusy x a

/-- The sequencer waits at its word: time passes. -/
def seqWait (s : State) : State := arith 1 s

def physOf (x : Group) (l : List Nat) : List Nat := l.map fun a => sgetD a 0 x.slabMap

/-! ### Slab contents -/

def denseGo (m : Sparse Byte) (a : Nat) : Nat → List Byte
  | 0 => []
  | n + 1 =>
    match m with
    | [] => 0 :: denseGo [] (a + 1) n
    | (k, b) :: rest => if k = a then b :: denseGo rest (a + 1) n else 0 :: denseGo m (a + 1) n

/-- A slab's bytes as a list, and a list of bytes as a slab in canonical form. -/
def denseSlab (m : Sparse Byte) : List Byte := denseGo m 0 65536

def sparseFrom (a : Nat) : List Byte → Sparse Byte
  | [] => []
  | b :: l => if b = 0 then sparseFrom (a + 1) l else (a, b) :: sparseFrom (a + 1) l

def slabAt (s : State) (core phys : Nat) : Sparse Byte := ((sget (core * 8 + phys) s.slabs).map (·.data)).getD []

def setSlab (core phys : Nat) (d : Sparse Byte) (s : State) : State :=
  { s with slabs := smod (core * 8 + phys) (fun b => { b with data := d }) s.slabs }

/-- MZERO's and Z's zero: every element +0. -/
def zeroSlabs (core : Nat) (l : List Nat) (s : State) : State := l.foldl (fun s p => setSlab core p [] s) s

/-! ### Issue -/

/-- The pairings of R168. -/
def pairingClass (f : Nat) : Nat :=
  match fmtTy f with
  | .dx4 | .dx8 => 1
  | .mx4 | .mx8 => 2
  | .e4m3 | .e5m2 => 3
  | .bf16 => 4 | .f16 => 5 | .tf32 => 6 | .f32 => 7 | .f64 => 8
  | .s4 | .s8 => 9
  | _ => 0

def kbStart (x : Group) (m : MmaOp) : Nat :=
  m.kb0.toNat + if m.kr then (x.seq.c.getD m.ctr.toNat 0).toNat * m.kbn.toNat else 0

/-- The checks of MMA (R167, R169). -/
def mmaBad (x : Group) (m : MmaOp) : SeqBad :=
  let a := handleOf x (tileIdx m.a)
  let b := handleOf x (tileIdx m.b)
  let k := kbStart x m + m.kbn.toNat
  match shapeBad x m.shape (slotIdx m.d) 0 with
  | some e => some e
  | none =>
    if !hCfg a then some (0x21, BitVec.ofNat 64 (tileIdx m.a))
    else if !hCfg b then some (0x21, BitVec.ofNat 64 (tileIdx m.b))
    else if pairingClass (hFmt a) ≠ pairingClass (hFmt b) ∨ (m.sat ∧ pairingClass (hFmt a) ≠ 9) ∨ m.kbn = 0 then some (0x20, 0)
    else if hRows a ≤ m.arow.toNat * 128 ∨ hRows b ≤ m.brow.toNat * 128 then some (0x20, 1)
    else if hKbs a < k ∨ hKbs b < k then some (0x20, 2)
    else none

def SeqRec.zero : SeqRec :=
  { id := 0, word := 0, pc := 0, number := 0, handleA := 0, handleB := 0, tileA := 0, tileB := 0, slots := [], phys := [], kb0 := 0,
    desc := [], peer := 0, prog := 0, status := 0, bytes := 0, tagBase := 0, waiting := [], forceErr := false, rows := 0 }

def pushRec (g : Nat) (r : SeqRec) (s : State) : State :=
  modSeq g (fun q => { q with recs := q.recs ++ [{ r with id := s.fresh }] }) { s with fresh := s.fresh + 1 }

/-- The handles an MMA captures, each once (R223's bound). -/
def tilesOf (r : SeqRec) : List Nat := if r.tileA = r.tileB then [r.tileA] else [r.tileA, r.tileB]

/-- MMA (R169, R229): it waits for slabs that are in use before it issues (R167). An MMA is charged as its K-blocks are written (R330). -/
def execMma (m : MmaOp) (s : State) : Out :=
  asSeq (fun g x c s =>
    let slots := shapeSlots m.shape (slotIdx m.d)
    if 4 ≤ x.seq.recs.length ∨ slotsBusy x slots then seqWait s
    else
      match mmaBad x m with
      | some b => seqFaultAt g b.1 b.2 s
      | none =>
        let r : SeqRec := { SeqRec.zero with
          word := encode (.mma m), pc := x.seq.mpc, handleA := handleOf x (tileIdx m.a), handleB := handleOf x (tileIdx m.b),
          tileA := tileIdx m.a, tileB := tileIdx m.b, slots := slots, phys := physOf x slots, kb0 := kbStart x m,
          prog := kbStart x m }
        seqAdvance g (pushRec g r ((tilesOf r).foldl (fun s t => addInuse g t 1 s) s))) s

/-- MZERO (R169). -/
def execMzero (shape : Shape) (d : Opnd) (s : State) : Out :=
  asSeq (fun g x c s =>
    let slots := shapeSlots shape (slotIdx d)
    if slotsBusy x slots then seqWait s
    else
      match shapeBad x shape (slotIdx d) 0 with
      | some b => seqFaultAt g b.1 b.2 s
      | none => seqAdvance g (chargeSeq x (zeroSlabs x.core (physOf x slots) s))) s

/-! ### Epilogue descriptors (R170) -/

namespace Ep
def scale (b : List Byte) : Nat := field b 0 4
def ctrl (b : List Byte) : Nat := field b 4 4
def bias (b : List Byte) : Nat := field b 8 4
def ostride (b : List Byte) : Nat := field b 12 4
def out (b : List Byte) : Long := BitVec.ofNat 64 (field b 16 8)
def scales (b : List Byte) : Long := BitVec.ofNat 64 (field b 24 8)
def scl (b : List Byte) : Bool := bit (ctrl b) 0
def bia (b : List Byte) : Bool := bit (ctrl b) 1
def act (b : List Byte) : Nat := bits (ctrl b) 2 2
def ef (b : List Byte) : Bool := bit (ctrl b) 4
def sat (b : List Byte) : Bool := bit (ctrl b) 5
def raw (b : List Byte) : Bool := bit (ctrl b) 6
def clr (b : List Byte) : Bool := bit (ctrl b) 7
def dist (b : List Byte) : Nat := bits (ctrl b) 8 4
def target (b : List Byte) : Nat := bits (ctrl b) 12 2
def slot (b : List Byte) : Nat := bits (ctrl b) 14 3
def acc (b : List Byte) : Nat := bits (ctrl b) 17 2
def ofmt (b : List Byte) : Nat := bits (ctrl b) 24 8
/-- Columns of a slab, bytes of its element, and columns of the tile. -/
def colw (b : List Byte) : Nat := if acc b = 2 then 64 else 128
def esize (b : List Byte) : Nat := if acc b = 2 then 8 else 4
def cols (b : List Byte) (sh : Shape) : Nat := colw b * shapeCols sh
/-- Bytes of an output row. -/
def rowBytes (b : List Byte) (sh : Shape) : Nat :=
  if raw b then cols b sh * esize b else (cols b sh * fmtElemBits (ofmt b) + 7) / 8
def scaleBytes (b : List Byte) : Nat := if raw b then 0 else fmtScale (ofmt b)
/-- The writes of a row, each with a tag of its own (R146): its output, and its scale entries where the format has them. -/
def tags (b : List Byte) : Nat := if scaleBytes b = 0 then 1 else 2
end Ep

/-- CTRL is legal (R170). -/
def ctrlOk (x : Group) (sh : Shape) (b : List Byte) : Bool :=
  let blk := if Ep.raw b then none else fmtBlock (Ep.ofmt b)
  let dx := (blk.map Block.isDx).getD false
  bits (Ep.ctrl b) 19 5 == 0 && decide (Ep.acc b < 3) &&
  (if Ep.raw b then !Ep.scl b && !Ep.bia b && Ep.act b == 0 && Ep.ofmt b == 0 else fmtOk (Ep.ofmt b)) &&
  (!Ep.ef b || blk.isSome) && (if dx then Ep.dist b != 0 else Ep.dist b == 0) &&
  (decide (Ep.target b < 2) || (sh == .t1x1 && (sgetD (Ep.slot b) 0 x.peers).getLsbD 0 && (Ep.raw b || Ep.ofmt b == 13)))

/-- The first offending field of a descriptor. SCALES may name the scratchpad, and where OUT names tensor space tensor space of any home
(DESIGN CHOICE, log 84: the table of R170 names no space for it; R171 wants a scratchpad target's inside the scratch allocation). -/
def descBad (self : Nat) (x : Group) (sh : Shape) (b : List Byte) : Option Nat :=
  let spaceOk (p : Long) (ten : Bool) (scr : Bool) : Bool := !ptrOk p || match ptrSpace p with
    | .tensor => ten
    | .loc => scr && ptrRegion p == 0
    | _ => false
  let outOk := match Ep.target b with
    | 0 => spaceOk (Ep.out b) false true
    | 1 => spaceOk (Ep.out b) true false
    | _ => Ep.out b == 0
  let scOk := if Ep.scaleBytes b = 0 then Ep.scales b == 0 else spaceOk (Ep.scales b) (Ep.target b == 1) true
  firstFail [(4, ctrlOk x sh b), (16, outOk), (24, scOk)]

/-- Pointers a MEPI will write, row by row: output rows, then scale entries. -/
def mepiSpans (sh : Shape) (b : List Byte) : List (Long × Nat × Nat) :=
  let rows := List.range (128 * shapeRows sh)
  let outs := if Ep.target b < 2 then rows.map fun i => (Ep.out b, i * Ep.ostride b, Ep.rowBytes b sh) else []
  let n := Ep.cols b sh / 32
  let scs := if Ep.scaleBytes b = 0 then [] else rows.map fun i => (Ep.scales b, i * n * Ep.scaleBytes b, n * Ep.scaleBytes b)
  outs ++ scs

/-- R171: each pointer well formed and inside its offset field, and inside the scratch allocation where it is local. -/
def spansBad (x : Group) : List (Long × Nat × Nat) → SeqBad
  | [] => none
  | (p, d, n) :: l =>
    if !ptrOk p ∨ 2 ^ (ptrSpace p).width < ptrOff p + d + n then some (0x10, p)
    else if ptrSpace p = .loc ∧ x.scratchBytes < ptrOff p + d + n then
      some (0x12, localPtr 0 (max (ptrOff p + d) x.scratchBytes))
    else spansBad x l

/-- The checks of MEPI at issue (R167, R170, R171). -/
def mepiBad (self : Nat) (x : Group) (sh : Shape) (n d : Nat) : SeqBad :=
  match shapeBad x sh n 1 with
  | some e => some e
  | none =>
    if d % 32 ≠ 0 then some (0x20, 0)
    else if x.scratchBytes < d + 32 then some (0x12, localPtr 0 (max d x.scratchBytes))
    else
      let b := readBytes x.scratch d 32
      match descBad self x sh b with
      | some off => some (0x20, BitVec.ofNat 64 off)
      | none =>
        if Ep.bia b ∧ x.scratchBytes < Ep.bias b + 4 * Ep.cols b sh then
          some (0x12, localPtr 0 (max (Ep.bias b) x.scratchBytes))
        else spansBad x (mepiSpans sh b)

/-- MEPI (R170, R171, R229): the descriptor and the bias row are captured, and it takes its number on tl.mat and the tags of its rows
(R146, R182, R236). -/
def execMepi (shape : Shape) (a : Opnd) (desc : BitVec 19) (s : State) : Out :=
  asSeq (fun g x c s =>
    let slots := shapeSlots shape (slotIdx a)
    let b := readBytes x.scratch desc.toNat 32
    let numbers := 128 * shapeRows shape * Ep.tags b
    if 4 ≤ x.seq.recs.length ∨ slotsBusy x slots ∨ !numbersFree s x.ctx numbers then seqWait s
    else
      match mepiBad s.selfPkg x shape (slotIdx a) desc.toNat with
      | some b => seqFaultAt g b.1 b.2 s
      | none =>
        let tags := takeTags x.ctx numbers s
        let n := takeNumber x.ctx 2 tags.1
        let r : SeqRec := { SeqRec.zero with
          word := encode (.mepi shape a desc), pc := x.seq.mpc, number := n.2, slots := slots, phys := physOf x slots,
          desc := b ++ (if Ep.bia b then readBytes x.scratch (Ep.bias b) (4 * Ep.cols b shape) else []),
          peer := sgetD (Ep.slot b) 0 x.peers, rows := 128 * shapeRows shape, tagBase := tags.2, tags := numbers, turn := s.fresh }
        let s1 := if 2 ≤ Ep.target b then launchUp x.launch 1 n.1 else n.1
        seqAdvance g (chargeSeq x (pushRec g r s1))) s

/-! ### The other words (R173) -/

def modCounter (g k : Nat) (v : Word) (s : State) : State := modSeq g (fun q => { q with c := q.c.set k v }) s

/-- An unconfigured barrier is a failing check of the word (R142, R167). -/
def seqBarBad (s : State) (x : Group) (a : Opnd) : SeqBad :=
  if !barHeld x (barIdx a) then some (0x04, 1)
  else if (barGet s x (barIdx a)).target = 0 then some (0x23, BitVec.ofNat 64 (barIdx a)) else none

/-- MWAIT: go on, or park at the word. -/
def execMwait (sc : Scope) (pr : Bool) (ctr : BitVec 2) (a : Opnd) (phase : Word) (s : State) : Out :=
  asSeq (fun g x c s =>
    match seqBarBad s x a with
    | some b => seqFaultAt g b.1 b.2 s
    | none =>
      let p := phase + if pr then x.seq.c.getD ctr.toNat 0 else 0
      let s1 := chargeSeq x s
      if (barGet s x (barIdx a)).isDone p then seqAdvance g s1
      else modSeq g (fun q => { q with st := .parked, waitBar := barIdx a, waitPhase := p }) s1) s

/-- MARV: after every earlier M-stream instruction. -/
def execMarv (sc : Scope) (a : Opnd) (amount : Word) (s : State) : Out :=
  asSeq (fun g x c s =>
    match seqBarBad s x a with
    | some b => seqFaultAt g b.1 b.2 s
    | none =>
      if amount = 0 ∨ amount.getLsbD 31 then seqFaultAt g 0x20 0 s
      else if x.seq.recs.isEmpty && numbersFree s x.ctx 1 then
        seqAdvance g (barAdd g (barIdx a) amount.toNat (chargeSeq x (takeTags x.ctx 1 s).1))
      else seqWait s) s

/-- A jump in the M-stream; a target that is not a multiple of 4 is a fault. -/
def seqJump (g : Nat) (x : Group) (off : Int) (s : State) : State :=
  let t := ptrAdd x.seq.mpc off
  if misaligned t then seqFaultAt g 0x05 t s else arith 1 (modSeq g (fun q => { q with mpc := t }) (chargeSeq x s))

def execMloop (ctr : BitVec 2) (limit : BitVec 12) (off : BitVec 20) (s : State) : Out :=
  asSeq (fun g x c s =>
    let v := x.seq.c.getD ctr.toNat 0 + 1
    let t := ptrAdd x.seq.mpc off.toInt
    if limit = 0 then seqFaultAt g 0x20 0 s
    else if misaligned t then seqFaultAt g 0x05 t s
    else if v.toNat < limit.toNat then seqJump g x off.toInt (modCounter g ctr.toNat v s)
    else seqAdvance g (chargeSeq x (modCounter g ctr.toNat 0 s))) s

def execMjmp (off : Word) (s : State) : Out := asSeq (fun g x c s => seqJump g x off.toInt s) s

/-- MSTOP: as MARV waits, then idle. -/
def execMstop (s : State) : Out :=
  asSeq (fun g x c s =>
    if x.seq.recs.isEmpty then
      settleGroup g (modSeq g (fun q => { q with st := .idle }) (seqAdvance g (chargeSeq x s)))
    else seqWait s) s

/-! ### K-blocks -/

/-- Products of one group of K. -/
def dotGroup (a b : List XNum) : XNum := numSum .rne ((List.range a.length).map fun k => numMul (a.getD k .nan) (b.getD k .nan))

def numToInt : XNum → Int
  | .fin s m e => scaledInt s m e 0
  | _ => 0

/-- The group length (R66). -/
def groupLen (f : Nat) : Nat :=
  match fmtTy f with
  | .f32 => 8
  | .f64 => 4
  | _ => 32

/-- One accumulation (R65, R67): bits of the accumulator after a group. -/
def accumulate (f : Nat) (sat : Bool) (acc : Nat) (S : XNum) : Nat :=
  if fmtIsInt f then fit true sat 32 (signed acc 32 + numToInt S)
  else
    let r := if fmtTy f = .f64 then fmtF64 else fmtF32
    narrow r .rne false (numAdd .rne (r.decode acc) S)

/-- All groups of a K-block for one element. -/
def kblockElem (f : Nat) (sat : Bool) (acc : Nat) (a b : List XNum) : Nat :=
  let n := groupLen f
  (List.range (32 / n)).foldl (fun acc g => accumulate f sat acc (dotGroup ((a.drop (g * n)).take n) ((b.drop (g * n)).take n))) acc

/-- One slab after a K-block: its rows and columns of the tile start at ri and cj (R168). -/
def kblockSlab (f : Nat) (sat fresh : Bool) (old : List Byte) (as bs : List (List XNum)) (ri cj : Nat) : List Byte :=
  let w := if fmtTy f = .f64 then 8 else 4
  let n := 512 / w
  (List.range 128).flatMap fun i =>
    let a := as.getD (ri * 128 + i) []
    let row := (old.drop (i * 512)).take 512
    (List.range n).flatMap fun j =>
      leBytes (kblockElem f sat (if fresh then 0 else field row (j * w) w) a (bs.getD (cj * n + j) [])) w

/-- A finished K-block is written to the slabs (R233), and charged once for each slab (R330). -/
def writeKblock (g : Nat) (x : Group) (m : MmaOp) (r : SeqRec) (s : State) : State :=
  let f := hFmt r.handleA
  let n := if fmtTy f = .f64 then 64 else 128
  let as := (List.range (128 * shapeRows m.shape)).map fun i => planeRow r.handleA x.plane (m.arow.toNat * 128 + i) r.prog
  let bs := (List.range (n * shapeCols m.shape)).map fun j => planeRow r.handleB x.plane (m.brow.toNat * 128 + j) r.prog
  let one (s : State) (k : Nat) : State :=
    let p := r.phys.getD k 0
    let d := kblockSlab f m.sat (m.z && r.prog == r.kb0) (denseSlab (slabAt s x.core p)) as bs (k / shapeCols m.shape) (k % shapeCols m.shape)
    setSlab x.core p (sparseFrom 0 d) s
  charge x.ctx (weightOf s x.ctx x.core 13 * r.phys.length) ((List.range r.phys.length).foldl one s)

def setRec (g : Nat) (r : SeqRec) (s : State) : State :=
  modSeq g (fun q => { q with recs := q.recs.map fun (y : SeqRec) => if y.id = r.id then r else y }) s

def dropRec (g id : Nat) (s : State) : State :=
  modSeq g (fun q => { q with recs := q.recs.filter fun (y : SeqRec) => y.id ≠ id }) s

/-- The word of a record. -/
def recInstr (r : SeqRec) : Option Instr :=
  match decodeWord .sequencer r.word with
  | .ok i => some i
  | .error _ => none

/-- An earlier MMA of the group goes first: within one sequencer K-blocks are taken in issue order (R237). -/
def earlierMma (x : Group) (k : Nat) : Bool := (x.seq.recs.take k).any fun r => r.word.extractLsb' 88 8 == 0xD0

/-- The lowest physical slab that a group holds. -/
def lowestSlab (x : Group) : Nat := x.slabMap.foldl (fun m e => min m e.2) Config.slabsPerCore

/-- The sequencers of a core with an MMA whose K-blocks the array may take, by the lowest slab they hold. -/
def arrayReady (s : State) (core : Nat) : List Nat :=
  (s.groups.filter fun e => e.2.core == core && !e.2.frozen && e.2.seq.recs.any fun r => r.word.extractLsb' 88 8 == 0xD0).map fun e => lowestSlab e.2

/-- Round-robin: the first after the one served last, in ascending order of the slabs, else the first of all (R237). -/
def arrayNext (s : State) (core : Nat) : Option Nat :=
  let ready := sortBy (fun a b => decide (a ≤ b)) (arrayReady s core)
  match sget core s.arrayTurn with
  | some n => (ready.find? fun a => decide (n < a)).orElse fun _ => ready.head?
  | none => ready.head?

def execMmaKblockWrite (g k : Nat) (s : State) : Out := held s <|
  match group? s g with
  | none => idle s
  | some x =>
    match x.seq.recs[k]? with
    | none => idle s
    | some r =>
      match recInstr r with
      | some (.mma m) =>
        if x.frozen || earlierMma x k || arrayNext s x.core != some (lowestSlab x) then idle s
        else
          let s1 := arith 1 (writeKblock g x m r { s with arrayTurn := sset x.core (lowestSlab x) s.arrayTurn })
          if r.prog + 1 < r.kb0 + m.kbn.toNat then .next (setRec g { r with prog := r.prog + 1 } s1)
          else .next (settleGroup g (wake ((tilesOf r).foldl (fun s t => releaseTile g t s) (dropRec g r.id s1))))
      | _ => idle s

/-! ### Epilogue rows -/

/-- Row i of the tile as raw bytes: the slabs' rows side by side. -/
def tileRow (s : State) (core : Nat) (r : SeqRec) (sh : Shape) (i : Nat) : List Byte :=
  (List.range (shapeCols sh)).flatMap fun c => readBytes (slabAt s core (r.phys.getD (i / 128 * shapeCols sh + c) 0)) (i % 128 * 512) 512

def accNum (acc x : Nat) : XNum :=
  match acc with
  | 1 => numOfInt (signed x 32)
  | 2 => fmtF64.decode x
  | _ => fmtF32.decode x

def epiAct (k : Nat) (v : XNum) : XNum :=
  match k with
  | 1 => if v.isNan then .nan else if v.neg || v.isZero then .fin false 0 0 else v
  | 2 => fnGelu v
  | 3 => fnSilu v
  | _ => v

/-- The stages of R171 on one element. -/
def epilogueElem (b : List Byte) (j x : Nat) : XNum :=
  let r32 (v : XNum) : XNum := fmtF32.decode (narrow fmtF32 .rne false v)
  let v0 := accNum (Ep.acc b) x
  let v1 := if Ep.scl b then r32 (numMul v0 (fmtF32.decode (Ep.scale b))) else v0
  let v2 := if Ep.bia b then r32 (numAdd .rne v1 (fmtF32.decode (field b (32 + 4 * j) 4))) else v1
  if Ep.act b = 0 then v2 else r32 (epiAct (Ep.act b) v2)

/-- The code of a value in an element format. -/
def elemCode (f : Nat) (sat : Bool) (v : XNum) : Nat :=
  match fmtTy f with
  | .s4 => intBits 4 (clamp (-8) 7 (toInt true 32 .rne v))
  | .s8 => intBits 8 (clamp (-128) 127 (toInt true 32 .rne v))
  | .tf32 => narrow fmtTf32 .rne sat v * 2 ^ 13
  | t => narrow (Ty.fmt t) .rne sat v

/-- A row's output bytes and its scale entries (R171, R42). -/
def epilogueRow (b : List Byte) (sh : Shape) (row : List Byte) : List Byte × List Byte :=
  if Ep.raw b then (row, [])
  else
    let n := Ep.cols b sh
    let vs := (List.range n).map fun j => epilogueElem b j (field row (j * Ep.esize b) (Ep.esize b))
    match fmtBlock (Ep.ofmt b) with
    | some k =>
      let encs := (List.range (n / 32)).map fun q =>
        blockEncode k (Ep.dist b) .rne (Ep.sat b) (Ep.ef b) (((vs.drop (32 * q)).take 32).map fun v => (true, v))
      (leBytes (packCodes k.elemBits (encs.flatMap (·.codes))) (Ep.rowBytes b sh), encs.flatMap fun e => leBytes e.scale (Ep.scaleBytes b))
    | none => (leBytes (packCodes (fmtElemBits (Ep.ofmt b)) (vs.map (elemCode (Ep.ofmt b) (Ep.sat b)))) (Ep.rowBytes b sh), [])

/-- Element format of a peer add (R172, R315). -/
def peerFmt (b : List Byte) : BitVec 2 := if Ep.raw b then (if Ep.acc b = 1 then 1 else if Ep.acc b = 2 then 2 else 0) else 0

/-- The tag of a run of a MEPI's row, which the run's pieces share: 0 its output, 1 its scale entries (R146, R182). -/
def rowTag (x : Group) (r : SeqRec) (row run : Nat) : BitVec 32 :=
  tagOf x.ctx (r.tagBase + BitVec.ofNat 20 (row * Ep.tags r.desc + run)) 0

def modRec (g id : Nat) (f : SeqRec → SeqRec) (s : State) : State :=
  modSeq g (fun q => { q with recs := q.recs.map fun (r : SeqRec) => if r.id = id then f r else r }) s

/-- Bytes of a row have landed; a piece of it has left. -/
def SeqRec.took (row n : Nat) (r : SeqRec) : SeqRec := { r with part := sput 0 row (sgetD row 0 r.part + n) r.part }
def SeqRec.sent (row : Nat) (r : SeqRec) : SeqRec := { r with left := row :: r.left }

/-- A packet of a row leaves: a packet that was cut is sent again with its sequence (R353). -/
def sendOf (g : Nat) (x : Group) (c : Ctx) (row run : Nat) (r : SeqRec) (kind : BitVec 8) (dst : Nat) (addr : Long) (op : BitVec 8) (off : Nat)
    (bs : List Byte) (s : State) : State :=
  let tag := rowTag x r row run
  let old (u : Unacked) : Bool := u.stale && u.ctx == x.ctx && u.packet.tag == tag && u.packet.addr == addr
  let was := (s.fab.unacked.find? old).map (·.packet.dseq)
  let m : Send :=
    { kind := kind, dst := dst, ctx := x.ctx, key := c.key, part := c.part, label := 0, ord := false, addr := addr, tag := tag, opinfo := op,
      ty := .b8, len := bs.length, data := bs, owner := .mepi g r.id row, number := 0, launch := x.launch, pc := r.pc, off := off,
      access := s.fresh, dseqWas := was }
  modRec g r.id (SeqRec.sent row)
    (sendTensor m { s with fresh := s.fresh + 1, fab := { s.fab with unacked := s.fab.unacked.filter fun u => !old u } }).1

/-- One granule piece of an epilogue write to tensor space: own home at once (R265: the core's L1 follows), but for a repeated one
(R352); remote posted. -/
def epiloguePiece (g core : Nat) (x : Group) (c : Ctx) (row run : Nat) (r : SeqRec) (p : Long) (bs : List Byte) (s : State) :
    State × BitVec 16 :=
  let home := ptrHome p
  let tag := rowTag x r row run
  if home = s.selfPkg then
    match portResolve s { pkg := s.selfPkg, ctx := x.ctx, key := c.key, part := c.part } (ptrBuf p) (ptrOff p) bs.length .wr with
    | .ok dpa =>
      let s1 := if (findTag s s.selfPkg tag (granuleOf dpa)).isSome then s
        else keepTag s.selfPkg tag (granuleOf dpa) []
          (noteWritten c.part (ptrBuf p) (ptrOff p) (homeWrite { core := some core, ctx := x.ctx } none (some (tag, [])) dpa bs s))
      (modRec g r.id (SeqRec.took row bs.length) s1, 0)
    | a => (s, a.status)
  else if !routeValid s home || pkgLost s home then (s, 0x0004)
  else (sendOf g x c row run r 0x01 home p 0 0 bs s, 0)

/-- Run number run of a row's bytes: scratchpad, or tensor space piece by piece until one fails. -/
def epilogueWrite (g : Nat) (x : Group) (c : Ctx) (row run : Nat) (r : SeqRec) (p : Long) (bs : List Byte) (s : State) : State × BitVec 16 :=
  if ptrSpace p = .loc then (modRec g r.id (SeqRec.took row bs.length) (localWrite g 0 (ptrOff p) bs s), 0)
  else
    (granules (ptrOff p) bs.length).foldl (fun acc q =>
      if acc.2 ≠ 0 then acc
      else epiloguePiece g x.core x c row run r (ptrAdd p q.1) ((bs.drop q.1).take q.2) acc.1) (s, 0)

/-- What stands before a row: a line of the tables (log 75), a full home slice or response buffers, a reservation's hold, a ring
that is full, a translation fault; or nothing, though the row may fail. -/
inductive RowSays where
  | go | lack (dpa : Nat) | hold | page (gpa : Nat)
  deriving DecidableEq, Repr, Inhabited

def pieceSays (s : State) (x : Group) (c : Ctx) (tag : BitVec 32) (p : Long) (n : Nat) : RowSays × Bool :=
  if ptrHome p ≠ s.selfPkg then (.go, true)
  else match portResolve s { pkg := s.selfPkg, ctx := x.ctx, key := c.key, part := c.part } (ptrBuf p) (ptrOff p) n .wr with
    | .lacks d => (.lack d, false)
    | .stage2 gpa => (.page gpa, false)
    | .ok dpa =>
      if (findTag s s.selfPkg tag (granuleOf dpa)).isSome then (.go, true)
      else if sliceFull s || resvHolds s dpa then (.hold, false) else (.go, true)
    | _ => (.go, false)

def runSays (s : State) (x : Group) (c : Ctx) (tag : BitVec 32) (p : Long) : List (Nat × Nat) → RowSays
  | [] => .go
  | q :: rest => match pieceSays s x c tag (ptrAdd p q.1) q.2 with
    | (.go, true) => runSays s x c tag p rest
    | (o, _) => o

/-- Where a peer row goes: its package, core, slab and barrier (R165). -/
def peerPkg (r : SeqRec) : Nat := bits r.peer.toNat 52 12
def peerCore (r : SeqRec) : Nat := bits r.peer.toNat 44 8
def peerSlab (r : SeqRec) : Nat := bits r.peer.toNat 41 3
def peerBar (r : SeqRec) : Nat := bits r.peer.toNat 34 7

/-- The runs of bytes that row i writes (R171): output, then scales. -/
def rowRuns (sh : Shape) (r : SeqRec) (i : Nat) : List (Long × Nat) :=
  let b := r.desc
  let n := Ep.cols b sh / 32 * Ep.scaleBytes b
  (ptrAdd (Ep.out b) ((i * Ep.ostride b : Nat) : Int), Ep.rowBytes b sh) ::
    (if n = 0 then [] else [(ptrAdd (Ep.scales b) ((i * n : Nat) : Int), n)])

/-- The peer row's packet, as it travels, or lands on this package (R165, R172, R236). -/
def peerPacket (x : Group) (c : Ctx) (r : SeqRec) (row : Nat) (data : List Byte) (s : State) : Packet :=
  { Packet.empty with
    dst := BitVec.ofNat 12 (peerPkg r), src := s.tabs.self, sctx := BitVec.ofNat 12 x.ctx, keyid := c.key, plane := 1,
    kind := if Ep.target r.desc = 3 then 0x09 else 0x08, addr := BitVec.ofNat 64 (bits r.peer.toNat 34 30 * 2 ^ 34 + row),
    tag := rowTag x r row 0, opinfo := if Ep.target r.desc = 3 then (peerFmt r.desc).setWidth 8 else 0, data := data }

def rowSays (s : State) (x : Group) (c : Ctx) (sh : Shape) (r : SeqRec) : RowSays :=
  let tag := rowTag x r r.prog 0
  if r.skip.contains r.prog then .go
  else if Ep.target r.desc < 2 then
    let one (run : Nat) (p : Long × Nat) : RowSays :=
      if ptrSpace p.1 = .loc then .go else runSays s x c (rowTag x r r.prog run) p.1 (granules (ptrOff p.1) p.2)
    let runs := rowRuns sh r r.prog
    let away := (runs.filter fun p => ptrSpace p.1 != .loc && ptrHome p.1 != s.selfPkg).foldl (fun n p => n + (granules (ptrOff p.1) p.2).length) 0
    if buffersLack s away then .hold
    else ((List.range runs.length).map fun i => one i (runs.getD i (0, 0))).find? (· != .go) |>.getD .go
  else if peerPkg r = s.selfPkg then
    if (findTag s s.selfPkg tag (rowTarget (peerCore r) (peerSlab r) r.prog)).isSome then .go
    else if (landRow (peerPacket x c r r.prog [] s) s).2 == .retry then .hold else .go
  else if buffersFull s then .hold else .go

/-- A peer row (R172, R236): on this package at once, but for a repeated one (R352); else one packet. -/
def sendRow (g : Nat) (x : Group) (c : Ctx) (row : Nat) (r : SeqRec) (b data : List Byte) (s : State) : State × BitVec 16 :=
  let p := peerPacket x c r row data s
  let tag := rowTag x r row 0
  let target := rowTarget (peerCore r) (peerSlab r) row
  let took (s : State) : State := modRec g r.id (SeqRec.took row data.length) s
  if peerPkg r = s.selfPkg then
    if (findTag s s.selfPkg tag target).isSome then (took s, 0)
    else
      match landRow p s with
      | (s1, .done) => (took (keepTag s.selfPkg tag target [] s1), 0)
      | (s1, _) => (s1, 0x0005)
  else if !routeValid s (peerPkg r) || pkgLost s (peerPkg r) then (s, 0x0004)
  else
    (sendOf g x c row 0 r p.kind (peerPkg r) p.addr p.opinfo row data s, 0)

/-- CLR: the row of every slab of the tile row is zeroed after it is read (R236). -/
def clearRow (core : Nat) (r : SeqRec) (sh : Shape) (i : Nat) (s : State) : State :=
  (List.range (shapeCols sh)).foldl (fun s c =>
    let p := r.phys.getD (i / 128 * shapeCols sh + c) 0
    setSlab core p (zeroRange (slabAt s core p) (i % 128 * 512) 512) s) s

/-- Nothing a MEPI has sent is unacknowledged. -/
def mepiQuiet (r : SeqRec) : Bool := r.left.isEmpty

/-- The bytes a MEPI has written (R171). -/
def SeqRec.landed (r : SeqRec) : Nat := r.part.foldl (fun n e => n + e.2) r.bytes

/-- Row i has no piece left to be acknowledged: it is retired, CLR zeroes it (R236), and its tag is free (R352). -/
def rowEnds (g id row : Nat) (s : State) : State :=
  match group? s g with
  | none => s
  | some x =>
    match x.seq.recs.find? fun (y : SeqRec) => y.id == id with
    | none => s
    | some r =>
      if r.left.contains row || r.bad.contains row then s
      else
        let s1 := (List.range (Ep.tags r.desc)).foldl (fun s i => releaseTag (rowTag x r row i) s)
          (modRec g id (fun r => { r with bytes := r.bytes + sgetD row 0 r.part, part := sdel row r.part }) s)
        match recInstr r with
        | some (.mepi sh _ _) => if Ep.clr r.desc then clearRow x.core r sh row s1 else s1
        | _ => s1

/-- A MEPI completes (R150, R167, R171): slots free, tl.mat, its record where it failed, the launch's counter for a peer send. -/
def mepiComplete (g : Nat) (x : Group) (r : SeqRec) (s : State) : State :=
  let err := r.status != 0
  let s1 := advance x.ctx 2 r.number (err || r.forceErr) (dropRec g r.id s)
  let s2 := if err then
      postCtx x.ctx { source := 3, status := r.status, cmdaddr := r.pc, tlval := BitVec.ofNat 64 (r.number % 2 ^ 63 + 2 ^ 63),
                      tlcode := 0x82, counta := r.landed, progress := r.point, launch := x.launchid } s1
    else s1
  let s3 := if 2 ≤ Ep.target r.desc then launchDown x.launch r.status s2 else if err then launchStatus x.launch r.status s2 else s2
  settleGroup g (wake s3)

/-- A MEPI whose rows are all retired, or which has stopped, completes when all it sent is acknowledged. -/
def settleMepi (g id : Nat) (s : State) : State :=
  match group? s g with
  | none => s
  | some x =>
    match x.seq.recs.find? fun (y : SeqRec) => y.id == id with
    | none => s
    | some r =>
      let stopped := r.status != 0 && decide (Ep.target r.desc < 2)
      if r.rows != 0 && (r.rows ≤ r.prog || stopped) && mepiQuiet r && r.waiting.isEmpty && !r.paused && !x.frozen then mepiComplete g x r s else s

/-- A translation fault on a row's write: the MEPI pauses, and the lowest rank that has not exited takes the fault; with none it stops
(R153, R171). -/
def pauseMepi (g : Nat) (x : Group) (id gpa : Nat) (s : State) : State :=
  match lowestRank x with
  | none => modRec g id (fun r => { r with status := if r.status = 0 then 0x0003 else r.status }) s
  | some k =>
    let word := ((x.seq.recs.find? fun (y : SeqRec) => y.id == id).map (·.pc)).getD 0
    modRank g k (fun q => { q with imprecise := q.imprecise ++ [{ cause := 0x14, tval := BitVec.ofNat 64 gpa, pc := word, entry := none }] })
      (modRec g id (fun r => { r with paused := true }) s)

/-- A row or a piece of an epilogue is answered: a refused piece of a tensor row stops the MEPI there; a peer's refusal is kept as the
status while the other rows stand and go on (R171, R236). -/
def ackMepi (g id row : Nat) (bytes : Nat) (peer : Bool) (status : BitVec 16) (gpa : Nat) (s : State) : State :=
  let fix (r : SeqRec) : SeqRec :=
    let r1 := { r with left := r.left.erase row, waiting := r.waiting.erase row }
    if status = 0 then r1.took row bytes
    else { r1 with status := if r.status = 0 && (peer || status != 0x0003) then status else r.status, bad := if peer then r.bad else row :: r.bad }
  let s1 := modRec g id fix s
  let s2 := match group? s g with
    | some x => if status = 0x0003 && !peer then pauseMepi g x id gpa s1 else s1
    | none => s1
  settleMepi g id (rowEnds g id row s2)

/-- A row is read and written or sent (R171, R238). A stopped write leaves the rows below the progress point; a peer's refusal lets the other
rows go on (R236). -/
def retireRow (g : Nat) (x : Group) (c : Ctx) (sh : Shape) (r : SeqRec) (s : State) : State :=
  let b := r.desc
  let i := r.prog
  let s0 := modRec g r.id (fun r => { r with prog := i + 1, turn := s.fresh, skip := r.skip.erase i }) { s with fresh := s.fresh + 1 }
  if r.skip.contains i then s0
  else
    let out := epilogueRow b sh (tileRow s x.core r sh i)
    let failed (st : BitVec 16) (s : State) : State := if st = 0 then s
      else modRec g r.id (fun r => { r with status := if r.status = 0 then st else r.status, bad := if Ep.target b < 2 then i :: r.bad else r.bad }) s
    let w := if Ep.target b < 2 then
        let runs := rowRuns sh r i
        let one (acc : State × BitVec 16) (n : Nat) : State × BitVec 16 :=
          if acc.2 ≠ 0 then acc else epilogueWrite g x c i n r (runs.getD n (0, 0)).1 (if n = 0 then out.1 else out.2) acc.1
        (List.range runs.length).foldl one (s0, 0)
      else sendRow g x c i r b out.1 s0
    rowEnds g r.id i (failed w.2 w.1)

/-- The MEPI has a row to go on with. -/
def mepiReady (x : Group) (r : SeqRec) : Bool :=
  !x.frozen && decide (r.prog < r.rows) && r.waiting.isEmpty && !r.paused && !(r.status != 0 && decide (Ep.target r.desc < 2))

/-- A MEPI of the core whose turn comes before, and that can go on (R238). -/
def mepiBefore (s : State) (x : Group) (r : SeqRec) : Bool :=
  s.groups.any fun e => e.2.core == x.core && e.2.seq.recs.any fun y =>
    decide (y.turn < r.turn) && mepiReady e.2 y && match recInstr y, ctx? s e.2.ctx with
      | some (.mepi sh _ _), some c => match rowSays s e.2 c sh y with
        | .go | .page _ => true
        | _ => false
      | _, _ => false

def execMepiRowRetire (g k : Nat) (s : State) : Out := held s <|
  match group? s g with
  | none => idle s
  | some x =>
    match x.seq.recs[k]?, ctx? s x.ctx with
    | some r, some c =>
      match recInstr r with
      | some (.mepi sh _ _) =>
        if !mepiReady x r || mepiBefore s x r then idle s
        else
          match rowSays s x c sh r with
          | .go => .next (settleMepi g r.id (retireRow g x c sh r (arith 1 s)))
          | .lack d => .next (askLine s d false)
          | .page gpa => .next (settleMepi g r.id (pauseMepi g x r.id gpa s))
          | .hold => idle s
      | _ => idle s
    | _, _ => idle s

end Sys2Proof.Machine
end

