-- ==== Sys2Proof/Machine/EngineRun.lean ====
section
/-! DEFINITION. Engine commands at work: their start, their accesses, their units of work (R147, R149, R155 to R161, R227, R245 to
R252), faults (R153, R255) and completion (R150). A command works one unit at a time: a piece of COPY, a pair of COPY.pl, a row of
GATHER, an add of SCADD, an element of SORT (log 6). -/

set_option linter.unusedVariables false

namespace Sys2Proof.Machine

def modCmd (k : Nat) (f : Cmd → Cmd) (s : State) : State := { s with cmds := smod k f s.cmds }

/-- The outcome of an attempt: a value, something not here yet, a translation fault, or a status that stops the command. -/
inductive Work (α : Type) where
  | ok (a : α)
  | wait
  | page (cause : BitVec 16) (tval : Long)
  | stop (status : BitVec 16)

/-- An attempt of command k. -/
def Job (α : Type) : Type := State → State × Work α

def Job.give {α : Type} (a : α) : Job α := fun s => (s, .ok a)
def Job.andThen {α β : Type} (j : Job α) (f : α → Job β) : Job β := fun s =>
  match j s with
  | (s1, .ok a) => f a s1
  | (s1, .wait) => (s1, .wait)
  | (s1, .page c v) => (s1, .page c v)
  | (s1, .stop st) => (s1, .stop st)

/-! ### Accesses -/

/-- Where a piece of a command lies. -/
inductive EngAt where
  | here (dpa : Nat) | loc (region off : Nat) | away (home : Nat) | wait (dpa : Nat) (write : Bool)
  | page (cause : BitVec 16) (tval : Long)
  | stop (status : BitVec 16)
  deriving DecidableEq, Repr, Inhabited

def engAt (c : Cmd) (p : Long) (len : Nat) (write : Bool) (s : State) : EngAt :=
  let ready (dpa : Nat) : EngAt :=
    if !write && rowFailed s dpa then .stop 0x0009
    else if lineReady s dpa write && !tagMiss s c.ctx dpa then .here dpa else .wait dpa write
  match ptrSpace p with
  | .loc => .loc (ptrRegion p) (ptrOff p)
  | .tensor =>
    if ptrHome p ≠ s.selfPkg then
      if !routeValid s (ptrHome p) || pkgLost s (ptrHome p) then .stop 0x0004 else .away (ptrHome p)
    else
      match portResolve s { pkg := s.selfPkg, ctx := c.ctx, key := c.key, part := c.part } (ptrBuf p) (ptrOff p) len
          (if write then .wr else .rd) with
      | .ok dpa => ready dpa
      | .lacks d => .wait d false
      | .stage2 gpa => .page 0x14 (BitVec.ofNat 64 gpa)
      | a => .stop a.status
  | _ =>
    match (translate none c.ctx (ptrOff p) (if write then .wr else .rd) s).2 with
    | .ok dpa => if regionLost s dpa then .stop 0x0004 else if layerOff s dpa then .stop 0x0009 else ready dpa
    | .lacks d => .wait d false
    | .stage1 => .page 0x13 p
    | .stage2 gpa => .page 0x14 (BitVec.ofNat 64 gpa)

/-- What a command's line lacks is asked for; a copy under another context's identifier misses (R266). -/
def askEng (c : Cmd) (dpa : Nat) (write : Bool) (s : State) : State :=
  askLine (if tagMiss s c.ctx dpa then giveLine (dpa / 512) s else s) dpa write

/-- A read request to another home (R316); its answer is kept with the command. -/
def askRemote (k : Nat) (c : Cmd) (p : Long) (len : Nat) (s : State) : State :=
  let now := (sget k s.cmds).getD c
  if now.asked.contains p.toNat || buffersFull s || !numbersFree s c.ctx 1 then s
  else
    let t := takeTags c.ctx 1 s
    let m : Send :=
      { kind := 0x04, dst := ptrHome p, ctx := c.ctx, key := c.key, part := c.part, label := c.fl.toNat, ord := false, addr := p,
        tag := tagOf c.ctx t.2 0, opinfo := 0, ty := .b8, len := len, data := [], owner := .cmd k, number := 0, launch := c.launch,
        pc := c.pc, off := 0, access := s.fresh, dseqWas := none }
    modCmd k (fun c => { c with asked := p.toNat :: c.asked }) (sendTensor m { t.1 with fresh := t.1.fresh + 1 }).1

/-- The home of a tensor pointer is lost or cannot be reached. -/
def homeLost (s : State) (p : Long) : Bool :=
  ptrSpace p == .tensor && ptrHome p != s.selfPkg && (!routeValid s (ptrHome p) || pkgLost s (ptrHome p))

/-- A store to the granule stands in the write path of a copy engine's core: performed at .grp and .core, so the engine must see it (R264,
R267). -/
def inCorePath (s : State) (c : Cmd) (dpa : Nat) : Bool :=
  c.kind == .copy && s.homeq.any fun a => a.inPath && a.core == c.core && ((accessDpa s a).map granuleOf) == some (granuleOf dpa)

/-- One granule piece: bytes read earlier for this unit or, of a gather, for this command (R246), while their home is not lost (R255);
else the home's. -/
def readPiece (k : Nat) (c : Cmd) (p : Long) (len : Nat) : Job (List Byte) := fun s =>
  if homeLost s p then (s, .stop 0x0004)
  else
    match ((sget k s.cmds).getD c).fetched.find? fun e => e.1 == p.toNat with
    | some e => (s, .ok (e.2.take len))
    | none =>
      match engAt c p len false s with
      | .loc r o => (s, .ok (((group? s c.group).map fun x => localRead s x r o len).getD (zeros len)))
      | .here dpa => if inCorePath s c dpa then (s, .wait) else (claimLine c.ctx dpa s, .ok (homeRead s dpa len))
      | .away _ => (askRemote k c p len s, .wait)
      | .wait dpa w => (askEng c dpa w s, .wait)
      | .page cause v => (s, .page cause v)
      | .stop st => (s, .stop st)

/-- A piece that a gather's command reads once is kept (R246). -/
def keepPiece (k : Nat) (p : Long) (bs : List Byte) : Job Unit := fun s =>
  (modCmd k (fun c => if c.fetched.any fun e => e.1 == p.toNat then c else { c with fetched := (p.toNat, bs) :: c.fetched }) s, .ok ())

def readRun (k : Nat) (c : Cmd) (p : Long) (keep : Bool) : List (Nat × Nat) → List Byte → Job (List Byte)
  | [], got => Job.give got
  | (off, len) :: rest, got =>
    (readPiece k c (ptrAdd p off) len).andThen fun bs =>
      if keep then (keepPiece k (ptrAdd p off) bs).andThen fun _ => readRun k c p keep rest (got ++ bs)
      else readRun k c p keep rest (got ++ bs)

/-- n bytes at p, granule by granule. -/
def engRead (k : Nat) (c : Cmd) (p : Long) (n : Nat) (keep : Bool) : Job (List Byte) :=
  readRun k c p keep (granules (ptrOff p) n) []

/-- n numbers of w bytes. -/
def engWords (k : Nat) (c : Cmd) (p : Long) (n w : Nat) : Job (List Nat) :=
  (engRead k c p (n * w) false).andThen fun bs => Job.give ((List.range n).map fun i => field bs (i * w) w)

/-- The granule pieces of a list of writes. -/
def writePieces (ws : List (Long × List Byte)) : List (Long × List Byte) :=
  ws.flatMap fun w => (granules (ptrOff w.1) w.2.length).map fun g => (ptrAdd w.1 g.1, (w.2.drop g.1).take g.2)

/-- A copy engine's core keeps its L1 copies up to date (R265). -/
def Cmd.writer (c : Cmd) : Writer :=
  { core := if c.kind == .copy || c.kind == .copyPl then some c.core else none, ctx := c.ctx }

/-! ### Units in flight (R146, R150, R154) -/

def Cmd.flight? (c : Cmd) (u : Nat) : Option Flight := c.flights.find? fun f => f.u == u

def modFlight (k u : Nat) (g : Flight → Flight) (s : State) : State :=
  modCmd k (fun c => { c with flights := c.flights.map fun f => if f.u = u then g f else f }) s

/-- Some piece of unit u is still to be performed or sent. -/
def Cmd.unsent (c : Cmd) (u : Nat) : Bool := match c.flight? u with
  | none => true
  | some f => decide (f.next < f.n)

def Flight.isDone (f : Flight) : Bool := decide (f.n ≤ f.next) && f.left.isEmpty && !f.bad

/-- The units of the completion record and of a collective's destination; a SORT's segment table is the unit at its total. -/
def recUnit : Nat := 2 ^ 63
def collUnit : Nat := 2 ^ 62

/-- The unit is begun: it takes its tags, unless it holds them since before a freeze; none when the numbers are not free (R146). -/
def beginFlight (k : Nat) (u adv n : Nat) (s : State) : State × Option Flight :=
  match sget k s.cmds with
  | none => (s, none)
  | some c =>
    match c.flight? u with
    | some f => (s, some f)
    | none =>
      let held := if c.bar.isSome && u != recUnit then 2 * n else n
      if !numbersFree s c.ctx held then (s, none)
      else
        let t := takeTags c.ctx held s
        let f : Flight := { u := u, adv := adv, tag := t.2, n := n, held := held, next := 0, left := [], bad := false, landed := 0 }
        (modCmd k (fun c => { c with flights := c.flights ++ [f] }) t.1, some f)

def dropFlight (k : Nat) (f : Flight) (s : State) : State :=
  match sget k s.cmds with
  | none => s
  | some c => (List.range f.held).foldl (fun s i => releaseTag (tagOf c.ctx f.tag i) s)
      (modCmd k (fun c => { c with flights := c.flights.filter fun y => y.u != f.u }) s)

/-- What ends with a unit other than progress. -/
def Cmd.unitEnds (u : Nat) (c : Cmd) : Cmd :=
  if u = recUnit then { c with recDone := true }
  else if u = collUnit then { c with tabDone := true, sub := 0 }
  else if c.kind = .sort then { c with tabDone := true } else c

/-- Units that are done end: the progress point moves over those that stand at it, and their tags are free (R154, R352). -/
def settleFlights (k : Nat) : Nat → State → State
  | 0, s => s
  | n + 1, s =>
    match sget k s.cmds with
    | none => s
    | some c =>
      match c.flights.find? fun f => f.isDone && (f.adv == 0 || f.u == c.prog) with
      | none => s
      | some f => settleFlights k n (modCmd k (fun c => if f.adv = 0 then c.unitEnds f.u else { c with prog := c.prog + f.adv }) (dropFlight k f s))

def settleUnits (k : Nat) (s : State) : State := settleFlights k (((sget k s.cmds).map fun c => c.flights.length).getD 0) s

/-- A piece is performed, or acknowledged where it is remote: its bytes count, and arrive at the barrier once (R150). -/
def landPiece (k u i bytes : Nat) (s : State) : State :=
  match sget k s.cmds with
  | none => s
  | some c =>
    match c.flight? u with
    | none => s
    | some f =>
      if u = recUnit then s
      else
        let s1 := modFlight k u (fun f => { f with landed := f.landed + bytes }) (modCmd k (fun c => { c with written := c.written + bytes }) s)
        match c.bar with
        | none => s1
        | some b =>
          let tag := tagOf c.ctx (f.tag + BitVec.ofNat 20 (f.n + i)) 0
          if bytes = 0 || (findTag s1 s1.selfPkg tag (barTarget c.core b)).isSome then s1
          else barAdd c.group b bytes (keepTag s1.selfPkg tag (barTarget c.core b) [] s1)

/-- Bytes that a packet of a command lands: an add of bfloat16 elements carries them as binary32 (log 27). -/
def landed (p : Packet) : Nat := if p.kind = 0x03 ∧ p.ty = .bf16 then p.data.length / 2 else p.data.length

/-- The answer to a sent piece: a refused one keeps its unit from ending, and stops the command (R153). -/
def pieceAcked (k u i bytes : Nat) (ok : Bool) (s : State) : State :=
  match (sget k s.cmds).bind fun c => c.flight? u with
  | none => s
  | some f =>
    if !f.left.contains i then s
    else
      let s1 := modFlight k u (fun f => { f with left := f.left.erase i, bad := f.bad || !ok }) s
      if ok then settleUnits k (landPiece k u i bytes s1) else s1

/-- A write, or a granule add of SCADD (log 27), sent to its home. -/
def sendPiece (k : Nat) (c : Cmd) (u i : Nat) (kind : BitVec 8) (ty : Ty) (p : Long) (tag : BitVec 32) (bs : List Byte) (s : State) : State :=
  let old (u : Unacked) : Bool := u.stale && u.ctx == c.ctx && u.packet.tag == tag
  let was := (s.fab.unacked.find? old).map (·.packet.dseq)
  let m : Send :=
    { kind := kind, dst := ptrHome p, ctx := c.ctx, key := c.key, part := c.part, label := c.fl.toNat, ord := false, addr := p,
      tag := tag, opinfo := if kind = 0x03 then atomInfo .fadd false false else 0, ty := ty, len := bs.length, data := bs,
      owner := .piece k u i, number := 0, launch := c.launch, pc := c.pc, off := 0, access := s.fresh, dseqWas := was }
  (sendTensor m { s with fresh := s.fresh + 1, fab := { s.fab with unacked := s.fab.unacked.filter fun u => !old u } }).1

/-- The flow label of a unit's packets: MOD's, or 0 where they go out again (R147, R353). -/
def Cmd.labelled (c : Cmd) (f : Flight) : Cmd := { c with fl := if f.again then 0 else c.fl }

/-- The outcome of a piece: performed, or on its way. -/
inductive PieceEnd where
  | performed | sent
  deriving DecidableEq, Repr, Inhabited

/-- Piece i of a unit is written: in local store and at this package's homes once (R352); one in a mirrored region is performed when the
mirror has answered (R328). -/
def writePiece (k : Nat) (c : Cmd) (f : Flight) (i : Nat) (p : Long) (bs : List Byte) : Job PieceEnd := fun s =>
  let tag := tagOf c.ctx f.tag i
  let known (target : Nat) : Bool := (findTag s s.selfPkg tag target).isSome
  match engAt c p bs.length true s with
  | .wait dpa w => (askEng c dpa w s, .wait)
  | .page cause v => (s, .page cause v)
  | .stop st => (s, .stop st)
  | .loc r o =>
    if known (localTarget c.group r o) then (s, .ok .performed)
    else (keepTag s.selfPkg tag (localTarget c.group r o) [] (localWrite c.group r o bs s), .ok .performed)
  | .away _ => if buffersFull s then (s, .wait) else (sendPiece k (c.labelled f) f.u i 0x01 .b8 p tag bs s, .ok .sent)
  | .here dpa =>
    if mirrorPending s s.selfPkg tag (granuleOf dpa) then
      (joinMirror s.selfPkg tag (granuleOf dpa) (fun m => { m with owner := .piece k f.u i, off := bs.length }) s, .ok .sent)
    else if known (granuleOf dpa) then (s, .ok .performed)
    else if sliceFull s || resvHolds s dpa then (s, .wait)
    else
      let w : MirrorWait :=
        { tag := s.fresh, owner := .piece k f.u i, off := bs.length, access := 0, result := [], mirror := (mirrorOf s dpa).getD 0,
          guards := some (s.selfPkg, tag, granuleOf dpa) }
      let s1 := keepTag s.selfPkg tag (granuleOf dpa) [] (homeWrite c.writer none (some (tag, [])) dpa bs (claimLine c.ctx dpa s))
      let s2 := if ptrSpace p = .tensor then noteWritten c.part (ptrBuf p) (ptrOff p) s1 else s1
      if homedHere s dpa && (mirrorOf s dpa).isSome then (({ s2 with mirrorq := s2.mirrorq ++ [w] } : State), .ok .sent)
      else (s2, .ok .performed)

/-- A piece has been performed or sent: the unit goes on to the next. -/
def pieceWent (k u i bytes : Nat) (e : PieceEnd) (s : State) : State :=
  match e with
  | .performed => settleUnits k (landPiece k u i bytes (modFlight k u (fun f => { f with next := i + 1 }) s))
  | .sent => modFlight k u (fun f => { f with next := i + 1, left := i :: f.left }) s

/-- The next piece of a unit whose writes are ws. -/
def putNext (k : Nat) (u adv : Nat) (ws : List (Long × List Byte)) : Job Unit := fun s =>
  match beginFlight k u adv ws.length s with
  | (s1, none) => (s1, .wait)
  | (s1, some f) =>
    match sget k s1.cmds, ws[f.next]? with
    | some c, some w =>
      match writePiece k c f f.next w.1 w.2 s1 with
      | (s2, .ok e) => (pieceWent k u f.next w.2.length e s2, .ok ())
      | (s2, .wait) => (s2, .wait)
      | (s2, .page cause v) => (s2, .page cause v)
      | (s2, .stop st) => (s2, .stop st)
    | _, _ => (settleUnits k s1, .ok ())

/-- Every piece of a unit, one after the other. -/
def putAll (k : Nat) (u : Nat) (ws : List (Long × List Byte)) : Nat → Job Unit
  | 0 => Job.give ()
  | n + 1 => (putNext k u 0 ws).andThen fun _ => putAll k u ws n

/-- Every piece may be written. -/
def checkPieces (c : Cmd) : List (Long × List Byte) → Job Unit
  | [] => Job.give ()
  | (p, bs) :: rest => fun s =>
    match engAt c p bs.length true s with
    | .wait dpa w => (askEng c dpa w s, .wait)
    | .page cause v => (s, .page cause v)
    | .stop st => (s, .stop st)
    | _ => checkPieces c rest s

/-- One of several things that may go next; where there is a choice, a free one. -/
def choose {α : Type} (s : State) (l : List α) : State × Option α :=
  if l.length ≤ 1 then (s, l.head?) else ({ s with free := s.free + 1 }, l[Config.nextPiece s.free % l.length]?)

/-! ### Units of work -/

/-- What a unit does when all it reads is here. -/
inductive UnitWork where
  /-- the writes of the unit at u, and what it has read of other homes and needs no more -/
  | writes (u : Nat) (l : List (Long × List Byte)) (advance : Nat) (used : List (Long × Nat))
  | planes (row kb : Nat) (codes : List Nat) (scale : Nat) (used : List (Long × Nat))
  | idle
  | plan (f : Cmd → Cmd)
  | done

/-- The end of a command's progress (R154, R252). -/
def Cmd.total (c : Cmd) : Nat :=
  let b := c.block
  match c.kind with
  | .copy => field b 32 4 * field b 36 4
  | .copyPl => field b 28 4 * field b 36 4
  | .gather => Gs.rows b
  | .scadd => Gs.nidx b
  | .sort =>
    let passes := if 65536 < Srt.n b ∧ Srt.digits b % 2 = 0 then Srt.digits b + 1 else Srt.digits b
    passes * Srt.n b
  | .coll => 0

/-- The bytes of the piece of a COPY at progress point i, within one granule at both ends (R155): source, destination, length. -/
def copyPiece (b : List Byte) (i : Nat) : Long × Long × Nat :=
  let rb := field b 32 4
  let row := i / rb
  let o := i % rb
  let src := ptrAdd (BitVec.ofNat 64 (field b 0 8)) ((row * field b 16 8 + o : Nat) : Int)
  let dst := ptrAdd (BitVec.ofNat 64 (field b 8 8)) ((row * field b 24 8 + o : Nat) : Int)
  (src, dst, min (rb - o) (min (32 - src.toNat % 32) (32 - dst.toNat % 32)))

/-- Where the n pieces from progress point i on begin. -/
def copyPieces (b : List Byte) (total : Nat) : Nat → Nat → List Nat
  | 0, _ => []
  | n + 1, i => if total ≤ i then [] else i :: copyPieces b total n (i + (copyPiece b i).2.2)

/-- The units of a command that may go next: of a COPY the pieces of a window, which have no order (R155); the bag or row at the
progress point; the elements that follow it in a sweep; of a SCADD the positions of a window whose rows no earlier one is still to be
added to (R160). -/
def Cmd.window (c : Cmd) : List Nat :=
  match c.kind with
  | .copy => (copyPieces c.block c.total 4 c.prog).filter c.unsent
  | .sort =>
    let pass := c.prog / Srt.n c.block
    ((((List.range 4).map (c.prog + ·)).filter fun u => decide (u < c.total) && u / Srt.n c.block == pass).find? c.unsent).toList
  | .gather | .copyPl => if decide (c.prog < c.total) && c.unsent c.prog then [c.prog] else []
  | .scadd =>
    let open_ := ((List.range 16).map (c.prog + ·)).filter fun u => decide (u < c.total) && c.unsent u
    let row (u : Nat) : Option Nat := if c.shard.getD u 0 < Gs.trows c.block then some (c.shard.getD u 0)
      else if Gs.policy c.block = 2 then some (Gs.trows c.block - 1) else none
    open_.filter fun u => !(open_.any fun v => decide (v < u) && (row v).isSome && row v == row u)
  | .coll => []

/-- The next piece of a COPY (R155). -/
def copyUnit (k : Nat) (c : Cmd) : Job UnitWork := fun s =>
  match choose s c.window with
  | (s1, none) => (s1, .ok .idle)
  | (s1, some u) =>
    let q := copyPiece c.block u
    (engRead k c q.1 q.2.2 false).andThen (fun bs => Job.give (.writes u [(q.2.1, bs)] q.2.2 [(q.1, q.2.2)])) s1

/-- The codes and the scale of one pair in the reservation's format (R156). -/
def convertPair (sf rf conv : Nat) (bs : List Byte) (scale : Nat) : List Nat × Nat :=
  let raw (i : Nat) : Nat := fromSlot (fmtTy sf) (bits (leNat bs) (fmtElemBits sf * i) (fmtElemBits sf))
  let sat := bit conv 0
  let val (i : Nat) : XNum := (Ty.fmt (fmtTy sf)).input (fmtFtz sf) (raw i)
  if sf = rf then ((List.range 32).map raw, scale)
  else
    match fmtBlock rf with
    | some blk =>
      let e := blockEncode blk (bits conv 4 4) .rne sat (bit conv 1) ((List.range 32).map fun i => (true, val i))
      (e.codes, e.scale)
    | none => ((List.range 32).map fun i => fromSlot (fmtTy rf) (elemCode rf sat (val i)), 0)

/-- A pair of COPY.pl (R156). -/
def copyPlUnit (k : Nat) (c : Cmd) : Job UnitWork :=
  let b := c.block
  let sf := field b 48 1
  let rf := hFmt c.handle
  let r := c.prog / field b 36 4
  let kb := c.prog % field b 36 4
  let sc := if sf = rf then fmtScale sf else 0
  let src := ptrAdd (BitVec.ofNat 64 (field b 0 8)) ((r * field b 8 8 + kbBytes sf kb : Nat) : Int)
  (engRead k c src (kbBytes sf 1) false).andThen fun bs =>
    (if sc = 0 then Job.give [] else
      engRead k c (ptrAdd (BitVec.ofNat 64 (field b 16 8)) (((r * field b 36 4 + kb) * sc : Nat) : Int)) sc false).andThen fun ss =>
      let e := convertPair sf rf (field b 49 1) bs (leNat ss)
      Job.give (.planes (field b 24 4 + r) (field b 32 4 + kb) e.1 e.2 [(src, kbBytes sf 1)])

/-! ### Gather and scatter-add (R158 to R160, R246 to R250) -/

/-- The captured index list and offsets: read in ascending order before the rows. -/
def Cmd.indices (c : Cmd) : List Nat := c.shard
def Cmd.offsets (c : Cmd) : List Nat := ((c.inbox.head?).map (·.2)).getD []

/-- Positions of bag b; in per-row modes position b. -/
def bagOf (c : Cmd) (b : Nat) : List Nat :=
  if Gs.mode c.block = 0 then [b]
  else
    let lo := c.offsets.getD b 0
    let hi := if b + 1 < Gs.nbag c.block then c.offsets.getD (b + 1) 0 else Gs.nidx c.block
    (List.range (hi - lo)).map fun i => lo + i

def offsetsOk (l : List Nat) (n : Nat) : Bool :=
  (List.range l.length).all fun i => decide (l.getD i 0 ≤ n) && (i == 0 || decide (l.getD (i - 1) 0 ≤ l.getD i 0))

/-- The final index of a position under the policy; none where it names no row. -/
def finalIndex (b : List Byte) (x : Nat) : Option Nat :=
  if x < Gs.trows b then some x else if Gs.policy b = 2 then some (Gs.trows b - 1) else none

def outOfRange (b : List Byte) (l : List Nat) : Nat := (l.filter fun x => decide (Gs.trows b ≤ x)).length

/-- Positions whose final index an earlier position has (R159 COUNTB). -/
def duplicates (b : List Byte) (l : List Nat) : Nat :=
  (l.filterMap (finalIndex b)).length - (l.filterMap (finalIndex b)).eraseDups.length

/-- The offsets are checked first, then FAULT's pre-scan (R158, R159). -/
def gatherPlan (k : Nat) (c : Cmd) : Job UnitWork :=
  let b := c.block
  (if Gs.mode b = 0 then Job.give [] else engWords k c (Gs.offsets b) (Gs.nbag b) 4).andThen fun offs =>
    if !offsetsOk offs (Gs.nidx b) then Job.give (.plan fun c => { c with status := 0x0007 })
    else
      (engWords k c (Gs.index b) (Gs.nidx b) (Gs.idxBytes b)).andThen fun l =>
        let n := outOfRange b l
        let low := ((List.range l.length).find? fun i => decide (Gs.trows b ≤ l.getD i 0)).getD 0
        let dup := duplicates b l
        if Gs.policy b = 3 ∧ n ≠ 0 then Job.give (.plan fun c => { c with status := 0x0001, counta := n, prog := low })
        else
          Job.give (.plan fun c =>
            { c with shard := l, inbox := [(0, offs)], counta := n, countb := dup, agreed := true, fetched := [], asked := [] })

/-- The element codes of a row widened to binary32 (R248). -/
def widenRow (t : Nat) (bs : List Byte) (n : Nat) : List Nat :=
  (List.range n).map fun i => if t = 11 then field bs (2 * i) 2 * 2 ^ 16 else field bs (4 * i) 4

def rowPtr (b : List Byte) (x : Nat) : Long := ptrAdd (Gs.table b) ((x * Gs.tstride b : Nat) : Int)

/-- The pseudo-channel of a row's first byte (R158). -/
def rowChannel (s : State) (c : Cmd) (x : Nat) : Nat :=
  let p := rowPtr c.block x
  if ptrHome p = s.selfPkg then (bufPlace (bufEntry s c.part (ptrBuf p)) (ptrOff p)).1
  else Config.remoteChannel (ptrHome p) (c.part * 4096 + ptrBuf p) (ptrOff p)

/-- The rows of some positions' final indices, each read once. -/
def readRows (k : Nat) (c : Cmd) : List Nat → List (Nat × List Nat) → Job (List (Nat × List Nat))
  | [], got => Job.give got
  | x :: rest, got =>
    if got.any fun g => g.1 == x then readRows k c rest got
    else
      let es := rowTypeBytes (Gs.ttype c.block)
      (engRead k c (rowPtr c.block x) (Gs.cols c.block * es) true).andThen fun bs =>
        readRows k c rest (got ++ [(x, widenRow (Gs.ttype c.block) bs (Gs.cols c.block))])

def addF32 (a b : Nat) : Nat := narrow fmtF32 .rne false (numAdd .rne (fmtF32.decode a) (fmtF32.decode b))

/-- Row (R159): combine element by element; Empty is none. -/
def combineRow (op : Nat → Nat → Nat) (a : Option (List Nat)) (b : List Nat) : Option (List Nat) :=
  match a with
  | none => some b
  | some a => some ((List.range b.length).map fun i => op (a.getD i 0) (b.getD i 0))

/-- The sum of a bag: partials by home in list order, then the homes in ascending order. -/
def bagSum (chan : Nat → Nat) (rows : List (Nat × List Nat)) (xs : List Nat) : Option (List Nat) :=
  let row (x : Nat) : List Nat := ((rows.find? fun g => g.1 == x).map (·.2)).getD []
  let homes := sortBy (fun a b => decide (a ≤ b)) (xs.map chan).eraseDups
  let part (h : Nat) : Option (List Nat) := (xs.filter fun x => chan x == h).foldl (fun a x => combineRow addF32 a (row x)) none
  (homes.filterMap part).foldl (fun a r => combineRow addF32 a r) none

/-- The values of output row b (R159, R249): none where the row is left unwritten. -/
def bagRow (chan : Nat → Nat) (b : List Byte) (idx : List Nat) (rows : List (Nat × List Nat)) : Option (List Nat) :=
  let cols := Gs.cols b
  let zero := List.replicate cols 0
  let xs := idx.filterMap (finalIndex b)
  let outs := idx.length - xs.length
  let cnt := xs.length + if Gs.policy b = 0 then outs else 0
  let row (x : Nat) : List Nat := ((rows.find? fun g => g.1 == x).map (·.2)).getD []
  let vs : List (List Nat) := idx.filterMap fun x => match finalIndex b x with
    | some y => some (row y)
    | none => if Gs.policy b = 0 then some zero else none
  match Gs.mode b with
  | 0 => if Gs.policy b = 1 ∧ outs ≠ 0 then none else some ((bagSum chan rows xs).getD zero)
  | 1 => some ((bagSum chan rows xs).getD zero)
  | 2 => some (match bagSum chan rows xs with
      | none => zero
      | some v => v.map fun x => narrow fmtF32 .rne false (numDiv (fmtF32.decode x) (numOfInt (cnt : Nat))))
  | _ => some ((vs.foldl (fun a r => combineRow (fminmax fmtF32 true) a r) none).getD zero)

/-- A max over one row alone is still R111's value of it. -/
def narrowRow (t : Nat) (v : List Nat) : List Byte :=
  v.flatMap fun x => if t = 11 then leBytes (narrow fmtBf16 .rne false (fmtF32.decode x)) 2
    else leBytes (narrow fmtF32 .rne false (fmtF32.decode x)) 4

/-- The granules of the rows that some bags name and that the command has not read: each is read once, in no order (R246). DESIGN
CHOICE (log 108): a row that only positions before OFFSETS[0] name is in no bag and is not read. -/
def missingPieces (c : Cmd) (bags : List Nat) : List (Long × Nat) :=
  let rows := (bags.flatMap fun b => ((bagOf c b).map fun i => c.indices.getD i 0).filterMap (finalIndex c.block)).eraseDups
  let n := Gs.cols c.block * rowTypeBytes (Gs.ttype c.block)
  let pieces (x : Nat) : List (Long × Nat) := (granules (ptrOff (rowPtr c.block x)) n).map fun q => (ptrAdd (rowPtr c.block x) q.1, q.2)
  ((rows.flatMap pieces).filter fun q => !(c.fetched.any fun e => e.1 == q.1.toNat)).eraseDups

/-- A bag, or a row of copy mode: its rows' granules one by one, those of the seven bags after it too, then the sums. -/
def gatherUnit (k : Nat) (c : Cmd) : Job UnitWork :=
  if !c.agreed then gatherPlan k c
  else if c.window.isEmpty then Job.give .idle
  else if (missingPieces c [c.prog]).isEmpty then
    let b := c.block
    let idx := (bagOf c c.prog).map fun i => c.indices.getD i 0
    (readRows k c (idx.filterMap (finalIndex b)) []).andThen fun rows => fun s =>
      let dst := ptrAdd (Gs.data b) ((c.prog * Gs.dstride b : Nat) : Int)
      match bagRow (rowChannel s c) b idx rows with
      | none => (s, .ok (.writes c.prog [] 1 []))
      | some v => (s, .ok (.writes c.prog [(dst, narrowRow (Gs.dtype b) v)] 1 []))
  else fun s =>
    let bags := ((List.range 8).map (c.prog + ·)).filter fun b => decide (b < c.total)
    match choose s ((missingPieces c bags).filter fun q => !c.asked.contains q.1.toNat) with
    | (s1, none) => (s1, .ok .idle)
    | (s1, some q) => ((readPiece k c q.1 q.2).andThen fun bs => (keepPiece k q.1 bs).andThen fun _ => Job.give (.plan id)) s1

/-- The bag that holds a position: the last one that starts at or before it. -/
def bagAt (c : Cmd) (i : Nat) : Option Nat :=
  ((List.range (Gs.nbag c.block)).filter fun b => decide (c.offsets.getD b 0 ≤ i)).getLast?

/-- How many positions of a bag count (R249). -/
def bagCount (c : Cmd) (b : Nat) : Nat :=
  let idx := (bagOf c b).map fun i => c.indices.getD i 0
  (idx.filter fun x => decide (x < Gs.trows c.block) || Gs.policy c.block == 0 || Gs.policy c.block == 2).length

/-- A gradient row widened, divided by its bag's count in mode 10 (R160). -/
def gradient (c : Cmd) (i : Nat) (bs : List Byte) : List Nat :=
  let g := widenRow (Gs.dtype c.block) bs (Gs.cols c.block)
  if Gs.mode c.block ≠ 2 then g
  else g.map fun x => narrow fmtF32 .rne false
    (numDiv (fmtF32.decode x) (numOfInt ((bagAt c i).map (bagCount c) |>.getD 1 : Nat)))

/-- The gradient row of a position: per position, or per bag. DESIGN CHOICE (log 94): a position that lies in no bag (before OFFSETS[0])
has none and adds nothing. -/
def gradientRow (c : Cmd) (i : Nat) : Option Nat := if Gs.mode c.block = 0 then some i else bagAt c i

/-- The new bytes of a granule after an add: element by element, widened, added, narrowed (R160, R248). -/
def addGranule (bf16 : Bool) (old add : List Byte) : List Byte :=
  if bf16 then
    (List.range (old.length / 2)).flatMap fun i =>
      leBytes (narrow fmtBf16 .rne false (numAdd .rne (fmtF32.decode (field old (2 * i) 2 * 2 ^ 16)) (fmtF32.decode (field add (4 * i) 4)))) 2
  else (List.range (old.length / 4)).flatMap fun i => leBytes (addF32 (field old (4 * i) 4) (field add (4 * i) 4)) 4

/-- The granule adds of a position: where, and the binary32 gradients of its elements. -/
def positionAdds (c : Cmd) (x : Nat) (g : List Nat) : List (Long × Nat × List Byte) :=
  let es := rowTypeBytes (Gs.ttype c.block)
  let p := rowPtr c.block x
  (granules (ptrOff p) (Gs.cols c.block * es)).map fun q =>
    (ptrAdd p q.1, q.2, ((g.drop (q.1 / es)).take (q.2 / es)).flatMap fun v => leBytes v 4)

/-! ### Sort (R161, R252) -/

def sortKey (b : List Byte) (key : Nat) : Nat := key % 2 ^ (8 * Srt.digits b)

/-- A stable order of positions by a key. -/
def stableOrder (key : Nat → Nat) (n : Nat) : List Nat := sortBy (fun i j => decide (key i ≤ key j)) (List.range n)

/-- The arrays of a pass: source and destination, keys and payloads. Pass DIGITS of a long sort copies. -/
def passArrays (b : List Byte) (pass : Nat) : (Long × Long) × (Long × Long) :=
  if Srt.n b ≤ 65536 ∨ pass = 0 then ((Srt.keys b, Srt.vals b), (Srt.okeys b, Srt.ovals b))
  else if pass % 2 = 1 ∧ pass < Srt.digits b then ((Srt.okeys b, Srt.ovals b), (Srt.keys b, Srt.vals b))
  else ((Srt.keys b, Srt.vals b), (Srt.okeys b, Srt.ovals b))

/-- The order in which a pass writes: by the whole sorted digits for a short sort, by its own digit for a long one. -/
def passOrder (b : List Byte) (pass : Nat) (keys : List Nat) : List Nat :=
  if Srt.n b ≤ 65536 then stableOrder (fun i => sortKey b (keys.getD i 0)) (Srt.n b)
  else if pass < Srt.digits b then stableOrder (fun i => keys.getD i 0 / 2 ^ (8 * pass) % 256) (Srt.n b)
  else List.range (Srt.n b)

/-- The engine's pass: the arrays are read once at its start. shard holds the keys in output order, inbox the payloads. -/
def sortPlan (k : Nat) (c : Cmd) (pass : Nat) : Job UnitWork :=
  let b := c.block
  let a := (passArrays b pass).1
  (engWords k c a.1 (Srt.n b) 4).andThen fun keys =>
    (if Srt.vals b = 0 then Job.give [] else engWords k c a.2 (Srt.n b) 4).andThen fun vals =>
      let o := passOrder b pass keys
      let ks := o.map fun i => keys.getD i 0
      let vs := o.map fun i => vals.getD i 0
      let above := if field b 32 8 = 0 then 0 else (keys.filter fun x => decide (Srt.segs b ≤ sortKey b x)).length
      let at' (c : Cmd) : Nat := if Srt.n b ≤ 65536 then max c.prog ((Srt.digits b - 1) * Srt.n b) else c.prog
      Job.give (.plan fun c =>
        { c with shard := ks, inbox := [(0, vs)], axis := pass, agreed := true, prog := at' c, counta := Srt.n b, countb := above,
                 fetched := [], asked := [] })

/-- The segment table (R161). -/
def segTable (b : List Byte) (keys : List Nat) : List Byte :=
  (List.range (Srt.segs b + 1)).flatMap fun q => leBytes ((keys.filter fun x => decide (sortKey b x < q)).length) 4

def sortUnit (k : Nat) (c : Cmd) : Job UnitWork :=
  let b := c.block
  let n := Srt.n b
  let last := decide (c.total ≤ c.prog)
  let pass := if n ≤ 65536 then 0 else if last then c.total / n - 1 else c.prog / n
  if !c.agreed || c.axis != pass then sortPlan k c pass
  else if last then
    if c.tabDone ∨ field b 32 8 = 0 then Job.give .done
    else if c.unsent c.total then Job.give (.writes c.total [(Srt.segtab b, segTable b c.shard)] 0 []) else Job.give .idle
  else
    match c.window with
    | [] => Job.give .idle
    | u :: _ =>
      let d := (passArrays b pass).2
      let i := u % n
      let keyW := (ptrAdd d.1 ((4 * i : Nat) : Int), leBytes (c.shard.getD i 0) 4)
      let valW := (ptrAdd d.2 ((4 * i : Nat) : Int), leBytes (c.offsets.getD i 0) 4)
      Job.give (.writes u (if Srt.vals b = 0 then [keyW] else [keyW, valW]) 1 [])

/-- The next unit of a command that is neither SCADD's adds nor COLL. -/
def unitOf (k : Nat) (c : Cmd) : Job UnitWork :=
  match c.kind with
  | .sort => sortUnit k c
  | .scadd => if !c.agreed then gatherPlan k c else Job.give .done
  | .coll => Job.give .done
  | .gather => if c.agreed && decide (c.total ≤ c.prog) then Job.give .done else gatherUnit k c
  | .copy => if c.total ≤ c.prog then Job.give .done else copyUnit k c
  | .copyPl => if c.total ≤ c.prog then Job.give .done else copyPlUnit k c

/-! ### Running -/

/-- COPY.pl writes only after the MMAs that captured its handle before it (R157). -/
def mmasOpen (s : State) (c : Cmd) : Bool := match group? s c.group with
  | some x => x.seq.recs.any fun r => c.mmaBefore.contains r.id
  | none => false

/-- What a unit has read of other homes is needed no more. -/
def dropFetched (k : Nat) (used : List (Long × Nat)) (s : State) : State :=
  let gone := used.flatMap fun q => (granules (ptrOff q.1) q.2).map fun g => (ptrAdd q.1 g.1).toNat
  if gone.isEmpty then s
  else modCmd k (fun c => { c with fetched := c.fetched.filter fun e => !gone.contains e.1, asked := c.asked.filter fun p => !gone.contains p }) s

/-- One piece of a unit of command k is tried. -/
def tryUnit (k : Nat) (c : Cmd) : Job Unit := fun s =>
  match unitOf k c s with
  | (s1, .wait) => (s1, .wait)
  | (s1, .page cause v) => (s1, .page cause v)
  | (s1, .stop st) => (s1, .stop st)
  | (s1, .ok .done) => (s1, .ok ())
  | (s1, .ok .idle) => (s1, .wait)
  | (s1, .ok (.plan f)) => (modCmd k f s1, .ok ())
  | (s1, .ok (.planes row kb codes scale used)) =>
    if mmasOpen s1 c then (s1, .wait)
    else
      match beginFlight k c.prog 1 1 s1 with
      | (s2, none) => (s2, .wait)
      | (s2, some _) =>
        let n := 4 * hPlanes c.handle + fmtScale (hFmt c.handle)
        (pieceWent k c.prog 0 n .performed (dropFetched k used
          (modGroup c.group (fun x => { x with plane := planeWrite c.handle row kb codes scale x.plane }) s2)), .ok ())
  | (s1, .ok (.writes u l adv used)) =>
    match putNext k u adv (writePieces l) s1 with
    | (s2, .ok _) => (dropFetched k used s2, .ok ())
    | r => r

/-- The indices, or the arrays of a pass, are still to be read, the sums done, or a segment table written; else a unit may go next. -/
def Cmd.canWork (c : Cmd) : Bool := match c.kind with
  | .coll => true
  | .copy | .copyPl => decide (c.total ≤ c.prog) || !c.window.isEmpty
  | .gather | .scadd => !c.agreed || decide (c.total ≤ c.prog) || !c.window.isEmpty
  | .sort => !c.agreed || !c.window.isEmpty || (decide (c.total ≤ c.prog) && c.unsent c.total) ||
      (decide (c.prog < c.total) && decide (65536 < Srt.n c.block) && c.axis != c.prog / Srt.n c.block)

/-- The command has work that is not waiting for acknowledgements. -/
def working (c : Cmd) : Bool := c.st == .running && c.status == 0 && c.canWork

/-- No answer to a packet or a mirrored write of the command is out. -/
def Cmd.quiet (c : Cmd) : Bool := c.unacked == 0 && c.flights.all fun f => f.left.isEmpty

/-- Its work is finished. -/
def workDone (c : Cmd) : Bool :=
  c.st == .running && c.quiet && (c.status != 0 ||
    match c.kind with
      | .coll => c.sub == 0 && c.tabDone
      | .sort => decide (c.total ≤ c.prog) && c.agreed && (c.tabDone || field c.block 32 8 == 0)
      | .gather | .scadd => c.agreed && decide (c.total ≤ c.prog)
      | _ => decide (c.total ≤ c.prog))

/-! ### Start (R147, R149, R245) -/

/-- The command's rank has performed all it issued before, XST and XATOM excluded: control atomics that went to other homes too (R149). -/
def rankDrained (s : State) (c : Cmd) : Bool :=
  !(s.homeq.any fun a => a.who.group == c.group && a.who.rank == c.rank && decide (a.id < c.stamp) && !a.remote) &&
  !(s.mirrorq.any fun m => decide (m.access < c.stamp) && match m.owner with
    | .entry g r _ _ => g == c.group && r == c.rank
    | _ => false) &&
  !(s.fab.unacked.any fun u => !u.stale && decide (u.access < c.stamp) && ptrSpace u.packet.addr == .control && match u.owner with
    | .entry g r _ _ => g == c.group && r == c.rank
    | _ => false)

def groupActs (s : State) (g : Nat) : Bool := ((group? s g).map fun x => !x.frozen && ctxRuns s x.ctx).getD false

/-- The waiting command of an engine that starts next: the first of its context in issue order, the oldest of these (R245, R149). DESIGN
CHOICE (log 109): the running commands of a context that is frozen and not saved keep their places. -/
def startable (s : State) (e : EngineId) : Option Nat :=
  let all := s.cmds.filter fun c => c.2.engine == e
  let places := match e with
    | .coll _ => 16
    | _ => 4
  if places ≤ (all.filter fun c => c.2.st == .running).length then none
  else
    let waiting := sortBy (fun a b => decide (a.2.order ≤ b.2.order)) (all.filter fun c => c.2.st == .waiting)
    let first (c : Nat × Cmd) : Bool := (waiting.find? fun d => d.2.ctx == c.2.ctx).map (·.1) == some c.1
    ((waiting.filter fun c => first c && groupActs s c.2.group).head?).map (·.1)

/-- The command may work now (R149). -/
def mayWork (s : State) (c : Cmd) : Bool := working c && groupActs s c.group && rankDrained s c

def execEngineCommandStart (e : EngineId) (s : State) : Out := held s <|
  match startable s e with
  | none => idle s
  | some k => .next (modCmd k (fun c => { c with st := .running }) s)

/-! ### Faults (R153) -/

def sourceOf : CmdKind → Nat
  | .copy | .copyPl => 1
  | .gather | .scadd | .sort => 2
  | .coll => 4

/-- How many of its group's MMAs and MEPIs, the oldest ones, a COPY.pl must wait for some of (R157). -/
def mmaReach (s : State) (c : Cmd) : Nat :=
  match group? s c.group with
  | none => 0
  | some x => (x.seq.recs.zipIdx.filter fun r => c.mmaBefore.contains r.1.id).foldl (fun _ r => r.2 + 1) 0

/-- SLOTS of a command's entry (log 18): the block pointer, the number and the place in issue order; the counts, what has ended, and the
MMAs it waits for; then its units in flight with their tags. -/
def Cmd.slots (reach : Nat) (c : Cmd) : Sparse Slot :=
  let flag (b : Bool) : Nat := if b then 1 else 0
  let unit (f : Flight) : Slot :=
    { a := BitVec.ofNat 64 f.u, b := BitVec.ofNat 128 (f.tag.toNat + f.n * 2 ^ 32 + f.held * 2 ^ 80), c := BitVec.ofNat 64 (f.adv + 2 ^ 63) }
  [(0, { a := c.blockPtr, b := BitVec.ofNat 128 c.number, c := BitVec.ofNat 64 c.order }),
   (1, { a := BitVec.ofNat 64 c.counta, b := BitVec.ofNat 128 (c.countb + c.written * 2 ^ 64),
         c := BitVec.ofNat 64 (reach + flag c.tabDone * 2 ^ 32 + flag c.recDone * 2 ^ 33) })] ++
  ((c.flights.take 30).zipIdx 2).map fun f => (f.2, unit f.1)

/-- A short sort's progress point counts its passes first (R252). -/
def Cmd.progress (c : Cmd) : Nat :=
  if c.kind = .sort ∧ Srt.n c.block ≤ 65536 then max c.prog ((Srt.digits c.block - 1) * Srt.n c.block) else c.prog

/-- The in-flight entry of a command (R349). -/
def cmdEntry (k : Nat) (c : Cmd) (st : EntryState) (cause : BitVec 16) (s : State) : Entry :=
  { word := c.word, state := st, cls := .p, drop := false, zeroed := 0, unif := true, pc := c.pc, mask := BitVec.allOnes 32,
    tagBase := (c.flights.head?.map (·.tag)).getD 0, prog := c.progress, status := c.status, cause := cause, block := padTo 128 c.block,
    slots := c.slots (mmaReach s c), id := k, left := 0, got := [], bad := none, replayed := false }

/-- The rank that takes a command's page fault: the issuer, else the lowest that has not exited. -/
def faultRank (s : State) (c : Cmd) : Option Nat :=
  match group? s c.group with
  | none => none
  | some x =>
    match x.ranks[c.rank]? with
    | some k => if k.st = .retired then lowestRank x else some c.rank
    | none => lowestRank x

/-- The command pauses with an imprecise page fault; with no rank left it stops with status 0x0003. -/
def pauseCmd (k : Nat) (c : Cmd) (cause : BitVec 16) (tval : Long) (s : State) : State :=
  match faultRank s c with
  | none => modCmd k (fun c => { c with status := if c.status = 0 then 0x0003 else c.status }) s
  | some r =>
    let e := cmdEntry k c .faulted cause s
    modRank c.group r (fun q => { q with
      live := q.live ++ [e]
      imprecise := q.imprecise ++ [{ cause := cause, tval := tval, pc := c.pc, entry := some e }] })
      (modCmd k (fun c => { c with st := .paused }) s)

def stopCmd (k : Nat) (st : BitVec 16) (s : State) : State :=
  modCmd k (fun c => { c with status := if c.status = 0 then st else c.status, sub := if c.unacked = 0 then 0 else c.sub }) s

/-! ### Scatter-add (R160, R250, R251) -/

/-- The add at this package's reducer: the tag suppresses a repeated one (R250, R352). -/
def reduceHere (c : Cmd) (p : Long) (len dpa : Nat) (tag : BitVec 32) (data : List Byte) (s : State) : State :=
  if (findTag s s.selfPkg tag (granuleOf dpa)).isSome then s
  else
    let new := addGranule (Gs.ttype c.block == 11) (homeRead s dpa len) data
    keepTag s.selfPkg tag (granuleOf dpa) []
      (noteWritten c.part (ptrBuf p) (ptrOff p) (homeWrite c.writer none (some (tag, [])) dpa new s))

/-- The right of a table add is AT's (R288). -/
def addAt (c : Cmd) (p : Long) (len : Nat) (s : State) : EngAt :=
  if ptrHome p ≠ s.selfPkg then engAt c p len true s
  else
    match portResolve s { pkg := s.selfPkg, ctx := c.ctx, key := c.key, part := c.part } (ptrBuf p) (ptrOff p) len .at with
    | .ok dpa => if rowFailed s dpa then .stop 0x0009 else if lineReady s dpa true then .here dpa else .wait dpa true
    | .lacks d => .wait d false
    | .stage2 gpa => .page 0x14 (BitVec.ofNat 64 gpa)
    | a => .stop a.status

/-- Granule i of a position's row is added to; the acknowledgement of its home is still to come (R244). A reservation's hold delays it
(R129), and so does a full home slice (R251). -/
def addPiece (k : Nat) (c : Cmd) (f : Flight) (i : Nat) (a : Long × Nat × List Byte) : Job PieceEnd := fun s =>
  let tag := tagOf c.ctx f.tag i
  match addAt c a.1 a.2.1 s with
  | .page cause v => (s, .page cause v)
  | .stop st => (s, .stop st)
  | .wait dpa w => (askEng c dpa w s, .wait)
  | .loc _ _ => (s, .ok .performed)
  | .away _ =>
    if buffersFull s || sliceFull s then (s, .wait)
    else (sendPiece k (c.labelled f) f.u i 0x03 (if Gs.ttype c.block = 11 then .bf16 else .f32) a.1 tag a.2.2 s, .ok .sent)
  | .here dpa =>
    if (findTag s s.selfPkg tag (granuleOf dpa)).isNone && (sliceFull s || resvHolds s dpa) then (s, .wait)
    else (modFlight k f.u (fun f => { f with here := f.here ++ [(i, a.2.1)] }) (reduceHere c a.1 a.2.1 dpa tag a.2.2 s), .ok .sent)

/-- One granule add of a SCADD, or a position that adds nothing (R160, R250). -/
def tryAdd (k : Nat) (c : Cmd) : Job Unit := fun s0 =>
  match choose s0 c.window with
  | (s, none) => (s, .wait)
  | (s, some u) =>
    let adds : Job (List (Long × Nat × List Byte)) :=
      match finalIndex c.block (c.indices.getD u 0), gradientRow c u with
      | some x, some r =>
        (engRead k c (ptrAdd (Gs.data c.block) ((r * Gs.dstride c.block : Nat) : Int))
            (Gs.cols c.block * rowTypeBytes (Gs.dtype c.block)) true).andThen fun bs => Job.give (positionAdds c x (gradient c u bs))
      | _, _ => Job.give []
    (adds.andThen fun l s1 =>
      match beginFlight k u 1 l.length s1 with
      | (s2, none) => (s2, .wait)
      | (s2, some f) =>
        match l[f.next]? with
        | none => (settleUnits k s2, .ok ())
        | some a => ((addPiece k c f f.next a).andThen fun e s3 => (pieceWent k u f.next a.2.1 e s3, .ok ())) s2) s

/-- The acknowledgement that comes back next of an add at this package's home, as the command stood: its unit, piece and bytes. -/
def Cmd.addHere (c : Cmd) : Option (Nat × Nat × Nat) := c.flights.findSome? fun f => f.here.head?.map fun p => (f.u, p)

def ackHere (k : Nat) (a : Option (Nat × Nat × Nat)) (s : State) : State :=
  match a with
  | none => s
  | some (u, i, n) => pieceAcked k u i n true (modFlight k u (fun f => { f with here := f.here.filter fun p => p.1 != i }) s)

/-- REDUCER_ADD: the next granule add, where the command may go on; and the acknowledgement of one performed before comes back
(R244, R250). -/
def execReducerAdd (k : Nat) (s : State) : Out := held s <|
  match sget k s.cmds with
  | none => idle s
  | some c =>
    if c.kind = .scadd ∧ c.agreed ∧ mayWork s c then .next (wake (ackHere k c.addHere (tick 1 (tryAdd k c s).1)))
    else if c.addHere.isSome ∧ groupActs s c.group then .next (wake (ackHere k c.addHere s))
    else idle s

/-- The next work of a running command, whatever it is. -/
def tryWork (k : Nat) (c : Cmd) : Job Unit :=
  if c.kind = .scadd ∧ c.agreed then tryAdd k c else tryUnit k c

/-- The work of a command goes on: a unit is done, asked for or sent. -/
def engineWork (k : Nat) (s : State) : State :=
  match sget k s.cmds with
  | none => s
  | some c => if mayWork s c then wake (tick 1 (tryWork k c s).1) else s

/-- The fault that the next work of a command meets, if it meets one. -/
inductive EngFault where
  | page (cause : BitVec 16) (tval : Long)
  | stop (status : BitVec 16)
  deriving DecidableEq, Repr, Inhabited

def engFault (k : Nat) (s : State) : Option EngFault :=
  match sget k s.cmds with
  | none => none
  | some c =>
    if mayWork s c then
      match (tryWork k c s).2 with
      | .page cause v => some (.page cause v)
      | .stop st => some (.stop st)
      | _ => none
    else none

/-- The fault that the next access of command k meets (R153). -/
def execEngineAccessFault (k : Nat) (s : State) : Out := held s <|
  match sget k s.cmds, engFault k s with
  | some c, some (.page cause v) => .next (pauseCmd k c cause v s)
  | some _, some (.stop st) => .next (stopCmd k st s)
  | _, _ => idle s

/-! ### Completion (R150) -/

def crecOf (c : Cmd) : Long :=
  BitVec.ofNat 64 (match c.kind with
    | .copy | .copyPl => field c.block 40 8
    | .gather | .scadd | .coll => field c.block 64 8
    | .sort => field c.block 48 8)

def userOf (c : Cmd) : Word :=
  BitVec.ofNat 32 (match c.kind with
    | .copy => field c.block 48 4
    | .copyPl => field c.block 52 4
    | .gather | .scadd => field c.block 72 4
    | .sort => field c.block 60 4
    | .coll => field c.block 80 4)

/-- The completion or event record (R151, R154). -/
def recordOf (c : Cmd) : Record :=
  let err := c.status != 0
  { cmdaddr := c.blockPtr, tlval := BitVec.ofNat 64 (c.number % 2 ^ 63 + if err then 2 ^ 63 else 0), status := c.status,
    source := sourceOf c.kind, tlcode := cmdTl c.kind + (if c.numbered then 0x80 else 0), ctx := c.ctx, part := c.part,
    counta := match c.kind with
      | .copyPl => c.prog
      | .copy | .coll => c.written
      | .sort => Srt.n c.block
      | _ => c.counta,
    countb := match c.kind with
      | .copy | .copyPl => 0
      | .coll => if c.inNetwork then 1 else 0
      | _ => c.countb,
    progress := c.progress, user := userOf c, launch := c.launchid }

/-- Steps 4 and 5, and what the command held is free. -/
def endCmd (k : Nat) (c : Cmd) (s : State) : State :=
  let err := c.status != 0
  let s0 := { (c.flights.foldl (fun s f => dropFlight k f s) s) with cmds := sdel k s.cmds }
  let s1 := if c.kind = .copyPl then releaseTile c.group c.tile s0 else s0
  let s2 := if c.numbered then advance c.ctx (cmdTl c.kind) c.number err s1 else s1
  let s3 := if c.evt || err then postCtx c.ctx (recordOf c) s2 else s2
  settleGroup c.group (wake (launchDown c.launch c.status s3))

/-- Step 3: the record's place. -/
def tryRecord (k : Nat) (c : Cmd) (s : State) : State × Work Unit :=
  if crecOf c = 0 ∨ c.recDone then (s, .ok ())
  else
    let ws := writePieces [(crecOf c, (recordOf c).bytes)]
    match checkPieces c ws s with
    | (s1, .ok _) =>
      if !c.unsent recUnit then (s1, .wait)
      else
        match putAll k recUnit ws ws.length s1 with
        | (s2, .ok _) => if ((sget k s2.cmds).map (·.recDone)) = some true then (s2, .ok ()) else (s2, .wait)
        | r => r
    | r => r

def execCommandComplete (k : Nat) (s : State) : Out := heldPlat s <|
  match sget k s.cmds with
  | none => idle s
  | some c =>
    if workDone c && groupActs s c.group then
      match tryRecord k c s with
      | (s1, .wait) => .next s1
      | (s1, .page cause v) =>
        match faultRank s1 c with
        | none => .next (endCmd k { c with status := if c.status = 0 then 0x0003 else c.status } s1)
        | some _ => .next (pauseCmd k c cause v s1)
      | (s1, .stop st) => .next (endCmd k { c with status := if c.status = 0 then st else c.status } s1)
      | (s1, .ok _) => .next (endCmd k c s1)
    else idle s

end Sys2Proof.Machine
end

