-- ==== Sys2Proof/Machine/Coll.lean ====
section
/-! DEFINITION. Collectives (R174 to R177, R323 to R326): layouts and shards, the exchange of an axis, reduction slots, and the work
of a COLL. What the members say to each other travels in packets of kinds 0x0A and 0x0B whose fields are the model's (log 28). -/

set_option linter.unusedVariables false

namespace Sys2Proof.Machine

/-! ### Mesh and layouts -/

/-- Coordinates of a mesh position: axis 0 varies fastest (R174). -/
def meshCoords (b : List Byte) (pos : Nat) : List Nat :=
  [pos % Cl.axis b 0, pos / Cl.axis b 0 % Cl.axis b 1, pos / (Cl.axis b 0 * Cl.axis b 1) % Cl.axis b 2,
   pos / (Cl.axis b 0 * Cl.axis b 1 * Cl.axis b 2)]

def meshPos (b : List Byte) (x : List Nat) : Nat :=
  x.getD 0 0 + Cl.axis b 0 * (x.getD 1 0 + Cl.axis b 1 * (x.getD 2 0 + Cl.axis b 2 * x.getD 3 0))

/-- How far apart the shards of neighbouring coordinates of axis a begin in the dimension it shards: the extent of a shard times the
sizes of the axes within (R175). -/
def strideOf (b : List Byte) (l : List Axis) (a : Nat) : Nat :=
  let t := l.getD a default
  Cl.dim b t.dim / ((sharding l t.dim).take (t.ord + 1)).foldl (fun p k => p * Cl.axis b k) 1

/-- The axes that one permutation of dimension d moves together: they shard d in both layouts, and their shards begin elsewhere after
it, because their ORD or the axes around them change (R176, log 85). -/
def permAxes (b : List Byte) (d : Nat) : List Nat :=
  let src := layoutOf b 48
  let dst := layoutOf b 56
  let on (t : Axis) : Bool := t.role == 1 && t.dim == d
  (List.range (Cl.naxes b)).filter fun a =>
    on (src.getD a default) && on (dst.getD a default) && strideOf b src a != strideOf b dst a

/-- Axis a has taken the destination's layout once the axes below n have been exchanged. -/
def exchanged (b : List Byte) (n a : Nat) : Bool :=
  let together := permAxes b ((layoutOf b 48).getD a default).dim
  if together.contains a then together.any fun k => decide (k < n) else decide (a < n)

/-- What places an index of dimension d in the shard of the member at x, once the axes below n have been exchanged: stride, size and
coordinate of each axis that shards d. -/
def shardRules (b : List Byte) (n : Nat) (x : List Nat) (d : Nat) : List (Nat × Nat × Nat) :=
  (List.range (Cl.naxes b)).filterMap fun a =>
    let l := layoutOf b (if exchanged b n a then 56 else 48)
    let t := l.getD a default
    if t.role = 1 ∧ t.dim = d then some (strideOf b l a, Cl.axis b a, x.getD a 0) else none

/-- The global indices of that member's shard, ascending: dense, row-major (R175). -/
def shardIdx (b : List Byte) (n : Nat) (x : List Nat) : List Nat :=
  let r (d : Nat) : List Nat :=
    let rules := shardRules b n x d
    (List.range (Cl.dim b d)).filter fun i => rules.all fun t => i / t.1 % t.2.1 == t.2.2
  let r1 := r 1
  let r2 := r 2
  let r3 := r 3
  (r 0).flatMap fun i => r1.flatMap fun j => r2.flatMap fun m => r3.map fun n =>
    ((i * Cl.dim b 1 + j) * Cl.dim b 2 + m) * Cl.dim b 3 + n

/-- What an axis does (R176). -/
inductive Exch where
  | nothing | gather | reduceScatter | allReduce | allToAll | permute | slice | firstKeeps
  deriving DecidableEq, Repr, Inhabited

def exchOf (b : List Byte) (a : Nat) : Exch :=
  let s := (layoutOf b 48).getD a default
  let d := (layoutOf b 56).getD a default
  match s.role, d.role with
  | 1, 1 => if s.dim ≠ d.dim then .allToAll else if (permAxes b d.dim).head? = some a then .permute else .nothing
  | 1, _ => .gather
  | 2, 1 => .reduceScatter
  | 2, 0 => .allReduce
  | 0, 1 => .slice
  | 0, 2 => .firstKeeps
  | _, _ => .nothing

def Exch.reduces (e : Exch) : Bool := e == .reduceScatter || e == .allReduce

/-! ### Elements -/

def Cmd.collid (c : Cmd) : Word := BitVec.ofNat 32 (Cl.collid c.block)

def collBytes (b : List Byte) : Nat := Ty.bits (Cl.ty b) / 8

/-- One fold step (R176): RNE in TYPE, integers wrap. -/
def collOp (b : List Byte) (x y : Nat) : Nat :=
  let t := Cl.ty b
  let isInt := t == .s32 || t == .b32
  match Cl.op b with
  | 0 => if isInt then (x + y) % 2 ^ 32 else narrow (Ty.fmt t) .rne false (numAdd .rne ((Ty.fmt t).decode x) ((Ty.fmt t).decode y))
  | n => if isInt then (if (signed x 32 ≤ signed y 32) == (n == 1) then x else y) else fminmax (Ty.fmt t) (n == 2) x y

def foldRows (b : List Byte) (x y : List Nat) : List Nat := (List.range x.length).map fun i => collOp b (x.getD i 0) (y.getD i 0)

/-! ### What the command keeps -/

/-- Keys of the inbox: result or contribution, axis, sender's position, block, piece of 512 bytes. -/
def boxKey (result : Bool) (axis sender block piece : Nat) : Nat :=
  ((((if result then 1 else 0) * 4 + axis) * 4096 + sender) * 4096 + block) * 2 ^ 18 + piece

def membersKey : Nat := 2 ^ 60
/-- A packet of the collective came from a package that its member table does not name. -/
def strangerKey : Nat := 2 ^ 60 + 1
/-- Pieces that carry the comparison of R177, and the choice of an axis' algorithm. -/
def comparePiece : Nat := 0x3FFFF
def choicePiece : Nat := 0x3FFFE

def inBox (c : Cmd) (key : Nat) : Option (List Nat) := (c.inbox.find? fun e => e.1 == key).map (·.2)

/-- A message of n elements: complete when its pieces have come. -/
def boxMsg (c : Cmd) (result : Bool) (axis sender block n : Nat) : Option (List Nat) :=
  let per := 512 / collBytes c.block
  let got := (List.range (ceilDiv n per)).map fun i => inBox c (boxKey result axis sender block i)
  if got.all (·.isSome) then some ((got.flatMap fun o => o.getD []).take n) else none

def membersOf (c : Cmd) : List Nat := (inBox c membersKey).getD []

/-- This package's position. -/
def myPos (self : Nat) (c : Cmd) : Nat := (membersOf c).findIdx (· == self)

/-- The position of coordinate z on axis a beside position pos. -/
def along (b : List Byte) (pos a z : Nat) : Nat := meshPos b ((meshCoords b pos).set a z)

/-! ### The exchange of one axis -/

/-- A message to a member. -/
structure CollMsg where
  dest : Nat
  result : Bool
  block : Nat
  vals : List Nat
  deriving DecidableEq, Repr, Inhabited

/-- What an axis needs to know: the block, the axis, this member's position and coordinate, its elements by global index. -/
structure Ax where
  b : List Byte
  a : Nat
  pos : Nat
  x : Nat
  size : Nat
  idx : List Nat
  vals : List Nat
  deriving DecidableEq, Repr, Inhabited

def axAt (self : Nat) (c : Cmd) (a : Nat) : Ax :=
  let pos := myPos self c
  let x := meshCoords c.block pos
  { b := c.block, a := a, pos := pos, x := x.getD a 0, size := Cl.axis c.block a, idx := shardIdx c.block a x, vals := c.shard }

def axOf (self : Nat) (c : Cmd) : Ax := axAt self c c.axis

def Ax.at' (t : Ax) (z : Nat) : Nat := along t.b t.pos t.a z

/-- Values at some global indices, from index and value lists. -/
def pick (idx vals want : List Nat) : List Nat := want.map fun i => vals.getD (idx.findIdx (· == i)) 0

/-- The indices of the shard of the member at a position before the axis, and after it. -/
def Ax.held (t : Ax) (p : Nat) : List Nat := shardIdx t.b t.a (meshCoords t.b p)
def Ax.wants (t : Ax) (p : Nat) : List Nat := shardIdx t.b (t.a + 1) (meshCoords t.b p)
/-- The same of coordinate z of the axis. -/
def Ax.before (t : Ax) (z : Nat) : List Nat := t.held (t.at' z)
def Ax.after (t : Ax) (z : Nat) : List Nat := t.wants (t.at' z)

/-- The chunk of a reducing axis that member z owns: its part of the result; of an all-reduce an equal share. -/
def Ax.chunk (t : Ax) (all : Bool) (z : Nat) : List Nat :=
  if all then
    let n := ceilDiv t.idx.length t.size
    (t.idx.drop (z * n)).take n
  else t.after z

/-- The fold of chunk z up to this member, in a ring (R326). -/
def ringPart (c : Cmd) (t : Ax) (all : Bool) (z : Nat) : Option (List Nat) :=
  let own := pick t.idx t.vals (t.chunk all z)
  if t.x = 0 then some own else (boxMsg c false t.a (t.at' (t.x - 1)) z own.length).map fun p => foldRows t.b p own

/-- The fold of this member's chunk in its router's slot (R326). -/
def slotFold (c : Cmd) (t : Ax) (all : Bool) : Option (List Nat) :=
  let own := pick t.idx t.vals (t.chunk all t.x)
  let got := (List.range t.size).map fun z => if z = t.x then some own else boxMsg c false t.a (t.at' z) t.x own.length
  if got.all (·.isSome) then
    match got.map fun o => o.getD [] with
    | [] => none
    | v :: vs => some (vs.foldl (foldRows t.b) v)
  else none

/-- The result of chunk z, once known here. -/
def chunkResult (c : Cmd) (t : Ax) (all net : Bool) (z : Nat) : Option (List Nat) :=
  let n := (t.chunk all z).length
  if net then (if z = t.x then slotFold c t all else boxMsg c true t.a (t.at' z) z n)
  else if t.x + 1 = t.size then ringPart c t all z
  else boxMsg c true t.a (t.at' (t.size - 1)) z n

def others (t : Ax) : List Nat := (List.range t.size).filter fun z => z != t.x

/-- The members that a permutation can take values from or give them to: those beside this one on the axes it moves. -/
def permPeers (t : Ax) : List Nat :=
  let moved := permAxes t.b ((layoutOf t.b 56).getD t.a default).dim
  let x := meshCoords t.b t.pos
  (List.range (Cl.size t.b)).filter fun p =>
    let y := meshCoords t.b p
    p != t.pos && (List.range 4).all fun a => moved.contains a || x.getD a 0 == y.getD a 0

/-- A block of an all-gather, once known. -/
def gatherBlock (c : Cmd) (t : Ax) (z : Nat) : Option (List Nat) :=
  if z = t.x then some t.vals else boxMsg c false t.a (t.at' ((t.x + t.size - 1) % t.size)) z (t.before z).length

/-- The messages this member can send now (R326). -/
def collMsgs (c : Cmd) (t : Ax) (net : Bool) : List CollMsg :=
  let msg (dest : Nat) (result : Bool) (block : Nat) (v : Option (List Nat)) : List CollMsg :=
    (v.map fun v => { dest := dest, result := result, block := block, vals := v : CollMsg }).toList
  let steps := (List.range (t.size - 1)).map (· + 1)
  let reduce (all : Bool) : List CollMsg :=
    if net then
      ((others t).flatMap fun z => msg (t.at' z) false z (some (pick t.idx t.vals (t.chunk all z)))) ++
      (if all then (others t).flatMap fun z => msg (t.at' z) true t.x (slotFold c t all) else [])
    else (List.range t.size).flatMap fun z =>
      if t.x + 1 < t.size then msg (t.at' (t.x + 1)) false z (ringPart c t all z)
      else if all then (others t).flatMap fun y => msg (t.at' y) true z (ringPart c t all z)
      else if z = t.x then [] else msg (t.at' z) true z (ringPart c t all z)
  match exchOf t.b t.a with
  | .gather => steps.flatMap fun q =>
      let bl := (t.x + t.size + 1 - q) % t.size
      msg (t.at' ((t.x + 1) % t.size)) false bl (gatherBlock c t bl)
  | .allToAll => steps.flatMap fun q =>
      let z := (t.x + q) % t.size
      msg (t.at' z) false t.x (some (pick t.idx t.vals (t.idx.filter fun i => (t.after z).contains i)))
  | .permute => (permPeers t).flatMap fun p =>
      let want := t.wants p
      let part := t.idx.filter fun i => want.contains i
      if part.isEmpty then [] else msg p false 0 (some (pick t.idx t.vals part))
  | .reduceScatter => reduce false
  | .allReduce => reduce true
  | _ => []

/-- Index and value lists of several blocks joined, read at the new shard's indices. -/
def assemble (blocks : List (List Nat × List Nat)) (want : List Nat) : List Nat :=
  pick (blocks.flatMap (·.1)) (blocks.flatMap (·.2)) want

/-- The shard after the axis, once everything it needs is here. -/
def collNext (c : Cmd) (t : Ax) (net : Bool) : Option (List Nat) :=
  let want := t.after t.x
  let joined (l : List (List Nat × Option (List Nat))) : Option (List Nat) :=
    if l.all fun e => e.2.isSome then some (assemble (l.map fun e => (e.1, e.2.getD [])) want) else none
  match exchOf t.b t.a with
  | .nothing => some t.vals
  | .slice => some (pick t.idx t.vals want)
  | .firstKeeps => some (if t.x = 0 then t.vals else t.vals.map fun _ => 0)
  | .gather => joined ((List.range t.size).map fun z => (t.before z, gatherBlock c t z))
  | .allToAll => joined ((List.range t.size).map fun z =>
      let part := (t.before z).filter fun i => want.contains i
      (part, if z = t.x then some (pick t.idx t.vals part) else boxMsg c false t.a (t.at' z) z part.length))
  | .permute => joined ((t.idx, some t.vals) :: (permPeers t).map fun p =>
      let part := (t.held p).filter fun i => want.contains i
      (part, boxMsg c false t.a p 0 part.length))
  | .reduceScatter => chunkResult c t false net t.x
  | .allReduce => joined ((List.range t.size).map fun z => (t.chunk true z, chunkResult c t true net z))

/-! ### Packets of a collective -/

/-- ADDR: COLLID, axis, block, piece (log 28). -/
def collAddr (b : List Byte) (axis block piece : Nat) : Long :=
  BitVec.ofNat 64 (((Cl.collid b * 4 + axis) * 4096 + block) * 2 ^ 18 + piece)

/-- A packet to a package, acknowledged as every piece is. -/
def sendCollTo (pkg k : Nat) (c : Cmd) (result : Bool) (axis block piece : Nat) (bs : List Byte) (s : State) : State :=
  if !routeValid s pkg || pkgLost s pkg then modCmd k (fun c => { c with status := if c.status = 0 then 0x0004 else c.status }) s
  else
    let t := takeTags c.ctx 1 s
    let m : Send :=
      { kind := if result then 0x0B else 0x0A, dst := pkg, ctx := c.ctx, key := c.key, part := c.part, label := c.fl.toNat,
        ord := false, addr := collAddr c.block axis block piece, tag := tagOf c.ctx t.2 0, opinfo := 0, ty := .b8, len := bs.length,
        data := bs, owner := .cmd k, number := 0, launch := c.launch, pc := c.pc, off := 0, access := s.fresh, dseqWas := none }
    modCmd k (fun c => { c with unacked := c.unacked + 1 }) (sendTensor m { t.1 with fresh := t.1.fresh + 1 }).1

/-- A packet to the member at a position. -/
def sendColl (k : Nat) (c : Cmd) (dest : Nat) (result : Bool) (axis block piece : Nat) (bs : List Byte) (s : State) : State :=
  sendCollTo ((membersOf c).getD dest 0) k c result axis block piece bs s

/-- Sequence numbers and response buffers for n packets are free (R146, R313). -/
def collRoom (s : State) (c : Cmd) (n : Nat) : Bool := numbersFree s c.ctx n && !buffersLack s n

/-- The packets of a message. -/
def msgPackets (c : Cmd) (m : CollMsg) : Nat := ceilDiv m.vals.length (512 / collBytes c.block)

/-- The comparison's bytes: DIMS, AXES, both layouts, CTRL, COLLID; empty from a package that is no member (R177). -/
def compareBytes (b : List Byte) : List Byte := (b.drop 24).take 40 ++ (b.drop 72).take 8

/-- A message in pieces of 512 bytes. -/
def sendMsg (k : Nat) (c : Cmd) (m : CollMsg) (s : State) : State :=
  let w := collBytes c.block
  let per := 512 / w
  (List.range (msgPackets c m)).foldl (fun s i =>
    sendColl k c m.dest m.result c.axis m.block i (((m.vals.drop (i * per)).take per).flatMap fun v => leBytes v w) s) s

/-- A message is sent once. -/
def msgKey (c : Cmd) (m : CollMsg) : Nat := boxKey m.result c.axis m.dest m.block 0

/-! ### Reduction slots (R323 to R325) -/

def slotAt (s : State) (i : Nat) : RedSlot := s.fab.slots.getD i RedSlot.reset

def setSlot (i : Nat) (r : RedSlot) (s : State) : State := { s with fab := { s.fab with slots := s.fab.slots.set i r } }

def RedSlot.serves (r : RedSlot) (key : BitVec 12) (collid : Word) : Bool := r.busy && r.key == key && r.collid == collid

def slotFor (s : State) (key : BitVec 12) (collid : Word) (asker : Nat) : Option Nat :=
  (List.range s.fab.slots.length).find? fun i => (slotAt s i).serves key collid && (slotAt s i).asker == asker

def enrolled (s : State) (key : BitVec 12) : Bool := ((sget key.toNat s.tabs.keys).map fun e => e.enrol).getD false

/-- A grant of this same cycle whose answer has not been acted on can still be withdrawn: the answer to another package, or the slot of a
command of this one that has not chosen yet. -/
def withdrawable (s : State) (r : RedSlot) : Bool :=
  r.busy && r.since == s.clk && (if r.asker = s.selfPkg then s.cmds.any fun e => e.2.kind == .coll && e.2.key == r.key &&
      e.2.collid == r.collid && e.2.sub == 2
    else s.fab.slotAsks.any fun a => a.asker.toNat == r.asker && a.keyid == r.key && a.collid == r.collid && a.grant == some true)

/-- The request that the answer was given to is refused instead. -/
def withdraw (r : RedSlot) (s : State) : State :=
  let hit (a : SlotReq) : Bool := a.router == s.tabs.self && a.asker.toNat == r.asker && a.keyid == r.key && a.collid == r.collid && a.grant == some true
  match ((List.range s.fab.slotAsks.length).filter fun i => (s.fab.slotAsks[i]?).any hit).getLast? with
  | none => s
  | some i => { s with fab := { s.fab with slotAsks := modAt s.fab.slotAsks i fun a => { a with grant := some false } } }

/-- This package's router answers a request: the grant takes a free slot; where none is free, the slot that a request of a higher KEYID
took in this same cycle, which is then refused (R325). -/
def grantSlot (r : SlotReq) (s : State) : State × Bool :=
  if !enrolled s r.keyid || ((sget r.keyid.toNat s.tabs.keys).map (·.clearing)).getD false then (s, false)
  else
    let v : RedSlot := { busy := true, key := r.keyid, collid := r.collid, asker := r.asker.toNat, held := 0, since := s.clk }
    match (List.range s.fab.slots.length).find? fun i => !(slotAt s i).busy with
    | some i => (setSlot i v s, true)
    | none =>
      let lower := (List.range s.fab.slots.length).filter fun i => decide (r.keyid < (slotAt s i).key) && withdrawable s (slotAt s i)
      match (sortBy (fun i j => decide ((slotAt s j).key.toNat ≤ (slotAt s i).key.toNat)) lower).head? with
      | none => (s, false)
      | some i => (setSlot i v (withdraw (slotAt s i) s), true)

/-- ENROL is cleared once no slot holds the key (R325). -/
def settleEnrol (key : BitVec 12) (s : State) : State :=
  if s.fab.slots.any fun r => r.busy && r.key == key then s
  else { s with tabs := { s.tabs with keys := smod key.toNat (fun e =>
    if e.clearing then { e with enrol := false, clearing := false } else e) s.tabs.keys } }

def freeSlot (key : BitVec 12) (collid : Word) (asker : Nat) (s : State) : State :=
  match slotFor s key collid asker with
  | none => s
  | some i => settleEnrol key (setSlot i RedSlot.reset s)

/-- Every slot that a test picks is freed, and the clearing of its key's ENROL is completed. -/
def freeSlots (mine : RedSlot → Bool) (s : State) : State :=
  let gone := s.fab.slots.filter mine
  gone.foldl (fun s r => settleEnrol r.key s)
    { s with fab := { s.fab with slots := s.fab.slots.map fun r => if mine r then RedSlot.reset else r } }

/-- The slots of this router that serve a command are freed. -/
def freeAllSlots (c : Cmd) (s : State) : State := freeSlots (fun r => r.serves c.key c.collid) s

/-- The package that asks for the slots of an axis: the member at its coordinate 0 (R324). -/
def slotAsker (c : Cmd) (t : Ax) : Nat := (membersOf c).getD (t.at' 0) 0

/-- HELD: contributions to the chunk this router reduces on axis a that wait for their predecessors. -/
def heldCount (self : Nat) (c : Cmd) (a : Nat) : Nat :=
  let t := axAt self c a
  let n := (t.chunk (exchOf t.b a == .allReduce) t.x).length
  let here (z : Nat) : Bool := if z = t.x then c.sub == 4 && c.axis == a else (boxMsg c false a (t.at' z) t.x n).isSome
  if n = 0 then 0 else ((List.range t.size).filter fun z => here z && !((List.range z).all here)).length

/-- The axes of a command that a slot asked for by a package can serve: they reduce, are not done, and do not run the ring. -/
def slotAxes (self : Nat) (c : Cmd) (asker : Nat) : List Nat :=
  (List.range (Cl.naxes c.block)).filter fun a =>
    (exchOf c.block a).reduces && (c.sub < 4 || c.axis ≤ a) && c.algs[a]? != some 1 && slotAsker c (axAt self c a) == asker

/-- HELD of the router's slots follows what has come for a command. Slots of one asker serve its axes in order. -/
def noteHeld (c : Cmd) (s : State) : State :=
  if (membersOf c).isEmpty then s
  else
    let mine (i : Nat) : Bool := (slotAt s i).serves c.key c.collid
    ((List.range s.fab.slots.length).filter mine).foldl (fun s i =>
      let r := slotAt s i
      let j := ((List.range i).filter fun k => mine k && (slotAt s k).asker == r.asker).length
      let n := ((slotAxes s.selfPkg c r.asker)[j]?).map fun a => heldCount s.selfPkg c a
      setSlot i { r with held := n.getD 0 } s) s

def noteHeldOf (k : Nat) (s : State) : State :=
  match sget k s.cmds with
  | none => s
  | some c => noteHeld c s

/-! ### The choice of an axis' algorithm (R324) -/

/-- The next axis' algorithm: 0 none to choose, 1 ring, 2 network. -/
def setChoice (k n : Nat) (s : State) : State := modCmd k (fun c => { c with algs := c.algs ++ [n], axis := c.axis + 1, mmaBefore := [] }) s

/-- The choice goes to the other members of the axis. -/
def tellChoice (k : Nat) (c : Cmd) (t : Ax) (n : Nat) (s : State) : State :=
  setChoice k n ((others t).foldl (fun s z => sendColl k c (t.at' z) false t.a 0 choicePiece [BitVec.ofNat 8 n] s) s)

/-- Requests to the routers of the axis' members, sent once; this package's own router answers at once. -/
def askSlots (k : Nat) (c : Cmd) (t : Ax) (s : State) : State :=
  let req (z : Nat) : SlotReq :=
    { asker := s.tabs.self, router := BitVec.ofNat 12 ((membersOf c).getD (t.at' z) 0), keyid := c.key, collid := c.collid, grant := none }
  let own := grantSlot (req t.x) s
  let s1 := { own.1 with fab := { own.1.fab with slotAsks := own.1.fab.slotAsks ++ (others t).map req } }
  modCmd k (fun c => { c with mmaBefore := [2 * t.size] }) s1

/-- Coordinate 0 chooses; the others follow. mmaBefore holds what the routers of the others have answered, 2 × coordinate + granted, after
a mark that they were asked; its own slot shows this router's answer. -/
def chooseAlg (k : Nat) (c : Cmd) (t : Ax) (s : State) : State × Bool :=
  let free (s : State) : State := freeSlot c.key c.collid (slotAsker c t) s
  if t.x ≠ 0 then
    match inBox c (boxKey false t.a (t.at' 0) 0 choicePiece) with
    | some (n :: _) => (setChoice k n (if n = 2 then s else free s), true)
    | _ => (s, false)
  else if Cl.noinc c.block || decide (t.size < 2) || decide (64 < t.size) then (tellChoice k c t 1 s, true)
  else if c.mmaBefore.isEmpty then (askSlots k c t s, true)
  else if c.mmaBefore.length < t.size then (s, false)
  else if (c.mmaBefore.drop 1).all (fun a => a % 2 == 1) && heldSlots then (tellChoice k c t 2 s, true)
  else (tellChoice k c t 1 (free s), true)
where
  /-- As many slots of this router serve the asker as axes of it have been granted so far, and this one. -/
  heldSlots : Bool := decide (((slotAxes s.selfPkg c s.selfPkg).filter fun a => decide (a ≤ c.axis)).length ≤
    ((List.range s.fab.slots.length).filter fun i => (slotAt s i).serves c.key c.collid && (slotAt s i).asker == s.selfPkg).length)

/-! ### The comparison (R177) -/

/-- Packets that came early are this command's when COLLID and key agree. -/
def forCmd (c : Cmd) (p : Packet) : Bool :=
  p.addr.extractLsb' 32 32 == c.collid && p.keyid == c.key

/-- A packet's place in the inbox of a command that knows its members; the sender's position is that of its package. -/
def boxOf (c : Cmd) (p : Packet) : Nat × List Nat :=
  let a := p.addr.toNat
  let piece := a % 2 ^ 18
  let w := if comparePiece ≤ piece + 1 then 1 else collBytes c.block
  if !(membersOf c).contains p.src.toNat then (strangerKey, [])
  else
    (boxKey (p.kind == 0x0B) (a / 2 ^ 30 % 4) ((membersOf c).findIdx (· == p.src.toNat)) (a / 2 ^ 18 % 4096) piece,
     (List.range (p.data.length / w)).map fun i => field p.data (i * w) w)

/-- A package outside the member table that compares is told that it differs: it would wait for this one's comparison (R177, log 85). -/
def answerStranger (k : Nat) (c : Cmd) (s : State) (p : Packet) : State :=
  if (boxOf c p).1 = strangerKey ∧ p.addr.toNat % 2 ^ 18 = comparePiece then sendCollTo p.src.toNat k c false 0 0 comparePiece [] s else s

def takeEarly (k : Nat) (s : State) : State :=
  match sget k s.cmds with
  | none => s
  | some c =>
    if (membersOf c).isEmpty then s
    else
      let mine := s.fab.collEarly.filter (forCmd c)
      mine.foldl (answerStranger k c) (modCmd k (fun c => { c with inbox := c.inbox ++ mine.map (boxOf c) })
        { s with fab := { s.fab with collEarly := s.fab.collEarly.filter fun p => !forCmd c p } })

/-- A comparison that package q sent under a COLLID that no COLL of this package has: it is q's for the command here that waits for one of
its (log 85). -/
def strayOf (s : State) (c : Cmd) (q : Nat) : Option Packet :=
  s.fab.collEarly.find? fun p => p.addr.toNat % 2 ^ 18 == comparePiece && p.keyid == c.key && p.src.toNat == q &&
    !(s.cmds.any fun e => e.2.kind == .coll && forCmd e.2 p)

/-- What the member at a position has announced. -/
def announced (s : State) (c : Cmd) (pos : Nat) : Option (List Nat) :=
  let q := (membersOf c).getD pos 0
  if q = s.selfPkg then some ((compareBytes c.block).map (·.toNat))
  else match inBox c (boxKey false 0 pos 0 comparePiece) with
    | some l => some l
    | none => (strayOf s c q).map fun p => p.data.map (·.toNat)

/-- Everyone's comparison is here; whether all agree (R177). A package outside the member table that takes part agrees with nobody. -/
def compared (s : State) (c : Cmd) : Option Bool :=
  let me := (compareBytes c.block).map (·.toNat)
  let got := (List.range (Cl.size c.block)).map (announced s c)
  if (inBox c strangerKey).isSome then some false
  else if got.all (·.isSome) then some (got.all fun o => o == some me) else none

/-- The strays that the comparison took for its members' are used up. -/
def useStrays (c : Cmd) (s : State) : State :=
  let used := (List.range (Cl.size c.block)).filterMap fun pos =>
    if (inBox c (boxKey false 0 pos 0 comparePiece)).isSome then none else strayOf s c ((membersOf c).getD pos 0)
  { s with fab := { s.fab with collEarly := used.foldl (fun l p => l.erase p) s.fab.collEarly } }

/-- The comparison goes to every other member. -/
def announce (k : Nat) (c : Cmd) (s : State) : State :=
  let bs := if (membersOf c).contains s.selfPkg then compareBytes c.block else []
  (List.range (Cl.size c.block)).foldl (fun s p =>
    if (membersOf c).getD p 0 = s.selfPkg then s else sendColl k c p false 0 0 comparePiece bs s) s

def anyLost (s : State) (c : Cmd) : Bool := (membersOf c).any fun p => p != s.selfPkg && pkgLost s p

/-- Bytes of a message in chunks of 512. DESIGN CHOICE (log 28): PROGRESS counts the chunks that have been sent (R154 names the step and
chunk, and gives no number for the two). -/
def chunksOf (c : Cmd) (m : CollMsg) : Nat := ceilDiv (m.vals.length * collBytes c.block) 512

/-- One piece of work. DESIGN CHOICE (log 28): bits 15:12 of an entry of the member table are not read. sub: 0 members unread, 1
announced, 2 agreed and choosing the algorithms, 3 all chosen, 4 data read, 5 all axes done. The Bool says that something was done. -/
def collStep (k : Nat) (c : Cmd) : Job Bool := fun s =>
  if anyLost s c then (s, .stop 0x0004)
  else
    match c.sub with
    | 0 =>
      ((engWords k c (Cl.members c.block) (Cl.size c.block) 2).andThen fun l => fun s =>
        let c1 := { c with inbox := (membersKey, l.map (· % 4096)) :: c.inbox, sub := 1 }
        if !collRoom s c (Cl.size c.block) then (s, .wait)
        else (announce k c1 (modCmd k (fun _ => c1) s), if (membersOf c1).contains s.selfPkg then .ok true else .stop 0x0006)) s
    | 1 =>
      match compared s c with
      | none => (s, .ok false)
      | some true => (modCmd k (fun c => { c with sub := 2, agreed := true, axis := 0 }) s, .ok true)
      | some false => (useStrays c s, .stop 0x0006)
    | 2 =>
      if Cl.naxes c.block ≤ c.axis then (modCmd k (fun c => { c with sub := 3, axis := 0 }) s, .ok true)
      else if !(exchOf c.block c.axis).reduces then (setChoice k 0 s, .ok true)
      else if !collRoom s c (axOf s.selfPkg c).size then (s, .ok false)
      else
        let r := chooseAlg k c (axOf s.selfPkg c) s
        (r.1, .ok r.2)
    | 3 =>
      let n := (shardIdx c.block 0 (meshCoords c.block (myPos s.selfPkg c))).length
      ((engWords k c (Cl.spos c.block) n (collBytes c.block)).andThen fun l => fun s =>
        (modCmd k (fun c => { c with shard := l, sub := 4 }) s, .ok true)) s
    | 4 =>
      if Cl.naxes c.block ≤ c.axis then (modCmd k (fun c => { c with sub := 5 }) s, .ok true)
      else
        let t := axOf s.selfPkg c
        let net := c.algs.getD c.axis 0 == 2
        match (collMsgs c t net).find? fun m => !c.asked.contains (msgKey c m) with
        | some m => if !collRoom s c (msgPackets c m) then (s, .ok false) else
          (modCmd k (fun c => { c with asked := msgKey c m :: c.asked, prog := c.prog + chunksOf c m }) (sendMsg k c m s), .ok true)
        | none =>
          match collNext c t net with
          | none => (s, .ok false)
          | some v =>
            (modCmd k (fun c => { c with shard := v, axis := c.axis + 1, inNetwork := c.inNetwork || net })
              (if net then freeSlot c.key c.collid (slotAsker c t) s else s), .ok true)
    | _ =>
      if c.tabDone then (s, .ok false)
      else
        let w := collBytes c.block
        if !c.unsent collUnit then (s, .ok false)
        else ((putNext k collUnit 0 (writePieces [(Cl.dpos c.block, c.shard.flatMap fun v => leBytes v w)])).andThen fun _ => Job.give true) s

/-- The command can be worked on. -/
def collReady (s : State) (c : Cmd) : Bool :=
  c.kind == .coll && c.st == .running && c.status == 0 && !c.tabDone && groupActs s c.group

/-- Work of command k; what came early is taken in first. A fault pauses or stops it here (R153); a lost member frees its slots (R325). -/
def collWork (k : Nat) (s : State) : State :=
  let s0 := takeEarly k s
  match sget k s0.cmds with
  | none => s
  | some c =>
    if !collReady s0 c then s
    else
      match collStep k c s0 with
      | (s1, .ok _) => wake (tick 1 (noteHeldOf k s1))
      | (s1, .wait) => tick 1 s1
      | (s1, .page cause v) => pauseCmd k c cause v s1
      | (s1, .stop st) => (if st = 0x0004 then freeAllSlots c else id) (stopCmd k st s1)

/-- Whether a step would do anything. -/
def collMoves (k : Nat) (s : State) : Bool :=
  let s0 := takeEarly k s
  match sget k s0.cmds with
  | none => false
  | some c => collReady s0 c && match (collStep k c s0).2 with
    | .ok b => b
    | .wait => false
    | _ => true

/-- A contribution or result arrives: in the command's inbox, or kept until the command is there. -/
def collReceive (p : Packet) (s : State) : State :=
  match s.cmds.find? fun e => e.2.kind == .coll && forCmd e.2 p && !(membersOf e.2).isEmpty with
  | none => { s with fab := { s.fab with collEarly := s.fab.collEarly ++ [p] } }
  | some (k, c) =>
    let b := boxOf c p
    if (inBox c b.1).isSome then s
    else
      noteHeldOf k (answerStranger k c (modCmd k (fun c => { c with inbox := c.inbox ++ [b] }) s) p)

/-- SLOT_REQUEST (R324, R325): a request to this package's router is granted or refused in the order of arrival, and the answer goes
back; an answer to this package's own request is noted with its command. -/
def execSlotRequest (r : SlotReq) (s : State) : Out := held s <|
  match r.grant with
  | none =>
    if r.router ≠ s.tabs.self then idle s
    else
      let g := grantSlot r s
      .next { g.1 with fab := { g.1.fab with slotAsks := g.1.fab.slotAsks ++ [{ r with grant := some g.2 }] } }
  | some b =>
    match s.cmds.find? fun e => e.2.kind == .coll && e.2.key == r.keyid && e.2.collid == r.collid && e.2.sub == 2 &&
        !e.2.mmaBefore.isEmpty with
    | none => idle s
    | some (k, c) =>
      let t := axOf s.selfPkg c
      match (others t).find? fun z => (membersOf c).getD (t.at' z) 0 == r.router.toNat && !(c.mmaBefore.any fun a => a / 2 == z) with
      | none => idle s
      | some z => .next (modCmd k (fun c => { c with mmaBefore := c.mmaBefore ++ [2 * z + if b then 1 else 0] }) s)

end Sys2Proof.Machine
end

