-- ==== Sys2Proof/Machine/Flits.lean ====
section
/-! DEFINITION. Packets as bytes under their keys, and packets cut into flits (R314, R315, R319). -/

set_option linter.unusedVariables false

namespace Sys2Proof.Machine

/-! ### A packet as bytes (R315, R319) -/

/-- SRC, SCTX, 8 zero bits and NCTR. -/
def nonceOf (upper : Nat) : Nat := bits upper 220 24 * 2 ^ 72 + upper % 2 ^ 64

/-- The body under a key, or back (log 88). -/
def crypt (key : BitVec 256) (nonce : Nat) (bs : List Byte) : List Byte :=
  (List.range bs.length).map fun i => bs.getD i 0 ^^^ Config.keyStream key nonce i

/-- The operation record and the data. -/
def bodyOf (p : Packet) : List Byte :=
  leBytes p.addr.toNat 8 ++ leBytes p.tag.toNat 4 ++ [p.opinfo, p.status, 0, 0] ++ p.data

/-- The header and the body as they travel. -/
def packetBytes (p : Packet) : List Byte :=
  let u := hdrUpper p
  let body := crypt p.sealKey (nonceOf u) (bodyOf p)
  let etag := if p.intact then Config.sealTag p.sealKey (nonceOf u) u body else ~~~(Config.sealTag p.sealKey (nonceOf u) u body)
  leBytes (u * 2 ^ 64 + etag.toNat) 40 ++ body

/-- The packet header in a first flit's payload. -/
def headerOf (payload : List Byte) : Nat := leNat (payload.take 40)

/-- A whole packet of this package, read under this package's entry for its key. None where BLEN is no body's or does not fit the
flits. -/
def packetFrom (s : State) (plane : BitVec 2) (bytes : List Byte) : Option Packet :=
  let h := headerOf bytes
  let u := h / 2 ^ 64
  let n := hdrBlen h
  let key := keyValue s (bits h 272 12)
  let sealed := (bytes.drop 40).take n
  let body := crypt key (nonceOf u) sealed
  let rest := Config.packetRest body
  if n < 16 ∨ 536 < n ∨ bytes.length ≠ ceilDiv (40 + n) 64 * 64 then none
  else some
    { dst := BitVec.ofNat 12 (hdrDst h), src := BitVec.ofNat 12 (hdrSrc h), sctx := BitVec.ofNat 12 (hdrCtx h),
      keyid := BitVec.ofNat 12 (bits h 272 12), kind := hdrKind h, plane := plane, ord := bit h 263, flabel := BitVec.ofNat 2 (bits h 261 2),
      path := BitVec.ofNat 2 (bits h 259 2), hops := BitVec.ofNat 3 (hdrHops h), route := BitVec.ofNat 24 (bits h 232 24),
      fseq := BitVec.ofNat 16 (bits h 216 16), dseq := BitVec.ofNat 32 (bits h 184 32), nctr := BitVec.ofNat 64 (bits h 64 64),
      addr := BitVec.ofNat 64 (field body 0 8), tag := BitVec.ofNat 32 (field body 8 4), opinfo := body.getD 12 0, status := body.getD 13 0,
      data := body.drop 16, sealKey := key, intact := Config.sealTag key (nonceOf u) u sealed == BitVec.ofNat 64 h,
      part := rest.part, ty := rest.ty, len := rest.len, whole := rest.whole }

/-- A packet's flits (R314): ceil((40 + b) / 64) of them, the last one filled with zeros. -/
def flitsOf (plane : BitVec 2) (bytes : List Byte) : List Flit :=
  let n := ceilDiv bytes.length 64
  (List.range n).map fun i =>
    { plane := plane, chan := 0, fidx := BitVec.ofNat 4 i, last := i + 1 == n, lseq := 0, crchan := 0, crcnt := 0,
      payload := padTo 64 ((bytes.drop (64 * i)).take 64), tag := 0 }

end Sys2Proof.Machine
end

