-- ==== Sys2Proof/Machine/Control.lean ====
section
/-! DEFINITION. Control flow (R92 to R101), the software trap (R180) and the words that are no instruction (R36, R37). -/

set_option linter.unusedVariables false

namespace Sys2Proof.Machine

/-! ### Transfers -/

/-- The lowest thread of a mask for which f holds. -/
def lowestWith (m : Mask) (f : Nat → Bool) : Option Nat := (threadsOf m).find? f

/-- A return address goes on the stack: with 16 hardware entries the oldest of them moves to the spill area (R95). -/
def Thread.push (x : Thread) (p : Long) : Thread := { x with stack := p :: x.stack, hw := if x.hw = 16 then 16 else x.hw + 1 }

/-- A pop; a RET that empties the hardware entries refills them (R95). -/
def Thread.pop (x : Thread) : Thread :=
  let rest := x.stack.drop 1
  { x with stack := rest, hw := if x.hw ≤ 1 then min 16 rest.length else x.hw - 1 }

/-- The executing threads of a path go to their targets, the others past the word (R94); change is what happens to their
stacks. -/
def goTo (u : Iss) (target : Nat → Long) (change : Thread → Thread) (s : State) : State :=
  let move (k : Rank) (t : Nat) : Thread :=
    let x := k.thread t
    if u.ex.getLsbD t then { change x with pc := target t }
    else if u.active.getLsbD t then { x with pc := ptrAdd u.pc 12 }
    else x
  modRank u.g u.r (fun k => { k with threads := (List.range k.threads.length).map (move k) }) s

/-- Some threads of the path take a transfer and some do not: the rank diverges, wherever they go (R94). -/
def someGo (u : Iss) : Bool := u.ex != 0 && u.ex != u.active

/-- The alignment check of R93: the lowest executing thread whose target is not a multiple of 4. -/
def badTarget (u : Iss) (target : Nat → Long) : Option Nat := lowestWith u.ex fun t => misaligned (target t)

/-- A transferring instruction (R93 to R95): alignment first, then the stack's own check, then the transfer. Whether the target can
be fetched shows when the path runs there. -/
def transfer (i : Instr) (c : Ctl) (target : State → Iss → Nat → Long) (bad : Iss → Nat → Bool) (cause : BitVec 16)
    (change : Iss → Thread → Thread) (s : State) : Out :=
  asRank i c (fun u s =>
    let w := encode i
    match badTarget u (target s u) with
    | some t => trapAt u w 0x05 (target s u t) s
    | none =>
      match lowestWith u.ex (bad u) with
      | some t => trapAt u w cause (BitVec.ofNat 64 t) s
      | none => closePass c (someGo u) u (goTo u (target s u) (change u) (charged u w s))) s

def noCheck (_ : Iss) (_ : Nat) : Bool := false
def stackFull (u : Iss) (t : Nat) : Bool := decide (256 ≤ (u.k.thread t).stack.length)
def stackEmpty (u : Iss) (t : Nat) : Bool := (u.k.thread t).stack.isEmpty
def pushNext (u : Iss) (x : Thread) : Thread := x.push (ptrAdd u.pc 12)

/-- BRA and CALL add IMM to the offset of the word's own address (R93). -/
def relTarget (imm : Word) (u : Iss) : Long := ptrAdd u.pc imm.toInt
def regTarget (a : Opnd) (s : State) (u : Iss) (t : Nat) : Long := BitVec.ofNat 64 (readOpnd s.clk u .b64 0 a t)

def execBra (c : Ctl) (imm : Word) (s : State) : Out :=
  transfer (.bra c imm) c (fun _ u _ => relTarget imm u) noCheck 0 (fun _ x => x) s
def execBrx (c : Ctl) (a : Opnd) (s : State) : Out :=
  transfer (.brx c a) c (regTarget a) noCheck 0 (fun _ x => x) s
def execCall (c : Ctl) (imm : Word) (s : State) : Out :=
  transfer (.call c imm) c (fun _ u _ => relTarget imm u) stackFull 0x0A pushNext s
def execCallx (c : Ctl) (a : Opnd) (s : State) : Out :=
  transfer (.callx c a) c (regTarget a) stackFull 0x0A pushNext s

/-- RET (R96): the underflow trap, then the popped addresses are checked as a BRX target would be. -/
def execRet (c : Ctl) (s : State) : Out :=
  asRank (.ret c) c (fun u s =>
    let w := encode (.ret c)
    let top (t : Nat) : Long := (u.k.thread t).stack.headD 0
    match lowestWith u.ex (stackEmpty u) with
    | some t => trapAt u w 0x0B (BitVec.ofNat 64 t) s
    | none =>
      match badTarget u top with
      | some t => trapAt u w 0x05 (top t) s
      | none => closePass c (someGo u) u (goTo u top Thread.pop (charged u w s))) s

/-! ### Rejoin masks -/

/-- R98: a parked thread is released when every thread of its target has joined or exited; it then stands after its WAIT. -/
def releaseParked (k : Rank) : Rank :=
  let e := k.exitedMask
  { k with threads := k.threads.map fun x =>
      if x.parked && ((k.jreg x.waitJ.toNat ||| e) &&& x.waitMask) == x.waitMask then
        { x with parked := false, pc := ptrAdd x.pc 12 } else x }

def joinIdx : Opnd → Nat
  | .j i => i.toNat
  | _ => 0

/-- JOIN (R97). -/
def execJoin (c : Ctl) (d : Opnd) (s : State) : Out :=
  asRank (.join c d) c (fun u s =>
    finish c (encode (.join c d)) u
      (modRank u.g u.r (fun k => releaseParked (k.setJ (joinIdx d) (k.jreg (joinIdx d) ||| u.ex))) s)) s

/-- JSET (R97): acts when the guard holds for at least one active thread (R30). -/
def execJset (c : Ctl) (d a : Opnd) (imm : Word) (s : State) : Out :=
  asRank (.jset c d a imm) c (fun u s =>
    finish c (encode (.jset c d a imm)) u
      (if u.ex = 0 then s
       else modRank u.g u.r (fun k => releaseParked (k.setJ (joinIdx d) (BitVec.ofNat 32 (readOpnd s.clk u .b32 imm a 0)))) s)) s

/-- The threads that park at WAIT keep the WAIT's address until they are released (log 19). -/
def parkThreads (u : Iss) (j : Nat) (g : Word) (k : Rank) : Rank :=
  let past (t : Nat) : Thread :=
    let x := k.thread t
    if u.ex.getLsbD t then { x with parked := true, waitJ := BitVec.ofNat 4 j, waitMask := g }
    else if u.active.getLsbD t then { x with pc := ptrAdd u.pc 12 } else x
  { k with threads := (List.range k.threads.length).map past }

/-- WAIT (R98): the condition met already lets the threads go on; else they park and the ply ends. -/
def execWait (c : Ctl) (a b : Opnd) (imm : Word) (s : State) : Out :=
  asRank (.wait c a b imm) c (fun u s =>
    let w := encode (.wait c a b imm)
    let g : Word := BitVec.ofNat 32 (readOpnd s.clk u .b32 imm b 0)
    let met := ((u.k.jreg (joinIdx a) ||| u.k.exitedMask) &&& g) == g
    if met || u.ex == 0 then finish c w u s
    else closePass c true u (modRank u.g u.r (parkThreads u (joinIdx a) g) (charged u w s))) s

/-- EXIT (R100). -/
def execExit (c : Ctl) (s : State) : Out :=
  asRank (.exit c) c (fun u s =>
    let gone (k : Rank) (t : Nat) : Thread :=
      if u.ex.getLsbD t then { k.thread t with exited := true, parked := false } else k.thread t
    let leave (k : Rank) : Rank := releaseParked { k with threads := (List.range k.threads.length).map (gone k) }
    closePass c (u.ex != 0 && u.ex == u.active) u (advancePcs u (modRank u.g u.r leave (charged u (encode (.exit c)) s)))) s

/-! ### Traps by instruction -/

/-- BKPT (R101) and TRAP (R180): a precise trap when the guard holds for at least one active thread. -/
def trapWord (i : Instr) (c : Ctl) (cause : BitVec 16) (tval : Long) (s : State) : Out :=
  asRank i c (fun u s => if u.ex = 0 then finish c (encode i) u s else trapAt u (encode i) cause tval s) s

def execBkpt (c : Ctl) (code : BitVec 16) (s : State) : Out := trapWord (.bkpt c code) c 0x08 (code.setWidth 64) s
def execTrap (c : Ctl) (code : BitVec 16) (s : State) : Out := trapWord (.trap c code) c 0x09 (code.setWidth 64) s

/-! ### Words that are no instruction -/

/-- Checks 1 and 4 to 6 of R36: the illegal-instruction trap, or the sequencer fault (R167). The guard plays no part. -/
def execIllegalOpcode (w : IWord) (s : State) : Out :=
  match s.cur with
  | some (.seq _) => asSeq (fun g _ _ s => seqFaultAt g 0x01 0 s) s
  | _ =>
    match issuing s (Fields.ofWord w).ctl with
    | none => .fault .noIssuer
    | some u => .next (keep s (trapAt u w 0x01 0 s))

/-- The 32-bit value of a field read as a specifier, or none (R37): readable classes are those with a 32-bit or 64-bit value.
DESIGN CHOICE (log 92): a p field is readable too, its bit captured as 0 or 1 with no zero flag. -/
def captured (clk : Nat) (u : Iss) (imm : Word) (spec : BitVec 10) (t : Nat) : Option Nat :=
  match Opnd.ofCode spec with
  | .v i => if i.toNat < u.k.budget then some (readOpnd clk u .b32 imm (.v i) t) else none
  | .w _ | .o _ | .y _ | .j _ | .imm =>
    if (Opnd.ofCode spec).code = spec then some (readOpnd clk u .b32 imm (Opnd.ofCode spec) t) else none
  | .sp _ => if badSpecial spec then none else some (readOpnd clk u .b32 imm (Opnd.ofCode spec) t)
  | .p i => if (Opnd.ofCode spec).code = spec then some (if readPred u (.p i) t then 1 else 0) else none
  | _ => none

/-- The frame of the emulation trap (R37): the word, the guard mask of the active threads, the captured values of A, B and
the field in IMM bits 9:0, and a flag for each field captured as zero. It stands in the frame record, marked DROP: RTT does not
re-inject it (DEDUCED, log 18). -/
def emulationEntry (clk : Nat) (u : Iss) (w : IWord) (id : Nat) : Entry :=
  let f := Fields.ofWord w
  let c := f.imm.extractLsb' 0 10
  let val (spec : BitVec 10) (t : Nat) : Nat := (captured clk u f.imm spec t).getD 0
  let lacks (spec : BitVec 10) : Bool := (captured clk u f.imm spec 0).isNone
  { word := w, state := .faulted, cls := .n, drop := true,
    zeroed := BitVec.ofBool (lacks c) ++ BitVec.ofBool (lacks f.b) ++ BitVec.ofBool (lacks f.a), unif := false, pc := u.pc,
    mask := u.ex, tagBase := 0, prog := 0, status := 0, cause := 0x02, block := [],
    slots := (threadsOf u.active).map fun t =>
      (t, { a := BitVec.ofNat 64 (val f.a t), b := BitVec.ofNat 128 (val f.b t), c := BitVec.ofNat 64 (val c t) }),
    id := id, left := 0, got := [], bad := none, replayed := false }

/-- Check 2 of R36: every feature bit is clear (R10), so an extension word takes the emulation trap; fetched by a
sequencer, it is a sequencer fault of that cause (R167). -/
def execExtensionOpcode (w : IWord) (s : State) : Out :=
  match s.cur with
  | some (.seq _) => asSeq (fun g _ _ s => seqFaultAt g 0x02 0 s) s
  | _ =>
    match issuing s (Fields.ofWord w).ctl with
    | none => .fault .noIssuer
    | some u =>
      match hurdle s u (.extensionOpcode w) with
      | some h => .next (keep s (doHurdle u w h s))
      | none =>
      let s1 := modRank u.g u.r (fun k => { k with frameWord := w }) { s with fresh := s.fresh + 1 }
      .next (keep s (takeTrap u.g u.r false 0x02 u.pc 0 (some (emulationEntry s.clk u w s.fresh)) s1))

end Sys2Proof.Machine
end

