-- ==== Sys2Proof/Machine/Dispatcher.lean ====
section
/-! DEFINITION. The dispatcher: validation of a launch packet (R196), acceptance (R197), placement (R198 to R201), the launch
sources (R191, R393), lane arbitration (R214, R215), and static energy (R331, R397). -/

set_option linter.unusedVariables false

namespace Sys2Proof.Machine

/-! ### Tables -/

def queueEntry (s : State) (q : Nat) : BitVec 64 := sgetD q 0 s.tabs.queues
namespace Queue
def en (e : BitVec 64) : Bool := e.getLsbD 63
def prio (e : BitVec 64) : Nat := (e.extractLsb' 60 3).toNat
def own (e : BitVec 64) : Nat := (e.extractLsb' 48 12).toNat
end Queue

def ctxEntry (s : State) (c : Nat) : BitVec 64 := sgetD c 0 s.tabs.ctxs
namespace CtxTab
def valid (e : BitVec 64) : Bool := e.getLsbD 63
def part (e : BitVec 64) : Nat := (e.extractLsb' 57 6).toNat
def save (e : BitVec 64) : Nat := (e.extractLsb' 12 36).toNat * 4096
end CtxTab

def ctxIn (s : State) (c part : Nat) : Bool := CtxTab.valid (ctxEntry s c) && CtxTab.part (ctxEntry s c) == part

def ownsCore (s : State) (part core : Nat) : Bool := (partOf s part).cores.getLsbD core
def ownedCores (s : State) (part : Nat) : List Nat := (List.range Config.cores).filter fun c => ownsCore s part c

/-! ### Room (R200, R202) -/

/-- Groups on a core, and those whose ranks still hold slots and registers. -/
def groupsOn (s : State) (core : Nat) : List Group := (s.groups.filter fun e => e.2.core == core).map (·.2)

def ranksOnLane (s : State) (core lane : Nat) : List (Group × Rank) :=
  ((groupsOn s core).filter fun x => !x.retiredGroup).flatMap fun x => (x.ranks.filter fun k => k.lane == lane).map fun k => (x, k)

def laneSlotsFree (s : State) (core lane : Nat) : Nat := Config.slotsPerLane - (ranksOnLane s core lane).length

/-- Registers are held by the ranks of running contexts. -/
def laneRoomFree (s : State) (core lane : Nat) : Nat :=
  Config.laneRoom - ((ranksOnLane s core lane).filter fun p => ctxActive s p.1.ctx).foldl (fun n p => n + p.2.budget) 0

/-- What a group asks of a core. -/
structure Needs where
  budgets : List Nat
  scratch : Nat
  plane : Nat
  slabs : Nat
  lbar : Nat
  deriving DecidableEq, Repr, Inhabited

def Pkt.needs (p : List Byte) : Needs :=
  { budgets := (List.range (Pkt.ranks p)).map (Pkt.budget p), scratch := 128 * Pkt.scratch p, plane := 128 * Pkt.plane p,
    slabs := Pkt.slabs p, lbar := Pkt.lbar p }

def sumOf (f : Group → Nat) (l : List Group) : Nat := l.foldl (fun n x => n + f x) 0

/-- A starting lane at which every rank finds a slot and registers. -/
def startLane (n : Needs) (slots room : Nat → Nat) : Option Nat := (List.range 32).find? fun l0 =>
  (List.range 32).all fun lane =>
    let mine := (List.range n.budgets.length).filter fun r => (l0 + r) % 32 == lane
    decide (mine.length ≤ slots lane) && decide (mine.foldl (fun a r => a + n.budgets.getD r 0) 0 ≤ room lane)

/-- A group fits a core: the lowest L0 (R200). -/
def fitsCore (s : State) (n : Needs) (core : Nat) : Option Nat :=
  let g := groupsOn s core
  if Config.scratchBytes < sumOf Group.scratchBytes g + n.scratch ∨ Config.planeBytes < sumOf Group.planeBytes g + n.plane ∨
      Config.slabsPerCore < sumOf Group.slabMax g + n.slabs ∨ Config.coreBars < sumOf Group.lbar g + n.lbar then none
  else startLane n (laneSlotsFree s core) (laneRoomFree s core)

def fitsEmpty (n : Needs) : Bool :=
  decide (n.scratch ≤ Config.scratchBytes ∧ n.plane ≤ Config.planeBytes ∧ n.slabs ≤ Config.slabsPerCore ∧ n.lbar ≤ Config.coreBars) &&
  (startLane n (fun _ => Config.slotsPerLane) (fun _ => Config.laneRoom)).isSome

def quadBarsFree (s : State) (quad : Nat) : Nat :=
  Config.quadBars - (s.teams.filter fun e => e.2.quad == quad).foldl (fun n e => n + e.2.qbar) 0

/-! ### Validation (R196) -/

/-- Where a packet comes from. -/
inductive LaunchFrom where
  | word (ctx : Nat)
  | window (queue : Nat)
  | net (permitted : Bool)
  deriving DecidableEq, Repr, Inhabited

def ptrBad (self : Nat) (p : Long) : Bool :=
  !ptrOk p || misaligned p || ptrSpace p == .loc || (ptrSpace p == .tensor && ptrHome p != self)

def entryPart (s : State) (c : Nat) : Nat := CtxTab.part (ctxEntry s c)

/-- Reserved bits and fields that must be zero: the lowest offset. -/
def reservedBad (p : List Byte) : Option Nat :=
  let dep := Pkt.depen p
  let cmp := Pkt.compat p
  firstFail [(24, !bit (field p 24 8) 63 && (dep || Pkt.depn p == 0)), (32, cmp || Pkt.signal p == 0),
    (44, bits (Pkt.shape p) 17 15 == 0), (48, bits (Pkt.sizes p) 29 3 == 0), (52, bits (Pkt.room p) 27 5 == 0),
    (56, bits (Pkt.qctl p) 30 2 == 0 && (dep || (Pkt.deptl p == 0 && Pkt.depctx p == 0))),
    (60, cmp || field p 60 4 == 0)]

def pointerBad (self : Nat) (p : List Byte) : Option Nat :=
  firstFail [(0, !ptrBad self (Pkt.code p)), (8, Pkt.mcode p == 0 || !ptrBad self (Pkt.mcode p)),
    (32, !Pkt.compat p || !ptrBad self (Pkt.signal p))]

def shapeField (p : List Byte) : Option Nat :=
  firstFail [(40, Pkt.grid p != 0),
    (44, decide (1 ≤ Pkt.ranks p ∧ Pkt.ranks p ≤ 64 ∧ Pkt.cranks p ≤ Pkt.ranks p ∧ Pkt.team p ≤ 4)),
    (52, Pkt.team p != 0 || Pkt.qbar p == 0)]

/-- A resource field out of range (R194, R196). DESIGN CHOICE (log 107): a VREGS or CREGS that R194 wants 0 and that is not 0 counts as one
(reason 6), and not as a field required to be zero (reason 2). -/
def resourceField (p : List Byte) : Option Nat :=
  let regs (n : Nat) (used : Bool) : Bool := if used then decide (1 ≤ n ∧ n ≤ 32) else n == 0
  match firstFail [(48, regs (Pkt.vregs p) (decide (Pkt.cranks p < Pkt.ranks p)) && regs (Pkt.cregs p) (Pkt.cranks p != 0) &&
      decide (Pkt.scratch p ≤ 4096 ∧ Pkt.slabs p ≤ 8)),
    (52, decide (Pkt.plane p ≤ 8192 ∧ Pkt.lbar p ≤ 96 ∧ Pkt.qbar p ≤ 32))] with
  | some f => some f
  | none => if fitsEmpty (Pkt.needs p) then none else some 48

def noCore (s : State) (part : Nat) (p : List Byte) : Bool :=
  if Pkt.team p = 0 then (ownedCores s part).isEmpty
  else !((List.range (Config.cores / 4)).any fun q =>
    decide (Pkt.team p ≤ ((List.range 4).filter fun i => ownsCore s part (4 * q + i)).length))

/-- Launches of a queue that are not wholly placed. -/
def unplaced (s : State) (q : Nat) : Nat :=
  (s.launches.filter fun e => e.2.queue == q && decide (e.2.next < Pkt.total e.2.pkt) && !e.2.gone).length

/-- The first failing reason with its COUNTB. -/
def rejectReason (s : State) (src : LaunchFrom) (part : Nat) (p : List Byte) : Option (Nat × Nat) :=
  let q := queueEntry s (Pkt.queue p)
  if p.length ≠ 64 then some (1, 0)
  else if let some f := reservedBad p then some (2, f)
  else if !Queue.en q || !ctxIn s (Queue.own q) part then some (3, 0)
  else if let some f := pointerBad s.selfPkg p then some (4, f)
  else if let some f := shapeField p then some (5, f)
  else if let some f := resourceField p then some (6, f)
  else if noCore s part p then some (7, 0)
  else if Pkt.depen p && (!ctxIn s (Pkt.depctx p) part || decide (5 < Pkt.deptl p)) then some (8, 56)
  else if 1024 ≤ unplaced s (Pkt.queue p) then some (9, 56)
  else if src = .net false then some (10, 56)
  else none

/-- The record of a rejected packet goes where R196 says. -/
def postReject (src : LaunchFrom) (part : Nat) (r : Record) (s : State) : State :=
  match src with
  | .word c => postCtx c r s
  | .window q => postCtx (Queue.own (queueEntry s q)) r s
  | .net _ => postHostCtx part { r with part := part } s

/-- A packet reaches the dispatcher: rejected, or accepted with the next number of its queue owner's tl.q (R196, R197). -/
def submitLaunch (src : LaunchFrom) (part : Nat) (addr : Long) (p : List Byte) (s : State) : State :=
  match rejectReason s src part p with
  | some (reason, at') =>
    postReject src part { source := 6, status := 0x000C, cmdaddr := addr, counta := reason, countb := at' } s
  | none =>
    let owner := Queue.own (queueEntry s (Pkt.queue p))
    let n := takeNumber owner 5 s
    let x : Launch :=
      { queue := Pkt.queue p, owner := owner, part := part, n := n.2, pkt := p, cmdaddr := addr, st := .queued, next := 0,
        retired := 0, discarded := 0, outstanding := 0, status := 0, firstAt := none, passedSince := none, holdCore := none,
        holdQuad := none, compatDone := false, gone := false }
    { n.1 with launches := sset n.1.fresh x n.1.launches, fresh := n.1.fresh + 1 }

/-! ### Launch sources -/

/-- The address of queue q's window. -/
def windowAddr (q : Nat) : Long := Config.windowBase + BitVec.ofNat 64 (4096 * q)

/-- A write to a launch window (R191). The control cores that issue one run from step 8 of the boot on (R393). -/
def execLaunchWindowWrite (q : Nat) (data : List Byte) (s : State) : Out := held s <|
  let q := q % 4096
  if !s.plat.joined then idle s
  else .next (submitLaunch (.window q) (entryPart s (Queue.own (queueEntry s q))) (windowAddr q) data s)

namespace Ltab
def valid (e : BitVec 128) : Bool := e.getLsbD 127
def mac (e : BitVec 128) : BitVec 48 := e.extractLsb' 64 48
def first (e : BitVec 128) : Nat := (e.extractLsb' 52 12).toNat
def count (e : BitVec 128) : Nat := (e.extractLsb' 39 13).toNat
end Ltab

/-- The partition's launch table admits a source and a queue (R393). -/
def admits (s : State) (part : Nat) (mac : BitVec 48) (queue : Nat) : Bool := (List.range 64).any fun i =>
  let e := sgetD (part * 64 + i) 0 s.tabs.launchTab
  Ltab.valid e && Ltab.mac e == mac && decide (Ltab.first e ≤ queue ∧ queue < Ltab.first e + Ltab.count e)

/-- A launch frame (R393): one that does not decrypt is dropped. -/
def execLaunchFrame (f : LaunchFrame) (s : State) : Out := held s <|
  if f.intact && keyOk s f.keyid.toNat && keyValue s f.keyid.toNat == f.sealKey then
    .next (submitLaunch (.net (admits s f.part.toNat f.srcmac (Pkt.queue f.bytes))) f.part.toNat 0 f.bytes s)
  else idle s

/-! ### Queues (R198) -/

/-- The head of a queue: its first launch that is not wholly placed, in acceptance order. -/
def headOf (s : State) (q : Nat) : Option (Nat × Launch) :=
  s.launches.find? fun e => e.2.queue == q && decide (e.2.next < Pkt.total e.2.pkt) && !e.2.gone

def eligible (s : State) (x : Launch) : Bool :=
  ctxRuns s x.owner &&
  (!Pkt.depen x.pkt || decide (Pkt.depn x.pkt ≤ (timeline s (Pkt.depctx x.pkt) (Pkt.deptl x.pkt)).value))

/-- The queues with an eligible head, in the order of a round (R199). -/
def roundQueues (s : State) : List Nat :=
  let qs := (s.launches.map fun e => e.2.queue).eraseDups
  let live := qs.filter fun q => ((headOf s q).map fun h => eligible s h.2).getD false
  let before (a b : Nat) : Bool :=
    let pa := Queue.prio (queueEntry s a)
    let pb := Queue.prio (queueEntry s b)
    decide (pb < pa) || (pa == pb && decide (a ≤ b))
  sortBy before live

/-- A core is marked for the head of a queue of higher priority (R199). -/
def marked (s : State) (l : Nat) (prio core : Nat) : Bool := s.launches.any fun e =>
  e.1 != l && decide (prio < Queue.prio (queueEntry s e.2.queue)) &&
    (e.2.holdCore == some core || e.2.holdQuad == some (core / 4))

/-! ### Placement (R200, R201) -/

def Rank.placed (x : Group) (r lane slot budget : Nat) (copyRole : Bool) (args : Long) (clk stamp : Nat) (acquires : Bool) : Rank :=
  { idx := r, lane := lane, slot := slot, budget := budget, copyRole := copyRole, st := .ready, starve := 0, readyAt := clk,
    v := [], o := [], y := [], w := sput 0 1 args [], p := [], j := [],
    threads := List.replicate 32 { Thread.zero with pc := x.code },
    active := 0, plyLen := 0, plyLr := false, plyClean := false, waitFor := .none, tcause := 0, tpc := 0, tval := 0, handler := false,
    frameActive := false, frameCopy := none, yielding := false, live := [], frame := [], counters := [], imprecise := [], away := [],
    dirty := [], acqAt := if acquires then (List.range 32).map fun t => (t, stamp) else [], relAll := [], relReads := [],
    tcMark := [], tcWide := [], ifrec := 0, tpcWas := none, frameWord := 0, fillLine := none }

/-- The slots that ranks take on their lanes: the lowest free ones, one after another. -/
def slotsTaken (s : State) (core : Nat) (lanes : List Nat) : List Nat :=
  (lanes.foldl (fun (acc : List Nat × List (Nat × Nat)) lane =>
    let used := (ranksOnLane s core lane).map (fun p => p.2.slot) ++ (acc.2.filter fun e => e.1 == lane).map (·.2)
    let n := ((List.range 16).find? fun i => !used.contains i).getD 0
    (acc.1 ++ [n], acc.2 ++ [(lane, n)])) ([], [])).1

/-- The images that stand in a context's save area. -/
def imagesOf (s : State) (cid : Nat) : List (Nat × Nat) :=
  (s.groups.filter fun e => e.2.ctx == cid).map fun e => (e.2.imgOff, groupImageSize e.2)

/-- The weight table is read when a context is placed or loaded on a core (R397); when it cannot be read, the weights stand. -/
def enwtOk (s : State) (a : Nat) : Bool :=
  a % 512 == 0 && decide (a < 2 ^ 43) && isControlChan (a / 2 ^ 30) && !regionLost s a

def loadWeights (cid core : Nat) (s : State) : State :=
  match ctx? s cid with
  | none => s
  | some c =>
    let a := c.enwt.toNat
    let read (c : Ctx) : Ctx := { c with weightsRead := core :: c.weightsRead.filter (· != core), weightsAsked := c.weightsAsked.filter (· != core) }
    if enwtOk s a && !lineReady s a false then
      askLine (modCtx cid (fun c => { read c with weightsAsked := core :: (read c).weightsAsked }) s) a false
    else if enwtOk s a && !rowFailed s a then
      let bs := homeRead s a 280
      let ws : List Word := (List.range 70).map fun i => if i < 14 ∨ 64 ≤ i then BitVec.ofNat 32 (field bs (4 * i) 4) else 0
      modCtx cid (fun c => { read c with weights := sset core ws c.weights }) s
    else postHost { source := 7, status := 0x000A, counta := cid, countb := a } (modCtx cid read s)

/-- A context is placed on a core that has not read its table since the context's load (R397). -/
def firstWeights (cid core : Nat) (s : State) : State :=
  if (ctx? s cid).any fun c => c.weightsRead.contains core then s else loadWeights cid core s

/-- Weight tables that are on their way. -/
def weightsOut (s : State) : List (Nat × Nat) := s.ctxs.flatMap fun c => c.2.weightsAsked.map fun w => (c.1, w)

def retryWeights (s : State) : State := (weightsOut s).foldl (fun s w => loadWeights w.1 w.2 s) s

/-- A group is placed on a core (R201). -/
def placeGroup (l : Nat) (x : Launch) (core l0 grpid teamid team : Nat) (s : State) : State :=
  let p := x.pkt
  let n := Pkt.needs p
  let lanes := (List.range n.budgets.length).map fun r => (l0 + r) % 32
  let slots := slotsTaken s core lanes
  let g0 : Group :=
    { ctx := x.owner, launch := l, queue := x.queue, prio := Queue.prio (queueEntry s x.queue), grpid := grpid, teamid := teamid,
      launchid := BitVec.ofNat 32 x.n, core := core, imgOff := 0, l0 := l0, code := Pkt.code p, mcode := Pkt.mcode p,
      scratchBytes := n.scratch, planeBytes := n.plane, slabMax := n.slabs, lbar := n.lbar, qbar := Pkt.qbar p, team := team,
      scratch := [], plane := [], slabMap := [], handles := [], peers := [], bars := [],
      seq := { mpc := 0, st := .idle, c := [0, 0, 0, 0], waitBar := 0, waitPhase := 0, recs := [] }, ranks := [],
      quiesced := false, yieldTaken := false, frozen := false, placedAt := s.clk, seqFault := none, retiredGroup := false }
  let mk (r : Nat) : Rank := Rank.placed g0 r (lanes.getD r 0) (slots.getD r 0) (n.budgets.getD r 0)
    (decide (Pkt.ranks p - Pkt.cranks p ≤ r)) (Pkt.args p) s.clk s.fresh (Pkt.depen p)
  let g1 := { g0 with ranks := (List.range n.budgets.length).map mk }
  let g2 := { g1 with imgOff := placeImage (imagesOf s x.owner) (groupImageSize g1) (s.groups.length + 1) (imageBase (ownedCores s x.part).length) }
  firstWeights x.owner core { s with groups := sset s.fresh g2 s.groups, fresh := s.fresh + 1 }

/-- A bear-off request that is not complete names the core: no group is placed there (R379). -/
def bornOff (s : State) (core : Nat) : Bool := s.plat.bearoffs.any fun b => b.cores.getLsbD core

def coresFor (s : State) (l : Nat) (x : Launch) (cores : List Nat) : List (Nat × Nat) :=
  let prio := Queue.prio (queueEntry s x.queue)
  cores.filterMap fun c => if marked s l prio c || bornOff s c then none else (fitsCore s (Pkt.needs x.pkt) c).map fun l0 => (c, l0)

/-- Where the next group or team goes: a core and L0 for each member; none when it fits nowhere. DESIGN CHOICE (log 96): of several quads
that take the team the lowest (R200 orders the cores of a quad alone). -/
def spotFor (s : State) (l : Nat) (x : Launch) : Option (List (Nat × Nat)) :=
  let k := Pkt.team x.pkt
  if !dirRoom (imagesOf s x.owner) (max 1 k) then none
  else if k = 0 then ((coresFor s l x (ownedCores s x.part)).head?).map fun c => [c]
  else
    let quad (q : Nat) : Option (List (Nat × Nat)) :=
      let fits := coresFor s l x ((List.range 4).map (fun i => 4 * q + i) |>.filter fun c => ownsCore s x.part c)
      if k ≤ fits.length ∧ Pkt.qbar x.pkt ≤ quadBarsFree s q then some (fits.take k) else none
    (List.range (Config.cores / 4)).findSome? quad

def placeNext (l : Nat) (x : Launch) (spot : List (Nat × Nat)) (s : State) : State :=
  let k := Pkt.team x.pkt
  let m := if k = 0 then x.next else x.next / k
  let team := if k = 0 then 0 else s.fresh
  let s0 := if k = 0 then s
    else { s with teams := sset s.fresh { quad := ((spot.headD (0, 0)).1) / 4, qbar := Pkt.qbar x.pkt, bars := [] } s.teams
                  fresh := s.fresh + 1 }
  let s1 := (List.range spot.length).foldl (fun s i =>
    let c := spot.getD i (0, 0)
    placeGroup l x c.1 c.2 (x.next + i) m team s) s0
  let next := x.next + spot.length
  modLaunch l (fun y => { y with next := next, firstAt := some (y.firstAt.getD s.clk), passedSince := none, holdCore := none,
                                 holdQuad := none, st := if Pkt.total x.pkt ≤ next then .running else y.st }) s1

/-- One queue's turn in a round. -/
def roundTurn (q : Nat) (s : State) : State :=
  match headOf s q with
  | none => s
  | some (l, x) =>
    match spotFor s l x with
    | some spot => placeNext l x spot s
    | none => modLaunch l (fun y => { y with passedSince := some (y.passedSince.getD s.clk) }) s

/-- A head that the round does not take is not passed over by it: the cycles of its room hold begin again. -/
def notTaken (s : State) (e : Nat × Launch) : Bool := e.2.passedSince.isSome && !(roundQueues s).contains e.2.queue

/-- A round (R199) over the queues that had an eligible head when it began. -/
def execDispatchRound (s : State) : Out := held s <|
  let fresh (e : Nat × Launch) : Nat × Launch := if notTaken s e then (e.1, { e.2 with passedSince := none }) else e
  .next (tick 1 ((roundQueues s).foldl (fun s q => roundTurn q s) { s with launches := s.launches.map fresh }))

/-- A round would place something, or begin or end a count. -/
def roundMoves (s : State) : Bool := s.launches.any (notTaken s) || (roundQueues s).any fun q =>
  match headOf s q with
  | some (l, x) => (spotFor s l x).isSome || x.passedSince.isNone
  | none => false

def largest (l : List (Nat × Nat)) : Option Nat :=
  (l.foldl (fun (b : Option (Nat × Nat)) e => match b with
    | none => some e
    | some v => if v.2 < e.2 then some e else some v) none).map (·.1)

def coreRoom (s : State) (core : Nat) : Nat := (List.range 32).foldl (fun n lane => n + laneRoomFree s core lane) 0

/-- The head of queue q has been passed over long enough for a mark. -/
def holdDue (s : State) (q : Nat) : Option (Nat × Launch) :=
  match headOf s q with
  | some (l, x) =>
    if eligible s x && x.holdCore.isNone && x.holdQuad.isNone && (x.passedSince.map fun t => decide (t + Config.roomHoldCycles ≤ s.clk)).getD false then
      some (l, x)
    else none
  | none => none

/-- ROOM_HOLD (R199): the owned core, or quad, with the largest free register room is marked. -/
def execRoomHold (q : Nat) (s : State) : Out := held s <|
  match holdDue s q with
  | none => idle s
  | some (l, x) =>
    let cores := ownedCores s x.part
    if Pkt.team x.pkt = 0 then
      .next (modLaunch l (fun y => { y with holdCore := largest (cores.map fun c => (c, coreRoom s c)) }) s)
    else
      let room (q : Nat) : Nat := (cores.filter fun c => c / 4 == q).foldl (fun n c => n + coreRoom s c) 0
      let quads := ((cores.map (· / 4)).eraseDups).map fun q => (q, room q)
      .next (modLaunch l (fun y => { y with holdQuad := largest quads }) s)

/-! ### Lanes (R211, R214, R215) -/

/-- The yield trap that a group's lowest rank is to take (R359). -/
def yieldDue (s : State) (g : Nat) : Option Nat :=
  match group? s g with
  | none => none
  | some x =>
    if x.frozen || x.retiredGroup || x.quiesced || x.yieldTaken || !((ctx? s x.ctx).map fun c => c.yieldPending && c.mode == .running).getD false then none
    else
      match lowestRank x with
      | none => none
      | some r => match x.ranks[r]? with
        | some k => if k.frameActive || k.st == .issuing || (openWord k).isSome then none else some r
        | none => none

/-- A rank that may start a ply. -/
def mayStart (s : State) (g : Nat) (x : Group) (k : Rank) : Bool :=
  k.st == .ready && (openWord k).isNone && !x.frozen && ctxRuns s x.ctx && (!x.quiesced || k.yielding) && k.imprecise.isEmpty &&
  !(x.seqFault.isSome && lowestRank x == some k.idx) && yieldDue s g != some k.idx && (choosePath k).isSome &&
  !(k.live.any fun e => e.waits) && !(k.frameActive && !s.late.isEmpty) &&
  !((ctx? s x.ctx).any fun c => c.weightsAsked.contains x.core)

/-- The ranks of a lane: group, rank, priority, starvation count, time of becoming ready, slot. -/
def laneReady (s : State) (core lane : Nat) : List (Nat × Group × Rank) :=
  (s.groups.filter fun e => e.2.core == core && !e.2.retiredGroup).flatMap fun e =>
    (e.2.ranks.filter fun k => k.lane == lane && mayStart s e.1 e.2 k).map fun k => (e.1, e.2, k)

def laneBusy (s : State) (core lane : Nat) : Bool := (ranksOnLane s core lane).any fun p => p.2.st == .issuing

/-- Whether a goes before b (R214). -/
def laneBefore (s : State) (a b : Nat × Group × Rank) : Bool :=
  let sa := decide (Config.starveLimit ≤ a.2.2.starve)
  let sb := decide (Config.starveLimit ≤ b.2.2.starve)
  let prio (e : Nat × Group × Rank) : Nat := Queue.prio (queueEntry s e.2.1.queue)
  if sa || sb then sa && (!sb || decide (b.2.2.starve < a.2.2.starve) ||
    (a.2.2.starve == b.2.2.starve && decide (a.2.2.slot < b.2.2.slot)))
  else decide (prio b < prio a) || (prio a == prio b && (decide (a.2.2.readyAt < b.2.2.readyAt) ||
    (a.2.2.readyAt == b.2.2.readyAt && decide (a.2.2.slot < b.2.2.slot))))

def chooseRank (s : State) (core lane : Nat) : Option (Nat × Group × Rank) :=
  if laneBusy s core lane then none
  else (laneReady s core lane).foldl (fun (b : Option (Nat × Group × Rank)) e => match b with
    | none => some e
    | some v => some (if laneBefore s e v then e else v)) none

/-- A ply starts: y zeroed, a path chosen, the other paths passed over (R211, R215). -/
def startPly (k : Rank) : Rank :=
  match choosePath k with
  | none => k
  | some p =>
    let count (t : Nat) : Nat := (((pathsOfRank k).find? fun q => q.2.getLsbD t).map (pathPassed k)).getD 0
    let mark (t : Nat) : Thread :=
      let x := k.thread t
      if p.2.getLsbD t then { x with passed := 0 } else if k.standing.getLsbD t then { x with passed := count t + 1 } else x
    { k with y := [], st := .issuing, active := p.2, plyLen := 0, plyLr := false, plyClean := false, starve := 0, waitFor := .none,
             threads := (List.range k.threads.length).map mark }

/-! ### Static energy (R331) -/

/-- Rank slots that contexts hold on a core. -/
def slotsHeld (s : State) (core : Nat) : List (Nat × Nat) :=
  let gs := (groupsOn s core).filter fun x => !x.retiredGroup
  ((gs.map (·.ctx)).eraseDups).map fun c => (c, (gs.filter fun x => x.ctx == c).foldl (fun n x => n + x.ranks.length) 0)

def staticWeight (s : State) (cid core : Nat) : Nat := (List.range 6).foldl (fun n i => n + weightOf s cid core (64 + i)) 0

/-- The core's static energy at n boundaries. -/
def chargeStatic (n core : Nat) (s : State) : State :=
  let held := slotsHeld s core
  let total := held.foldl (fun n e => n + e.2) 0
  if total = 0 then s
  else
    let most := held.foldl (fun (b : Nat × Nat) e => if b.2 < e.2 ∨ (b.2 = e.2 ∧ e.1 < b.1) then e else b) (held.headD (0, 0))
    let share (cid n : Nat) : Nat := staticWeight s cid core * n / total
    let s1 := held.foldl (fun t e => charge e.1 (n * share e.1 e.2) t) s
    charge most.1 (n * (staticWeight s most.1 core - held.foldl (fun m e => m + staticWeight s most.1 core * e.2 / total) 0)) s1

/-- Every boundary that the clock has reached is charged (R331). -/
def chargeBounds (s : State) : State :=
  if s.bound < s.clk / 1024 then
    { ((List.range Config.cores).foldl (fun t c => chargeStatic (s.clk / 1024 - s.bound) c t) s) with bound := s.clk / 1024 }
  else s

/-- STATIC_ENERGY_BOUNDARY: the next boundary that the clock has reached and that is not charged yet. -/
def execStaticEnergyBoundary (s : State) : Out := held s <|
  if s.bound < s.clk / 1024 then
    .next { ((List.range Config.cores).foldl (fun s c => chargeStatic 1 c s) s) with bound := s.bound + 1 }
  else idle s

end Sys2Proof.Machine
end

