-- ==== Sys2Proof/Machine/Replay.lean ====
section
/-! DEFINITION. Re-injection of recorded entries (R345, R350, R353, R357), RTT (R180, R345), and what the launch, buffer and engine
words do again when their block could not be read. -/

set_option linter.unusedVariables false

namespace Sys2Proof.Machine

/-! ### LAUNCH and BUFSET -/

/-- LAUNCH once its packet is read (R181). -/
def launchDo (u : Iss) (p : Long) (bs : List Byte) (s : State) : State := submitLaunch (.word u.x.ctx) u.c.part p bs s

def bufMembers (e : BitVec 256) : List Nat :=
  if Buf.tier e then List.range 8 else (List.range (Buf.chcnt e)).map fun i => Buf.chfirst e + i * Buf.chstep e

/-- The checks of R289 step 3: byte offsets of offending fields. The range checks on CHCNT and CHSTEP of a VALID entry, and those
that hold CHFIRST, CHCNT and CHSTEP of TIER 1 to 0 (R288), are the model's (DESIGN CHOICE, log 29). -/
def bufBad (s : State) (u : Iss) (e : BitVec 256) : Option Nat :=
  let z (lo n : Nat) : Bool := bits e.toNat lo n == 0
  let memberOk (m : Nat) : Bool := decide (m ≤ 767) && !isControlChan m && (partOf s u.c.part).pchan.getLsbD m
  firstFail [(0, z 0 12), (1, decide (Buf.gbase e * 4096 + Buf.span e ≤ 2 ^ 48)), (6, z 48 16), (12, z 102 59),
    (20, if Buf.tier e then Buf.chstep e == 0 else !Buf.valid e || Buf.chstep e != 0),
    (21, if Buf.tier e then Buf.chcnt e == 0 else !Buf.valid e || decide (1 ≤ Buf.chcnt e ∧ Buf.chcnt e ≤ 736)),
    (22, if Buf.tier e then Buf.chfirst e == 0 else (bufMembers e).all memberOk), (24, z 192 20),
    (29, u.c.host || Buf.keyid e == u.c.key), (31, !(Buf.tier e && Buf.at' e))]

/-- The owner of an entry (R292). -/
def bufOwner (e : BitVec 256) : Option (Nat × Nat × BitVec 12) :=
  if Buf.valid e then some (Buf.ownpkg e, Buf.ownctx e, Buf.keyid e) else none

/-- The guest-physical runs of a buffer's members, page by page. -/
def bufPages (e : BitVec 256) : List (Nat × Nat) :=
  (pagePieces (Buf.gbase e * 4096) (Buf.span e)).map fun p => (Buf.gbase e * 4096 + p.1, p.2)

/-- The device ranges of guest-physical runs of a buffer in each of its members, where stage 2 maps them. -/
def runRanges (s : State) (part : Nat) (e : BitVec 256) (l : List (Nat × Nat)) : List (Nat × Nat) :=
  let pages := l.filterMap fun p => (stage2Any s part p.1).opt.map fun a => (a, p.2)
  (bufMembers e).flatMap fun m => pages.map fun p =>
    if Buf.tier e then (2 ^ 43 + m * 2 ^ 40 + p.1 % 2 ^ 40, p.2) else (m * 2 ^ 30 + p.1 % 2 ^ 30, p.2)

/-- The device ranges of a buffer. -/
def bufRanges (s : State) (part : Nat) (e : BitVec 256) : List (Nat × Nat) := runRanges s part e (bufPages e)

/-- The first line of the tables that those ranges need and that is not here. -/
def bufLack (s : State) (part : Nat) (e : BitVec 256) : Option Nat :=
  if s.regions.isEmpty && s.dir.isEmpty then none
  else (pagePieces (Buf.gbase e * 4096) (Buf.span e)).findSome? fun p => match stage2Any s part (Buf.gbase e * 4096 + p.1) with
    | .lacks d => some d
    | _ => none

def inRanges (l : List (Nat × Nat)) (lo n : Nat) : Bool := l.any fun r => decide (r.1 < lo + n ∧ lo < r.1 + r.2)

/-- Zeroing in one step, of bytes that stand in a layer that is off too: no agent can tell a sector zeroed at once from one zeroed before
its first access (R292). What was translated by lines in the ranges goes (R296). -/
def zeroRanges (l : List (Nat × Nat)) (s : State) : State :=
  { s with mem        := l.foldl (fun m r => zeroRange m r.1 r.2) s.mem
           layerStore := s.layerStore.map fun e => (e.1, e.2.filter fun c => !inRanges l c.1 1)
           l1         := s.l1.filter fun c => !inRanges l (c.sector * 128) 128
           tlb        := s.tlb.filter fun e => !e.lines.any fun n => inRanges l (n * 512) 512
           resv       := s.resv.filter fun r => !inRanges l (r.granule * 32) 32 }

/-- Runs that stage 2 does not map. -/
def unmapped (s : State) (part : Nat) (l : List (Nat × Nat)) : List (Nat × Nat) := l.filter fun p => (stage2Any s part p.1).opt.isNone

/-- What a buffer's zeroing still owes is zeroed once stage 2 maps it, before any access can reach it (R292). -/
def zeroOwed (s : State) : State :=
  let pay (s : State) (z : Nat × Zeroing) : State :=
    match z.2.buffer with
    | some key =>
      let part := key / 4096
      let left := unmapped s part z.2.owed
      if left.length = z.2.owed.length then s
      else { (zeroRanges (runRanges s part (bufEntry s part (key % 4096)) (z.2.owed.filter fun p => !left.contains p)) s) with
        zeroing := sset z.1 { z.2 with owed := left } s.zeroing }
    | none => s
  if s.zeroing.all fun z => z.2.owed.isEmpty then s else s.zeroing.foldl pay s

/-- R289 step 4 and R292, after what was admitted under the old entry (R291). -/
def bufsetDo (part n : Nat) (img : List Byte) (s : State) : State :=
  let mine (a : Access) : Bool := a.part == part && match a.target with
    | .ten buf _ _ => buf == n
    | .ctl _ => false
  let s := keep s (performAdmitted mine s.homeq.length s)
  let old := bufEntry s part n
  let new : BitVec 256 := BitVec.ofNat 256 (leNat img)
  let key := part * 4096 + n
  let zero := Buf.valid new && bufOwner new != bufOwner old
  let pend := zero || (Buf.valid new && Buf.zpend old)
  let stored : BitVec 256 := if pend then new ||| (1#256 <<< 249) else new &&& ~~~(1#256 <<< 249)
  let s1 := { s with tabs := { s.tabs with bufs := sput 0 key stored s.tabs.bufs } }
  if zero then
    { (zeroRanges (bufRanges s1 part new) s1) with
      zeroing := sset s.fresh { buffer := some key, pchan := none, owed := unmapped s1 part (bufPages new) } (s.zeroing.filter fun z => z.2.buffer != some key)
      fresh := s.fresh + 1 }
  else if pend then s1
  else { s1 with zeroing := s1.zeroing.filter fun z => z.2.buffer != some key }

/-! ### Words that wait for a block -/

/-- How a word that reads a block ends: done, a trap (page says that an entry is kept), or not yet. -/
inductive BlockEnd where
  | done (s : State)
  | trap (cause : BitVec 16) (tval : Long) (s : State)
  | wait (why : WaitFor) (s : State)

def pageCause (c : BitVec 16) : Bool := c == 0x13 || c == 0x14

/-- The effect of LAUNCH, BUFSET and the engine commands from their captured operands a and b. -/
def blockWord (i : Instr) (u : Iss) (a b : Long) (s : State) : BlockEnd :=
  let engine (kind : CmdKind) (tile : Nat) (e : Eng) : BlockEnd :=
    match cmdIssue u kind tile e a s with
    | (s1, .trap c v) => .trap c v s1
    | (s1, .page c v) => .trap c v s1
    | (s1, .stall) => .wait .none s1
    | (s1, .room en) => .wait (.room en) s1
    | (s1, .go en blk) =>
      let n := if e.tl then (timeline s1 u.x.ctx (cmdTl kind)).taken + 1 else 0
      .done (setD u .b64 e.d (fun _ => n) (cmdCapture u (encode i) kind tile e a en blk s1))
  match i with
  | .launch _ _ =>
    match readBlock u a 64 64 s with
    | (s1, .bytes bs) => .done (launchDo u a bs s1)
    | (s1, .fault c v) => .trap c v s1
    | (s1, .wait) => .wait .none s1
  | .bufset _ _ _ =>
    if a.toNat / 4096 ≠ 0 then .trap 0x20 a s
    else
      match readBlock u b 32 32 s with
      | (s1, .bytes bs) =>
        match bufBad s1 u (BitVec.ofNat 256 (leNat bs)) with
        | some off => .trap 0x20 (BitVec.ofNat 64 off) s1
        | none =>
          match bufLack s1 u.c.part (BitVec.ofNat 256 (leNat bs)) with
          | some d => .wait .none (askLine s1 d false)
          | none => .done (bufsetDo u.c.part a.toNat bs s1)
      | (s1, .fault c v) => .trap c v s1
      | (s1, .wait) => .wait .none s1
  | .copy e => engine .copy 0 e
  | .copyPl t e => engine .copyPl t.toNat e
  | .gather e => engine .gather 0 e
  | .scadd e => engine .scadd 0 e
  | .sort e => engine .sort 0 e
  | .coll e => engine .coll 0 e
  | _ => .done s

/-- The class of a word that reads a block (R182). -/
def blockClass (i : Instr) : EntryClass :=
  match i with
  | .launch _ _ | .bufset _ _ _ => .x
  | _ => .p

/-- The entry of a word whose block took a recoverable page fault (R341). -/
def blockEntry (u : Iss) (i : Instr) (a b : Long) (c : BitVec 16) (id : Nat) : Entry :=
  { pageEntry u (encode i) (sput Slot.zero 0 { a := a, b := b.setWidth 128, c := 0 } []) id with
    state := .faulted, cls := blockClass i, cause := c, unif := true }

/-! ### Re-injection -/

/-- The unit as it was when the entry's word issued. -/
def issOf (s : State) (g r : Nat) (e : Entry) : Option Iss :=
  match group? s g, rank? s g r with
  | some x, some k => (ctx? s x.ctx).map fun c => { g := g, r := r, x := x, k := k, c := c, pc := e.pc, active := e.mask, ex := e.mask }
  | _, _ => none

/-- What became of an entry that was to be injected. -/
inductive Injected where
  | done (s : State)
  /-- its trap, with the progress at which the entry then stands -/
  | trap (cause : BitVec 16) (tval : Long) (prog : Nat) (s : State)
  /-- an STC whose trap follows once the elements below the failing one are performed (R128) -/
  | stop (s : State)
  /-- a line of the tables must come first -/
  | wait (s : State)

def addLive (g r : Nat) (e : Entry) (s : State) : State := modRank g r (fun k => { k with live := k.live ++ [e] }) s

/-- A memory word from its captured operands (R353). STC goes on at its progress point (R128); an operation that had failed is
issued again as a new operation of the launch. -/
def injectMem (u : Iss) (m : MemOp) (e : Entry) (s : State) : Injected :=
  let todo := (elemsOf m e.mask e.slots).filter fun el => m.kind != .stc || decide (e.prog ≤ el.k)
  match placeAll m u.x.ctx u.x.core u.x todo [] s with
  | (s1, ps, some f) =>
    let e1 := { e with cause := f.cause, status := 0, replayed := true, left := 0, got := [], bad := none }
    if f.line.isSome then .wait s1
    else if m.kind != .stc then .trap f.cause f.tval e.prog s1
    else if ps.all fun p => p.2.isLocal then .trap f.cause f.tval f.k (issueElems u m e1 ps (s1, [], 0)).1
    else .stop (issueStop u m e1 0 f ps s1)
  | (s1, ps, none) =>
    let again := if m.isRemote && e.state == .faulted then ps.length else 0
    .done (issuePlaced u m { e with state := .issued, cause := 0, status := 0, replayed := true, left := 0, got := [], bad := none } ps
      (launchUp u.x.launch again s1))

/-- The command of an entry, where this package holds it: a collective's stays through a save. -/
def heldCmd (u : Iss) (e : Entry) (s : State) : Option Nat :=
  if (sget e.id s.cmds).isSome then some e.id
  else
    let slot := sgetD 0 Slot.zero e.slots
    (s.cmds.find? fun c => c.2.ctx == u.x.ctx && c.2.group == u.g && c.2.kind == .coll && c.2.pc == e.pc && c.2.blockPtr == slot.a &&
      c.2.number == slot.b.toNat).map (·.1)

/-- The units in flight that an entry's SLOTS hold (log 18), with their tags. -/
def flightsOf (e : Entry) : List Flight :=
  (e.slots.filter fun x => decide (2 ≤ x.1) && x.2.c.getLsbD 63).map fun x =>
    { u := x.2.a.toNat, adv := x.2.c.toNat % 2 ^ 63, tag := x.2.b.extractLsb' 0 20, n := (x.2.b.extractLsb' 32 48).toNat,
      held := (x.2.b.extractLsb' 80 48).toNat, next := 0, left := [], bad := false, landed := 0, again := true }

/-- A command captured again from its entry. Units that were begun before the save go out again with flow label 0, the others with the
word's own (R353). -/
def recapture (u : Iss) (kind : CmdKind) (tile : Nat) (g : Eng) (e : Entry) (en : EngineId) (s : State) : State :=
  let slot := sgetD 0 Slot.zero e.slots
  let more := sgetD 1 Slot.zero e.slots
  let c : Cmd :=
    { kind := kind, engine := en, ctx := u.x.ctx, part := u.c.part, key := u.c.key, core := u.x.core, group := u.g, rank := u.r,
      word := e.word, pc := e.pc, blockPtr := slot.a, block := e.block.take (blockBytes kind + if kind = .copyPl then 16 else 0),
      number := slot.b.toNat, numbered := g.tl, bar := if g.bar then some (barIdx g.b) else none, evt := g.evt, fl := g.fl, tile := tile,
      handle := if kind = .copyPl then BitVec.ofNat 128 (field e.block 64 16) else 0, launch := u.x.launch,
      launchid := u.x.launchid, stamp := s.fresh, st := .waiting, prog := e.prog, sub := 0, status := e.status,
      counta := more.a.toNat, countb := (more.b.extractLsb' 0 64).toNat, written := (more.b.extractLsb' 64 64).toNat,
      order := slot.c.toNat, flights := flightsOf e,
      mmaBefore := if kind = .copyPl then mmasOn { u.x with seq := { u.x.seq with recs := u.x.seq.recs.take (more.c.toNat % 2 ^ 32) } } tile
        else [],
      fetched := [], asked := [], unacked := 0, recDone := more.c.getLsbD 33, algs := [], shard := [], inbox := [], inNetwork := false, axis := 0,
      agreed := false, tabDone := more.c.getLsbD 32 }
  { s with cmds := sset s.fresh c s.cmds, fresh := s.fresh + 1 }

/-- What a frozen collective had sent and heard nothing of goes out again, each packet with its tag and its sequence, and flow label 0: its
work stays with its engine (R353, R354). -/
def resendColl (k : Nat) (s : State) : State :=
  let mine (u : Unacked) : Bool := u.stale && u.owner == .cmd k
  let olds := s.fab.unacked.filter mine
  let again := olds.filter fun u => u.acked.isNone || u.packet.kind == 0x04
  let failed := olds.findSome? fun u => u.acked.bind fun st => if st = 0 ∨ u.packet.kind = 0x04 then none else some st
  let send (s : State) (u : Unacked) : State :=
    (sendTensor
      { kind := u.packet.kind, dst := u.packet.dst.toNat, ctx := u.ctx, key := u.packet.keyid, part := u.packet.part.toNat, label := 0,
        ord := false, addr := u.packet.addr, tag := u.packet.tag, opinfo := u.packet.opinfo, ty := u.packet.ty, len := u.packet.len,
        data := u.packet.data, owner := u.owner, number := u.number, launch := u.launch, pc := u.pc, off := u.off, access := u.access,
        dseqWas := some u.packet.dseq, whole := u.packet.whole } s).1
  modCmd k (fun c => { c with unacked := (again.filter fun u => u.packet.kind != 0x04).length,
                              status := if c.status = 0 then failed.getD 0 else c.status })
    (again.foldl send { s with fab := { s.fab with unacked := s.fab.unacked.filter fun u => !mine u } })

/-- An engine command goes on at its progress point, in its turn of the engine's four; one that this package does not hold any more is
captured again from its entry, after the entries before it. Its issue checks come first (R345): its barrier, its block, its ranges and
its engine, for which it waits where there is no room. -/
def injectCmd (u : Iss) (kind : CmdKind) (tile : Nat) (g : Eng) (e : Entry) (s : State) : Injected :=
  let h : Handle := if kind = .copyPl then BitVec.ofNat 128 (field e.block 64 16) else 0
  if barUnset s u g then .trap 0x23 (BitVec.ofNat 64 (barIdx g.b)) e.prog s
  else
    match cmdTests u kind tile h (e.block.take (blockBytes kind)) s, heldCmd u e s with
    | .trap c v, _ => .trap c v e.prog s
    | _, some k => .done ((if kind = .coll then resendColl k else id) <| modCmd k (fun c => { (if e.prog = c.progress then c else { c.freeze with prog := e.prog }) with st := .waiting }) s)
    | .go en _, none => .done (recapture u kind tile g e en s)
    | _, none => .wait s

/-- The command that a word issues: its kind, tile and fields. -/
def engineForm : Instr → Option (CmdKind × Nat × Eng)
  | .copy g => some (.copy, 0, g)
  | .copyPl t g => some (.copyPl, t.toNat, g)
  | .gather g => some (.gather, 0, g)
  | .scadd g => some (.scadd, 0, g)
  | .sort g => some (.sort, 0, g)
  | .coll g => some (.coll, 0, g)
  | _ => none

def isBlockWord (i : Instr) : Bool :=
  match i with
  | .launch _ _ | .bufset _ _ _ | .copy _ | .copyPl _ _ | .gather _ | .scadd _ | .sort _ | .coll _ => true
  | _ => false

/-- A word that reads a block is tried when its rank is next chosen: it stands in the live record until then. -/
def waitsBlock (e : Entry) : Bool :=
  e.replayed && e.state == .issued && e.block.isEmpty && (entryInstr e.word).any isBlockWord

def flushKind (i : Instr) : Option Flush :=
  match i with
  | .cflushWb _ _ _ => some .wb
  | .cflushInv _ _ _ => some .inv
  | .cflushWbinv _ _ _ => some .wbinv
  | _ => none

def isZeros (bs : List Byte) : Bool := bs.all fun b => b == 0

/-- The entry that holds the step in its issuer's live record (R369). -/
def CtxStep.ofEntry (st : CtxStep) (y : Entry) : Bool :=
  y.state == .ctxStep && ((sgetD 0 Slot.zero y.slots).a).toNat == st.target && (st.issuer.map fun e => e.2.2.2.2) == some y.pc

/-- The step that a state-4 entry holds, which the engine takes up again at the sub-step that PROG names where it does not hold it (R369). -/
def readmit (u : Iss) (i : Instr) (e : Entry) (s : State) : State :=
  let kind := match i with
    | .ctxFrz _ _ => 0 | .ctxSav _ _ _ => 1 | .ctxLd _ _ _ => 2 | _ => 3
  let slot := sgetD 0 Slot.zero e.slots
  if s.steps.any fun y => y.ofEntry e && (y.issuer.any fun p => p.1 == u.x.ctx) then s
  else { s with fresh := s.fresh + 1
                steps := s.steps ++ [{ id := s.fresh, target := slot.a.toNat % 4096, kind := kind, area := slot.b.setWidth 64,
                                       issuer := some (u.x.ctx, u.g, u.r, e.id, e.pc), prog := e.prog, bearReq := none }] }

/-- One entry is injected: checked against R36 and its own checks with its captured values (R345); the register lines that it will write come first (R209). -/
def injectEntry (g r : Nat) (e : Entry) (s : State) : Injected :=
  match issOf s g r e, entryInstr e.word with
  | some u, some i =>
    match notHeld u.x i with
    | some f => .trap 0x04 (BitVec.ofNat 64 f) e.prog s
    | none =>
      match bringLines u.c g u.x r (owedBy i) s with
      | (s1, false) => .wait s1
      | (s, true) =>
      match memOp i with
      | some m => injectMem u m e s
      | none =>
        if isBlockWord i then
          if e.block.isEmpty || isZeros e.block then
            .done (addLive g r { e with state := .issued, cause := 0, cls := blockClass i, replayed := true, block := [] } s)
          else
            match engineForm i with
            | some (kind, tile, eng) => injectCmd u kind tile eng e s
            | none => .done s
        else
          match flushKind i with
          | some f =>
            let ps := flushPlaces u e.slots s
            match firstLack ps.2, firstPrecise ps.2 with
            | some d, _ => .wait (askLine ps.1 d false)
            | none, some (c, v) => .trap c v e.prog ps.1
            | none, none => .done (flushAll f u e ps.2 ps.1)
          | none =>
            if isComputed e.word then .done (addLive g r { e with state := .issued, cause := 0, cls := .n, replayed := true } s)
            else
            match e.state, e.cls, arrivalOf e.word with
            | .ctxStep, _, _ => .done (readmit u i e (addLive g r e s))
            | _, .s, some a =>
              let s1 := addLive g r { e with state := .issued, cause := 0, replayed := true, id := s.fresh } { s with fresh := s.fresh + 1 }
              .done (if a.waits then modRank g r (fun k => { k with st := .waitBarrier }) s1 else s1)
            | _, _, _ =>
              let st : RankState := match i with
                | .barWait .. | .barSync .. => .waitBarrier
                | _ => .waitTimeline
              .done (modRank g r (fun k => { k with st := st }) (addLive g r { e with state := .parkedWait, replayed := true } s))
  | _, _ => .trap 0x01 0 e.prog s

/-- What the marks of a rank's releases and fences hold back waits for what was injected too (R353). -/
def Rank.remark (stamp : Nat) (k : Rank) : Rank :=
  let up (l : Sparse Nat) : Sparse Nat := l.map fun e => (e.1, stamp)
  { k with relAll := up k.relAll, relReads := up k.relReads, tcMark := up k.tcMark, tcWide := up k.tcWide }

/-- The live record has no room for another entry (R348). -/
def liveFull (s : State) (g r : Nat) : Bool :=
  (rank? s g r).any fun k => decide (Config.recordLimit ≤ (k.live.filter fun e => !e.waits).length)

/-- Entries are injected in order. One that needs a line of the tables first, or room in the live record or in its engine, stands in the
record with those after it until it can go (log 75). Where one fails its trap is taken afresh: that entry and those after it stay in the record
(R345). -/
def injectAll (g r : Nat) : List Entry → State → State
  | [], s => performTiles (modRank g r (Rank.remark s.fresh) s)
  | e :: rest, s =>
    match (if liveFull s g r then .wait s else injectEntry g r e s) with
    | .done s1 => injectAll g r rest s1
    | .stop s1 => modRank g r (fun k => { k with
        st := .waitOperand, waitFor := .stopped
        live := k.live ++ rest.map fun (y : Entry) => { y with waits := true, replayed := true } }) s1
    | .wait s1 => modRank g r (fun k => { k with live := k.live ++ (e :: rest).map fun (y : Entry) => { y with waits := true, replayed := true } }) s1
    | .trap c v n s1 =>
      let bad := { e with state := if e.state = .ctxStep then e.state else .faulted, cause := c, prog := n, replayed := true }
      let keep := fun (y : Entry) => { y with replayed := true }
      takeTrap g r false c e.pc v (if bad.state = .faulted then some bad else none)
        (modRank g r (fun k => { k with frameWord := e.word, live := k.live ++ bad :: rest.map keep,
                                        threads := k.threads }) s1)

/-- Entries that waited for lines of the tables are injected again. -/
def retryInject (s : State) : State :=
  let mine (e : Nat × Group) : List (Nat × Nat) :=
    if e.2.frozen then [] else (e.2.ranks.filter fun k => k.live.any (·.waits) && !(k.live.any fun y => y.stop.isSome)).map fun k => (e.1, k.idx)
  (s.groups.flatMap mine).foldl (fun s p =>
    let es := ((rank? s p.1 p.2).map fun k => k.live.filter (·.waits)).getD []
    injectAll p.1 p.2 (es.map fun (y : Entry) => { y with waits := false })
      (modRank p.1 p.2 (fun k => { k with live := k.live.filter fun (y : Entry) => !y.waits }) s)) s

/-- A word that was waiting for its block is tried again before its rank's next ply. -/
def retryBlock (g r : Nat) (e : Entry) (s : State) : State :=
  match issOf s g r e, entryInstr e.word with
  | some u, some i =>
    let slot := sgetD 0 Slot.zero e.slots
    let gone (s : State) : State := modRank g r (fun k => { k with live := k.live.filter fun (y : Entry) => y.id ≠ e.id }) s
    match blockWord i u slot.a (slot.b.setWidth 64) s with
    | .done s1 => gone s1
    | .wait _ s1 => tick 1 s1
    | .trap c v s1 =>
      let kept : Option Entry := if pageCause c then some { e with state := .faulted, cause := c } else none
      takeTrap g r false c e.pc v kept (gone s1)
  | _, _ => s

/-! ### Dropped entries (R350) -/

/-- What a dropped entry leaves: its packets still count until they are acknowledged, those already acknowledged count no more, an
operation that never left ends, its tags are free, and a command that was captured ends where it stands (log 30). -/
def dropEntry (g r : Nat) (x : Group) (e : Entry) (s : State) : State :=
  match (entryInstr e.word).bind memOp with
  | some m =>
    let tag (k : Nat) : BitVec 32 := tagOf x.ctx e.tagBase k
    let ks := List.range (e.tagsIn m)
    let mine (u : Unacked) : Bool := u.stale && u.ctx == x.ctx && ks.any fun k => u.packet.tag == tag k
    let settled := s.fab.unacked.filter fun u => mine u && u.acked.isSome
    let s1 := { s with fab := { s.fab with
      unacked := (s.fab.unacked.filter fun u => !(mine u && u.acked.isSome)).map fun u => if mine u then { u with stale := false } else u } }
    let s2 := settled.foldl (fun s u => xsDone x.ctx u.packet.tag (u.acked.getD 0)
      (countDown g r u.packet.dst.toNat u.packet.path.toNat s)) s1
    let never := if m.isRemote && e.state != .faulted then
        (ks.filter fun k => !(s.fab.unacked.any fun u => u.ctx == x.ctx && u.packet.tag == tag k) &&
          !(s.fab.xsops.any fun o => o.ctx == x.ctx && o.tag == tag k)).length else 0
    releaseTags x.ctx m e ((List.range never).foldl (fun s _ => launchDown x.launch 0 s) s2)
  | none =>
    match sget e.id s.cmds with
    | some c =>
      let s1 := { s with cmds := sdel e.id s.cmds }
      launchDown c.launch c.status (if c.kind = .copyPl then releaseTile c.group c.tile s1 else s1)
    | none =>
      match (entryInstr e.word).bind engineForm with
      | some (kind, tile, _) =>
        if e.block.isEmpty || isZeros e.block then s
        else launchDown x.launch e.status (if kind = .copyPl then releaseTile g tile s else s)
      | none => s

/-- The tags of threads whose MASK bits were cleared are free (R146, R350, R352). -/
def releaseCleared (x : Group) (e : Entry) (s : State) : State :=
  match (entryInstr e.word).bind memOp with
  | some m =>
    if m.isLoad || m.uniform || e.mask0 = 0 then s
    else (threadsOf (e.mask0 &&& ~~~e.mask)).foldl (fun s t => releaseTag (tagOf x.ctx e.tagBase (maskIndex e.mask0 t)) s) s
  | none => s

/-! ### RTT -/

/-- The entry of a paused command, brought up to what has been acknowledged since it paused (R153, R254). -/
def Entry.upToDate (s : State) (e : Entry) : Entry :=
  match sget e.id s.cmds with
  | some c => { cmdEntry e.id c e.state e.cause s with drop := e.drop, mask := e.mask, replayed := e.replayed, waits := e.waits }
  | none => e

/-- An entry of the frame as its handler has left it (R350): a command goes on from its progress point of now where PROG has not been
lowered. -/
def editedEntry (s : State) (e : Entry) (bs : List Byte) : Entry :=
  let n := e.edited bs
  if e.lowered (Entry.ofBytes e.id bs) || (sget e.id s.cmds).isNone then n else { e.upToDate s with drop := n.drop, mask := n.mask }

/-- The frame record as the handler has left it in the image (R350); as the trap made it where the image does not hold it. -/
def editedFrame (s : State) (x : Group) (c : Ctx) (k : Rank) : List Entry :=
  (List.range k.frame.length).map fun i =>
    let e := k.frame.getD i default
    match (if k.frameInMem then gpaRead s c.part (c.savebase.toNat + rankArea x k.idx + 0x1B500 + 1280 * i) 1280 else none) with
    | some bs => editedEntry s e bs
    | none => e.upToDate s

def editedCopy (s : State) (x : Group) (c : Ctx) (k : Rank) : FrameCopy :=
  let f := k.frameCopy.getD default
  match (if k.frameInMem then gpaRead s c.part (c.savebase.toNat + rankArea x k.idx + 0xD00) 2048 else none) with
  | some bs => f.edited k.threads bs
  | none => f

/-- The lines of the frame in the image that RTT needs and that are not here (log 75). -/
def frameLacks (s : State) (x : Group) (c : Ctx) (k : Rank) : List (Nat × Bool) :=
  let base := c.savebase.toNat + rankArea x k.idx
  runLacks s c.part (base + 0xD00) 2048 false ++ runLacks s c.part (base + 0x1B500) (1280 * k.frame.length) false

/-- The threads that the trap left at its word, or after it in the faulting entry (R345). -/
def atTrap (k : Rank) (frame : List Entry) (pc : Long) (t : Nat) (x : Thread) : Bool :=
  x.pc == pc || (!k.tcause.getLsbD 31 && frame.any fun e => e.state == .faulted && e.pc == pc && e.mask.getLsbD t && x.pc == ptrAdd pc 12)

/-- Where the threads resume (R345 step 3). -/
def resumeThreads (k : Rank) (frame : List Entry) (f : FrameCopy) : List Thread :=
  (List.range 32).map fun t =>
    let x := f.threads.getD t Thread.zero
    if x.exited then x
    else
      match k.tpcWas with
      | some p => if atTrap k frame p t x then { x with pc := k.tpc } else x
      | none => if k.tcause.getLsbD 30 && x.pc == k.tpc then { x with pc := ptrAdd x.pc 12 } else x

/-- RTT's restoring of the rank (R345 steps 1 to 3). -/
def restoreRank (f : FrameCopy) (frame : List Entry) (k : Rank) : Rank :=
  let wKeep := k.w.filter fun e => decide (8 ≤ e.1)
  let w := (List.range 8).foldl (fun m i => sput 0 i (f.w.getD i 0) m) wKeep
  { k with
    threads := resumeThreads k frame f
    p := (List.range 15).foldl (fun m i => sput 0 (i + 1) (f.p.getD (i + 1) 0) m) []
    w := w
    j := (List.range 16).foldl (fun m i => sput 0 i (f.j.getD i 0) m) []
    handler := false
    frameActive := false
    frameCopy := none
    frame := []
    tpcWas := none }

/-- The rank's handler has stores on their way that RTT must see. -/
def storesOpen (s : State) (g r : Nat) : Bool := s.homeq.any fun a => a.who.group == g && a.who.rank == r && a.isWrite && !a.remote

/-- RTT (R180, R345). -/
def returnTrap (g r : Nat) (s : State) : State :=
  match group? s g, rank? s g r with
  | some x, some k =>
    match ctx? s x.ctx with
    | none => s
    | some c =>
      let frame := editedFrame s x c k
      let f := editedCopy s x c k
      let s1 := modRank g r (fun k => releaseParked (restoreRank f frame k)) s
      let s2 := if k.yielding then
          modGroup g (fun x => { x with quiesced := false }) (modRank g r (fun k => { k with yielding := false }) s1)
        else s1
      let s3 := frame.foldl (fun s e => if e.drop then dropEntry g r x e s else releaseCleared x e s) s2
      injectAll g r (frame.filter fun e => !e.drop) s3
  | _, _ => s

/-- The lowest thread that RTT would let go on at an address that is no multiple of 4, and that address (R38). -/
def badReturn (s : State) (x : Group) (c : Ctx) (k : Rank) : Option Long :=
  let frame := editedFrame s x c k
  ((resumeThreads k frame (editedCopy s x c k)).find? fun t => !t.exited && misaligned t.pc).map (·.pc)

/-- The rank goes on after RTT: it retires or deadlocks as R99 and R100 have it. -/
def afterReturn (g r : Nat) (s : State) : State :=
  match rank? s g r with
  | none => s
  | some k => if k.frameActive then s
    else if k.allExited then settleRank g r (modRank g r (fun k => { k with st := .retired }) s)
    else if k.st = .ready then settleRank g r s else s

def execRtt (c : Ctl) (s : State) : Out :=
  asRank (.rtt c) c (fun u s =>
    let w := encode (.rtt c)
    if u.ex = 0 then finish c w u s
    else if !u.k.frameActive then trapAt u w 0x01 0 s
    else if storesOpen s u.g u.r then stallPly u.g u.r s
    else if !(frameLacks s u.x u.c u.k).isEmpty then stallPly u.g u.r (askAll (frameLacks s u.x u.c u.k) s)
    else
      match badReturn s u.x u.c u.k with
      | some p => trapAt u w 0x05 p s
      | none =>
      let s1 := passCycles u.g u.r 16 (charged u w s)
      wake (afterReturn u.g u.r (returnTrap u.g u.r (endPly u.g u.r .ready s1)))) s

/-! ### The choice of a lane -/

/-- The word a rank must try again before its next ply. -/
def retryOf (s : State) (g r : Nat) : Option Entry := (rank? s g r).bind fun k => k.live.find? waitsBlock

/-- LANE_CHOICE (R214): the chosen rank's next ply starts; a rank with a word to try again tries it first. -/
def execLaneChoice (core lane : Nat) (s : State) : Out := heldPlat s <|
  match chooseRank s core lane with
  | none => idle s
  | some (g, x, k) =>
    match retryOf s g k.idx with
    | some e => .next (retryBlock g k.idx e s)
    | none => .next { (modRank g k.idx startPly s) with cur := some (.rank g k.idx) }

end Sys2Proof.Machine
end

