-- ==== Sys2Proof/Machine/System.lean ====
section
/-! DEFINITION. System instructions (R178 to R181): system registers, YIELD, LAUNCH, EVQ.post, CTX, XINV, BUFSET, EREAD, HALT. -/

set_option linter.unusedVariables false

namespace Sys2Proof.Machine

/-- A word of this family: nothing happens when the guard holds for no active thread. -/
def sysWord (i : Instr) (c : Ctl) (effect : IWord → Iss → State → State) (s : State) : Out :=
  asRank i c (fun u s => if u.ex = 0 then finish c (encode i) u s else effect (encode i) u s) s

/-! ### System registers (R179) -/

/-- Who may access a register. -/
inductive SysLevel where
  | any | handler | host | never
  deriving DecidableEq, Repr, Inhabited

/-- A register's read and write levels and whether it is indexed; none for an unlisted number. -/
def sysAccess (num : Nat) : Option (SysLevel × SysLevel × Bool) :=
  match num with
  | 0x000 | 0x001 | 0x002 => some (.any, .never, false)
  | 0x010 | 0x011 | 0x012 => some (.handler, .handler, false)
  | 0x013 => some (.handler, .never, false)
  | 0x020 => some (.handler, .host, false)
  | 0x030 => some (.any, .never, false)
  | 0x031 | 0x040 => some (.handler, .host, false)
  | 0x041 => some (.handler, .never, false)
  | 0x050 => some (.any, .never, false)
  | 0x060 => some (.any, .any, true)
  | 0x0F0 | 0x0F1 | 0x0F2 | 0x0F3 => some (.any, .never, false)
  | _ => none

def Iss.reaches (u : Iss) (l : SysLevel) : Bool :=
  match l with
  | .any => true
  | .handler => u.atHandler
  | .host => u.c.host
  | .never => false

/-- SCOPETAB (R269). -/
def scopetab (s : State) : Long :=
  (if s.tabs.scopeValid then 1#64 else 0) ||| (s.tabs.self.setWidth 64 <<< 1) ||| (s.tabs.domh.setWidth 64 <<< 21) |||
    (s.tabs.scopeGen.setWidth 64 <<< 24) ||| (s.tabs.ndom.setWidth 64 <<< 44)

/-- ENERGY in the layout of EREAD (R181, R332). -/
def energyWord (c : Ctx) : Nat := c.energy % 2 ^ 48 + if c.sat then 2 ^ 63 else 0

/-- A register's 64-bit value (R9, R165, R179, R342, R358, R362). -/
def sysRead (s : State) (u : Iss) (num idx : Nat) : Nat :=
  match num with
  | 0x000 => u.x.ctx
  | 0x001 => u.c.part
  | 0x002 => u.c.key.toNat
  | 0x010 => u.k.tcause.toNat
  | 0x011 => u.k.tpc.toNat
  | 0x012 => u.k.tval.toNat
  | 0x013 => u.k.ifrec.toNat
  | 0x020 => u.c.evqbase.toNat
  | 0x030 => energyWord u.c
  | 0x031 => u.c.enwt.toNat
  | 0x040 => u.c.budget.toNat
  | 0x041 => u.c.deadline
  | 0x050 => (scopetab s).toNat
  | 0x060 => (sgetD idx 0 u.x.peers).toNat
  | _ => 0

def execSrd (c : Ctl) (d : Opnd) (num : BitVec 12) (idx : BitVec 3) (s : State) : Out :=
  sysWord (.srd c d num idx) c (fun w u s =>
    match sysAccess num.toNat with
    | none => trapAt u w 0x01 0 s
    | some (r, _, indexed) =>
      if !indexed && idx != 0 then trapAt u w 0x01 0 s
      else if !u.reaches r then trapAt u w 0x03 0 s
      else finish c w u (setD u .b64 d (fun _ => sysRead s u num.toNat idx.toNat) s)) s

/-- The cores that run a context read its weight table again (R397). -/
def reloadWeights (cid : Nat) (s : State) : State :=
  (((s.groups.filter fun e => e.2.ctx == cid).map fun e => e.2.core).eraseDups).foldl (fun s c => loadWeights cid c s) s

/-- A write to a system register; reserved bits read zero (R165, R342, R358). -/
def sysWrite (u : Iss) (num idx : Nat) (v : Long) (s : State) : State :=
  match num with
  | 0x010 => modRank u.g u.r (fun k => { k with tcause := v &&& 0xC000FFFF }) s
  | 0x011 =>
    let mark (k : Rank) : Rank := { k with tcause := k.tcause &&& ~~~0x40000000, tpcWas := some (k.tpcWas.getD k.tpc) }
    modRank u.g u.r (fun k => { mark k with tpc := v }) s
  | 0x012 => modRank u.g u.r (fun k => { k with tval := v }) s
  | 0x020 => modCtx u.x.ctx (fun c => { c with evqbase := v }) s
  | 0x031 => reloadWeights u.x.ctx (modCtx u.x.ctx (fun c => { c with enwt := v }) s)
  | 0x040 => modCtx u.x.ctx (fun c => { c with budget := v.setWidth 32 }) s
  | 0x060 => modGroup u.g (fun x => { x with peers := sput 0 idx (v &&& 0xFFFFFFFC00000001) x.peers }) s
  | _ => s

def execSwr (c : Ctl) (a : Opnd) (num : BitVec 12) (idx : BitVec 3) (s : State) : Out :=
  sysWord (.swr c a num idx) c (fun w u s =>
    match sysAccess num.toNat with
    | none => trapAt u w 0x01 0 s
    | some (_, wr, indexed) =>
      if (!indexed && idx != 0) || wr == .never then trapAt u w 0x01 0 s
      else if !u.reaches wr then trapAt u w 0x03 0 s
      else finish c w u (sysWrite u num.toNat idx.toNat (BitVec.ofNat 64 (readOpnd s.clk u .b64 0 a 0)) s)) s

def execEread (c : Ctl) (d : Opnd) (s : State) : Out :=
  sysWord (.eread c d) c (fun w u s => finish c w u (setD u .b64 d (fun _ => energyWord u.c) s)) s

/-! ### YIELD and HALT -/

/-- The context's freeze takes effect when its last group has yielded (R359 step 5). -/
def settleYield (cid : Nat) (s : State) : State :=
  if ((ctx? s cid).map fun c => c.yieldPending && c.mode == .running).getD false &&
      !(s.groups.any fun e => e.2.ctx == cid && !e.2.frozen && !e.2.retiredGroup) then freezeCtx cid s
  else s

/-- The end of a pass after which nothing of the rank goes on. -/
def stopPass (c : Ctl) (w : IWord) (u : Iss) (s : State) : State :=
  endPly u.g u.r .ready (passCycles u.g u.r 16 (advancePcs u (charged u w s)))

/-- HALT (R181, R371). -/
def execHalt (c : Ctl) (s : State) : Out :=
  sysWord (.halt c) c (fun w u s =>
    haltCtx u.x.ctx (postCtx u.x.ctx { source := 0, status := 0x000D, cmdaddr := u.pc, launch := u.x.launchid } (stopPass c w u s))) s

/-! ### LAUNCH, BUFSET, EVQ.post, XINV -/

/-- LAUNCH and BUFSET: their block is read, the rank waiting for it. -/
def blockRead (i : Instr) (c : Ctl) (a b : Iss → State → Long) (s : State) : Out :=
  sysWord i c (fun w u s =>
    match blockWord i u (a u s) (b u s) s with
    | .done s1 => finish c w u s1
    | .wait _ s1 => stallPly u.g u.r s1
    | .trap cause v s1 =>
      if pageCause cause then
        takeTrap u.g u.r false cause u.pc v (some (blockEntry u i (a u s) (b u s) cause s1.fresh))
          (modRank u.g u.r (fun k => { k with frameWord := w }) (charged u w { s1 with fresh := s1.fresh + 1 }))
      else trapAt u w cause v s1) s

def wreg (o : Opnd) (u : Iss) (s : State) : Long := BitVec.ofNat 64 (readOpnd s.clk u .b64 0 o 0)

def execLaunch (c : Ctl) (a : Opnd) (s : State) : Out := blockRead (.launch c a) c (wreg a) (fun _ _ => 0) s

/-- BUFSET also writes the partition's buffer table. -/
def execBufset (c : Ctl) (a b : Opnd) (s : State) : Out :=
  match issuing s c with
  | none => .fault .noIssuer
  | some u =>
    match blockRead (.bufset c a b) c (wreg a) (wreg b) s with
    | .next s1 =>
      match hurdle s u (.bufset c a b), u.ex == 0, blockWord (.bufset c a b) u (wreg a u s) (wreg b u s) s with
      | none, false, .done s2 => .next { s1 with tabs := s2.tabs }
      | _, _, _ => .next s1
    | o => o

/-- The tag of a posting goes to the mirror of its queue's region, and the home keeps it until the mirror holds it (R328). -/
def guardPost (u : Iss) (tag : BitVec 32) (s : State) : State :=
  match (evqAddr s u.x.ctx 0).opt.bind fun h => (mirrorOf s h).map fun m => (h, m) with
  | none => s
  | some (h, m) =>
    let w : MirrorWait := { tag := s.fresh, owner := .entry u.g u.r 0 0, off := 0, access := s.fresh, result := [], mirror := m,
                            guards := some (s.selfPkg, tag, queueTarget u.x.ctx), granule := granuleOf h }
    let s1 := keepTag s.selfPkg tag (queueTarget u.x.ctx) [] (mirrorSend s.tabs.self h [] (some (tag, [])) s (some u.x.ctx))
    { s1 with mirrorq := s1.mirrorq ++ [w] }

/-- EVQ.post (R181). -/
def execEvqPost (c : Ctl) (a b : Opnd) (s : State) : Out :=
  sysWord (.evqPost c a b) c (fun w u s =>
    let v := wreg a u s
    if v.toNat < 0x8000 ∨ 2 ^ 16 ≤ v.toNat then trapAt u w 0x20 v s
    else
      let tg := takeTags u.x.ctx 1 s
      finish c w u (guardPost u (tagOf u.x.ctx tg.2 0) (postCtx u.x.ctx
        { source := 0, status := v.setWidth 16, cmdaddr := u.pc, counta := (wreg b u s).toNat, launch := u.x.launchid } tg.1))) s

/-- Device pages that the B bytes from A lie in, for a control pointer. -/
def xinvPages (s : State) (cid : Nat) (a : Long) (n : Nat) : List (Nat × Nat) :=
  (pagePieces (ptrOff a) (min n (2 ^ 48 - ptrOff a))).filterMap fun p =>
    (translateNow s cid (ptrOff a + p.1) .ex).opt.map fun d => (d, p.2)

/-- The first line of the tables that those pages need and that is not here. -/
def xinvLack (s : State) (cid : Nat) (a : Long) (n : Nat) : Option Nat :=
  (pagePieces (ptrOff a) (min n (2 ^ 48 - ptrOff a))).findSome? fun p => match translateNow s cid (ptrOff a + p.1) .ex with
    | .lacks d => some d
    | _ => none

/-- The copies that XINV takes: of the context's own pointers in the range, of the partition's for a tensor buffer, and of any
context's words at the same device addresses. -/
def xinvTakes (s : State) (u : Iss) (a : Long) (n : Nat) (c : ICopy) : Bool :=
  let lo := a.toNat
  let here := decide (c.granule * 32 < lo + n ∧ lo < c.granule * 32 + 32)
  let same := c.ctx == u.x.ctx || (ptrSpace a == .tensor && ctxPart s c.ctx == u.c.part)
  (same && here) || (ptrSpace a == .control && inRanges (xinvPages s u.x.ctx a n) c.dpa 32)

/-- XINV (R39, R181). -/
def execXinv (c : Ctl) (a b : Opnd) (s : State) : Out :=
  sysWord (.xinv c a b) c (fun w u s =>
    let p := wreg a u s
    let n := (wreg b u s).toNat
    if n = 0 then finish c w u s
    else if !ptrOk p || ptrSpace p == .loc then trapAt u w 0x10 p s
    else
      match if ptrSpace p == .control then xinvLack s u.x.ctx p n else none with
      | some d => stallPly u.g u.r (askLine s d false)
      | none => finish c w u { s with icopies := s.icopies.filter fun y => !xinvTakes s u p n y }) s

/-! ### CTX (R181, R367, R369) -/

/-- The context engine accepts a step: the target's descriptor and the issuer's record hold it. -/
def acceptStep (target kind : Nat) (area : Long) (issuer : Option (Nat × Nat × Nat × Nat × Long)) (s : State) : State :=
  let st : CtxStep := { id := s.fresh, target := target, kind := kind, area := area, issuer := issuer, prog := 0, bearReq := none }
  noteState target <| modCtx target (fun c => { c with step := BitVec.ofNat 24 (kind + 1) }) { s with steps := s.steps ++ [st], fresh := s.fresh + 1 }

def ctxWord (i : Instr) (c : Ctl) (kind : Nat) (a : Opnd) (b : Option Opnd) (s : State) : Out :=
  sysWord i c (fun w u s =>
    let v := wreg a u s
    let area := match b with
      | some o => wreg o u s
      | none => 0
    let target := v.toNat % 4096
    if 4096 ≤ v.toNat then trapAt u w 0x20 v s
    else if area.toNat % 4096 ≠ 0 then trapAt u w 0x11 area s
    else if !u.c.host && !ctxIn s target u.c.part then trapAt u w 0x03 0 s
    else
      let slots := sput Slot.zero 0 { a := v, b := area.setWidth 128, c := 0 } []
      let e : Entry := { pageEntry u w slots s.fresh with state := .ctxStep, cls := .p, unif := true }
      finish c w u (modRank u.g u.r (fun k => { k with live := k.live ++ [e] })
        (acceptStep target kind area (some (u.x.ctx, u.g, u.r, s.fresh, u.pc)) s))) s

def execCtxFrz (c : Ctl) (a : Opnd) (s : State) : Out := ctxWord (.ctxFrz c a) c 0 a none s
def execCtxSav (c : Ctl) (a b : Opnd) (s : State) : Out := ctxWord (.ctxSav c a b) c 1 a (some b) s
def execCtxLd (c : Ctl) (a b : Opnd) (s : State) : Out := ctxWord (.ctxLd c a b) c 2 a (some b) s
def execCtxRes (c : Ctl) (a : Opnd) (s : State) : Out := ctxWord (.ctxRes c a) c 3 a none s

end Sys2Proof.Machine
end

