-- ==== Sys2Proof/Machine/ContextImage.lean ====
section
/-! DEFINITION. The context image (R360 to R366): what a save writes, piece by piece, and how a load reads it. Fields that the spec
names without an offset stand where the model puts them (log 17). -/

set_option linter.unusedVariables false

namespace Sys2Proof.Machine

/-- A part of an image: its offset and its bytes. -/
abbrev Piece := Nat × List Byte

def shift (n : Nat) (l : List Piece) : List Piece := l.map fun p => (p.1 + n, p.2)

def flag (b : Bool) (n : Nat) : Nat := if b then 2 ^ n else 0

/-! ### Ranks (R366) -/

def linesOf (n : Nat) (bs : List Byte) : Sparse Word :=
  (List.range n).foldl (fun m i => lineOf i ((bs.drop (128 * i)).take 128) m) []

/-- The v lines that the rank has written since it was placed. -/
def Rank.linesUsed (k : Rank) : List Nat :=
  (List.range 256).filter fun n => k.dirty.contains n || k.away.contains n || k.v.any fun e => e.1 / 32 == n

def RankState.code : RankState → Nat
  | .ready => 0 | .issuing => 1 | .waitOperand => 2 | .parkedAtWait => 3 | .waitBarrier => 4 | .waitTimeline => 5 | .retired => 8

def RankState.ofCode : Nat → RankState
  | 3 => .parkedAtWait | 4 => .waitBarrier | 5 => .waitTimeline | 8 => .retired | _ => .ready

/-- The return entries that an image holds in the hardware area, oldest first, and those in the spill area. DESIGN CHOICE (log 93): the
newest 16 are the hardware's, however the pops before left them, since the image holds the depth alone (R95, R354). -/
def Thread.inHardware (x : Thread) : List Long := (x.stack.take 16).reverse
def Thread.spilled (x : Thread) : List Long := (x.stack.drop 16).reverse

def longs (l : List Long) : List Byte := l.flatMap fun x => leBytes x.toNat 8

def rankHeader (k : Rank) : List Byte :=
  leBytes k.st.code 1 ++ leBytes k.lane 1 ++ leBytes k.slot 1 ++ leBytes k.idx 1 ++ leBytes (flag k.copyRole 0) 1 ++
  leBytes (flag k.handler 0 + flag k.frameActive 1 + flag k.yielding 2) 1 ++ leBytes k.budget 2 ++ leBytes k.starve 8 ++
  longs [k.ifrec, 0] ++ leBytes (k.linesUsed.foldl (fun a n => a + 2 ^ n) 0) 32

/-- The fixed part of a rank image: offsets 0 to 0x24FF. -/
def rankFixed (k : Rank) : List Byte :=
  rankHeader k ++ frameHeader k ++ longs ((List.range 64).map fun i => sgetD i 0 k.w) ++
  ((List.range 16).flatMap fun i => leBytes (sgetD i 0 k.j).toNat 4) ++ predBytes (fun i => k.pred i) ++
  padTo 1024 ((List.range 32).flatMap fun t => (k.thread t).bytes) ++ ((List.range 8).flatMap fun n => lineBytes k.o n) ++
  ((List.range 4).flatMap fun n => lineBytes k.y n) ++ padTo 2048 ((k.frameCopy.map FrameCopy.bytes).getD []) ++
  ((List.range 32).flatMap fun t => padTo 128 (longs (k.thread t).inHardware))

/-- A rank as a save writes it: of its lines those that are dirty and resident (R209, R360). -/
def rankPieces (cid : Nat) (k : Rank) : List Piece :=
  [(0, rankFixed k)] ++
  ((List.range 32).map fun t => (0x2500 + 1920 * t, longs (k.thread t).spilled)) ++
  [(0x11500, k.liveOut.flatMap (Entry.bytes cid)), (0x1B500, k.frameOut.flatMap (Entry.bytes cid))] ++
  (k.dirty.map fun n => (0x25500 + 128 * n, lineBytes k.v n))

/-- A thread of a rank image. -/
def threadOf (fixed spill : List Byte) (t : Nat) : Thread :=
  let bs := (fixed.drop (0x300 + 32 * t)).take 32
  let depth := min (field bs 8 2) 256
  let hw := (List.range (min depth 16)).map fun e => BitVec.ofNat 64 (field fixed (0x1500 + (t * 16 + e) * 8) 8)
  let sp := (List.range (depth - 16)).map fun e => BitVec.ofNat 64 (field spill ((t * 240 + e) * 8) 8)
  { Thread.ofBytes [] [] bs with stack := hw.reverse ++ sp.reverse, hw := min depth 16 }

/-- Entries of a record in an image. -/
def entriesOf (id n : Nat) (bs : List Byte) : List Entry :=
  (List.range n).map fun i => Entry.ofBytes (id + i) ((bs.drop (1280 * i)).take 1280)

/-- A reader of an image: bytes from an offset, none where they cannot be read. -/
abbrev Reader := Nat → Nat → Option (List Byte)

def readerAt (s : State) (part base : Nat) : Reader := fun off n => gpaRead s part (base + off) n

/-- A rank from its image, on a lane and slot; its lines are filled on demand. -/
def rankOf (rd : Reader) (id : Nat) (clk : Nat) : Option Rank :=
  match rd 0 0x2500, rd 0x2500 61440 with
  | some f, some sp =>
    let hdr := f.drop 0x40
    match rd 0x11500 (1280 * min 32 (field hdr 28 4)), rd 0x1B500 (1280 * min 32 (field hdr 24 4)) with
    | some live, some frame =>
      let entries := entriesOf id (live.length / 1280) live
      let others := entriesOf (id + 32) (frame.length / 1280) frame
      let used := (List.range 256).filter fun n => bit (field f 32 32) n
      let active := bit (field f 5 1) 1
      let ths := (List.range 32).map fun t => threadOf f sp t
      some
        { idx := field f 3 1, lane := field f 1 1, slot := field f 2 1, budget := field f 6 2, copyRole := bit (field f 4 1) 0,
          st := RankState.ofCode (field f 0 1), starve := field f 8 8, readyAt := clk,
          v := [],
          o := linesOf 8 (f.drop 0x700), y := linesOf 4 (f.drop 0xB00),
          w := (List.range 64).foldl (fun m i => sput 0 i (BitVec.ofNat 64 (field f (0x80 + 8 * i) 8)) m) [],
          p := (List.range 15).foldl (fun m i => sput 0 (i + 1) (predOf (f.drop 0x2C0) (i + 1)) m) [],
          j := (List.range 16).foldl (fun m i => sput 0 i (BitVec.ofNat 32 (field f (0x280 + 4 * i) 4)) m) [],
          threads := ths,
          active := 0, plyLen := 0, plyLr := false, plyClean := false, waitFor := .none,
          tcause := BitVec.ofNat 64 (field hdr 0 8), tpc := BitVec.ofNat 64 (field hdr 8 8), tval := BitVec.ofNat 64 (field hdr 16 8),
          handler := bit (field f 5 1) 0, frameActive := active, frameInMem := active,
          frameCopy := if active then some ((default : FrameCopy).edited ths
            ((f.drop 0xD00).take 2048)) else none,
          yielding := bit (field f 5 1) 2,
          live := if active then entries else entries ++ others, frame := if active then others else [],
          counters := [], imprecise := [], away := used, dirty := [], acqAt := (List.range 32).map fun t => (t, id), relAll := [],
          relReads := (List.range 32).map fun t => (t, 1), tcMark := [], tcWide := [], ifrec := BitVec.ofNat 64 (field f 16 8),
          tpcWas := if bit (field hdr 44 9) 0 then some (BitVec.ofNat 64 (field hdr 44 9 / 2)) else none,
          frameWord := wordOfBytes ((hdr.drop 32).take 12), fillLine := none }
    | _, _ => none
  | _, _ => none

/-- Bytes of a rank that a save writes (R360). -/
def rankSaveBytes (k : Rank) (lines : Nat) : Nat :=
  9472 + (((List.range 32).map fun t => 8 * (k.thread t).spilled.length).foldl (· + ·) 0) + 1280 * (k.live.length + k.frame.length) +
    128 * lines

/-! ### Sequencers (R228) -/

def SeqState.code : SeqState → Nat
  | .idle => 0 | .running => 1 | .parked => 2 | .stopped => 3
def SeqState.ofCode : Nat → SeqState
  | 1 => .running | 2 => .parked | 3 => .stopped | _ => .idle

def seqBytes (q : Seq) : List Byte :=
  padTo 64 (leBytes q.mpc.toNat 8 ++ leBytes q.st.code 4 ++ ((List.range 4).flatMap fun i => leBytes (q.c.getD i 0).toNat 4) ++
    leBytes q.waitBar 4 ++ leBytes q.waitPhase.toNat 4)

/-- The handles of an MMA; of a MEPI, which has none, the rows from PROG on that are performed already (log 17). -/
def seqRecHead (r : SeqRec) : Nat :=
  if r.word.extractLsb' 88 8 = 0xD0 then r.handleA.toNat + 2 ^ 128 * r.handleB.toNat else r.skip.foldl (fun a n => a + 2 ^ n) 0

/-- A record in the entry format (R349): BLOCK holds the captured handles, descriptor, peer slot and slab map, SLOTS the bias row. -/
def seqRecBytes (cid : Nat) (r : SeqRec) : List Byte :=
  wordBytes r.word ++ [0, 2, 0, 0] ++ leBytes r.pc.toNat 8 ++ zeros 4 ++ leBytes (if r.rows = 0 then 0 else cid * 2 ^ 20 + r.tagBase.toNat) 4 ++
  leBytes r.prog 8 ++ leBytes r.status.toNat 2 ++ zeros 22 ++
  padTo 128 (leBytes (seqRecHead r) 32 ++ padTo 32 r.desc ++ leBytes r.peer.toNat 8 ++
    leBytes r.tileA 1 ++ leBytes r.tileB 1 ++ leBytes r.kb0 2 ++ leBytes (flag r.forceErr 0) 1 ++ leBytes r.rows 2 ++ zeros 1 ++
    leBytes r.number 8 ++ leBytes r.bytes 8 ++ leBytes r.slots.length 1 ++ padTo 8 (r.slots.flatMap fun a => leBytes a 1) ++ zeros 7 ++
    leBytes r.id 8 ++ leBytes r.desc.length 4) ++
  padTo 1024 (r.desc.drop 32) ++ zeros 64

def seqRecOf (slabMap : Sparse Nat) (bs : List Byte) : SeqRec :=
  let b := (bs.drop 64).take 128
  let mma := field bs 11 1 == 0xD0
  let slots := (List.range (min 8 (field b 96 1))).map fun i => field b (97 + i) 1
  { id := field b 112 8, word := wordOfBytes (bs.take 12), pc := BitVec.ofNat 64 (field bs 16 8), number := field b 80 8,
    handleA := if mma then BitVec.ofNat 128 (field b 0 16) else 0, handleB := if mma then BitVec.ofNat 128 (field b 16 16) else 0, tileA := field b 72 1,
    tileB := field b 73 1, slots := slots, phys := slots.map fun a => sgetD a 0 slabMap, kb0 := field b 74 2,
    desc := ((b.drop 32).take 32 ++ (bs.drop 192).take 1024).take (field b 120 4), peer := BitVec.ofNat 64 (field b 64 8),
    prog := field bs 32 8, status := BitVec.ofNat 16 (field bs 40 2), bytes := field b 88 8,
    tagBase := BitVec.ofNat 20 (field bs 28 4), waiting := [], skip := if mma then [] else (List.range 256).filter fun n => bit (field b 0 32) n,
    forceErr := bit (field b 76 1) 0, rows := field b 77 2,
    tags := field b 77 2 * Ep.tags ((b.drop 32).take 32) }

/-! ### Groups (R365) -/

def Bar.bytes (b : Bar) : List Byte :=
  leBytes (flag b.byteMode 127 + b.target.toNat * 2 ^ 96 + b.count.toNat * 2 ^ 64 + b.phase.toNat * 2 ^ 32) 16

def Bar.ofBytes (bs : List Byte) : Bar :=
  let n := field bs 0 16
  { byteMode := bit n 127, target := BitVec.ofNat 31 (bits n 96 31), count := BitVec.ofNat 32 (bits n 64 32),
    phase := BitVec.ofNat 32 (bits n 32 32) }

def planeOff (x : Group) : Nat := 0x2000 + x.scratchBytes
def slabOff (x : Group) : Nat := planeOff x + x.planeBytes

def groupHeader (x : Group) : List Byte :=
  padTo 256 (leBytes x.ranks.length 2 ++ leBytes (x.ranks.filter fun k => k.copyRole).length 2 ++ leBytes x.l0 2 ++
    leBytes x.slabMax 1 ++ leBytes x.lbar 1 ++ leBytes x.qbar 1 ++
    leBytes (flag x.quiesced 0 + flag x.retiredGroup 1 + flag x.seqFault.isSome 2 + flag x.yieldTaken 3) 1 ++ leBytes x.prio 1 ++ zeros 1 ++
    leBytes x.scratchBytes 4 ++ leBytes x.planeBytes 4 ++ leBytes x.queue 4 ++ leBytes x.teamid 4 ++ leBytes (flag (x.team != 0) 0) 4 ++
    ((List.range 8).flatMap fun a => leBytes (((sget a x.slabMap).map (· + 1)).getD 0) 1) ++
    leBytes 0x2000 8 ++ leBytes (planeOff x) 8 ++ leBytes (slabOff x) 8 ++ leBytes (rankImageOff x 0) 8 ++ longs [x.code, x.mcode] ++
    leBytes x.placedAt 8 ++ longs [x.seqFault.getD 0])

/-- The ranges of configured reservations. -/
def planeRanges (x : Group) : List (Nat × Nat) :=
  (x.handles.filter fun e => hCfg e.2).flatMap fun e => [planeSpan e.2, scaleSpan e.2]

def groupPieces (s : State) (x : Group) : List Piece :=
  [(0, groupHeader x), (0x100, (List.range 128).flatMap fun b => (barGet s x b).bytes),
    (0x900, (List.range 16).flatMap fun t => leBytes (handleOf x t).toNat 16),
    (0xA00, longs ((List.range 8).map fun q => sgetD q 0 x.peers)), (0xA40, seqBytes x.seq),
    (0xA80, padTo 5504 (x.seq.recs.flatMap (seqRecBytes x.ctx))), (0x2000, denseGo x.scratch 0 x.scratchBytes)] ++
  ((planeRanges x).map fun r => (planeOff x + r.1, readBytes x.plane r.1 r.2)) ++
  ((List.range x.slabMap.length).map fun i =>
    (slabOff x + 65536 * i, denseSlab (slabAt s x.core ((x.slabMap.getD i (0, 0)).2)))) ++
  x.ranks.flatMap fun k => shift (rankImageOff x k.idx) (rankPieces x.ctx k)

/-- Bytes of a group that a save writes, with a count of lines for each rank and of plane bytes. -/
def groupSaveBytes (x : Group) (lines : Rank → Nat) (planes : Nat) : Nat :=
  64 + 8192 + x.scratchBytes + planes + 65536 * x.slabMap.length + (x.ranks.map fun k => rankSaveBytes k (lines k)).foldl (· + ·) 0

/-- The engine commands of a context that a save puts into its records: no entry holds them yet (R348). -/
def unrecorded (s : State) (cid : Nat) : Nat :=
  (s.cmds.filter fun c => c.2.ctx == cid && c.2.kind != .coll &&
    (group? s c.2.group).any fun x => !(x.ranks.any fun r => (r.live ++ r.frame).any fun e => e.id == c.1)).length

/-- D (R360, R380), and Dmax (R382): every line of the ranks dirty, every reservation configured. -/
def ctxSaveBytes (s : State) (cid : Nat) : Nat :=
  (s.groups.filter fun e => e.2.ctx == cid).foldl (fun n e =>
    n + groupSaveBytes e.2 (fun k => k.dirty.length) (((planeRanges e.2).map (·.2)).foldl (· + ·) 0)) (69632 + 1280 * unrecorded s cid)

def ctxSaveMax (s : State) (cid : Nat) : Nat :=
  (s.groups.filter fun e => e.2.ctx == cid).foldl (fun n e =>
    n + groupSaveBytes e.2 (fun k => if k.st == .retired then 0 else k.budget) e.2.planeBytes) (69632 + 1280 * unrecorded s cid)

/-! ### The whole area (R362, R364) -/

def descBytes (cid : Nat) (c : Ctx) (mode : CtxMode) (base : Nat) (groups : Nat) : List Byte :=
  padTo 512 (leBytes (stateWord { c with mode := mode }) 4 ++
    leBytes (cid + c.part * 2 ^ 12 + c.key.toNat * 2 ^ 18 + flag c.host 30 + flag c.rst 31) 4 ++ longs [c.trapvec, c.yvec] ++
    leBytes c.budget.toNat 4 ++ leBytes (flag c.sticky 0 + flag c.yieldPending 1) 4 ++ longs [c.saveva] ++ leBytes base 8 ++
    longs [c.evqbase] ++ leBytes (energyWord c) 8 ++ longs [c.enwt, c.s1pt, c.s1rt] ++ leBytes c.s1rn.toNat 4 ++
    leBytes c.tagSeq.toNat 4 ++ ((List.range 6).flatMap fun i => leBytes ((c.tls.getD i Timeline.zero).word).toNat 8) ++ leBytes groups 4)

/-- The cut table (R355, R364): an entry for each destination and path with outstanding operations: flowlet, path, the FSEQ and next FIDX of
its first packet that was cut, and the counter (log 18). -/
def cutTable (s : State) (cid : Nat) : List Byte :=
  let us := s.fab.unacked.filter fun u => u.ctx == cid
  let keys := (us.map fun u => (u.packet.dst.toNat, u.packet.path.toNat)).eraseDups
  padTo 3584 ((keys.take 56).flatMap fun k => let left := s.fab.cuts.find? fun e => e.2.ofCtx cid && hdrDst e.2.hdr == k.1 && bits e.2.hdr 259 2 == k.2 && e.2.flit.fidx != 0 &&
      !(s.fab.cuts.any fun d => d.2.hdr == e.2.hdr && d.2.flit.fidx == 0)
    padTo 64 (leBytes k.1 2 ++ leBytes 1 1 ++ leBytes ((left.map fun e => bits e.2.hdr 261 2).getD 0) 1 ++ leBytes k.2 1 ++
      leBytes ((left.map fun e => e.2.flit.fidx.toNat).getD 0) 1 ++ leBytes ((left.map fun e => bits e.2.hdr 216 16).getD 0) 2 ++
    leBytes ((us.filter fun u => u.packet.dst.toNat == k.1 && u.packet.path.toNat == k.2).length) 4))

/-- The armed ring (R364): count and head, and each entry in its place. -/
def armedRing (c : Ctx) : List Byte :=
  let place (i : Nat) : List Byte :=
    match c.ringed[(i + Config.armedLimit - c.armedHead) % Config.armedLimit]? with
    | some a => armedBytes a
    | none => zeros 576
  padTo 65536 (padTo 64 (leBytes c.ringed.length 4 ++ leBytes c.armedHead 4) ++ (List.range Config.armedLimit).flatMap place)

def dirEntryBytes (g : Nat) (x : Group) : List Byte :=
  padTo 64 (leBytes x.grpid 4 ++ leBytes x.launchid.toNat 4 ++ leBytes x.core 8 ++ leBytes x.imgOff 8 ++ leBytes g 8)

/-- The rank as its handler has left its frame in the image (R350). -/
def withEdits (s : State) (x : Group) (c : Ctx) (k : Rank) : Rank :=
  if k.frameActive && k.frameInMem then { k with frame := editedFrame s x c k, frameCopy := some (editedCopy s x c k) } else k

def ctxGroups (s : State) (cid : Nat) : List (Nat × Group) := s.groups.filter fun e => e.2.ctx == cid

/-- The parts of a save that are no group's, but the descriptor. -/
def headPieces (s : State) (cid : Nat) (c : Ctx) : List Piece :=
  [(0x200, cutTable s cid), (0x1000, armedRing c), (0x11000, (ctxGroups s cid).flatMap fun e => dirEntryBytes e.1 e.2)]

/-- Everything of a save but the descriptor. -/
def ctxPieces (s : State) (cid : Nat) (c : Ctx) : List Piece :=
  headPieces s cid c ++ (ctxGroups s cid).flatMap fun e =>
    shift e.2.imgOff (groupPieces s { e.2 with ranks := e.2.ranks.map (withEdits s e.2 c) })

/-- Pieces are written in order until one fails; the guest-physical address that failed. -/
def writeAreas (part base : Nat) : List Piece → State → State × Option Nat
  | [], s => (s, none)
  | p :: rest, s =>
    match gpaWrite part (base + p.1) p.2 s with
    | (s1, none) => writeAreas part base rest s1
    | r => r

/-- Parts of an image are written to base, the descriptor last (R360, R367). -/
def writeParts (parts : List Piece) (cid : Nat) (c : Ctx) (mode : CtxMode) (base : Nat) (s : State) : State × Option Nat :=
  match writeAreas c.part base parts s with
  | (s1, none) => gpaWrite c.part base (descBytes cid c mode base (ctxGroups s cid).length) s1
  | r => r

/-! ### Loading -/

/-- A group of an image before it is placed: its directory entry and what stands in its image. -/
structure LoadedGroup where
  key : Nat
  oldKey : Nat
  x : Group
  bars : List Bar
  slabs : List (Nat × Nat × Sparse Byte)
  deriving DecidableEq, Repr, Inhabited

def mapGets (l : List (Option α)) : Option (List α) := l.foldr (fun a acc => match a, acc with
  | some x, some xs => some (x :: xs)
  | _, _ => none) (some [])

/-- A group's registers from its directory entry d and the fixed part f of its image. -/
def groupShell (cid : Nat) (d f : List Byte) : Group :=
  let off := field d 16 8
  let sc := field f 12 4
  let pl := field f 16 4
  let map := (List.range 8).foldl (fun m a => if field f (32 + a) 1 = 0 then m else sset a (field f (32 + a) 1 - 1) m) []
  let handles := (List.range 16).foldl (fun m t => sput (0 : BitVec 128) t (BitVec.ofNat 128 (field f (0x900 + 16 * t) 16) &&& ~~~(0x7F#128 <<< 104)) m) []
  let bars := (List.range 128).map fun b => Bar.ofBytes ((f.drop (0x100 + 16 * b)).take 16)
  let q := f.drop 0xA40
  let recs := ((List.range 4).map fun i => (f.drop (0xA80 + 1280 * i)).take 1280).filter fun b => field b 0 12 != 0
  { ctx := cid, launch := 0, queue := field f 20 4, prio := field f 10 1, grpid := field d 0 4, teamid := field f 24 4,
    launchid := BitVec.ofNat 32 (field d 4 4), core := field d 8 8, imgOff := off, l0 := field f 4 2,
    code := BitVec.ofNat 64 (field f 72 8), mcode := BitVec.ofNat 64 (field f 80 8), scratchBytes := sc, planeBytes := pl,
    slabMax := field f 6 1, lbar := field f 7 1, qbar := field f 8 1, team := field f 28 4, scratch := [], plane := [],
    slabMap := map, handles := handles,
    peers := (List.range 8).foldl (fun m n => sput 0 n (BitVec.ofNat 64 (field f (0xA00 + 8 * n) 8)) m) [],
    bars := (List.range 96).foldl (fun m b => sput Bar.zero b (bars.getD b Bar.zero) m) [],
    seq := { mpc := BitVec.ofNat 64 (field q 0 8), st := SeqState.ofCode (field q 8 4),
             c := (List.range 4).map fun i => BitVec.ofNat 32 (field q (12 + 4 * i) 4), waitBar := field q 28 4,
             waitPhase := BitVec.ofNat 32 (field q 32 4), recs := recs.map (seqRecOf map) },
    ranks := [], quiesced := bit (field f 9 1) 0, yieldTaken := bit (field f 9 1) 3, frozen := true, placedAt := field f 88 8,
    seqFault := if bit (field f 9 1) 2 then some (BitVec.ofNat 64 (field f 96 8)) else none, retiredGroup := bit (field f 9 1) 1 }

/-- The group whose directory entry is d, its image read by rd. id numbers its entries. -/
def groupOf (rd : Reader) (cid key id clk : Nat) (d : List Byte) : Option LoadedGroup :=
  let off := field d 16 8
  match rd off 0x2000 with
  | none => none
  | some f =>
    let shell := groupShell cid d f
    let map := shell.slabMap
    let bars := (List.range 128).map fun b => Bar.ofBytes ((f.drop (0x100 + 16 * b)).take 16)
    let ranks := (List.range (min 64 (field f 0 2))).map fun r => rankOf (fun o n => rd (off + rankImageOff shell r + o) n) (id + 64 * r) clk
    let slab (i : Nat) : Option (Nat × Nat × Sparse Byte) :=
      let e := map.getD i (0, 0)
      (rd (off + slabOff shell + 65536 * i) 65536).map fun b => (e.1, e.2, sparseFrom 0 b)
    let planes := (planeRanges shell).map fun r => (rd (off + planeOff shell + r.1) r.2).map fun b => (r.1, b)
    match rd (off + 0x2000) shell.scratchBytes, mapGets ranks, mapGets ((List.range map.length).map slab), mapGets planes with
    | some scratch, some rs, some sl, some ps =>
      some { key := key, oldKey := field d 24 8, bars := bars, slabs := sl,
             x := { shell with scratch := sparseFrom 0 scratch, ranks := rs,
                               plane := ps.foldl (fun m p => writeBytes m p.1 p.2) [] } }
    | _, _, _, _ => none

/-! ### Lines that an image needs (log 75) -/

/-- What a load reads of a rank's image beside its fixed part. -/
def rankRuns (rd : Reader) : List (Nat × Nat) :=
  match rd 0 0x2500 with
  | none => []
  | some f =>
    let spills := (List.range 32).filterMap fun t =>
      let depth := min (field ((f.drop (0x300 + 32 * t)).take 32) 8 2) 256
      if 16 < depth then some (0x2500 + 1920 * t, 8 * (depth - 16)) else none
    spills ++ [(0x11500, 1280 * min 32 (field f 0x5C 4)), (0x1B500, 1280 * min 32 (field f 0x58 4))]

/-- What a load reads of a group's image, in three steps: its fixed part; its memories and the fixed parts of its ranks; the rest. -/
def groupRuns (rd : Reader) (d : List Byte) (step : Nat) : List (Nat × Nat) :=
  let off := field d 16 8
  if step = 0 then [(off, 0x2000)]
  else
    match rd off 0x2000 with
    | none => []
    | some f =>
      let x := groupShell 0 d f
      let at' (r : Nat) : Nat := off + rankImageOff x r
      let ranks := List.range (min 64 (field f 0 2))
      if step = 1 then
        [(off + 0x2000, x.scratchBytes), (off + slabOff x, 65536 * x.slabMap.length)] ++
        ((planeRanges x).map fun r => (off + planeOff x + r.1, r.2)) ++ ranks.map fun r => (at' r, 0x2500)
      else ranks.flatMap fun r => (rankRuns fun o n => rd (at' r + o) n).map fun p => (at' r + p.1, p.2)

/-- The first of some lists that is not empty. -/
def firstOf (l : List (List (Nat × Bool))) : List (Nat × Bool) := (l.find? fun x => !x.isEmpty).getD []

/-- The package has all its control lines: no search for missing ones is needed. -/
def allHere (s : State) : Bool := s.regions.isEmpty && s.dir.isEmpty

/-- The lines that a load needs next and that are not here. -/
def loadLacks (s : State) (part base : Nat) : List (Nat × Bool) :=
  if allHere s then []
  else
    let need (l : List (Nat × Nat)) : List (Nat × Bool) := l.flatMap fun r => runLacks s part (base + r.1) r.2 false
    let rd := readerAt s part base
    let num (off len : Nat) : Nat := ((rd off len).map fun b => field b 0 len).getD 0
    let head := need [(0, 512), (0x1000, 64)]
    if !head.isEmpty then head
    else
      let n := min 65536 (num 144 4)
      let dir := need [(0x11000, 64 * n), (0x1040, if num 0x1000 4 = 0 then 0 else 576 * Config.armedLimit)]
      if !dir.isEmpty then dir
      else
        let entries := ((rd 0x11000 (64 * n)).map fun b => (List.range n).map fun i => (b.drop (64 * i)).take 64).getD []
        let stage (k : Nat) : List (Nat × Bool) := entries.flatMap fun d => need (groupRuns rd d k)
        firstOf [stage 0, stage 1, stage 2]

/-- The lines that a save to base needs and that are not here: its handlers' frames first, as they are read. -/
def saveLacks (s : State) (cid : Nat) (c : Ctx) (base : Nat) : List (Nat × Bool) :=
  if allHere s then []
  else
    let frames := (ctxGroups s cid).flatMap fun e => (e.2.ranks.filter fun k => k.frameActive).flatMap fun k => frameLacks s e.2 c k
    if !frames.isEmpty then frames
    else (((0, zeros 512) : Piece) :: ctxPieces s cid c).flatMap fun p => runLacks s c.part (base + p.1) p.2.length true

/-- A group's ranks, their lanes as saved. -/
def lanesFit (s : State) (core : Nat) (x : Group) : Bool :=
  (List.range 32).all fun lane =>
    let mine := x.ranks.filter fun k => k.lane == lane
    decide (mine.length ≤ laneSlotsFree s core lane) && decide (mine.foldl (fun n k => n + k.budget) 0 ≤ laneRoomFree s core lane)

def needsOf (x : Group) : Needs :=
  { budgets := x.ranks.map (·.budget), scratch := x.scratchBytes, plane := x.planeBytes, slabs := x.slabMax, lbar := x.lbar }

/-- Where a group goes: its own core and lanes, else any core that fits it (R367); a team stays on one quad. -/
def loadSpot (s : State) (part : Nat) (x : Group) (quad : Option Nat) (taken : List Nat) : Option (Nat × Nat) :=
  let may (c : Nat) : Bool := ownsCore s part c && !bornOff s c && !taken.contains c &&
    (match quad with
      | some q => c / 4 == q
      | none => x.team == 0 || decide (x.qbar ≤ quadBarsFree s (c / 4)))
  let shell : Needs := { needsOf x with budgets := [] }
  if x.retiredGroup then (((x.core :: List.range Config.cores).filter may).find? fun c => (fitsCore s shell c).isSome).map fun c => (c, x.l0)
  else if may x.core && (fitsCore s shell x.core).isSome && lanesFit s x.core x then some (x.core, x.l0)
  else ((List.range Config.cores).filter may).findSome? fun c => (fitsCore s (needsOf x) c).map fun l0 => (c, l0)

/-- Free physical slabs for the slots of a group: the saved ones where they are free. -/
def takeSlabs (s : State) (core : Nat) : List (Nat × Nat × Sparse Byte) → Sparse Nat → Sparse Nat
  | [], m => m
  | (slot, phys, _) :: rest, m =>
    let free (p : Nat) : Bool := (sget (core * 8 + p) s.slabs).isNone && !(m.any fun e => e.2 == p)
    let p := if free phys then phys else ((List.range 8).find? free).getD phys
    takeSlabs s core rest (sset slot p m)

/-- In-use counts rebuilt from the records (R223, R371). -/
def rebuildInuse (s : State) (key : Nat) (x : Group) : Group :=
  let copies (t : Nat) : Nat := (x.ranks.map fun k => ((k.live ++ k.frame).filter fun e =>
    match entryInstr e.word with
    | some (.copyPl n _) => n.toNat == t && !(e.block.isEmpty || isZeros e.block)
    | _ => false).length).foldl (· + ·) 0
  let held (t : Nat) : Nat := (s.cmds.filter fun c => c.2.group == key && c.2.kind == .copyPl && c.2.tile == t).length
  let recs (t : Nat) : Nat := (x.seq.recs.map fun r => if r.word.extractLsb' 88 8 == 0xD0 then
    (if r.tileA = t ∨ r.tileB = t then 1 else 0) else 0).foldl (· + ·) 0
  { x with handles := (List.range 16).foldl (fun m t =>
      let h := handleOf x t
      sput 0 t (if hCfg h then hSetInuse h (copies t + held t + recs t) else 0) m) [] }

/-- The remote operations of a rank that this package still has outstanding. -/
def countersOf (s : State) (key r : Nat) : Sparse Nat :=
  s.fab.unacked.foldl (fun m u => match u.owner with
    | .entry g r' _ _ => if g = key ∧ r' = r then
        let k := u.packet.dst.toNat * 4 + u.packet.path.toNat
        sput 0 k (sgetD k 0 m + 1) m else m
    | _ => m) []

def launchOf (s : State) (cid : Nat) (launchid : Word) : Nat :=
  ((s.launches.find? fun e => e.2.owner == cid && BitVec.ofNat 32 e.2.n == launchid).map (·.1)).getD 0

/-- A group is put on a core. -/
def putGroup (cid part : Nat) (l : LoadedGroup) (core l0 team : Nat) (s : State) : State :=
  let moved := !(core == l.x.core && l0 == l.x.l0)
  let lanes := l.x.ranks.map fun k => if moved then (l0 + k.idx) % 32 else k.lane
  let slots := slotsTaken s core lanes
  let map := takeSlabs s core l.slabs []
  let free (r : Nat) (k : Rank) : Bool := !moved && !((ranksOnLane s core k.lane).any fun p => p.2.slot == k.slot)
  let allFree := (List.range l.x.ranks.length).all fun r => free r (l.x.ranks.getD r default)
  let ranks := (List.range l.x.ranks.length).map fun r =>
    let k := l.x.ranks.getD r default
    { k with lane := lanes.getD r 0, slot := if allFree then k.slot else slots.getD r 0, counters := countersOf s l.key r }
  let remap (q : SeqRec) : SeqRec := { q with phys := q.slots.map fun a => sgetD a 0 map }
  let x1 : Group := { l.x with core := core, l0 := l0, team := team, slabMap := map, ranks := ranks,
                               launch := launchOf s cid l.x.launchid, seq := { l.x.seq with recs := l.x.seq.recs.map remap } }
  { s with groups := sset l.key (rebuildInuse s l.key x1) s.groups
           slabs := l.slabs.foldl (fun m e => sset (core * 8 + sgetD e.1 0 map) { group := l.key, data := e.2.2 } m) s.slabs }

/-- Groups are placed in directory order; none when one fits nowhere. teams maps a launch and team to its quad and key. -/
def putGroups (cid part : Nat) : List LoadedGroup → List (Nat × Nat × Nat × Nat × List Nat) → State → Option State
  | [], _, s => some s
  | l :: rest, teams, s =>
    let mine := if l.x.team = 0 then none else teams.find? fun t => t.1 == l.x.launchid.toNat && t.2.1 == l.x.teamid
    match loadSpot s part l.x (mine.map fun t => t.2.2.1) ((mine.map fun t => t.2.2.2.2).getD []) with
    | none => none
    | some (core, l0) =>
      if l.x.team = 0 then putGroups cid part rest teams (putGroup cid part l core l0 0 s)
      else
        match mine with
        | some t =>
          let others := teams.filter fun u => !(u.1 == t.1 && u.2.1 == t.2.1)
          putGroups cid part rest (others ++ [(t.1, t.2.1, t.2.2.1, t.2.2.2.1, core :: t.2.2.2.2)]) (putGroup cid part l core l0 t.2.2.2.1 s)
        | none =>
          let team : Team := { quad := core / 4, qbar := l.x.qbar,
                               bars := (List.range 32).foldl (fun m b => sput Bar.zero b (l.bars.getD (96 + b) Bar.zero) m) [] }
          let s1 := { s with teams := sset s.fresh team s.teams, fresh := s.fresh + 1 }
          putGroups cid part rest (teams ++ [(l.x.launchid.toNat, l.x.teamid, core / 4, s.fresh, [core])])
            (putGroup cid part l core l0 s.fresh s1)

/-- A timeline as a descriptor has it: the numbers taken are this package's where it still holds them. -/
def timelineOf (was : Timeline) (w : Nat) : Timeline :=
  let v := w % 2 ^ 63
  if was.word.toNat = w then was
  else { err := bit w 63, value := v, taken := max was.taken v, done := was.done.filter fun n => decide (v < n) }

/-- The context's registers from a descriptor (R362). RST is as R370 has it. -/
def ctxOf (c : Ctx) (base : Nat) (d : List Byte) : Ctx :=
  let e := field d 56 8
  { c with
    mode := .frozen, key := BitVec.ofNat 12 (field d 4 4 / 2 ^ 18), host := bit (field d 4 4) 30, rst := bit (field d 4 4) 31,
    trapvec := BitVec.ofNat 64 (field d 8 8), yvec := BitVec.ofNat 64 (field d 16 8), budget := BitVec.ofNat 32 (field d 24 4),
    deadline := 0, sticky := bit (field d 28 4) 0, yieldPending := false, saveva := BitVec.ofNat 64 (field d 32 8),
    savebase := BitVec.ofNat 64 base, evqbase := BitVec.ofNat 64 (field d 48 8), energy := e % 2 ^ 48, sat := bit e 63,
    enwt := BitVec.ofNat 64 (field d 64 8), s1pt := BitVec.ofNat 64 (field d 72 8), s1rt := BitVec.ofNat 64 (field d 80 8),
    s1rn := BitVec.ofNat 32 (field d 88 4), tagSeq := BitVec.ofNat 20 (field d 92 4),
    tls := (List.range 6).map fun i => timelineOf (c.tls.getD i Timeline.zero) (field d (96 + 8 * i) 8) }

/-- The entries of an armed ring, oldest first: each goes to the group whose image had the slab that its packet names. -/
def armedOf (gs : List LoadedGroup) (bs : List Byte) (head n : Nat) : List Armed :=
  (List.range n).filterMap fun i =>
    let p := armedPacket ((bs.drop (576 * ((head + i) % Config.armedLimit))).take 576)
    gs.findSome? fun l => if l.x.core = rowCore p then
        (l.slabs.find? fun e => e.2.1 == rowSlab p).map fun e => { group := l.key, slot := e.1, pkt := p, lost := false }
      else none

/-- The groups of an image. -/
def groupsOf (rd : Reader) (cid : Nat) (c : Ctx) (n fresh clk : Nat) : Option (List LoadedGroup) :=
  match rd 0x11000 (64 * n) with
  | none => none
  | some dir => mapGets ((List.range n).map fun i =>
      groupOf rd cid (c.savedGroups.getD i (fresh + i)) (fresh + n + 4096 * i) clk ((dir.drop (64 * i)).take 64))

/-- An entry of a loaded record: where this package saved it, its own with the edits that R350 accepts (R371). -/
def keptEntries (was now : List Entry) : List Entry :=
  (List.range now.length).map fun i =>
    let n := now.getD i default
    match was[i]? with
    | some e => { e.takeEdits n with id := n.id }
    | none => n

/-- The records of a group that this package saved. -/
def keptRecords (c : Ctx) (l : LoadedGroup) : LoadedGroup :=
  let fix (k : Rank) : Rank := match c.savedRecs.find? fun r => r.1 == l.key && r.2.1 == k.idx with
    | none => k
    | some r => if k.frameActive then { k with live := keptEntries r.2.2.1 k.live, frame := keptEntries r.2.2.2 k.frame }
      else { k with live := keptEntries (r.2.2.1 ++ r.2.2.2) k.live }
  { l with x := { l.x with ranks := l.x.ranks.map fix } }

/-- The cut table read back (R355, R364): of the packets that it names the flits from FIDX on are left to send, out of what the interface
keeps of them until they are acknowledged (R321). -/
def readCuts (cid : Nat) (table : List Byte) (s : State) : State :=
  let whole (g : PortFlit) : Bool := (s.fab.cuts.filter fun c => c.2.hdr == g.hdr && c.2.flit.fidx == 0).length != 0
  let others := s.fab.cuts.filter fun c => !c.2.ofCtx cid || whole c.2
  let left (i : Nat) : List (Nat × PortFlit) :=
    let b := (table.drop (64 * i)).take 64
    let fidx := field b 5 1
    if field b 2 1 = 0 ∨ fidx = 0 then []
    else match s.fab.unacked.find? fun u => u.ctx == cid && u.packet.dst.toNat == field b 0 2 && u.packet.path.toNat == field b 4 1 &&
        u.packet.flabel.toNat == field b 3 1 && u.packet.fseq.toNat == field b 6 2 with
      | none => []
      | some u =>
        let bs := packetBytes u.packet
        ((flitsOf u.packet.plane bs).drop fidx).map fun f => (hdrPort (headerOf bs) 0, { input := 16, hdr := headerOf bs, flit := f })
  { s with fab := { s.fab with cuts := (List.range 56).flatMap left ++ others } }

/-- CTX.ld's reading and placing (R367): none when the image cannot be read or a group fits nowhere. -/
def loadImage (cid base : Nat) (c : Ctx) (s : State) : Option State :=
  let rd := readerAt s c.part base
  match rd 0 512 with
  | none => none
  | some d =>
    let n := field d 144 4
    let c1 := ctxOf c base d
    match (if 65536 < n then none else groupsOf rd cid c n s.fresh s.clk), rd 0x1000 64 with
    | some gs, some ring =>
      let count := min Config.armedLimit (field ring 0 4)
      let head := field ring 4 4 % Config.armedLimit
      match (if count = 0 then some [] else rd 0x1040 (576 * Config.armedLimit)), rd 0x200 3584 with
      | none, _ | _, none => none
      | some arm, some table =>
        let armed := armedOf gs arm head count
        let lost := c.armed.filter fun a => a.lost
        let c2 := { c1 with weightsRead := [], weightsAsked := [], armed := armed ++ lost, armedHead := head, savedGroups := [], landed := [], landedBars := [], savedRecs := [] }
        (putGroups cid c.part (gs.map (keptRecords c)) [] { readCuts cid table s with ctxs := sset cid c2 s.ctxs, fresh := s.fresh + n + 4096 * (n + 1) }).map fun s1 =>
          ((gs.filterMap fun l => (group? s1 l.key).map (·.core)).eraseDups).foldl (fun s k => loadWeights cid k s) s1
    | _, _ => none

end Sys2Proof.Machine
end

