-- ==== Sys2Proof/Machine/Fetch.lean ====
section
/-! DEFINITION. Fetching and decoding the word at a unit's address (R36, R38, R39). -/

set_option linter.unusedVariables false

namespace Sys2Proof.Machine

/-- What fetching a run of code bytes gives. -/
inductive Fetched where
  | bytes (bs : List Byte)
  | fault (cause : BitVec 16)
  | stage2 (gpa : Nat)
  | wait (dpa : Nat)
  /-- a row of memory that has failed holds it (R297) -/
  | failed (p : Long)
  deriving DecidableEq, Repr, Inhabited

/-- The device address of one piece of code, or why there is none (R38). -/
inductive CodeAt where
  | ok (dpa : Nat)
  | fault (cause : BitVec 16)
  | stage2 (gpa : Nat)
  | lacks (dpa : Nat)
  deriving DecidableEq, Repr, Inhabited

def codeAt (cid core : Nat) (c : Ctx) (p : Long) (len : Nat) (s : State) : State × CodeAt :=
  if !ptrOk p || ptrSpace p == .loc then (s, .fault 0x07)
  else if ptrSpace p = .tensor then
    if ptrHome p ≠ s.selfPkg then (s, .fault 0x07)
    else
      match portResolve s { pkg := s.selfPkg, ctx := cid, key := c.key, part := c.part } (ptrBuf p) (ptrOff p) len .rd with
      | .ok a => (s, .ok a)
      | .notResident => (s, .fault 0x06)
      | .stage2 g => (s, .stage2 g)
      | .lacks d => (s, .lacks d)
      | _ => (s, .fault 0x07)
  else
    match translate (some core) cid (ptrOff p) .ex s with
    | (s1, .ok a) => (s1, if layerOff s1 a then .fault 0x06 else .ok a)
    | (s1, .stage1) => (s1, .fault 0x06)
    | (s1, .stage2 g) => (s1, .stage2 g)
    | (s1, .lacks d) => (s1, .lacks d)

/-- The bytes a fetch takes of one granule: new ones, or the core's old copy where the copy differs and the free choice of R39
takes it. DESIGN CHOICE (log 8): a core that holds no copy of the granule reads the new bytes, which R39 allows. -/
def fetchGranule (cid core : Nat) (key base : Nat) (now : List Byte) (s : State) : State × List Byte :=
  let mine (c : ICopy) : Bool := c.core == core && c.ctx == cid && c.granule == key
  let renew (s : State) : State :=
    { s with icopies := (s.icopies.filter fun c => !mine c) ++ [{ core := core, ctx := cid, granule := key, dpa := base, data := now }] }
  match s.icopies.find? mine with
  | none => (renew s, now)
  | some c =>
    if c.data = now then (s, now)
    else if Config.takeCopy s.free then ({ s with free := s.free + 1 }, c.data)
    else (renew { s with free := s.free + 1 }, now)

/-- The word's 12 bytes, piece by piece. The copy that a core keeps is of the whole granule. -/
def fetchPieces (cid core : Nat) (c : Ctx) (p : Long) : List (Nat × Nat) → List Byte → State → State × Fetched
  | [], got, s => (s, .bytes got)
  | (off, len) :: rest, got, s =>
    let q := ptrAdd p off
    match codeAt cid core c q len s with
    | (s1, .fault k) => (s1, .fault k)
    | (s1, .stage2 g) => (s1, .stage2 g)
    | (s1, .lacks d) => (askLine s1 d false, .wait d)
    | (s1, .ok a) =>
      if rowFailed s1 a then (s1, .failed q)
      else if tagMiss s1 cid a then (askLine (giveLine (a / 512) s1) a false, .wait a)
      else if lineReady s1 a false then
        let base := a / 32 * 32
        let g := fetchGranule cid core (q.toNat / 32) base (homeRead s1 base 32) (claimLine cid a s1)
        fetchPieces cid core c p rest (got ++ (g.2.drop (a - base)).take len) g.1
      else (askLine s1 a false, .wait a)

def fetchBytes (cid core : Nat) (c : Ctx) (p : Long) (s : State) : State × Fetched :=
  fetchPieces cid core c p (granules (p.toNat % 32) 12) [] s

/-- The outcome of a turn before the word runs. -/
inductive Fetch where
  | run (i : Instr) (s : State)
  | done (s : State)

/-- A fetch fault is precise at the target (R38): TPC and TVAL hold it. A stage-2 fault freezes the context and tells the host, and
the word is fetched again at resume. -/
def rankFetchFault (g r : Nat) (x : Group) (c : Ctx) (pc : Long) (f : Fetched) (s : State) : State :=
  match f with
  | .stage2 gpa => takeTrap g r false 0x14 pc (BitVec.ofNat 64 gpa) none s
  | .fault k => takeTrap g r false k pc pc none s
  | .wait _ => { s with cur := none }
  | .failed p => takeTrap g r true 0x19 pc p none s
  | .bytes _ => s

def rejectField : Reject → Nat
  | .operand k => k
  | _ => 0

/-- The turn of an issuing rank. A word that fails checks 7 to 9 of R36 takes the illegal-instruction trap. -/
def fetchRank (g r : Nat) (s : State) : Fetch :=
  match group? s g, rank? s g r with
  | some x, some k =>
    match ctx? s x.ctx with
    | none => .done { s with cur := none }
    | some c =>
      if k.st ≠ .issuing then .done { s with cur := none }
      else
        let pc := pathPc k k.active
        let f := fetchBytes x.ctx x.core c pc s
        match f.2 with
        | .bytes bs =>
          let w := wordOfBytes bs
          match decodeWord (.rank k.budget) w with
          | .ok i => .run i f.1
          | .error e =>
            match issuing f.1 (Fields.ofWord w).ctl with
            | some u => .done (trapAt u w 0x01 (BitVec.ofNat 64 (rejectField e)) f.1)
            | none => .done { f.1 with cur := none }
        | o => .done (rankFetchFault g r x c pc o f.1)
  | _, _ => .done { s with cur := none }

/-- The turn of a running sequencer: a word that cannot be fetched, by either stage, or that fails a check, is a sequencer
fault (R167). -/
def fetchSeq (g : Nat) (s : State) : Fetch :=
  match group? s g with
  | none => .done { s with cur := none }
  | some x =>
    match ctx? s x.ctx with
    | none => .done { s with cur := none }
    | some c =>
      if x.seq.st ≠ .running ∨ x.quiesced then .done { s with cur := none }
      else
        let f := fetchBytes x.ctx x.core c x.seq.mpc s
        match f.2 with
        | .bytes bs =>
          match decodeWord .sequencer (wordOfBytes bs) with
          | .ok i => .run i f.1
          | .error e => .done (seqFaultAt g 0x01 (BitVec.ofNat 64 (rejectField e)) f.1)
        | .fault k => .done (seqFaultAt g k x.seq.mpc f.1)
        | .stage2 _ => .done (seqFaultAt g 0x06 x.seq.mpc f.1)
        | .failed p => .done (seqFaultAt g 0x19 p f.1)
        | .wait _ => .done { f.1 with cur := none }

/-- A unit's turn. -/
def fetchTurn (u : Turn) (s : State) : Fetch :=
  let f := match u with
    | .rank g r => fetchRank g r { s with cur := some u }
    | .seq g => fetchSeq g { s with cur := some u }
  match f with
  | .run i t => .run i (keep s t)
  | .done t => .done (keep s t)

end Sys2Proof.Machine
end

