-- ==== Sys2Proof/Machine/ContextEngine.lean ====
section
/-! DEFINITION. The context engine (R354 to R361, R367 to R371), the yield, and the package control block's tables (R192, R363, R394,
R395). -/

set_option linter.unusedVariables false

namespace Sys2Proof.Machine

/-! ### Records and parts of a save (R348, R360, R368) -/

/-- Commands stand in a live record of their group: the issuer's where it has room (R348). A collective's work stays with its engine beside
its entry, and so does a command for which no record has room (log 18). -/
def recordCmd (k : Nat) (c : Cmd) (s : State) : State :=
  match group? s c.group with
  | none => s
  | some x =>
    let gone (s : State) : State := if c.kind = .coll then s else { s with cmds := sdel k s.cmds }
    if x.ranks.any fun r => (r.live ++ r.frame).any fun e => e.id == k then
      let fresh (r : Rank) : Rank := { r with live := r.live.map fun e => if e.id = k then e.upToDate s else e }
      gone (modGroup c.group (fun x => { x with ranks := x.ranks.map fresh }) s)
    else
      let room (r : Rank) : Bool := decide (r.live.length < Config.recordLimit)
      let own := (x.ranks[c.rank]?).any room
      match if own then some c.rank else (x.ranks.find? room).map (·.idx) with
      | none => s
      | some r => addLive c.group r (cmdEntry k c .issued 0 s) (gone s)

/-- The frames of the groups in question as their handlers have left them, taken out of the image before it is written anew (R350). -/
def takeFrames (mine : Nat → Group → Bool) (s : State) : State :=
  let take (e : Nat × Group) : Nat × Group :=
    match ctx? s e.2.ctx with
    | some c => if mine e.1 e.2 then (e.1, { e.2 with ranks := e.2.ranks.map fun k => { withEdits s e.2 c k with frameInMem := false } }) else e
    | none => e
  { s with groups := s.groups.map take }

/-- They stand in the image that was written. -/
def putFrames (mine : Nat → Group → Bool) (s : State) : State :=
  let put (e : Nat × Group) : Nat × Group :=
    if mine e.1 e.2 then (e.1, { e.2 with ranks := e.2.ranks.map fun k => { k with frameInMem := k.frameActive } }) else e
  { s with groups := s.groups.map put }

/-- The groups in question, with their commands in their records, as a save writes them. -/
def recordCmds (mine : Nat → Group → Bool) (s : State) : State :=
  (s.cmds.filter fun e => (group? s e.2.group).any (mine e.2.group)).foldl (fun s e => recordCmd e.1 e.2 s) (takeFrames mine s)

/-- A write to the save area took a stage-2 fault: the save stops, the context's state stays held on its cores, STATE says so where the
descriptor can be written, and the host is told (R368). A save of a group at its YIELD freezes the rest of the context first. -/
def saveFault (cid : Nat) (c : Ctx) (gpa : Nat) (s : State) : State :=
  let s1 := if ctxActive s cid then freezeCtx cid s else s
  postHost { source := 7, status := 0x000A, ctx := cid, part := c.part, counta := 0x14, countb := gpa }
    (noteState cid (modCtx cid (fun c => { c with mode := .held }) s1))

/-- A group's image is written to the save area at base; the guest-physical address that failed (R360, R365). -/
def saveGroupAt (base g : Nat) (s : State) : State × Option Nat :=
  let s1 := recordCmds (fun k _ => k == g) s
  match group? s1 g with
  | none => (s, none)
  | some x =>
    match ctx? s1 x.ctx with
    | none => (s, none)
    | some c =>
      match writeAreas c.part base (shift x.imgOff (groupPieces s1 x)) s1 with
      | (s2, none) => (putFrames (fun k _ => k == g) s2, none)
      | failed => failed

/-- A group that has yielded, or whose yield ran over, is saved at SAVEBASE as it freezes (R359, log 67). -/
def saveGroup (g : Nat) (s : State) : State :=
  match (group? s g).bind fun x => (ctx? s x.ctx).map fun c => (x.ctx, c) with
  | none => s
  | some (cid, c) =>
    match saveGroupAt c.savebase.toNat g s with
    | (s1, none) => s1
    | (s1, some gpa) => saveFault cid c gpa s1

def saveGroups (gs : List Nat) (s : State) : State := gs.foldl (fun s g => saveGroup g s) s

/-- The groups of a context that run. -/
def groupsUp (s : State) (cid : Nat) : List Nat := (s.groups.filter fun e => e.2.ctx == cid && !e.2.frozen).map (·.1)

/-! ### Freezing with a yield (R359) -/

/-- A group with no rank to take the yield trap is frozen and saved at the request, and counts as yielded. -/
def freezeIdleGroups (cid : Nat) (s : State) : State :=
  ((ctxGroups s cid).filter fun e => !e.2.frozen && (lowestRank e.2).isNone).foldl (fun s e => saveGroup e.1 (freezeGroup e.1 s)) s

/-- YIELD (R181, R359): with a request pending its group is frozen and saved, the rank standing after it; else the ply ends. -/
def execYield (c : Ctl) (s : State) : Out :=
  sysWord (.yield c) c (fun w u s =>
    if u.c.yieldPending then wake (settleYield u.x.ctx (saveGroup u.g (freezeGroup u.g (stopPass c w u s))))
    else closePass c true u (advancePcs u (charged u w s))) s

/-- The yield request. -/
def requestYield (cid : Nat) (s : State) : State :=
  let ask (c : Ctx) : Ctx := { c with yieldPending := true, deadline := s.clk + c.budget.toNat }
  let fresh (x : Group) : Group := if x.ctx = cid then { x with yieldTaken := false } else x
  settleYield cid (freezeIdleGroups cid (modCtx cid ask { s with groups := s.groups.map fun e => (e.1, fresh e.2) }))

/-- A yield starts where the descriptor has a handler and none is pending; else the freeze is immediate. -/
def startFreeze (cid : Nat) (c : Ctx) (s : State) : State :=
  if c.yvec = 0 || c.yieldPending then freezeCtx cid s else requestYield cid s

/-- The yield trap of a rank: it enters at YVEC and its group is quiesced. A handler runs already, its trap comes at its RTT. IMPR is
clear (log 31). -/
def enterYield (g r : Nat) (x : Group) (c : Ctx) (k : Rank) (s : State) : State :=
  let pc := match k.live.find? fun (e : Entry) => e.state == .parkedWait with
    | some e => e.pc
    | none => nextPc k
  let s1 := endPly g r .ready (modRank g r Rank.unstop s)
  let s2 := modRank g r (fun k => { enterTrap c.yvec (ifrec s1 g r) false 0x30 pc (c.budget.setWidth 64) none k with yielding := true }) s1
  writeFrame g r (dropCut g r (modGroup g (fun x => { x with quiesced := true, yieldTaken := true }) s2))

/-- The yield trap of group g. -/
def execYieldTrap (g : Nat) (s : State) : Out := held s <|
  match group? s g, yieldDue s g with
  | some x, some r =>
    match ctx? s x.ctx, rank? s g r with
    | some c, some k => .next (enterYield g r x c k s)
    | _, _ => idle s
  | _, _ => idle s

def yieldOverrun (s : State) (cid : Nat) : Bool :=
  ((ctx? s cid).map fun c => c.yieldPending && c.mode == .running && decide (c.deadline ≤ s.clk)).getD false

/-- DEADLINE is reached: what has not yielded is frozen where it stands, and its save is forced (R359 step 6). -/
def execYieldDeadline (ctx : Nat) (s : State) : Out := held s <|
  if yieldOverrun s ctx then .next (saveGroups (groupsUp s ctx) (freezeCtx ctx s)) else idle s

/-! ### Saving and releasing (R367, R368) -/

/-- The bytes of the save area that an image reaches. -/
def imageExtent (s : State) (cid : Nat) (c : Ctx) : Nat :=
  (ctxPieces s cid c).foldl (fun n p => max n (p.1 + p.2.length)) 512

/-- The landing slabs of a group, for rows that arrive while it is saved (R356). -/
def landedOf (e : Nat × Group) : List (Nat × Nat × Nat × Nat) := e.2.slabMap.map fun m => (e.2.core, m.2, e.1, m.1)

/-- The barriers that the group holds, configured: a row that arrives while it is saved must name one (R172, R356). -/
def landedBarsOf (s : State) (e : Nat × Group) : List (Nat × Nat) :=
  ((List.range 128).filter fun b => barHeld e.2 b && (barGet s e.2 b).target != 0).map fun b => (e.1, b)

/-- The records of a group as its image has them (R350, R371). -/
def recordsOf (e : Nat × Group) : List (Nat × Nat × List Entry × List Entry) :=
  e.2.ranks.map fun k => (e.1, k.idx, k.liveOut, k.frameOut)

/-- The context's slots, slabs, barriers and allocations are free. -/
def releaseCtx (cid base : Nat) (s : State) : State :=
  let extent := ((ctx? s cid).map fun c => imageExtent s cid c).getD 0
  let gs := ctxGroups s cid
  let mine (g : Nat) : Bool := gs.any fun e => e.1 == g
  let teams := gs.map fun e => e.2.team
  let kept (c : Ctx) : Ctx := { c with mode := .saved, savebase := BitVec.ofNat 64 base, savedGroups := gs.map (·.1), saveBytes := extent }
  { (modCtx cid (fun c => { kept c with landed := gs.flatMap landedOf, landedBars := gs.flatMap (landedBarsOf s),
                                        savedRecs := gs.flatMap recordsOf }) s) with
    groups := s.groups.filter fun e => e.2.ctx != cid
    slabs := s.slabs.filter fun e => !mine e.2.group
    teams := s.teams.filter fun e => !teams.contains e.1
    resv := s.resv.filter fun r => !mine r.group }

/-- The issuer lets its step go on: it is not frozen (R369). -/
def issuerRuns (s : State) (st : CtxStep) : Bool :=
  match st.issuer with
  | some (c, _, _, _, _) => (ctx? s c).isNone || ctxActive s c
  | none => true

/-- A step as STATE bits 31:8 hold it (R362, R369): the step and one in bits 7:0, its sub-step above (log 102). -/
def CtxStep.code (st : CtxStep) : BitVec 24 := BitVec.ofNat 24 (st.kind + 1 + 256 * st.prog)

/-- What STATE bits 31:8 keep while other steps of the target are done: a step whose issuer is frozen (R369). -/
def keptStep (s : State) (cid : Nat) : BitVec 24 :=
  ((s.steps.find? fun (y : CtxStep) => y.target == cid && !issuerRuns s y).map CtxStep.code).getD 0

/-- The context's parts that are no group's, the descriptor last; then its state on the cores is released (R360, R367). -/
def saveHead (cid base : Nat) (s : State) : State × Option Nat :=
  match ctx? s cid with
  | none => (s, none)
  | some c =>
    match writeParts (headPieces s cid c) cid { c with step := keptStep s cid } .saved base s with
    | (s1, none) => (releaseCtx cid base s1, none)
    | failed => failed

/-- Sub-step n of a save to base: the image of group n, and after the last group the rest (R367, R369, log 102). -/
def saveSub (cid base n : Nat) (s : State) : State × Option Nat :=
  match (ctxGroups s cid)[n]? with
  | some e => saveGroupAt base e.1 s
  | none => saveHead cid base s

/-- Sub-step n of a save, as the context engine does it: a write that takes a stage-2 fault leaves the context held and tells the host
(R368). True where it was written. -/
def saveStep (cid base n : Nat) (s : State) : State × Bool :=
  match ctx? s cid with
  | none => (s, false)
  | some c =>
    match saveSub cid base n s with
    | (s1, none) => (s1, true)
    | (s1, some gpa) => (saveFault cid c gpa s1, false)

/-- All the sub-steps of a save. True where the context is saved. -/
def saveCtx (cid base : Nat) (s : State) : State × Bool :=
  (List.range ((ctxGroups s cid).length + 1)).foldl (fun acc n => if acc.2 then saveStep cid base n acc.1 else acc) (s, (ctx? s cid).isSome)

/-! ### Loading and resuming -/

/-- Tags of a context of this package are dropped at its homes (R352). -/
def dropTags (pkg cid : Nat) (s : State) : State :=
  { s with tags := s.tags.filter fun t => !(t.pkg == pkg && (t.tag.extractLsb' 20 12).toNat == cid) }

/-- The packages that this package can reach. -/
def reachable (s : State) : List Nat := (s.tabs.routes.filter fun e => e.2.getLsbD 111).map (·.1)

/-- The numbers of a context's packets begin again, and every receiver is told (R322, R352). -/
def sendNotices (cid : Nat) (s : State) : State :=
  { s with fab := { s.fab with notices := s.fab.notices ++ (reachable s).map fun d => (d, cid)
                               dseq := s.fab.dseq.filter fun e => e.1 != cid
                               flowlets := s.fab.flowlets.filter fun f => !(f.ctx == cid && (f.plane == 1 || f.plane == 2))
                               cuts := s.fab.cuts.filter fun c => hdrCtx c.2.hdr != cid } }

/-- The reset of a context (R370). -/
def resetCtx (cid : Nat) (s : State) : State :=
  let clear (c : Ctx) : Ctx := { c with rst := false, sticky := false, sat := false, armed := [], armedHead := 0, cut := [] }
  sendNotices cid (dropTags s.selfPkg cid (modCtx cid (fun c => { clear c with tls := c.tls.map fun t => { t with err := false } }) s))

/-- After a reset the save area's RST is clear, its cut table and its armed ring are empty (R370). -/
def resetArea (cid : Nat) (s : State) : State :=
  match ctx? s cid with
  | none => s
  | some c =>
    let put (off : Nat) (bs : List Byte) (s : State) : State := (gpaWrite c.part (c.savebase.toNat + off) bs s).1
    put 4 (((descBytes cid c c.mode c.savebase.toNat 0).drop 4).take 4) (put 0x200 (zeros 3584) (put 0x1000 (zeros 64) s))

def loadCtx (cid base : Nat) (s : State) : State × Bool :=
  match ctx? s cid with
  | none => (s, false)
  | some c =>
    match loadImage cid base c s with
    | none => (s, false)
    | some s1 => (if ((ctx? s1 cid).map (·.rst)).getD false then resetArea cid (resetCtx cid s1) else s1, true)

/-- A rank as its records are about to be injected: one that waited for an operand still waits. -/
def thawRank (clk : Nat) (k : Rank) : Rank :=
  { k with live := [], readyAt := clk, st := if k.st = .issuing then .ready else k.st, active := if k.st = .issuing then 0 else k.active,
           waitFor := if k.waitFor = .stopped then .none else k.waitFor }

/-- What the next word of a rank that waits for an operand waits for: an image does not hold it (R364). -/
def waitAgain (g r : Nat) (s : State) : WaitFor :=
  match group? s g, rank? s g r with
  | some x, some k =>
    match ctx? s x.ctx, choosePath k with
    | some c, some (pc, m) =>
      match (fetchBytes x.ctx x.core c pc s).2 with
      | .bytes bs =>
        match decodeWord (.rank k.budget) (wordOfBytes bs) with
        | .ok i =>
          let u : Iss := { g := g, r := r, x := x, k := k, c := c, pc := pc, active := m,
                           ex := m &&& guardMask k (Fields.ofWord (wordOfBytes bs)).ctl }
          match breakCause s u i, fenceWait i u.ex, (engineForm i).bind fun f => cmdEngine s f.1 x.core c.part with
          | some b, _, _ => b.waits
          | none, some v, _ => v
          | none, none, some e => .room e
          | none, none, none => .none
        | .error _ => .none
      | _ => .none
    | _, _ => .none
  | _, _ => .none

/-- Thawed ranks test their waits again before they count as ready (R218). -/
def testWaits (g : Nat) (s : State) : State :=
  match group? s g with
  | none => s
  | some x => x.ranks.foldl (fun s k =>
      if k.st = .waitOperand ∧ k.waitFor = .none then
        let v := waitAgain g k.idx s
        modRank g k.idx (fun k => { k with waitFor := v, fillLine := match v with
          | .line n => some n
          | _ => k.fillLine }) s
      else s) s

/-- Every record of a group is injected again (R353, R357). -/
def thawGroup (g : Nat) (s : State) : State :=
  match group? s g with
  | none => s
  | some x =>
    let s1 := modGroup g (fun x => { x with frozen := false, ranks := x.ranks.map (thawRank s.clk) }) s
    let gone (e : Entry) : Bool := e.drop && e.state != .ctxStep
    let inject (s : State) (k : Rank) : State :=
      injectAll g k.idx ((k.live.filter fun (e : Entry) => !gone e).map (Entry.upToDate s))
        ((k.live.filter gone).foldl (fun s e => dropEntry g k.idx x e s) s)
    let s2 := x.ranks.foldl inject s1
    x.seq.recs.foldl (fun s r => settleMepi g r.id s) (testWaits g s2)

/-- What is left of the packets that were cut is sent first, on the path that it had; then those packets whole, for a receiver that had no
room to keep their first flits and sent on by it in the order of FSEQ: one that had room discards them by FSEQ; then what had not begun
(R355, log 88). -/
def joinCuts (cid : Nat) (s : State) : State :=
  let mine := s.fab.cuts.filter fun c => c.2.ofCtx cid
  let begun (c : Nat × PortFlit) : Bool := (mine.find? fun d => d.2.hdr == c.2.hdr).any fun d => d.2.flit.fidx != 0
  let whole (n : Nat) : List PortFlit := (s.fab.unacked.filter fun u => u.ctx == cid && mine.any fun c => c.1 == n && begun c && c.2.isOf u.packet).flatMap fun u =>
    let bs := packetBytes u.packet
    (flitsOf u.packet.plane bs).map fun f => { input := 16, hdr := headerOf bs, flit := f }
  let held (n : Nat) (first : Bool) : List PortFlit := (mine.filter fun c => c.1 == n && begun c == first).map (·.2)
  let s1 := { s with fab := { s.fab with cuts := s.fab.cuts.filter fun c => !c.2.ofCtx cid } }
  (List.range s.fab.ports.length).foldl (fun s n =>
    modPort n (fun q => { q with waiting := held n true ++ whole n ++ held n false ++ q.waiting }) s) s1

/-- CTX.res (R367): the armed ring is performed, the records are injected again, and the ranks are thawed. -/
def resumeCtx (cid : Nat) (s : State) : State :=
  let s1 := joinCuts cid (fireArmed cid (modCtx cid (fun c => { c with mode := .running, yieldPending := false, deadline := 0, thermal := false }) s))
  let gs := (ctxGroups s1 cid).map (·.1)
  let s2 := wake (gs.foldl (fun s g => thawGroup g s) s1)
  let s3 := gs.foldl (fun s g => settleGroup g s) s2
  (s3.launches.filter fun e => e.2.owner == cid).foldl (fun s e => settleLaunch e.1 s) s3

/-! ### Register lines (R209, R210) -/

/-- A resident line of a frozen rank on a lane: its group, rank and number (log 86). -/
def evictable (s : State) (core lane : Nat) : Option (Nat × Group × Rank × Nat) :=
  (s.groups.filter fun e => e.2.core == core && e.2.frozen).findSome? fun e =>
    (e.2.ranks.filter fun k => k.lane == lane && k.st != .retired).findSome? fun k =>
      (k.linesUsed.find? fun n => !k.away.contains n).map fun n => (e.1, e.2, k, n)

/-- A miss on the lane evicts it: a dirty line is written to its image. One that cannot be written stays. -/
def evictLine (core lane : Nat) (s : State) : State :=
  match evictable s core lane with
  | none => s
  | some (g, x, k, n) =>
    let out := modRank g k.idx fun k => { k with away := n :: k.away, dirty := k.dirty.erase n, v := k.v.filter fun e => e.1 / 32 != n }
    match ctx? s x.ctx with
    | none => s
    | some c =>
      if !k.dirty.contains n then out s
      else match gpaWrite c.part (lineGpa c x k.idx n) (lineBytes k.v n) s with
        | (s1, none) => out s1
        | (_, some _) => s

/-- LINE_FILL: a register line comes back from its rank's image (R209, R210), once the image's lines are here; the miss evicts a line of a
frozen rank. -/
def execLineFill (g r : Nat) (s : State) : Out := held s <|
  match group? s g, rank? s g r with
  | some x, some k =>
    match k.fillLine, ctx? s x.ctx with
    | some n, some c =>
      if x.frozen then idle s
      else
        match bringLine c g x r n s with
        | (s1, true) => .next (wake (evictLine x.core k.lane s1))
        | (s1, false) => .next s1
    | _, _ => idle s
  | _, _ => idle s

/-! ### Steps -/

/-- The partition of a context by the package's tables. -/
def tablePart (s : State) (cid : Nat) : Nat := CtxTab.part (ctxEntry s cid)

/-- The event record of a finished step, and the issuer's entry goes (R181, R369, R395). -/
def reportStep (st : CtxStep) (status : BitVec 16) (s : State) : State :=
  match st.issuer with
  | some (c, g, r, e, pc) =>
    let launch := ((group? s g).map (·.launchid)).getD 0
    settleGroup g (wake (postCtx c { source := 7, status := status, cmdaddr := pc, counta := st.target, countb := st.kind, launch := launch }
      (modRank g r (fun k => { k with live := k.live.filter fun (y : Entry) => !st.ofEntry y }) s)))
  | none =>
    if st.kind < 4 then
      postHost { source := 7, status := status, ctx := st.target, part := tablePart s st.target, counta := st.target, countb := st.kind } s
    else s

/-- The step leaves the engine and the target's descriptor. -/
def closeStep (st : CtxStep) (status : BitVec 16) (s : State) : State :=
  let s1 := { s with steps := s.steps.filter fun (y : CtxStep) => y.id ≠ st.id }
  reportStep st status (noteState st.target (modCtx st.target (fun c => { c with step := keptStep s1 st.target }) s1))

/-- The step reaches the boundary before sub-step n, which the issuer's entry and the target's descriptor record (R369). -/
def boundary (st : CtxStep) (n : Nat) (s : State) : State :=
  let st1 := { st with prog := n }
  let mark (y : Entry) : Entry := if st.ofEntry y then { y with prog := n } else y
  let s1 := { s with steps := s.steps.map fun (y : CtxStep) => if y.id = st.id then st1 else y }
  let s2 := match st.issuer with
    | some (_, g, r, _, _) => modRank g r (fun k => { k with live := k.live.map mark }) s1
    | none => s1
  noteState st.target (modCtx st.target (fun c => { c with step := st1.code }) s2)

/-- The step waits for a yield. -/
def CtxStep.yields (st : CtxStep) : Bool := (st.kind == 0 || st.kind == 5) && st.prog == 1

/-- An earlier step of the same target comes first, but for one that waits for a yield and one whose issuer is frozen (R369). -/
def stepBlocked (s : State) (st : CtxStep) : Bool :=
  s.steps.any fun y => y.target == st.target && decide (y.id < st.id) && !y.yields && issuerRuns s y

/-- The step is one that its target's state or the issuer forbids (R181, R382). -/
def stepRefused (st : CtxStep) (c : Ctx) : Bool :=
  (st.issuer.map (·.1)) == some st.target || c.bearoff ||
  !(match st.kind with
    | 0 => c.mode == .running
    | 1 => c.mode == .frozen || c.mode == .held
    | 2 => c.mode == .saved
    | _ => c.mode == .frozen)

/-- Can the step be finished or begun now? -/
def stepReady (s : State) (st : CtxStep) : Bool :=
  issuerRuns s st && !stepBlocked s st &&
  match ctx? s st.target with
  | none => true
  | some c =>
    if st.yields then c.mode != .running
    else if st.kind = 3 then !s.plat.hot || stepRefused st c
    else true

/-- The bear-off controller's record of a finished checkpoint (R384). -/
def postCheckpoint (reqid : Word) (cid bytes : Nat) (s : State) : State :=
  let count (b : BearReq) : BearReq := if b.reqid = reqid then { b with checkpointed := b.checkpointed + 1 } else b
  postHost { source := 8, cmdaddr := reqid.setWidth 64, counta := cid, countb := bytes, progress := s.clk }
    { s with plat := { s.plat with bearoffs := s.plat.bearoffs.map count } }

/-- The work of a step on a target that takes it. -/
def doStep (st : CtxStep) (c : Ctx) (s : State) : State :=
  match st.kind with
  | 0 =>
    if st.prog = 1 then closeStep st (if c.mode = .held then 0x000A else 0) s
    else
      let s1 := startFreeze st.target c s
      if ctxActive s1 st.target then boundary st 1 s1 else closeStep st 0 s1
  | 1 =>
    let last := st.prog == (ctxGroups s st.target).length
    if c.mode ≠ .frozen ∧ c.mode ≠ .held then closeStep st 0x000A s
    else match saveStep st.target st.area.toNat st.prog s with
    | (s1, true) => if last then closeStep st 0 s1 else boundary st (st.prog + 1) s1
    | (s1, false) => closeStep st 0x000A s1
  | 2 =>
    match loadCtx st.target st.area.toNat s with
    | (s1, true) => closeStep st 0 s1
    | (s1, false) => closeStep st 0x000A s1
  | 3 => closeStep st 0 (resumeCtx st.target s)
  | 4 => closeStep st 0 (if c.mode = .frozen then (saveCtx st.target c.savebase.toNat s).1 else s)
  | _ =>
    if c.mode = .running ∧ st.prog = 0 then
      boundary st 1 (if st.area = 1 then startFreeze st.target c s else freezeCtx st.target s)
    else
      let bytes := ctxSaveBytes s st.target
      let done (s : State) : State := closeStep st 0 (modCtx st.target (fun c => { c with bearoff := false }) s)
      if c.mode = .frozen then
        match saveCtx st.target c.savebase.toNat s with
        | (s1, true) => postCheckpoint (st.bearReq.getD 0) st.target bytes (done s1)
        | (s1, false) => closeStep st 0 s1
      else done s

/-! ### The package control block (R394) -/

/-- A rejected store is reported to the host queue. -/
def pcbReject (source : Nat) (off concerned : Nat) (s : State) : State :=
  postHost { source := source, status := 0x000A, cmdaddr := BitVec.ofNat 64 off, counta := concerned } s

/-- A store into a table of entries of w bytes that stands at base: its effect where it is one aligned store of one entry; else a
report with the entry it lies in, or 0. -/
def pcbStore (source base size w : Nat) (st : PcbStore) (effect : Nat → Nat → State → State) (s : State) : Out :=
  if st.off < base ∨ base + size ≤ st.off ∨ !st.hyper then idle s
  else
    let o := st.off - base
    let one := decide (o % w + st.data.length ≤ w)
    if o % w = 0 ∧ st.data.length = w then .next (effect (o / w) (leNat st.data) s)
    else .next (pcbReject source st.off (if one then o / w else 0) s)

/-- A launch of the queue has not completed. -/
def queueBusy (s : State) (q : Nat) : Bool := s.launches.any fun e => e.2.queue == q

/-- QUEUE_TABLE_WRITE (R192). -/
def execQueueTableWrite (st : PcbStore) (s : State) : Out := heldPlat s <|
  pcbStore 6 0 0x8000 8 st (fun q v s =>
    let e : BitVec 64 := BitVec.ofNat 64 v
    if v % 2 ^ 48 ≠ 0 ∨ (Queue.en e ∧ !CtxTab.valid (ctxEntry s (Queue.own e))) ∨
        (Queue.own e ≠ Queue.own (queueEntry s q) ∧ queueBusy s q) then pcbReject 6 st.off q s
    else { s with tabs := { s.tabs with queues := sput 0 q e s.tabs.queues } }) s

/-- A context as the host creates it: saved, its registers in its descriptor (R363). -/
def Ctx.created (part : Nat) (save : Nat) : Ctx where
  mode := .saved
  step := 0
  part := part
  key := 0
  host := false
  rst := true
  trapvec := 0
  yvec := 0
  budget := 40000
  deadline := 0
  sticky := false
  yieldPending := false
  saveva := 0
  savebase := BitVec.ofNat 64 save
  evqbase := 0
  energy := 0
  sat := false
  enwt := 0
  weights := []
  s1pt := 0
  s1rt := 0
  s1rn := 0
  tagSeq := 0
  tls := List.replicate 6 Timeline.zero
  keyEpoch := 0
  armed := []
  savedGroups := []
  landed := []
  cut := []
  thermal := false
  bearoff := false
  saveBytes := 0

def ctxMax (s : State) (part : Nat) : Nat := bits (partOf s part).qos.toNat 12 13
def ctxCount (s : State) (part : Nat) : Nat := (s.tabs.ctxs.filter fun e => CtxTab.valid e.2 && CtxTab.part e.2 == part).length

/-- A line tagged with a context's identifier goes back to its home where it is dirty (R266). -/
def flushTagged (cid : Nat) (s : State) : State :=
  let lines := (s.l2.filter fun e => e.2.ctx == cid).map (·.1)
  let s1 := lines.foldl (fun s n => giveLine n s) s
  { s1 with l1 := s1.l1.filter fun c => c.ctx != cid
            icopies := s1.icopies.filter fun c => c.ctx != cid
            tlb := s1.tlb.filter fun t => !(t.stage == 1 && t.tag == cid) }

/-- The end of a context: its lines and tags go (R266, R352), and what its engines kept. -/
def endCtx (cid : Nat) (s : State) : State :=
  let s1 := sendNotices cid (dropTags s.selfPkg cid (flushTagged cid s))
  { s1 with ctxs := sdel cid s1.ctxs
            cmds := s1.cmds.filter fun e => e.2.ctx != cid
            fab := { s1.fab with unacked := s1.fab.unacked.filter fun u => u.ctx != cid
                                 xsops := s1.fab.xsops.filter fun o => o.ctx != cid } }

def setCtxEntry (cid : Nat) (e : BitVec 64) (s : State) : State := { s with tabs := { s.tabs with ctxs := sput 0 cid e s.tabs.ctxs } }

/-- CONTEXT_TABLE_WRITE (R363): VALID 1 creates a context, VALID 0 ends a saved one. -/
def execContextTableWrite (st : PcbStore) (s : State) : Out := heldPlat s <|
  pcbStore 7 0x8000 0x8000 8 st (fun cid v s =>
    let e : BitVec 64 := BitVec.ofNat 64 v
    let was := CtxTab.valid (ctxEntry s cid)
    if v % 2 ^ 12 ≠ 0 ∨ bits v 48 9 ≠ 0 then pcbReject 7 st.off cid s
    else if CtxTab.valid e then
      if was || decide (ctxMax s (CtxTab.part e) ≤ ctxCount s (CtxTab.part e)) then pcbReject 7 st.off cid s
      else setCtxEntry cid e { s with ctxs := sset cid (Ctx.created (CtxTab.part e) (CtxTab.save e)) s.ctxs }
    else if was && ((ctx? s cid).map (·.mode)) != some .saved then pcbReject 7 st.off cid s
    else setCtxEntry cid e (if was then endCtx cid s else s)) s

/-- HOST_CONTEXT_TABLE_WRITE (R394). -/
def execHostContextTableWrite (st : PcbStore) (s : State) : Out := heldPlat s <|
  pcbStore 6 0x10000 0x80 2 st (fun part v s =>
    if bits v 12 3 ≠ 0 then pcbReject 6 st.off part s
    else { s with tabs := { s.tabs with hostCtx := sput 0 part (BitVec.ofNat 16 v) s.tabs.hostCtx } }) s

/-- The offset stands in a part of the block that is zero or reserved. -/
def pcbZero (off : Nat) : Bool := (decide (0x10088 ≤ off) && decide (off < 0x100C0)) || (decide (0x10100 ≤ off) && decide (off < Config.pcbBytes))

/-- HEVQ_WRITE (R394): a rejected write is reported to the queue that HEVQ still names, and is dropped where that is 0. A store to the
parts of the block that are zero or reserved is rejected in the same way (log 103). -/
def execHevqWrite (st : PcbStore) (s : State) : Out := heldPlat s <|
  if pcbZero st.off && st.hyper then .next (pcbReject 6 st.off 0 s)
  else pcbStore 6 0x10080 8 8 st (fun _ v s =>
    if v % 64 ≠ 0 then pcbReject 6 st.off 0 s else { s with tabs := { s.tabs with hevq := BitVec.ofNat 64 v } }) s

/-- A store to the context-step window (R395); kind is the step whose stores this event takes: one of another valid step is that step's
event. -/
def windowStep (kind : Nat) (st : PcbStore) (s : State) : Out :=
  let d := st.data
  let area := field d 8 8
  let ok := st.off == 0x100C0 && d.length == 64 && decide (field d 0 4 < 4) && decide (field d 4 4 < 4096) && zeroBytes d 16 48 &&
    area % 4096 == 0 && (field d 0 4 == 1 || field d 0 4 == 2 || area == 0)
  if st.off < 0x100C0 ∨ 0x10100 ≤ st.off ∨ !st.hyper then idle s
  else if !ok then .next (pcbReject 7 st.off (if d.length = 64 then field d 4 4 % 4096 else 0) s)
  else if field d 0 4 ≠ kind then idle s
  else .next (acceptStep (field d 4 4) kind (BitVec.ofNat 64 area) none s)

def execCtxStepWindowFrz (st : PcbStore) (s : State) : Out := held s <| windowStep 0 st s
def execCtxStepWindowSav (st : PcbStore) (s : State) : Out := held s <| windowStep 1 st s
def execCtxStepWindowLd (st : PcbStore) (s : State) : Out := held s <| windowStep 2 st s
def execCtxStepWindowRes (st : PcbStore) (s : State) : Out := held s <| windowStep 3 st s

/-- What a hypervisor-level read of the block gives: its tables, HEVQ, and zero elsewhere, the context-step window too (R394, R395). -/
def pcbByte (s : State) (off : Nat) : Byte :=
  if off < 0x8000 then byteOf (queueEntry s (off / 8)).toNat (off % 8)
  else if off < 0x10000 then byteOf (ctxEntry s ((off - 0x8000) / 8)).toNat (off % 8)
  else if off < 0x10080 then byteOf (sgetD ((off - 0x10000) / 2) 0 s.tabs.hostCtx).toNat (off % 2)
  else if off < 0x10088 then byteOf s.tabs.hevq.toNat (off % 8)
  else 0
where
  /-- Byte i of a value. -/
  byteOf (v i : Nat) : Byte := BitVec.ofNat 8 (v / 256 ^ i)

/-- A control core's store into the block is the event of the table or window it reaches. -/
def pcbEvent (st : PcbStore) (s : State) : Out :=
  if st.off < 0x8000 then execQueueTableWrite st s
  else if st.off < 0x10000 then execContextTableWrite st s
  else if st.off < 0x10080 then execHostContextTableWrite st s
  else if st.off < 0x100C0 ∨ 0x10100 ≤ st.off then execHevqWrite st s
  else windowStep (if field st.data 0 4 < 4 then field st.data 0 4 else 0) st s

end Sys2Proof.Machine
end

