-- ==== Sys2Proof/Machine/Fabric.lean ====
section
/-! DEFINITION. The tensor plane at this package (R315 to R322): what arrives from other packages is decrypted, put in order and
performed; answers come back to their operations; and what is sent again. -/

set_option linter.unusedVariables false

namespace Sys2Proof.Machine

/-! ### Answers to this package's requests -/

def modUnacked (f : Unacked → Unacked) (s : State) : State := { s with fab := { s.fab with unacked := s.fab.unacked.map f } }

def sameUnacked (u v : Unacked) : Bool := u.ctx == v.ctx && u.packet.dst == v.packet.dst && u.packet.dseq == v.packet.dseq && u.packet.tag == v.packet.tag

def dropUnacked (u : Unacked) (s : State) : State :=
  { s with fab := { s.fab with unacked := s.fab.unacked.filter fun v => !sameUnacked u v } }

/-- A control-space request: ADDR is a control physical address (log 24). -/
def isControlAddr (p : Long) : Bool := ptrSpace p == .control

/-- The cause of a rank's fault for a status, where the refusal does not say which check failed (log 22). -/
def refusalCause (status : BitVec 16) (k : Fin 3) : BitVec 16 :=
  if status = 0x0004 then 0x1A
  else if status = 0x0005 then 0x16
  else if status = 0x0003 then 0x14
  else if status = 0x0009 then (if k = 0 then 0x19 else 0x18)
  else if k = 0 then 0x15 else if k = 1 then 0x16 else 0x17

/-- The fault that a home port's refusal carries after its status: cause and TVAL (R290, log 22). -/
def denial (cause : BitVec 16) (tval : Long) : List Byte := leBytes cause.toNat 2 ++ leBytes tval.toNat 8

def deniedFor (data : List Byte) : Option (BitVec 16 × Long) :=
  if data.length = 10 then some (BitVec.ofNat 16 (field data 0 2), BitVec.ofNat 64 (field data 2 8)) else none

/-- An atomic of the group's core was performed at another home: the core's copies of its sector are evicted, so that its later loads see it
(R264). -/
def dropCopies (g dpa : Nat) (s : State) : State :=
  match group? s g with
  | some x => { s with l1 := s.l1.filter fun c => !(c.core == x.core && c.sector == dpa / 128) }
  | none => s

/-- An operation of a rank is answered: its piece is reported, its counter falls and tl.xs advances. A posted operation that ends
with "home lost" or "landing refused" raises no fault (R136, R319). -/
def ackEntry (g r e t : Nat) (u : Unacked) (status : BitVec 16) (result : List Byte) (s : State) : State :=
  let returning := match rank? s g r with
    | some k => k.live.any fun (y : Entry) => y.id == e && !isPostedWord y.word
    | none => false
  let who : Issuer := { group := g, rank := r, entry := e }
  let s1 := if status = 0 then reportTo who t u.off (.value result) s
    else if !returning && !isControlAddr u.packet.addr && (status == 0x0004 || status == 0x0005) then reportTo who t u.off (.value []) s
    else match deniedFor result with
      | some d => reportTo who t u.off (.bad d.1 d.2) s
      | none => reportTo who t u.off (.bad (refusalCause status (Config.refusedFor s.free)) u.packet.addr) { s with free := s.free + 1 }
  let s1 := if u.acqWide && status == 0 then acquireFor g r (if u.uni then List.range 32 else [t]) u.access s.fresh s1 else s1
  if isControlAddr u.packet.addr then trafficEnds g (dropCopies g u.packet.addr.toNat s1)
  else xsDone u.ctx u.packet.tag status (countDown g r u.packet.dst.toNat u.packet.path.toNat s1)

/-- A home refused an access of an engine command: a translation fault pauses it at its progress point, all else stops it (R153). -/
def cmdRefused (k : Nat) (u : Unacked) (status : BitVec 16) (result : List Byte) (s : State) : State :=
  let d := (deniedFor result).getD (0x14, u.packet.addr)
  match sget k s.cmds with
  | none => s
  | some c =>
    if status ≠ 0x0003 ∨ c.kind = .coll ∨ c.status ≠ 0 then stopCmd k status s
    else if c.st = .running then pauseCmd k c.freeze d.1 d.2 (freezeCmdsOf (· == k) s)
    else freezeCmdsOf (· == k) s

/-- A write, add or read of an engine command is answered. -/
def ackCmd (k : Nat) (u : Unacked) (status : BitVec 16) (result : List Byte) (s : State) : State :=
  if u.packet.kind = 0x04 then (if status = 0 then s else cmdRefused k u status result s)
  else
    let s1 := modCmd k (fun c => { c with unacked := c.unacked - 1 }) s
    if status = 0 then s1 else cmdRefused k u status result s1

/-- An acknowledgement or a final refusal reaches the operation it answers. What was cut hears nothing of it: its status is kept for
the handler that drops it (R341, R354). -/
def answered (u : Unacked) (status : BitVec 16) (result : List Byte) (s : State) : State :=
  if u.stale then modUnacked (fun v => if sameUnacked u v then { v with acked := some status, retryAt := none } else v) s
  else
    let s1 := dropUnacked u s
    match u.owner with
    | .entry g r e t => ackEntry g r e t u status result s1
    | .cmd k => ackCmd k u status result s1
    | .piece k n i =>
      let s2 := pieceAcked k n i (landed u.packet) (status == 0) s1
      if status = 0 then s2 else cmdRefused k u status result s2
    | .mepi g id row => ackMepi g id row u.packet.data.length (u.packet.kind != 0x01) status
        (((deniedFor result).map fun d => d.2.toNat).getD 0) s1
    | .prefetchLine | .mirror | .ctl _ | .reply _ => s1

/-- The request that a packet answers: its context, home, tag and address are the answer's. -/
def requestFor (s : State) (p : Packet) : Option Unacked :=
  s.fab.unacked.find? fun u => u.ctx == p.sctx.toNat && u.packet.dst == p.src && u.packet.tag == p.tag && u.packet.addr == p.addr

/-! ### Answers of this package -/

/-- The answer to a packet, on its plane and under its key. -/
def answerTo (p : Packet) (kind : BitVec 8) (status : BitVec 16) (data : List Byte) : Packet :=
  { Packet.empty with dst := p.src, sctx := p.sctx, keyid := p.keyid, kind := kind, plane := p.plane, flabel := p.flabel, addr := p.addr,
                      tag := p.tag, status := status.setWidth 8, data := data, part := p.part }

def respond' (p : Packet) (kind : BitVec 8) (status : BitVec 16) (data : List Byte) (s : State) : Packet :=
  stamped (answerTo p kind status data) none s

/-- An answer leaves; one to a request of this package, which a taken-over region makes possible (R302), is delivered at once. -/
def reply (p : Packet) (kind : BitVec 8) (status : BitVec 16) (data : List Byte) (s : State) : State :=
  if p.src = s.tabs.self then
    match s.fab.unacked.find? fun u => u.ctx == p.sctx.toNat && u.packet.dseq == p.dseq && u.packet.tag == p.tag with
    | some u => answered u status data s
    | none => s
  else sendOut (answerTo p kind status data) s

/-- A refusal of the home port. -/
def deny (p : Packet) (status cause : BitVec 16) (tval : Long) (s : State) : State := reply p 0x07 status (denial cause tval) s

def ackTo (p : Packet) (data : List Byte) (s : State) : State := reply p 0x06 0 data s
def refuse (p : Packet) (status : BitVec 16) (s : State) : State := reply p 0x07 status [] s

/-- A packet whose seal does not verify is refused (R319), under key 0, since this package has no key for it; the refusal says which
kind it refuses (log 89). -/
def refuseSeal (p : Packet) (s : State) : State :=
  if p.src = s.tabs.self then reply { p with keyid := 0 } 0x07 0x0005 [] s
  else sendOut { answerTo { p with keyid := 0 } 0x07 0x0005 [] with opinfo := p.kind } s

/-! ### Performing at the home -/

def askerOf (p : Packet) : Asker := { pkg := p.src.toNat, ctx := p.sctx.toNat, key := p.keyid, part := p.part.toNat }

/-- A remote agent writes: no core's L1 follows (R265). -/
def writerOf (p : Packet) : Writer := { core := none, ctx := p.sctx.toNat, pkg := some p.src }

/-- The home port's answer for a packet (R290): the whole access is checked before a piece of it is placed. A failed row and a line that is elsewhere included. -/
inductive PortSays where
  | ok (dpa : Nat) | refused (status cause : BitVec 16) (tval : Long) | wait (dpa : Nat) (write : Bool)
  deriving DecidableEq, Repr, Inhabited

def portSays (p : Packet) (size : Nat) (r : BufRight) (s : State) : PortSays :=
  let ready (dpa : Nat) : PortSays := if lineReady s dpa (r != .rd) then .ok dpa else .wait dpa (r != .rd)
  if isControlAddr p.addr then
    if regionLost s p.addr.toNat then .refused 0x0004 0x1A p.addr
    else if r != .wr && rowFailed s p.addr.toNat then .refused 0x0009 0x19 p.addr else ready p.addr.toNat
  else
    let w := p.whole.getD (p.addr, size)
    match portPieces s (askerOf p) (ptrBuf w.1) (ptrOff w.1) w.2 r with
    | .lacks d => .wait d false
    | .bad (.stage2 gpa) _ => .refused 0x0003 0x14 (BitVec.ofNat 64 gpa)
    | .bad a off => .refused a.status a.cause (if off = 0 then w.1 else ptrAdd w.1 off)
    | .ok _ =>
      match portPlace s p.part.toNat (ptrBuf p.addr) (ptrOff p.addr) r with
      | .ok dpa => if r != .wr && rowFailed s dpa then .refused 0x0009 0x19 p.addr else ready dpa
      | .lacks d => .wait d false
      | .stage2 gpa => .refused 0x0003 0x14 (BitVec.ofNat 64 gpa)
      | a => .refused a.status a.cause p.addr

def noteWrite (p : Packet) (s : State) : State :=
  if isControlAddr p.addr then s else noteWritten p.part.toNat (ptrBuf p.addr) (ptrOff p.addr) s

/-- A class-S request is performed once: its retained result answers it again (R352). Where the line is mirrored the answer waits for
the mirror (R328). -/
def performTagged (p : Packet) (dpa : Nat) (result : List Byte) (effect : State → State) (s : State) : State :=
  match findTag s p.src.toNat p.tag (granuleOf dpa) with
  | some r =>
    if mirrorPending s p.src.toNat p.tag (granuleOf dpa) then
      joinMirror p.src.toNat p.tag (granuleOf dpa) (fun m => { m with owner := .reply p }) s
    else ackTo p r s
  | none =>
    let s1 := keepTag p.src.toNat p.tag (granuleOf dpa) result (noteWrite p (effect s))
    if homedHere s dpa && (mirrorOf s dpa).isSome && s1.fresh != s.fresh then
      { s1 with mirrorq := s1.mirrorq ++ [{ tag := s.fresh, owner := .reply p, off := 0, access := 0, granule := granuleOf dpa, result := result,
                                            mirror := (mirrorOf s dpa).getD 0,
                                            guards := some (p.src.toNat, p.tag, granuleOf dpa) }] }
    else ackTo p result s1

def exposeWrite (p : Packet) (s : State) : State :=
  match portSays p p.data.length .wr s with
  | .refused st c v => deny p st c v s
  | .wait dpa w => askLine s dpa w
  | .ok dpa => performTagged p dpa [] (homeWrite (writerOf p) none (some (p.tag, [])) dpa p.data) s

/-- A granule add of SCADD carries its elements (log 27). -/
def isGranuleAdd (p : Packet) : Bool := p.kind == 0x03 && p.len == p.data.length && p.len != 0

def atomSize (p : Packet) : Nat :=
  if isGranuleAdd p then (if p.ty = .bf16 then p.data.length / 2 else p.data.length) else p.len

def atomResult (p : Packet) (op : AtomFn) (old : List Byte) : List Byte :=
  if isGranuleAdd p then addGranule (p.ty == .bf16) old p.data
  else leBytes (atomNew op p.ty (leNat old) (field p.data 0 8 % 2 ^ Ty.bits p.ty) (field p.data 8 8)) p.len

/-- An atomic (R132, R316). An operation code that names no operation is discarded (log 11). -/
def exposeAtomic (p : Packet) (s : State) : State :=
  match AtomFn.ofCode (p.opinfo.extractLsb' 0 4) with
  | none => s
  | some op =>
    match portSays p (atomSize p) .at s with
    | .refused st c v => deny p st c v s
    | .wait dpa w => askLine s dpa w
    | .ok dpa =>
      let old := homeRead s dpa (atomSize p)
      let result := if p.kind = 0x02 then old else []
      performTagged p dpa result (fun s => homeWrite (writerOf p) none (some (p.tag, result)) dpa (atomResult p op old) s) s

def exposeRead (p : Packet) (s : State) : State :=
  match portSays p p.len .rd s with
  | .refused st c v => deny p st c v s
  | .wait dpa w => askLine s dpa w
  | .ok dpa => reply p 0x05 0 (homeRead s dpa p.len) s

/-- A slab row (R172, R236, R356); its tag is retained with its row. -/
def exposeRow (p : Packet) (s : State) : State :=
  let core := rowCore p
  let phys := rowSlab p
  let row := rowIndex p
  if (findTag s p.src.toNat p.tag (rowTarget core phys row)).isSome then ackTo p [] s
  else
    match landRow p s with
    | (s1, .done) =>
      let s2 := ackTo p [] (keepTag p.src.toNat p.tag (rowTarget core phys row) [] s1)
      match sget (core * 8 + phys) s.slabs with
      | some b => trafficEnds b.group s2
      | none => s2
    | (s1, .refused) => refuse p 0x0005 s1
    | (s1, .retry) => refuse p 0x000E s1

def exposePacket (p : Packet) (s : State) : State :=
  if p.kind = 0x01 then exposeWrite p s
  else if p.kind = 0x02 ∨ p.kind = 0x03 then exposeAtomic p s
  else if p.kind = 0x04 then exposeRead p s
  else if p.kind = 0x08 ∨ p.kind = 0x09 then exposeRow p s
  else if p.kind = 0x0A ∨ p.kind = 0x0B then ackTo p [] (collReceive p s)
  else s

/-! ### Order of exposure (R320, R322) -/

def expected (s : State) (p : Packet) : BitVec 16 :=
  ((s.fab.expects.find? fun e => e.src == p.src.toNat && e.sctx == p.sctx.toNat && e.plane == flowClass p && e.label == p.flabel.toNat).map
    (·.fseq)).getD 0

def setExpected (p : Packet) (n : BitVec 16) (s : State) : State :=
  let others := s.fab.expects.filter fun e =>
    !(e.src == p.src.toNat && e.sctx == p.sctx.toNat && e.plane == flowClass p && e.label == p.flabel.toNat)
  let e : Expect := { src := p.src.toNat, sctx := p.sctx.toNat, plane := flowClass p, label := p.flabel.toNat, fseq := n }
  { s with fab := { s.fab with expects := others ++ [e] } }

def exposureOf (s : State) (src sctx : Nat) : Exposure :=
  (s.fab.exposures.find? fun e => e.src == src && e.sctx == sctx).getD { src := src, sctx := sctx, e := 0, above := [] }

/-- The run E grows over the sequences above it. -/
def Exposure.grow (x : Exposure) : Nat → Exposure
  | 0 => x
  | n + 1 => if x.above.contains x.e.toNat then Exposure.grow { x with e := x.e + 1, above := x.above.erase x.e.toNat } n else x

/-- Sequence d is exposed or refused. One below the run was counted before. -/
def Exposure.note (x : Exposure) (d : Word) : Exposure :=
  if 2 ^ 31 ≤ (d - x.e).toNat ∨ x.above.contains d.toNat then x
  else Exposure.grow { x with above := d.toNat :: x.above } (x.above.length + 1)

def noteExposed (p : Packet) (s : State) : State :=
  let x := exposureOf s p.src.toNat p.sctx.toNat
  let others := s.fab.exposures.filter fun e => !(e.src == p.src.toNat && e.sctx == p.sctx.toNat)
  { s with fab := { s.fab with exposures := others ++ [x.note p.dseq] } }

/-- Every lower sequence of the source context is exposed or refused. -/
def ordReady (s : State) (p : Packet) : Bool := decide ((((exposureOf s p.src.toNat p.sctx.toNat).e) - p.dseq).toNat < 2 ^ 31)

def sameFlow (p q : Packet) : Bool := p.src == q.src && p.sctx == q.sctx && p.flabel == q.flabel

/-- Another thread's reservation holds the write off (R129), its home slice has no room for its tag (R251), or its control line is not
here. -/
def packetWaits (s : State) (p : Packet) : Bool :=
  let write := p.kind == 0x01 || p.kind == 0x02 || p.kind == 0x03
  let right : BufRight := if p.kind = 0x01 then .wr else if write then .at else .rd
  if !(write || p.kind == 0x04) then false
  else
    match portSays p (if p.kind = 0x01 then p.data.length else atomSize p) right s with
    | .ok dpa => write && (findTag s p.src.toNat p.tag (granuleOf dpa)).isNone &&
        (sliceFullAt s (granuleOf dpa) || s.resv.any fun v => v.granule == granuleOf dpa && decide (s.clk < v.holdUntil))
    | .wait _ _ => true
    | .refused _ _ _ => false

/-- The packet may be exposed now. -/
def mayExpose (s : State) (before : List Packet) (p : Packet) : Bool :=
  (!p.ord || ordReady s p) && !(before.any fun q => sameFlow p q) && !packetWaits s p

/-- The first held packet that may be exposed. -/
def heldReady (s : State) : Option Nat := (List.range s.fab.held.length).find? fun i =>
  match s.fab.held[i]? with
  | some p => mayExpose s (s.fab.held.take i) p
  | none => false

def exposeNow (p : Packet) (s : State) : State := wake (noteExposed p (exposePacket p s))

/-- Held packets are exposed while one may be. -/
def releaseHeld : Nat → State → State
  | 0, s => s
  | n + 1, s =>
    match heldReady s with
    | none => s
    | some i =>
      match s.fab.held[i]? with
      | none => s
      | some p => releaseHeld n (exposeNow p { s with fab := { s.fab with held := dropAt s.fab.held i } })

def releaseAll (s : State) : State := releaseHeld s.fab.held.length s

/-- A line that a held packet waits for is asked for. -/
def askHeld (p : Packet) (s : State) : State :=
  match portSays p (atomSize p) (if p.kind = 0x04 then .rd else .at) s with
  | .wait dpa w => askLine s dpa w
  | _ => s

/-- The seal verifies under this package's entry for the packet's key (R319). -/
def sealOk (s : State) (p : Packet) : Bool := p.intact && keyOk s p.keyid.toNat && keyValue s p.keyid.toNat == p.sealKey

/-- A coherence packet under key 0. -/
def ctlSeal (s : State) (p : Packet) : Bool := p.intact && p.keyid == 0 && keyValue s 0 == p.sealKey

def hold (p : Packet) (s : State) : State := { s with fab := { s.fab with held := s.fab.held ++ [p] } }

/-- A tensor-plane request arrives: out of flowlet order it is discarded unacknowledged; under a key that does not verify it is
refused; an ordered packet waits for its turn, at most 64 of them (R319, R320, R322). -/
def receive (p : Packet) (s : State) : State :=
  if p.fseq ≠ expected s p then s
  else if !sealOk s p then releaseAll (noteExposed p (setExpected p (p.fseq + 1) (refuseSeal p s)))
  else
    if mayExpose s s.fab.held p then
      let s1 := exposeNow p (setExpected p (p.fseq + 1) s)
      releaseAll s1
    else if p.ord && !ordReady s p && decide (Config.ordLimit ≤ (s.fab.held.filter (·.ord)).length) then refuse p 0x000E s
    else askHeld p (hold p (setExpected p (p.fseq + 1) s))

/-! ### Arrivals -/

/-- Kinds of R316. -/
def kindKnown (k : BitVec 8) : Bool := (1 ≤ k.toNat && k.toNat ≤ 0x0B) || (0x10 ≤ k.toNat && k.toNat ≤ 0x18) || k == 0x20

/-- The planes of a kind (R316). -/
def planeOk (k : BitVec 8) (plane : BitVec 2) : Bool :=
  if k = 0x06 ∨ k = 0x07 then plane == 0 || plane == 1 else if k.toNat < 0x10 then plane == 1 else plane == 0

/-- A packet of a kind: one of a reserved kind, or not allowed on its plane, is discarded and reported to the fabric manager; one that is
not for this package, or longer than a body can be (R315), is not this event. -/
def arrive (kind : BitVec 8) (p : Packet) (effect : State → State) (s : State) : Out :=
  if p.dst ≠ s.tabs.self ∨ 536 < p.blen then idle s
  else if !kindKnown p.kind || !planeOk p.kind p.plane then
    .next { s with fab := { s.fab with reports := s.fab.reports ++ [.badKind p.kind.toNat] } }
  else if p.kind ≠ kind then idle s
  else .next (effect s)

def execWrite (p : Packet) (s : State) : Out := held s <| arrive 0x01 p (receive p) s
def execAtomicReturning (p : Packet) (s : State) : Out := held s <| arrive 0x02 p (receive p) s
def execAtomicNotReturning (p : Packet) (s : State) : Out := held s <| arrive 0x03 p (receive p) s
def execReadRequest (p : Packet) (s : State) : Out := held s <| arrive 0x04 p (receive p) s
def execPeerPut (p : Packet) (s : State) : Out := held s <| arrive 0x08 p (receive p) s
def execPeerAdd (p : Packet) (s : State) : Out := held s <| arrive 0x09 p (receive p) s
def execReductionContribution (p : Packet) (s : State) : Out := heldPlat s <| arrive 0x0A p (receive p) s
def execReductionResult (p : Packet) (s : State) : Out := heldPlat s <| arrive 0x0B p (receive p) s

/-- A packet of a flowlet that is exposed as it comes: out of order it is discarded (R320). -/
def inTurn (p : Packet) (effect : State → State) (s : State) : State :=
  if p.fseq ≠ expected s p then s else effect (setExpected p (p.fseq + 1) s)

/-- Read data reaches the command that asked for it. What was cut hears nothing: a collective asks again at its resume (R354). -/
def readData (p : Packet) (s : State) : State :=
  match requestFor s p with
  | none => s
  | some u =>
    match u.stale, u.owner with
    | false, .cmd k => modCmd k (fun c => { c with fetched := (u.packet.addr.toNat, p.data) :: c.fetched }) (dropUnacked u s)
    | true, .cmd k =>
      if (sget k s.cmds).any fun c => c.kind == .coll then modUnacked (fun v => if sameUnacked u v then { v with acked := some 0 } else v) s
      else dropUnacked u s
    | _, _ => dropUnacked u s

def execReadResponse (p : Packet) (s : State) : Out := held s <|
  arrive 0x05 p (inTurn p fun s => if sealOk s p then wake (readData p s) else refuseSeal p s) s

/-! ### Refusals -/

def retryDelay : Nat := Config.cyclesPerUs

/-- A retry refusal: the packet is kept and sent again 1 µs later; a MEPI row waits and holds back the rows after it (R322, R356). -/
def scheduleRetry (u : Unacked) (s : State) : State :=
  let s1 := modUnacked (fun v => if sameUnacked u v then { v with retryAt := some (s.clk + retryDelay) } else v) s
  match u.owner with
  | .mepi g id row =>
    let wait (r : SeqRec) : SeqRec := if r.id = id ∧ ¬r.waiting.contains row then { r with waiting := row :: r.waiting } else r
    modSeq g (fun q => { q with recs := q.recs.map wait }) s1
  | _ => s1

def refusalCame (p : Packet) (s : State) : State :=
  match requestFor s p with
  | none => s
  | some u => if p.status = 0x0E then scheduleRetry u s else answered u (p.status.setWidth 16) p.data s

/-- An operation of a context ends with a status that its record tells (R136, R319): the sticky error bit is set. -/
def endsRefused (ctx : Nat) (source : Nat) (pc : Long) (s : State) : State :=
  if (ctx? s ctx).isSome then postCtx ctx { source := source, status := 0x0005, cmdaddr := pc } (setSticky ctx s) else s

/-- A line request is refused: what this package's ranks have queued for the line completes with status 0x0005 (R319). A posted write ends
with the record alone; what returns a value leaves D unwritten and raises the imprecise rights fault (R124). -/
def lineRefused (kind line home : Nat) (s : State) : State :=
  let waits (a : Access) : Bool := !a.remote && ((accessDpa s a).any fun d => d / 512 == line && !lineReady s d a.isWrite)
  let posted (a : Access) : Bool :=
    (rank? s a.who.group a.who.rank).any fun k => k.live.any fun (e : Entry) => e.id == a.who.entry && isPostedWord e.word
  let gone : State := { s with homeq := s.homeq.filter fun a => !waits a, asking := s.asking.filter (· != (kind, line, home)) }
  (s.homeq.filter waits).foldl (fun t a =>
    if posted a then endsRefused a.ctx 5 a.pc (finishPiece a (.value []) t) else finishPiece a (.bad 0x16 (ptrAdd a.ptr a.off)) t) gone

/-- A refusal on the control plane: of a launch packet, which its context's record tells, or of a line request (R319, log 89). -/
def controlRefused (p : Packet) (s : State) : State :=
  let line := p.addr.toNat / 512
  if p.status ≠ 0x05 then s
  else if p.opinfo = 0x20 then endsRefused p.sctx.toNat 6 0 s
  else if s.asking.contains (p.opinfo.toNat, line, p.src.toNat) then lineRefused p.opinfo.toNat line p.src.toNat s
  else s

/-- A refusal whose own seal does not verify is discarded. -/
def refused (p : Packet) (s : State) : State :=
  if p.plane = 1 ∧ sealOk s p then wake (refusalCame p s)
  else if p.plane = 0 ∧ ctlSeal s p then wake (controlRefused p s)
  else s

def execRefusal (p : Packet) (s : State) : Out := held s <| arrive 0x07 p (inTurn p (refused p)) s

/-! ### Sending again (R321, R322, R356) -/

/-- Positions of a flowlet's unacknowledged packets, in sending order. -/
def ofFlowlet (u v : Unacked) : Bool := v.ctx == u.ctx && v.packet.dst == u.packet.dst && v.packet.flabel == u.packet.flabel

/-- The counters of R133 move with a packet to its new path. -/
def movePath (u : Unacked) (path : Nat) (s : State) : State :=
  match u.owner with
  | .entry g r _ _ => if isControlAddr u.packet.addr || u.packet.path.toNat == path then s
    else countUp g r u.packet.dst.toNat path (countDown g r u.packet.dst.toNat u.packet.path.toNat s)
  | _ => s

/-- A packet for another path. What its seal covers changes with it, so it takes a new nonce (R319). -/
def onPath (s : State) (path : Nat) (p : Packet) : Packet :=
  let rp := routePath (routeEntry s p.dst.toNat) path
  { p with path := BitVec.ofNat 2 path, hops := rp.extractLsb' 24 3, route := rp.extractLsb' 0 24,
           nctr := nonceAt s p.sctx.toNat p.keyid.toNat }

def useNonce (p : Packet) (s : State) : State :=
  { s with fab := { s.fab with nonces := sset (p.sctx.toNat * 4096 + p.keyid.toNat) (p.nctr + 1) s.fab.nonces } }

/-- One packet is sent again on a path. -/
def resendOne (path : Nat) (u : Unacked) (s : State) : State :=
  let p := onPath s path u.packet
  out p (useNonce p (modUnacked (fun v => if sameUnacked u v then { v with packet := p, retryAt := none } else v) (movePath u path s)))

/-- A packet's flowlet takes a path. -/
def takePath (path : Nat) (p : Packet) (s : State) : State :=
  let same (f : Flowlet) : Bool := f.ctx == p.sctx.toNat && f.dst == p.dst.toNat && f.plane == flowClass p && f.label == p.flabel.toNat
  let keep (f : Flowlet) : Flowlet :=
    if same f then { f with path := path, route := routePath (routeEntry s p.dst.toNat) path, lastAt := s.clk } else f
  { s with fab := { s.fab with flowlets := s.fab.flowlets.map keep } }

/-- The flowlet's unacknowledged packets from u on are sent again, in FSEQ order. -/
def resendFrom (path : Nat) (u : Unacked) (s : State) : State :=
  let mine := (s.fab.unacked.filter (ofFlowlet u)).dropWhile fun v => !sameUnacked u v
  mine.foldl (fun s v => resendOne path v s) (takePath path u.packet s)

def retryDue (s : State) (peer : Bool) (u : Unacked) : Bool :=
  (u.retryAt.map fun t => decide (t ≤ s.clk)).getD false && ((u.packet.kind == 0x08 || u.packet.kind == 0x09) == peer) &&
  (match u.owner with
    | .mepi g _ _ => groupActs s g && !u.stale
    | _ => !u.stale)

/-- ORD_RETRY_RESEND: 1 µs after its refusal an ordered packet is sent again, and after it what its flowlet has sent since. -/
def execOrdRetryResend (k : Nat) (s : State) : Out := held s <|
  match s.fab.unacked[k]? with
  | some u => if retryDue s false u then .next (resendFrom u.packet.path.toNat u s) else idle s
  | none => idle s

/-- A request is sent again to dst as the next packet of its flowlet there. -/
def resendAs (u : Unacked) (dst : Nat) (dseqWas : Option Word) (s : State) : State :=
  let m : Send :=
    { kind := u.packet.kind, dst := dst, ctx := u.ctx, key := u.packet.keyid, part := u.packet.part.toNat,
      label := u.packet.flabel.toNat, ord := false, addr := u.packet.addr, tag := u.packet.tag, opinfo := u.packet.opinfo, ty := u.packet.ty,
      len := u.packet.len, data := u.packet.data, owner := u.owner, number := u.number, launch := u.launch, pc := u.pc, off := u.off,
      access := u.access, dseqWas := dseqWas, whole := u.packet.whole }
  (sendTensor m (dropUnacked u s)).1

/-- PEER_RETRY_RESEND: the row is sent again as its flowlet's next packet. -/
def resendRow (u : Unacked) (s : State) : State := resendAs u u.packet.dst.toNat (some u.packet.dseq) s

def execPeerRetryResend (k : Nat) (s : State) : Out := held s <|
  match s.fab.unacked[k]? with
  | some u => if retryDue s true u then .next (resendRow u s) else idle s
  | none => idle s

/-- The path uses port n of its first hop (of this package), or of any later one. -/
def usesPort (s : State) (pkg n : Nat) (rp : BitVec 27) : Bool :=
  let hops := (rp.extractLsb' 24 3).toNat
  (List.range hops).any fun h => bits rp.toNat (4 * h) 4 == n && ((pkg == s.selfPkg) == (h == 0))

/-- The paths of a destination that avoid a locked port. -/
def pathsAvoiding (s : State) (pkg n dst : Nat) : List Nat :=
  (pathsOf (routeEntry s dst)).filter fun k => !usesPort s pkg n (routePath (routeEntry s dst) k)

/-- The path for what a locked port may have dropped: by R320 among those that avoid it, else the one it had. -/
def pathAround (s : State) (pkg n : Nat) (p : Packet) : Nat :=
  let ok := pathsAvoiding s pkg n p.dst.toNat
  if ok.isEmpty then p.path.toNat else bestPath s p.dst.toNat p.flabel.toNat ok

def sameFlowOut (p q : Packet) : Bool := p.dst == q.dst && p.sctx == q.sctx && p.flabel == q.flabel && flowClass p == flowClass q

/-- What nobody acknowledges: a flowlet's packets from the first that may have been dropped are sent again, in order (log 87). The
receiver discards by FSEQ those that it had; those so old that FSEQ could have come round are not sent. -/
def resendKept (pkg n : Nat) (p : Packet) (s : State) : State :=
  let path := pathAround s pkg n p
  let mine := (((s.fab.kept.filter (sameFlowOut p)).take (2 ^ 15)).reverse).dropWhile fun q => !usesPort s pkg n (q.hops ++ q.route)
  mine.foldl (fun s q =>
    let p := onPath s path q
    out p (useNonce p { s with fab := { s.fab with kept := s.fab.kept.map fun k => if sameFlowOut k q && k.fseq == q.fseq then p else k } }))
    (takePath path p s)

/-- PORT_LOCK_NOTICE (R321): for each flowlet that may have lost a packet at the port, every unacknowledged packet from the first one is
sent again on a path that avoids it. -/
def portLocked (pkg n : Nat) (s : State) : State :=
  let lost (u : Unacked) : Bool := u.packet.src == s.tabs.self && usesPort s pkg n (u.packet.hops ++ u.packet.route)
  let firsts := s.fab.unacked.filter fun u => lost u && ((s.fab.unacked.find? fun v => lost v && ofFlowlet u v).map (sameUnacked u)).getD false
  let gone (p : Packet) : Bool := usesPort s pkg n (p.hops ++ p.route)
  let flows := s.fab.kept.filter fun p => gone p && ((s.fab.kept.find? fun q => gone q && sameFlowOut p q).map (· == p)).getD false
  flows.foldl (fun s p => resendKept pkg n p s)
    (firsts.foldl (fun s u => resendFrom (pathAround s pkg n u.packet) u s) s)

def report (r : FabReport) (s : State) : State := { s with fab := { s.fab with reports := s.fab.reports ++ [r] } }

/-- The management processor passes a packet on over every link (R311). -/
def passOn (r : Nat → FabReport) (s : State) : State :=
  (List.range s.fab.ports.length).foldl (fun s n =>
    if (s.fab.ports[n]?.map fun q => q.connected && !q.locked).getD false then report (r n) s else s) s

/-- A notice is passed on once, until the next table load withdraws the paths (log 90). -/
def noteLock (pkg n : Nat) (s : State) : State :=
  if s.fab.notedLocks.contains (pkg, n) then s
  else passOn (fun k => .lockOn k n pkg) { s with fab := { s.fab with notedLocks := (pkg, n) :: s.fab.notedLocks } }

def execPortLockNotice (port : Nat) (pkg : BitVec 12) (s : State) : Out := held s <| .next (noteLock pkg.toNat port (portLocked pkg.toNat port s))

/-- RESET_NOTICE (R322, R352): E returns to 0, the flowlets begin again, and the context's tags are free. -/
def execResetNotice (src sctx : BitVec 12) (s : State) : Out := held s <|
  let mine (a b : Nat) : Bool := a == src.toNat && b == sctx.toNat
  let s1 := dropTags src.toNat sctx.toNat s
  .next { s1 with fab := { s1.fab with expects := s1.fab.expects.filter fun e => !(mine e.src e.sctx && (e.plane == 1 || e.plane == 2))
                                       exposures := s1.fab.exposures.filter fun e => !mine e.src e.sctx
                                       held := s1.fab.held.filter fun p => !mine p.src.toNat p.sctx.toNat } }

/-! ### The management plane (R310, R329) -/

/-- The packages of a scope .hn (R309); one that no entry names is absent, as 7 says. -/
def inHops (scopes : Sparse (BitVec 4)) (n d : Nat) : Bool := decide ((sgetD d 7 scopes).toNat ≤ n)

/-- DOMH: the smallest n whose .hn covers the domain; 0 where none does (R269). -/
def domhOf (scopes : Sparse (BitVec 4)) (ndom : Nat) : BitVec 3 :=
  match (List.range' 1 6).find? fun n => decide (ndom ≤ (scopes.filter fun e => inHops scopes n e.1).length) with
  | some n => BitVec.ofNat 3 n
  | none => 0

/-- A load is for this package: SELF names it, or it has no number yet (log 90). -/
def loadsHere (t : TableLoad) (s : State) : Bool := !s.tabs.scopeValid || t.self == s.tabs.self

/-- A load for another package is passed on, once (R311, log 90). -/
def passLoad (t : TableLoad) (s : State) : State :=
  if sget t.self.toNat s.fab.notedLoads = some t then s
  else passOn (fun n => .loadOn n t.self.toNat) { s with fab := { s.fab with notedLoads := sset t.self.toNat t s.fab.notedLoads } }

/-- TABLE_LOAD: the tables change at one instant. A load for another package goes on to it. -/
def execTableLoad (t : TableLoad) (s : State) : Out := heldPlat s <|
  if !loadsHere t s then .next (passLoad t s) else
  let routes := t.routes.foldl (fun m e => if e.1 < 4096 then sput 0 e.1 e.2 m else m) []
  let scopes := t.scopes.foldl (fun m e => if e.1 < 4096 then sput 7 e.1 e.2 m else m) []
  let tabs := { s.tabs with routes := routes, scopes := scopes, scopeValid := true, scopeGen := s.tabs.scopeGen + 1, ndom := t.ndom,
                            domh := domhOf scopes t.ndom.toNat, self := t.self, domain := t.domain.map (·.toNat) }
  .next { s with tabs := tabs, lost := s.lost.filter fun p => (sgetD p 0 routes).getLsbD 110, fab := { s.fab with notedLocks := [] } }

/-- HEARTBEAT: the package answers. -/
def execHeartbeat (s : State) : Out := held s <| .next (report .heartbeat s)

end Sys2Proof.Machine
end

