-- ==== Sys2Proof/Machine/Coherence.lean ====
section
/-! DEFINITION. Control space across packages (R302, R303, R327 to R329): the home's directory, the lines of other homes in this
package's L2, the mirror, and the loss of a package. The spec names the states, the kinds of packet and what must hold; which packet
goes when is the model's protocol (log 33). -/

set_option linter.unusedVariables false

namespace Sys2Proof.Machine

/-! ### The directory -/

def lineOfPacket (p : Packet) : Nat := p.addr.toNat / 512

def DirEntry.none : DirEntry := { owner := Option.none, sharers := 0, pending := [], granting := Option.none }

def dirAt (s : State) (line : Nat) : DirEntry := (dirEntry s line).getD DirEntry.none

/-- Set a directory entry; one that says nothing is not kept. -/
def setDir (line : Nat) (d : DirEntry) (s : State) : State :=
  { s with dir := if d = DirEntry.none then sdel line s.dir else sset line d s.dir }

def unask (kind line dst : Nat) (s : State) : State := { s with asking := s.asking.erase (kind, line, dst) }

/-- A package no longer has a line of this home. -/
def dropHolder (line p : Nat) (s : State) : State :=
  let d := dirAt s line
  let d1 := { d with owner := if d.owner = some p then Option.none else d.owner, sharers := d.sharers &&& ~~~shareBit s p }
  setDir line d1 (unask 0x14 line p s)

/-- A line's bytes go to a package in answer to its request, whose kind stands in the tag: but for READ_SHARED it may be written. No
bytes go to the owner, whose copy is the line. Bit 8 of the tag says that the bytes stand in a failed row (R297). -/
def sendLine (line dst : Nat) (kind : BitVec 8) (data : List Byte) (s : State) : State :=
  sendCtl 0x15 dst (line * 512) (kind.setWidth 32 ||| if rowFailed s (line * 512) then 0x100 else 0) data s

/-- A request that another package has passed on names the package that made it in its tag (log 33). -/
def passedOn (p : Packet) (dst : Nat) (s : State) : State := sendCtl p.kind dst p.addr.toNat (4096 + p.src.setWidth 32) p.data s

/-- A request as the package that made it sent it. -/
def asMade (p : Packet) : Packet := if p.tag.toNat < 4096 then p else { p with src := p.tag.setWidth 12, tag := 0 }

/-- Some holder of the line has been asked to give it up and has not answered. -/
def recalling (s : State) (line : Nat) : Bool := s.asking.any fun a => a.1 == 0x14 && a.2.1 == line

/-- A reservation at the home holds a grant of ownership off (R129). -/
def lineHeld (s : State) (line : Nat) : Bool := s.resv.any fun v => v.granule / 16 == line && decide (s.clk < v.holdUntil)

/-- The packages that must give the line up before q may write it. -/
def mustLeave (s : State) (d : DirEntry) (q : Nat) : List Nat :=
  (match d.owner with
    | some o => [o]
    | Option.none => []) ++ sharersOf s d.sharers |>.filter fun p => p != q

/-- The line's bytes as the home sends them to q: none to its owner; of a failed row nothing that stands there (R297). -/
def lineFor (d : DirEntry) (line q : Nat) (s : State) : List Byte :=
  if d.owner = some q then [] else if rowFailed s (line * 512) then zeros 512 else homeRead s (line * 512) 512

/-- The request at the head of a line: what it needs is asked for, or it is served. True when it is served. While a line is on its way,
or a holder has not answered, no other request is served, so that no answer crosses a recall. -/
def serveHead (line : Nat) (p : Packet) (s : State) : State × Bool :=
  let d := dirAt s line
  let q := p.src.toNat
  if d.granting.isSome then (s, false)
  else if p.kind = 0x10 then
    if recalling s line then (s, false)
    else
      let with1 := d.sharers ||| shareBit s q
      match d.owner with
      | some o =>
        if o = q then (sendLine line q 0x10 [] (setDir line { d with granting := some p } s), true)
        else
          (passedOn p o (setDir line { d with sharers := with1, granting := some p } s), true)
      | Option.none => (sendLine line q 0x10 (lineFor d line q s) (setDir line { d with sharers := with1, granting := some p } s), true)
  else
    let gone := mustLeave s d q
    if !gone.isEmpty then (gone.foldl (fun s o => askOnce 0x14 line o s) s, false)
    else if recalling s line || lineHeld s line then (s, false)
    else
      let s1 := { s with resv := s.resv.filter fun v => v.granule / 16 != line
                         tlb := s.tlb.filter fun e => !e.lines.contains line }
      (sendLine line q p.kind (lineFor d line q s)
        (setDir line { d with owner := some q, sharers := 0, granting := some p } s1), true)

/-- Requests for a line are served in the order in which they came. -/
def serveLine (line : Nat) : Nat → State → State
  | 0, s => s
  | n + 1, s =>
    match (dirAt s line).pending with
    | [] => s
    | p :: _ =>
      match serveHead line p s with
      | (s1, true) => serveLine line n (setDir line { dirAt s1 line with pending := (dirAt s1 line).pending.drop 1 } s1)
      | (s1, false) => s1

def serve (line : Nat) (s : State) : State := serveLine line ((dirAt s line).pending.length + 1) s

/-- A line with a request that can be served now: a reservation's hold has ended. -/
def lineDue (s : State) : Option Nat := (s.dir.find? fun e =>
  match e.2.pending with
  | [] => false
  | p :: _ => (serveHead e.1 p s).2).map (·.1)

/-- Accesses, records and held packets that waited for a line. -/
def lineCame (s : State) : State := wake (releaseAll (retryInject (retryDeferred (retryWeights (retryLate s)))))

/-! ### Requests and answers (R327) -/

/-- A coherence packet takes effect; one whose seal does not verify is refused (R319). -/
def underKey0 (p : Packet) (effect : State → State) (s : State) : State := if ctlSeal s p then effect s else refuseSeal p s

/-- The request whose line is on its way, given back by an owner that no longer has it. -/
def givenBack (d : DirEntry) (p : Packet) : Bool :=
  match d.granting with
  | some g => g.kind == 0x10 && p.kind == 0x10 && g.src == p.src
  | Option.none => false

/-- A request at the home joins the line's queue, if its package is of the coherence domain; at an owner READ_SHARED is answered from its copy, which stays as O, and goes back
to the home where the copy has just gone. -/
def lineRequest (p : Packet) (s : State) : State :=
  let line := lineOfPacket p
  let made := asMade p
  if homedHere s (line * 512) then
    if (posOf s made.src.toNat).isNone then s else
    let d := dirAt s line
    let d1 : DirEntry := if givenBack d made then { d with granting := Option.none, pending := made :: d.pending }
      else { d with pending := d.pending ++ [made] }
    lineCame (serve line (setDir line d1 s))
  else if p.kind ≠ 0x10 then s
  else
    match sget line s.l2 with
    | some l => sendLine line made.src.toNat 0x10 l.data { s with l2 := sset line { l with state := if l.state = .s then .s else .o } s.l2 }
    | Option.none => passedOn made (homeOf s (line * 512)) s

def execReadShared (p : Packet) (s : State) : Out := held s <| arrive 0x10 p (inTurn p (underKey0 p (lineRequest p))) s
def execReadOwn (p : Packet) (s : State) : Out := held s <| arrive 0x11 p (inTurn p (underKey0 p (lineRequest p))) s
def execUpgrade (p : Packet) (s : State) : Out := held s <| arrive 0x12 p (inTurn p (underKey0 p (lineRequest p))) s

/-- INVALIDATE: a dirty line goes back with its answer, a clean one is acknowledged, and so is a line that is not here; the tag tells
the two apart. -/
def invalidated (p : Packet) (s : State) : State :=
  let line := lineOfPacket p
  match sget line s.l2 with
  | some l =>
    if l.state = .m ∨ l.state = .o then sendCtl 0x13 p.src.toNat p.addr.toNat 1 l.data (loseLine line s)
    else sendCtl 0x06 p.src.toNat p.addr.toNat 1 [] (loseLine line s)
  | Option.none => sendCtl 0x06 p.src.toNat p.addr.toNat 0 [] (loseLine line s)

def execInvalidate (p : Packet) (s : State) : Out := held s <| arrive 0x14 p (inTurn p (underKey0 p (invalidated p))) s

/-- A free odd control pseudo-channel, whose number names no region itself (log 14), holds a region's mirror from its first write on (R287,
R328). -/
def takeSlot (r : Nat) (s : State) : State :=
  match sget r s.regions with
  | Option.none => s
  | some x =>
    let used := (s.regions.filterMap fun e => e.2.slot) ++ s.regions.map (·.1)
    match x.slot, ((List.range 16).map fun k => 24 * (2 * k + 1) + 23).find? fun p => !used.contains p with
    | Option.none, some p => { s with regions := sset r { x with slot := some p } s.regions
                                      mem := s.mem.filter fun e => e.1 / 2 ^ 30 != p }
    | _, _ => s

/-- WRITE_BACK at the home: only the owner's counts. With tag 1 it answers an INVALIDATE, with tag 2 the owner has dropped the line,
else the line stays where it is. At the mirror of a region homed elsewhere it is a survivor's, which the loss of the home has reached,
perhaps before this package: every one counts, and tag 3 is its last (R302, R329, log 33). -/
def writtenBack (p : Packet) (s : State) : State :=
  let line := lineOfPacket p
  let d := dirAt s line
  let mirrored := !homedHere s (line * 512) && (((regionOf s (line * 512)).bind (·.mirror)) == some s.selfPkg)
  if mirrored ∧ p.tag = 3 then
    { s with regions := smod (line * 512 / 2 ^ 30) (fun y => { y with
      awaits := y.awaits.erase p.src.toNat, passed := if y.moving then y.passed else p.src.toNat :: y.passed }) s.regions }
  else if mirrored then
    let s1 := takeSlot (line * 512 / 2 ^ 30) s
    { s1 with mem := writeBytes s1.mem (cellAt s1 (line * 512)) (p.data.take 512) }
  else if !homedHere s (line * 512) || d.owner != some p.src.toNat then s
  else
    let s1 := pkgWriteRun (line * 512) (p.data.take 512) s
    if p.tag = 1 then lineCame (serve line (dropHolder line p.src.toNat s1))
    else if p.tag = 2 then lineCame (serve line (setDir line { dirAt s1 line with owner := Option.none } s1))
    else s1

def execWriteBack (p : Packet) (s : State) : Out := held s <| arrive 0x13 p (inTurn p (underKey0 p (writtenBack p))) s

/-- The line that LINE_DATA leaves here: an owner keeps its bytes, a sharer takes those that came. -/
def lineWith (own failed : Bool) (data : List Byte) (l : Option L2Line) : Option L2Line :=
  match l with
  | some l =>
    if l.state = .s then
      if data = [] then some l else some { l with state := if own then .e else .s, data := padTo 512 data, failed := failed }
    else if l.state = .o ∧ own then some { l with state := .m }
    else some l
  | Option.none => if data = [] then Option.none else some { state := if own then .e else .s, ctx := 4096, data := padTo 512 data, failed := failed }

/-- LINE_DATA: where the L2 is full its lowest line goes (R5; which goes is the model's choice, log 97); the line is this package's, shared or
its own; its home is told, and what waited for the line goes on. -/
def lineArrived (p : Packet) (s : State) : State :=
  let line := lineOfPacket p
  let home := homeOf s (line * 512)
  if homedHere s (line * 512) then s
  else if !s.asking.contains (p.tag.toNat % 256, line, home) then sendCtl 0x06 home p.addr.toNat 2 [] s
  else
    let s := if decide (Config.l2Lines ≤ s.l2.length) && (sget line s.l2).isNone then giveLine ((s.l2.map (·.1)).headD 0) s else s
    let l2 := match lineWith (p.tag.toNat % 256 != 0x10) (p.tag.getLsbD 8) p.data (sget line s.l2) with
      | some l => sset line l s.l2
      | Option.none => s.l2
    lineCame (sendCtl 0x06 home p.addr.toNat 2 [] (unask (p.tag.toNat % 256) line home { s with l2 := l2 }))

def execLineData (p : Packet) (s : State) : Out := held s <| arrive 0x15 p (inTurn p (underKey0 p (lineArrived p))) s

/-! ### Acknowledgements -/

/-- The line that was on its way has come. -/
def grantEnds (line q : Nat) (s : State) : State :=
  let d := dirAt s line
  match d.granting with
  | some g => if g.src.toNat = q then setDir line { d with granting := Option.none } s else s
  | Option.none => s

/-- An answer under key 0: a line has come (tag 2), a clean line has left its holder (1), or the package asked did not have it: a sharer
is struck off, an owner's write-back is still on its way. -/
def holderGone (p : Packet) (s : State) : State :=
  let line := lineOfPacket p
  let q := p.src.toNat
  if !homedHere s (line * 512) then s
  else
    let s1 := if p.tag = 2 then grantEnds line q s
      else if p.tag = 1 ∨ (dirAt s line).owner ≠ some q then dropHolder line q s
      else unask 0x14 line q s
    lineCame (serve line s1)

/-- ACKNOWLEDGEMENT: of a coherence request under key 0, else of a tensor-plane request. -/
def acknowledged (p : Packet) (s : State) : State :=
  if p.plane = 0 then underKey0 p (holderGone p) s
  else if !sealOk s p then refuseSeal p s
  else
    match requestFor s p with
    | some u => answered u 0 p.data s
    | Option.none => s

def execAcknowledgement (p : Packet) (s : State) : Out := held s <| arrive 0x06 p (inTurn p fun s => wake (acknowledged p s)) s

/-! ### The mirror (R328) -/

/-- The mirror holds a write: what waited for it is reported. -/
def mirrored (m : MirrorWait) (s : State) : State := settleReaders m.readers <|
  match m.owner with
  | .entry g r e t =>
    let s1 := match e, m.guards with
      | 0, some q => releaseTag q.2.1 s
      | 0, Option.none => s
      | _, _ => reportTo { group := g, rank := r, entry := e } t m.off (.value m.result) s
    trafficEnds g s1
  | .cmd k => modCmd k (fun c => { c with unacked := c.unacked - 1 }) s
  | .piece k u i => pieceAcked k u i m.off true s
  | .reply p => ackTo p m.result s
  | .mepi g _ _ => trafficEnds g s
  | .prefetchLine | .mirror | .ctl _ => s

/-- MIRROR_WRITE: the mirror's copy of the region, and the retained tag (mirrorData says how the packet holds them). -/
def mirrorHolds (p : Packet) (s : State) : State :=
  let n := field p.data 0 2
  let s0 := takeSlot (p.addr.toNat / 2 ^ 30) s
  let s1 := { s0 with mem := writeBytes s0.mem (cellAt s0 p.addr.toNat) ((p.data.drop 12).take n) }
  let f := field p.data 4 4
  let s2 := if f = 0 then s1
    else keepTag (field p.data 2 2) (BitVec.ofNat 32 (field p.data 8 4)) (if f = 1 then granuleOf p.addr.toNat else queueTarget (f - 2))
      (p.data.drop (12 + n)) s1
  sendCtl 0x17 p.src.toNat p.addr.toNat p.tag [] s2

def execMirrorWrite (p : Packet) (s : State) : Out := held s <|
  arrive 0x16 p (inTurn p (underKey0 p fun s => if homedHere s p.addr.toNat then s else mirrorHolds p s)) s

/-- MIRROR_ACKNOWLEDGEMENT: the wait with the packet's number ends. -/
def mirrorAnswered (p : Packet) (s : State) : State :=
  match s.mirrorq.find? fun m => BitVec.ofNat 32 m.tag == p.tag && m.mirror == p.src.toNat with
  | some m => mirrored m { s with mirrorq := s.mirrorq.erase m }
  | Option.none => s

def execMirrorAcknowledgement (p : Packet) (s : State) : Out := held s <|
  arrive 0x17 p (inTurn p (underKey0 p fun s => wake (mirrorAnswered p s))) s

/-! ### Loss of a package (R303, R329) -/

def modRegion (r : Nat) (f : Region → Region) (s : State) : State := { s with regions := smod r f s.regions }

/-- A survivor's dirty lines of a region go to its new home, which learns that they were all. -/
def passLines (r home : Nat) (s : State) : State :=
  let mine := s.l2.filter fun e => e.1 * 512 / 2 ^ 30 == r
  let s1 := mine.foldl (fun s e =>
    let s1 := loseLine e.1 s
    if e.2.state = .m ∨ e.2.state = .o then
      (if home = s.selfPkg then
        let s2 := takeSlot r s1
        { s2 with mem := writeBytes s2.mem (cellAt s2 (e.1 * 512)) e.2.data } else sendCtl 0x13 home (e.1 * 512) 0 e.2.data s1)
    else s1) s
  if home = s.selfPkg then s1 else sendCtl 0x13 home (r * 2 ^ 30) 3 [] s1

/-- The packages whose write-backs a region's new home waits for. -/
def survivors (s : State) : List Nat := (reachable s).filter fun d => d != s.selfPkg && !pkgLost s d

/-- A region whose home and mirror are both lost: the host is told, and atomics that were on their way to it raise the home-lost fault. -/
def loseRegion (r : Nat) (s : State) : State :=
  let s1 := report (.lostRegion r) (modRegion r (fun y => { y with isLost := true, mirror := Option.none, moving := false }) s)
  (s1.fab.unacked.filter fun u => isControlAddr u.packet.addr && u.packet.addr.toNat / 2 ^ 30 == r).foldl (fun s u => answered u 0x0004 [] s) s1

/-- A region that the lost package homed passes to its mirror; with its mirror lost too, it is lost. -/
def regionLosesHome (pkg r : Nat) (x : Region) (s : State) : State :=
  match x.mirror with
  | some m =>
    if pkgLost s m then loseRegion r s
    else passLines r m (modRegion r (fun y => { y with
      moving := true, copying := false, passed := [],
      awaits := if m = s.selfPkg then (survivors s).filter fun p => !y.passed.contains p else [] }) s)
  | Option.none => loseRegion r s

/-- The host is told of a region whose writes its home alone holds (log 34). -/
def unprotectedEvent (r : Nat) (s : State) : State :=
  postHost { source := 5, counta := r, user := if ((sget r s.regions).map (·.notIndependent)).getD false then 1 else 0 } s

/-- A region that the lost package mirrored: its home serves on alone, and a region that was passing to it is lost. -/
def regionLosesMirror (pkg r : Nat) (x : Region) (s : State) : State :=
  if x.moving then loseRegion r s
  else
    let s1 := modRegion r (fun y => { y with mirror := Option.none, copying := false, unprotected := true }) s
    if x.home = s.selfPkg then unprotectedEvent r s1 else s1

def regionAfterLoss (pkg : Nat) (e : Nat × Region) (s : State) : State :=
  if e.2.isLost then s
  else if e.2.home = pkg ∧ !e.2.moving then regionLosesHome pkg e.1 e.2 s
  else if e.2.mirror = some pkg then regionLosesMirror pkg e.1 e.2 s
  else s

/-- A line of this home when its holder is lost: what was on its way to it ends, and what it was to send another is asked for again. -/
def forgetIn (pkg line : Nat) (s : State) : State :=
  let d := dirAt s line
  let d1 : DirEntry := match d.granting with
    | some g => if g.src.toNat = pkg then { d with granting := Option.none }
      else if d.owner = some pkg then { d with granting := Option.none, pending := g :: d.pending }
      else d
    | Option.none => d
  dropHolder line pkg (setDir line { d1 with pending := d1.pending.filter fun p => p.src.toNat != pkg } s)

/-- The directory drops the package; its lines fall back to their home copies. -/
def forgetHolder (pkg : Nat) (s : State) : State :=
  let lines := s.dir.map (·.1)
  let s1 := lines.foldl (fun s n => forgetIn pkg n s) { s with asking := s.asking.filter fun a => a.2.2 != pkg }
  lines.foldl (fun s n => serve n s) s1

/-- The tensor-plane operations that are still counted toward the package complete at once as home lost (R303). -/
def loseRequests (pkg : Nat) (s : State) : State :=
  let mine := s.fab.unacked.filter fun u => u.packet.dst.toNat == pkg && !isControlAddr u.packet.addr
  mine.foldl (fun s u => answered u 0x0004 [] s) s

/-- LOSS_ANNOUNCEMENT: one that is news is passed on (R311). -/
def announceLoss (pkg : Nat) (s0 : State) : State :=
  let s := if s0.lost.contains pkg then s0 else passOn (fun n => .lossOn n pkg) s0
  let mark (e : BitVec 128) : BitVec 128 := e ||| (1#128 <<< 110)
  let s1 := { s with lost := if s.lost.contains pkg then s.lost else s.lost ++ [pkg],
                     tabs := { s.tabs with routes := sput 0 pkg (mark (routeEntry s pkg)) s.tabs.routes } }
  let s2 := loseRequests pkg (forgetHolder pkg s1)
  let gone (x : Region) : Region := { x with awaits := x.awaits.erase pkg }
  let s3 := s2.regions.foldl (fun s e => regionAfterLoss pkg e s) { s2 with regions := s2.regions.map fun e => (e.1, gone e.2) }
  let waits := s3.mirrorq.filter fun m => m.mirror == pkg
  let s4 := waits.foldl (fun s m => mirrored m s) { s3 with mirrorq := s3.mirrorq.filter fun m => m.mirror != pkg }
  lineCame (freeSlots (fun r => r.busy && r.asker == pkg) s4)

def execLossAnnouncement (pkg : BitVec 12) (s : State) : Out := heldPlat s <| .next (announceLoss pkg.toNat s)

/-- Control atomics that the lost home has not answered go to the new one under their tags (R302), as the next packets of their
flowlets to it. -/
def resendAtomics (r home : Nat) (s : State) : State :=
  let mine := s.fab.unacked.filter fun u => isControlAddr u.packet.addr && u.packet.addr.toNat / 2 ^ 30 == r && !u.stale
  mine.foldl (fun s u =>
    if home = s.selfPkg then
      let p := onPath s u.packet.path.toNat { u.packet with dst := BitVec.ofNat 12 home }
      exposePacket p (modUnacked (fun v => if sameUnacked u v then { v with packet := p } else v) s)
    else resendAs u home none s) s

/-- MIRROR_TAKEOVER: this package, the mirror, is the home once the survivors' lines have come; it tells the others and performs what was
held. -/
def takeOver (r : Nat) (s : State) : State :=
  let s1 := modRegion r (fun y => { y with home := s.selfPkg, mirror := Option.none, moving := false, copying := false, unprotected := true }) s
  let s2 := (reachable s1).foldl (fun s d => if pkgLost s d then s else sendCtl 0x18 d (r * 2 ^ 30) 0 [] s) s1
  lineCame (resendAtomics r s.selfPkg (unprotectedEvent r s2))

def execMirrorTakeover (region : Nat) (s : State) : Out := held s <|
  match sget region s.regions with
  | some x => if x.moving && x.mirror == some s.selfPkg && x.awaits.isEmpty then .next (takeOver region s) else idle s
  | Option.none => idle s

/-- HOME_CHANGE: the region's home is the sender. -/
def homeChanged (p : Packet) (s : State) : State :=
  let r := p.addr.toNat / 2 ^ 30
  let s1 := modRegion r (fun y => { y with home := p.src.toNat, mirror := Option.none, moving := false, unprotected := true, slot := Option.none }) s
  lineCame (resendAtomics r p.src.toNat s1)

def execHomeChange (p : Packet) (s : State) : Out := held s <| arrive 0x18 p (inTurn p (underKey0 p (homeChanged p))) s

/-- MIRROR_NAMED: the new mirror is known with its power feed, and the copy begins; until it completes the home alone acknowledges (R329).
The home refuses a mirror on its own feed, unless the pairing overrides it (R387). -/
def execMirrorNamed (region : Nat) (mirror : MirrorOffer) (s : State) : Out := heldPlat s <|
  let same := mirror.feed == s.plat.feed
  let new : Region := { home := s.selfPkg, mirror := none, isLost := false, moving := false, copying := true, unprotected := false,
                        awaits := [], notIndependent := false }
  let x := (sget region s.regions).getD new
  let own := x.home == s.selfPkg
  let y : Region := { x with mirror := some mirror.pkg.toNat, copying := own, notIndependent := own && same }
  if x.isLost then idle s
  else if own && same && !mirror.override then .next (postHost { source := 8, status := 0x000A, counta := region, progress := s.clk } s)
  else .next { s with regions := sset region y s.regions }

/-- The granules of a region that hold something. -/
def regionGranules (r : Nat) (s : State) : List Nat :=
  let at' := cellAt s (r * 2 ^ 30) / 2 ^ 30
  ((s.mem.filter fun e => e.1 / 2 ^ 30 == at').map fun e => (r * 2 ^ 30 + e.1 % 2 ^ 30) / 32).eraseDups

/-- The granules of a region that retained tags name. -/
def taggedGranules (r : Nat) (s : State) : List Nat := ((s.tags.filter fun t => decide (t.target * 32 / 2 ^ 30 = r)).map (·.target)).eraseDups

/-- A granule goes to the mirror, once with each tag that its home retains for it. -/
def copyGranule (g : Nat) (s : State) : State :=
  let bs := homeRead s (g * 32) 32
  match s.tags.filter fun t => t.target == g with
  | [] => mirrorSend s.tabs.self (g * 32) bs none s
  | l => l.foldl (fun s t => mirrorSend (BitVec.ofNat 12 t.pkg) (g * 32) bs (some (t.tag, t.result)) s) s

/-- REGION_COPY_COMPLETE: the mirror has the region as it stands at this instant, with the retained tags (R328); the next writes go to
both. -/
def copyRegion (r : Nat) (s : State) : State :=
  let s1 := modRegion r (fun y => { y with copying := false, unprotected := false }) s
  (regionGranules r s ++ (taggedGranules r s).filter fun g => !(regionGranules r s).contains g).foldl (fun s g => copyGranule g s) s1

def execRegionCopyComplete (region : Nat) (s : State) : Out := held s <|
  match sget region s.regions with
  | some x => if x.copying then .next (copyRegion region s) else idle s
  | Option.none => idle s

/-! ### Launch packets (R190, R319) -/

/-- LAUNCH_PACKET: one that does not decrypt is dropped before validation and refused. -/
def execLaunchPacket (p : Packet) (s : State) : Out := held s <|
  arrive 0x20 p (inTurn p fun s =>
    if sealOk s p then wake (submitLaunch (.net true) p.part.toNat 0 p.data s) else refuseSeal p s) s

end Sys2Proof.Machine
end

