-- ==== Sys2Proof/Machine/HostPort.lean ====
section
/-! DEFINITION. The management port: host commands, their responses and records (R396), the journal (R391), keys (R318), the launch
table (R393), the reads of tables, attestation (R392), the arithmetic clock and the thermal freeze (R398). -/

set_option linter.unusedVariables false

namespace Sys2Proof.Machine

def modPlat (f : Plat → Plat) (s : State) : State := { s with plat := f s.plat }

/-! ### The journal (R391) -/

/-- Microseconds since power-good. -/
def mgmtUs (s : State) : Nat := s.clk / Config.cyclesPerUs

/-- A ring of 256 records. -/
def journalAdd (r : JRec) (s : State) : State :=
  let l := s.plat.journal ++ [r]
  modPlat (fun p => { p with journal := l.drop (l.length - 256) }) s

def journalNow (us step unit result alt code : Nat) (s : State) : State :=
  journalAdd { clk := BitVec.ofNat 64 us, bootn := s.plat.bootn, step := BitVec.ofNat 8 step, unit := BitVec.ofNat 8 unit,
               result := BitVec.ofNat 8 result, alt := BitVec.ofNat 8 alt, code := BitVec.ofNat 16 code } s

def JRec.word (r : JRec) : BitVec 128 := r.clk ++ r.bootn ++ r.step ++ r.unit ++ r.result ++ r.alt ++ r.code

def journalBytes (s : State) : List Byte :=
  let bs := s.plat.journal.flatMap fun r => leBytes (JRec.word r).toNat 16
  bs ++ zeros (4096 - bs.length)

/-! ### Commands (R392, R396) -/

/-- The response to a command: its header again, a status, and what a read carries. -/
def replyTo (h : HostCmd) (status : BitVec 16) (body : List Byte) : Response :=
  { cmd := h.cmd, flags := h.flags, len := h.len, seq := h.seq, status := status, body := body }

def respondTo (h : HostCmd) (status : BitVec 16) (body : List Byte) (s : State) : State :=
  modPlat (fun p => { p with responses := p.responses ++ [replyTo h status body] }) s

/-- The management processor answers nothing but attestation before it has booted (R390). -/
def mgmtRuns (s : State) : Bool := s.plat.powered && !s.plat.stopped

/-- A command outside a verified session, of another code, of a length that does not match, or with a reserved flag: status 0x000A and
no effect. flags are the bits that the command defines. -/
def hostCmd (code : Nat) (flags : Nat) (size : HostCmd → Nat) (h : HostCmd) (effect : State → State) (s : State) : Out :=
  if !mgmtRuns s then idle s
  else if !(h.inSession && s.plat.session) ∨ h.cmd.toNat ≠ code ∨ h.len.toNat ≠ h.body.length ∨ h.body.length ≠ size h ∨
      h.flags.toNat % (flags + 1) ≠ h.flags.toNat then .next (respondTo h 0x000A [] s)
  else .next (effect s)

/-- Every record of the management processor (R394). -/
def mgmtPost (r : Record) (s : State) : State := postHost { r with source := 8 } s

/-- A command with a record (log 37): the response, and the record with the command's sequence number. -/
def settleCmd (h : HostCmd) (status : BitVec 16) (counta : Nat) (s : State) : State :=
  mgmtPost { cmdaddr := h.seq, status := status, counta := counta, progress := s.clk } (respondTo h status [] s)

def fixedSize (n : Nat) : HostCmd → Nat := fun _ => n

/-! ### Reads -/

/-- JOURNAL_READ. -/
def execJournalRead (h : HostCmd) (s : State) : Out := heldBase s <|
  hostCmd 0x40 0 (fixedSize 0) h (fun s => respondTo h 0 (journalBytes s) s) s

/-- ROUTE_READ: a package number of 12 bits. -/
def execRouteRead (h : HostCmd) (s : State) : Out := heldBase s <|
  hostCmd 0x41 0 (fixedSize 4) h (fun s =>
    let d := field h.body 0 4
    if 4096 ≤ d then respondTo h 0x000A [] s else respondTo h 0 (leBytes (routeEntry s d).toNat 16) s) s

/-- A reduction slot's word (R323). -/
def slotWord (r : RedSlot) : Long :=
  (if r.busy then 1#1 else 0#1) ++ r.key ++ r.collid ++ BitVec.ofNat 12 r.asker ++ BitVec.ofNat 7 r.held

/-- SLOT_READ. -/
def execSlotRead (h : HostCmd) (s : State) : Out := heldBase s <|
  hostCmd 0x42 0 (fixedSize 0) h (fun s => respondTo h 0 (s.fab.slots.flatMap fun r => leBytes (slotWord r).toNat 8) s) s

/-! ### Keys and the launch table -/

/-- A reduction in progress holds the key: clearing ENROL waits for it. -/
def keyHeld (s : State) (k : Nat) : Bool := s.fab.slots.any fun r => r.busy && r.key.toNat == k

/-- KEY is written: EPOCH advances, and the counters of the key's contexts begin again (R318, R319). -/
def setKey (k : Nat) (enrol : Bool) (key : BitVec 256) (s : State) : State :=
  let old := sget k s.tabs.keys
  let epoch : BitVec 16 := ((old.map (·.epoch)).getD 0) + 1
  let held := keyHeld s k && ((old.map (·.enrol)).getD false) && !enrol
  let e : KeyEntry := { valid := true, enrol := enrol || held, epoch := epoch, key := key, clearing := held }
  { s with tabs := { s.tabs with keys := sset k e s.tabs.keys }
           fab := { s.fab with nonces := s.fab.nonces.filter fun e => e.1 % 4096 != k }
           ctxs := s.ctxs.map fun c => if c.2.key.toNat = k then (c.1, { c.2 with keyEpoch := epoch }) else c }

/-- KEY_SET: identifier 0 is given to no tenant. -/
def execKeySet (h : HostCmd) (s : State) : Out := heldBase s <|
  hostCmd 0x30 0 (fixedSize 40) h (fun s =>
    let k := field h.body 0 4
    let en := field h.body 4 4
    if k = 0 ∨ 4096 ≤ k ∨ 2 ≤ en then respondTo h 0x000A [] s
    else respondTo h 0 [] (setKey k (en == 1) (BitVec.ofNat 256 (field h.body 8 32)) s)) s

/-- LAUNCHTAB_SET: reserved bits are zero, and a valid entry's queues exist. -/
def execLaunchtabSet (h : HostCmd) (s : State) : Out := heldBase s <|
  hostCmd 0x31 0 (fixedSize 24) h (fun s =>
    let part := field h.body 0 4
    let i := field h.body 4 4
    let v := field h.body 8 16
    let qcnt := bits v 39 13
    let qok := qcnt ≤ 4096 && bits v 52 12 + qcnt ≤ 4096 && (qcnt ≠ 0 || !bit v 127)
    if 64 ≤ part ∨ 64 ≤ i ∨ bits v 0 39 ≠ 0 ∨ bits v 112 15 ≠ 0 ∨ !qok then respondTo h 0x000A [] s
    else respondTo h 0 [] { s with tabs := { s.tabs with launchTab := sput 0 (part * 64 + i) (BitVec.ofNat 128 v) s.tabs.launchTab } }) s

/-! ### Attestation (R392) -/

def digestBytes (d : BitVec 384) : List Byte := leBytes d.toNat 48

/-- The seven measurements of R392 by index: the ROM's digest; the management firmware's and its copy; the control-core firmware's and its
copy; the kernel image's; the layout's CRCs; FEAT0 to FEAT3 (R9); SHA-384 of the journal, the HBM rate, and the CXL ports and Z-ports that
the boot left out. Their form is SPDM's (log 10). -/
def measurements (s : State) : List (Nat × List Byte) :=
  let b (x : Bool) : Byte := if x then 1 else 0
  let skipped (n : Nat) : Option Byte := match s.fab.ports[n]? with
    | some q => if q.connected then none else some (BitVec.ofNat 8 n)
    | none => none
  [(1, digestBytes Config.romDigest), (2, digestBytes (Config.firmwareDigest s.plat.fwCopyB) ++ [b s.plat.fwCopyB]),
   (3, digestBytes (Config.controlDigest s.plat.kernelCopyB) ++ [b s.plat.kernelCopyB]), (4, digestBytes (Config.kernelDigest s.plat.kernelCopyB)),
   (5, (List.range 64).flatMap fun p => leBytes (partOf s p).crc.toNat 4), (6, zeros 32),
   (7, digestBytes (Config.sha384 ((journalBytes s).zipIdx.map fun c => (c.2, c.1))) ++ [b s.plat.lowRate] ++
     (s.plat.cxlDown.map fun n => BitVec.ofNat 8 n) ++ (List.range 16).filterMap skipped)]

def measured (s : State) : List Byte := (measurements s).flatMap fun m => BitVec.ofNat 8 m.1 :: m.2

/-- ATTESTATION_REQUEST: opens says that the host opens its session with it. A stopped boot only answers. -/
def execAttestationRequest (bytes : List Byte) (opens : Bool) (s : State) : Out := heldBase s <|
  if !s.plat.powered then idle s
  else
    .next (modPlat (fun p => { p with session := p.session || (opens && !p.stopped)
                                      responses := p.responses ++ [{ body := Config.spdmAnswer (bytes ++ measured s) }] }) s)

/-! ### Power and cooling (R398) -/

/-- 100 µs have passed since the last step of the arithmetic clock. -/
def clockFree (s : State) : Bool := match s.plat.clockAt with
  | none => true
  | some c => decide (c + 100 * Config.cyclesPerUs ≤ s.clk)

def setAclk (mhz : Nat) (s : State) : State := modPlat (fun p => { p with aclk := mhz, clockAt := some s.clk }) s

/-- CLOCK_STEP_DOWN: drawMw is the sustained draw over 1 ms. -/
def execClockStepDown (drawMw : Nat) (s : State) : Out :=
  if 4400000 < drawMw ∧ 900 ≤ s.plat.aclk ∧ clockFree s then .next (setAclk (s.plat.aclk - 25) s) else idle s

def execClockStepUp (drawMw : Nat) (s : State) : Out :=
  if drawMw < 4300000 ∧ s.plat.aclk + 25 ≤ 1750 ∧ clockFree s then .next (setAclk (s.plat.aclk + 25) s) else idle s

def runningCtxs (s : State) : List Nat := (s.ctxs.filter fun c => c.2.mode == .running).map (·.1)

/-- THERMAL_TRIP: dieTemps in degrees Celsius. -/
def execThermalTrip (dieTemps : List Nat) (s : State) : Out := heldBase s <|
  if (dieTemps.any fun t => decide (105 ≤ t)) && !s.plat.hot then
    let freeze (s : State) (cid : Nat) : State := modCtx cid (fun c => { c with thermal := true }) (freezeCtx cid s)
    .next (mgmtPost { counta := dieTemps.foldl max 0, progress := s.clk }
      (modPlat (fun p => { p with hot := true }) ((runningCtxs s).foldl freeze s)))
  else idle s

/-- THERMAL_RESUME: the contexts that the trip froze go on. -/
def execThermalResume (dieTemps : List Nat) (s : State) : Out := heldBase s <|
  if s.plat.hot && dieTemps.all fun t => decide (t < 95) then
    let frozen := (s.ctxs.filter fun c => c.2.thermal && c.2.mode == .frozen).map (·.1)
    let clear (c : Ctx) : Ctx := { c with thermal := false }
    let s1 := modPlat (fun p => { p with hot := false }) s
    .next (frozen.foldl (fun s cid => noteState cid (resumeCtx cid s)) { s1 with ctxs := s1.ctxs.map fun c => (c.1, clear c.2) })
  else idle s

end Sys2Proof.Machine
end

