-- ==== Sys2Proof/Machine/Rows.lean ====
section
/-! DEFINITION. Zeroing (R292), patrol scrub and refresh (R297, R298), and the retirement of layers (R299). -/

set_option linter.unusedVariables false

namespace Sys2Proof.Machine

/-- ZEROING_COMPLETE: every sector of entry k of the zeroing list is zero; not while stage 2 maps no place for some of them. -/
def execZeroingComplete (k : Nat) (s : State) : Out := heldPlat s <|
  match s.zeroing[k]? with
  | none => idle s
  | some z =>
    let s1 := { s with zeroing := dropAt s.zeroing k }
    if !z.2.owed.isEmpty then idle s
    else match z.2.buffer with
    | none => .next s1
    | some b => .next { s1 with tabs := { s1.tabs with bufs := sput 0 b (sgetD b 0 s1.tabs.bufs &&& ~~~(1#256 <<< 249)) s1.tabs.bufs } }

/-! ### Rows (R297) -/

def isRow (chan row : Nat) : Bool := decide (chan < 768) && decide (row < 2 ^ 20)

/-- The retention class: 0, 1, 2 for 128, 64, 32 ms. A row that no error moved is where the boot binned it (log 35). -/
def rowClassOf (s : State) (chan row : Nat) : Nat :=
  match s.plat.rowClass.find? fun r => r.1 == chan && r.2.1 == row with
  | some r => r.2.2
  | none => (Config.rowClass chan row).val

def setRowClass (chan row cls : Nat) (p : Plat) : Plat :=
  { p with rowClass := (p.rowClass.filter fun r => !(r.1 == chan && r.2.1 == row)) ++ [(chan, row, cls)] }

/-- A demotion or failure is told to the host: two journal records, the second with the row's device address in CLK, and a record
(R391, log 36). -/
def reportRow (chan row code : Nat) (s : State) : State :=
  let dpa := chan * 2 ^ 30 + row * 1024
  let result := if code = 0x101 then 1 else 0
  mgmtPost { counta := dpa, countb := code, progress := s.clk }
    (journalNow dpa 3 (chan / 64) result 0 code (journalNow (mgmtUs s) 3 (chan / 64) result 0 code s))

def failRow (chan row : Nat) (s : State) : State :=
  reportRow chan row 0x101 (modPlat (fun p => setRowClass chan row 2 { p with failedRows := p.failedRows ++ [(chan, row)] }) s)

/-- PATROL_SCRUB. -/
def execPatrolScrub (chan row : Nat) (found : ScrubResult) (s : State) : Out := heldBase s <|
  if !isRow chan row || s.plat.failedRows.contains (chan, row) then idle s
  else
    match found with
    | .clean => .next s
    | .uncorrectable => .next (failRow chan row s)
    | .corrected =>
      if rowClassOf s chan row = 2 then .next (failRow chan row s)
      else .next (reportRow chan row 0x100 (modPlat (setRowClass chan row (rowClassOf s chan row + 1)) s))

/-- REFRESH: when the row was last refreshed. -/
def execRefresh (chan row : Nat) (s : State) : Out := heldBase s <|
  if !isRow chan row then idle s
  else
    let key := chan * 2 ^ 20 + row
    .next (modPlat (fun p => { p with refreshed := (p.refreshed.filter fun r => r.1 != key) ++ [(key, s.clk)] }) s)

/-! ### Layers (R299) -/

/-- The device ranges of the tenant portion of a layer. -/
def layerRanges (stack layer : Nat) : List (Nat × Nat) :=
  ((List.range 64).map fun i => stack * 64 + i).filterMap fun p =>
    if isControlChan p then none else some (p * 2 ^ 30 + layer * 2 ^ 26, 2 ^ 26)

def inLayer (stack layer dpa : Nat) : Bool :=
  dpa < 2 ^ 43 && !isControlChan (dpa / 2 ^ 30) && dpa / 2 ^ 36 == stack && dpa % 2 ^ 30 / 2 ^ 26 == layer

/-- An entry with RES 1 resolves into the layer. -/
def layerUsed (s : State) (stack layer : Nat) : Bool :=
  s.tabs.bufs.any fun b => Buf.valid b.2 && Buf.res b.2 && !Buf.tier b.2 &&
    (layerRanges stack layer).any fun r => inRanges (bufRanges s (b.1 / 4096) b.2) r.1 r.2

/-- An access to the tenant portion is in flight. -/
def layerInFlight (s : State) (stack layer : Nat) : Bool :=
  s.homeq.any fun a => ((accessDpa s a).map (inLayer stack layer)).getD false

def layerRetired (s : State) (stack layer : Nat) : Bool := s.plat.retiredLayers.contains (stack, layer)

/-- The portion's bytes go to the reserved region of the capacity tier, and its banks are off. -/
def retireLayer (stack layer : Nat) (s : State) : State :=
  let here := s.mem.filter fun e => inLayer stack layer e.1
  let gone (c : L1Copy) : Bool := inLayer stack layer (c.sector * 128)
  let off (p : Plat) : Plat :=
    { p with retiredLayers := p.retiredLayers ++ [(stack, layer)]
             retiring := p.retiring.filter fun r => !(r.1 == stack && r.2.1 == layer) }
  modPlat off { s with mem        := s.mem.filter fun e => !inLayer stack layer e.1
                       l1         := s.l1.filter fun c => !gone c
                       layerStore := s.layerStore ++ [(stack * 16 + layer, here)] }

/-- The portion's bytes stand again where they stood. -/
def restoreLayer (stack layer : Nat) (s : State) : State :=
  let kept := s.layerStore.filter fun e => e.1 == stack * 16 + layer
  let on (p : Plat) : Plat := { p with retiredLayers := p.retiredLayers.filter (· != (stack, layer)) }
  modPlat on { s with mem        := kept.foldl (fun m e => e.2.foldl (fun m c => setByte m c.1 c.2) m) s.mem
                      tlb        := s.tlb.filter fun e => !e.lines.any fun l => inLayer stack layer (l * 512)
                      layerStore := s.layerStore.filter fun e => e.1 != stack * 16 + layer }

def layerRecord (seq : Nat) (stack layer : Nat) (s : State) : State :=
  mgmtPost { cmdaddr := BitVec.ofNat 64 seq, counta := stack, countb := layer, progress := s.clk } s

/-- RETIRE (R299, R396): a layer in use, or one already off or on, gives 0x000A; the work waits for accesses in flight. -/
def execRetire (h : HostCmd) (s : State) : Out := heldBase s <|
  hostCmd 0x50 1 (fixedSize 8) h (fun s =>
    let stack := field h.body 0 4
    let layer := field h.body 4 4
    let back := h.flags.getLsbD 0
    if 12 ≤ stack ∨ 16 ≤ layer then respondTo h 0x000A [] s
    else if back then
      if !layerRetired s stack layer then respondTo h 0x000A [] s
      else layerRecord h.seq.toNat stack layer (restoreLayer stack layer (respondTo h 0 [] s))
    else if layerRetired s stack layer || layerUsed s stack layer ||
        (s.plat.retiring.any fun r => r.1 == stack && r.2.1 == layer) then respondTo h 0x000A [] s
    else respondTo h 0 [] (modPlat (fun p => { p with retiring := p.retiring ++ [(stack, layer, h.seq.toNat)] }) s)) s

/-- The retirement may go on. -/
def retireReady (s : State) (stack layer : Nat) : Bool :=
  (s.plat.retiring.any fun r => r.1 == stack && r.2.1 == layer) && !layerInFlight s stack layer

/-- LAYER_RETIRE_PROCEED. -/
def execLayerRetireProceed (stack layer : Nat) (s : State) : Out := heldBase s <|
  if !retireReady s stack layer then idle s
  else
    match s.plat.retiring.find? fun r => r.1 == stack && r.2.1 == layer with
    | none => idle s
    | some r => .next (layerRecord r.2.2 stack layer (retireLayer stack layer s))

end Sys2Proof.Machine
end

