-- ==== Sys2Proof/Machine/Layout.lean ====
section
/-! DEFINITION. Partition layouts: records (R372, R373), the commit (R376 to R378), and the management processor's restart (R377). -/

set_option linter.unusedVariables false

namespace Sys2Proof.Machine

/-! ### Records -/

/-- CRC-32 of IEEE 802.3: reflected, from all ones, inverted. -/
def crcBit (c : BitVec 32) : BitVec 32 := if c.getLsbD 0 then (c >>> 1) ^^^ 0xEDB88320 else c >>> 1

def crcByte (c : BitVec 32) (b : Byte) : BitVec 32 :=
  crcBit (crcBit (crcBit (crcBit (crcBit (crcBit (crcBit (crcBit (c ^^^ b.setWidth 32))))))))

def crc32 (bs : List Byte) : BitVec 32 := ~~~(bs.foldl crcByte (BitVec.allOnes 32))

/-- The control pseudo-channels (R287). -/
def controlChans : BitVec 768 := (List.range 32).foldl (fun m k => m ||| (1#768 <<< (24 * k + 23))) 0

/-- Bytes 0 to 247 of a record. -/
def PartRec.body (r : PartRec) : List Byte :=
  leBytes r.cores.toNat 28 ++ leBytes r.qos.toNat 4 ++ leBytes r.slices.toNat 48 ++ leBytes r.pchan.toNat 96 ++
  leBytes r.copyeng.toNat 28 ++ leBytes r.gatheng.toNat 7 ++ leBytes r.colleng.toNat 1 ++ leBytes r.zports.toNat 2 ++ leBytes r.pad.toNat 34

def PartRec.bytes (r : PartRec) : List Byte := PartRec.body r ++ leBytes r.crc.toNat 4 ++ leBytes r.tail.toNat 4

/-- A record from its bytes: the bits of control pseudo-channels read 0 whatever is written (R287). -/
def PartRec.ofBytes (b : List Byte) : PartRec where
  cores := BitVec.ofNat 224 (field b 0 28)
  qos := BitVec.ofNat 32 (field b 28 4)
  slices := BitVec.ofNat 384 (field b 32 48)
  pchan := BitVec.ofNat 768 (field b 80 96) &&& ~~~controlChans
  copyeng := BitVec.ofNat 224 (field b 176 28)
  gatheng := BitVec.ofNat 56 (field b 204 7)
  colleng := BitVec.ofNat 8 (field b 211 1)
  zports := BitVec.ofNat 16 (field b 212 2)
  pad := BitVec.ofNat 272 (field b 214 34)
  crc := BitVec.ofNat 32 (field b 248 4)
  tail := BitVec.ofNat 32 (field b 252 4)

/-- A record with the CRC that the management processor gives it. -/
def PartRec.sealed (r : PartRec) : PartRec := { r with crc := crc32 (PartRec.body r) }

/-- A record that was never written has no CRC to fail (log 41). -/
def PartRec.crcOk (r : PartRec) : Bool := r == PartRec.zero || r.crc == crc32 (PartRec.body r)

def Layout := Sparse PartRec

def recordAt (l : Sparse PartRec) (p : Nat) : PartRec := sgetD p PartRec.zero l

def PartRec.saveq (r : PartRec) : Nat := bits r.qos.toNat 0 11
def PartRec.ctxmax (r : PartRec) : Nat := bits r.qos.toNat 12 13

/-! ### The checks of R373 -/

/-- What the records before p own and sum to. -/
structure Owned where
  cores : BitVec 224 := 0
  slices : BitVec 384 := 0
  pchan : BitVec 768 := 0
  copyeng : BitVec 224 := 0
  gatheng : BitVec 56 := 0
  colleng : BitVec 8 := 0
  zports : BitVec 16 := 0
  saveq : Nat := 0
  ctxmax : Nat := 0
  deriving DecidableEq, Repr, Inhabited

def Owned.add (o : Owned) (r : PartRec) : Owned where
  cores := o.cores ||| r.cores
  slices := o.slices ||| r.slices
  pchan := o.pchan ||| r.pchan
  copyeng := o.copyeng ||| r.copyeng
  gatheng := o.gatheng ||| r.gatheng
  colleng := o.colleng ||| r.colleng
  zports := o.zports ||| r.zports
  saveq := o.saveq + PartRec.saveq r
  ctxmax := o.ctxmax + PartRec.ctxmax r

/-- The offset of a record's first offending field, after what the records before it own. -/
def recordBad (o : Owned) (r : PartRec) : Option Nat :=
  let q := r.qos.toNat
  let qosOk := bits q 25 7 == 0 && bits q 11 1 == 0 && decide (PartRec.ctxmax r ≤ 4096) && decide (PartRec.saveq r ≤ 1600) &&
    decide (o.saveq + PartRec.saveq r ≤ 1600) && decide (o.ctxmax + PartRec.ctxmax r ≤ 4096)
  firstFail [(0, o.cores &&& r.cores == 0), (28, qosOk), (32, o.slices &&& r.slices == 0),
    (80, o.pchan &&& r.pchan == 0), (176, o.copyeng &&& r.copyeng == 0),
    (204, o.gatheng &&& r.gatheng == 0), (211, o.colleng &&& r.colleng == 0 && r.colleng &&& 0xF0 == 0),
    (212, o.zports &&& r.zports == 0), (214, r.pad == 0), (252, r.tail == 0)]

/-- The offset of the first offending field of 64 records. -/
def layoutBad : List PartRec → Nat → Owned → Option Nat
  | [], _, _ => none
  | r :: rest, p, o =>
    match recordBad o r with
    | some off => some (256 * p + off)
    | none => layoutBad rest (p + 1) (Owned.add o r)

/-! ### The checks of R378 -/

/-- A core that holds a group, or commands of an engine that are outstanding. -/
def coreBusy (s : State) (c : Nat) : Bool := s.groups.any fun g => g.2.core == c
def engineBusy (s : State) (e : EngineId) : Bool := s.cmds.any fun c => c.2.engine == e

/-- A collective may use a Z-port: some path of one of this package's to a member begins there; one whose members are not read yet, and
one of other packages that a slot of this router serves, may use any (log 42). -/
def portBusy (s : State) (n : Nat) : Bool := (s.fab.slots.any fun (x : RedSlot) => x.busy) || s.cmds.any fun c => c.2.kind == .coll && ((membersOf c.2).isEmpty ||
  (membersOf c.2).any fun d => d != s.selfPkg && (pathsOf (routeEntry s d)).any fun k =>
    bits (routePath (routeEntry s d) k).toNat 0 4 == n)

/-- The offset of the first bitmap of a record with a busy unit that the record gains or loses. -/
def changeBusy (s : State) (old new : PartRec) : Option Nat :=
  let d1 := old.cores ^^^ new.cores
  let d2 := old.copyeng ^^^ new.copyeng
  let d3 := old.gatheng ^^^ new.gatheng
  let d4 := old.colleng ^^^ new.colleng
  firstFail [(0, (List.range 224).all fun i => !d1.getLsbD i || !coreBusy s i),
    (176, (List.range 224).all fun i => !d2.getLsbD i || !engineBusy s (.copy i)),
    (204, (List.range 56).all fun i => !d3.getLsbD i || !engineBusy s (.gather i)),
    (211, (List.range 4).all fun i => !d4.getLsbD i || !engineBusy s (.coll i)),
    (212, (List.range 16).all fun i => !(old.zports ^^^ new.zports).getLsbD i || !portBusy s i)]

def layoutBusy (s : State) (old new : Sparse PartRec) : Option Nat :=
  (List.range 64).findSome? fun p => (changeBusy s (recordAt old p) (recordAt new p)).map (256 * p + ·)

/-! ### Copies and the commit word (R376) -/

def commitState (s : State) : Nat := s.plat.commit.toNat % 4

def setCommit (st : Nat) (s : State) : State := modPlat (fun p => { p with commit := (p.commit &&& 4) ||| BitVec.ofNat 32 st }) s

def layoutShadow (s : State) : Sparse PartRec := if s.plat.commit.getLsbD 2 then s.plat.copy0 else s.plat.copy1

def setShadow (l : Sparse PartRec) (s : State) : State :=
  if s.plat.commit.getLsbD 2 then modPlat (fun p => { p with copy0 := l }) s else modPlat (fun p => { p with copy1 := l }) s

def setActive (l : Sparse PartRec) (s : State) : State :=
  if s.plat.commit.getLsbD 2 then modPlat (fun p => { p with copy1 := l }) s else modPlat (fun p => { p with copy0 := l }) s

/-- Steps of a commit are journalled. -/
def journalCommit (step result : Nat) (s : State) : State := journalNow (mgmtUs s) (0x80 + step) 0xFF result 0 0 s

/-- LAYOUT_PREPARE. -/
def execLayoutPrepare (h : HostCmd) (s : State) : Out :=
  hostCmd 1 0 (fixedSize 16384) h (fun s =>
    let recs := (List.range 64).map fun p => PartRec.ofBytes ((h.body.drop (256 * p)).take 256)
    let new : Sparse PartRec := recs.zipIdx.map fun r => (r.2, PartRec.sealed r.1)
    match layoutBad recs 0 {}, layoutBusy s (layoutActive s) new with
    | some off, _ => settleCmd h 0x000A off (journalCommit 1 1 (setCommit 0 (setShadow [] s)))
    | none, some off => settleCmd h 0x000A off (journalCommit 1 1 (setCommit 0 (setShadow [] s)))
    | none, none => settleCmd h 0 0 (journalCommit 1 0 (setCommit 1 (setShadow new s)))) s

/-- The pseudo-channels that change owner from one layout to the other. -/
def movedChans (old new : Sparse PartRec) : List Nat := (List.range 768).filter fun c =>
  (List.range 64).any fun p => (recordAt old p).pchan.getLsbD c != (recordAt new p).pchan.getLsbD c

/-- The entry's set uses one of the pseudo-channels. -/
def usesChans (chans : List Nat) (e : BitVec 256) : Bool := Buf.valid e && !Buf.tier e && (bufMembers e).any fun m => chans.contains m

/-- Step 3: what was admitted to entries over pseudo-channels that change owner is performed, those entries lose VALID (R293), and those
pseudo-channels are zeroed (R378). -/
def applyLayout (old : Sparse PartRec) (s : State) : State :=
  let chans := movedChans old (layoutActive s)
  let clear (e : Nat × BitVec 256) : Nat × BitVec 256 := if usesChans chans e.2 then (e.1, e.2 &&& ~~~(1#256 <<< 255)) else e
  let zeroStart (s : State) (c : Nat) : State :=
    { s with zeroing := sset s.fresh { buffer := none, pchan := some c } s.zeroing, fresh := s.fresh + 1 }
  let used (a : Access) : Bool := match a.target with
    | .ten buf _ _ => usesChans chans (bufEntry s a.part buf)
    | .ctl _ => false
  let s0 := keepPlat s (performAdmitted used s.homeq.length s)
  let s1 := zeroRanges (chans.map fun c => (c * 2 ^ 30, 2 ^ 30)) { s0 with tabs := { s.tabs with bufs := s.tabs.bufs.map clear } }
  chans.foldl zeroStart s1

/-- Step 4. -/
def copyLayout (s : State) : State := journalCommit 4 0 (setCommit 0 (setShadow (layoutActive s) s))

/-- Step 2: one write of the commit word. -/
def flipActive (s : State) : State := modPlat (fun p => { p with commit := ((p.commit ^^^ 4) &&& 4) ||| 2 }) s

/-- Steps 3 and 4, which follow by themselves: the next one that the commit word calls for. After step 4 the host has its record. -/
def commitStep (s : State) : State :=
  if !mgmtRuns s then s
  else
    match commitState s with
    | 2 => journalCommit 3 0 (setCommit 3 (applyLayout (layoutShadow s) s))
    | 3 =>
      let told (s : State) : State := match s.plat.activating with
        | some q => mgmtPost { cmdaddr := q, progress := s.clk } (modPlat (fun p => { p with activating := none }) s)
        | none => s
      told (copyLayout s)
    | _ => s

/-- LAYOUT_ACTIVATE: step 2, unless nothing is prepared or a unit that changes owner is not idle. -/
def execLayoutActivate (h : HostCmd) (s : State) : Out :=
  hostCmd 2 0 (fixedSize 0) h (fun s =>
    if commitState s ≠ 1 then settleCmd h 0x000A 0 s
    else
      match layoutBusy s (layoutActive s) (layoutShadow s) with
      | some off => settleCmd h 0x000A off (journalCommit 2 1 s)
      | none =>
        modPlat (fun p => { p with activating := some h.seq }) (respondTo h 0 [] (journalCommit 2 0 (flipActive s)))) s

/-- LAYOUT_READ: the active copy. -/
def execLayoutRead (h : HostCmd) (s : State) : Out := heldBase s <|
  hostCmd 3 0 (fixedSize 0) h (fun s =>
    respondTo h 0 ((List.range 64).flatMap fun p => PartRec.bytes (recordAt (layoutActive s) p)) s) s

/-! ### Restart (R377) -/

/-- A record of the active copy whose CRC fails: from the shadow copy when STATE is 0; else no units, and the host is told. -/
def checkRecord (fromShadow : Bool) (p : Nat) (s : State) : State :=
  if PartRec.crcOk (recordAt (layoutActive s) p) then s
  else if fromShadow && PartRec.crcOk (recordAt (layoutShadow s) p) then
    setActive (sput PartRec.zero p (recordAt (layoutShadow s) p) (layoutActive s)) s
  else mgmtPost { status := 0x000A, counta := p, progress := s.clk } (setActive (sdel p (layoutActive s)) s)

def checkActive (fromShadow : Bool) (s : State) : State := (List.range 64).foldl (fun s p => checkRecord fromShadow p s) s

/-- What the restart finds in the commit word. -/
def resumeCommit (s0 : State) : State :=
  let s := modPlat (fun p => { p with activating := none }) s0
  match commitState s with
  | 1 => mgmtPost { status := 0x000A, progress := s.clk } (journalCommit 1 1 (setCommit 0 (setShadow [] s)))
  | 2 =>
    let s1 := checkActive false s
    copyLayout (journalCommit 3 0 (setCommit 3 (applyLayout (layoutShadow s1) s1)))
  | 3 => copyLayout s
  | _ => s

/-- MP_RESTART. -/
def execMpRestart (s : State) : Out :=
  if !mgmtRuns s then idle s
  else if commitState s = 2 then .next (resumeCommit s) else .next (checkActive (commitState s == 0) (resumeCommit s))

end Sys2Proof.Machine
end

