-- ==== Sys2Proof/Machine/Bearoff.lean ====
section
/-! DEFINITION. Bear-off requests and their controller (R379 to R384). Times are in cycles of clk (R398). -/

set_option linter.unusedVariables false

namespace Sys2Proof.Machine

/-! ### Quantities (R375, R380) -/

def margin : Nat := 20 * Config.cyclesPerUs
def evalPeriod : Nat := 100 * Config.cyclesPerUs

/-- The group stands on one of the cores: running, frozen, or retired and still held by its engine commands and rows (R202). -/
def onSet (cores : BitVec 224) (x : Group) : Bool := cores.getLsbD x.core

/-- Groups of a queue's launches that stand on the cores. -/
def workOn (s : State) (cores : BitVec 224) (q : Nat) : List (Nat × Group) :=
  s.groups.filter fun g => onSet cores g.2 && ((sget g.2.launch s.launches).map fun l => l.queue == q).getD false

/-- Queues with work on the set, ascending. -/
def queuesOn (s : State) (cores : BitVec 224) : List Nat :=
  let qs := (s.groups.filter fun g => onSet cores g.2).filterMap fun g => (sget g.2.launch s.launches).map fun l => l.queue
  (List.range 4096).filter fun q => qs.contains q

def launchesOn (s : State) (cores : BitVec 224) (q : Nat) : List (Nat × Launch) :=
  s.launches.filter fun l => l.2.queue == q && s.groups.any fun g => onSet cores g.2 && g.2.launch == l.1

/-- The owner of a queue's work. -/
def queueCtx (s : State) (cores : BitVec 224) (q : Nat) : Option Nat := ((launchesOn s cores q).head?).map fun l => l.2.owner

/-- The contexts of a partition with work on the sets of all outstanding requests. -/
def countWork (s : State) : Sparse Nat :=
  let busy (c : Nat × Ctx) : Bool := s.plat.bearoffs.any fun b => s.groups.any fun g => g.2.ctx == c.1 && onSet b.cores g.2
  let one (m : Sparse Nat) (c : Nat × Ctx) : Sparse Nat := sset c.2.part (sgetD c.2.part 0 m + 1) m
  (s.ctxs.filter busy).foldl one []

/-- n of R375: counted when the newest outstanding request was posted. -/
def workCount (s : State) (part : Nat) : Nat := max 1 (((s.plat.bearoffs.getLast?).map fun b => sgetD part 0 b.n).getD 1)

def saveqOf (s : State) (part : Nat) : Nat := PartRec.saveq (partOf s part)

/-- The time of bytes at S, plus extra, is at most left: S is 1,000 × SAVEQ ÷ n bytes a microsecond. -/
def fits (s : State) (part bytes extra : Nat) (left : Int) : Bool :=
  let rate := 1000 * saveqOf s part
  decide (((bytes * workCount s part * Config.cyclesPerUs + extra * rate : Nat) : Int) ≤ left * (rate : Int))

/-- The same as a strict deadline: left is at most that time (the comparator). -/
def overdue (s : State) (part bytes : Nat) (left : Int) : Bool :=
  let rate := 1000 * saveqOf s part
  decide (left * (rate : Int) ≤ ((bytes * workCount s part * Config.cyclesPerUs + margin * rate : Nat) : Int))

/-- E(q) is at most 0.9 × left, for every launch with a group on the set. -/
def finishes (s : State) (cores : BitVec 224) (q : Nat) (left : Int) : Bool :=
  (launchesOn s cores q).all fun l =>
    let total := Pkt.total l.2.pkt
    let elapsed := s.clk - l.2.firstAt.getD s.clk
    l.2.retired != 0 &&
      decide (((10 * elapsed * (total - l.2.retired) : Nat) : Int) ≤ 9 * left * (l.2.retired : Int))

/-- A request as it is decided for a queue: of the requests that name one of its cores on which the queue has work, the earliest T
governs (R379). -/
def governs (s : State) (r : BearReq) (q : Nat) : BearReq :=
  let shares (b : BearReq) : Bool := !(workOn s (r.cores &&& b.cores) q).isEmpty
  { r with t := (s.plat.bearoffs.filter shares).foldl (fun t b => min t b.t) r.t }

def timeLeft (s : State) (b : BearReq) : Int := (b.t : Int) - (s.clk : Int)

def modReq (reqid : Word) (f : BearReq → BearReq) (s : State) : State :=
  modPlat (fun p => { p with bearoffs := p.bearoffs.map fun b => if b.reqid = reqid then f b else b }) s

/-- No queue counts as decided run any longer. -/
def forgetRun (qs : List Nat) (s : State) : State :=
  modPlat (fun p => { p with bearoffs := p.bearoffs.map fun b => { b with runQueues := b.runQueues.filter fun q => !qs.contains q } }) s

/-! ### Discard (R382) -/

/-- A group's engine commands stop where they stand with status 0x0008. Those in its records count as well. -/
def stopCmds (g : Nat) (s : State) : State :=
  let back (s : State) (p : Nat × Entry) : State :=
    match (entryInstr p.2.word).bind engineForm, issOf s g p.1 p.2 with
    | some (kind, tile, e), some u =>
      if (sget p.2.id s.cmds).isSome || p.2.block.isEmpty || isZeros p.2.block then s
      else recapture u kind tile e p.2 ((cmdEngine s kind u.x.core u.c.part).getD (.copy u.x.core)) s
    | _, _ => s
  let listed : List (Nat × Entry) := match group? s g with
    | none => []
    | some x => x.ranks.flatMap fun (k : Rank) => (k.live ++ k.frame).map fun (e : Entry) => (k.idx, e)
  let s1 := listed.foldl back s
  let stop (s : State) (e : Nat × Cmd) : State := endCmd e.1 { e.2 with status := if e.2.status = 0 then 0x0008 else e.2.status } s
  (s1.cmds.filter fun e => e.2.group == g).foldl stop s1

/-- Its sequencer's operations end. -/
def stopSeq (g : Nat) (s : State) : State :=
  match group? s g with
  | none => s
  | some x => x.seq.recs.foldl (fun s r =>
      if r.word.extractLsb' 88 8 = 0xD0 then s
      else mepiComplete g x { r with status := if r.status = 0 then 0x0008 else r.status } s) s

/-- Its records are dropped; posted operations complete. -/
def dropRecords (g : Nat) (s : State) : State :=
  match group? s g with
  | none => s
  | some x => x.ranks.foldl (fun s k => (k.live ++ k.frame).foldl (fun s e =>
      match (entryInstr e.word).bind engineForm with
      | some _ => s
      | none => dropEntry g k.idx x e s) s) s

/-- A posted operation of the group that has not left the core. -/
def postedOf (s : State) (g : Nat) (a : Access) : Bool :=
  a.who.group == g && a.remote && a.who.entry != 0 &&
    (rank? s g a.who.rank).any fun k => k.live.any fun (e : Entry) => e.id == a.who.entry && isPostedWord e.word

/-- The group's posted operations leave in queue order: they complete (R382). -/
def sendPosted (g : Nat) : Nat → State → State
  | 0, s => s
  | n + 1, s =>
    match (List.range s.homeq.length).find? fun k => (s.homeq[k]?).any (postedOf s g) with
    | none => s
    | some k =>
      match s.homeq[k]? with
      | none => s
      | some a => sendPosted g n (requestHome k a s)

/-- The group is removed wherever it stands. A posted operation at this package's home that still needs a line stays queued, and nobody
waits for it. -/
def removeGroup (g : Nat) (s : State) : State :=
  match group? s g with
  | none => s
  | some x =>
    let sent := sendPosted g s.homeq.length s
    let nobody (a : Access) : Access := { a with who := { a.who with entry := 0 } }
    let left := (sent.homeq.filter (postedOf sent g)).map nobody
    let frozen := freezeGroup g sent
    let s1 := stopSeq g (stopCmds g (dropRecords g { frozen with homeq := frozen.homeq ++ left }))
    let noRing (c : Ctx) : Ctx := { c with armed := c.armed.filter fun (a : Armed) => a.group ≠ g }
    let s2 := modCtx x.ctx noRing { s1 with groups := sdel g s1.groups, slabs := s1.slabs.filter fun e => e.2.group ≠ g
                                            cmds := s1.cmds.filter fun e => e.2.group != g }
    if x.team ≠ 0 ∧ !(s2.groups.any fun e => e.2.team == x.team) then { s2 with teams := sdel x.team s2.teams } else s2

/-- A launch all of whose remaining groups are removed, placed or not: it completes as Discarded (R206). -/
def discardLaunch (l : Nat) (s : State) : State :=
  match sget l s.launches with
  | none => s
  | some x =>
    let mine := (s.groups.filter fun g => g.2.launch == l).map (·.1)
    let n := Pkt.total x.pkt - x.retired
    let mark (y : Launch) : Launch := { y.addStatus 0x0008 with discarded := n, next := Pkt.total x.pkt }
    settleLaunch l (modLaunch l mark (mine.foldl (fun s g => removeGroup g s) s))

/-- Discard(q) under a request. -/
def discardQueue (b : BearReq) (q : Nat) (s : State) : State :=
  let ls := launchesOn s b.cores q
  match ls with
  | [] => s
  | first :: _ =>
    let n := ls.foldl (fun n l => n + (Pkt.total l.2.pkt - l.2.retired)) 0
    let r : Record := { status := 0x0008, source := 8, cmdaddr := b.reqid.setWidth 64, ctx := first.2.owner, part := first.2.part,
                        counta := q, countb := n, progress := s.clk }
    let s1 := forgetRun [q] (ls.foldl (fun s l => discardLaunch l.1 s) s)
    postHost r (postCtx first.2.owner r (modReq b.reqid (fun y => { y with discardedQ := y.discardedQ + 1 }) s1))

/-! ### Checkpoint (R382) -/

/-- May the checkpoint ask for a yield? -/
def mayYield (s : State) (b : BearReq) (cid : Nat) (c : Ctx) : Bool :=
  !b.noyield && c.yvec != 0 && decide (saveqOf s c.part ≠ 0) && fits s c.part (ctxSaveMax s cid) (c.budget.toNat + margin) (timeLeft s b)

/-- Checkpoint(x): the controller holds the context, freezes it, and its save goes to the context engine. -/
def checkpointCtx (b : BearReq) (cid : Nat) (s : State) : State :=
  match ctx? s cid with
  | none => s
  | some c =>
    let s1 := if c.mode ≠ .running then s else if mayYield s b cid c && !c.yieldPending then requestYield cid s else freezeCtx cid s
    let st : CtxStep := { id := s.fresh, target := cid, kind := 5, area := 0, issuer := none, prog := 1, bearReq := some b.reqid }
    let s2 := modCtx cid (fun c => { c with bearoff := true }) { s1 with steps := s1.steps ++ [st], fresh := s1.fresh + 1 }
    forgetRun ((s2.launches.filter fun l => l.2.owner == cid).map fun l => l.2.queue) s2

/-! ### Evaluations (R381) -/

/-- The decision on a context is final: the controller holds it, or its save has failed. -/
def decided (s : State) (cid : Nat) : Bool := ((ctx? s cid).map fun c => c.bearoff || c.mode == .held).getD true

inductive BearChoice where
  | run | checkpoint | discard
  deriving DecidableEq, Repr, Inhabited

/-- The decision on a queue under a request with its governing deadline, from the values of s. -/
def chooseQueue (s : State) (b : BearReq) (q cid : Nat) : BearChoice :=
  let part := ctxPart s cid
  if finishes s b.cores q (timeLeft s b) then .run
  else if saveqOf s part ≠ 0 ∧ fits s part (ctxSaveBytes s cid) margin (timeLeft s b) then .checkpoint
  else .discard

def actOn (b : BearReq) (q cid : Nat) (d : BearChoice) (s : State) : State :=
  if decided s cid then s
  else
    match d with
    | .run => modReq b.reqid (fun y => { y with runQueues := y.runQueues ++ [q] }) s
    | .checkpoint => checkpointCtx b cid s
    | .discard => discardQueue b q s

/-- One evaluation of a request: every value is measured before any decision acts, and its run decisions are taken again. Its decisions
stand under it, whatever other requests decide of the same queue. -/
def evaluate (r : BearReq) (s : State) : State :=
  let one (q : Nat) : Option (BearReq × Nat × Nat × BearChoice) :=
    match queueCtx s r.cores q with
    | some cid => if decided s cid then none else some (governs s r q, q, cid, chooseQueue s (governs s r q) q cid)
    | none => none
  let choices := (queuesOn s r.cores).filterMap one
  choices.foldl (fun s d => actOn d.1 d.2.1 d.2.2.1 d.2.2.2 s) (modReq r.reqid (fun y => { y with nextEval := s.clk + evalPeriod, runQueues := [] }) s)

/-- BEAROFF (R379): a seventeenth request, a reserved flag or a byte that must be zero gives 0x000A. Posting evaluates at once. -/
def execBearoff (h : HostCmd) (s : State) : Out := heldBase s <|
  hostCmd 0x10 0 (fixedSize 64) h (fun s =>
    let flags := field h.body 40 4
    if 16 ≤ s.plat.bearoffs.length ∨ 2 ≤ flags ∨ !zeroBytes h.body 44 20 then settleCmd h 0x000A 0 s
    else
      let b : BearReq := { cores := BitVec.ofNat 224 (field h.body 0 28), reqid := BitVec.ofNat 32 (field h.body 28 4),
                           t := field h.body 32 8, noyield := flags == 1, nextEval := s.clk, checkpointed := 0, discardedQ := 0,
                           runQueues := [], n := [] }
      let s1 := modPlat (fun p => { p with bearoffs := p.bearoffs ++ [b] }) (respondTo h 0 [] s)
      let n := countWork s1
      let b1 := { b with n := n }
      evaluate b1 (modPlat (fun p => { p with bearoffs := s.plat.bearoffs ++ [b1] }) s1)) s

def evalDue (s : State) : Option BearReq := s.plat.bearoffs.find? fun b => decide (b.nextEval ≤ s.clk)

/-- BEAROFF_EVALUATION. -/
def execBearoffEvaluation (s : State) : Out := heldBase s <|
  match evalDue s with
  | none => idle s
  | some b => .next (evaluate b s)

/-! ### The comparator (R381) -/

/-- A queue decided run whose context's time is up, and its request. -/
def comparatorFires (s : State) : Option (BearReq × Nat) :=
  s.plat.bearoffs.findSome? fun b => (b.runQueues.find? fun q =>
    match queueCtx s b.cores q with
    | none => false
    | some cid =>
      let part := ctxPart s cid
      let left := timeLeft s (governs s b q)
      !decided s cid && (if saveqOf s part = 0 then decide (left ≤ (margin : Int)) else overdue s part (ctxSaveBytes s cid) left)).map
    fun q => (b, q)

/-- BEAROFF_COMPARATOR. -/
def execBearoffComparator (s : State) : Out := heldBase s <|
  match comparatorFires s with
  | none => idle s
  | some (b, q) =>
    match queueCtx s b.cores q with
    | none => idle s
    | some cid =>
      if saveqOf s (ctxPart s cid) = 0 then
        let runs := s.plat.bearoffs.flatMap fun r => r.runQueues.map fun q => (r, q)
        .next ((runs.filter fun p => queueCtx s p.1.cores p.2 == some cid).foldl (fun s p => discardQueue p.1 p.2 s) s)
      else .next (checkpointCtx (governs s b q) cid s)

/-! ### Deadline and completion (R383, R384) -/

/-- Contexts that still have work on the set. -/
def lateOn (s : State) (b : BearReq) : List Nat :=
  (s.ctxs.filter fun c => s.groups.any fun g => g.2.ctx == c.1 && onSet b.cores g.2).map (·.1)

/-- The context's launches are discarded and its state is dropped: it stands as one that has never run (log 43). -/
def dropCtx (b : BearReq) (cid : Nat) (s : State) : State :=
  let qs := (queuesOn s b.cores).filter fun q => queueCtx s b.cores q == some cid
  let s1 := qs.foldl (fun s q => discardQueue b q s) s
  let s2 := ((s1.launches.filter fun l => l.2.owner == cid && s1.groups.any fun g => g.2.launch == l.1).map (·.1)).foldl
    (fun s l => discardLaunch l s) s1
  let blank (c : Ctx) : Ctx := { c with mode := .saved, rst := true, bearoff := false, step := 0, armed := [], armedHead := 0, cut := [] }
  modCtx cid (fun c => { blank c with savedGroups := [], landed := [], landedBars := [], savedRecs := [], yieldPending := false })
    { s2 with steps := s2.steps.filter fun (y : CtxStep) => y.target ≠ cid
              groups := s2.groups.filter fun g => g.2.ctx != cid }

/-- A context leaves the set at the deadline (R383). One not yet decided is decided as the comparator decides; a yield or a save that is
still to come is finished, and what a failed save leaves held is dropped. -/
def vacate (b : BearReq) (cid : Nat) (s : State) : State :=
  let queues := (queuesOn s b.cores).filter fun q => queueCtx s b.cores q == some cid
  let leave (s : State) : State :=
    ((s.groups.filter fun g => g.2.ctx == cid && onSet b.cores g.2).map (·.1)).foldl (fun s g => removeGroup g s) s
  let s1 := if decided s cid then s
    else if saveqOf s (ctxPart s cid) = 0 then leave (queues.foldl (fun s q => discardQueue b q s) s)
    else checkpointCtx b cid s
  if !(lateOn s1 b).contains cid then s1
  else
    let s2 := if ctxRuns s1 cid then freezeCtx cid s1 else s1
    let s3 := match s2.steps.find? fun (y : CtxStep) => y.target == cid && y.kind == 5, ctx? s2 cid with
      | some st, some c => doStep st c s2
      | _, _ => s2
    if ((ctx? s3 cid).map (·.mode)) = some .held then dropCtx b cid s3 else s3

def deadlineDue (s : State) : Option BearReq := s.plat.bearoffs.find? fun b => decide (b.t ≤ s.clk) && !(lateOn s b).isEmpty

/-- BEAROFF_DEADLINE. -/
def execBearoffDeadline (reqid : BitVec 32) (s : State) : Out := heldBase s <|
  match s.plat.bearoffs.find? fun b => b.reqid == reqid && decide (b.t ≤ s.clk) && !(lateOn s b).isEmpty with
  | none => idle s
  | some b => .next ((lateOn s b).foldl (fun s cid => vacate b cid s) s)

/-- No group is resident on the cores, and every engine command issued from them has completed or been saved. -/
def vacant (s : State) (b : BearReq) : Bool :=
  !(s.groups.any fun g => b.cores.getLsbD g.2.core) &&
  !(s.cmds.any fun c => b.cores.getLsbD c.2.core && ((ctx? s c.2.ctx).map fun x => x.mode != .saved).getD false)

/-- BEAROFF_COMPLETE. -/
def execBearoffComplete (reqid : BitVec 32) (s : State) : Out := heldBase s <|
  match s.plat.bearoffs.find? fun b => b.reqid == reqid && vacant s b with
  | none => idle s
  | some b =>
    .next (mgmtPost { cmdaddr := reqid.setWidth 64, counta := b.checkpointed, countb := b.discardedQ, progress := s.clk }
      (modPlat (fun p => { p with bearoffs := p.bearoffs.filter fun y => y != b }) s))

end Sys2Proof.Machine
end

