-- ==== Sys2Proof/Machine/Bits.lean ====
section
/-! DEFINITION. Logic, shifts and bit fields (R78 to R85). -/

set_option linter.unusedVariables false

namespace Sys2Proof.Machine

def maskN (n : Nat) : Nat := 2 ^ n - 1

/-- A two-source bit instruction at the type's width. -/
def bitOp2 (i : Instr) (x : Alu2) (f : Nat → Nat → Nat → Nat) (s : State) : Out :=
  compute i x.c x.ty x.d (fun clk u t =>
    f (Ty.bits x.ty) (readOpnd clk u x.ty x.imm x.a t) (readOpnd clk u x.ty x.imm x.b t)) s

/-- A one-source bit instruction; ty is the result's type. -/
def bitOp1 (i : Instr) (x : Alu1) (ty : Ty) (f : Nat → Nat → Nat) (s : State) : Out :=
  compute i x.c ty x.d (fun clk u t => f (Ty.bits x.ty) (readOpnd clk u x.ty x.imm x.a t)) s

/-- A shift or rotation: the count is a 32-bit operand (R78). -/
def shiftOp (i : Instr) (x : Alu2) (f : Nat → Nat → Nat → Nat) (s : State) : Out :=
  compute i x.c x.ty x.d (fun clk u t =>
    f (Ty.bits x.ty) (readOpnd clk u x.ty x.imm x.a t) (readOpnd clk u .b32 x.imm x.b t)) s

def execAnd (inv : Bool) (x : Alu2) (s : State) : Out :=
  bitOp2 (.and inv x) x (fun n a b => a &&& (if inv then maskN n ^^^ b else b)) s
def execOr (inv : Bool) (x : Alu2) (s : State) : Out :=
  bitOp2 (.or inv x) x (fun n a b => a ||| (if inv then maskN n ^^^ b else b)) s
def execXor (x : Alu2) (s : State) : Out := bitOp2 (.xor x) x (fun _ a b => a ^^^ b) s
def execNot (x : Alu1) (s : State) : Out := bitOp1 (.not x) x x.ty (fun n a => maskN n ^^^ a) s

/-- LUT (R79): result bit k is TTAB bit 8 d + 4 a + 2 b + c. -/
def lutBits (tab : Nat) (d a b c : Nat) : Nat → Nat
  | 0 => 0
  | k + 1 =>
    let pick := 8 * (d / 2 ^ k % 2) + 4 * (a / 2 ^ k % 2) + 2 * (b / 2 ^ k % 2) + c / 2 ^ k % 2
    lutBits tab d a b c k + (tab / 2 ^ pick % 2) * 2 ^ k

def execLut (tab : BitVec 16) (x : Alu3) (s : State) : Out :=
  compute (.lut tab x) x.c x.ty x.d (fun clk u t =>
    lutBits tab.toNat (readOpnd clk u x.ty 0 x.d t) (readOpnd clk u x.ty 0 x.a t) (readOpnd clk u x.ty 0 x.b t)
      (readOpnd clk u x.ty 0 x.x t) (Ty.bits x.ty)) s

/-- R80. -/
def shlValue (n a k : Nat) : Nat := if n ≤ k then 0 else a * 2 ^ k % 2 ^ n
def shrValue (arith : Bool) (n a k : Nat) : Nat :=
  if arith then intBits n (signed a n / (2 ^ min k n : Nat)) else if n ≤ k then 0 else a / 2 ^ k
def rotValue (right : Bool) (n a k : Nat) : Nat :=
  let l := if right then (n - k % n) % n else k % n
  (a * 2 ^ l ||| a / 2 ^ (n - l)) % 2 ^ n

def execShl (x : Alu2) (s : State) : Out := shiftOp (.shl x) x shlValue s
def execShr (arith : Bool) (x : Alu2) (s : State) : Out := shiftOp (.shr arith x) x (shrValue arith) s
def execRot (right : Bool) (x : Alu2) (s : State) : Out := shiftOp (.rot right x) x (rotValue right) s

/-- SHF (R81). -/
def shfValue (right : Bool) (n a b k : Nat) : Nat :=
  let X := a * 2 ^ n + b
  let m := min k n
  if right then X / 2 ^ m % 2 ^ n else X * 2 ^ m / 2 ^ n % 2 ^ n

def execShf (right : Bool) (x : Alu3) (s : State) : Out :=
  compute (.shf right x) x.c x.ty x.d (fun clk u t =>
    shfValue right (Ty.bits x.ty) (readOpnd clk u x.ty 0 x.a t) (readOpnd clk u x.ty 0 x.b t) (readOpnd clk u .b32 0 x.x t)) s

/-- R82. -/
def popcount (a : Nat) : Nat → Nat
  | 0 => 0
  | k + 1 => popcount a k + a / 2 ^ k % 2
def leadZeros (a : Nat) : Nat → Nat
  | 0 => 0
  | k + 1 => if a / 2 ^ k % 2 = 1 then 0 else 1 + leadZeros a k
def trailZeros (a : Nat) : Nat → Nat
  | 0 => 0
  | k + 1 => if a % 2 = 1 then 0 else 1 + trailZeros (a / 2) k
def reverseBits (a : Nat) : Nat → Nat
  | 0 => 0
  | k + 1 => a % 2 * 2 ^ k + reverseBits (a / 2) k

def execPopc (x : Alu1) (s : State) : Out := bitOp1 (.popc x) x .b32 (fun n a => popcount a n) s
def execClz (x : Alu1) (s : State) : Out := bitOp1 (.clz x) x .b32 (fun n a => leadZeros a n) s
def execCtz (x : Alu1) (s : State) : Out := bitOp1 (.ctz x) x .b32 (fun n a => trailZeros a n) s
def execBrev (x : Alu1) (s : State) : Out := bitOp1 (.brev x) x x.ty (fun n a => reverseBits a n) s

/-- BFX (R83). -/
def bfxValue (sx : Bool) (n a pos len : Nat) : Nat :=
  let l := min (len % 256) n
  if l = 0 then 0
  else
    let f := if sx then (signed a n / (2 ^ (pos % 256) : Nat)) % (2 ^ l : Nat) else ((a / 2 ^ (pos % 256) % 2 ^ l : Nat) : Int)
    if sx then intBits n (signed f.toNat l) else f.toNat

def execBfx (sx : Bool) (x : Alu3) (s : State) : Out :=
  compute (.bfx sx x) x.c x.ty x.d (fun clk u t =>
    bfxValue sx (Ty.bits x.ty) (readOpnd clk u x.ty 0 x.a t) (readOpnd clk u .b32 0 x.b t) (readOpnd clk u .b32 0 x.x t)) s

/-- BFI (R84): the bits of b from 0 land at pos upward; those at or above n are dropped. -/
def bfiValue (n a b c : Nat) : Nat :=
  let pos := c % 256
  let l := min (c / 256 % 256) n
  let hole := maskN l * 2 ^ pos % 2 ^ n
  (a &&& (maskN n ^^^ hole)) ||| (b % 2 ^ l * 2 ^ pos % 2 ^ n)

def execBfi (x : Alu3) (s : State) : Out :=
  compute (.bfi x) x.c x.ty x.d (fun clk u t =>
    bfiValue (Ty.bits x.ty) (readOpnd clk u x.ty 0 x.a t) (readOpnd clk u x.ty 0 x.b t) (readOpnd clk u .b32 0 x.x t)) s

/-- One byte of BMIX (R85). -/
def bmixByte (ab sel : Nat) : Nat :=
  let byte := bits ab (8 * (sel % 8)) 8
  match bits sel 3 2 with
  | 0 => byte
  | 1 => reverseBits byte 8
  | 2 => if 128 ≤ byte then 0xFF else 0
  | _ => [0x00, 0xFF, 0x80, 0x7F, 0x01, 0x0F, 0xF0, 0x55].getD (sel % 8) 0

def bmixValue (a b c : Nat) : Nat :=
  let ab := a + 2 ^ 32 * b
  bmixByte ab (bits c 0 8) + 2 ^ 8 * bmixByte ab (bits c 8 8) + 2 ^ 16 * bmixByte ab (bits c 16 8) +
    2 ^ 24 * bmixByte ab (bits c 24 8)

def execBmix (x : Alu3) (s : State) : Out :=
  compute (.bmix x) x.c x.ty x.d (fun clk u t =>
    bmixValue (readOpnd clk u .b32 0 x.a t) (readOpnd clk u .b32 0 x.b t) (readOpnd clk u .b32 0 x.x t)) s

end Sys2Proof.Machine
end

