-- ==== Sys2Proof/Machine/Link.lean ====
section
/-! DEFINITION. The link layer (R307, R312, R314, R315, R317): the flits a link grants, what comes over a link,
replays, and ports that lock. -/

set_option linter.unusedVariables false

namespace Sys2Proof.Machine

/-! ### What waits at a port (R312) -/

/-- The channel of a flit, as CRCHAN numbers it. -/
def chanOf (f : Flit) : Nat := if f.plane = 2 then 12 else f.plane.toNat * 6 + f.chan.toNat

def portOpen (s : State) (n : Nat) : Bool := (s.fab.ports[n]?.map fun q => q.connected && !q.locked).getD false

/-- The port has locked: the sources of what is dropped there are told (R317). -/
def portShut (s : State) (n : Nat) : Bool := (s.fab.ports[n]?.map fun q => q.connected && q.locked).getD false

/-- Credits are owed for flits of a channel that came by a port. -/
def owe (n c k : Nat) (s : State) : State := modPort n (fun q => { q with owed := sput 0 c (sgetD c 0 q.owed + k) q.owed }) s

/-- The link layer takes the next packet that leaves: its flits wait at the first port of its route, or are lost at one that is not
connected, or that is locked, of which this package is told as their source (R317, R321); those of a frozen context are held (R355). -/
def takePacket (s : State) : State :=
  match s.fab.outbox[s.fab.taken]? with
  | none => s
  | some p =>
    let bs := packetBytes p
    let n := hdrPort (headerOf bs) 0
    let mine : List PortFlit := (flitsOf p.plane bs).map fun f => { input := 16, hdr := headerOf bs, flit := f }
    let s1 := { s with fab := { s.fab with taken := s.fab.taken + 1 } }
    if flowClass p == 1 && ((ctx? s p.sctx.toNat).map (·.mode)).getD .running != .running then
      { s1 with fab := { s1.fab with cuts := s1.fab.cuts ++ mine.map fun g => (n, g) } }
    else if portOpen s n then modPort n (fun q => { q with waiting := q.waiting ++ mine }) s1
    else if portShut s n then
      let s2 := report (.portLock n s.selfPkg) s1
      if (pathsAvoiding s s.selfPkg n p.dst.toNat).isEmpty then s2 else portLocked s.selfPkg n s2
    else s1

/-- The position of the flit that a channel offers: the next of its open packet; else, of the inputs with a packet there, that of the first
after the one served last. This package's own packets win where their partition owns the port (R374). None without a credit (log 88). -/
def offered (own : Bool) (q : Port) (c : Nat) : Option Nat :=
  let at' (i : Nat) : Option Nat := q.waiting.findIdx? fun g => chanOf g.flit == c && g.input == i
  if decide (Config.linkCredits < (q.retry.filter fun g => chanOf g.flit == c).length) then none
  else match sget c q.opened with
    | some i => at' i
    | none =>
      let turns := (List.range 17).map fun k => (sgetD c 16 q.served + 1 + k) % 17
      (if own ∧ c = 6 then 16 :: turns else turns).findSome? at'

/-- The flit that the link grants next (R312): the management plane in one slot of 16 at most, control and tensor in turn where both
have a flit, the higher channel first. The Bool says that both had one. -/
def granted (own : Bool) (q : Port) : Option Nat × Bool :=
  let ctl := [5, 4, 3, 2, 1, 0].findSome? (offered own q)
  let ten := [11, 10, 9, 8, 7, 6].findSome? (offered own q)
  match (if 15 ≤ q.mgmtGap then offered own q 12 else none) with
  | some i => (some i, false)
  | none =>
    match ctl, ten with
    | some a, some b => (some (if q.even then a else b), true)
    | some a, none => (some a, false)
    | none, b => (b, false)

/-- The tensor-plane packet of this package that waits first at a port is of a partition that owns the port (R372). -/
def ownsPort (s : State) (n : Nat) (q : Port) : Bool :=
  match q.waiting.find? fun g => g.input == 16 && chanOf g.flit == 6 with
  | some g => ((ctx? s (hdrCtx g.hdr)).map fun c => (partOf s c.part).zports.getLsbD n).getD false
  | none => false

/-- The credits that a port owes first, as they ride on its next flit. -/
def creditFor (q : Port) : Nat × Nat :=
  match q.owed with
  | [] => (0, 0)
  | e :: _ => (e.1, min e.2 255)

/-! ### Link tags (R317) -/

/-- A flit's header (R314). -/
def Flit.header (f : Flit) : BitVec 64 := f.plane ++ f.chan ++ f.fidx ++ BitVec.ofBool f.last ++ f.lseq ++ f.crchan ++ f.crcnt ++ (0 : BitVec 10)

/-- The link tag over a flit's header and payload: the nonce is the direction bit, 31 zero bits and the 64-bit flit counter. -/
def linkTag (n session : Nat) (dir : Bool) (counter : Long) (f : Flit) : BitVec 64 :=
  Config.sealTag (Config.linkKey n session) (BitVec.ofBool dir ++ (0 : BitVec 31) ++ counter).toNat (Flit.header f).toNat f.payload

/-- The 64-bit counter of which a header gives bits 31:0: the one nearest to the counter expected. -/
def fullSeq (expects : Long) (lseq : Word) : Long := expects + (lseq - expects.setWidth 32).signExtend 64

/-- The tag of a flit that came over a port verifies. -/
def linkTagOk (n : Nat) (q : Port) (f : Flit) : Bool := f.tag == linkTag n q.session (!Config.linkDir n) (fullSeq q.lseqIn f.lseq) f

/-- A port grants its link once: a flit goes out and waits for its credit, and its buffer here is free again. -/
def grantPort (n : Nat) (s : State) : State :=
  match s.fab.ports[n]? with
  | none => s
  | some q =>
    if !q.connected || q.locked then s
    else match granted (ownsPort s n q) q with
      | (none, _) => modPort n (fun q => { q with mgmtGap := q.mgmtGap + 1 }) s
      | (some i, both) =>
        match q.waiting[i]? with
        | none => s
        | some g =>
          let c := chanOf g.flit
          let cr := creditFor q
          let f0 : Flit := { g.flit with lseq := q.lseqOut.setWidth 32, crchan := BitVec.ofNat 4 cr.1, crcnt := BitVec.ofNat 8 cr.2 }
          let f : Flit := { f0 with tag := linkTag n q.session (Config.linkDir n) q.lseqOut f0 }
          let q1 : Port :=
            { q with lseqOut := q.lseqOut + 1, retry := q.retry ++ [{ g with flit := f }], sent := q.sent ++ [f]
                     waiting := q.waiting.eraseIdx i, owed := sput 0 cr.1 (sgetD cr.1 0 q.owed - cr.2) q.owed
                     mgmtGap := if c = 12 then 0 else q.mgmtGap + 1, even := if both then !q.even else q.even
                     opened := if f.last then sdel c q.opened else sset c g.input q.opened, served := sset c g.input q.served }
          let s1 := modPort n (fun _ => q1) s
          if g.input < 16 ∧ c % 6 ≠ 0 then owe g.input (c - 1) 1 s1 else s1

/-! ### A flit that comes in -/

/-- The packet that a later flit goes on with: the one in progress on its channel, else the oldest that was cut at that flit (R355). -/
def partialFor (s : State) (n c : Nat) (k : Nat) : Option Partial :=
  let here := s.fab.partials.filter fun e => e.port == n && e.chan == c && e.next == k
  match here.find? fun e => !e.cut with
  | some e => some e
  | none => here.head?

/-- A first flit cuts the packet in progress on its channel: the receiver keeps at most 64 of those, and discards the one that finds them
full (R355). -/
def cutOthers (n c : Nat) (s : State) : State :=
  let hit (e : Partial) : Bool := e.port == n && e.chan == c && !e.cut
  let full := decide (Config.cutLimit ≤ (s.fab.partials.filter (·.cut)).length)
  let l := if full then s.fab.partials.filter fun e => !hit e
    else s.fab.partials.map fun e => if hit e then { e with cut := true } else e
  { s with fab := { s.fab with partials := l } }

def setPartial (old : Option Partial) (new : Option Partial) (s : State) : State :=
  let l := match old with
    | some e => s.fab.partials.erase e
    | none => s.fab.partials
  { s with fab := { s.fab with partials := l ++ new.toList } }

/-- A flit in transit waits at the route's next port, one channel higher (R307, R312). True where it is lost: the route ends, or the port
is locked or not connected. -/
def forwardFlit (n : Nat) (f : Flit) (h : Nat) (s : State) : State × Bool :=
  let i := f.chan.toNat + 1
  let k := hdrPort h i
  if i < hdrHops h && portOpen s k then
    (modPort k (fun q => { q with waiting := q.waiting ++ [{ input := n, hdr := h, flit := { f with chan := f.chan + 1 } }] }) s, false)
  else (owe n (chanOf f) 1 s, true)

/-- The event that a packet's arrival is. -/
def arrives (p : Packet) : State → Out :=
  if p.kind = 0x01 then execWrite p else if p.kind = 0x02 then execAtomicReturning p else if p.kind = 0x03 then execAtomicNotReturning p
  else if p.kind = 0x04 then execReadRequest p else if p.kind = 0x05 then execReadResponse p else if p.kind = 0x06 then execAcknowledgement p
  else if p.kind = 0x07 then execRefusal p else if p.kind = 0x08 then execPeerPut p else if p.kind = 0x09 then execPeerAdd p
  else if p.kind = 0x0A then execReductionContribution p else if p.kind = 0x0B then execReductionResult p
  else if p.kind = 0x10 then execReadShared p else if p.kind = 0x11 then execReadOwn p else if p.kind = 0x12 then execUpgrade p
  else if p.kind = 0x13 then execWriteBack p else if p.kind = 0x14 then execInvalidate p else if p.kind = 0x15 then execLineData p
  else if p.kind = 0x16 then execMirrorWrite p else if p.kind = 0x17 then execMirrorAcknowledgement p
  else if p.kind = 0x18 then execHomeChange p else execLaunchPacket p

/-- A packet that came whole. -/
def deliverPacket (plane : BitVec 2) (bytes : List Byte) (s : State) : State :=
  match packetFrom s plane bytes with
  | none => s
  | some p =>
    match arrives p s with
    | .next t => t
    | _ => s

/-- A flit of a packet: it goes on, or is kept until the packet is whole. -/
def packetFlit (n : Nat) (f : Flit) (s : State) : State :=
  let c := chanOf f
  let s1 := if f.fidx = 0 then cutOthers n c s else s
  let old := if f.fidx = 0 then none else partialFor s1 n c f.fidx.toNat
  match (if f.fidx = 0 then some { port := n, chan := c, next := 0, bytes := [], cut := false, dead := false } else old) with
  | none => owe n c 1 s1
  | some e =>
    let bytes := e.bytes ++ f.payload
    let h := headerOf bytes
    let go (dead : Bool) (s : State) : State :=
      setPartial old (if f.last then none else some { e with next := f.fidx.toNat + 1, bytes := bytes, cut := false, dead := dead }) s
    if hdrDst h = s.selfPkg then
      let s2 := go false (owe n c 1 s1)
      if f.last then deliverPacket f.plane bytes s2 else s2
    else if e.dead then go true (owe n c 1 s1)
    else
      let r := forwardFlit n f h s1
      let k := hdrPort h (f.chan.toNat + 1)
      go r.2 (if r.2 && decide (f.chan.toNat + 1 < hdrHops h) && portShut s k then report (.portLock k (hdrSrc h)) r.1 else r.1)

/-- A flit that verifies: its credits free the retry buffer; management packets end here (R311), a flit of a reserved plane, channel or
index is discarded (R314), and the others go on. -/
def flitGood (n : Nat) (f : Flit) (s : State) : State :=
  let credit (l : List PortFlit) : List PortFlit :=
    let mine := (l.filter fun g => chanOf g.flit == f.crchan.toNat).take f.crcnt.toNat
    l.filter fun g => !mine.contains g
  let s1 := modPort n (fun q => { q with lseqIn := q.lseqIn + 1, retry := credit q.retry }) s
  if f.plane = 2 then owe n 12 1 s1
  else if f.plane = 3 ∨ 5 < f.chan.toNat ∨ 8 < f.fidx.toNat then s1
  else packetFlit n f s1

/-- A packet in transit whose route goes on by a port. -/
def goesBy (s : State) (n : Nat) (e : Partial) : Bool :=
  hdrDst (headerOf e.bytes) != s.selfPkg && hdrPort (headerOf e.bytes) (e.chan % 6 + 1) == n

/-- Every packet with a flit not yet credited across a locked port is dropped, and what of it is still to come. -/
def lockPort (n : Nat) (s : State) : State :=
  let s1 := { s with fab := { s.fab with partials := s.fab.partials.map fun e => if goesBy s n e then { e with dead := true } else e } }
  modPort n (fun q => { q with fails := q.fails + 1, locked := true, retry := [], waiting := [], opened := [] }) s1

/-- A failing tag: replay is asked for; at the second one the port locks, and the sources of what it drops are told (R317); this package's
own packets are sent again (R321). -/
def flitBad (n : Nat) (f : Flit) (s : State) : State :=
  match s.fab.ports[n]? with
  | none => s
  | some q =>
    let s1 := report (.linkError n) s
    if q.fails = 0 then modPort n (fun q => { q with fails := 1 }) (report (.replayAsk n (q.lseqIn.setWidth 32)) s1)
    else
      let rest := s.fab.partials.filter fun e => goesBy s n e && !e.dead
      let srcs := ((q.retry ++ q.waiting).map (fun g => hdrSrc g.hdr) ++ rest.map fun e => hdrSrc (headerOf e.bytes)).eraseDups
      let s2 := srcs.foldl (fun s p => report (.portLock n p) s) (lockPort n (report (.portLock n 4096) s1))
      if srcs.contains s.selfPkg then portLocked s.selfPkg n s2 else s2

/-- FLIT_RECEIVE (R317): flits that are not the next of their link are discarded until the replay. -/
def execFlitReceive (port : Nat) (f : Flit) (s : State) : Out := heldPlat s <|
  match s.fab.ports[port]? with
  | none => idle s
  | some q =>
    if !q.connected || q.locked then idle s
    else if !linkTagOk port q f then .next (flitBad port f s)
    else if f.lseq ≠ q.lseqIn.setWidth 32 then idle s
    else .next (flitGood port f s)

/-- LINK_REPLAY_REQUEST: the retry buffer is sent again from the flit asked for. -/
def execLinkReplayRequest (port : Nat) (lseq : BitVec 32) (s : State) : Out := held s <|
  match s.fab.ports[port]? with
  | none => idle s
  | some q => if !q.connected || q.locked then idle s
    else .next (modPort port (fun q => { q with
      sent := q.sent ++ (q.retry.map (·.flit)).filter fun g => decide ((g.lseq - lseq).toNat < 2 ^ 31) }) s)

/-! ### Attestation and the link's own steps -/

/-- A new attestation clears the port's count and unlocks it, and gives it a new link key; a locked port's flit counters begin again
(log 88). -/
def Port.attested (q : Port) : Port :=
  let q1 := { q with fails := 0, session := q.session + 1 }
  if q.locked then { q1 with locked := false, lseqOut := 0, lseqIn := 0 } else q1

def linkAct (a : LinkAct) (s : State) : State := keepPlat s <|
  match a with
  | .take => takePacket s
  | .grant n => grantPort n s
  | .attest n => modPort n (fun q => if q.connected then q.attested else q) s

/-- The links go on by one slot, where any port is connected. -/
def linkRound (s : State) : State :=
  if s.fab.ports.any (·.connected) then (List.range s.fab.ports.length).foldl (fun s n => grantPort n s) (takePacket s) else s

end Sys2Proof.Machine
end

