-- ==== Sys2Proof/Machine/Boot.lean ====
section
/-! DEFINITION. Power-on and the journalled boot (R390, R391). -/

set_option linter.unusedVariables false

namespace Sys2Proof.Machine

/-- The last outcome recorded for the step and unit is a failure. -/
def lastFailed (s : State) (step unit : Nat) : Bool := s.plat.failed.contains (step, unit)

/-- An outcome goes to the journal. A success clears the failure of the step and unit, an alternative leaves it. -/
def recordStep (us step unit result alt code : Nat) (s : State) : State :=
  let rest (p : Plat) : List (Nat × Nat) := p.failed.filter (· != (step, unit))
  let note (p : Plat) : Plat :=
    if result = 0 then { p with failed := rest p } else if result = 1 then { p with failed := rest p ++ [(step, unit)] } else p
  journalNow us step unit result alt code (modPlat note s)

/-- The boot stops at a step; the report on the management port carries the step (log 38). -/
def stopBoot (step : Nat) (s : State) : State :=
  modPlat (fun p => { p with stopped := true, responses := p.responses ++ [{ status := 0x000A, body := [BitVec.ofNat 8 step] }] }) s

/-- How a step's work went: no outcome listed is a success. -/
def outcomeOf (outs : List BootOutcome) (step unit : Nat) : Bool × Nat :=
  match outs.find? fun o => o.step.toNat == step && o.unit.toNat == unit && !o.ok with
  | some o => (false, o.code.toNat)
  | none => (true, 0)

/-- The step, or an image copy or stack that it works on, failed last time. -/
def stepFailed (s : State) (step : Nat) : Bool := s.plat.failed.any fun f => f.1 == step

/-- The units of a step that fail now, with their codes; 0xFF is the whole step. -/
def failsNow (outs : List BootOutcome) (step : Nat) (units : List Nat) : List (Nat × Nat) :=
  (0xFF :: units).filterMap fun u => match outcomeOf outs step u with
    | (true, _) => none
    | (false, code) => some (u, code)

/-- A step whose failure concerns the whole package: alt is its alternative's code, 0 where it has none; units gives the image copy or the
stacks that it works on, and name the unit that its success is recorded for. Each unit that fails is journalled. A first failure ends this
start, and the next takes the alternative (log 38). -/
def wholeStep (us : Nat) (outs : List BootOutcome) (step alt : Nat) (units : Bool → List Nat) (name : Bool → Nat) (work : Bool → State → State)
    (s : State) : State :=
  let again := stepFailed s step
  let code := if again then alt else 0
  if again && alt = 0 then stopBoot step s
  else
    match failsNow outs step (units again) with
    | [] => work again (recordStep us step (name again) (if again then 3 else 0) code 0 s)
    | bad => stopBoot step (bad.foldl (fun s b => recordStep us step b.1 1 code b.2 s) s)

/-- The copy of an image that a step verifies: UNIT 0 is copy A, 1 copy B (log 38). -/
def imageCopy (alt : Bool) : Nat := if alt then 1 else 0

/-- A step that verifies an image. -/
def imageStep (us : Nat) (outs : List BootOutcome) (step : Nat) (work : Bool → State → State) (s : State) : State :=
  wholeStep us outs step 1 (fun alt => [imageCopy alt]) imageCopy work s

/-- A step without units. -/
def plainStep (us : Nat) (outs : List BootOutcome) (step alt : Nat) (work : Bool → State → State) (s : State) : State :=
  wholeStep us outs step alt (fun _ => []) (fun _ => 0xFF) work s

/-- A step for one unit: a unit that failed last time is skipped, one that fails now is journalled and left out. -/
def unitStep (us : Nat) (outs : List BootOutcome) (step : Nat) (up down : Nat → Plat → Fabric → Plat × Fabric) (s : State) (unit : Nat) : State :=
  let put (r : Plat × Fabric) (s : State) : State := { s with plat := r.1, fab := r.2 }
  if lastFailed s step unit then
    let s1 := recordStep us step unit 2 3 0 s
    put (down unit s1.plat s1.fab) s1
  else
    match outcomeOf outs step unit with
    | (true, _) =>
      let s1 := recordStep us step unit 0 0 0 s
      put (up unit s1.plat s1.fab) s1
    | (false, code) =>
      let s1 := recordStep us step unit 1 0 code s
      put (down unit s1.plat s1.fab) s1

/-- A CXL port that is down: the capacity tier lacks it. -/
def cxlUp (n : Nat) (p : Plat) (f : Fabric) : Plat × Fabric := (p, f)
def cxlOff (n : Nat) (p : Plat) (f : Fabric) : Plat × Fabric := ({ p with cxlDown := p.cxlDown ++ [n] }, f)

/-- A Z-port that is brought up and attested is connected. -/
def zportUp (n : Nat) (p : Plat) (f : Fabric) : Plat × Fabric :=
  let join (q : Port) : Port := { q.attested with connected := true }
  (p, { f with ports := modAt f.ports n join })
def zportOff (n : Nat) (p : Plat) (f : Fabric) : Plat × Fabric := (p, f)

/-- Steps 1 to 8 in order, until the boot stops. Step 7 applies the layout as R377 leaves it, on its alternative too. -/
def bootStep (us : Nat) (outs : List BootOutcome) (s : State) (step : Nat) : State :=
  if s.plat.stopped then s
  else
    match step with
    | 2 => imageStep us outs 2 (fun alt s => modPlat (fun p => { p with fwCopyB := alt }) s) s
    | 3 => wholeStep us outs 3 2 (fun _ => List.range 12) (fun _ => 0xFF) (fun alt s => modPlat (fun p => { p with lowRate := alt }) s) s
    | 4 => (List.range 8).foldl (unitStep us outs 4 cxlUp cxlOff) s
    | 5 => (List.range 16).foldl (unitStep us outs 5 zportUp zportOff) s
    | 6 => imageStep us outs 6 (fun alt s => modPlat (fun p => { p with kernelCopyB := alt }) s) s
    | 7 => plainStep us outs 7 3 (fun alt s => if commitState s = 2 then resumeCommit s
        else checkActive (commitState s == 0) (resumeCommit s)) s
    | 8 => plainStep us outs 8 0 (fun _ s => modPlat (fun p => { p with joined := true, bases := some (Config.pcbBase, Config.windowBase) }) s) s
    | n => plainStep us outs n 0 (fun _ s => s) s

/-- What outlasts power: the persistent SRAM and the fused identity. -/
def powerOn (us : Nat) (s : State) : State :=
  let p := s.plat
  { State.reset with
    clk := us * Config.cyclesPerUs
    agenda := s.agenda
    plat := { Plat.reset with powered := true, bootn := p.bootn + 1, journal := p.journal, failed := p.failed, commit := p.commit,
                              copy0 := p.copy0, copy1 := p.copy1, feed := p.feed } }

/-- POWER_GOOD: us is the time that the boot's records carry; outcomes lists the steps and units that fail. -/
def execPowerGood (us : Nat) (outcomes : List BootOutcome) (s : State) : Out :=
  .next ((List.range' 1 8).foldl (bootStep us outcomes) (powerOn us s))

end Sys2Proof.Machine
end

