-- ==== Sys2Proof/Machine/Checkpoint.lean ====
section
/-! DEFINITION. Checkpoints (R385 to R389), and the completion of the context engine's steps (R367, R369, R382, R385). -/

set_option linter.unusedVariables false

namespace Sys2Proof

/-- A generation that a partner's tier holds (R386) and that this package's streams have not brought there: partner, partition, number
(log 40). -/
opaque Config.partnerGen : Nat → Nat → Nat → Option Machine.Generation

end Sys2Proof

namespace Sys2Proof.Machine

/-! ### Chunks of 64 MiB -/

def chunkSize : Nat := 2 ^ 26

/-- The number of a chunk of a buffer, in COUNTA of a failed restore (log 44). -/
def chunkIndex (buf chunk : Nat) : Nat := buf * 4096 + chunk

/-- Offsets and lengths of the interleave granules of chunk k of a buffer. -/
def chunkPieces (e : BitVec 256) (k : Nat) : List (Nat × Nat) :=
  let n := min chunkSize (Buf.last e + 1 - k * chunkSize)
  (List.range (ceilDiv n (Buf.granule e))).map fun i =>
    (k * chunkSize + i * Buf.granule e, min (Buf.granule e) (n - i * Buf.granule e))

/-- Device ranges of a chunk: offset in the chunk, address, length. -/
def chunkPlaces (s : State) (part buf k : Nat) : List (Nat × Nat × Nat) :=
  (chunkPieces (bufEntry s part buf) k).filterMap fun p =>
    match portPlace s part buf p.1 .rd with
    | .ok dpa => some (p.1 - k * chunkSize, dpa, p.2)
    | _ => none

/-- The bytes of a chunk that are not zero. -/
def chunkCells (s : State) (part buf k : Nat) : List (Nat × Byte) :=
  (chunkPlaces s part buf k).flatMap fun p =>
    (s.mem.filter fun c => decide (p.2.1 ≤ c.1) && decide (c.1 < p.2.1 + p.2.2)).map fun c => (p.1 + (c.1 - p.2.1), c.2)

/-- A row of the chunk has failed: it is no good data (R297). -/
def chunkFails (s : State) (part : Nat) (w : Nat × Nat) : Bool := (chunkPlaces s part w.1 w.2).any fun p => rowFailed s p.2.1

/-- Every chunk of the valid entries among a partition's buffers. -/
def bufChunks (part : Nat) (bufs : Sparse (BitVec 256)) : List (Nat × Nat) :=
  (bufs.filter fun b => b.1 / 4096 == part && Buf.valid b.2).flatMap fun b =>
    (List.range (ceilDiv (Buf.last b.2 + 1) chunkSize)).map fun k => (b.1 % 4096, k)

/-- A chunk's bytes stand at their places, found with the buffer table of s0. -/
def putChunk (s0 : State) (part buf k : Nat) (cells : List (Nat × Byte)) (s : State) : State :=
  let places := chunkPlaces s0 part buf k
  let s1 := zeroRanges (places.map fun p => (p.2.1, p.2.2)) s
  let at' (off : Nat) : Option Nat :=
    (places.find? fun p => decide (p.1 ≤ off) && decide (off < p.1 + p.2.2)).map fun p => p.2.1 + (off - p.1)
  { s1 with mem := cells.foldl (fun m c => match at' c.1 with
    | some a => setByte m a c.2
    | none => m) s1.mem }

/-! ### CKPT (R385, R386) -/

def CkptState.new (part : Nat) : CkptState :=
  { part := part, gen := 0, replica := [], streaming := none, stream := [], busy := false, base := 0, slotBytes := 0, frozen := [] }

def ckptOf (s : State) (part : Nat) : CkptState := (s.plat.ckpts.find? fun c => c.part == part).getD (CkptState.new part)

def setCkpt (c : CkptState) (s : State) : State :=
  modPlat (fun p => { p with ckpts := (p.ckpts.filter fun y => y.part != c.part) ++ [c] }) s

def partCtxs (s : State) (part : Nat) : List (Nat × Ctx) := s.ctxs.filter fun c => c.2.part == part

/-- USER bit 0 is the flag of R387 (log 37). -/
def flagOf (notIndependent : Bool) : Word := if notIndependent then 1 else 0

/-- The generation whose stream has not ended is incomplete at the partner, and the host is told (R386). -/
def cutStream (part : Nat) (s : State) : State :=
  match (ckptOf s part).streaming with
  | none => s
  | some g =>
    let mark (x : Generation) : Generation := if x.part = part ∧ x.gen = g then { x with partnerIncomplete := true } else x
    mgmtPost { status := 0x0009, counta := g, countb := part, progress := s.clk, user := flagOf s.plat.notIndependent } (modPlat (fun p => { p with gens := p.gens.map mark }) s)

/-- CKPT: the partition's contexts are frozen, with a yield where they have a handler; the writing comes when they stand. -/
def execCkpt (h : HostCmd) (s : State) : Out := heldBase s <|
  hostCmd 0x20 0 (fun h => 24 + 4 * field h.body 20 4) h (fun s =>
    let part := field h.body 0 4
    let base := field h.body 4 8
    let len := field h.body 12 8
    let n := field h.body 20 4
    let bufs := (List.range n).map fun i => field h.body (24 + 4 * i) 4
    if 64 ≤ part ∨ 64 < n ∨ base < 2 ^ 43 ∨ 2 ^ 43 + 2 ^ 43 < base + len ∨ (bufs.any fun b => decide (4096 ≤ b)) ∨ (ckptOf s part).busy then
      settleCmd h 0x000A 0 s
    else
      let s1 := cutStream part (respondTo h 0 [] s)
      let run := ((partCtxs s1 part).filter fun c => c.2.mode == .running).map (·.1)
      let s2 := run.foldl (fun s cid => match ctx? s cid with
        | some c => startFreeze cid c s
        | none => s) s1
      let st : CtxStep := { id := s2.fresh, target := 4096 + part, kind := 6, area := BitVec.ofNat 64 base, issuer := none, prog := 0,
                            bearReq := none }
      let k := ckptOf s2 part
      setCkpt { k with busy := true, base := base, slotBytes := len / 2, frozen := run, replica := bufs }
        { s2 with steps := s2.steps ++ [st], fresh := s2.fresh + 1 }) s

/-- A context's image goes to its save area as .sav writes it; none where a write fails. -/
def imageOut (cid : Nat) (s : State) : Option (State × List (Nat × Nat × List Byte)) :=
  match ctx? s cid with
  | none => some (s, [])
  | some c =>
    let base := c.savebase.toNat
    if c.mode = .saved then
      (gpaRead s c.part base (max 512 c.saveBytes)).map fun bs => (s, [(cid, base, bs)])
    else
      let s1 := recordCmds (fun _ x => x.ctx == cid) s
      let pieces := ctxPieces s1 cid { c with step := 0 } ++ [(0, descBytes cid { c with step := 0 } .saved base (ctxGroups s1 cid).length)]
      match writeParts (ctxPieces s1 cid c) cid { c with step := 0 } .saved base s1 with
      | (s2, none) => some (putFrames (fun _ x => x.ctx == cid) s2, pieces.map fun p => (cid, base + p.1, p.2))
      | _ => none

def imagesOut : List Nat → State → Option (State × List (Nat × Nat × List Byte))
  | [], s => some (s, [])
  | cid :: rest, s =>
    match imageOut cid s with
    | none => none
    | some (s1, l) => (imagesOut rest s1).map fun r => (r.1, l ++ r.2)

/-- Contexts that the checkpoint froze go on. -/
def thawCkpt (l : List Nat) (s : State) : State :=
  l.foldl (fun s cid => if ((ctx? s cid).map fun c => c.mode == .frozen && !c.bearoff && !c.thermal).getD false then
    noteState cid (resumeCtx cid s) else s) s

/-- The last generation of a partition. -/
def lastGen (s : State) (part : Nat) : Option Generation :=
  let newer (a : Option Generation) (g : Generation) : Option Generation :=
    if g.part ≠ part then a
    else match a with
      | none => some g
      | some x => if x.gen < g.gen then some g else some x
  s.plat.gens.foldl newer none

/-- Queued launches of the partition, in order. -/
def queuedPackets (s : State) (part : Nat) : List (Nat × List Byte) :=
  (s.launches.filter fun l => l.2.part == part && l.2.st == .queued && l.2.next == 0).map fun l => (l.2.queue, l.2.pkt)

/-- tl.q of the partition's contexts: VALUE, and under 4,096 + context the numbers taken by launches that are not queued. -/
def queueValues (s : State) (part : Nat) : List (Nat × Nat) :=
  (partCtxs s part).flatMap fun c =>
    let t := timeline s c.1 5
    let waiting := (s.launches.filter fun l => l.2.owner == c.1 && l.2.st == .queued && l.2.next == 0).length
    [(c.1, t.value), (4096 + c.1, t.taken - waiting)]

/-- What a slot's bytes become stands in memory (R385, log 40). -/
def writeSlot (base len : Nat) (cells : List (Nat × Byte)) (s : State) : State :=
  { s with mem := (cells.filter fun c => decide (c.1 < len)).foldl (fun m c => setByte m (base + c.1) c.2) s.mem }

/-- A chunk as the last generation holds it, where it has not been written since. -/
def heldChunk (s : State) (part : Nat) (w : Nat × Nat) : Option (Nat × Nat × List (Nat × Byte) × BitVec 384) :=
  if s.written.contains (part * 4096 + w.1, w.2) then none
  else (lastGen s part).bind fun g => g.chunks.find? fun c => c.1 == w.1 && c.2.1 == w.2

/-- A chunk as it is. -/
def freshChunk (s : State) (part : Nat) (w : Nat × Nat) : Nat × Nat × List (Nat × Byte) × BitVec 384 :=
  let cells := chunkCells s part w.1 w.2
  (w.1, w.2, cells, Config.sha384 cells)

/-- The chunks that the next generation reads: those written since the last, and those that it does not hold. -/
def chunksToRead (part : Nat) (s : State) : List (Nat × Nat) := (bufChunks part s.tabs.bufs).filter fun w => (heldChunk s part w).isNone

/-- Steps 2 to 4: the schedule, the changed chunks, the manifest. A chunk that did not change keeps the bytes and the digest of the
generation before. -/
def writeGeneration (part : Nat) (images : List (Nat × Nat × List Byte)) (s : State) : State :=
  let k := ckptOf s part
  let gen := k.gen + 1
  let changed := s.written.filter fun w => w.1 / 4096 == part && !k.replica.contains (w.1 % 4096) && Buf.valid (sgetD w.1 0 s.tabs.bufs)
  let all := (bufChunks part s.tabs.bufs).map fun w => (heldChunk s part w).getD (freshChunk s part w)
  let slot := gen % 2
  let g : Generation :=
    { part := part, gen := gen, clk := s.clk, slot := slot, base := k.base + slot * k.slotBytes, complete := true,
      notIndependent := s.plat.notIndependent, partnerIncomplete := false, atPartner := false, contexts := (partCtxs s part).map (·.1),
      packets := queuedPackets s part, bufs := s.tabs.bufs.filter fun b => b.1 / 4096 == part, tlq := queueValues s part,
      images := images, chunks := all.filter fun c => !k.replica.contains c.1, replica := k.replica,
      backed := (all.filter fun c => k.replica.contains c.1).map fun c => (c.1, c.2.1, c.2.2.2) }
  let delta := changed.map fun w => (w.1 % 4096, w.2)
  let stream := if s.plat.partner.isNone then [] else (if k.streaming.isSome then k.stream.filter fun d => !delta.contains d else []) ++ delta
  setCkpt { k with gen := gen, streaming := s.plat.partner.map fun _ => gen, stream := stream }
    (modPlat (fun p => { p with gens := (p.gens.filter fun y => !(y.part == part && y.slot == slot)) ++ [g] })
      (writeSlot g.base k.slotBytes (Config.slotImage part gen s.clk) { s with written := s.written.filter fun w => !changed.contains w }))

/-- The record of a finished checkpoint: USER bit 0 is the flag of R387 (log 37). -/
def ckptRecord (status : BitVec 16) (part gen : Nat) (s : State) : State :=
  mgmtPost { status := status, counta := gen, countb := part, progress := s.clk, user := flagOf s.plat.notIndependent } s

/-- Every context of the partition stands: the checkpoint is written. -/
def finishCkpt (part : Nat) (s : State) : State :=
  let k := ckptOf s part
  let done (s : State) : State := thawCkpt k.frozen (setCkpt { ckptOf s part with busy := false, frozen := [] } s)
  match if (chunksToRead part s).any (chunkFails s part) then none else imagesOut ((partCtxs s part).map (·.1)) s with
  | none => done (ckptRecord 0x0009 part k.gen s)
  | some (s1, images) => done (ckptRecord 0 part (k.gen + 1) (writeGeneration part images s1))

/-- PARTNER_DELTA_STREAM: the stream of a partition's last generation ends (R386). -/
def execPartnerDeltaStream (part : Nat) (s : State) : Out := heldBase s <|
  let k := ckptOf s part
  match k.streaming with
  | none => idle s
  | some g =>
    let there (x : Generation) : Generation := if x.part = part ∧ x.gen = g then { x with atPartner := true } else x
    let same (x : Generation) : Bool := x.part == part && x.gen == g
    let arrive (p : Plat) : Plat :=
      { p with gens := p.gens.map there, partnerGens := (p.partnerGens.filter fun x => !same x) ++ (p.gens.filter same).map there }
    .next (setCkpt { k with streaming := none, stream := [] } (modPlat arrive s))

/-- PAIR (R387). -/
def execPair (h : HostCmd) (s : State) : Out := heldBase s <|
  hostCmd 0x21 1 (fixedSize 8) h (fun s =>
    let pkg := field h.body 0 4
    let same := field h.body 4 4 == s.plat.feed
    if 4096 ≤ pkg ∨ (same ∧ !h.flags.getLsbD 0) then settleCmd h 0x000A 0 s
    else mgmtPost { cmdaddr := h.seq, counta := pkg, progress := s.clk, user := flagOf same }
      (respondTo h 0 [] (modPlat (fun p => { p with partner := some pkg, notIndependent := same }) s))) s

/-! ### RESTORE (R388, R389) -/

/-- The bytes that stand for a chunk after the comparison with the replica: none when it matches neither source. -/
def checkChunk (replica part gen idx : Nat) (cells : List (Nat × Byte)) (manifest : BitVec 384) : Option (List (Nat × Byte)) :=
  match Config.replica replica part gen idx with
  | none => if Config.sha384 cells = manifest then some cells else none
  | some (d, bs) => if Config.sha384 cells = d then some cells else if Config.sha384 bs = d then some bs else none

/-- Chunks are verified in order; the index of the first that fails. -/
def verifyChunks (replica part gen : Nat) (s0 : State) : List (Nat × Nat × List (Nat × Byte) × BitVec 384) → State → State × Option Nat
  | [], s => (s, none)
  | (buf, k, cells, d) :: rest, s =>
    match checkChunk replica part gen (chunkIndex buf k) cells d with
    | none => (s, some (chunkIndex buf k))
    | some bs => verifyChunks replica part gen s0 rest (if bs = cells then s else putChunk s0 part buf k bs s)

/-- Replica-backed buffers come whole from the replica. -/
def fetchBacked (replica part gen : Nat) (s0 : State) : List (Nat × Nat) → State → State × Option Nat
  | [], s => (s, none)
  | (buf, k) :: rest, s =>
    match Config.replica replica part gen (chunkIndex buf k) with
    | none => (s, some (chunkIndex buf k))
    | some (d, bs) => if Config.sha384 bs = d then fetchBacked replica part gen s0 rest (putChunk s0 part buf k bs s)
        else (s, some (chunkIndex buf k))

/-- What stood of a context on this package goes. -/
def clearCtx (cid : Nat) (s : State) : State :=
  let gs := (ctxGroups s cid).map (·.1)
  let mine (g : Nat) : Bool := gs.contains g
  let teams := (ctxGroups s cid).map fun e => e.2.team
  let blank (c : Ctx) : Ctx := { c with mode := .saved, step := 0, armed := [], cut := [], savedGroups := [], landed := [], landedBars := [], savedRecs := [], armedHead := 0 }
  let s1 := orphan (fun a => mine a.group) s
  modCtx cid (fun c => { blank c with yieldPending := false, bearoff := false, thermal := false })
    { s1 with groups := s1.groups.filter fun e => e.2.ctx != cid
              slabs := s1.slabs.filter fun e => !mine e.2.group
              teams := s1.teams.filter fun e => !teams.contains e.1
              resv := s1.resv.filter fun r => !mine r.group
              cmds := s1.cmds.filter fun e => e.2.ctx != cid
              launches := s1.launches.filter fun l => l.2.owner != cid
              steps := s1.steps.filter fun (y : CtxStep) => y.target ≠ cid
              cur := none }

/-- A queued packet of the schedule stands in its queue again. -/
def requeue (part : Nat) (s : State) (p : Nat × List Byte) : State :=
  let owner := Queue.own (queueEntry s p.1)
  let n := takeNumber owner 5 s
  let x : Launch :=
    { queue := p.1, owner := owner, part := part, n := n.2, pkt := p.2, cmdaddr := 0, st := .queued, next := 0, retired := 0,
      discarded := 0, outstanding := 0, status := 0, firstAt := none, passedSince := none, holdCore := none, holdQuad := none,
      compatDone := false, gone := false }
  { n.1 with launches := sset n.1.fresh x n.1.launches, fresh := n.1.fresh + 1 }

/-- The schedule is loaded: buffer table, images, tl.q, queued packets. The contexts stand saved. -/
def loadSchedule (g : Generation) (s : State) : State :=
  let others := s.tabs.bufs.filter fun b => b.1 / 4096 != g.part
  let s1 := { s with tabs := { s.tabs with bufs := g.bufs.foldl (fun m b => sput 0 b.1 b.2 m) others } }
  let s2 := (partCtxs s1 g.part).foldl (fun s c => clearCtx c.1 s) s1
  let s3 := g.images.foldl (fun s p => (gpaWrite g.part p.2.1 p.2.2 s).1) s2
  let tlq (s : State) (c : Nat × Ctx) : State :=
    let v := ((g.tlq.find? fun t => t.1 == c.1).map (·.2)).getD 0
    let n := ((g.tlq.find? fun t => t.1 == 4096 + c.1).map (·.2)).getD v
    let t : Timeline := { err := false, value := v, taken := n, done := [] }
    modCtx c.1 (fun x => { x with tls := modAt x.tls 5 fun _ => t }) s
  g.packets.foldl (requeue g.part) ((partCtxs s3 g.part).foldl tlq s3)

/-- The replica-backed chunks of a generation's buffers. -/
def backedChunks (s : State) (g : Generation) : List (Nat × Nat) :=
  g.replica.flatMap fun b =>
    let e := sgetD (g.part * 4096 + b) 0 g.bufs
    if Buf.valid e then (List.range (ceilDiv (Buf.last e + 1) chunkSize)).map fun k => (b, k) else []

/-- The generation that RESTORE names, from the local slots or from the partner's tier; one without a whole manifest is none. -/
def heldGen (s : State) (source part gen : Nat) : Option Generation :=
  let named (g : Generation) : Bool := g.part == part && g.gen == gen && g.complete
  if source = 0 then s.plat.gens.find? named
  else if source = 1 then
    match s.plat.partner with
    | none => none
    | some p =>
      if s.lost.contains p then none
      else ((s.plat.partnerGens.find? fun g => named g && !g.partnerIncomplete).orElse fun _ =>
        (Config.partnerGen p part gen).filter fun g => named g && !g.partnerIncomplete)
  else none

/-- RESTORE. -/
def execRestore (h : HostCmd) (s : State) : Out := heldBase s <|
  hostCmd 0x22 0 (fixedSize 16) h (fun s =>
    let part := field h.body 0 4
    let gen := field h.body 4 4
    let source := field h.body 8 4
    let rep := field h.body 12 4
    match heldGen s source part gen with
    | none => settleCmd h 0x000A 0 s
    | some g =>
      let s0 := { s with tabs := { s.tabs with bufs := g.bufs } }
      let s1 := g.chunks.foldl (fun s c => putChunk s0 part c.1 c.2.1 c.2.2.1 s) (respondTo h 0 [] s)
      match verifyChunks rep part gen s0 g.chunks s1 with
      | (s2, some i) => mgmtPost { cmdaddr := h.seq, status := 0x0009, counta := i, progress := s.clk, user := flagOf g.notIndependent } s2
      | (s2, none) =>
        match fetchBacked rep part gen s0 (backedChunks s g) s2 with
        | (s3, some i) => mgmtPost { cmdaddr := h.seq, status := 0x0009, counta := i, progress := s.clk, user := flagOf g.notIndependent } s3
        | (s3, none) =>
          mgmtPost { cmdaddr := h.seq, counta := gen, countb := part, progress := s.clk, user := flagOf g.notIndependent }
            (loadSchedule g s3)) s

/-! ### Steps of the context engine -/

/-- A checkpoint's step waits until every context of its partition stands. -/
def ckptReady (s : State) (st : CtxStep) : Bool := !((partCtxs s (st.target - 4096)).any fun c => c.2.mode == .running)

def canStep (s : State) (st : CtxStep) : Bool := if st.kind = 6 then ckptReady s st else stepReady s st

/-- The lines that a checkpoint of a partition needs and that are not here. -/
def ckptLacks (s : State) (part : Nat) : List (Nat × Bool) :=
  if allHere s then []
  else
    let image (x : Nat × Ctx) : List (Nat × Bool) :=
      if x.2.mode = .saved then runLacks s part x.2.savebase.toNat (max 512 x.2.saveBytes) false
      else saveLacks s x.1 x.2 x.2.savebase.toNat
    let piece (buf : Nat) (p : Nat × Nat) : Option (Nat × Bool) := match portPlace s part buf p.1 .rd with
      | .lacks d => some (d, false)
      | _ => none
    let chunk (w : Nat × Nat) : List (Nat × Bool) :=
      (chunkPieces (bufEntry s part w.1) w.2).filterMap (piece w.1)
    (partCtxs s part).flatMap image ++ (chunksToRead part s).flatMap chunk

/-- The control lines that a step needs next and that are not here (log 75). -/
def stepLacks (s : State) (st : CtxStep) : List (Nat × Bool) :=
  match ctx? s st.target with
  | none => if st.kind = 6 then ckptLacks s (st.target - 4096) else []
  | some c =>
    if st.kind < 4 ∧ st.prog = 0 ∧ stepRefused st c then []
    else if st.kind = 1 then saveLacks s st.target c st.area.toNat
    else if st.kind = 2 then loadLacks s c.part st.area.toNat
    else if (st.kind = 4 ∨ st.kind = 5) ∧ c.mode = .frozen then saveLacks s st.target c c.savebase.toNat
    else []

/-- CTX_STEP_COMPLETE: step k of the engine does its work. A target that is no context, or in the wrong state, gives STATUS 0x000A with
no effect. One that needs control lines of other packages asks for them and waits. -/
def execCtxStepComplete (k : Nat) (s : State) : Out := heldBase s <|
  match s.steps[k]? with
  | none => idle s
  | some st =>
    if !canStep s st then idle s
    else if !(stepLacks s st).isEmpty then .next (askAll (stepLacks s st) s)
    else if st.kind = 6 then .next (finishCkpt (st.target - 4096) { s with steps := s.steps.filter fun (y : CtxStep) => y.id ≠ st.id })
    else
      match ctx? s st.target with
      | none => .next (closeStep st 0x000A s)
      | some c =>
        if st.kind < 4 ∧ st.prog = 0 ∧ stepRefused st c then .next (closeStep st 0x000A s)
        else .next (doStep st c s)

end Sys2Proof.Machine
end

