-- ==== Sys2Proof/Machine/Convert.lean ====
section
/-! DEFINITION. CVT (R118, R119) and BCVT (R120 to R122). -/

set_option linter.unusedVariables false

namespace Sys2Proof.Machine

/-- R119: from a source encoding to the destination type's bits. -/
def cvtValue (sat : Bool) (mode : Rnd) (sty dty : Ty) (x : Nat) : Nat :=
  let n := Ty.bits dty
  match Ty.fmt? sty, Ty.fmt? dty with
  | some f, some g => toSlot dty (narrow g mode sat (f.decode (fromSlot sty x)))
  | some f, none => intBits n (toInt (Ty.isSigned dty) n mode (f.decode (fromSlot sty x)))
  | none, some g => toSlot dty (narrow g mode sat (numOfInt (intOf (Ty.isSigned sty) (Ty.bits sty) x)))
  | none, none => fit (Ty.isSigned dty) sat n (intOf (Ty.isSigned sty) (Ty.bits sty) x)

def execCvt (sat : Bool) (sty : Ty) (x : Alu1) (s : State) : Out :=
  compute (.cvt sat sty x) x.c x.ty x.d (fun clk u t => cvtValue sat x.rm sty x.ty (readOpnd clk u sty 0 x.a t)) s

/-- The block of the rank's 32 threads (R121, R58). -/
def packBlock (m : Bcvt) (mode : Rnd) (b : Block) (clk : Nat) (u : Iss) (a : Opnd) : Encoded :=
  blockEncode b m.dist.toNat mode m.sat m.ef
    ((List.range 32).map fun t => (u.ex.getLsbD t, fmtF32.decode (readOpnd clk u .f32 0 a t)))

/-- What thread t's D receives (R121), if anything. -/
def packWord (m : Bcvt) (b : Block) (e : Encoded) (t : Nat) : Option Nat :=
  let w := b.elemBits
  if t < w then some (bits (packCodes w e.codes) (32 * t) 32)
  else if t = w then some e.scale
  else if t = w + 1 && m.res then
    some (match e.residual with
      | none => fmtF32.nan
      | some r => narrow fmtF32 .rne false r)
  else none

def execBcvtPack (m : Bcvt) (x : Alu1) (s : State) : Out :=
  asRank (.bcvtPack m x) x.c (fun u s =>
    let write (k : Rank) : Rank :=
      match Ty.block? m.v x.ty with
      | none => k
      | some b =>
        let e := packBlock m x.rm b s.clk u x.a
        (List.range 32).foldl (fun k t => match packWord m b e t with
          | some v => writeOpnd .b32 x.d t v k
          | none => k) k
    finish x.c (encode (.bcvtPack m x)) u (if u.ex = 0 then s else modRank u.g u.r write s)) s

/-- The packed element array of a block: the words of threads 0 to W − 1, whether or not they participate (R122). -/
def packedOf (w : Nat) (word : Nat → Nat) : Nat := (List.range w).foldl (fun a t => a + word t * 2 ^ (32 * t)) 0

def execBcvtUnpack (m : Bcvt) (x : Alu2) (s : State) : Out :=
  compute (.bcvtUnpack m x) x.c .f32 x.d (fun clk u t =>
    match Ty.block? m.v x.ty with
    | none => 0
    | some b =>
      let w := b.elemBits
      let code := bits (packedOf w (readOpnd clk u .b32 0 x.a)) (w * t) w
      narrow fmtF32 x.rm m.sat (b.decode (readOpnd clk u .b32 0 x.b t) code)) s

end Sys2Proof.Machine
end

