-- ==== Sys2Proof/Machine/Exchange.lean ====
section
/-! DEFINITION. Rank exchange (R102 to R107): the participants are the threads for which the instruction executes (R70). -/

set_option linter.unusedVariables false

namespace Sys2Proof.Machine

/-- Participants for which a predicate source holds. -/
def trueMask (u : Iss) (a : Opnd) : Mask := maskOf fun t => u.ex.getLsbD t && readPred u a t

def execBallot (x : Alu1) (s : State) : Out :=
  compute (.ballot x) x.c .b32 x.d (fun _ u _ => (trueMask u x.a).toNat) s

/-- CENSUS (R103): np participants, n1 of them true. -/
def censusHolds (f : CensusFn) (np n1 : Nat) : Bool :=
  match f with
  | .none => n1 == 0
  | .some => decide (1 ≤ n1)
  | .most => decide (np < 2 * n1)
  | .all => n1 == np
  | .mixed => decide (0 < n1) && decide (n1 < np)
  | .same => n1 == 0 || n1 == np

def execCensus (f : CensusFn) (x : Alu1) (s : State) : Out :=
  compute (.census f x) x.c .b32 x.d (fun _ u _ =>
    if censusHolds f (countMask u.ex) (countMask (trueMask u x.a)) then 1 else 0) s

/-- SAME (R104): participants whose value is v. -/
def sameMask (u : Iss) (value : Nat → Nat) (v : Nat) : Mask := maskOf fun t => u.ex.getLsbD t && value t == v

def sameValue (f : SameFn) (u : Iss) (value : Nat → Nat) (t : Nat) : Nat :=
  let m := sameMask u value (value t)
  match f with
  | .mask => m.toNat
  | .lead => (threadsOf m).headD 0
  | .count => countMask m
  | .whole => if m = u.ex then m.toNat else 0

def execSame (f : SameFn) (x : Alu1) (s : State) : Out :=
  compute (.same f x) x.c .b32 x.d (fun clk u t => sameValue f u (readOpnd clk u x.ty 0 x.a) t) s

/-- The source thread of SHFL (R105), none when it is not valid; w is the segment width. -/
def shflSource (f : ShflFn) (w t b : Nat) : Option Nat :=
  let base := t - t % w
  match f with
  | .from => some (base + b % w)
  | .rot => some (base + (t - base + b) % w)
  | .shift =>
    let k : Int := t + signed b 32
    if (base : Int) ≤ k ∧ k ≤ base + w - 1 then some k.toNat else none
  | .bfly => some (t ^^^ (b % w))

def execShfl (f : ShflFn) (seg : BitVec 3) (x : Alu3) (s : State) : Out :=
  compute (.shfl f seg x) x.c x.ty x.d (fun clk u t =>
    match shflSource f (32 / 2 ^ seg.toNat) t (readOpnd clk u .b32 0 x.b t) with
    | some k => if u.ex.getLsbD k then readOpnd clk u x.ty 0 x.a k else readOpnd clk u x.ty 0 x.x t
    | none => readOpnd clk u x.ty 0 x.x t) s

/-- One combination of RED and SCAN (R106). -/
def redOp (f : RedFn) (ty : Ty) (mode : Rnd) (a b : Nat) : Nat :=
  let n := Ty.bits ty
  let sgn := Ty.isSigned ty
  match Ty.fmt? ty with
  | some m =>
    match f with
    | .add => narrow m mode false (numAdd mode (m.decode a) (m.decode b))
    | .min => fminmax m false a b
    | _ => fminmax m true a b
  | none =>
    match f with
    | .add => (a + b) % 2 ^ n
    | .min => if intOf sgn n b < intOf sgn n a then b else a
    | .max => if intOf sgn n a < intOf sgn n b then b else a
    | .and => a &&& b
    | .or => a ||| b
    | .xor => a ^^^ b

/-- Identities of R69. -/
def redIdentity (f : RedFn) (ty : Ty) : Nat :=
  let n := Ty.bits ty
  let sgn := Ty.isSigned ty
  match Ty.fmt? ty with
  | some m =>
    match f with
    | .min => m.infinity false
    | .max => m.infinity true
    | _ => 0
  | none =>
    match f with
    | .min => intBits n (intHi sgn n)
    | .max => intBits n (intLo sgn n)
    | .and => 2 ^ n - 1
    | _ => 0

/-- The leaves of the tree: absent where a thread takes no part (R68). -/
def leaves (u : Iss) (value : Nat → Nat) : List (Option Nat) :=
  (List.range 32).map fun t => if u.ex.getLsbD t then some (value t) else none

/-- A value that went through no combination keeps its bits, but a NaN result is the canonical one (R45, R106). -/
def settleNan (ty : Ty) (x : Nat) : Nat :=
  match Ty.fmt? ty with
  | some m => if (m.decode x).isNan then m.nan else x
  | none => x

def execRed (f : RedFn) (x : Alu1) (s : State) : Out :=
  compute (.red f x) x.c x.ty x.d (fun clk u _ =>
    settleNan x.ty ((treeRoot (redOp f x.ty x.rm) (leaves u (readOpnd clk u x.ty 0 x.a))).getD (redIdentity f x.ty))) s

/-- The prefix of a thread (R69). -/
def scanValue (f : RedFn) (excl : Bool) (ty : Ty) (mode : Rnd) (l : List (Option Nat)) (t : Nat) : Nat :=
  let p := if excl then (if t = 0 then none else inclusive (redOp f ty mode) l (t - 1)) else inclusive (redOp f ty mode) l t
  settleNan ty (p.getD (redIdentity f ty))

def execScan (f : RedFn) (excl : Bool) (x : Alu1) (s : State) : Out :=
  compute (.scan f excl x) x.c x.ty x.d (fun clk u t =>
    scanValue f excl x.ty x.rm (leaves u (readOpnd clk u x.ty 0 x.a)) t) s

/-- BCAST (R107). -/
def execBcast (x : Alu2) (s : State) : Out :=
  compute (.bcast x) x.c x.ty x.d (fun clk u t =>
    let k := readOpnd clk u .b32 x.imm x.b t
    if k < 32 && u.ex.getLsbD k then readOpnd clk u x.ty 0 x.a k else 0) s

end Sys2Proof.Machine
end

