-- ==== Sys2Proof/Machine/Int.lean ====
section
/-! DEFINITION. Integer arithmetic (R74 to R77), NOP (R101). -/

set_option linter.unusedVariables false

namespace Sys2Proof.Machine

/-- The integer an operand holds, by the type's signedness (R75). -/
def intOpnd (clk : Nat) (u : Iss) (ty : Ty) (imm : Word) (o : Opnd) (t : Nat) : Int :=
  intOf (Ty.isSigned ty) (Ty.bits ty) (readOpnd clk u ty imm o t)

/-- A two-source integer instruction whose result is fitted to the type (R75). -/
def intOp2 (i : Instr) (sat : Bool) (x : Alu2) (f : Int → Int → Int) (s : State) : Out :=
  compute i x.c x.ty x.d (fun clk u t =>
    fit (Ty.isSigned x.ty) sat (Ty.bits x.ty) (f (intOpnd clk u x.ty x.imm x.a t) (intOpnd clk u x.ty x.imm x.b t))) s

def intOp1 (i : Instr) (sat : Bool) (x : Alu1) (f : Int → Int) (s : State) : Out :=
  compute i x.c x.ty x.d (fun clk u t =>
    fit (Ty.isSigned x.ty) sat (Ty.bits x.ty) (f (intOpnd clk u x.ty x.imm x.a t))) s

def execIadd (sat : Bool) (x : Alu2) (s : State) : Out := intOp2 (.iadd sat x) sat x (· + ·) s
def execIsub (sat : Bool) (x : Alu2) (s : State) : Out := intOp2 (.isub sat x) sat x (· - ·) s
def execImin (x : Alu2) (s : State) : Out := intOp2 (.imin x) false x min s
def execImax (x : Alu2) (s : State) : Out := intOp2 (.imax x) false x max s
def execIabs (sat : Bool) (x : Alu1) (s : State) : Out := intOp1 (.iabs sat x) sat x (fun a => (a.natAbs : Int)) s
def execIneg (sat : Bool) (x : Alu1) (s : State) : Out := intOp1 (.ineg sat x) sat x (fun a => -a) s

/-- The type of a .wide result: twice the bits (R75). -/
def Ty.wide : Ty → Ty
  | .b32 => .b64
  | .s32 => .s64
  | t => t

def mulTy (f : MulFn) (ty : Ty) : Ty := if f = .wide then Ty.wide ty else ty

/-- IMUL and IMAD before the reduction to the destination width (R75). -/
def mulValue (f : MulFn) (n : Nat) (a b c : Int) : Int :=
  match f with
  | .hi => a * b / (2 ^ n : Nat) + c
  | _ => a * b + c

def execImul (f : MulFn) (x : Alu2) (s : State) : Out :=
  compute (.imul f x) x.c (mulTy f x.ty) x.d (fun clk u t =>
    fit (Ty.isSigned x.ty) false (Ty.bits (mulTy f x.ty))
      (mulValue f (Ty.bits x.ty) (intOpnd clk u x.ty x.imm x.a t) (intOpnd clk u x.ty x.imm x.b t) 0)) s

def execImad (f : MulFn) (x : Alu3) (s : State) : Out :=
  compute (.imad f x) x.c (mulTy f x.ty) x.d (fun clk u t =>
    fit (Ty.isSigned x.ty) false (Ty.bits (mulTy f x.ty))
      (mulValue f (Ty.bits x.ty) (intOpnd clk u x.ty 0 x.a t) (intOpnd clk u x.ty 0 x.b t) (intOpnd clk u (mulTy f x.ty) 0 x.x t))) s

/-- R76: truncation toward zero; division by zero and the overflowing quotient have stated results. -/
def divide (rem sgn : Bool) (n : Nat) (a b : Int) : Nat :=
  if b = 0 then (if rem then intBits n a else intBits n (-1))
  else if rem then intBits n (a.tmod b) else intBits n (a.tdiv b)

def execIdiv (rem : Bool) (x : Alu2) (s : State) : Out :=
  compute (.idiv rem x) x.c x.ty x.d (fun clk u t =>
    divide rem (Ty.isSigned x.ty) (Ty.bits x.ty) (intOpnd clk u x.ty x.imm x.a t) (intOpnd clk u x.ty x.imm x.b t)) s

/-- Compare of R75. -/
def compareInt (cc : Cmp) (a b : Int) : Bool :=
  match cc with
  | .eq => decide (a = b)
  | .ne => decide (a ≠ b)
  | .lt => decide (a < b)
  | .le => decide (a ≤ b)
  | .gt => decide (b < a)
  | .ge => decide (b ≤ a)

def execIset (cc : Cmp) (x : Alu2) (s : State) : Out :=
  compute (.iset cc x) x.c .b32 x.d (fun clk u t =>
    if compareInt cc (intOpnd clk u x.ty x.imm x.a t) (intOpnd clk u x.ty x.imm x.b t) then 1 else 0) s

/-- The packed products of IDOT (R77): elements of w bits. -/
def dotInt (sgn : Bool) (w a b : Nat) : Nat → Int
  | 0 => 0
  | k + 1 => dotInt sgn w a b k + intOf sgn w (bits a (w * k) w) * intOf sgn w (bits b (w * k) w)

def execIdot (sat : Bool) (x : Alu3) (s : State) : Out :=
  let sgn := Ty.isSigned x.ty
  let w := Ty.bits x.ty
  compute (.idot sat x) x.c (if sgn then .s32 else .b32) x.d (fun clk u t =>
    fit sgn sat 32 (intOf sgn 32 (readOpnd clk u .b32 0 x.x t) +
      dotInt sgn w (readOpnd clk u .b32 0 x.a t) (readOpnd clk u .b32 0 x.b t) (32 / w))) s

/-- NOP (R101): no effect; a sequencer goes to the next word. -/
def execNop (c : Ctl) (s : State) : Out :=
  match s.cur with
  | some (.seq _) => asSeq (fun g x _ s => seqAdvance g (chargeSeq x s)) s
  | _ => asRank (.nop c) c (fun u s => finish c (encode (.nop c)) u s) s

end Sys2Proof.Machine
end

