-- ==== Sys2Proof/Machine/Moves.lean ====
section
/-! DEFINITION. Moves, selection, predicates (R86 to R89), LEA (R90) and PTR (R91). -/

set_option linter.unusedVariables false

namespace Sys2Proof.Machine

/-- MOV (R86). -/
def execMov (x : Alu1) (s : State) : Out :=
  compute (.mov x) x.c x.ty x.d (fun clk u t => readOpnd clk u x.ty x.imm x.a t) s

/-- SEL (R87). -/
def execSel (x : Alu3) (s : State) : Out :=
  compute (.sel x) x.c x.ty x.d (fun clk u t =>
    if readPred u x.x t then readOpnd clk u x.ty 0 x.a t else readOpnd clk u x.ty 0 x.b t) s

/-- R88. -/
def psetValue (f : PsetFn) (a b : Bool) : Bool :=
  match f with
  | .and => a && b
  | .or => a || b
  | .xor => a != b
  | .andn => a && !b
  | .orn => a || !b

def execPset (f : PsetFn) (x : Alu2) (s : State) : Out :=
  compute (.pset f x) x.c .b32 x.d (fun _ u t => if psetValue f (readPred u x.a t) (readPred u x.b t) then 1 else 0) s

/-- PMOV.pack (R89): bit i is p_i. -/
def packPreds (k : Rank) (t : Nat) : Nat → Nat
  | 0 => 0
  | i + 1 => packPreds k t i + (if (k.pred i).getLsbD t then 2 ^ i else 0)

def execPmovPack (c : Ctl) (d : Opnd) (s : State) : Out :=
  compute (.pmovPack c d) c .b32 d (fun _ u t => packPreds u.k t 16) s

/-- PMOV.unpack (R89): p1 to p15 from bits 1 to 15. -/
def unpackPreds (t x : Nat) (k : Rank) : Rank :=
  (List.range 16).foldl (fun k i => k.setP i t (bit x i)) k

def execPmovUnpack (c : Ctl) (a : Opnd) (s : State) : Out :=
  asRank (.pmovUnpack c a) c (fun u s =>
    finish c (encode (.pmovUnpack c a)) u
      (modRank u.g u.r (fun k => (threadsOf u.ex).foldl (fun k t => unpackPreds t (readOpnd s.clk u .b32 0 a t) k) k) s)) s

/-- LEA (R90). -/
def leaValue (sh : Nat) (zx : Bool) (a b c : Nat) : Nat :=
  intBits 64 (a + (if zx then (b : Int) else signed b 32) * (2 ^ sh : Nat) + c)

def execLea (c : Ctl) (sh : BitVec 3) (zx : Bool) (d a b x : Opnd) (s : State) : Out :=
  compute (.lea c sh zx d a b x) c .b64 d (fun clk u t =>
    leaValue sh.toNat zx (readOpnd clk u .b64 0 a t) (readOpnd clk u .b32 0 b t) (readOpnd clk u .b64 0 x t)) s

/-- PTR.mk (R91). -/
def ptrMkValue (sp : MkSpace) (a b : Nat) : Nat :=
  match sp with
  | .ctl => if a < 2 ^ 48 then a else invalidPtr.toNat
  | .ten => if a < 2 ^ 38 ∧ b < 2 ^ 24 then 2 ^ 62 + b * 2 ^ 38 + a else invalidPtr.toNat
  | .loc => if a < 2 ^ 32 ∧ b ≤ 2 then 2 ^ 63 + b * 2 ^ 32 + a else invalidPtr.toNat

def execPtrMk (c : Ctl) (sp : MkSpace) (d a b : Opnd) (imm : Word) (s : State) : Out :=
  compute (.ptrMk c sp d a b imm) c .b64 d (fun clk u t =>
    ptrMkValue sp (readOpnd clk u .b64 imm a t) (readOpnd clk u .b32 imm b t)) s

def execPtrAdd (c : Ctl) (d a b : Opnd) (imm : Word) (s : State) : Out :=
  compute (.ptrAdd c d a b imm) c .b64 d (fun clk u t =>
    (ptrAdd (BitVec.ofNat 64 (readOpnd clk u .b64 imm a t)) (signed (readOpnd clk u .s64 imm b t) 64)).toNat) s

def execPtrChk (c : Ctl) (d a b : Opnd) (imm : Word) (s : State) : Out :=
  compute (.ptrChk c d a b imm) c .b32 d (fun clk u t =>
    if ptrChk (BitVec.ofNat 64 (readOpnd clk u .b64 imm a t)) (readOpnd clk u .b32 imm b t) then 1 else 0) s

end Sys2Proof.Machine
end

