-- ==== Sys2Proof/Machine/Dispatch.lean ====
section
/-! DEFINITION. One arm for each constructor of Instr: a call of its meaning, or a rejection by name. -/

namespace Sys2Proof.Machine

/-- What an instruction or event does. -/
def exec (i : Instr) (s : State) : Host.Outcome State Fault Refusal :=
  match i with
  | .nop c => Sys2Proof.Machine.execNop c s
  | .illegalOpcode w => Sys2Proof.Machine.execIllegalOpcode w s
  | .extensionOpcode w => Sys2Proof.Machine.execExtensionOpcode w s
  | .iadd sat x => Sys2Proof.Machine.execIadd sat x s
  | .isub sat x => Sys2Proof.Machine.execIsub sat x s
  | .imul f x => Sys2Proof.Machine.execImul f x s
  | .imad f x => Sys2Proof.Machine.execImad f x s
  | .idiv rem x => Sys2Proof.Machine.execIdiv rem x s
  | .imin x => Sys2Proof.Machine.execImin x s
  | .imax x => Sys2Proof.Machine.execImax x s
  | .iabs sat x => Sys2Proof.Machine.execIabs sat x s
  | .ineg sat x => Sys2Proof.Machine.execIneg sat x s
  | .iset cc x => Sys2Proof.Machine.execIset cc x s
  | .idot sat x => Sys2Proof.Machine.execIdot sat x s
  | .and inv x => Sys2Proof.Machine.execAnd inv x s
  | .or inv x => Sys2Proof.Machine.execOr inv x s
  | .xor x => Sys2Proof.Machine.execXor x s
  | .not x => Sys2Proof.Machine.execNot x s
  | .lut tab x => Sys2Proof.Machine.execLut tab x s
  | .shl x => Sys2Proof.Machine.execShl x s
  | .shr arith x => Sys2Proof.Machine.execShr arith x s
  | .rot right x => Sys2Proof.Machine.execRot right x s
  | .shf right x => Sys2Proof.Machine.execShf right x s
  | .popc x => Sys2Proof.Machine.execPopc x s
  | .clz x => Sys2Proof.Machine.execClz x s
  | .ctz x => Sys2Proof.Machine.execCtz x s
  | .brev x => Sys2Proof.Machine.execBrev x s
  | .bfx sx x => Sys2Proof.Machine.execBfx sx x s
  | .bfi x => Sys2Proof.Machine.execBfi x s
  | .bmix x => Sys2Proof.Machine.execBmix x s
  | .mov x => Sys2Proof.Machine.execMov x s
  | .sel x => Sys2Proof.Machine.execSel x s
  | .pset f x => Sys2Proof.Machine.execPset f x s
  | .pmovPack c d => Sys2Proof.Machine.execPmovPack c d s
  | .pmovUnpack c a => Sys2Proof.Machine.execPmovUnpack c a s
  | .lea c sh zx d a b x => Sys2Proof.Machine.execLea c sh zx d a b x s
  | .ptrMk c sp d a b imm => Sys2Proof.Machine.execPtrMk c sp d a b imm s
  | .ptrAdd c d a b imm => Sys2Proof.Machine.execPtrAdd c d a b imm s
  | .ptrChk c d a b imm => Sys2Proof.Machine.execPtrChk c d a b imm s
  | .bra c imm => Sys2Proof.Machine.execBra c imm s
  | .brx c a => Sys2Proof.Machine.execBrx c a s
  | .call c imm => Sys2Proof.Machine.execCall c imm s
  | .callx c a => Sys2Proof.Machine.execCallx c a s
  | .ret c => Sys2Proof.Machine.execRet c s
  | .join c d => Sys2Proof.Machine.execJoin c d s
  | .wait c a b imm => Sys2Proof.Machine.execWait c a b imm s
  | .jset c d a imm => Sys2Proof.Machine.execJset c d a imm s
  | .exit c => Sys2Proof.Machine.execExit c s
  | .bkpt c code => Sys2Proof.Machine.execBkpt c code s
  | .ballot x => Sys2Proof.Machine.execBallot x s
  | .census f x => Sys2Proof.Machine.execCensus f x s
  | .same f x => Sys2Proof.Machine.execSame f x s
  | .shfl f seg x => Sys2Proof.Machine.execShfl f seg x s
  | .red f x => Sys2Proof.Machine.execRed f x s
  | .scan f excl x => Sys2Proof.Machine.execScan f excl x s
  | .bcast x => Sys2Proof.Machine.execBcast x s
  | .fadd x => Sys2Proof.Machine.execFadd x s
  | .fsub x => Sys2Proof.Machine.execFsub x s
  | .fmul x => Sys2Proof.Machine.execFmul x s
  | .ffma ftz x => Sys2Proof.Machine.execFfma ftz x s
  | .fmin x => Sys2Proof.Machine.execFmin x s
  | .fmax x => Sys2Proof.Machine.execFmax x s
  | .fset cc x => Sys2Proof.Machine.execFset cc x s
  | .fsign f x => Sys2Proof.Machine.execFsign f x s
  | .fdiv x => Sys2Proof.Machine.execFdiv x s
  | .fsqrt x => Sys2Proof.Machine.execFsqrt x s
  | .frcp x => Sys2Proof.Machine.execFrcp x s
  | .frsq x => Sys2Proof.Machine.execFrsq x s
  | .fexp2 x => Sys2Proof.Machine.execFexp2 x s
  | .flog2 x => Sys2Proof.Machine.execFlog2 x s
  | .fsin x => Sys2Proof.Machine.execFsin x s
  | .fcos x => Sys2Proof.Machine.execFcos x s
  | .ftanh x => Sys2Proof.Machine.execFtanh x s
  | .fclass x => Sys2Proof.Machine.execFclass x s
  | .frnd x => Sys2Proof.Machine.execFrnd x s
  | .fdot ftz x => Sys2Proof.Machine.execFdot ftz x s
  | .fact f x => Sys2Proof.Machine.execFact f x s
  | .cvt sat sty x => Sys2Proof.Machine.execCvt sat sty x s
  | .bcvtPack m x => Sys2Proof.Machine.execBcvtPack m x s
  | .bcvtUnpack m x => Sys2Proof.Machine.execBcvtUnpack m x s
  | .ld x => Sys2Proof.Machine.execLd x s
  | .st x => Sys2Proof.Machine.execSt x s
  | .ldu x => Sys2Proof.Machine.execLdu x s
  | .ldx x => Sys2Proof.Machine.execLdx x s
  | .stc x => Sys2Proof.Machine.execStc x s
  | .lr x => Sys2Proof.Machine.execLr x s
  | .sc x => Sys2Proof.Machine.execSc x s
  | .atom x => Sys2Proof.Machine.execAtom x s
  | .xst x => Sys2Proof.Machine.execXst x s
  | .xatom x => Sys2Proof.Machine.execXatom x s
  | .fenceAcq c sc => Sys2Proof.Machine.execFenceAcq c sc s
  | .fenceRel c sc => Sys2Proof.Machine.execFenceRel c sc s
  | .fenceAr c sc => Sys2Proof.Machine.execFenceAr c sc s
  | .fenceSc c sc => Sys2Proof.Machine.execFenceSc c sc s
  | .fenceAck c => Sys2Proof.Machine.execFenceAck c s
  | .fenceTc c sc => Sys2Proof.Machine.execFenceTc c sc s
  | .cflushWb c a disp => Sys2Proof.Machine.execCflushWb c a disp s
  | .cflushInv c a disp => Sys2Proof.Machine.execCflushInv c a disp s
  | .cflushWbinv c a disp => Sys2Proof.Machine.execCflushWbinv c a disp s
  | .pref c pol a disp => Sys2Proof.Machine.execPref c pol a disp s
  | .barCfg c a b imm => Sys2Proof.Machine.execBarCfg c a b imm s
  | .barArv c sc d a imm => Sys2Proof.Machine.execBarArv c sc d a imm s
  | .barWait c sc a b imm => Sys2Proof.Machine.execBarWait c sc a b imm s
  | .barSync c sc a imm => Sys2Proof.Machine.execBarSync c sc a imm s
  | .barAdd c sc a b imm => Sys2Proof.Machine.execBarAdd c sc a b imm s
  | .barTest c sc d a b imm => Sys2Proof.Machine.execBarTest c sc d a b imm s
  | .tlWait c sc tl d a imm => Sys2Proof.Machine.execTlWait c sc tl d a imm s
  | .tlRead c tl d imm => Sys2Proof.Machine.execTlRead c tl d imm s
  | .copy e => Sys2Proof.Machine.execCopy e s
  | .copyPl t e => Sys2Proof.Machine.execCopyPl t e s
  | .gather e => Sys2Proof.Machine.execGather e s
  | .scadd e => Sys2Proof.Machine.execScadd e s
  | .sort e => Sys2Proof.Machine.execSort e s
  | .tcfg c wait d a scaleoff => Sys2Proof.Machine.execTcfg c wait d a scaleoff s
  | .trel c wait a => Sys2Proof.Machine.execTrel c wait a s
  | .acfgTake c d a => Sys2Proof.Machine.execAcfgTake c d a s
  | .acfgRel c a => Sys2Proof.Machine.execAcfgRel c a s
  | .peer c n a b => Sys2Proof.Machine.execPeer c n a b s
  | .mstart c a => Sys2Proof.Machine.execMstart c a s
  | .coll e => Sys2Proof.Machine.execColl e s
  | .mma m => Sys2Proof.Machine.execMma m s
  | .mzero shape d => Sys2Proof.Machine.execMzero shape d s
  | .mepi shape a desc => Sys2Proof.Machine.execMepi shape a desc s
  | .mwait sc pr ctr a phase => Sys2Proof.Machine.execMwait sc pr ctr a phase s
  | .marv sc a amount => Sys2Proof.Machine.execMarv sc a amount s
  | .mloop ctr limit off => Sys2Proof.Machine.execMloop ctr limit off s
  | .mjmp off => Sys2Proof.Machine.execMjmp off s
  | .mstop => Sys2Proof.Machine.execMstop s
  | .trap c code => Sys2Proof.Machine.execTrap c code s
  | .rtt c => Sys2Proof.Machine.execRtt c s
  | .srd c d num idx => Sys2Proof.Machine.execSrd c d num idx s
  | .swr c a num idx => Sys2Proof.Machine.execSwr c a num idx s
  | .yield c => Sys2Proof.Machine.execYield c s
  | .launch c a => Sys2Proof.Machine.execLaunch c a s
  | .evqPost c a b => Sys2Proof.Machine.execEvqPost c a b s
  | .ctxFrz c a => Sys2Proof.Machine.execCtxFrz c a s
  | .ctxSav c a b => Sys2Proof.Machine.execCtxSav c a b s
  | .ctxLd c a b => Sys2Proof.Machine.execCtxLd c a b s
  | .ctxRes c a => Sys2Proof.Machine.execCtxRes c a s
  | .xinv c a b => Sys2Proof.Machine.execXinv c a b s
  | .bufset c a b => Sys2Proof.Machine.execBufset c a b s
  | .eread c d => Sys2Proof.Machine.execEread c d s
  | .halt c => Sys2Proof.Machine.execHalt c s
  | .loadResponse k => Sys2Proof.Machine.execLoadResponse k s
  | .lineFill g r => Sys2Proof.Machine.execLineFill g r s
  | .impreciseFaultTaken g r => Sys2Proof.Machine.execImpreciseFaultTaken g r s
  | .laneChoice core lane => Sys2Proof.Machine.execLaneChoice core lane s
  | .staticEnergyBoundary => Sys2Proof.Machine.execStaticEnergyBoundary s
  | .homeRequest k => Sys2Proof.Machine.execHomeRequest k s
  | .engineCommandStart e => Sys2Proof.Machine.execEngineCommandStart e s
  | .engineAccessFault k => Sys2Proof.Machine.execEngineAccessFault k s
  | .commandComplete k => Sys2Proof.Machine.execCommandComplete k s
  | .reducerAdd k => Sys2Proof.Machine.execReducerAdd k s
  | .mmaKblockWrite g k => Sys2Proof.Machine.execMmaKblockWrite g k s
  | .mepiRowRetire g k => Sys2Proof.Machine.execMepiRowRetire g k s
  | .launchWindowWrite q data => Sys2Proof.Machine.execLaunchWindowWrite q data s
  | .launchFrame f => Sys2Proof.Machine.execLaunchFrame f s
  | .dispatchRound => Sys2Proof.Machine.execDispatchRound s
  | .roomHold q => Sys2Proof.Machine.execRoomHold q s
  | .queueTableWrite st => Sys2Proof.Machine.execQueueTableWrite st s
  | .contextTableWrite st => Sys2Proof.Machine.execContextTableWrite st s
  | .hostContextTableWrite st => Sys2Proof.Machine.execHostContextTableWrite st s
  | .hevqWrite st => Sys2Proof.Machine.execHevqWrite st s
  | .ctxStepWindowFrz st => Sys2Proof.Machine.execCtxStepWindowFrz st s
  | .ctxStepWindowSav st => Sys2Proof.Machine.execCtxStepWindowSav st s
  | .ctxStepWindowLd st => Sys2Proof.Machine.execCtxStepWindowLd st s
  | .ctxStepWindowRes st => Sys2Proof.Machine.execCtxStepWindowRes st s
  | .ctxStepComplete k => Sys2Proof.Machine.execCtxStepComplete k s
  | .yieldTrap g => Sys2Proof.Machine.execYieldTrap g s
  | .yieldDeadline ctx => Sys2Proof.Machine.execYieldDeadline ctx s
  | .write p => Sys2Proof.Machine.execWrite p s
  | .atomicReturning p => Sys2Proof.Machine.execAtomicReturning p s
  | .atomicNotReturning p => Sys2Proof.Machine.execAtomicNotReturning p s
  | .readRequest p => Sys2Proof.Machine.execReadRequest p s
  | .readResponse p => Sys2Proof.Machine.execReadResponse p s
  | .acknowledgement p => Sys2Proof.Machine.execAcknowledgement p s
  | .refusal p => Sys2Proof.Machine.execRefusal p s
  | .peerPut p => Sys2Proof.Machine.execPeerPut p s
  | .peerAdd p => Sys2Proof.Machine.execPeerAdd p s
  | .reductionContribution p => Sys2Proof.Machine.execReductionContribution p s
  | .reductionResult p => Sys2Proof.Machine.execReductionResult p s
  | .slotRequest r => Sys2Proof.Machine.execSlotRequest r s
  | .readShared p => Sys2Proof.Machine.execReadShared p s
  | .readOwn p => Sys2Proof.Machine.execReadOwn p s
  | .upgrade p => Sys2Proof.Machine.execUpgrade p s
  | .writeBack p => Sys2Proof.Machine.execWriteBack p s
  | .invalidate p => Sys2Proof.Machine.execInvalidate p s
  | .lineData p => Sys2Proof.Machine.execLineData p s
  | .mirrorWrite p => Sys2Proof.Machine.execMirrorWrite p s
  | .mirrorAcknowledgement p => Sys2Proof.Machine.execMirrorAcknowledgement p s
  | .homeChange p => Sys2Proof.Machine.execHomeChange p s
  | .launchPacket p => Sys2Proof.Machine.execLaunchPacket p s
  | .flitReceive port f => Sys2Proof.Machine.execFlitReceive port f s
  | .linkReplayRequest port lseq => Sys2Proof.Machine.execLinkReplayRequest port lseq s
  | .portLockNotice port pkg => Sys2Proof.Machine.execPortLockNotice port pkg s
  | .resetNotice src sctx => Sys2Proof.Machine.execResetNotice src sctx s
  | .ordRetryResend k => Sys2Proof.Machine.execOrdRetryResend k s
  | .peerRetryResend k => Sys2Proof.Machine.execPeerRetryResend k s
  | .tableLoad t => Sys2Proof.Machine.execTableLoad t s
  | .heartbeat => Sys2Proof.Machine.execHeartbeat s
  | .lossAnnouncement pkg => Sys2Proof.Machine.execLossAnnouncement pkg s
  | .mirrorTakeover region => Sys2Proof.Machine.execMirrorTakeover region s
  | .mirrorNamed region mirror => Sys2Proof.Machine.execMirrorNamed region mirror s
  | .zeroingComplete k => Sys2Proof.Machine.execZeroingComplete k s
  | .patrolScrub chan row found => Sys2Proof.Machine.execPatrolScrub chan row found s
  | .refresh chan row => Sys2Proof.Machine.execRefresh chan row s
  | .layerRetireProceed stack layer => Sys2Proof.Machine.execLayerRetireProceed stack layer s
  | .layoutPrepare h => Sys2Proof.Machine.execLayoutPrepare h s
  | .layoutActivate h => Sys2Proof.Machine.execLayoutActivate h s
  | .layoutRead h => Sys2Proof.Machine.execLayoutRead h s
  | .mpRestart => Sys2Proof.Machine.execMpRestart s
  | .bearoff h => Sys2Proof.Machine.execBearoff h s
  | .bearoffEvaluation => Sys2Proof.Machine.execBearoffEvaluation s
  | .bearoffComparator => Sys2Proof.Machine.execBearoffComparator s
  | .bearoffDeadline reqid => Sys2Proof.Machine.execBearoffDeadline reqid s
  | .bearoffComplete reqid => Sys2Proof.Machine.execBearoffComplete reqid s
  | .ckpt h => Sys2Proof.Machine.execCkpt h s
  | .partnerDeltaStream part => Sys2Proof.Machine.execPartnerDeltaStream part s
  | .pair h => Sys2Proof.Machine.execPair h s
  | .restore h => Sys2Proof.Machine.execRestore h s
  | .keySet h => Sys2Proof.Machine.execKeySet h s
  | .launchtabSet h => Sys2Proof.Machine.execLaunchtabSet h s
  | .journalRead h => Sys2Proof.Machine.execJournalRead h s
  | .routeRead h => Sys2Proof.Machine.execRouteRead h s
  | .slotRead h => Sys2Proof.Machine.execSlotRead h s
  | .retire h => Sys2Proof.Machine.execRetire h s
  | .attestationRequest bytes opens => Sys2Proof.Machine.execAttestationRequest bytes opens s
  | .powerGood us outcomes => Sys2Proof.Machine.execPowerGood us outcomes s
  | .clockStepDown drawMw => Sys2Proof.Machine.execClockStepDown drawMw s
  | .clockStepUp drawMw => Sys2Proof.Machine.execClockStepUp drawMw s
  | .thermalTrip dieTemps => Sys2Proof.Machine.execThermalTrip dieTemps s
  | .thermalResume dieTemps => Sys2Proof.Machine.execThermalResume dieTemps s
  | .conflictingWriteHoldExpiry granule => Sys2Proof.Machine.execConflictingWriteHoldExpiry granule s
  | .regionCopyComplete region => Sys2Proof.Machine.execRegionCopyComplete region s

end Sys2Proof.Machine
end

