-- ==== Sys2Proof/Machine/Load.lean ====
section
/-! DEFINITION. A state in which a given word is the next that a unit fetches (log 46): what the host sets up before code runs, a context
with its translation, a group on core 0 with one rank, and the word in control memory. -/

set_option linter.unusedVariables false

namespace Sys2Proof.Machine

/-- Where the word stands: byte 0 of control pseudo-channel 23, at the same control virtual, guest-physical and device address. -/
def loadAddr : Nat := 23 * 2 ^ 30

/-- Context 0 of partition 0, running. -/
def loadedCtx : Ctx := { Ctx.created 0 0 with mode := .running, rst := false }

/-- The group that stands on core 0: its rank is issuing with all 32 threads at the word, its sequencer stands there too. -/
def loadedGroup (seq : Bool) : Group :=
  let g : Group :=
    { ctx := 0, launch := 0, queue := 0, prio := 0, grpid := 0, teamid := 0, launchid := 0, core := 0, imgOff := 0, l0 := 0,
      code := BitVec.ofNat 64 loadAddr, mcode := BitVec.ofNat 64 loadAddr, scratchBytes := Config.scratchBytes, planeBytes := Config.planeBytes,
      slabMax := 8, lbar := 96, qbar := 0, team := 0, scratch := [], plane := [], slabMap := [], handles := [], peers := [], bars := [],
      seq := { mpc := BitVec.ofNat 64 loadAddr, st := if seq then .running else .idle, c := [0, 0, 0, 0], waitBar := 0, waitPhase := 0,
               recs := [] }, ranks := [],
      quiesced := false, yieldTaken := false, frozen := false, placedAt := 0, seqFault := none, retiredGroup := false }
  { g with ranks := [{ Rank.placed g 0 0 0 256 false 0 0 0 false with st := .issuing, active := BitVec.allOnes 32 }] }

/-- The core holds the translation of the word's page. -/
def loadedTlb : List TlbEntry :=
  let e (stage : Nat) : TlbEntry := { core := 0, stage := stage, tag := 0, perm := 7, ibase := loadAddr / 4096, obase := loadAddr / 4096,
                                      pages := 1, lines := [] }
  [e 1, e 2]

/-- The word stands in memory, and the unit whose word it is has its turn. -/
def placeWord (w : IWord) (s : State) : State :=
  let seq := isMOpcode (w.extractLsb' 88 8)
  { s with
    mem := writeBytes s.mem loadAddr (wordBytes w)
    ctxs := sset 0 loadedCtx s.ctxs
    groups := sset 0 (loadedGroup seq) s.groups
    tlb := loadedTlb ++ s.tlb
    icopies := []
    l2 := sdel (loadAddr / 512) s.l2
    dir := sdel (loadAddr / 512) s.dir
    regions := sdel (loadAddr / 2 ^ 30) s.regions
    agenda := []
    cur := some (if seq then .seq 0 else .rank 0 0) }

end Sys2Proof.Machine
end

