-- ==== Sys2Proof/Machine/ControlCore.lean ====
section
/-! DEFINITION. The control cores toward memory (R278, R393): what their loads, stores and atomics do at the home, and how `.aq`, `.rl` and
FENCE order them. Their own instruction set is that of RVA23, which this spec does not give (log 82). -/

namespace Sys2Proof.Machine

def CtlOp.reads : CtlOp → Bool
  | .load | .amo _ _ _ _ | .lr | .sc _ => true
  | .store _ | .fence _ _ _ _ => false

def CtlOp.writes : CtlOp → Bool
  | .store _ | .amo _ _ _ _ | .sc _ => true
  | .load | .lr | .fence _ _ _ _ => false

def CtlOp.isFence : CtlOp → Bool
  | .fence _ _ _ _ => true
  | _ => false

/-- The core's earlier access e must be performed before a: they share a granule; a releases; e acquires; both are annotated; or one of
them is a FENCE that names the other (R278's table, RVWMO). -/
def ctlBefore (e a : CtlAccess) : Bool :=
  let named (r w : Bool) (o : CtlOp) : Bool := (r && o.reads) || (w && o.writes) || o.isFence
  match e.op, a.op with
  | .fence _ _ r w, _ => named r w a.op
  | _, .fence r w _ _ => named r w e.op
  | _, _ => granuleOf e.dpa == granuleOf a.dpa || a.rl || e.aq || (e.rl && a.aq)

/-- A release waits until the mirrors hold every write before the core's last access, as .rel at .dom does (R273, R328). -/
def ctlMirrored (s : State) (c : CtlCore) (a : CtlAccess) : Bool :=
  let waits : Bool := a.rl || match a.op with
    | .fence _ w _ _ => w
    | _ => false
  !waits || s.mirrorq.all fun m => decide (max a.id c.last ≤ m.tag)

def ctlCore (s : State) (k : Nat) : CtlCore := (sget k s.ctls).getD default

def modCtl (k : Nat) (f : CtlCore → CtlCore) (s : State) : State := { s with ctls := sput default k (f (ctlCore s k)) s.ctls }

/-- The n-th access may take its place now; control cores run from step 8 of the boot on (R393), and a reservation holds a write off (R129). -/
def ctlMayGo (s : State) (k n : Nat) : Bool :=
  match (ctlCore s k).pend[n]? with
  | some a => s.plat.joined && !(a.op.writes && resvHolds s a.dpa) && !((ctlCore s k).pend.take n).any (fun e => ctlBefore e a) &&
    ctlMirrored s (ctlCore s k) a && !layerOff s a.dpa
  | none => false

/-- An access of core k is answered. -/
def ctlDone (k : Nat) (a : CtlAccess) (r : Option (List Byte)) (s : State) : State :=
  modCtl k (fun c => { c with pend := c.pend.erase a, got := c.got ++ [(a.id, a.off, r)], last := s.fresh }) s

/-- A control core's write at the home; a mirrored one is held against later releases until the mirror has it (R328). -/
def ctlWrite (k : Nat) (a : CtlAccess) (bs : List Byte) (s : State) : State :=
  let s1 := pkgWrite a.dpa bs s
  let s2 := match a.ten with
    | some t => noteWritten t.1 t.2.1 t.2.2 s1
    | none => s1
  if s1.fresh = s.fresh then s2
  else
    let m : MirrorWait :=
      { tag := s.fresh, owner := .ctl k, off := 0, access := a.id, result := [], mirror := (mirrorOf s a.dpa).getD 0,
        guards := none, granule := granuleOf a.dpa }
    { s2 with mirrorq := s2.mirrorq ++ [m] }

/-! ### The regions that are no memory (R191, R394) -/

/-- The device address lies in the package control block, or in the launch-window region: its offset there. -/
def inBlock (dpa : Nat) : Option Nat :=
  if Config.pcbBase.toNat ≤ dpa ∧ dpa < Config.pcbBase.toNat + Config.pcbBytes then some (dpa - Config.pcbBase.toNat) else none
def inWindows (dpa : Nat) : Option Nat :=
  if Config.windowBase.toNat ≤ dpa ∧ dpa < Config.windowBase.toNat + Config.windowBytes then some (dpa - Config.windowBase.toNat) else none
def ownRegion (dpa : Nat) : Bool := (inBlock dpa).isSome || (inWindows dpa).isSome

/-- What a read there gives: the tables at hypervisor level; zero for all others, in a launch window and elsewhere in its page. -/
def regionRead (s : State) (a : CtlAccess) : List Byte :=
  (List.range a.len).map fun i =>
    match inBlock (a.dpa + i) with
    | some o => if a.hyper then pcbByte s o else 0
    | none => 0

/-- What a write there does. whole says that it is a plain store. A write into a launch window is a launch or a rejected one; one
elsewhere in the window's page is ignored. -/
def regionWrite (a : CtlAccess) (data : List Byte) (whole : Bool) (s : State) : State :=
  match inBlock a.dpa, inWindows a.dpa with
  | some o, _ => outState s (if whole then pcbEvent { off := o, data := data, hyper := a.hyper } s else pcbEvent { off := o, data := [], hyper := a.hyper } s)
  | none, some o =>
    if o % 4096 < 64 then outState s (execLaunchWindowWrite (o / 4096) (if whole && o % 4096 == 0 then data else []) s) else s
  | none, none => s
where
  outState (s : State) (o : Out) : State :=
    match o with
    | .next t => t
    | .fault _ | .refused _ => s

/-- A control core's access to a region that is no memory. An atomic writes there as no single store would. -/
def regionPerform (k : Nat) (a : CtlAccess) (s : State) : State :=
  let old : Option (List Byte) := some (regionRead s a)
  match a.op with
  | .fence _ _ _ _ => s
  | .load | .lr => ctlDone k a old s
  | .store bs => ctlDone k a (some []) (regionWrite a (bs.take a.len) true s)
  | .amo _ _ _ _ => ctlDone k a old (regionWrite a [] false s)
  | .sc _ => ctlDone k a (some [1]) (regionWrite a [] false s)

/-- A control core's access takes its place in memory order at the home (R278). -/
def ctlPerform (k : Nat) (a : CtlAccess) (s : State) : State :=
  let old := homeRead s a.dpa a.len
  let value : Option (List Byte) := if rowFailed s a.dpa then none else some old
  match a.op with
  | .fence _ _ _ _ => modCtl k (fun c => { c with pend := c.pend.erase a }) s
  | .load => ctlDone k a value s
  | .lr => modCtl k (fun c => { c with reserve := some (a.dpa / 64) }) (ctlDone k a value s)
  | .store bs => ctlDone k a (some []) (ctlWrite k a (bs.take a.len) s)
  | .amo op ty b c =>
    let new := leBytes (atomNew op ty (leNat old) (b.toNat % 2 ^ Ty.bits ty) c.toNat) a.len
    ctlDone k a value (if rowFailed s a.dpa then s else ctlWrite k a new s)
  | .sc bs =>
    let s1 := modCtl k (fun c => { c with reserve := none }) s
    if (ctlCore s k).reserve = some (a.dpa / 64) then ctlDone k a (some [0]) (ctlWrite k a (bs.take a.len) s1)
    else ctlDone k a (some [1]) s1

/-- What an act of a control core does: an access joins its core's order, granule by granule, one to a region that is no memory whole; a
line that is not here is asked for. -/
def controlAct (k : Nat) (act : CtlAct) (s : State) : State := keepPlat s <|
  match act with
  | .issue a =>
    let piece (p : Nat × Nat) : CtlAccess := { a with
      id := s.fresh, off := p.1, dpa := a.dpa + p.1, len := p.2, ten := a.ten.map fun t => (t.1, t.2.1, t.2.2 + p.1)
      op := match a.op with
        | .store bs => .store ((bs.drop p.1).take p.2)
        | o => o }
    if 32 ≤ k then s
    else modCtl k (fun c => { c with pend := c.pend ++ (if a.op.isFence then [piece (0, 0)] else if ownRegion a.dpa then [piece (0, a.len)]
          else (granules a.dpa a.len).map piece) })
      { s with fresh := s.fresh + 1 }
  | .perform n =>
    match (ctlCore s k).pend[n]? with
    | some a =>
      if !ctlMayGo s k n then s
      else if !a.op.isFence && ownRegion a.dpa then wake (regionPerform k a s)
      else if a.op.isFence || lineReady s a.dpa a.op.writes then wake (ctlPerform k a s)
      else askLine s a.dpa a.op.writes
    | none => s

/-- The control cores' accesses that may go, each core's in its order: the default order's part. -/
def controlAll (s : State) : State :=
  (s.ctls.map (·.1)).foldl (fun s k =>
    match (List.range (ctlCore s k).pend.length).find? (ctlMayGo s k) with
    | some n => controlAct k (.perform n) s
    | none => s) s

end Sys2Proof.Machine
end

