-- ==== Sys2Proof/Machine/InFlight.lean ====
section
/-! DEFINITION. Words that are issued and not yet finished, and what recomputes them from their captured operands (R73, R108, log 83). -/

namespace Sys2Proof.Machine

/-- The type at which an operand's whole value of a width is read and written. -/
def wholeTy (o : Opnd) (width : Nat) : Ty :=
  match o with
  | .w _ => .b64
  | .v _ | .sp _ | .imm => if width = 64 then .b64 else .b32
  | _ => .b32

/-- Its only source is 128 bits wide: it is captured in the 16 bytes of B (R349, log 83). -/
def wideSource (i : Instr) : Bool := (positions i).any fun p => p.1 == 1 && decide (64 < Pos.width p.2.1)

/-- LUT reads D as its fourth input (R79): it is captured in the upper half of B (log 83). -/
def readsDest (i : Instr) : Bool :=
  match i with
  | .lut _ _ => true
  | _ => false

/-- The captured operands of a thread. -/
def computeSlot (clk : Nat) (u : Iss) (imm : Word) (i : Instr) (t : Nat) : Slot :=
  let value (f : Nat) : Nat := match (positions i).find? fun p => p.1 == f with
    | some p => readOpnd clk u (wholeTy p.2.2 (Pos.width p.2.1)) imm p.2.2 t
    | none => 0
  let b := if wideSource i then value 1 else value 2 + if readsDest i then 2 ^ 64 * value 0 else 0
  { a := BitVec.ofNat 64 (value 1), b := BitVec.ofNat 128 b, c := BitVec.ofNat 64 (value 3) }

/-- The captured value of field f of an instruction: 0 D, 1 A, 2 B, 3 C. -/
def Slot.field (s : Slot) (i : Instr) (f : Nat) : Nat :=
  if f = 0 then s.b.toNat / 2 ^ 64
  else if f = 1 then (if wideSource i then s.b.toNat else s.a.toNat)
  else if f = 2 then (if readsDest i then s.b.toNat % 2 ^ 64 else s.b.toNat)
  else s.c.toNat

/-- The entry of an unfinished word: every thread's operands, class N (R73). -/
def computeEntry (clk : Nat) (u : Iss) (i : Instr) (w : IWord) (id : Nat) : Entry :=
  { word := w, state := .issued, cls := .n, drop := false, zeroed := 0, unif := false, pc := u.pc, mask := u.ex, tagBase := 0, prog := 0,
    status := 0, cause := 0, block := [],
    slots := (List.range 32).foldl (fun m t => sput Slot.zero t (computeSlot clk u (w.extractLsb' 0 32) i t) m) [],
    id := id, left := 0, got := [], bad := none, replayed := false }

/-- The threads of the path stand past a word that is to move them when it is finished; its charge is made (R330). -/
def issueControl (u : Iss) (w : IWord) (i : Instr) (s : State) : State :=
  addLive u.g u.r (computeEntry s.clk u i w s.fresh) (charged u w (advancePcs u { s with fresh := s.fresh + 1 }))

/-- The rank issues its next word, which has captured its operands, and goes on; the result is still to come. -/
def issueOnly (g r : Nat) (s : State) : State :=
  match fetchTurn (.rank g r) s with
  | .done _ => s
  | .run i t =>
    let w := encode i
    match issuing t (Fields.ofWord w).ctl with
    | none => s
    | some u =>
      if !isComputed w || (hurdle t u i).isSome || u.ex == 0 || (openWord u.k).isSome || decide (Config.recordLimit ≤ u.k.live.length) then s
      else if isControlWord w then keep s (issueControl u w i t)
      else keep s (finish (Fields.ofWord w).ctl w u (addLive g r (computeEntry t.clk u i w t.fresh) { t with fresh := t.fresh + 1 }))

/-- The rank as the unfinished word found it: its path at the word, its guard and its operands as captured. path is what stands there. -/
def Rank.asCaptured (k : Rank) (i : Instr) (e : Entry) (path : Mask) : Rank :=
  let c := (Fields.ofWord e.word).ctl
  let put (k : Rank) (t : Nat) : Rank := (positions i).foldl (fun k p =>
    if p.1 = 0 ∧ !readsDest i then k
    else writeOpnd (wholeTy p.2.2 (Pos.width p.2.1)) p.2.2 t ((sgetD t Slot.zero e.slots).field i p.1) k) k
  let guarded (k : Rank) (t : Nat) : Rank := k.setP c.gidx.toNat t (e.mask.getLsbD t != c.gneg)
  let at' (t : Nat) (x : Thread) : Thread := if path.getLsbD t then { x with pc := e.pc, exited := false, parked := false } else x
  let k1 := (List.range 32).foldl put k
  let k2 := (threadsOf path).foldl guarded k1
  { k2 with st := .issuing, live := if isControlWord e.word then k.live.erase e else [], away := [], active := path, threads := (List.range 32).map fun t => at' t (k.thread t) }

/-- The clock that a word read: its captured value. -/
def clockRead (i : Instr) (e : Entry) (clk : Nat) : Nat :=
  match (positions i).find? fun p => p.2.2 == .sp .clk, threadsOf e.mask with
  | some p, t :: _ => (sgetD t Slot.zero e.slots).field i p.1
  | _, _ => clk

/-- The threads whose D a word has written: those that executed it, and those that it wrote for them (R121). -/
def wroteD (e : Entry) (ty : Ty) (d : Opnd) (was now : Iss) : Mask :=
  maskOf fun t => e.mask.getLsbD t || readOpnd 0 was ty 0 d t != readOpnd 0 now ty 0 d t

/-- The destination of an unfinished word takes the result that the word, run by exec on its captured operands, gave: D, or all
predicates (R89). -/
def Rank.takeResult (k : Rank) (i : Instr) (e : Entry) (was now : Iss) : Rank :=
  let k1 := { k with live := k.live.erase e }
  match i with
  | .pmovUnpack _ _ => { k1 with p := now.k.p }
  | _ =>
    match (positions i).find? fun p => p.1 == 0 with
    | some p =>
      let ty := wholeTy p.2.2 (Pos.width p.2.1)
      writeAll (wroteD e ty p.2.2 was now) ty p.2.2 (fun t => readOpnd 0 now ty 0 p.2.2 t) k1
    | none => k1

/-- The unit of a rank in a state, as a word of a path had it. -/
def issAt (s : State) (g r : Nat) (e : Entry) : Option Iss :=
  match group? s g, rank? s g r, (group? s g).bind fun x => ctx? s x.ctx with
  | some x, some k, some c => some { g := g, r := r, x := x, k := k, c := c, pc := e.pc, active := e.mask, ex := e.mask }
  | _, _, _ => none

/-- What a word of control flow leaves that was run on captured operands: threads, rejoin masks and the ply as it left them, the other
registers, the energy counter and the clock as if only its pass had gone by. A rank that was in no ply is in none. -/
def settleControl (g r cid clk : Nat) (s : State) (k : Rank) (t : State) : State :=
  let kept (q : Rank) : Rank := { q with v := k.v, o := k.o, y := k.y, w := k.w, p := k.p, away := k.away, dirty := k.dirty }
  let energy (c : Ctx) : Ctx := match ctx? s cid with
    | some b => { c with energy := b.energy, sat := b.sat }
    | none => c
  let t1 := modCtx cid energy { (modRank g r kept t) with clk := s.clk + (t.clk - clk) }
  if k.st = .issuing then t1
  else { (if (rank? t1 g r).any fun q => q.st == .issuing then endPly g r .ready t1 else t1) with cur := s.cur }

/-- The unfinished word of a rank is finished: exec is run on the operands as they were captured, and its result is taken (R73). A word
of control flow moves its path, which has waited for it. -/
def finishWord (exec : Instr → State → Out) (g r : Nat) (s : State) : State :=
  match rank? s g r, (rank? s g r).bind openWord with
  | some k, some e =>
    match entryInstr e.word, issAt s g r e with
    | some i, some u =>
      let path := if isControlWord e.word && k.st == .issuing then k.active ||| e.mask else e.mask
      let clk := clockRead i e s.clk
      let s0 := modRank g r (fun k => k.asCaptured i e path) s
      match exec i { s0 with clk := clk, cur := some (.rank g r) } with
      | .next t =>
        if isControlWord e.word then settleControl g r u.x.ctx clk s k t
        else
          match issAt s0 g r e, issAt t g r e with
          | some was, some now => modRank g r (fun k => k.takeResult i e was now) s
          | _, _ => modRank g r (fun k => { k with live := k.live.erase e }) s
      | _ => modRank g r (fun k => { k with live := k.live.erase e }) s
    | _, _ => s
  | _, _ => s

end Sys2Proof.Machine
end

