-- ==== Sys2Proof/Machine/Sched.lean ====
section
/-! DEFINITION. What happens next (log 6): the head of the agenda, else the unit whose turn it is, else the default order, in which the
first act that does more than let time pass is taken. -/

set_option linter.unusedVariables false

namespace Sys2Proof.Machine

/-! ### Candidates, in the default order -/

/-- Times that have been reached: energy boundaries, yield deadlines, the bear-off controller, retries, holds of reservations. -/
def timers (s : State) : List Instr :=
  (if s.bound < s.clk / 1024 then [.staticEnergyBoundary] else []) ++
  ((s.ctxs.filter fun c => yieldOverrun s c.1).map fun c => .yieldDeadline c.1) ++
  (if s.plat.bearoffs.isEmpty then [] else [.bearoffEvaluation, .bearoffComparator]) ++
  (s.plat.bearoffs.flatMap fun b => [.bearoffDeadline b.reqid, .bearoffComplete b.reqid]) ++
  ((List.range s.fab.unacked.length).flatMap fun k => [.ordRetryResend k, .peerRetryResend k]) ++
  (s.resv.map fun v => .conflictingWriteHoldExpiry v.granule)

/-- Traps that ranks are to take between plies, and lines that come back. -/
def boundaryActs (s : State) : List Instr :=
  s.groups.flatMap fun e =>
    (e.2.ranks.flatMap fun k => (if k.imprecise.isEmpty then [] else [.impreciseFaultTaken e.1 k.idx]) ++
      (if k.fillLine.isSome then [.lineFill e.1 k.idx] else [])) ++
    (match e.2.seqFault, lowestRank e.2 with
      | some _, some r => [.impreciseFaultTaken e.1 r]
      | _, _ => []) ++ [.yieldTrap e.1]

/-- Answers and requests of memory. -/
def memoryActs (s : State) : List Instr :=
  (if s.respq.isEmpty then [] else [.loadResponse 0]) ++ (List.range s.homeq.length).map fun k => .homeRequest k

/-- Engines: starts, faults, completions, adds; then the array and the epilogue. -/
def engineActs (s : State) : List Instr :=
  (((s.cmds.filter fun c => c.2.st == .waiting).map fun c => c.2.engine).eraseDups.map fun e => .engineCommandStart e) ++
  (s.cmds.flatMap fun c => [.engineAccessFault c.1, .commandComplete c.1, .reducerAdd c.1]) ++
  (s.groups.flatMap fun e => (List.range e.2.seq.recs.length).flatMap fun k => [.mmaKblockWrite e.1 k, .mepiRowRetire e.1 k]) ++
  ((List.range s.steps.length).map fun k => .ctxStepComplete k)

/-- Lanes that have a rank to choose, the one whose rank has been ready longest first, so that none starves another. -/
def lanesByAge (s : State) : List Nat :=
  let lanes := (s.groups.flatMap fun e => e.2.ranks.map fun k => laneOf e.2 k).eraseDups
  (sortBy (fun a b => decide (a.1 ≤ b.1)) (lanes.filterMap fun l => (chooseRank s (l / 32) (l % 32)).map fun r => (r.2.2.readyAt, l))).map (·.2)

/-- The dispatcher, and the lanes. -/
def laneActs (s : State) : List Instr :=
  (if roundMoves s then [.dispatchRound] else []) ++
  ((s.launches.map fun l => l.2.queue).eraseDups.map fun q => .roomHold q) ++
  (s.plat.retiring.map fun r => .layerRetireProceed r.1 r.2.1) ++
  (if s.zeroing.isEmpty then [] else [.zeroingComplete 0]) ++
  ((lanesByAge s).map fun l => .laneChoice (l / 32) (l % 32))

/-- Ranks whose ply is held by a stall, and running sequencers. -/
def stalledTurns (s : State) : List Turn :=
  s.groups.flatMap fun e => (e.2.ranks.filter fun k => k.st == .issuing && !e.2.frozen).map fun k => .rank e.1 k.idx

def seqTurns (s : State) : List Turn :=
  (s.groups.filter fun e => e.2.seq.st == .running && !e.2.frozen && !e.2.quiesced && ctxRuns s e.2.ctx).map fun e => .seq e.1

/-! ### The choice -/

/-- A state without what passes with time alone. -/
def quietView (s : State) : State :=
  { s with clk := 0, aphase := 0, cur := none, fresh := 0, free := 0
           groups := s.groups.map fun e => (e.1, { e.2 with ranks := e.2.ranks.map fun k => { k with starve := 0 } }) }

def resultOf (a : Act) (s : State) : Out :=
  match a with
  | .event i => exec i s
  | .tick n => .next (tick n s)
  | .control k a => .next (controlAct k a s)
  | .commit => .next (commitStep s)
  | .link a => .next (linkAct a s)
  | .release p t => .next (freeTag p t s)
  | .roots part rt rn pt => .next (setRoots part rt rn pt s)
  | .issueOnly g r => .next (issueOnly g r s)
  | .finishWord g r => .next (finishWord exec g r s)
  | .turn u =>
    match fetchTurn u s with
    | .run i s' => exec i s'
    | .done s' => .next s'

/-- The act does more than let time pass. -/
def moves (s : State) (a : Act) : Bool :=
  match resultOf a s with
  | .next t => decide (quietView t ≠ quietView s)
  | _ => false

/-- Work that no row of the opcode table names: held packets and lines that may go on, records that wait, engines and collectives. -/
def background (s : State) : State := keepPlat s <|
  let s1 := (s.cmds.map (·.1)).foldl (fun s k => if collMoves k s then collWork k s else s) (engineAll (controlAll (linkRound s)))
  match lineDue s1 with
  | some l => lineCame (serve l s1)
  | none => if (heldReady s1).isSome || !s1.deferred.isEmpty || !s1.late.isEmpty || !(weightsOut s1).isEmpty then lineCame s1 else s1
where
  /-- The work of every running command goes on by one unit. -/
  engineAll (s : State) : State := (s.cmds.map (·.1)).foldl (fun s k => engineWork k s) s

/-- The first candidate that moves; time passes by one cycle where there is none. -/
def defaultAct (s : State) : Act :=
  let events (l : List Instr) : List Act := l.map Act.event
  let turns (l : List Turn) : List Act := l.map Act.turn
  let open_ : List Act := s.groups.flatMap fun e => (e.2.ranks.filter fun k => (openWord k).isSome && !e.2.frozen).map fun k => .finishWord e.1 k.idx
  let commits : List Act := if mgmtRuns s && decide (2 ≤ commitState s) then [.commit] else []
  let all := open_ ++ commits ++ events (timers s ++ boundaryActs s ++ memoryActs s) ++ turns (stalledTurns s) ++ events (engineActs s) ++
    turns (seqTurns s) ++ events (laneActs s)
  (all.find? (moves s)).getD (.tick 1)

/-- The act would run a word of a rank whose last word is not finished. -/
def unfinished (s : State) (a : Act) : Option (Nat × Nat) :=
  match a with
  | .turn (.rank g r) | .issueOnly g r => if ((rank? s g r).bind openWord).isSome then some (g, r) else none
  | _ => none

/-- An unfinished word of a rank comes first. -/
def finishFirst (s : State) (a : Act) : Act :=
  match unfinished s a with
  | some p => .finishWord p.1 p.2
  | none => a

def nextAct (s : State) : Act :=
  match s.agenda with
  | a :: _ => finishFirst s a
  | [] =>
    match s.cur with
    | some u => finishFirst s (.turn u)
    | none => defaultAct (background s)

/-- What is due before any act: pages that have been mapped under a buffer that is being zeroed are zeroed (R292), and the energy
boundaries that have passed are charged (R331), so that an EREAD in a boundary cycle holds that boundary's charge. -/
def settleDue (s : State) : State := chargeBounds (zeroOwed s)

/-- The state in which the next act is done: without it on the agenda; before an act of the default order the background work goes on. -/
def popAct (s : State) : State :=
  match s.agenda, s.cur with
  | a :: l, _ => if (unfinished s a).isSome then s else settleDue { s with agenda := l }
  | [], some _ => settleDue s
  | [], none => background (settleDue s)

end Sys2Proof.Machine
end

