-- ==== Sys2Proof/Machine/Step.lean ====
section
/-! DEFINITION. One step of the package: an event, a word of a unit, or time passing. -/

namespace Sys2Proof.Machine

/-- An event acts at once; a unit's turn fetches its word and runs it. -/
def step (s : State) : Host.Outcome State Fault Refusal :=
  match nextAct s with
  | .event i => exec i (popAct s)
  | .tick n => .next (tick n (popAct s))
  | .control k a => .next (controlAct k a (popAct s))
  | .commit => .next (commitStep (popAct s))
  | .link a => .next (linkAct a (popAct s))
  | .release p t => .next (freeTag p t (popAct s))
  | .roots part rt rn pt => .next (setRoots part rt rn pt (popAct s))
  | .issueOnly g r => .next (issueOnly g r (popAct s))
  | .finishWord g r => .next (finishWord exec g r (popAct s))
  | .turn u =>
    match fetchTurn u (popAct s) with
    | .run i s' => exec i s'
    | .done s' => .next s'

/-- s with an instruction's word where the next fetch takes it (log 46). -/
def State.withFetchWord (s : State) (nbits w : Nat) : State := placeWord (BitVec.ofNat 96 (w % 2 ^ nbits)) s

end Sys2Proof.Machine
end

