-- ==== Sys2Proof/Safety.lean ====
section
/-! DEFINITION. What statements about the machine speak of: runs that go on, what a word leaves alone, and the invariants of a step. -/

namespace Sys2Proof.Machine

/-- A step that goes on. -/
def Goes (s t : State) : Prop := step s = .next t

/-- The machine stops only where a word meets no unit that issues words of its kind. -/
def Stops (s : State) : Prop := ∃ f, step s = .fault f

/-- The registers of a rank. -/
def Rank.regs (k : Rank) : Sparse Word × Sparse Word × Sparse Word × Sparse Long × Sparse Mask × Sparse Word :=
  (k.v, k.o, k.y, k.w, k.p, k.j)

/-- The trap registers, frame and records of a rank, and its counters of remote operations. -/
def Rank.special (k : Rank) : (Long × Long × Long × Long) × (Bool × Bool × Bool) × Option FrameCopy × List Entry × List Entry × Sparse Nat :=
  ((k.tcause, k.tpc, k.tval, k.ifrec), (k.handler, k.frameActive, k.yielding), k.frameCopy, k.live, k.frame, k.counters)

/-- A context without what a charge changes. -/
def Ctx.noEnergy (c : Ctx) : Ctx := { c with energy := 0, sat := false }

/-- A rank without its count of cycles spent waiting. -/
def Rank.noStarve (k : Rank) : Rank := { k with starve := 0 }

/-- Every other rank, every group but for its ranks, every context but for its energy, memory, the queues, tables and units are the same
in s and t; time, the turn and reservations may differ. -/
structure SameOutside (g r : Nat) (s t : State) : Prop where
  rest : { t with clk := 0, aphase := 0, cur := none, resv := [], groups := [], ctxs := [] } = { s with clk := 0, aphase := 0, cur := none, resv := [], groups := [], ctxs := [] }
  ctxs : (t.ctxs.map fun e => (e.1, e.2.noEnergy)) = s.ctxs.map fun e => (e.1, e.2.noEnergy)
  groups : ∀ g', (group? t g').map (fun x => { x with ranks := [] }) = (group? s g').map (fun x => { x with ranks := [] })
  ranks : ∀ g' r', (g', r') ≠ (g, r) → (rank? t g' r').map Rank.noStarve = (rank? s g' r').map Rank.noStarve

/-- A rank without its threads' rows and without the ply in progress: its registers, trap state, records and marks. -/
def Rank.noPly (k : Rank) : Rank :=
  { k with threads := [], st := .ready, starve := 0, readyAt := 0, active := 0, plyLen := 0, plyLr := false, plyClean := false,
           waitFor := .none }

/-- A rank's rows in the thread table when the path u has run: the threads that executed where go takes them, the other active
threads past the word, the rest where they were. -/
def rowsAfter (u : Iss) (go : Nat → Thread → Thread) (k : Rank) : List Thread :=
  (List.range k.threads.length).map fun t =>
    if u.ex.getLsbD t then go t (k.thread t)
    else if u.active.getLsbD t then { k.thread t with pc := ptrAdd u.pc 12 } else k.thread t

/-- State t is state s after the pass of path u: the rank differs from s in its ply and in its threads, which go where go takes
those that executed, and the rest of the machine is the same but for time, energy and the turn. -/
structure AfterPath (go : Nat → Thread → Thread) (u : Iss) (s t : State) : Prop where
  rank : ∃ k k', rank? s u.g u.r = some k ∧ rank? t u.g u.r = some k' ∧ k'.noPly = k.noPly ∧ k'.threads = rowsAfter u go k
  rest : SameOutside u.g u.r s t

/-- The same for a word that moves no thread by itself: every active thread stands past it. -/
abbrev AfterWord (u : Iss) (s t : State) : Prop := AfterPath (fun _ x => { x with pc := ptrAdd u.pc 12 }) u s t

/-- Word i completes: issued by a path that meets ok and no hurdle, it goes on to a state after effect. -/
def Completes (i : Instr) (c : Ctl) (ok : State → Iss → Prop) (effect : State → Iss → State) : Prop :=
  ∀ s u, issuing s c = some u → hurdle s u i = none → ok s u → ∃ t, exec i s = .next t ∧ AfterWord u (effect s u) t

/-- Word i writes f's results of type ty to d, for every state and path. -/
def Gives (i : Instr) (c : Ctl) (ty : Ty) (d : Opnd) (f : Nat → Iss → Nat → Nat) : Prop :=
  Completes i c (fun _ _ => True) fun s u => setD u ty d (f s.clk u) s

/-- n bytes at p, a multiple of align, stand in the scratchpad of the group. -/
abbrev inScratch (x : Group) (p : Long) (n align : Nat) : Prop :=
  p.toNat % align = 0 ∧ ptrOk p = true ∧ ptrSpace p = .loc ∧ ptrRegion p = 0 ∧ ptrOff p + n ≤ 2 ^ (Space.loc).width ∧ ptrOff p + n ≤ x.scratchBytes

/-- A rank that has taken a precise trap (R341 to R343): handler level, the three trap registers, its threads at the handler. -/
structure Trapped (k k' : Rank) (entry : Long) (cause : BitVec 16) (tpc tval : Long) : Prop where
  level : k'.handler = true ∧ k'.frameActive = true
  regs : k'.tcause = tcauseWord false (causeDone cause) cause ∧ k'.tpc = tpc ∧ k'.tval = tval
  at' : ∀ t, t < k.threads.length → (k.thread t).exited = false → (k'.thread t).pc = entry ∧ (k'.thread t).parked = false
  gone : ∀ t, (k'.thread t).exited = (k.thread t).exited
  copy : k'.frameCopy = some (k.copyFrame k.threads)
  general : k'.regs = k.regs

/-- What management may change: the arithmetic clock in its range and steps (R398), the commit word's reserved bits zero (R376). -/
structure Settled (s : State) : Prop where
  low : 875 ≤ s.plat.aclk
  high : s.plat.aclk ≤ 1750
  step : s.plat.aclk % 25 = 0
  commit : s.plat.commit.toNat < 8

end Sys2Proof.Machine
end

