-- ==== Sys2Proof/WellFormed.lean ====
section
/-! DEFINITION. Well-formed instructions: a word that passes checks 6 to 9 of R36 with a full register budget, or an event whose
unit exists on the part (R5, R147, R307). -/

namespace Sys2Proof

/-- The word of an instruction other than the two rows for words that are no instruction passes checks 7 to 9. -/
def wordChecks (i : Instr) : Bool :=
  reservedOk i && codesOk i && (badOperand 256 (fun _ => false) i).isNone

/-- An engine of the part: a core's copy engine, a quad's gather engine, one of four collective engines (R147). -/
def EngineId.exists : EngineId → Bool
  | .copy c => decide (c < Config.cores)
  | .gather q => decide (4 * q < Config.cores)
  | .coll k => decide (k < 4)

/-- The opcodes of checks 1 and 4 to 6: no instruction of thread code. -/
def isIllegalWord (w : IWord) : Bool :=
  let f := Fields.ofWord w
  f.opc == 0x00 || f.opc == 0xFF || (!isExtOpcode f.opc && ((parse f.fix).isNone || isMOpcode f.opc))

def wellFormed : Instr → Bool
  | .illegalOpcode w => isIllegalWord w
  | .extensionOpcode w => isExtOpcode (Fields.ofWord w).opc
  | .laneChoice core lane => decide (core < Config.cores) && decide (lane < Config.lanes)
  | .engineCommandStart e => e.exists
  | .flitReceive port _ | .linkReplayRequest port _ | .portLockNotice port _ => decide (port < 16)
  | .launchFrame f => decide (f.port < 2)
  | i => wordChecks i

end Sys2Proof
end

