-- ==== Sys2Proof/Certificates/Slice0/Obligations.lean ====
section
/-! DEFINITION. The statements for the provers. A word's statements speak of a path that a rank issues (issuing s c = some u) with no
hurdle before it (hurdle s u i = none: its privilege, its barriers and slabs, and what it waits for, checks 10 and 11 of R36 and R212). -/

open Sys2Proof Sys2Proof.Machine

/-! ### The encoding -/

/-- Who fetches an instruction's word: a sequencer the words of opcodes 0xD0 to 0xDF, a rank the others (R34); illegal words read
the same for both. -/
def Sys2Proof.whoFetches : Instr → Fetcher
  | .illegalOpcode _ => .rank 256
  | i => tableFetcher (encode i)

/-- R26 to R36: the word of every well-formed instruction decodes to it, with every operand at every value. -/
def Obligations.DecodeEncode : Prop :=
  ∀ i, wellFormed i = true → fieldsOf i ≠ none → decodeWord (whoFetches i) (encode i) = .ok i

/-- R26 to R36: an instruction that a word decodes to encodes to that word, and passes the checks of a well-formed one; opcodes 0x00, 0xFF and the
M-stream's are illegal words for a rank and 0xF0 to 0xFE extension words, whatever the other bits are, and a sequencer takes only M-stream
words and NOP. -/
def Obligations.DecodeSound : Prop :=
  (∀ who w i, decodeWord who w = .ok i → encode i = w) ∧
  (∀ vb w i, vb ≤ 256 → decodeWord (.rank vb) w = .ok i → wellFormed i = true) ∧
  (∀ w : IWord, ∀ vb,
    let opc := (w.extractLsb' 88 8).toNat
    ((opc = 0x00 ∨ opc = 0xFF ∨ (0xD0 ≤ opc ∧ opc < 0xE0)) → decodeWord (.rank vb) w = .ok (.illegalOpcode w)) ∧
    ((0xF0 ≤ opc ∧ opc < 0xFF) → ∀ who, decodeWord who w = .ok (.extensionOpcode w)) ∧
    (opc ≠ 0x01 → ¬(0xD0 ≤ opc ∧ opc < 0xE0) → ¬(0xF0 ≤ opc ∧ opc < 0xFF) → decodeWord .sequencer w = .ok (.illegalOpcode w)))

/-- R21, R26, R27, R31 to R35: words written out bit by bit. OPC, FN, D, A, B, guard, MOD, hint, IMM. -/
def Obligations.DecodeWords : Prop :=
  let w (opc : BitVec 8) (fn : BitVec 6) (d a b : BitVec 10) (g : BitVec 4) (n : BitVec 1) (md : BitVec 7) (h : BitVec 8)
      (imm : BitVec 32) : IWord := opc ++ fn ++ d ++ a ++ b ++ g ++ n ++ md ++ h ++ imm
  let c : Ctl := { gidx := 0, gneg := false, pend := false, dly := 0, keep := 0, fsh := false }
  -- IADD.lo.s32 v1, v2, the immediate, with the PEND bit, under ?!p3
  decodeWord (.rank 256) (w 0x02 0 0b0000000001 0b0000000010 0x380 3 1 0b0011100 0b10000000 0xFFFFFFFF) =
    .ok (.iadd false { c := { c with gidx := 3, gneg := true, pend := true }, ty := .s32, rm := .rne, d := .v 1, a := .v 2, b := .imm,
                       imm := 0xFFFFFFFF }) ∧
  -- FFMA.f32 v4, v5, w6, v7 rounding toward zero
  decodeWord (.rank 256) (w 0x63 0 4 5 0b0100000110 0 0 0b0110101 0 7) =
    .ok (.ffma false { c := c, ty := .f32, rm := .rz, d := .v 4, a := .v 5, b := .w 6, x := .v 7 }) ∧
  -- EXIT
  decodeWord (.rank 256) (w 0x48 0 0 0 0 0 0 0 0 0) = .ok (.exit c) ∧
  -- LD.b32 v8, [w2 + 16]
  decodeWord (.rank 256) (w 0x90 2 8 0b0100000010 0 0 0 0 0 16) =
    .ok (.ld { c := c, ty := .b32, acq := false, sc := 0, pol := 0, d := .v 8, a := .w 2, disp := 16 }) ∧
  -- BAR.arv.grp w1, b5
  decodeWord (.rank 256) (w 0xB0 1 0b0100000001 0b1100000101 0 0 0 0b0001000 0 0) = .ok (.barArv c 1 (.w 1) (.b 5) 0) ∧
  -- SRD w0, register 0x060 index 7
  decodeWord (.rank 256) (w 0xE2 0 0b0100000000 0 0 0 0 0 0 0x7060) = .ok (.srd c (.w 0) 0x060 7) ∧
  -- MSTOP
  decodeWord .sequencer (w 0xD7 0 0 0 0 0 0 0 0 0) = .ok .mstop ∧
  -- a reserved bit: EXIT with bit 32 of the word set
  decodeWord (.rank 256) (w 0x48 0 0 0 0 0 0 0 1 0) = .error .reservedField

/-! ### Steps -/

/-- R398, R376: after reset the arithmetic clock is in range and the commit word holds no reserved bit. The clock's value at reset is
the model's choice (log 3). -/
def Obligations.ResetSettled : Prop := Settled State.reset

/-- R398, R376: every step keeps the arithmetic clock between 875 and 1750 MHz in steps of 25, and the commit word's reserved bits zero. -/
def Obligations.StepKeepsSettled : Prop :=
  ∀ s t, Settled s → Goes s t → Settled t

/-- R7, R26, R38: the head of the agenda acts; where none stands there, the rank or sequencer whose turn it is runs the instruction
that the 12 bytes at its program counter decode to; nothing but the fetch happens around it, and before it what is due: pages that a
buffer still owes are zeroed (R292), and passed energy boundaries are charged (R331). The agenda is the model's (log 6), and so is the
unfinished word (log 83), which a rank here has none of. -/
def Obligations.StepRunsDecoded : Prop :=
  (∀ s i l, s.agenda = .event i :: l → step s = exec i (settleDue { s with agenda := l })) ∧
  (∀ s g r x k c s' bs i, s.agenda = [] → s.cur = some (.rank g r) → group? s g = some x → rank? s g r = some k →
    ctx? (settleDue s) x.ctx = some c → k.st = .issuing → openWord k = none → fetchBytes x.ctx x.core c (pathPc k k.active) (settleDue s) = (s', .bytes bs) →
    decodeWord (.rank k.budget) (wordOfBytes bs) = .ok i → step s = exec i (keep s s')) ∧
  (∀ s g x c s' bs i, s.agenda = [] → s.cur = some (.seq g) → group? s g = some x →
    ctx? (settleDue s) x.ctx = some c → x.seq.st = .running → x.quiesced = false → fetchBytes x.ctx x.core c x.seq.mpc (settleDue s) = (s', .bytes bs) →
    decodeWord .sequencer (wordOfBytes bs) = .ok i → step s = exec i (keep s s'))

/-- R394: no word of thread code or of the M-stream but BUFSET changes the package's tables, and none the platform. -/
def Obligations.WordsKeepTables : Prop :=
  ∀ i s t, fieldsOf i ≠ none → exec i s = .next t →
    t.plat = s.plat ∧ ((∀ c a b, i ≠ .bufset c a b) → t.tabs = s.tabs)

/-! ### Memory and register writes -/

/-- R7: memory is little-endian bytes: a byte read where one was written is what was written, every other byte is as before, and the
memory keeps its one form, in which equal memories are equal lists. -/
def Obligations.MemoryBytes : Prop :=
  (∀ (m : Mem) a bs b, m.wf = true → byteAt (writeBytes m a bs) b = if a ≤ b ∧ b < a + bs.length then bs.getD (b - a) 0 else byteAt m b) ∧
  (∀ (m : Mem) a bs, m.wf = true → (writeBytes m a bs).wf = true) ∧
  (∀ (m : Mem) a n b, m.wf = true → byteAt (zeroRange m a n) b = if a ≤ b ∧ b < a + n then 0 else byteAt m b) ∧
  (∀ (m : Mem) a n, m.wf = true → (zeroRange m a n).wf = true) ∧
  (∀ (m m' : Mem), m.wf = true → m'.wf = true → (∀ a, byteAt m a = byteAt m' a) → m = m') ∧
  (∀ x n, leNat (leBytes x n) = x % 256 ^ n)

/-- R15, R23, R71: a per-thread destination takes the thread's result, in one, two or four consecutive v registers by the width of its
type, and no other register of any class changes; a write to p0 is ignored. -/
def Obligations.RegisterWrites : Prop :=
  (∀ ty (k : Rank) t i x, t < 32 → (k.v.map (·.1)).Pairwise (· < ·) →
    let k' := writeOpnd ty (.v i) t x k
    k'.vgroup i.toNat t (ty.slot / 32) = slotResult ty x % 2 ^ ty.slot ∧
    (∀ j t', t' < 32 → ¬(t' = t ∧ i.toNat ≤ j ∧ j < i.toNat + ty.slot / 32) → k'.vreg j t' = k.vreg j t') ∧
    (k'.o, k'.y, k'.w, k'.p, k'.j) = (k.o, k.y, k.w, k.p, k.j)) ∧
  (∀ ty (k : Rank) t i x, t < 32 → (k.o.map (·.1)).Pairwise (· < ·) →
    let k' := writeOpnd ty (.o i) t x k
    (∀ j t', t' < 32 → sgetD (j * 32 + t') 0 k'.o = if j = i.toNat ∧ t' = t then BitVec.ofNat 32 (slotResult ty x) else sgetD (j * 32 + t') 0 k.o) ∧
    (k'.v, k'.y, k'.w, k'.p, k'.j) = (k.v, k.y, k.w, k.p, k.j)) ∧
  (∀ ty (k : Rank) t i x, t < 32 → (k.y.map (·.1)).Pairwise (· < ·) →
    let k' := writeOpnd ty (.y i) t x k
    (∀ j t', t' < 32 → sgetD (j * 32 + t') 0 k'.y = if j = i.toNat ∧ t' = t then BitVec.ofNat 32 (slotResult ty x) else sgetD (j * 32 + t') 0 k.y) ∧
    (k'.v, k'.o, k'.w, k'.p, k'.j) = (k.v, k.o, k.w, k.p, k.j)) ∧
  (∀ ty (k : Rank) t i x, (k.w.map (·.1)).Pairwise (· < ·) →
    let k' := writeOpnd ty (.w i) t x k
    k'.wreg i.toNat = wideResult ty (slotResult ty x) ∧ (∀ j, j ≠ i.toNat → k'.wreg j = k.wreg j) ∧
    (k'.v, k'.o, k'.y, k'.p, k'.j) = (k.v, k.o, k.y, k.p, k.j)) ∧
  (∀ ty (k : Rank) t x, writeOpnd ty (.p 0) t x k = k) ∧
  (∀ (k : Rank) i t x, t < 32 → i ≠ 0 → (k.p.map (·.1)).Pairwise (· < ·) →
    ((writeOpnd .b32 (.p i) t x k).pred i.toNat).getLsbD t = (x != 0) ∧
    (∀ t', t' ≠ t → ((writeOpnd .b32 (.p i) t x k).pred i.toNat).getLsbD t' = (k.pred i.toNat).getLsbD t') ∧
    (∀ j, j ≠ i.toNat → (writeOpnd .b32 (.p i) t x k).pred j = k.pred j) ∧
    let k' := writeOpnd .b32 (.p i) t x k
    (k'.v, k'.o, k'.y, k'.w, k'.j) = (k.v, k.o, k.y, k.w, k.j)) ∧
  (∀ ty (k : Rank) d t x, (writeOpnd ty d t x k).special = k.special ∧ (writeOpnd ty d t x k).threads = k.threads)

/-! ### Results of words that compute a register -/

/-- R75, R77: the integer instructions read their operands by the type's signedness, compute exactly, and fit the result to the type;
ISET writes a predicate. -/
def Obligations.IntegerResults : Prop :=
  let int (x : Alu2) (o : Opnd) (clk : Nat) (u : Iss) (t : Nat) : Int := intOf (Ty.isSigned x.ty) (Ty.bits x.ty) (readOpnd clk u x.ty x.imm o t)
  let int1 (x : Alu1) (clk : Nat) (u : Iss) (t : Nat) : Int := intOf (Ty.isSigned x.ty) (Ty.bits x.ty) (readOpnd clk u x.ty x.imm x.a t)
  let op2 (i : Instr) (sat : Bool) (x : Alu2) (f : Int → Int → Int) : Prop :=
    Gives i x.c x.ty x.d fun clk u t => fit (Ty.isSigned x.ty) sat (Ty.bits x.ty) (f (int x x.a clk u t) (int x x.b clk u t))
  (∀ sat x, op2 (.iadd sat x) sat x (· + ·)) ∧
  (∀ sat x, op2 (.isub sat x) sat x (· - ·)) ∧
  (∀ x, op2 (.imin x) false x min) ∧
  (∀ x, op2 (.imax x) false x max) ∧
  (∀ sat x, Gives (.iabs sat x) x.c x.ty x.d fun clk u t => fit (Ty.isSigned x.ty) sat (Ty.bits x.ty) ((int1 x clk u t).natAbs : Int)) ∧
  (∀ sat x, Gives (.ineg sat x) x.c x.ty x.d fun clk u t => fit (Ty.isSigned x.ty) sat (Ty.bits x.ty) (-int1 x clk u t)) ∧
  (∀ x, op2 (.imul .lo x) false x (· * ·)) ∧
  (∀ x, op2 (.imul .hi x) false x fun a b => (a * b) / ((2 ^ Ty.bits x.ty : Nat) : Int)) ∧
  (∀ x : Alu2, x.ty = .b32 ∨ x.ty = .s32 → Gives (.imul .wide x) x.c (if x.ty = .b32 then .b64 else .s64) x.d fun clk u t =>
    fit (x.ty = .s32) false 64 (int x x.a clk u t * int x x.b clk u t)) ∧
  (∀ (f : MulFn) (x : Alu3), (f = .wide → x.ty = .b32 ∨ x.ty = .s32) →
    let r (o : Opnd) (ty : Ty) (clk : Nat) (u : Iss) (t : Nat) : Int := intOf (Ty.isSigned x.ty) (Ty.bits ty) (readOpnd clk u ty 0 o t)
    let dty : Ty := if f = .wide then (if x.ty = .b32 then .b64 else .s64) else x.ty
    Gives (.imad f x) x.c dty x.d fun clk u t =>
      let p := r x.a x.ty clk u t * r x.b x.ty clk u t
      fit (Ty.isSigned x.ty) false (Ty.bits dty) ((if f = .hi then p / ((2 ^ Ty.bits x.ty : Nat) : Int) else p) + r x.x dty clk u t)) ∧
  (∀ cc x, Gives (.iset cc x) x.c .b32 x.d fun clk u t =>
    let a := int x x.a clk u t
    let b := int x x.b clk u t
    if (match cc with
      | .eq => decide (a = b) | .ne => decide (a ≠ b) | .lt => decide (a < b) | .le => decide (a ≤ b) | .gt => decide (a > b)
      | .ge => decide (a ≥ b)) then 1 else 0) ∧
  (∀ sat (x : Alu3), Gives (.idot sat x) x.c (if Ty.isSigned x.ty then .s32 else .b32) x.d fun clk u t =>
    let w := Ty.bits x.ty
    let e (o : Opnd) (k : Nat) : Int := intOf (Ty.isSigned x.ty) w (bits (readOpnd clk u .b32 0 o t) (w * k) w)
    fit (Ty.isSigned x.ty) sat 32 (intOf (Ty.isSigned x.ty) 32 (readOpnd clk u .b32 0 x.x t) +
      ((List.range (32 / w)).map fun k => e x.a k * e x.b k).sum)) ∧
  (∀ sgn sat n x, 0 < n → fit sgn sat n x < 2 ^ n ∧
    (sat = false → (fit sgn sat n x : Int) = x % ((2 ^ n : Nat) : Int)) ∧
    (sat = true → sgn = false → (fit sgn sat n x : Int) = max 0 (min x ((2 ^ n : Nat) - 1))) ∧
    (sat = true → sgn = true → signed (fit sgn sat n x) n = max (-((2 ^ (n - 1) : Nat) : Int)) (min x ((2 ^ (n - 1) : Nat) - 1))))

/-- R76: IDIV's quotient and remainder, with its two cases that never trap. -/
def Obligations.DivisionResults : Prop :=
  (∀ rem x, Gives (.idiv rem x) x.c x.ty x.d fun clk u t =>
    divide rem (Ty.isSigned x.ty) (Ty.bits x.ty) (intOf (Ty.isSigned x.ty) (Ty.bits x.ty) (readOpnd clk u x.ty x.imm x.a t))
      (intOf (Ty.isSigned x.ty) (Ty.bits x.ty) (readOpnd clk u x.ty x.imm x.b t))) ∧
  ∀ sgn n (a b : Nat), 1 < n → a < 2 ^ n → b < 2 ^ n →
    let A := intOf sgn n a
    let B := intOf sgn n b
    let quo := divide false sgn n A B
    let rem := divide true sgn n A B
    quo < 2 ^ n ∧ rem < 2 ^ n ∧
    (B = 0 → rem = a ∧ if sgn then intOf sgn n quo = -1 else quo = 2 ^ n - 1) ∧
    (sgn = true → A = -((2 ^ (n - 1) : Nat) : Int) → B = -1 → intOf sgn n quo = A ∧ rem = 0) ∧
    (B ≠ 0 → ¬(sgn = true ∧ A = -((2 ^ (n - 1) : Nat) : Int) ∧ B = -1) →
      A = intOf sgn n quo * B + intOf sgn n rem ∧ (intOf sgn n rem).natAbs < B.natAbs ∧ 0 ≤ intOf sgn n rem * A)

/-- R78 to R81: bitwise, LUT, shift, rotate and funnel-shift results. -/
def Obligations.BitwiseResults : Prop :=
  (let n (x : Alu2) : Nat := Ty.bits x.ty
  let A (x : Alu2) (clk : Nat) (u : Iss) (t : Nat) : Nat := readOpnd clk u x.ty x.imm x.a t
  let B (x : Alu2) (clk : Nat) (u : Iss) (t : Nat) : Nat := readOpnd clk u x.ty x.imm x.b t
  let K (x : Alu2) (clk : Nat) (u : Iss) (t : Nat) : Nat := readOpnd clk u .b32 x.imm x.b t
  let inv (x : Alu2) (b : Bool) (v : Nat) : Nat := if b then 2 ^ n x - 1 - v else v
  (∀ i x, Gives (.and i x) x.c x.ty x.d fun clk u t => Nat.land (A x clk u t) (inv x i (B x clk u t))) ∧
  (∀ i x, Gives (.or i x) x.c x.ty x.d fun clk u t => Nat.lor (A x clk u t) (inv x i (B x clk u t))) ∧
  (∀ x, Gives (.xor x) x.c x.ty x.d fun clk u t => Nat.xor (A x clk u t) (B x clk u t)) ∧
  (∀ x, Gives (.not x) x.c x.ty x.d fun clk u t => 2 ^ Ty.bits x.ty - 1 - readOpnd clk u x.ty x.imm x.a t) ∧
  (∀ tab x, Gives (.lut tab x) x.c x.ty x.d fun clk u t =>
    let v (o : Opnd) (k : Nat) : Nat := readOpnd clk u x.ty 0 o t / 2 ^ k % 2
    ((List.range (Ty.bits x.ty)).map fun k =>
      (if tab.getLsbD (8 * v x.d k + 4 * v x.a k + 2 * v x.b k + v x.x k) then 2 ^ k else 0)).sum) ∧
  (∀ x, Gives (.shl x) x.c x.ty x.d fun clk u t => A x clk u t * 2 ^ K x clk u t % 2 ^ n x) ∧
  (∀ x, Gives (.shr false x) x.c x.ty x.d fun clk u t => A x clk u t / 2 ^ K x clk u t) ∧
  (∀ x, Gives (.shr true x) x.c x.ty x.d fun clk u t => intBits (n x) (signed (A x clk u t) (n x) / ((2 ^ K x clk u t : Nat) : Int))) ∧
  (∀ x, Gives (.rot false x) x.c x.ty x.d fun clk u t =>
    let k := K x clk u t % n x
    A x clk u t * 2 ^ k % 2 ^ n x + A x clk u t / 2 ^ (n x - k)) ∧
  (∀ x, Gives (.rot true x) x.c x.ty x.d fun clk u t =>
    let k := K x clk u t % n x
    A x clk u t / 2 ^ k + A x clk u t * 2 ^ (n x - k) % 2 ^ n x)) ∧
  ((∀ right x, Gives (.shf right x) x.c x.ty x.d fun clk u t =>
    let n := Ty.bits x.ty
    let a := readOpnd clk u x.ty 0 x.a t
    let b := readOpnd clk u x.ty 0 x.b t
    let X := a * 2 ^ n + b
    let s := min (readOpnd clk u .b32 0 x.x t) n
    if right then X / 2 ^ s % 2 ^ n else X * 2 ^ s / 2 ^ n % 2 ^ n) ∧
  ∀ n a b, a < 2 ^ n → b < 2 ^ n → ∀ k, n ≤ k → shfValue false n a b k = b ∧ shfValue true n a b k = a)

/-- R82 to R85: one bits, leading and trailing zeros, reversal; extracting, inserting and mixing fields, bit by bit. -/
def Obligations.CountingAndFields : Prop :=
  (let A (x : Alu1) (clk : Nat) (u : Iss) (t : Nat) : Nat := readOpnd clk u x.ty x.imm x.a t
  (∀ x, Gives (.popc x) x.c .b32 x.d fun clk u t => popcount (A x clk u t) (Ty.bits x.ty)) ∧
  (∀ x, Gives (.clz x) x.c .b32 x.d fun clk u t => leadZeros (A x clk u t) (Ty.bits x.ty)) ∧
  (∀ x, Gives (.ctz x) x.c .b32 x.d fun clk u t => trailZeros (A x clk u t) (Ty.bits x.ty)) ∧
  (∀ x, Gives (.brev x) x.c x.ty x.d fun clk u t => reverseBits (A x clk u t) (Ty.bits x.ty)) ∧
  (∀ n a, popcount a n = ((List.range n).filter fun k => a.testBit k).length) ∧
  (∀ n a, a < 2 ^ n → leadZeros a n ≤ n ∧ (a = 0 → leadZeros a n = n) ∧
    (a ≠ 0 → 2 ^ (n - 1 - leadZeros a n) ≤ a ∧ a < 2 ^ (n - leadZeros a n))) ∧
  (∀ n a, a < 2 ^ n → (a = 0 → trailZeros a n = n) ∧
    (a ≠ 0 → a % 2 ^ trailZeros a n = 0 ∧ a.testBit (trailZeros a n) = true)) ∧
  (∀ n a k, k < n → (reverseBits a n).testBit (n - 1 - k) = a.testBit k) ∧
  (∀ n a, reverseBits a n < 2 ^ n)) ∧
  ((∀ sx x, Gives (.bfx sx x) x.c x.ty x.d fun clk u t =>
    bfxValue sx (Ty.bits x.ty) (readOpnd clk u x.ty 0 x.a t) (readOpnd clk u .b32 0 x.b t) (readOpnd clk u .b32 0 x.x t)) ∧
  (∀ x, Gives (.bfi x) x.c x.ty x.d fun clk u t =>
    bfiValue (Ty.bits x.ty) (readOpnd clk u x.ty 0 x.a t) (readOpnd clk u x.ty 0 x.b t) (readOpnd clk u .b32 0 x.x t)) ∧
  (∀ x, Gives (.bmix x) x.c x.ty x.d fun clk u t =>
    bmixValue (readOpnd clk u .b32 0 x.a t) (readOpnd clk u .b32 0 x.b t) (readOpnd clk u .b32 0 x.x t)) ∧
  (∀ sx n a pos len k, 0 < n → a < 2 ^ n → k < n →
    let L := min (len % 256) n
    let ext (j : Nat) : Bool := if j < n then a.testBit j else sx && a.testBit (n - 1)
    (bfxValue sx n a pos len).testBit k =
      (decide (0 < L) && if k < L then ext (pos % 256 + k) else sx && ext (pos % 256 + L - 1))) ∧
  (∀ n a b c k, a < 2 ^ n → b < 2 ^ n → k < n →
    let pos := c % 256
    let L := c / 256 % 256
    (bfiValue n a b c).testBit k = if pos ≤ k ∧ k < pos + L then b.testBit (k - pos) else a.testBit k) ∧
  (∀ a b c, a < 2 ^ 32 → b < 2 ^ 32 → ∀ j, j < 4 →
    let sel := c / 2 ^ (8 * j) % 256
    let byte := (a + 2 ^ 32 * b) / 2 ^ (8 * (sel % 8)) % 256
    bmixValue a b c / 2 ^ (8 * j) % 256 =
      if sel / 8 % 4 = 0 then byte
      else if sel / 8 % 4 = 1 then reverseBits byte 8
      else if sel / 8 % 4 = 2 then (if 128 ≤ byte then 255 else 0)
      else [0x00, 0xFF, 0x80, 0x7F, 0x01, 0x0F, 0xF0, 0x55].getD (sel % 8) 0))

/-- R86 to R92: moves, selection, predicates and their packing, addresses. PMOV packs p0 to p15 of a thread into 16 bits and writes p1 to p15
from them; bit 0 is ignored. -/
def Obligations.MoveResults : Prop :=
  ((∀ x, Gives (.mov x) x.c x.ty x.d fun clk u t => readOpnd clk u x.ty x.imm x.a t) ∧
  (∀ x, Gives (.sel x) x.c x.ty x.d fun clk u t =>
    if readPred u x.x t then readOpnd clk u x.ty 0 x.a t else readOpnd clk u x.ty 0 x.b t) ∧
  (∀ f x, Gives (.pset f x) x.c .b32 x.d fun _ u t =>
    let a := readPred u x.a t
    let b := readPred u x.b t
    if (match f with | .and => a && b | .or => a || b | .xor => xor a b | .andn => a && !b | .orn => a || !b) then 1 else 0) ∧
  (∀ c sh zx d a b x, Gives (.lea c sh zx d a b x) c .b64 d fun clk u t =>
    let off : Int := if zx then readOpnd clk u .b32 0 b t else signed (readOpnd clk u .b32 0 b t) 32
    (((readOpnd clk u .b64 0 a t : Int) + off * 2 ^ sh.toNat + readOpnd clk u .b64 0 x t) % 2 ^ 64).toNat) ∧
  (∀ c d a b imm, Gives (.ptrMk c .ctl d a b imm) c .b64 d fun clk u t =>
    let o := readOpnd clk u .b64 imm a t
    if o < 2 ^ 48 then o else 2 ^ 63 + 2 ^ 62) ∧
  (∀ c d a b imm, Gives (.ptrMk c .ten d a b imm) c .b64 d fun clk u t =>
    let o := readOpnd clk u .b64 imm a t
    let n := readOpnd clk u .b32 imm b t
    if o < 2 ^ 38 ∧ n < 2 ^ 24 then 2 ^ 62 + n * 2 ^ 38 + o else 2 ^ 63 + 2 ^ 62) ∧
  (∀ c d a b imm, Gives (.ptrMk c .loc d a b imm) c .b64 d fun clk u t =>
    let o := readOpnd clk u .b64 imm a t
    let n := readOpnd clk u .b32 imm b t
    if o < 2 ^ 32 ∧ n ≤ 2 then 2 ^ 63 + n * 2 ^ 32 + o else 2 ^ 63 + 2 ^ 62) ∧
  (∀ c d a b imm, Gives (.ptrAdd c d a b imm) c .b64 d fun clk u t =>
    (ptrAdd (BitVec.ofNat 64 (readOpnd clk u .b64 imm a t)) (signed (readOpnd clk u .s64 imm b t) 64)).toNat) ∧
  (∀ c d a b imm, Gives (.ptrChk c d a b imm) c .b32 d fun clk u t =>
    if ptrChk (BitVec.ofNat 64 (readOpnd clk u .b64 imm a t)) (readOpnd clk u .b32 imm b t) then 1 else 0)) ∧
  ((∀ c d, Gives (.pmovPack c d) c .b32 d fun _ u t => packPreds u.k t 16) ∧
  (∀ (k : Rank) t j, t < 32 → (packPreds k t 16).testBit j = (decide (j < 16) && (k.pred j).getLsbD t)) ∧
  (∀ c a, Completes (.pmovUnpack c a) c (fun _ _ => True) fun s u =>
    modRank u.g u.r (fun k => (threadsOf u.ex).foldl (fun k t => unpackPreds t (readOpnd s.clk u .b32 0 a t) k) k) s) ∧
  (∀ (k : Rank) t x j t', t < 32 → 0 < j → j < 16 → t' < 32 → (k.p.map (·.1)).Pairwise (· < ·) →
    ((unpackPreds t x k).pred j).getLsbD t' = if t' = t then x.testBit j else (k.pred j).getLsbD t'))

/-- R103 to R107: BALLOT, CENSUS, SAME, SHFL, RED, SCAN and BCAST over the participants. -/
def Obligations.ExchangeResults : Prop :=
  (let true' (u : Iss) (o : Opnd) : List Nat := (List.range 32).filter fun t => u.ex.getLsbD t && readPred u o t
  let part (u : Iss) : List Nat := (List.range 32).filter fun t => u.ex.getLsbD t
  (∀ x, Gives (.ballot x) x.c .b32 x.d fun _ u _ => ((true' u x.a).map fun t => 2 ^ t).sum) ∧
  (∀ f x, Gives (.census f x) x.c .b32 x.d fun _ u _ =>
    let np := (part u).length
    let n1 := (true' u x.a).length
    if (match f with
      | .none => decide (n1 = 0) | .some => decide (1 ≤ n1) | .most => decide (np < 2 * n1) | .all => decide (n1 = np)
      | .mixed => decide (0 < n1 ∧ n1 < np) | .same => decide (n1 = 0 ∨ n1 = np)) then 1 else 0) ∧
  (∀ f x, Gives (.same f x) x.c .b32 x.d fun clk u t =>
    let l := (part u).filter fun s => readOpnd clk u x.ty 0 x.a s == readOpnd clk u x.ty 0 x.a t
    let m := (l.map fun t => 2 ^ t).sum
    match f with
    | .mask => m
    | .lead => l.headD 0
    | .count => l.length
    | .whole => if l = part u then m else 0) ∧
  (∀ f (seg : BitVec 3) x, seg.toNat ≤ 5 → Gives (.shfl f seg x) x.c x.ty x.d fun clk u t =>
    let w := 32 / 2 ^ seg.toNat
    let base := t - t % w
    let b := readOpnd clk u .b32 0 x.b t
    let from' (k : Nat) : Nat := if u.ex.getLsbD k then readOpnd clk u x.ty 0 x.a k else readOpnd clk u x.ty 0 x.x t
    match f with
    | .from => from' (base + b % w)
    | .rot => from' (base + (t % w + b) % w)
    | .shift =>
      let k := (t : Int) + signed b 32
      if base ≤ k ∧ k < base + w then from' k.toNat else readOpnd clk u x.ty 0 x.x t
    | .bfly => from' (base + Nat.xor (t % w) (b % w))) ∧
  (∀ f x, Gives (.red f x) x.c x.ty x.d fun clk u _ =>
    settleNan x.ty ((treeRoot (redOp f x.ty x.rm) (leaves u (readOpnd clk u x.ty 0 x.a))).getD (redIdentity f x.ty))) ∧
  (∀ f excl x, Gives (.scan f excl x) x.c x.ty x.d fun clk u t =>
    scanValue f excl x.ty x.rm (leaves u (readOpnd clk u x.ty 0 x.a)) t)) ∧
  (∀ x, Gives (.bcast x) x.c x.ty x.d fun clk u t =>
    let s := readOpnd clk u .b32 x.imm x.b t
    if s ≤ 31 ∧ u.ex.getLsbD s = true then readOpnd clk u x.ty 0 x.a s else 0)

/-- R69, R106: over integers the tree of RED gives the sum, the least, the greatest and the bitwise combinations of the participants'
values, in whatever order they are combined. -/
def Obligations.IntegerReduction : Prop :=
  ∀ (ty : Ty) mode (l : List (Option Nat)), Ty.fmt? ty = none → l.length = 32 → (∀ x, some x ∈ l → x < 2 ^ Ty.bits ty) →
    let vs := l.filterMap id
    let v (x : Nat) : Int := intOf (Ty.isSigned ty) (Ty.bits ty) x
    (treeRoot (redOp .add ty mode) l).getD 0 = vs.sum % 2 ^ Ty.bits ty ∧
    (∀ x, treeRoot (redOp .min ty mode) l = some x → x ∈ vs ∧ ∀ y ∈ vs, v x ≤ v y) ∧
    (∀ x, treeRoot (redOp .max ty mode) l = some x → x ∈ vs ∧ ∀ y ∈ vs, v y ≤ v x) ∧
    (∀ f, treeRoot (redOp f ty mode) l = none ↔ vs = []) ∧
    (∀ j, (vs ≠ [] → ((treeRoot (redOp .and ty mode) l).getD 0).testBit j = vs.all fun x => x.testBit j) ∧
      ((treeRoot (redOp .or ty mode) l).getD 0).testBit j = vs.any fun x => x.testBit j)

/-- R108 to R113, R115 to R117: floating-point results: exact, then rounded once to the type. -/
def Obligations.FloatResults : Prop :=
  let el (ty : Ty) (f : Nat → Nat) : Nat := if ty = .f16x2 ∨ ty = .bf16x2 then f 0 + 2 ^ 16 * f 1 else f 0
  let op2 (i : Instr) (x : Alu2) (f : XNum → XNum → XNum) : Prop := Gives i x.c x.ty x.d fun clk u t =>
    el x.ty fun h => fpOut x.ty x.rm (f (fpIn x.ty false (readOpnd clk u x.ty x.imm x.a t) h) (fpIn x.ty false (readOpnd clk u x.ty x.imm x.b t) h))
  let op1 (i : Instr) (x : Alu1) (f : XNum → XNum) : Prop := Gives i x.c x.ty x.d fun clk u t =>
    el x.ty fun h => fpOut x.ty x.rm (f (fpIn x.ty false (readOpnd clk u x.ty x.imm x.a t) h))
  (∀ x, op2 (.fadd x) x (numAdd x.rm)) ∧
  (∀ x, op2 (.fsub x) x fun a b => numAdd x.rm a (numNeg b)) ∧
  (∀ x, op2 (.fmul x) x numMul) ∧
  (∀ x, op2 (.fdiv x) x numDiv) ∧
  (∀ ftz x, Gives (.ffma ftz x) x.c x.ty x.d fun clk u t => el x.ty fun h =>
    let v (o : Opnd) : XNum := fpIn x.ty ftz (readOpnd clk u x.ty 0 o t) h
    fpOut x.ty x.rm (numAdd x.rm (numMul (v x.a) (v x.b)) (v x.x))) ∧
  (∀ x, Gives (.fmin x) x.c x.ty x.d fun clk u t => el x.ty fun h =>
    fminmax (Ty.fmt x.ty) false (elemOf x.ty (readOpnd clk u x.ty x.imm x.a t) h) (elemOf x.ty (readOpnd clk u x.ty x.imm x.b t) h)) ∧
  (∀ x, Gives (.fmax x) x.c x.ty x.d fun clk u t => el x.ty fun h =>
    fminmax (Ty.fmt x.ty) true (elemOf x.ty (readOpnd clk u x.ty x.imm x.a t) h) (elemOf x.ty (readOpnd clk u x.ty x.imm x.b t) h)) ∧
  (∀ cc x, Gives (.fset cc x) x.c .b32 x.d fun clk u t =>
    let a := fpIn x.ty false (readOpnd clk u x.ty x.imm x.a t) 0
    let b := fpIn x.ty false (readOpnd clk u x.ty x.imm x.b t) 0
    let un := a.isNan || b.isNan
    if (match cc with
      | .eq => !un && numCmp a b == 0 | .ne => un || numCmp a b != 0 | .lt => !un && decide (numCmp a b < 0)
      | .le => !un && decide (numCmp a b ≤ 0) | .gt => !un && decide (numCmp a b > 0) | .ge => !un && decide (numCmp a b ≥ 0)
      | .num => !un | .nan => un) then 1 else 0) ∧
  (∀ x, op1 (.fsqrt x) x fnSqrt) ∧ (∀ x, op1 (.frcp x) x fnRcp) ∧ (∀ x, op1 (.frsq x) x fnRsqrt) ∧ (∀ x, op1 (.fexp2 x) x fnExp2) ∧
  (∀ x, op1 (.flog2 x) x fnLog2) ∧ (∀ x, op1 (.fsin x) x fnSin) ∧ (∀ x, op1 (.fcos x) x fnCos) ∧ (∀ x, op1 (.ftanh x) x fnTanh) ∧
  (∀ x, op1 (.frnd x) x (fnRnd x.rm)) ∧
  (∀ f x, op1 (.fact f x) x (match f with
    | .relu => fun v => if v.isNan then .nan else if v.neg || v.isZero then .fin false 0 0 else v
    | .gelu => fnGelu
    | .silu => fnSilu)) ∧
  (∀ ftz x, Gives (.fdot ftz x) x.c .f32 x.d fun clk u t =>
    let w := (Ty.fmt x.ty).width
    let e (o : Opnd) (k : Nat) : XNum := (Ty.fmt x.ty).input ftz (bits (readOpnd clk u .b32 0 o t) (w * k) w)
    narrow fmtF32 x.rm false (numSum x.rm (fmtF32.decode (readOpnd clk u .f32 0 x.x t) ::
      (List.range (32 / w)).map fun k => numMul (e x.a k) (e x.b k))))

/-- R112, R114: FSIGN changes only the sign bit of each element; FCLASS writes a mask with exactly one bit set, read from the encoding as it
stands. -/
def Obligations.SignAndClass : Prop :=
  ((∀ f x, Gives (.fsign f x) x.c x.ty x.d fun clk u t =>
    let b := if f = .copy then readOpnd clk u x.ty x.imm x.b t else 0
    let n := (Ty.fmt x.ty).width
    let one (h : Nat) : Nat := signElem f n (elemOf x.ty (readOpnd clk u x.ty x.imm x.a t) h) (elemOf x.ty b h)
    if x.ty = .f16x2 ∨ x.ty = .bf16x2 then one 0 + 2 ^ 16 * one 1 else one 0) ∧
  ∀ f n a b k, 0 < n → a < 2 ^ n → k < n → (signElem f n a b).testBit k =
    if k + 1 < n then a.testBit k
    else match f with
      | .abs => false
      | .neg => !a.testBit k
      | .copy => b.testBit k) ∧
  (∀ x, Gives (.fclass x) x.c .b32 x.d fun clk u t =>
    let f := Ty.fmt x.ty
    let v := readOpnd clk u x.ty 0 x.a t
    let frac := v % 2 ^ f.frac
    let e := v / 2 ^ f.frac % 2 ^ f.exp
    let neg := v.testBit (f.exp + f.frac)
    let top := e = 2 ^ f.exp - 1
    if top ∧ frac ≠ 0 then (if v.testBit (f.frac - 1) then 2 ^ 9 else 2 ^ 8)
    else if top then (if neg then 2 ^ 0 else 2 ^ 7)
    else if e ≠ 0 then (if neg then 2 ^ 1 else 2 ^ 6)
    else if frac ≠ 0 then (if neg then 2 ^ 2 else 2 ^ 5)
    else if neg then 2 ^ 3 else 2 ^ 4)

/-- R119 to R122: conversions, and blocks packed and unpacked. -/
def Obligations.ConversionResults : Prop :=
  (∀ sat sty x, Gives (.cvt sat sty x) x.c x.ty x.d fun clk u t => cvtValue sat x.rm sty x.ty (readOpnd clk u sty 0 x.a t)) ∧
  (∀ sat mode (sty dty : Ty) v, Ty.fmt? sty = none → Ty.fmt? dty = none →
    cvtValue sat mode sty dty v = fit (Ty.isSigned dty) sat (Ty.bits dty) (intOf (Ty.isSigned sty) (Ty.bits sty) v)) ∧
  (∀ m x b, Ty.block? m.v x.ty = some b → Completes (.bcvtPack m x) x.c (fun _ u => u.ex ≠ 0) fun s u =>
    modRank u.g u.r (fun k => (List.range 32).foldl (fun k t =>
      match packWord m b (packBlock m x.rm b s.clk u x.a) t with
      | some v => writeOpnd .b32 x.d t v k
      | none => k) k) s) ∧
  (∀ m x b, Ty.block? m.v x.ty = some b → Gives (.bcvtUnpack m x) x.c .f32 x.d fun clk u t =>
    let w := b.elemBits
    let word := (List.range w).foldl (fun a t => a + readOpnd clk u .b32 0 x.a t * 2 ^ (32 * t)) 0
    narrow fmtF32 x.rm m.sat (b.decode (readOpnd clk u .b32 0 x.b t) (bits word (w * t) w)))

/-! ### Control flow -/

/-- R30, R101: NOP has no effect, in a rank and in a sequencer; a word of rank scope of which no thread of the path executes has no effect. -/
def Obligations.WordsWithoutEffect : Prop :=
  ((∀ c, Completes (.nop c) c (fun _ _ => True) fun s _ => s) ∧
  (∀ c s g x cx, seqIssuing s = some (g, x, cx) →
    ∃ t y, exec (.nop c) s = .next t ∧ group? t g = some y ∧ y.seq = { x.seq with mpc := ptrAdd x.seq.mpc 12 } ∧ y.ranks = x.ranks ∧
      y.bars = x.bars ∧ y.slabMap = x.slabMap ∧ t.mem = s.mem ∧ t.slabs = s.slabs)) ∧
  (let idleWord (i : Instr) (c : Ctl) : Prop := Completes i c (fun _ u => u.ex = 0) fun s _ => s
  (∀ c d a imm, idleWord (.jset c d a imm) c) ∧ (∀ c a b imm, idleWord (.wait c a b imm) c) ∧
  (∀ c code, idleWord (.bkpt c code) c ∧ idleWord (.trap c code) c) ∧ (∀ c, idleWord (.fenceAck c) c) ∧
  (∀ c sc a b d imm, idleWord (.barCfg c a b imm) c ∧ idleWord (.barArv c sc d a imm) c ∧ idleWord (.barWait c sc a b imm) c ∧
    idleWord (.barSync c sc a imm) c ∧ idleWord (.barAdd c sc a b imm) c ∧ idleWord (.barTest c sc d a b imm) c) ∧
  (∀ c sc tl d a imm, idleWord (.tlWait c sc tl d a imm) c) ∧
  (∀ e t, idleWord (.copy e) e.c ∧ idleWord (.copyPl t e) e.c ∧ idleWord (.gather e) e.c ∧ idleWord (.scadd e) e.c ∧
    idleWord (.sort e) e.c ∧ idleWord (.coll e) e.c) ∧
  (∀ c w d a n, idleWord (.tcfg c w d a n) c ∧ idleWord (.trel c w a) c ∧ idleWord (.acfgTake c d a) c ∧ idleWord (.acfgRel c a) c ∧
    idleWord (.mstart c a) c) ∧
  (∀ c n a b, idleWord (.peer c n a b) c) ∧
  (∀ c d n k, idleWord (.srd c d n k) c ∧ idleWord (.swr c d n k) c ∧ idleWord (.eread c d) c) ∧
  (∀ c a b, idleWord (.yield c) c ∧ idleWord (.bufset c a b) c ∧ idleWord (.halt c) c ∧ idleWord (.launch c a) c ∧ idleWord (.evqPost c a b) c ∧ idleWord (.xinv c a b) c ∧
    idleWord (.ctxFrz c a) c ∧ idleWord (.ctxSav c a b) c ∧ idleWord (.ctxLd c a b) c ∧ idleWord (.ctxRes c a) c ∧ idleWord (.rtt c) c))

/-- R93 to R96: the executing threads of the path go to their targets, the other active threads past the word; CALL pushes the address
after it and RET pops its target. -/
def Obligations.BranchesGo : Prop :=
  let goes (i : Instr) (c : Ctl) (target : State → Iss → Nat → Long) (ok : Iss → Nat → Prop) (change : Iss → Thread → Thread) : Prop :=
    ∀ s u, issuing s c = some u → hurdle s u i = none →
      (∀ t, u.ex.getLsbD t = true → (target s u t).extractLsb' 0 2 = 0 ∧ ok u t) →
      ∃ t, exec i s = .next t ∧ AfterPath (fun th x => { change u x with pc := target s u th }) u s t
  let push (u : Iss) (x : Thread) : Thread :=
    { x with stack := ptrAdd u.pc 12 :: x.stack, hw := if x.hw = 16 then 16 else x.hw + 1 }
  let pop (_ : Iss) (x : Thread) : Thread :=
    { x with stack := x.stack.drop 1, hw := if x.hw ≤ 1 then min 16 (x.stack.drop 1).length else x.hw - 1 }
  (∀ c imm, goes (.bra c imm) c (fun _ u _ => ptrAdd u.pc imm.toInt) (fun _ _ => True) fun _ x => x) ∧
  (∀ c a, goes (.brx c a) c (fun s u t => BitVec.ofNat 64 (readOpnd s.clk u .b64 0 a t)) (fun _ _ => True) fun _ x => x) ∧
  (∀ c imm, goes (.call c imm) c (fun _ u _ => ptrAdd u.pc imm.toInt) (fun u t => (u.k.thread t).stack.length < 256) push) ∧
  (∀ c a, goes (.callx c a) c (fun s u t => BitVec.ofNat 64 (readOpnd s.clk u .b64 0 a t))
    (fun u t => (u.k.thread t).stack.length < 256) push) ∧
  (∀ c, goes (.ret c) c (fun _ u t => (u.k.thread t).stack.headD 0) (fun u t => (u.k.thread t).stack ≠ []) pop)

/-- R93, R95, R96, R342: a target that is no multiple of 4 takes cause 0x05 with the target in TVAL; a full stack at a call 0x0A and an
empty one at RET 0x0B, with the thread in TVAL: the lowest executing thread's. -/
def Obligations.BranchesTrap : Prop :=
  let lowest (u : Iss) (bad : Nat → Prop) (t : Nat) : Prop := u.ex.getLsbD t = true ∧ bad t ∧ ∀ t', t' < t → u.ex.getLsbD t' = true → ¬bad t'
  let odd (p : Long) : Prop := p.extractLsb' 0 2 ≠ 0
  let traps (i : Instr) (s : State) (u : Iss) (cause : BitVec 16) (v : Long) : Prop :=
    hurdle s u i = none → exec i s = .next (keep s (trapAt u (encode i) cause v s))
  (∀ c imm s u t, issuing s c = some u → lowest u (fun _ => odd (ptrAdd u.pc imm.toInt)) t →
    traps (.bra c imm) s u 0x05 (ptrAdd u.pc imm.toInt) ∧ traps (.call c imm) s u 0x05 (ptrAdd u.pc imm.toInt)) ∧
  (∀ c a s u t, issuing s c = some u → lowest u (fun t => odd (BitVec.ofNat 64 (readOpnd s.clk u .b64 0 a t))) t →
    traps (.brx c a) s u 0x05 (BitVec.ofNat 64 (readOpnd s.clk u .b64 0 a t)) ∧
    traps (.callx c a) s u 0x05 (BitVec.ofNat 64 (readOpnd s.clk u .b64 0 a t))) ∧
  (∀ c imm s u t, issuing s c = some u → (∀ t, u.ex.getLsbD t = true → ¬odd (ptrAdd u.pc imm.toInt)) →
    lowest u (fun t => 256 ≤ (u.k.thread t).stack.length) t → traps (.call c imm) s u 0x0A (BitVec.ofNat 64 t)) ∧
  (∀ c a s u t, issuing s c = some u → (∀ t, u.ex.getLsbD t = true → ¬odd (BitVec.ofNat 64 (readOpnd s.clk u .b64 0 a t))) →
    lowest u (fun t => 256 ≤ (u.k.thread t).stack.length) t → traps (.callx c a) s u 0x0A (BitVec.ofNat 64 t)) ∧
  (∀ c s u t, issuing s c = some u → lowest u (fun t => (u.k.thread t).stack = []) t → traps (.ret c) s u 0x0B (BitVec.ofNat 64 t)) ∧
  (∀ c s u t, issuing s c = some u → (∀ t, u.ex.getLsbD t = true → (u.k.thread t).stack ≠ []) →
    lowest u (fun t => odd ((u.k.thread t).stack.headD 0)) t → traps (.ret c) s u 0x05 ((u.k.thread t).stack.headD 0))

/-- R100: EXIT ends the executing threads; the others of the path go past it, threads of other paths stay where they stand, and so does
the rest of the rank and of the machine. A rank whose last thread exits retires. -/
def Obligations.ExitEnds : Prop :=
  ∀ c s u, issuing s c = some u → hurdle s u (.exit c) = none →
    ((∃ t, t < 32 ∧ (u.k.thread t).exited = false ∧ (u.k.thread t).parked = false ∧ u.ex.getLsbD t = false) →
      ∃ s' k', exec (.exit c) s = .next s' ∧ rank? s' u.g u.r = some k' ∧ k'.noPly = u.k.noPly ∧ SameOutside u.g u.r s s' ∧
        ∀ t, t < u.k.threads.length → (u.k.thread t).parked = false →
          (u.ex.getLsbD t = true → (k'.thread t).exited = true) ∧
          (u.ex.getLsbD t = false → k'.thread t =
            if u.active.getLsbD t then { u.k.thread t with pc := ptrAdd u.pc 12 } else u.k.thread t)) ∧
    ((∃ t, t < 32 ∧ (u.k.thread t).exited = false ∧ u.ex.getLsbD t = false) →
      ∃ s' k', exec (.exit c) s = .next s' ∧ rank? s' u.g u.r = some k' ∧ k'.regs = u.k.regs ∧
        ∀ t, t < 32 → (k'.thread t).exited = ((u.k.thread t).exited || u.ex.getLsbD t)) ∧
    ((∀ t, t < 32 → (u.k.thread t).exited = true ∨ u.ex.getLsbD t = true) →
      ∃ s', exec (.exit c) s = .next s' ∧ ∀ k', rank? s' u.g u.r = some k' → k'.st = .retired ∧ k'.regs = u.k.regs ∧
        ∀ t, t < 32 → (k'.thread t).exited = true)

/-- R97, R98: JSET writes its mask register when a thread executes, JOIN sets the executing threads' bits and no others; both let parked
threads go whose wait is over. The masks read zero in a rank just placed. -/
def Obligations.JoinMasks : Prop :=
  (∀ x r lane slot budget role args clk stamp acq n, (Rank.placed x r lane slot budget role args clk stamp acq).jreg n = 0) ∧
  (∀ c d, Completes (.join c d) c (fun _ _ => True) fun s u =>
    modRank u.g u.r (fun k => releaseParked (k.setJ (joinIdx d) (k.jreg (joinIdx d) ||| u.ex))) s) ∧
  (∀ c d a imm, Completes (.jset c d a imm) c (fun _ u => u.ex ≠ 0) fun s u =>
    modRank u.g u.r (fun k => releaseParked (k.setJ (joinIdx d) (BitVec.ofNat 32 (readOpnd s.clk u .b32 imm a 0)))) s) ∧
  (∀ (k : Rank) n v m, (k.j.map (·.1)).Pairwise (· < ·) →
    (releaseParked (k.setJ n v)).jreg m = (if m = n then v else k.jreg m) ∧
    ∀ t, t < k.threads.length → (k.thread t).parked = true →
      let met := (((releaseParked (k.setJ n v)).jreg (k.thread t).waitJ.toNat ||| k.exitedMask) &&& (k.thread t).waitMask) = (k.thread t).waitMask
      ((releaseParked (k.setJ n v)).thread t =
        if met then { k.thread t with parked := false, pc := ptrAdd (k.thread t).pc 12 } else k.thread t))

/-- R98, R99: WAIT lets the path go on when every thread of its target has joined or exited; else the executing threads park, and the ply
ends with the rank's registers as they were. When every thread left of a rank is parked, it takes the rejoin-deadlock trap: cause 0x0C at the
lowest parked thread's address, the parked threads in TVAL. -/
def Obligations.WaitParks : Prop :=
  (∀ c a b imm s u, issuing s c = some u → hurdle s u (.wait c a b imm) = none →
    let g : Word := BitVec.ofNat 32 (readOpnd s.clk u .b32 imm b 0)
    let met := ((u.k.jreg (joinIdx a) ||| u.k.exitedMask) &&& g) = g
    (met → ∃ t, exec (.wait c a b imm) s = .next t ∧ AfterWord u s t) ∧
    (¬met → u.ex ≠ 0 → (∃ t, t < 32 ∧ (u.k.thread t).exited = false ∧ (u.k.thread t).parked = false ∧ u.ex.getLsbD t = false) →
      ∃ t, exec (.wait c a b imm) s = .next t ∧
        AfterPath (fun _ x => { x with parked := true, waitJ := BitVec.ofNat 4 (joinIdx a), waitMask := g }) u s t) ∧
    (¬met → u.ex ≠ 0 → exec (.wait c a b imm) s =
      .next (keep s (closePass c true u (modRank u.g u.r (parkThreads u (joinIdx a) g) (charged u (encode (.wait c a b imm)) s)))))) ∧
  (∀ s g r k t, rank? s g r = some k → k.standing = 0 → t < 32 → k.parkedMask.getLsbD t = true →
    (∀ t', t' < t → k.parkedMask.getLsbD t' = false) → (∃ t', t' < 32 ∧ (k.thread t').exited = false) →
    settleRank g r s = takeTrap g r false 0x0C (k.thread t).pc (k.parkedMask.setWidth 64) none s)

/-! ### Traps -/

/-- R36, R37, R10, R101, R180: BKPT and TRAP take their traps, with the code in TVAL, when a thread executes; a word of no instruction takes the
illegal-instruction trap and an extension word the emulation trap, whatever the guard, or stops the sequencer that fetched it; a fetched word
that fails checks 7 to 9 takes the illegal-instruction trap, with the operand field in TVAL where check 9 failed. -/
def Obligations.WordsThatTrap : Prop :=
  (∀ c code s u, issuing s c = some u → u.ex ≠ 0 → u.c.trapvec ≠ 0 → u.k.frameActive = false → (∀ e ∈ u.k.live, e.stop = none) →
    (hurdle s u (.bkpt c code) = none → ∃ t k', exec (.bkpt c code) s = .next t ∧ rank? t u.g u.r = some k' ∧
      Trapped u.k k' u.c.trapvec 0x08 u.pc (code.setWidth 64)) ∧
    (hurdle s u (.trap c code) = none → ∃ t k', exec (.trap c code) s = .next t ∧ rank? t u.g u.r = some k' ∧
      Trapped u.k k' u.c.trapvec 0x09 u.pc (code.setWidth 64))) ∧
  ((∀ w s u, issuing s (Fields.ofWord w).ctl = some u → u.c.trapvec ≠ 0 → u.k.frameActive = false →
    (∀ e ∈ u.k.live, e.stop = none ∧ e.id ≠ s.fresh) →
    (∃ t k', exec (.illegalOpcode w) s = .next t ∧ rank? t u.g u.r = some k' ∧ Trapped u.k k' u.c.trapvec 0x01 u.pc 0) ∧
    (hurdle s u (.extensionOpcode w) = none → ∃ t k', exec (.extensionOpcode w) s = .next t ∧ rank? t u.g u.r = some k' ∧
      k'.tcause = tcauseWord false true 0x02 ∧ k'.tpc = u.pc ∧ k'.regs = u.k.regs ∧ k'.handler = true ∧
      ∃ e, k'.frame.getLast? = some e ∧ e.word = w ∧ e.mask = u.ex ∧ e.cause = 0x02 ∧ e.drop = true)) ∧
  (∀ w s g x c, seqIssuing s = some (g, x, c) → lowestRank x ≠ none → x.retiredGroup = false →
    (∃ t y, exec (.illegalOpcode w) s = .next t ∧ group? t g = some y ∧ y.seq.st = .stopped ∧ y.seqFault = some x.seq.mpc) ∧
    (∃ t y, exec (.extensionOpcode w) s = .next t ∧ group? t g = some y ∧ y.seq.st = .stopped ∧ y.seqFault = some x.seq.mpc))) ∧
  (∀ s g r x k c s' bs e u, s.agenda = [] → s.cur = some (.rank g r) → group? s g = some x → rank? s g r = some k →
    ctx? (settleDue s) x.ctx = some c → k.st = .issuing → openWord k = none → fetchBytes x.ctx x.core c (pathPc k k.active) (settleDue s) = (s', .bytes bs) →
    decodeWord (.rank k.budget) (wordOfBytes bs) = .error e → issuing s' (Fields.ofWord (wordOfBytes bs)).ctl = some u →
    step s = .next (keep s (trapAt u (wordOfBytes bs) 0x01 (BitVec.ofNat 64 (rejectField e)) s')))

/-- R341 to R343: taking a precise trap: TCAUSE, TPC, TVAL and IFREC, the frame copy, the entries that go to the frame record and those
that stay live, handler level, every live thread at TRAPVEC; the general registers and every other rank of the machine stay, and memory
does where stage 2 maps no page of the save area for writing. A run of the frame that lies in one page is written there and nowhere else. -/
def Obligations.TrapEntry : Prop :=
  ∀ s g r x c k cause tpc tval, group? s g = some x → ctx? s x.ctx = some c → rank? s g r = some k → k.threads.length = 32 → (∀ e ∈ k.live, e.stop = none) →
    cause ≠ 0x14 → k.frameActive = false → c.trapvec ≠ 0 →
    let t := takeTrap g r false cause tpc tval none s
    ((∃ k', rank? t g r = some k' ∧ Trapped k k' c.trapvec cause tpc tval ∧ k'.ifrec = c.saveva + BitVec.ofNat 64 (rankArea x r + 0x40) ∧
      k'.frame = (k.live.filter Entry.cut).map Entry.reset ∧ k'.live = k.live.filter fun e => !e.cut) ∧
    (∀ g' r', (g', r') ≠ (g, r) → rank? t g' r' = rank? s g' r') ∧
    t.plat = s.plat ∧ t.tabs = s.tabs ∧
    ((∀ gpa, (stage2Addr s c.part gpa .wr).opt = none) → t.mem = s.mem)) ∧
    (∀ part gpa bs p, gpa % 4096 + bs.length ≤ 4096 →
      (∀ d, (stage2Addr s part gpa .wr).opt = some d → p < cellAt s d ∨ cellAt s d + bs.length ≤ p) →
      byteAt (gpaWrite part gpa bs s).1.mem p = byteAt s.mem p)

/-- R344, R346, R152: a trap of a rank in its handler, or of a context without a handler, freezes the context, has it saved to SAVEBASE and
posts the halt's record; a stage-2 fault freezes it, and the host is told by a record. A record that its queue has room for stands at the
ring's tail, and the tail goes on by one. -/
def Obligations.TrapFreezes : Prop :=
  ∀ s g r x c k impr cause tpc tval, group? s g = some x → ctx? s x.ctx = some c → rank? s g r = some k →
    let t := takeTrap g r impr cause tpc tval none s
    (cause ≠ 0x14 → k.frameActive = true ∨ c.trapvec = 0 →
      (ctx? t x.ctx).map (·.mode) = some .frozen ∧ (∃ st ∈ t.steps, st.target = x.ctx ∧ st.kind = 4 ∧ st.area = c.savebase) ∧
      ∃ w, t = postCtx x.ctx { source := 0, status := 0x000D, cmdaddr := tpc, counta := cause.toNat, countb := tval.toNat,
                               launch := x.launchid } w) ∧
    (cause = 0x14 → (ctx? t x.ctx).map (·.mode) = some .frozen ∧
      ∃ w, t = postHostCtx c.part { source := 0, status := 0x0003, cmdaddr := tpc, counta := 0x14, countb := tval.toNat, ctx := x.ctx,
                                    part := c.part, launch := x.launchid } w) ∧
    (cause = 0x14 ∨ k.frameActive = true ∨ c.trapvec = 0 → (group? t g).map (·.frozen) = some true) ∧
    (∀ (wher : Nat → Look Nat) rec h a, rec.length = 64 → wher 0 = .found h →
      let log2n := field (readBytes s.mem h 32) 0 4
      let tail := field (readBytes s.mem h 32) 8 8
      wher (64 + 64 * (tail % 2 ^ log2n)) = .found a → h % 64 = 0 → a % 64 = 0 → regionOf s h = none → regionOf s a = none →
      rowFailed s h = false → layerOff s h = false → layerOff s a = false → 4 ≤ log2n → log2n ≤ 20 →
      tail - field (readBytes s.mem h 32) 16 8 < 2 ^ log2n →
      (postTo wher rec s).2 = some true ∧
      (postTo wher rec s).1.mem = writeBytes (writeBytes s.mem a rec) (h + 8) (leBytes (tail + 1) 8))

/-- R36 checks 10 and 11, R140, R164, R178: CTX, BUFSET and RTT need handler level or the host context, and take cause 0x03 otherwise; every
word of a rank that names a barrier or slab its group does not hold, ACFG.take's slot apart, takes cause 0x04 with the operand field in
TVAL. -/
def Obligations.ChecksBeforeIssue : Prop :=
  (∀ i c s u, (i = .rtt c ∨ (∃ a b, i = .ctxFrz c a ∨ i = .ctxSav c a b ∨ i = .ctxLd c a b ∨ i = .ctxRes c a ∨ i = .bufset c a b)) →
    issuing s c = some u → u.k.handler = false → u.c.host = false → exec i s = .next (keep s (trapAt u (encode i) 0x03 0 s))) ∧
  (∀ s u c, issuing s c = some u →
    (∀ sc (d : BitVec 6) (b : BitVec 7) imm, (if b.toNat < 96 then u.x.lbar ≤ b.toNat else u.x.qbar ≤ b.toNat - 96) →
      exec (.barArv c sc (.w d) (.b b) imm) s = .next (keep s (trapAt u (encode (.barArv c sc (.w d) (.b b) imm)) 0x04 1 s))) ∧
    (∀ a : BitVec 3, sget a.toNat u.x.slabMap = none →
      exec (.acfgRel c (.a a)) s = .next (keep s (trapAt u (encode (.acfgRel c (.a a))) 0x04 1 s)))) ∧
  (∀ i c s u f, (∃ sc d a b imm n, ∃ e : Eng, i = .barCfg c a b imm ∨ i = .barArv c sc d a imm ∨ i = .barWait c sc a b imm ∨ i = .barSync c sc a imm ∨
      i = .barAdd c sc a b imm ∨ i = .barTest c sc d a b imm ∨ i = .acfgRel c a ∨
      e.c = c ∧ (i = .copy e ∨ i = .copyPl n e ∨ i = .gather e ∨ i = .scadd e ∨ i = .sort e ∨ i = .coll e)) →
    issuing s c = some u → notHeld u.x i = some f → exec i s = .next (keep s (trapAt u (encode i) 0x04 (BitVec.ofNat 64 f) s)))

/-- R180, R345: RTT without a frame is an illegal instruction; with one it waits for the handler's stores, and then restores the rank
from the frame copy as the handler left it, unless a thread would go on at an address that is no multiple of 4: predicates, w0 to w7, j0 to j15 and the level, while the other registers stay. -/
def Obligations.ReturnFromTrap : Prop :=
  (∀ c s u, issuing s c = some u → hurdle s u (.rtt c) = none → u.ex ≠ 0 →
    (u.k.frameActive = false → exec (.rtt c) s = .next (keep s (trapAt u (encode (.rtt c)) 0x01 0 s))) ∧
    (u.k.frameActive = true → storesOpen s u.g u.r = true → exec (.rtt c) s = .next (keep s (stallPly u.g u.r s))) ∧
    (u.k.frameActive = true → storesOpen s u.g u.r = false → frameLacks s u.x u.c u.k ≠ [] →
      exec (.rtt c) s = .next (keep s (stallPly u.g u.r (askAll (frameLacks s u.x u.c u.k) s)))) ∧
    (u.k.frameActive = true → storesOpen s u.g u.r = false → frameLacks s u.x u.c u.k = [] →
      (∀ p, badReturn s u.x u.c u.k = some p → exec (.rtt c) s = .next (keep s (trapAt u (encode (.rtt c)) 0x05 p s))) ∧
      (badReturn s u.x u.c u.k = none → exec (.rtt c) s = .next (keep s (wake (afterReturn u.g u.r
      (returnTrap u.g u.r (endPly u.g u.r .ready (passCycles u.g u.r 16 (charged u (encode (.rtt c)) s)))))))))) ∧
  (∀ s g r x k c, group? s g = some x → rank? s g r = some k → ctx? s x.ctx = some c → editedFrame s x c k = [] → k.yielding = false →
    (s.groups.all fun e => e.2.ranks.all fun q => !q.live.any tileWait) = true →
    rank? (returnTrap g r s) g r = some ((releaseParked (restoreRank (editedCopy s x c k) [] k)).remark s.fresh)) ∧
  (∀ f n (k : Rank), (k.w.map (·.1)).Pairwise (· < ·) →
    let k' := (releaseParked (restoreRank f [] k)).remark n
    k'.handler = false ∧ k'.frameActive = false ∧ k'.v = k.v ∧ k'.o = k.o ∧ k'.y = k.y ∧
    (∀ i, i < 16 → k'.jreg i = f.j.getD i 0) ∧ (∀ i, 0 < i → i < 16 → k'.pred i = f.p.getD i 0) ∧
    (∀ i, k'.wreg i = if i < 8 then f.w.getD i 0 else k.wreg i) ∧
    ∀ t, t < k'.threads.length → (k'.thread t).exited = (f.threads.getD t Thread.zero).exited)

/-! ### Memory instructions, fences, caches -/

/-- R123 to R135: a memory word whose accesses pass their checks goes on: its entry is captured, its accesses are made or queued for
their homes in ascending thread order, and the threads stand past it. One whose local access is held (R127) waits, as does one whose
translation needs a line of the tables that is not here (log 75). A check that fails takes
its cause at the word; of an STC the elements below the failing one are stored first, and the rank waits for them (R128). With tensor
pointers, or local ones in their allocation and not held, that the instruction reaches and that are aligned where it must be, the word
completes: the last clause names the ten forms' accesses by their pointers. -/
def Obligations.MemoryIssue : Prop :=
  let goes (i : Instr) (m : MemOp) : Prop := ∀ s u, issuing s m.c = some u → hurdle s u i = none →
    let n := if m.isLoad then 0 else m.count u.ex
    let e := memEntry s.clk u (encode i) m s.fresh (takeTags u.x.ctx n s).2
    let pl := placeAll m u.x.ctx u.x.core u.x (elemsOf m e.mask e.slots) [] s
    let s1 (n : Nat) : State := { (takeTags u.x.ctx n pl.1).1 with fresh := pl.1.fresh + 1 }
    let el := elemsOf m e.mask e.slots
    (pl.2.2 = none → anyLocalHeld pl.1 u m pl.2.1 = false → ∃ t, exec i s = .next t ∧ AfterWord u (issuePlaced u m e pl.2.1 (s1 n)) t) ∧
    (pl.2.2 = none → anyLocalHeld pl.1 u m pl.2.1 = true → exec i s = .next (keep s (stallPly u.g u.r pl.1))) ∧
    (∀ f, pl.2.2 = some f → f.line ≠ none → exec i s = .next (keep s (stallPly u.g u.r pl.1))) ∧
    (∀ f, pl.2.2 = some f → f.line = none → m.kind ≠ .stc → exec i s = .next (keep s (memFault u (encode i) m e f
      (s1 (if f.cause = 0x13 ∨ f.cause = 0x14 then n else 0))))) ∧
    (∀ f, pl.2.2 = some f → f.line = none → m.kind = .stc → anyLocalHeld pl.1 u m pl.2.1 = true →
      exec i s = .next (keep s (stallPly u.g u.r pl.1))) ∧
    (∀ f, pl.2.2 = some f → f.line = none → m.kind = .stc → anyLocalHeld pl.1 u m pl.2.1 = false →
      ((∀ p ∈ pl.2.1, p.2.isLocal = true) →
        exec i s = .next (keep s (memFault u (encode i) m e f (issueElems u m e pl.2.1 (s1 n, [], 0)).1))) ∧
      ((∃ p ∈ pl.2.1, p.2.isLocal = false) → exec i s = .next (keep s (breakPly u.g u.r .stopped
        (modRank u.g u.r (fun k => { k with frameWord := encode i }) (issueStop u m e u.active f pl.2.1 (charged u (encode i) (s1 n)))))))) ∧
    ((∀ y ∈ el, m.reaches s.selfPkg y.s.a = true ∧ (m.aligned = true → ptrOff y.s.a % m.bytes = 0) ∧
        (ptrSpace y.s.a = .tensor ∨ ptrSpace y.s.a = .loc ∧ ptrOff y.s.a + m.bytes ≤ localSize u.x (ptrRegion y.s.a) ∧ localHeld s u m y.t = false)) →
      ∃ t, exec i s = .next t ∧ AfterWord u (issuePlaced u m e (el.map fun y => (y, if ptrSpace y.s.a = .tensor then
        Place.ten (ptrHome y.s.a) (ptrBuf y.s.a) (ptrOff y.s.a) else .loc (ptrRegion y.s.a) (ptrOff y.s.a)))
          { (takeTags u.x.ctx n s).1 with fresh := s.fresh + 1 }) t)
  (∀ x, goes (.ld x) (ofLoad .ld x)) ∧ (∀ x, goes (.ldu x) (ofLoad .ldu x)) ∧ (∀ x, goes (.ldx x) (ofLoad .ldx x)) ∧
  (∀ x, goes (.lr x) (ofLoad .lr x)) ∧ (∀ x, goes (.st x) (ofStore .st x)) ∧ (∀ x, goes (.stc x) (ofStore .stc x)) ∧
  (∀ x, goes (.sc x) (ofStore .sc x)) ∧ (∀ x, goes (.atom x) (ofAtom .atom x)) ∧ (∀ x, goes (.xst x) (ofXst x)) ∧
  (∀ x, goes (.xatom x) (ofAtom .xatom x))

/-- R123, R125, R277: LD of the group's scratchpad or plane store gives each executing thread the little-endian bytes at its pointer, and ST writes
each executing thread's bytes there, lowest thread first; nothing else of the machine changes but time, energy and the model's access numbers. -/
def Obligations.LocalMemory : Prop :=
  (∀ x s u, issuing s x.c = some u → hurdle s u (.ld x) = none →
    let m := ofLoad .ld x
    let n := Ty.bits x.ty / 8
    let p (t : Nat) : Long := ptrAdd (BitVec.ofNat 64 (readOpnd s.clk u .b64 0 x.a t)) x.disp.toInt
    (∀ t, u.ex.getLsbD t = true → ptrOk (p t) = true ∧ ptrSpace (p t) = .loc ∧ ptrRegion (p t) < 2 ∧
      ptrOff (p t) + n ≤ localSize u.x (ptrRegion (p t)) ∧ localHeld s u m t = false) →
    ∃ t, exec (.ld x) s = .next t ∧ AfterWord u { (modRank u.g u.r (fun k => (threadsOf u.ex).foldl (fun k t =>
      writeOpnd x.ty x.d t (leNat (readBytes (if ptrRegion (p t) = 0 then u.x.scratch else u.x.plane) (ptrOff (p t)) n)) k) k) s) with
        fresh := s.fresh + 1 } t) ∧
  (∀ x s u, issuing s x.c = some u → hurdle s u (.st x) = none →
    let m := ofStore .st x
    let n := Ty.bits x.ty / 8
    let p (t : Nat) : Long := ptrAdd (BitVec.ofNat 64 (readOpnd s.clk u .b64 0 x.a t)) x.disp.toInt
    (∀ t, u.ex.getLsbD t = true → ptrOk (p t) = true ∧ ptrSpace (p t) = .loc ∧ ptrRegion (p t) < 2 ∧
      ptrOff (p t) + n ≤ localSize u.x (ptrRegion (p t)) ∧ localHeld s u m t = false) →
    ∃ t, exec (.st x) s = .next t ∧ AfterWord u ((threadsOf u.ex).foldl (fun s' t =>
      localWrite u.g (ptrRegion (p t)) (ptrOff (p t)) (leBytes (readOpnd s.clk u x.ty 0 x.b t) n) s')
        { (takeTags u.x.ctx (countMask u.ex) s).1 with fresh := s.fresh + 1 }) t)

/-- R123, R124, R132: the checks of one access in their order: space, natural alignment for LDU, LR, SC and the atomics, local bounds; and the new
values of the atomic operations. -/
def Obligations.AccessChecks : Prop :=
  (∀ m cid core x p s,
    let n := m.bytes
    (m.reaches s.selfPkg p = false → (placeAccess m cid core x p s) = (s, .bad 0x10 p)) ∧
    (m.reaches s.selfPkg p = true → ptrSpace p ≠ .control →
      (m.kind = .ldu ∨ m.kind = .lr ∨ m.kind = .sc ∨ m.kind = .atom ∨ m.kind = .xatom) → ptrOff p % n ≠ 0 →
      (placeAccess m cid core x p s) = (s, .bad 0x11 p)) ∧
    (m.reaches s.selfPkg p = true → ptrSpace p = .loc → (m.aligned = true → ptrOff p % n = 0) →
      (placeAccess m cid core x p s) = (s, if localSize x (ptrRegion p) < ptrOff p + n then .bad 0x12 p
        else .ok (.loc (ptrRegion p) (ptrOff p)))) ∧
    (m.reaches s.selfPkg p = true → ptrSpace p = .tensor → (m.aligned = true → ptrOff p % n = 0) →
      (placeAccess m cid core x p s) = (s, .ok (.ten (ptrHome p) (ptrBuf p) (ptrOff p))))) ∧
  (∀ (ty : Ty) old b c,
    let v (x : Nat) : Int := intOf (Ty.isSigned ty) (Ty.bits ty) x
    atomNew .add ty old b c = (old + b) % 2 ^ Ty.bits ty ∧
    (v (atomNew .min ty old b c) = min (v old) (v b)) ∧ (v (atomNew .max ty old b c) = max (v old) (v b)) ∧
    (∀ k, (atomNew .and ty old b c).testBit k = (old.testBit k && b.testBit k)) ∧
    (∀ k, (atomNew .or ty old b c).testBit k = (old.testBit k || b.testBit k)) ∧
    (∀ k, (atomNew .xor ty old b c).testBit k = xor (old.testBit k) (b.testBit k)) ∧
    atomNew .exch ty old b c = b ∧
    atomNew .cas ty old b c = (if old = c then b else old) ∧
    atomNew .inc ty old b c = (if b ≤ old then 0 else old + 1) ∧
    atomNew .dec ty old b c = (if old = 0 ∨ b < old then b else old - 1))

/-- R137 to R139, R276: acquiring fences wait until the threads' loads have returned, .sc until their accesses are performed, .ack until the
rank's counters read zero; .rel, .ar and .tc until what they order is performed. A fence that is not satisfied breaks the ply. CFLUSH acts on each executing thread's line and PREF brings its sector. -/
def Obligations.FencesAndCaches : Prop :=
  ((∀ c sc, Completes (.fenceAcq c sc) c (fun _ u => loadsOpen u.k u.ex = false) fun s u =>
    modRank u.g u.r (fun k => k.acquire sc u.ex s.fresh) s) ∧
  (∀ c sc, Completes (.fenceAr c sc) c (fun s u => loadsOpen u.k u.ex = false ∧ threadsDrained s u.x u.g u.k u.ex (wideScope sc) = true) fun s u =>
    modRank u.g u.r (fun k => (k.acquire sc u.ex s.fresh).release sc u.ex s.fresh) s) ∧
  (∀ c sc, Completes (.fenceRel c sc) c (fun s u => threadsDrained s u.x u.g u.k u.ex (wideScope sc) = true) fun s u => modRank u.g u.r (fun k => k.release sc u.ex s.fresh) s) ∧
  (∀ c sc, Completes (.fenceSc c sc) c (fun s u => loadsOpen u.k u.ex = false ∧ threadsDrained s u.x u.g u.k u.ex (wideScope sc) = true)
    fun s u => modRank u.g u.r (fun k => k.acquire sc u.ex s.fresh) s) ∧
  (∀ c, Completes (.fenceAck c) c (fun _ u => u.k.counters = []) fun s _ => s) ∧
  (∀ c sc, Completes (.fenceTc c sc) c (fun s u => tensorDrained s u.x u.g u.k u.ex (wideScope sc) = true) fun s u =>
    modRank u.g u.r (fun k => k.tensorMark sc u.ex s.fresh) s) ∧
  (∀ c sc s u, issuing s c = some u → threadsDrained s u.x u.g u.k u.ex (wideScope sc) = false →
    let wait := breakPly u.g u.r (.drained u.ex (wideScope sc)) s
    (hurdle s u (.fenceRel c sc) = none → exec (.fenceRel c sc) s = .next (keep s wait)) ∧
    (hurdle s u (.fenceAr c sc) = none → loadsOpen u.k u.ex = false → exec (.fenceAr c sc) s = .next (keep s wait)) ∧
    (hurdle s u (.fenceSc c sc) = none → exec (.fenceSc c sc) s = .next (keep s wait))) ∧
  (∀ c sc s u, issuing s c = some u → hurdle s u (.fenceTc c sc) = none → tensorDrained s u.x u.g u.k u.ex (wideScope sc) = false →
    exec (.fenceTc c sc) s = .next (keep s (breakPly u.g u.r (.tensor u.ex (wideScope sc)) s))) ∧
  (∀ c sc s u, issuing s c = some u → loadsOpen u.k u.ex = true →
    (hurdle s u (.fenceAcq c sc) = none → exec (.fenceAcq c sc) s = .next (keep s (breakPly u.g u.r (.loads u.ex) s))) ∧
    (hurdle s u (.fenceAr c sc) = none → exec (.fenceAr c sc) s = .next (keep s (breakPly u.g u.r (.loads u.ex) s)))) ∧
  (∀ c s u, issuing s c = some u → u.ex ≠ 0 → u.k.counters ≠ [] → hurdle s u (.fenceAck c) = none →
    exec (.fenceAck c) s = .next (keep s (breakPly u.g u.r .acks s)))) ∧
  ((∀ c a disp s u, issuing s c = some u →
    let slots := pointerSlots s.clk u a disp
    let ps := flushPlaces u slots { s with fresh := s.fresh + 1 }
    firstLack ps.2 = none → firstPrecise ps.2 = none →
    (hurdle s u (.cflushWb c a disp) = none → ∃ t, exec (.cflushWb c a disp) s = .next t ∧
      AfterWord u (flushAll .wb u (pageEntry u (encode (.cflushWb c a disp)) slots s.fresh) ps.2 ps.1) t) ∧
    (hurdle s u (.cflushInv c a disp) = none → ∃ t, exec (.cflushInv c a disp) s = .next t ∧
      AfterWord u (flushAll .inv u (pageEntry u (encode (.cflushInv c a disp)) slots s.fresh) ps.2 ps.1) t) ∧
    (hurdle s u (.cflushWbinv c a disp) = none → ∃ t, exec (.cflushWbinv c a disp) s = .next t ∧
      AfterWord u (flushAll .wbinv u (pageEntry u (encode (.cflushWbinv c a disp)) slots s.fresh) ps.2 ps.1) t)) ∧
  (∀ c pol a disp, Completes (.pref c pol a disp) c (fun _ _ => True) fun s u => prefetch u pol (pointerSlots s.clk u a disp) s) ∧
  (∀ core cid dpa s, homedHere s dpa = true →
    (dropLine core cid dpa s).l1 = s.l1.filter (fun c => !(c.core == core && c.ctx == cid && c.sector / 4 == dpa / 512)) ∧
    (dropLine core cid dpa s).mem = s.mem))

/-! ### Barriers and timelines -/

/-- R140 to R142, R145: the barrier words: .cfg sets it, .arv and .add count and .arv writes the phase before to D, at once or as soon as their
release holds; .wait, .sync and .test go on when the phase is done. One addition may
complete several phases, and a phase is done for the next 2^31. -/
def Obligations.BarrierWords : Prop :=
  ((∀ c (n : BitVec 7) b imm, Completes (.barCfg c (.b n) b imm) c
    (fun s u => u.ex ≠ 0 ∧ (BitVec.ofNat 32 (readOpnd s.clk u .b32 imm b 0)).extractLsb' 0 31 ≠ 0 ∧
      barParked s u.g u.x n.toNat = false ∧ barNamed s u.g u.x n.toNat = false)
    fun s u =>
      let v : Word := BitVec.ofNat 32 (readOpnd s.clk u .b32 imm b 0)
      barSet u.g n.toNat { byteMode := v.getLsbD 31, target := v.extractLsb' 0 31, count := 0, phase := 0 } s) ∧
  (∀ c sc d (n : BitVec 7) imm, Completes (.barArv c sc d (.b n) imm) c
    (fun s u => u.ex ≠ 0 ∧ (barGet s u.x n.toNat).target ≠ 0 ∧ arriveReady s u sc = true)
    fun s u => wake (arriveAt u.g u.r { bar := n.toNat, sc := sc, d := some d, waits := false } 1
      (arrivalEntry u (encode (.barArv c sc d (.b n) imm)) 1 (takeTags u.x.ctx 1 s).2 s.fresh)
      { (takeTags u.x.ctx 1 s).1 with fresh := s.fresh + 1 })) ∧
  (∀ c sc (n : BitVec 7) b imm, Completes (.barAdd c sc (.b n) b imm) c
    (fun s u => u.ex ≠ 0 ∧ (barGet s u.x n.toNat).target ≠ 0 ∧ arriveReady s u sc = true)
    fun s u => wake (arriveAt u.g u.r { bar := n.toNat, sc := sc, d := none, waits := false } (readOpnd s.clk u .b32 imm b 0)
      (arrivalEntry u (encode (.barAdd c sc (.b n) b imm)) (readOpnd s.clk u .b32 imm b 0) (takeTags u.x.ctx 1 s).2 s.fresh)
      { (takeTags u.x.ctx 1 s).1 with fresh := s.fresh + 1 })) ∧
  (∀ g r a n e s x, group? s g = some x → (96 ≤ a.bar → (sget x.team s.teams).isSome = true) → ∃ y, group? (arriveAt g r a n e s) g = some y ∧
    barGet (arriveAt g r a n e s) y a.bar = (barGet s x a.bar).add n ∧ y.seq = x.seq ∧
    ∀ k, x.ranks[r]? = some k → ∃ k', y.ranks[r]? = some k' ∧
      ∀ i t, t < 32 → a.d = some (.v i) → e.mask.getLsbD t = true → (k.v.map (·.1)).Pairwise (· < ·) →
        k'.vreg i.toNat t = (barGet s x a.bar).phase.toNat) ∧
  (∀ c sc d (n : BitVec 7) imm s u, issuing s c = some u → hurdle s u (.barArv c sc d (.b n) imm) = none → u.ex ≠ 0 →
    (barGet s u.x n.toNat).target ≠ 0 → arriveReady s u sc = false → ∃ t, exec (.barArv c sc d (.b n) imm) s = .next t ∧
    AfterWord u (modRank u.g u.r (fun k => { k with live := k.live ++
      [arrivalEntry u (encode (.barArv c sc d (.b n) imm)) 1 (takeTags u.x.ctx 1 s).2 s.fresh] })
      { (takeTags u.x.ctx 1 s).1 with fresh := s.fresh + 1 }) t) ∧
  (∀ c sc (n : BitVec 7) b imm, Completes (.barWait c sc (.b n) b imm) c
    (fun s u => u.ex ≠ 0 ∧ (barGet s u.x n.toNat).target ≠ 0 ∧
      (barGet s u.x n.toNat).isDone (BitVec.ofNat 32 (readOpnd s.clk u .b32 imm b 0)) = true)
    fun s u => modRank u.g u.r (fun k => k.acquire sc (BitVec.allOnes 32) s.fresh) s) ∧
  (∀ c sc (n : BitVec 7) imm, Completes (.barSync c sc (.b n) imm) c
    (fun s u => u.ex ≠ 0 ∧ (barGet s u.x n.toNat).target ≠ 0 ∧ arriveReady s u sc = true ∧
      let s' := barAdd u.g n.toNat 1 (takeTags u.x.ctx 1 s).1
      (barGet s' ((group? s' u.g).getD u.x) n.toNat).isDone (barGet s u.x n.toNat).phase = true)
    fun s u => modRank u.g u.r (fun k => k.acquire sc (BitVec.allOnes 32) (barAdd u.g n.toNat 1 (takeTags u.x.ctx 1 s).1).fresh)
      (barAdd u.g n.toNat 1 (takeTags u.x.ctx 1 s).1)) ∧
  (∀ c sc d (n : BitVec 7) b imm, Completes (.barTest c sc d (.b n) b imm) c
    (fun s u => u.ex ≠ 0 ∧ (barGet s u.x n.toNat).target ≠ 0)
    fun s u =>
      let ok := (barGet s u.x n.toNat).isDone (BitVec.ofNat 32 (readOpnd s.clk u .b32 imm b 0))
      let s1 := setD u .b32 d (fun _ => if ok then 1 else 0) s
      if ok then modRank u.g u.r (fun k => k.acquire sc (BitVec.allOnes 32) s.fresh) s1 else s1) ∧
  (∀ c sc (n : BitVec 7) b imm s u, issuing s c = some u → hurdle s u (.barWait c sc (.b n) b imm) = none → u.ex ≠ 0 →
    (barGet s u.x n.toNat).target ≠ 0 →
    let p : Word := BitVec.ofNat 32 (readOpnd s.clk u .b32 imm b 0)
    (barGet s u.x n.toNat).isDone p = false →
    ∃ t k', exec (.barWait c sc (.b n) b imm) s = .next t ∧ rank? t u.g u.r = some k' ∧ k'.st = .waitBarrier ∧ k'.regs = u.k.regs ∧
      ∃ e, k'.live.getLast? = some e ∧ e.state = .parkedWait ∧ (waitValue e).toNat = p.toNat)) ∧
  ((∀ (v : Bar) n, v.target ≠ 0 → v.count.toNat < v.target.toNat →
    (v.add n).count.toNat = (v.count.toNat + n) % v.target.toNat ∧
    (v.add n).phase = v.phase + BitVec.ofNat 32 ((v.count.toNat + n) / v.target.toNat) ∧ (v.add n).target = v.target ∧
    (v.add n).byteMode = v.byteMode) ∧
  (∀ (v : Bar) n, v.target = 0 → v.add n = v) ∧
  (∀ (v : Bar) m n, v.target ≠ 0 → v.count.toNat < v.target.toNat → (v.add m).add n = v.add (m + n)) ∧
  (∀ (v : Bar) p, v.isDone p = true ↔ 1 ≤ (v.phase - p).toNat ∧ (v.phase - p).toNat ≤ 2 ^ 31))

/-- R143: TL.read gives a timeline's word; TL.wait goes on, with ERR in its predicate, once VALUE has reached the number, and parks
before. -/
def Obligations.TimelineWords : Prop :=
  (∀ c tl d imm, Gives (.tlRead c tl d imm) c .b64 d fun _ u _ =>
    (u.c.tls.getD (tlIndex tl) Timeline.zero).word.toNat) ∧
  (∀ v : Timeline, v.word.toNat = v.value % 2 ^ 63 + if v.err then 2 ^ 63 else 0) ∧
  (∀ c sc tl d a imm, Completes (.tlWait c sc tl d a imm) c
    (fun s u => u.ex ≠ 0 ∧
      readOpnd s.clk u .b64 imm a 0 % 2 ^ 63 ≤ (timeline s u.x.ctx (tlIndex tl)).value)
    fun s u => modRank u.g u.r (fun k => k.acquire sc (BitVec.allOnes 32) s.fresh)
      (setD u .b32 d (fun _ => if (timeline s u.x.ctx (tlIndex tl)).err then 1 else 0) s)) ∧
  (∀ c sc tl d a imm s u, issuing s c = some u → hurdle s u (.tlWait c sc tl d a imm) = none → u.ex ≠ 0 →
    (timeline s u.x.ctx (tlIndex tl)).value < readOpnd s.clk u .b64 imm a 0 % 2 ^ 63 →
    ∃ t k', exec (.tlWait c sc tl d a imm) s = .next t ∧ rank? t u.g u.r = some k' ∧ k'.st = .waitTimeline ∧ k'.regs = u.k.regs)

/-! ### Engines, tiles and the matrix stream -/

/-- R147, R148: an engine command whose block passes its checks is captured with its timeline's next number in D; it then waits in its
engine, and its launch has one operation more outstanding. With a block in the scratchpad that passes R148's checks, a configured barrier
where it names one, and room in an engine of its partition, it does so; from the other spaces where the read of the block gives its bytes. -/
def Obligations.EngineWords : Prop :=
  let goes (i : Instr) (kind : CmdKind) (tile : Nat) (e : Eng) : Prop :=
    ∀ s u s1 en b, issuing s e.c = some u → hurdle s u i = none → u.ex ≠ 0 →
      let p : Long := BitVec.ofNat 64 (readOpnd s.clk u .b64 0 e.a 0)
      cmdIssue u kind tile e p s = (s1, .go en b) →
      (∃ t, exec i s = .next t ∧
        AfterWord u (setD u .b64 e.d (fun _ => if e.tl then (timeline s1 u.x.ctx (cmdTl kind)).taken + 1 else 0)
          (cmdCapture u (encode i) kind tile e p en b s1)) t) ∧
      (∃ c, sget s1.fresh (cmdCapture u (encode i) kind tile e p en b s1).cmds = some c ∧ c.kind = kind ∧ c.engine = en ∧ c.group = u.g ∧
        c.rank = u.r ∧ c.ctx = u.x.ctx ∧ c.word = encode i ∧ c.pc = u.pc ∧ c.blockPtr = p ∧ c.st = .waiting ∧ c.prog = 0 ∧ c.numbered = e.tl)
  let runs (i : Instr) (kind : CmdKind) (tile : Nat) (e : Eng) : Prop :=
    ∀ s u en, issuing s e.c = some u → hurdle s u i = none → u.ex ≠ 0 →
      let p : Long := BitVec.ofNat 64 (readOpnd s.clk u .b64 0 e.a 0)
      let b := readBytes u.x.scratch (ptrOff p) (blockBytes kind)
      let h := handleOf u.x tile
      (e.bar = true → (barGet s u.x (barIdx e.b)).target ≠ 0) → inScratch u.x p (blockBytes kind) 64 → (kind = .copyPl → hCfg h = true) →
      (∀ k ∈ cmdChecks s.selfPkg kind h b, k.2 = true) → localOutside u.x (localRanges kind h b) = none →
      cmdEngine s kind u.x.core u.c.part = some en → engineRoom s en = true →
      ∃ t, exec i s = .next t ∧ AfterWord u (setD u .b64 e.d (fun _ => if e.tl then (timeline s u.x.ctx (cmdTl kind)).taken + 1 else 0)
        (cmdCapture u (encode i) kind tile e p en b s)) t
  ((∀ e, runs (.copy e) .copy 0 e) ∧ (∀ t e, runs (.copyPl t e) .copyPl t.toNat e) ∧ (∀ e, runs (.gather e) .gather 0 e) ∧
  (∀ e, runs (.scadd e) .scadd 0 e) ∧ (∀ e, runs (.sort e) .sort 0 e) ∧ (∀ e, runs (.coll e) .coll 0 e)) ∧
  (∀ e, goes (.copy e) .copy 0 e) ∧ (∀ t e, goes (.copyPl t e) .copyPl t.toNat e) ∧ (∀ e, goes (.gather e) .gather 0 e) ∧
  (∀ e, goes (.scadd e) .scadd 0 e) ∧ (∀ e, goes (.sort e) .sort 0 e) ∧ (∀ e, goes (.coll e) .coll 0 e) ∧
  (∀ i kind tile e s u s1 c v, (i, kind, tile) ∈ [(Instr.copy e, CmdKind.copy, 0), (.gather e, .gather, 0), (.scadd e, .scadd, 0),
      (.sort e, .sort, 0), (.coll e, .coll, 0)] → issuing s e.c = some u → hurdle s u i = none → u.ex ≠ 0 →
    cmdIssue u kind tile e (BitVec.ofNat 64 (readOpnd s.clk u .b64 0 e.a 0)) s = (s1, .trap c v) →
    exec i s = .next (keep s (trapAt u (encode i) c v s1)))

/-- R162 to R166: handles, slabs, peers and the start of a sequencer. -/
def Obligations.TileWords : Prop :=
  (∀ c w n a so s u, issuing s c = some u → hurdle s u (.tcfg c w (.t n) a so) = none → u.ex ≠ 0 →
    let v := BitVec.ofNat 64 (readOpnd s.clk u .b64 0 a 0)
    tcfgBad u.x n.toNat v so.toNat = none → tileBusy u.x n.toNat = false → ∃ t, exec (.tcfg c w (.t n) a so) s = .next (keep s (wake t)) ∧
      AfterWord u (tcfgDo u.g n.toNat v so.toNat s) t) ∧
  (∀ c w n s u, issuing s c = some u → hurdle s u (.trel c w (.t n)) = none → u.ex ≠ 0 → hCfg (handleOf u.x n.toNat) = true →
    tileBusy u.x n.toNat = false → ∃ t, exec (.trel c w (.t n)) s = .next (keep s (wake t)) ∧
      AfterWord u (modGroup u.g (fun x => { x with handles := sput 0 n.toNat 0 x.handles }) s) t) ∧
  (∀ c d (n : BitVec 3) p, Completes (.acfgTake c d (.a n)) c
    (fun s u => u.ex ≠ 0 ∧ sget n.toNat u.x.slabMap = none ∧ u.x.slabMap.length < u.x.slabMax ∧ freeSlab s u.x.core = some p)
    fun s u => setD u .b64 d (fun _ => landingName s u.x.core p)
      { (modGroup u.g (fun x => { x with slabMap := sset n.toNat p x.slabMap }) s) with
        slabs := sset (u.x.core * 8 + p) { group := u.g, data := [] } s.slabs }) ∧
  (∀ c (n : BitVec 3) p, Completes (.acfgRel c (.a n)) c
    (fun _ u => u.ex ≠ 0 ∧ sget n.toNat u.x.slabMap = some p ∧ slotBusy u.x n.toNat = false)
    fun s u => { (modGroup u.g (fun x => { x with slabMap := sdel n.toNat x.slabMap }) s) with slabs := sdel (u.x.core * 8 + p) s.slabs }) ∧
  (∀ c n a b, Completes (.peer c n a b) c
    (fun s u => u.ex ≠ 0 ∧
      (readOpnd s.clk u .b64 0 a 0 = 0 ∨ readOpnd s.clk u .b64 0 a 0 % 2 ^ 41 = 0 ∧ readOpnd s.clk u .b32 0 b 0 < 128))
    fun s u =>
      let name := readOpnd s.clk u .b64 0 a 0
      let v : Long := if name = 0 then 0 else BitVec.ofNat 64 (name + readOpnd s.clk u .b32 0 b 0 * 2 ^ 34 + 1)
      modGroup u.g (fun x => { x with peers := sput 0 n.toNat v x.peers }) s) ∧
  (∀ c a, Completes (.mstart c a) c
    (fun s u =>
      let v : Long := BitVec.ofNat 64 (readOpnd s.clk u .b64 0 a 0)
      let entry := if v = 0 then u.x.mcode else v
      u.ex ≠ 0 ∧ entry ≠ 0 ∧ entry.extractLsb' 0 2 = 0 ∧ (u.x.seq.st = .idle ∨ u.x.seq.st = .stopped))
    fun s u =>
      let v : Long := BitVec.ofNat 64 (readOpnd s.clk u .b64 0 a 0)
      modSeq u.g (fun q => { q with mpc := if v = 0 then u.x.mcode else v, st := .running, c := [0, 0, 0, 0] }) s) ∧
  (∀ c a s u, issuing s c = some u → hurdle s u (.mstart c a) = none → u.ex ≠ 0 → (u.x.seq.st = .running ∨ u.x.seq.st = .parked) →
    let v : Long := BitVec.ofNat 64 (readOpnd s.clk u .b64 0 a 0)
    let entry := if v = 0 then u.x.mcode else v
    entry ≠ 0 → entry.extractLsb' 0 2 = 0 → exec (.mstart c a) s = .next (keep s (trapAt u (encode (.mstart c a)) 0x27 0 s)))

/-- R167 to R173, R231: the M-stream words: what the sequencer issues, waits for, and where it goes; a word that fails a check stops its
sequencer: the lowest rank of its group that has not exited is to take cause 0x28 at the word's address. -/
def Obligations.StreamWords : Prop :=
  (∀ s g x c, seqIssuing s = some (g, x, c) →
    let next := ptrAdd x.seq.mpc 12
    (∀ m, (4 ≤ x.seq.recs.length ∨ slotsBusy x (shapeSlots m.shape (slotIdx m.d)) = true) →
      ∃ t, exec (.mma m) s = .next t ∧ group? t g = some x) ∧
    (∀ m, mmaBad x m = none → x.seq.recs.length < 4 → slotsBusy x (shapeSlots m.shape (slotIdx m.d)) = false →
      ∃ t y r, exec (.mma m) s = .next t ∧ group? t g = some y ∧ y.seq.mpc = next ∧ y.seq.recs = x.seq.recs ++ [r] ∧ r.word = encode (.mma m) ∧
        r.pc = x.seq.mpc ∧ r.handleA = handleOf x (tileIdx m.a) ∧ r.handleB = handleOf x (tileIdx m.b) ∧
        r.slots = shapeSlots m.shape (slotIdx m.d) ∧ r.prog = kbStart x m ∧ y.ranks = x.ranks ∧ t.mem = s.mem ∧ t.slabs = s.slabs) ∧
    (∀ sh d, shapeBad x sh (slotIdx d) 0 = none → slotsBusy x (shapeSlots sh (slotIdx d)) = false →
      ∃ t y, exec (.mzero sh d) s = .next t ∧ group? t g = some y ∧ y.seq = { x.seq with mpc := next } ∧
        t.slabs = (zeroSlabs x.core (physOf x (shapeSlots sh (slotIdx d))) s).slabs ∧ t.mem = s.mem ∧ y.ranks = x.ranks) ∧
    (∀ sh a desc, mepiBad s.selfPkg x sh (slotIdx a) desc.toNat = none → x.seq.recs.length < 4 →
      slotsBusy x (shapeSlots sh (slotIdx a)) = false → numbersFree s x.ctx (128 * shapeRows sh * Ep.tags (readBytes x.scratch desc.toNat 32)) = true →
      ∃ t y r, exec (.mepi sh a desc) s = .next t ∧ group? t g = some y ∧ y.seq.mpc = next ∧ y.seq.recs = x.seq.recs ++ [r] ∧
        r.word = encode (.mepi sh a desc) ∧ r.pc = x.seq.mpc ∧ r.number = (timeline s x.ctx 2).taken + 1 ∧ r.slots = shapeSlots sh (slotIdx a) ∧
        r.desc.take 32 = readBytes x.scratch desc.toNat 32 ∧ y.ranks = x.ranks ∧ t.mem = s.mem) ∧
    (∀ sc pr ctr (n : BitVec 7) phase, seqBarBad s x (.b n) = none →
      let p := phase + if pr then x.seq.c.getD ctr.toNat 0 else 0
      ∃ t y, exec (.mwait sc pr ctr (.b n) phase) s = .next t ∧ group? t g = some y ∧ y.seq.c = x.seq.c ∧ y.seq.recs = x.seq.recs ∧
        if (barGet s x n.toNat).isDone p then y.seq.mpc = next ∧ y.seq.st = .running
        else y.seq.mpc = x.seq.mpc ∧ y.seq.st = .parked ∧ y.seq.waitBar = n.toNat ∧ y.seq.waitPhase = p) ∧
    (∀ sc (n : BitVec 7) amount, seqBarBad s x (.b n) = none → amount ≠ 0 → amount.getLsbD 31 = false →
      (x.seq.recs = [] → numbersFree s x.ctx 1 = true → ∃ t y, exec (.marv sc (.b n) amount) s = .next t ∧ group? t g = some y ∧
        y.seq = { x.seq with mpc := next } ∧
        t = keep s { seqAdvance g (barAdd g n.toNat amount.toNat (chargeSeq x (takeTags x.ctx 1 s).1)) with cur := none }) ∧
      (x.seq.recs ≠ [] → ∃ t, exec (.marv sc (.b n) amount) s = .next t ∧ group? t g = some x)) ∧
    (∀ (ctr : BitVec 2) (limit : BitVec 12) (off : BitVec 20), limit ≠ 0 →
      (ptrAdd x.seq.mpc off.toInt).extractLsb' 0 2 = 0 →
      let v := x.seq.c.getD ctr.toNat 0 + 1
      ∃ t y, exec (.mloop ctr limit off) s = .next t ∧ group? t g = some y ∧
        if v.toNat < limit.toNat then y.seq = { x.seq with mpc := ptrAdd x.seq.mpc off.toInt, c := x.seq.c.set ctr.toNat v }
        else y.seq = { x.seq with mpc := next, c := x.seq.c.set ctr.toNat 0 }) ∧
    (∀ off : Word, (ptrAdd x.seq.mpc off.toInt).extractLsb' 0 2 = 0 →
      ∃ t y, exec (.mjmp off) s = .next t ∧ group? t g = some y ∧ y.seq = { x.seq with mpc := ptrAdd x.seq.mpc off.toInt }) ∧
    ((x.seq.recs = [] → ∃ t, exec .mstop s = .next t ∧ ∀ y, group? t g = some y → y.seq = { x.seq with mpc := next, st := .idle }) ∧
      (x.seq.recs ≠ [] → ∃ t, exec .mstop s = .next t ∧ group? t g = some x))) ∧
  (∀ s g x c, seqIssuing s = some (g, x, c) →
    let stops (i : Instr) : Prop := lowestRank x ≠ none → x.retiredGroup = false → ∃ t y, exec i s = .next t ∧ group? t g = some y ∧
      y.seq.st = .stopped ∧ y.seq.mpc = x.seq.mpc ∧ y.seqFault = some x.seq.mpc ∧ y.slabMap = x.slabMap ∧ y.bars = x.bars
    (∀ m, mmaBad x m ≠ none → x.seq.recs.length < 4 → slotsBusy x (shapeSlots m.shape (slotIdx m.d)) = false → stops (.mma m)) ∧
    (∀ sh d, shapeBad x sh (slotIdx d) 0 ≠ none → slotsBusy x (shapeSlots sh (slotIdx d)) = false → stops (.mzero sh d)) ∧
    (∀ sh a desc, mepiBad s.selfPkg x sh (slotIdx a) desc.toNat ≠ none → x.seq.recs.length < 4 → slotsBusy x (shapeSlots sh (slotIdx a)) = false →
      numbersFree s x.ctx (128 * shapeRows sh * Ep.tags (readBytes x.scratch desc.toNat 32)) = true → stops (.mepi sh a desc)) ∧
    (∀ sc pr ctr a p, seqBarBad s x a ≠ none → stops (.mwait sc pr ctr a p)) ∧
    (∀ sc a n, seqBarBad s x a ≠ none ∨ n = 0 ∨ n.getLsbD 31 = true → stops (.marv sc a n)) ∧
    (∀ ctr limit off, limit = 0 ∨ (ptrAdd x.seq.mpc off.toInt).extractLsb' 0 2 ≠ 0 → stops (.mloop ctr limit off)) ∧
    (∀ off, (ptrAdd x.seq.mpc off.toInt).extractLsb' 0 2 ≠ 0 → stops (.mjmp off)))

/-! ### System instructions -/

/-- R178, R179: SRD gives each register's value at the level that may read it; a register above the level takes cause 0x03, and an unlisted
number or a non-zero index of a register without index cause 0x01. -/
def Obligations.SystemReads : Prop :=
  (∀ c d, Gives (.srd c d 0x000 0) c .b64 d fun _ u _ => u.x.ctx) ∧
  (∀ c d, Gives (.srd c d 0x001 0) c .b64 d fun _ u _ => u.c.part) ∧
  (∀ c d, Gives (.srd c d 0x002 0) c .b64 d fun _ u _ => u.c.key.toNat) ∧
  (∀ c d, Gives (.srd c d 0x030 0) c .b64 d fun _ u _ => u.c.energy % 2 ^ 48 + if u.c.sat then 2 ^ 63 else 0) ∧
  (∀ c d, Gives (.eread c d) c .b64 d fun _ u _ => u.c.energy % 2 ^ 48 + if u.c.sat then 2 ^ 63 else 0) ∧
  (∀ c d, Completes (.srd c d 0x050 0) c (fun _ u => u.ex ≠ 0) fun s u => setD u .b64 d (fun _ => (scopetab s).toNat) s) ∧
  (∀ c d idx, Gives (.srd c d 0x060 idx) c .b64 d fun _ u _ => (sgetD idx.toNat 0 u.x.peers).toNat) ∧
  (∀ c d num f, (num, f) ∈ [(0x010, fun (u : Iss) => u.k.tcause.toNat), (0x011, fun u => u.k.tpc.toNat), (0x012, fun u => u.k.tval.toNat),
      (0x013, fun u => u.k.ifrec.toNat), (0x020, fun u => u.c.evqbase.toNat), (0x031, fun u => u.c.enwt.toNat),
      (0x040, fun u => u.c.budget.toNat), (0x041, fun u => u.c.deadline)] →
    Completes (.srd c d num 0) c (fun _ u => u.k.handler = true ∨ u.c.host = true) (fun s u => setD u .b64 d (fun _ => f u) s) ∧
    ∀ s u, issuing s c = some u → hurdle s u (.srd c d num 0) = none → u.ex ≠ 0 → u.k.handler = false → u.c.host = false →
      exec (.srd c d num 0) s = .next (keep s (trapAt u (encode (.srd c d num 0)) 0x03 0 s))) ∧
  (∀ c d num idx s u, issuing s c = some u → hurdle s u (.srd c d num idx) = none → u.ex ≠ 0 →
    (sysAccess num.toNat = none ∨ (idx ≠ 0 ∧ num ≠ 0x060)) →
    exec (.srd c d num idx) s = .next (keep s (trapAt u (encode (.srd c d num idx)) 0x01 0 s)))

/-- R9, R10: every context reads FEAT0 to FEAT3 as zero, writing one is an illegal instruction, and a word of opcode 0xF0 to 0xFE takes the
emulation trap. -/
def Obligations.FeatureRegisters : Prop :=
  (∀ c d num, num ∈ [(0x0F0 : BitVec 12), 0x0F1, 0x0F2, 0x0F3] →
    Gives (.srd c d num 0) c .b64 d (fun _ _ _ => 0) ∧
    ∀ a s u, issuing s c = some u → hurdle s u (.swr c a num 0) = none → u.ex ≠ 0 →
      exec (.swr c a num 0) s = .next (keep s (trapAt u (encode (.swr c a num 0)) 0x01 0 s))) ∧
  (∀ w : IWord, 0xF0 ≤ (w.extractLsb' 88 8).toNat → (w.extractLsb' 88 8).toNat ≤ 0xFE → ∀ vb s u, issuing s (Fields.ofWord w).ctl = some u →
    u.c.trapvec ≠ 0 → u.k.frameActive = false → hurdle s u (.extensionOpcode w) = none → decodeWord (.rank vb) w = .ok (.extensionOpcode w) ∧
    ∃ t k', exec (.extensionOpcode w) s = .next t ∧ rank? t u.g u.r = some k' ∧ k'.tcause = tcauseWord false true 0x02 ∧ k'.tpc = u.pc)

/-- R178, R179, R165: SWR writes each writable register, its reserved bits zero, at the level that may write it, and nothing else. -/
def Obligations.SystemWrites : Prop :=
  let v (a : Opnd) (s : State) (u : Iss) : Long := BitVec.ofNat 64 (readOpnd s.clk u .b64 0 a 0)
  let up (u : Iss) : Prop := u.ex ≠ 0 ∧ (u.k.handler = true ∨ u.c.host = true)
  let host (u : Iss) : Prop := u.ex ≠ 0 ∧ u.c.host = true
  (∀ c a, Completes (.swr c a 0x010 0) c (fun _ u => up u) fun s u =>
    modRank u.g u.r (fun k => { k with tcause := v a s u &&& 0xC000FFFF }) s) ∧
  (∀ c a, Completes (.swr c a 0x011 0) c (fun _ u => up u) fun s u => modRank u.g u.r (fun k =>
    { k with tcause := k.tcause &&& ~~~0x40000000, tpcWas := some (k.tpcWas.getD k.tpc), tpc := v a s u }) s) ∧
  (∀ c a, Completes (.swr c a 0x012 0) c (fun _ u => up u) fun s u => modRank u.g u.r (fun k => { k with tval := v a s u }) s) ∧
  (∀ c a, Completes (.swr c a 0x020 0) c (fun _ u => host u) fun s u => modCtx u.x.ctx (fun y => { y with evqbase := v a s u }) s) ∧
  (∀ c a, Completes (.swr c a 0x031 0) c (fun _ u => host u) fun s u =>
    reloadWeights u.x.ctx (modCtx u.x.ctx (fun y => { y with enwt := v a s u }) s)) ∧
  (∀ c a, Completes (.swr c a 0x040 0) c (fun _ u => host u) fun s u =>
    modCtx u.x.ctx (fun y => { y with budget := (v a s u).setWidth 32 }) s) ∧
  (∀ c a idx, Completes (.swr c a 0x060 idx) c (fun _ u => u.ex ≠ 0) fun s u =>
    modGroup u.g (fun x => { x with peers := sput 0 idx.toNat (v a s u &&& 0xFFFFFFFC00000001) x.peers }) s) ∧
  (∀ c a num s u, num ∈ [(0x010 : BitVec 12), 0x011, 0x012] ∧ u.k.handler = false ∧ u.c.host = false ∨
      num ∈ [(0x020 : BitVec 12), 0x031, 0x040] ∧ u.c.host = false → issuing s c = some u → hurdle s u (.swr c a num 0) = none → u.ex ≠ 0 →
    exec (.swr c a num 0) s = .next (keep s (trapAt u (encode (.swr c a num 0)) 0x03 0 s))) ∧
  (∀ c a num s u, num ∈ [(0x000 : BitVec 12), 0x001, 0x002, 0x013, 0x030, 0x041, 0x050] → issuing s c = some u →
    hurdle s u (.swr c a num 0) = none → u.ex ≠ 0 → exec (.swr c a num 0) s = .next (keep s (trapAt u (encode (.swr c a num 0)) 0x01 0 s)))

/-- R181, R359, R371: YIELD with no request pending ends the ply, the rank ready past it; with one pending its group is frozen, the rank standing after
it, and saved at once. HALT freezes
the context, which is then saved to SAVEBASE. -/
def Obligations.YieldAndHalt : Prop :=
  (∀ c s u, issuing s c = some u → hurdle s u (.yield c) = none → u.ex ≠ 0 →
    (u.c.yieldPending = false → ∃ t k', exec (.yield c) s = .next t ∧ AfterWord u s t ∧ rank? t u.g u.r = some k' ∧ k'.st = .ready ∧
      k'.active = 0) ∧
    (u.c.yieldPending = true → ∃ t, exec (.yield c) s = .next t ∧
      t = keep s (wake (settleYield u.x.ctx (saveGroup u.g (freezeGroup u.g (stopPass c (encode (.yield c)) u s))))) ∧
      (group? (freezeGroup u.g (stopPass c (encode (.yield c)) u s)) u.g).map (·.frozen) = some true ∧
      ∀ k', rank? (freezeGroup u.g (stopPass c (encode (.yield c)) u s)) u.g u.r = some k' → (∀ e ∈ u.k.live, e.stop = none) →
        k'.regs = u.k.regs ∧ ∀ th, u.active.getLsbD th = true → (k'.thread th).pc = ptrAdd u.pc 12)) ∧
  (∀ c s u, issuing s c = some u → hurdle s u (.halt c) = none → u.ex ≠ 0 →
    ∃ t y, exec (.halt c) s = .next t ∧ (ctx? t u.x.ctx).map (·.mode) = some .frozen ∧ group? t u.g = some y ∧ y.frozen = true ∧
      (∃ st ∈ t.steps, st.target = u.x.ctx ∧ st.kind = 4 ∧ st.area = u.c.savebase) ∧
      ∀ k', rank? t u.g u.r = some k' → k'.regs = u.k.regs)

/-- R181, R196, R289, R39: LAUNCH submits the packet it reads, BUFSET writes the entry it reads into the partition's buffer table, EVQ.post
posts a record of the software codes, and XINV takes the instruction copies of its range. -/
def Obligations.LaunchWords : Prop :=
  (∀ c a s u, issuing s c = some u → hurdle s u (.launch c a) = none → u.ex ≠ 0 →
    let p : Long := BitVec.ofNat 64 (readOpnd s.clk u .b64 0 a 0)
    inScratch u.x p 64 64 → ∃ t, exec (.launch c a) s = .next t ∧
      AfterWord u (submitLaunch (.word u.x.ctx) u.c.part p (readBytes u.x.scratch (ptrOff p) 64) s) t) ∧
  (∀ c a b s u, issuing s c = some u → hurdle s u (.bufset c a b) = none → u.ex ≠ 0 →
    let n := readOpnd s.clk u .b64 0 a 0
    let p : Long := BitVec.ofNat 64 (readOpnd s.clk u .b64 0 b 0)
    let bs := readBytes u.x.scratch (ptrOff p) 32
    inScratch u.x p 32 32 → n < 4096 → bufBad s u (BitVec.ofNat 256 (leNat bs)) = none → bufLack s u.c.part (BitVec.ofNat 256 (leNat bs)) = none →
    let s2 := bufsetDo u.c.part n bs s
    exec (.bufset c a b) s = .next { keep s (finish c (encode (.bufset c a b)) u s2) with tabs := s2.tabs } ∧
    ((∀ a ∈ s.homeq, a.part ≠ u.c.part ∨ a.home ≠ s.selfPkg) → ∃ t, exec (.bufset c a b) s = .next t ∧ AfterWord u s2 t)) ∧
  (∀ c a s u s1 bs, issuing s c = some u → hurdle s u (.launch c a) = none → u.ex ≠ 0 →
    let p : Long := BitVec.ofNat 64 (readOpnd s.clk u .b64 0 a 0)
    readBlock u p 64 64 s = (s1, .bytes bs) →
    ∃ t, exec (.launch c a) s = .next t ∧ AfterWord u (submitLaunch (.word u.x.ctx) u.c.part p bs s1) t) ∧
  (∀ c a b s u s1 bs, issuing s c = some u → hurdle s u (.bufset c a b) = none → u.ex ≠ 0 →
    let n := readOpnd s.clk u .b64 0 a 0
    readBlock u (BitVec.ofNat 64 (readOpnd s.clk u .b64 0 b 0)) 32 32 s = (s1, .bytes bs) → n < 4096 →
    bufBad s1 u (BitVec.ofNat 256 (leNat bs)) = none → bufLack s1 u.c.part (BitVec.ofNat 256 (leNat bs)) = none →
    let s2 := bufsetDo u.c.part n bs s1
    exec (.bufset c a b) s = .next { keep s (finish c (encode (.bufset c a b)) u s2) with tabs := s2.tabs } ∧
    ((∀ a ∈ s1.homeq, a.part ≠ u.c.part ∨ a.home ≠ s1.selfPkg) → ∃ t, exec (.bufset c a b) s = .next t ∧ AfterWord u s2 t)) ∧
  (∀ c a b, Completes (.evqPost c a b) c
    (fun s u => u.ex ≠ 0 ∧ 0x8000 ≤ readOpnd s.clk u .b64 0 a 0 ∧ readOpnd s.clk u .b64 0 a 0 < 0x10000)
    fun s u => guardPost u (tagOf u.x.ctx (takeTags u.x.ctx 1 s).2 0) <| postCtx u.x.ctx
      { source := 0, status := BitVec.ofNat 16 (readOpnd s.clk u .b64 0 a 0), cmdaddr := u.pc, counta := readOpnd s.clk u .b64 0 b 0, launch := u.x.launchid } (takeTags u.x.ctx 1 s).1) ∧
  (∀ c a b, Completes (.xinv c a b) c
    (fun s u =>
      let p : Long := BitVec.ofNat 64 (readOpnd s.clk u .b64 0 a 0)
      u.ex ≠ 0 ∧ readOpnd s.clk u .b64 0 b 0 ≠ 0 ∧ ptrOk p = true ∧ ptrSpace p ≠ .loc ∧
        (ptrSpace p = .control → xinvLack s u.x.ctx p (readOpnd s.clk u .b64 0 b 0) = none))
    fun s u =>
      let off (y : ICopy) : Bool := !xinvTakes s u (BitVec.ofNat 64 (readOpnd s.clk u .b64 0 a 0)) (readOpnd s.clk u .b64 0 b 0) y
      { s with icopies := s.icopies.filter off }) ∧
  (∀ c a b s u, issuing s c = some u → hurdle s u (.evqPost c a b) = none → u.ex ≠ 0 →
    let v : Long := BitVec.ofNat 64 (readOpnd s.clk u .b64 0 a 0)
    (v.toNat < 0x8000 ∨ 0x10000 ≤ v.toNat) →
    exec (.evqPost c a b) s = .next (keep s (trapAt u (encode (.evqPost c a b)) 0x20 v s)))

/-- R181, R367, R369: a CTX word that passes its checks gives its step to the context engine, which names it in the target's descriptor;
the issuer's record holds an entry until the step is done. -/
def Obligations.ContextWords : Prop :=
  let goes (i : Instr) (c : Ctl) (kind : Nat) (a : Opnd) (area : State → Iss → Long) : Prop :=
    ∀ s u, issuing s c = some u → hurdle s u i = none → u.ex ≠ 0 →
      let v := readOpnd s.clk u .b64 0 a 0
      v < 4096 → (area s u).toNat % 4096 = 0 → (u.c.host = true ∨ ctxIn s v u.c.part = true) →
      ∃ t k' e, exec i s = .next t ∧ t.steps = s.steps ++ [{ id := s.fresh, target := v, kind := kind, area := area s u, issuer := some (u.x.ctx, u.g, u.r, s.fresh, u.pc), prog := 0, bearReq := none }] ∧
        rank? t u.g u.r = some k' ∧ k'.live = u.k.live ++ [e] ∧ e.state = .ctxStep ∧ e.word = encode i ∧ e.pc = u.pc ∧ k'.regs = u.k.regs ∧
        (∀ y, ctx? s v = some y → (ctx? t v).map (·.step) = some (BitVec.ofNat 24 (kind + 1)))
  let reg (b : Opnd) (s : State) (u : Iss) : Long := BitVec.ofNat 64 (readOpnd s.clk u .b64 0 b 0)
  (∀ c a, goes (.ctxFrz c a) c 0 a fun _ _ => 0) ∧ (∀ c a b, goes (.ctxSav c a b) c 1 a (reg b)) ∧
  (∀ c a b, goes (.ctxLd c a b) c 2 a (reg b)) ∧ (∀ c a, goes (.ctxRes c a) c 3 a fun _ _ => 0)

/-! ### Events of memory, lanes and engines -/

/-- The answer to entry e of rank r of group g is the n-th that comes back, and its instruction is m; the rank goes on or waits for a
register. -/
structure Sys2Proof.AnswerDue (n g r : Nat) (x : Group) (k : Rank) (e : Entry) (m : MemOp) (s : State) : Prop where
  queued : s.respq[n]? = some { group := g, rank := r, entry := e.id }
  group : group? s g = some x
  stays : x.retiredGroup = false
  rank : rank? s g r = some k
  runs : k.st ≠ .waitBarrier ∧ k.st ≠ .waitTimeline
  entry : k.live.find? (fun (y : Entry) => y.id == e.id) = some e
  word : (entryInstr e.word).bind memOp = some m
  sorted : (k.v.map (·.1)).Pairwise (· < ·) ∧ (k.w.map (·.1)).Pairwise (· < ·)

/-- Piece a, to control memory at dpa, is all that is queued at this package's homes, nothing holds it back, and its entry e waits for it
alone; the line is this package's and nobody else's. -/
structure Sys2Proof.OnlyAccess (a : Access) (dpa : Nat) (x : Group) (k : Rank) (e : Entry) (s : State) : Prop where
  queue : s.homeq = [a]
  place : a.target = .ctl dpa ∧ a.remote = false ∧ regionOf s dpa = none ∧ dirEntry s (dpa / 512) = none
  ready : layerOff s dpa = false ∧ rowFailed s dpa = false
  goes : a.inPath = true ∨ ordered s 0 a = true
  free : ∀ v ∈ s.resv, v.granule = granuleOf dpa → (v.group, v.rank, v.thread) = (a.who.group, a.who.rank, a.thread)
  fresh : (∀ tg, a.tag = some tg → findTag s s.selfPkg tg (granuleOf dpa) = none) ∧ sliceFullAt s (granuleOf dpa) = false
  unread : a.readers = []
  group : group? s a.who.group = some x
  stays : x.retiredGroup = false
  rank : rank? s a.who.group a.who.rank = some k
  runs : k.st ≠ .waitBarrier ∧ k.st ≠ .waitTimeline
  live : a.who.entry ≠ 0
  entry : k.live.find? (fun (y : Entry) => y.id == a.who.entry) = some e
  last : e.left = 1 ∧ e.bad = none ∧ e.stop = none

/-- Entry e, which waited for piece a alone, has the bytes bs as the piece's result, and its answer is on its way. -/
def Sys2Proof.Answered (a : Access) (e : Entry) (bs : List Byte) (t : State) : Prop :=
  a.who ∈ t.respq ∧ ∃ k' e', rank? t a.who.group a.who.rank = some k' ∧ e' ∈ k'.live ∧ e'.id = a.who.entry ∧ e'.left = 0 ∧
    e'.got = e.got ++ [(a.thread, a.off, bs)]

/-- R126, R127, R129, R132: an answer writes the destination with the bytes the accesses got, little-endian, in each executing thread, or once
for a uniform access; SC's destination takes 0 or 1. Nothing else of the registers changes, the entry goes, and memory stays. -/
def Sys2Proof.AnswersWrite : Prop :=
  (∀ n g r x k e m s d, AnswerDue n g r x k e m s → m.kind ∈ [.ld, .ldx, .lr, .atom, .xatom] → m.nr = false → m.uniform = false → m.d = .v d →
    ∃ t k', exec (.loadResponse n) s = .next t ∧ rank? t g r = some k' ∧ t.mem = s.mem ∧ k'.live = k.live.filter (fun (y : Entry) => y.id ≠ e.id) ∧
      (∀ th, e.mask.getLsbD th = true → k'.vgroup d.toNat th (m.ty.slot / 32) = slotResult m.ty (gotValue e.got th) % 2 ^ m.ty.slot) ∧
      (∀ j th, th < 32 → ¬(e.mask.getLsbD th = true ∧ d.toNat ≤ j ∧ j < d.toNat + m.ty.slot / 32) → k'.vreg j th = k.vreg j th) ∧
      (k'.o, k'.y, k'.w, k'.p, k'.j) = (k.o, k.y, k.w, k.p, k.j)) ∧
  (∀ n g r x k e m s d th l, AnswerDue n g r x k e m s → m.kind ∈ [.ldu, .atom, .xatom] → m.nr = false → m.uniform = true → m.d = .w d →
    threadsOf e.mask = th :: l →
    ∃ t k', exec (.loadResponse n) s = .next t ∧ rank? t g r = some k' ∧ t.mem = s.mem ∧ k'.live = k.live.filter (fun (y : Entry) => y.id ≠ e.id) ∧
      k'.wreg d.toNat = wideResult m.ty (slotResult m.ty (gotValue e.got th)) ∧ (∀ j, j ≠ d.toNat → k'.wreg j = k.wreg j) ∧
      (k'.v, k'.o, k'.y, k'.p, k'.j) = (k.v, k.o, k.y, k.p, k.j)) ∧
  (∀ n g r x k e m s d, AnswerDue n g r x k e m s → m.kind = .sc → m.d = .v d →
    ∃ t k', exec (.loadResponse n) s = .next t ∧ rank? t g r = some k' ∧ t.mem = s.mem ∧
      (∀ th, e.mask.getLsbD th = true → k'.vreg d.toNat th = gotValue e.got th % 2 ^ 32) ∧
      (∀ j th, th < 32 → ¬(e.mask.getLsbD th = true ∧ j = d.toNat) → k'.vreg j th = k.vreg j th)) ∧
  (∀ got t b1 b2, got.filter (fun p => p.1 == t) = [(t, 0, b1), (t, b1.length, b2)] → gotValue got t = leNat (b1 ++ b2)) ∧
  (∀ got t bs, got.filter (fun p => p.1 == t) = [(t, 0, bs)] → gotValue got t = leNat bs)

/-- R126, R129, R132, R264: what the home does with one piece: a store's bytes stand at the address and no other byte changes; a load gets the
bytes there where the core has no copy of them; an atomic gets the old bytes and leaves the new; SC stores and gets 0 under its reservation,
else it stores nothing and gets 1. -/
def Sys2Proof.HomesPerform : Prop :=
  (∀ a dpa x k e bs s, OnlyAccess a dpa x k e s → a.op = .write bs → ∃ t, exec (.homeRequest 0) s = .next t ∧ t.homeq = [] ∧
    t.mem = writeBytes s.mem dpa ((bs.drop a.off).take a.len)) ∧
  (∀ a dpa x k e s, OnlyAccess a dpa x k e s → a.op = .read → isPostedWord e.word = false →
    (∀ c ∈ s.l1, ¬(c.core = a.core ∧ c.sector = dpa / 128)) → ∃ t, exec (.homeRequest 0) s = .next t ∧ t.homeq = [] ∧ t.mem = s.mem ∧
      Answered a e (readBytes s.mem dpa a.len) t) ∧
  (∀ a dpa x k e op ty b c s, OnlyAccess a dpa x k e s → a.op = .atom op ty b c → isPostedWord e.word = false →
    let old := readBytes s.mem dpa a.len
    ∃ t, exec (.homeRequest 0) s = .next t ∧ t.homeq = [] ∧ Answered a e old t ∧
      t.mem = writeBytes s.mem dpa (leBytes (atomNew op ty (leNat old) (b.toNat % 2 ^ Ty.bits ty) c.toNat) a.len)) ∧
  (∀ a dpa x k e bs s, OnlyAccess a dpa x k e s → a.op = .sc bs → isPostedWord e.word = false → reserved s a dpa = true → a.guaranteed = true →
    ∃ t, exec (.homeRequest 0) s = .next t ∧ t.homeq = [] ∧ Answered a e [0] t ∧ t.mem = writeBytes s.mem dpa (bs.take a.len)) ∧
  (∀ a dpa x k e bs s, OnlyAccess a dpa x k e s → a.op = .sc bs → isPostedWord e.word = false → reserved s a dpa = false →
    ∃ t, exec (.homeRequest 0) s = .next t ∧ t.homeq = [] ∧ Answered a e [1] t ∧ t.mem = s.mem) ∧
  (∀ a dpa x k e bs v s, OnlyAccess a dpa x k e { s with resv := [] } → a.op = .write bs → s.resv = [v] → v.granule = granuleOf dpa →
    (v.group, v.rank, v.thread) ≠ (a.who.group, a.who.rank, a.thread) →
    (s.clk < v.holdUntil → a.inPath = true → exec (.homeRequest 0) s = .next s) ∧
    (v.holdUntil ≤ s.clk → ∃ t, exec (.conflictingWriteHoldExpiry (granuleOf dpa)) s = .next t ∧ t.resv = [] ∧ t.homeq = [] ∧
      t.mem = writeBytes s.mem dpa ((bs.drop a.off).take a.len)))

/-- R209, R210: a register line comes from its rank's image: its 32 registers hold the 128 bytes there, and the other lines stay; a frozen
rank gets none. -/
def Sys2Proof.LinesFill : Prop :=
  (∀ g r x k c n bs s, group? s g = some x → rank? s g r = some k → ctx? s x.ctx = some c → k.fillLine = some n → x.frozen = false →
    (∀ e ∈ s.groups, e.2.core = x.core → e.2.frozen = false) → (k.v.map (·.1)).Pairwise (· < ·) →
    (k.st ≠ .waitBarrier ∧ k.st ≠ .waitTimeline) → runLacks s c.part (lineGpa c x r n) 128 false = [] →
    gpaRead s c.part (lineGpa c x r n) 128 = some bs →
    ∃ t k', exec (.lineFill g r) s = .next t ∧ rank? t g r = some k' ∧ k'.fillLine = none ∧ k'.away = k.away.erase n ∧ t.mem = s.mem ∧
      (∀ th, th < 32 → k'.vreg n th = field bs (4 * th) 4) ∧ (∀ j th, th < 32 → j ≠ n → k'.vreg j th = k.vreg j th) ∧
      (k'.o, k'.y, k'.w, k'.p, k'.j) = (k.o, k.y, k.w, k.p, k.j)) ∧
  (∀ g r x s, group? s g = some x → x.frozen = true → exec (.lineFill g r) s = .next s)

/-- R124, R342: an imprecise fault enters the handler: IMPR and the cause in TCAUSE, TVAL, and in TPC where the lowest thread of the instruction
that has not exited stands, the next instruction of its path; one of the sequencer is cause 0x28 with its instruction's address in TVAL. -/
def Sys2Proof.ImpreciseEntry : Prop :=
  (∀ g r x k c f l s e th, group? s g = some x → rank? s g r = some k → ctx? s x.ctx = some c → x.frozen = false → k.st ≠ .issuing →
    openWord k = none → k.imprecise = f :: l → k.allExited = false → f.entry = some e → threadsOf (e.mask &&& ~~~k.exitedMask) = th :: (threadsOf (e.mask &&& ~~~k.exitedMask)).tail →
    f.cause ≠ 0x14 → k.frameActive = false → c.trapvec ≠ 0 → (∀ y ∈ k.live, y.stop = none) → k.threads.length = 32 →
    ∃ t k', exec (.impreciseFaultTaken g r) s = .next t ∧ rank? t g r = some k' ∧ k'.tcause = tcauseWord true (causeDone f.cause) f.cause ∧
      k'.tval = f.tval ∧ k'.tpc = (k.thread th).pc ∧ k'.handler = true ∧ k'.frameActive = true ∧ k'.regs = k.regs ∧
      (∀ y ∈ k'.frame, y.id = e.id → y.word = e.word) ∧
      ∀ i, i < 32 → (k.thread i).exited = false → (k'.thread i).pc = c.trapvec) ∧
  (∀ g r x k c pc s, group? s g = some x → rank? s g r = some k → ctx? s x.ctx = some c → x.frozen = false → k.st ≠ .issuing →
    openWord k = none → k.imprecise = [] → x.seqFault = some pc → lowestRank x = some r → k.frameActive = false → c.trapvec ≠ 0 →
    (∀ y ∈ k.live, y.stop = none) → k.threads.length = 32 →
    ∃ t k' x', exec (.impreciseFaultTaken g r) s = .next t ∧ rank? t g r = some k' ∧ k'.tcause = tcauseWord true false 0x28 ∧ k'.tval = pc ∧
      k'.tpc = nextPc k ∧ k'.handler = true ∧ k'.regs = k.regs ∧ group? t g = some x' ∧ x'.seqFault = none ∧
      ∀ i, i < 32 → (k.thread i).exited = false → (k'.thread i).pc = c.trapvec)

/-- R126 to R129, R209, R210, R124: what the homes, the register lines and imprecise faults do to memory and to the rank that waits for them. -/
def Obligations.MemoryEvents : Prop :=
  AnswersWrite ∧ HomesPerform ∧ LinesFill ∧ ImpreciseEntry ∧
  (∀ k who s, s.respq[k]? = some who →
    exec (.loadResponse k) s = .next (keep s (wake (respond who { s with respq := dropAt s.respq k })))) ∧
  (∀ k b a s, s.homeq[k]? = some b → let s1 := enterPath k s
    s1.homeq[k]? = some a → mayGo s1 k a = true → heldOff s1 a = false →
    exec (.homeRequest k) s = .next (keep s (wake (requestHome k a s1)))) ∧
  (∀ gr v s, expiredHold gr s = some v → exec (.conflictingWriteHoldExpiry gr) s =
    .next (keep s (wake (performHeld v.granule s.homeq.length { s with resv := s.resv.filter fun y => !(y == v) })))) ∧
  (∀ g r x k f l s, group? s g = some x → rank? s g r = some k → x.frozen = false → k.st ≠ .issuing → openWord k = none → k.imprecise = f :: l →
    k.allExited = false → exec (.impreciseFaultTaken g r) s = .next (keep s (takeImprecise g r k f s))) ∧
  (∀ g r x k pc s, group? s g = some x → rank? s g r = some k → x.frozen = false → k.st ≠ .issuing → openWord k = none → k.imprecise = [] →
    x.seqFault = some pc → lowestRank x = some r → exec (.impreciseFaultTaken g r) s =
      .next (keep s (takeTrap g r true 0x28 (nextPc k) pc none (modGroup g (fun x => { x with seqFault := none }) s))))

/-- R211, R214, R215: the chosen rank is issuing on the chosen path, y zeroed, its path no longer passed over; nothing else of it, and no
memory, changes. -/
def Sys2Proof.PliesStart : Prop :=
  ∀ core lane g x k p s, chooseRank s core lane = some (g, x, k) → retryOf s g k.idx = none → rank? s g k.idx = some k → choosePath k = some p →
    ∃ t k', exec (.laneChoice core lane) s = .next t ∧ t.cur = some (.rank g k.idx) ∧ t.mem = s.mem ∧ t.clk = s.clk ∧
      rank? t g k.idx = some k' ∧ k'.st = .issuing ∧ k'.active = p.2 ∧ k'.plyLen = 0 ∧ k'.y = [] ∧ k'.live = k.live ∧
      (k'.v, k'.o, k'.w, k'.p, k'.j) = (k.v, k.o, k.w, k.p, k.j) ∧
      (∀ th, th < k.threads.length → (k'.thread th).pc = (k.thread th).pc ∧ (p.2.getLsbD th = true → (k'.thread th).passed = 0)) ∧
      ∀ g' r', (g', r') ≠ (g, k.idx) → rank? t g' r' = rank? s g' r'

/-- R149, R245: the command that starts is waiting for its engine, which has a place, and no other of its context that waits there was issued
before it. -/
def Sys2Proof.StartsInOrder : Prop :=
  ∀ e k s, (s.cmds.map (·.1)).Pairwise (· < ·) → startable s e = some k → ∃ c, sget k s.cmds = some c ∧ c.engine = e ∧ c.st = .waiting ∧
    ((s.cmds.filter fun d => d.2.engine == e).filter fun d => d.2.st == .running).length < 16 ∧
    ∀ d ∈ s.cmds, d.2.engine = e → d.2.st = .waiting → d.2.ctx = c.ctx → c.order ≤ d.2.order

/-- The next piece of a COPY is the one at progress point i, its numbers and tags are free, and it stops for nothing. -/
structure Sys2Proof.CopyReady (k : Nat) (c : Cmd) (i : Nat) (s : State) : Prop where
  cmd : sget k s.cmds = some c ∧ c.kind = .copy ∧ mayWork s c = true
  piece : c.window = [i] ∧ c.flight? i = none
  numbers : numbersFree s c.ctx 1 = true ∧ numbersFree s c.ctx 2 = true
  tags : (∀ tag target, findTag s s.selfPkg tag target = none) ∧ s.mirrorq = [] ∧ sliceFull s = false

/-- R155: a piece of a COPY lies in one granule at both ends, byte o of row q at SRC + q SPITCH + o and DST + q DPITCH + o; its bytes go from
the one to the other and nothing else changes there. -/
def Sys2Proof.CopiesMove : Prop :=
  (∀ k c i bs dpa s, CopyReady k c i s → let q := copyPiece c.block i
    engRead k c q.1 q.2.2 false s = (s, .ok bs) → bs.length = q.2.2 → 0 < q.2.2 → engAt c q.2.1 q.2.2 true s = .here dpa →
    regionOf s dpa = none → resvHolds s dpa = false → ptrOff q.2.1 % 32 = q.2.1.toNat % 32 → (engineWork k s).mem = writeBytes s.mem dpa bs) ∧
  (∀ k c i bs x s, CopyReady k c i s → let q := copyPiece c.block i
    engRead k c q.1 q.2.2 false s = (s, .ok bs) → bs.length = q.2.2 → 0 < q.2.2 → engAt c q.2.1 q.2.2 true s = .loc 0 (ptrOff q.2.1) →
    group? s c.group = some x → ptrOff q.2.1 % 32 = q.2.1.toNat % 32 → (engineWork k s).mem = s.mem ∧
    (group? (engineWork k s) c.group).map (·.scratch) = some (writeBytes x.scratch (ptrOff q.2.1) bs)) ∧
  (∀ k c p n dpa s, sget k s.cmds = some c → c.fetched = [] → homeLost s p = false → engAt c p n false s = .here dpa → regionOf s dpa = none →
    inCorePath s c dpa = false → readPiece k c p n s = (s, .ok (readBytes s.mem dpa n))) ∧
  (∀ k c p n x o s, sget k s.cmds = some c → c.fetched = [] → homeLost s p = false → engAt c p n false s = .loc 0 o → group? s c.group = some x →
    readPiece k c p n s = (s, .ok (readBytes x.scratch o n)))

/-- R158, R159, R248: bag b of a sum over rows of one channel is the first row, to which the others are added in list order, each sum
rounded; the row goes to DATA + b DSTRIDE. -/
def Sys2Proof.GathersSum : Prop :=
  (∀ (chan : Nat → Nat) b rows (val : Nat → List Nat) x l h, Gs.mode b = 1 → (∀ y ∈ x :: l, chan y = h ∧ y < Gs.trows b ∧
      rows.find? (fun g => g.1 == y) = some (y, val y) ∧ (val y).length = Gs.cols b) →
    bagRow chan b (x :: l) rows = some ((List.range (Gs.cols b)).map fun j => l.foldl (fun a y => addF32 a ((val y).getD j 0)) ((val x).getD j 0))) ∧
  (∀ k c rows v s s1, c.kind = .gather → c.agreed = true → c.prog < c.total → c.window ≠ [] → missingPieces c [c.prog] = [] →
    let idx := (bagOf c c.prog).map fun i => c.indices.getD i 0
    readRows k c (idx.filterMap (finalIndex c.block)) [] s = (s1, .ok rows) → bagRow (rowChannel s1 c) c.block idx rows = some v →
    unitOf k c s = (s1, .ok (.writes c.prog [(ptrAdd (Gs.data c.block) ((c.prog * Gs.dstride c.block : Nat) : Int), narrowRow (Gs.dtype c.block) v)] 1 [])))

/-- R160, R248, R250: an add of SCADD leaves in each element of its granule the old value plus the gradient's, rounded once, and nothing else
in memory; one whose tag the home retains is not performed again. -/
def Sys2Proof.AddsLand : Prop :=
  (∀ old add j, 4 * j + 4 ≤ old.length → field (addGranule false old add) (4 * j) 4 = addF32 (field old (4 * j) 4) (field add (4 * j) 4)) ∧
  (∀ c p len dpa tag data s, findTag s s.selfPkg tag (granuleOf dpa) = none → regionOf s dpa = none →
    (reduceHere c p len dpa tag data s).mem = writeBytes s.mem dpa (addGranule (Gs.ttype c.block == 11) (readBytes s.mem dpa len) data)) ∧
  (∀ c p len dpa tag data s, (findTag s s.selfPkg tag (granuleOf dpa)).isSome = true → reduceHere c p len dpa tag data s = s) ∧
  (∀ k c u x r bs p len data f dpa s, sget k s.cmds = some c → c.kind = .scadd → c.agreed = true → mayWork s c = true → c.addHere = none →
    c.window = [u] → finalIndex c.block (c.indices.getD u 0) = some x → gradientRow c u = some r →
    engRead k c (ptrAdd (Gs.data c.block) ((r * Gs.dstride c.block : Nat) : Int)) (Gs.cols c.block * rowTypeBytes (Gs.dtype c.block)) true s = (s, .ok bs) →
    c.flight? u = some f → (positionAdds c x (gradient c u bs))[f.next]? = some (p, len, data) → addAt c p len s = .here dpa →
    findTag s s.selfPkg (tagOf c.ctx f.tag f.next) (granuleOf dpa) = none → sliceFull s = false → resvHolds s dpa = false → regionOf s dpa = none →
    ∃ t, exec (.reducerAdd k) s = .next t ∧
      t.mem = writeBytes s.mem dpa (addGranule (Gs.ttype c.block == 11) (readBytes s.mem dpa len) data))

/-- R161, R252: the order of a SORT is a permutation of the positions, ascending by key, and equal keys keep their order. -/
def Sys2Proof.SortsStable : Prop :=
  ∀ (key : Nat → Nat) n, (stableOrder key n).Perm (List.range n) ∧
    (stableOrder key n).Pairwise fun i j => key i < key j ∨ key i = key j ∧ i < j

/-- R174, R176: what a collective's member takes for a global index is the value held at that index, wherever the block that has it comes
from. -/
def Sys2Proof.ExchangesKeep : Prop :=
  (∀ (idx vals want : List Nat) (i j : Nat), idx.Nodup → i < idx.length → want[j]? = idx[i]? → j < want.length → (pick idx vals want)[j]? = some (vals.getD i 0)) ∧
  (∀ (i1 v1 i2 v2 want : List Nat), v1.length = i1.length → v2.length = i2.length → (i1 ++ i2).Nodup →
    want.Perm (i1 ++ i2) → (∀ j : Nat, j < i1.length → want[j]? = i1[j]?) → (assemble [(i1, v1), (i2, v2)] want).take i1.length = v1)

/-- R153: a translation fault of a command pauses it: its entry joins the live record, faulted, with the cause and the progress point, and the
rank has an imprecise fault; any other failure is its status. Memory stays. -/
def Sys2Proof.CommandsFault : Prop :=
  (∀ k c cause v x q s, sget k s.cmds = some c → engFault k s = some (.page cause v) → group? s c.group = some x → x.ranks[c.rank]? = some q →
    q.st ≠ .retired → ∃ t q' e, exec (.engineAccessFault k) s = .next t ∧ sget k t.cmds = some { c with st := .paused } ∧
      rank? t c.group c.rank = some q' ∧ q'.live = q.live ++ [e] ∧ e.id = k ∧ e.word = c.word ∧ e.pc = c.pc ∧ e.state = .faulted ∧ e.cls = .p ∧
      e.cause = cause ∧ e.prog = c.progress ∧
      q'.imprecise = q.imprecise ++ [{ cause := cause, tval := v, pc := c.pc, entry := some e }] ∧ q'.regs = q.regs ∧ t.mem = s.mem) ∧
  (∀ k c st s, sget k s.cmds = some c → engFault k s = some (.stop st) → ∃ t c', exec (.engineAccessFault k) s = .next t ∧
    sget k t.cmds = some c' ∧ c'.status = st ∧ c'.prog = c.prog ∧ c'.st = c.st ∧ t.groups = s.groups ∧ t.mem = s.mem)

/-- R150: a command completes in order: while its record cannot be written it stays, and no timeline goes on; then the record stands at CREC,
the timeline completes its number, with ERR where its status is not 0, and the command is gone. -/
def Sys2Proof.CommandsComplete : Prop :=
  (∀ k c s s1, sget k s.cmds = some c → workDone c = true → groupActs s c.group = true → tryRecord k c s = (s1, .wait) →
    ∃ t, exec (.commandComplete k) s = .next t ∧ (sget k t.cmds).isSome = true ∧ ∀ i, timeline t c.ctx i = timeline s c.ctx i) ∧
  (∀ k c s s1, sget k s.cmds = some c → workDone c = true → groupActs s c.group = true → tryRecord k c s = (s1, .ok ()) → c.kind ≠ .copyPl →
    c.numbered = true → (s1.cmds.map (·.1)).Pairwise (· < ·) → (ctx? s c.ctx).any (fun y => decide (cmdTl c.kind < y.tls.length)) = true →
    ∃ t, exec (.commandComplete k) s = .next t ∧ sget k t.cmds = none ∧
      timeline t c.ctx (cmdTl c.kind) = (timeline s c.ctx (cmdTl c.kind)).complete c.number (c.status != 0)) ∧
  (∀ k c x o s, sget k s.cmds = some c → crecOf c = localPtr 0 o → o % 64 = 0 → o + 64 ≤ 2 ^ 32 → group? s c.group = some x →
    c.recDone = false → c.flights = [] → numbersFree s c.ctx 2 = true → (∀ tag target, findTag s s.selfPkg tag target = none) →
    ∃ s1, tryRecord k c s = (s1, .ok ()) ∧ s1.mem = s.mem ∧
      (group? s1 c.group).map (·.scratch) = some (writeBytes x.scratch o (recordOf c).bytes))

/-- R65 to R67, R169, R233: a K-block adds to every element of the slab, or begins it from zero at the first block under Z, what the groups of the
K-block's products give, each rounded once; no other slab and no memory changes, and the progress point goes on by one. -/
def Sys2Proof.KblocksAdd : Prop :=
  (∀ g k x r m p s, group? s g = some x → x.seq.recs[k]? = some r → recInstr r = some (.mma m) → x.frozen = false → earlierMma x k = false →
    arrayNext s x.core = some (lowestSlab x) → m.shape = .t1x1 → r.phys = [p] → (sget (x.core * 8 + p) s.slabs).isSome = true → (x.seq.recs.map (·.id)).Nodup →
    r.prog + 1 < r.kb0 + m.kbn.toNat →
    let w := if fmtTy (hFmt r.handleA) = .f64 then 8 else 4
    ∃ t x', exec (.mmaKblockWrite g k) s = .next t ∧ t.mem = s.mem ∧ group? t g = some x' ∧
      x'.seq.recs[k]? = some { r with prog := r.prog + 1 } ∧ (∀ q, q ≠ p → q < 8 → slabAt t x.core q = slabAt s x.core q) ∧
      ∀ i j, i < 128 → j < 512 / w → field (denseSlab (slabAt t x.core p)) (i * 512 + j * w) w =
        kblockElem (hFmt r.handleA) m.sat (if m.z = true ∧ r.prog = r.kb0 then 0 else field (denseSlab (slabAt s x.core p)) (i * 512 + j * w) w)
          (planeRow r.handleA x.plane (m.arow.toNat * 128 + i) r.prog) (planeRow r.handleB x.plane (m.brow.toNat * 128 + j) r.prog) % 2 ^ (8 * w)) ∧
  (∀ f sat acc a b, fmtTy f ≠ .f32 → fmtTy f ≠ .f64 → fmtIsInt f = false → kblockElem f sat acc a b =
    narrow fmtF32 .rne false (numAdd .rne (fmtF32.decode acc) (dotGroup (a.take 32) (b.take 32)))) ∧
  (∀ f sat acc a b, fmtTy f ≠ .f32 → fmtTy f ≠ .f64 → fmtIsInt f = true → kblockElem f sat acc a b =
    fit true sat 32 (signed acc 32 + numToInt (dotGroup (a.take 32) (b.take 32))))

/-- R171: a row of a MEPI whose output is in the scratchpad stands at OUT + i OSTRIDE: the slab's bits under RAW, else each element's code; the rows
retired go up by one, and under CLR the row of the slab is zero. -/
def Sys2Proof.RowsStore : Prop :=
  (∀ g k x r c sh a d p n s, group? s g = some x → x.seq.recs[k]? = some r → ctx? s x.ctx = some c → recInstr r = some (.mepi sh a d) →
    mepiReady x r = true → mepiBefore s x r = false → rowSays s x c sh r = .go → Ep.target r.desc < 2 → r.skip.contains r.prog = false →
    rowRuns sh r r.prog = [(p, n)] → ptrSpace p = .loc → r.prog + 1 < r.rows → r.left = [] → r.bad = [] → (x.seq.recs.map (·.id)).Nodup →
    ∃ t x' r', exec (.mepiRowRetire g k) s = .next t ∧ t.mem = s.mem ∧ group? t g = some x' ∧ x'.seq.recs[k]? = some r' ∧ r'.prog = r.prog + 1 ∧
      x'.scratch = writeBytes x.scratch (ptrOff p) (epilogueRow r.desc sh (tileRow s x.core r sh r.prog)).1 ∧ x'.plane = x.plane ∧
      (Ep.clr r.desc = false → t.slabs = s.slabs)) ∧
  (∀ b sh row, Ep.raw b = true → epilogueRow b sh row = (row, [])) ∧
  (∀ sh r i, (rowRuns sh r i).head? = some (ptrAdd (Ep.out r.desc) ((i * Ep.ostride r.desc : Nat) : Int), Ep.rowBytes r.desc sh))

/-- R211, R214, R215, R147 to R161, R169, R171, R233, R248 to R252: a lane's choice starts a ply; commands start in
order, a COPY moves its bytes, a GATHER sums its bags, an add lands once, a SORT is stable, a collective keeps each value with its index,
faults pause commands, completions are recorded in order; a K-block adds to its slab and an epilogue stores its row. -/
def Obligations.UnitEvents : Prop :=
  (PliesStart ∧ StartsInOrder ∧ CopiesMove ∧ GathersSum ∧ AddsLand ∧ SortsStable ∧ ExchangesKeep ∧ CommandsFault ∧ CommandsComplete ∧
    KblocksAdd ∧ RowsStore) ∧
  (∀ core lane g x k s, chooseRank s core lane = some (g, x, k) → retryOf s g k.idx = none →
    exec (.laneChoice core lane) s = .next (keep s { (modRank g k.idx startPly s) with cur := some (.rank g k.idx) })) ∧
  (∀ core lane g x k e s, chooseRank s core lane = some (g, x, k) → retryOf s g k.idx = some e →
    exec (.laneChoice core lane) s = .next (keepPlat s (retryBlock g k.idx e s))) ∧
  (∀ e k s, startable s e = some k → ∃ t, exec (.engineCommandStart e) s = .next t ∧
    (∀ c, sget k s.cmds = some c → sget k t.cmds = some { c with st := .running }) ∧ (∀ j, j ≠ k → sget j t.cmds = sget j s.cmds) ∧
    t.mem = s.mem ∧ t.groups = s.groups) ∧
  (∀ k c s, sget k s.cmds = some c → c.kind = .scadd → c.agreed = true → mayWork s c = true →
    exec (.reducerAdd k) s = .next (keep s (wake (ackHere k c.addHere (tick 1 (tryAdd k c s).1))))) ∧
  (∀ k c cause v s, sget k s.cmds = some c → engFault k s = some (.page cause v) →
    exec (.engineAccessFault k) s = .next (keep s (pauseCmd k c cause v s))) ∧
  (∀ k c st s, sget k s.cmds = some c → engFault k s = some (.stop st) →
    exec (.engineAccessFault k) s = .next (keep s (stopCmd k st s))) ∧
  (∀ k c s s1 b, sget k s.cmds = some c → workDone c = true → groupActs s c.group = true → tryRecord k c s = (s1, .ok b) →
    exec (.commandComplete k) s = .next (keepPlat s (endCmd k c s1))) ∧
  (∀ g k x r m s, group? s g = some x → x.seq.recs[k]? = some r → recInstr r = some (.mma m) → x.frozen = false → earlierMma x k = false →
    arrayNext s x.core = some (lowestSlab x) →
    let s1 := arith 1 (writeKblock g x m r { s with arrayTurn := sset x.core (lowestSlab x) s.arrayTurn })
    (r.prog + 1 < r.kb0 + m.kbn.toNat → exec (.mmaKblockWrite g k) s = .next (keep s (setRec g { r with prog := r.prog + 1 } s1))) ∧
    (r.kb0 + m.kbn.toNat ≤ r.prog + 1 → exec (.mmaKblockWrite g k) s =
      .next (keep s (settleGroup g (wake ((tilesOf r).foldl (fun s t => releaseTile g t s) (dropRec g r.id s1)))))) ) ∧
  (∀ g k x r c sh a d s, group? s g = some x → x.seq.recs[k]? = some r → ctx? s x.ctx = some c → recInstr r = some (.mepi sh a d) →
    mepiReady x r = true → mepiBefore s x r = false → rowSays s x c sh r = .go →
    exec (.mepiRowRetire g k) s = .next (keep s (settleMepi g r.id (retireRow g x c sh r (arith 1 s)))))

/-- R330, R331, R397, R398: a reached boundary charges each core's static energy once, one resident context all of it, two by the floor of
their shares of the slots, what is left over to the one with the most slots and, on a tie, the lower identifier; the arithmetic clock steps by 25 MHz under and over its limits of
draw, not more often than every 100 microseconds; a die at 105 degrees freezes every running context, and the machine is hot until every die is
below 95. -/
def Obligations.ClockAndHeat : Prop :=
  ((∀ s, s.bound < s.clk / 1024 → ∃ t, exec .staticEnergyBoundary s = .next t ∧ t.bound = s.bound + 1 ∧ t.clk = s.clk ∧ t.mem = s.mem ∧
    t.groups = s.groups) ∧
  (∀ s, s.clk / 1024 ≤ s.bound → exec .staticEnergyBoundary s = .next s) ∧
  (∀ s, s.bound < s.clk / 1024 → exec .staticEnergyBoundary s = .next (keep s
    { ((List.range Config.cores).foldl (fun t core => chargeStatic 1 core t) s) with bound := s.bound + 1 })) ∧
  (∀ core s, slotsHeld s core = [] → chargeStatic 1 core s = s) ∧
  (∀ core c n x s, slotsHeld s core = [(c, n)] → 0 < n → ctx? s c = some x → x.sat = false → x.energy + staticWeight s c core < 2 ^ 48 →
    (ctx? (chargeStatic 1 core s) c).map (·.energy) = some (x.energy + staticWeight s c core)) ∧
  (∀ core c d n m x y s, slotsHeld s core = [(c, n), (d, m)] ∨ slotsHeld s core = [(d, m), (c, n)] → c ≠ d → 0 < n → m < n ∨ (m = n ∧ c < d) →
    ctx? s c = some x → ctx? s d = some y → x.sat = false → y.sat = false → x.energy + staticWeight s c core < 2 ^ 48 →
    y.energy + staticWeight s d core < 2 ^ 48 →
    (ctx? (chargeStatic 1 core s) c).map (·.energy) = some (x.energy + (staticWeight s c core - staticWeight s c core * m / (n + m))) ∧
    (ctx? (chargeStatic 1 core s) d).map (·.energy) = some (y.energy + staticWeight s d core * m / (n + m))) ∧
  (∀ mw s, 4400000 < mw → 900 ≤ s.plat.aclk → clockFree s = true → ∃ t, exec (.clockStepDown mw) s = .next t ∧
    t.plat = { s.plat with aclk := s.plat.aclk - 25, clockAt := some s.clk } ∧ { t with plat := s.plat } = s) ∧
  (∀ mw s, mw < 4300000 → s.plat.aclk + 25 ≤ 1750 → clockFree s = true → ∃ t, exec (.clockStepUp mw) s = .next t ∧
    t.plat = { s.plat with aclk := s.plat.aclk + 25, clockAt := some s.clk } ∧ { t with plat := s.plat } = s) ∧
  (∀ mw s, mw ≤ 4400000 ∨ s.plat.aclk < 900 ∨ clockFree s = false → exec (.clockStepDown mw) s = .next s) ∧
  (∀ mw s, 4300000 ≤ mw ∨ 1750 < s.plat.aclk + 25 ∨ clockFree s = false → exec (.clockStepUp mw) s = .next s)) ∧
  ((∀ temps s, (∃ d ∈ temps, 105 ≤ d) → s.plat.hot = false → ∃ t, exec (.thermalTrip temps) s = .next t ∧ t.plat.hot = true ∧
    (∀ cid c, ctx? t cid = some c → c.mode ≠ .running) ∧ t.plat.aclk = s.plat.aclk) ∧
  (∀ temps s, (∀ d ∈ temps, d < 95) → s.plat.hot = true → ∃ t, exec (.thermalResume temps) s = .next t ∧ t.plat.hot = false) ∧
  (∀ temps s, s.plat.hot = true → exec (.thermalTrip temps) s = .next s) ∧
  (∀ temps s, s.plat.hot = false → exec (.thermalResume temps) s = .next s))

/-! ### The dispatcher and the host's tables -/

/-- R193 to R201: packets from the windows, the Ethernet ports and the fabric are submitted; a round places groups; a passed-over head of a
queue is held a core or quad. An accepted packet is queued under the next number of its owner's tl.q. -/
def Obligations.DispatcherEvents : Prop :=
  (∀ q data s, s.plat.joined = false → exec (.launchWindowWrite q data) s = .next (keep s s)) ∧
  (∀ q data s, s.plat.joined = true → exec (.launchWindowWrite q data) s = .next (keep s (submitLaunch (.window (q % 4096))
    (entryPart s (Queue.own (queueEntry s (q % 4096)))) (windowAddr (q % 4096)) data s))) ∧
  (∀ f s, f.intact = true → keyOk s f.keyid.toNat = true → keyValue s f.keyid.toNat = f.sealKey →
    exec (.launchFrame f) s = .next (keep s (submitLaunch (.net (admits s f.part.toNat f.srcmac (Pkt.queue f.bytes))) f.part.toNat 0 f.bytes s))) ∧
  (∀ s, exec .dispatchRound s = .next (keep s (tick 1 ((roundQueues s).foldl (fun s q => roundTurn q s)
    { s with launches := s.launches.map fun e => if notTaken s e then (e.1, { e.2 with passedSince := none }) else e })))) ∧
  (∀ q l x s, holdDue s q = some (l, x) → Pkt.team x.pkt = 0 → exec (.roomHold q) s = .next (keep s (modLaunch l (fun y =>
    { y with holdCore := largest ((ownedCores s x.part).map fun c => (c, coreRoom s c)) }) s))) ∧
  (∀ p s, p.dst = s.tabs.self → p.kind = 0x20 → p.plane = 0 → p.blen ≤ 536 → p.fseq = expected s p → sealOk s p = true →
    exec (.launchPacket p) s = .next (keep s (wake (submitLaunch (.net true) p.part.toNat 0 p.data (setExpected p (p.fseq + 1) s))))) ∧
  (∀ src part addr p s, rejectReason s src part p = none →
    let t := submitLaunch src part addr p s
    let owner := Queue.own (queueEntry s (Pkt.queue p))
    ∃ x, sget s.fresh t.launches = some x ∧ x.st = .queued ∧ x.pkt = p ∧ x.owner = owner ∧ x.part = part ∧
      x.n = (timeline s owner 5).taken + 1 ∧ x.retired = 0 ∧ x.outstanding = 0 ∧ t.mem = s.mem ∧ t.groups = s.groups)

/-- R192, R363, R394: a hypervisor store of one aligned entry writes the queue table, the context table, the host contexts or HEVQ, unless a
rule refuses it; a store that is not one entry is refused, and a tenant's is no store. -/
def Obligations.TableWrites : Prop :=
  (∀ q (v : BitVec 64) s, q < 4096 → v.toNat % 2 ^ 48 = 0 → (Queue.en v = true → CtxTab.valid (ctxEntry s (Queue.own v)) = true) →
    (Queue.own v = Queue.own (queueEntry s q) ∨ queueBusy s q = false) → ∃ t,
    exec (.queueTableWrite { off := 8 * q, data := leBytes v.toNat 8, hyper := true }) s = .next t ∧
      t.tabs = { s.tabs with queues := sput 0 q v s.tabs.queues } ∧ { t with tabs := s.tabs } = s) ∧
  (∀ cid (v : BitVec 64) s, cid < 4096 → v.toNat % 2 ^ 12 = 0 → v.toNat / 2 ^ 48 % 2 ^ 9 = 0 → CtxTab.valid v = true →
    CtxTab.valid (ctxEntry s cid) = false → ctxCount s (CtxTab.part v) < ctxMax s (CtxTab.part v) → ∃ t,
    exec (.contextTableWrite { off := 0x8000 + 8 * cid, data := leBytes v.toNat 8, hyper := true }) s = .next t ∧
      t.tabs = { s.tabs with ctxs := sput 0 cid v s.tabs.ctxs } ∧ ctx? t cid = some (Ctx.created (CtxTab.part v) (CtxTab.save v)) ∧
      t.mem = s.mem) ∧
  (∀ part (v : BitVec 16) s, part < 64 → v.toNat / 2 ^ 12 % 2 ^ 3 = 0 → ∃ t,
    exec (.hostContextTableWrite { off := 0x10000 + 2 * part, data := leBytes v.toNat 2, hyper := true }) s = .next t ∧
      t.tabs = { s.tabs with hostCtx := sput 0 part v s.tabs.hostCtx } ∧ { t with tabs := s.tabs } = s) ∧
  (∀ (v : Long) s, v.toNat % 64 = 0 → ∃ t, exec (.hevqWrite { off := 0x10080, data := leBytes v.toNat 8, hyper := true }) s = .next t ∧
    t.tabs = { s.tabs with hevq := v } ∧ { t with tabs := s.tabs } = s) ∧
  (∀ st s, st.hyper = false → exec (.queueTableWrite st) s = .next s ∧ exec (.contextTableWrite st) s = .next s ∧
    exec (.hostContextTableWrite st) s = .next s ∧ exec (.hevqWrite st) s = .next s)

/-- R359, R367 to R369, R394: steps that the host's window gives, the work of the context engine, which asks first for control lines
of other packages that it needs (log 75), the yield trap and its deadline. -/
def Obligations.ContextEvents : Prop :=
  (∀ kind target (area : Long) s i, target < 4096 → area.toNat % 4096 = 0 → (kind = 1 ∨ kind = 2 ∨ area = 0) →
    let st : PcbStore := { off := 0x100C0, data := leBytes kind 4 ++ leBytes target 4 ++ leBytes area.toNat 8 ++ zeros 48, hyper := true }
    (kind, i) ∈ [(0, Instr.ctxStepWindowFrz st), (1, .ctxStepWindowSav st), (2, .ctxStepWindowLd st), (3, .ctxStepWindowRes st)] →
    let s1 := { s with
      steps := s.steps ++ [{ id := s.fresh, target := target, kind := kind, area := area, issuer := none, prog := 0, bearReq := none }]
      fresh := s.fresh + 1 }
    (ctx? s target = none → exec i s = .next (keep s s1)) ∧
    (∀ c, ctx? s target = some c → let c' := { c with step := BitVec.ofNat 24 (kind + 1) }
      exec i s = .next (keep s (gpaWrite c.part c.savebase.toNat (leBytes (stateWord c') 4) { s1 with ctxs := sset target c' s.ctxs }).1))) ∧
  (∀ k st s c, s.steps[k]? = some st → canStep s st = true → st.kind ≠ 6 → stepLacks s st = [] → ctx? s st.target = some c →
    exec (.ctxStepComplete k) s = .next (keepBase s
      (if st.kind < 4 ∧ st.prog = 0 ∧ stepRefused st c then closeStep st 0x000A s else doStep st c s))) ∧
  (∀ k st s, s.steps[k]? = some st → canStep s st = true → st.kind ≠ 6 → ctx? s st.target = none →
    exec (.ctxStepComplete k) s = .next (keepBase s (closeStep st 0x000A s))) ∧
  (∀ k st s, s.steps[k]? = some st → canStep s st = true → stepLacks s st ≠ [] →
    exec (.ctxStepComplete k) s = .next (keepBase s (askAll (stepLacks s st) s))) ∧
  (∀ g x r c k s, group? s g = some x → yieldDue s g = some r → ctx? s x.ctx = some c → rank? s g r = some k → ∃ t k',
    exec (.yieldTrap g) s = .next t ∧ rank? t g r = some k' ∧ k'.handler = true ∧ k'.frameActive = true ∧ k'.yielding = true ∧
      k'.tcause = tcauseWord false false 0x30 ∧ k'.tval = c.budget.setWidth 64 ∧ k'.regs = k.regs ∧
      (group? t g).map (·.quiesced) = some true ∧
      ∀ th, th < k.threads.length → (k.thread th).exited = false → (k'.thread th).pc = c.yvec) ∧
  (∀ cid s, yieldOverrun s cid = true → exec (.yieldDeadline cid) s = .next (keep s (saveGroups (groupsUp s cid) (freezeCtx cid s))) ∧
    (ctx? (freezeCtx cid s) cid).map (·.mode) = some .frozen)

/-! ### Other packages -/

/-- R316, R319, R320, R322: a request of another package is taken in the order of its flowlet and under its key: one out of order leaves
the machine as it is, one whose seal fails is refused with 0x0005 (under key 0, log 89). Answers are taken in order too, and reach the operations they answer. -/
def Obligations.FabricArrivals : Prop :=
  (∀ p s i, p.dst = s.tabs.self → (i, p.kind) ∈ [(Instr.write p, (0x01 : BitVec 8)), (.atomicReturning p, 0x02), (.atomicNotReturning p, 0x03),
      (.readRequest p, 0x04), (.peerPut p, 0x08), (.peerAdd p, 0x09)] →
    p.plane = 1 → p.blen ≤ 536 → exec i s = .next (keep s (receive p s))) ∧
  (∀ p s, p.dst = s.tabs.self → p.plane = 1 → p.blen ≤ 536 → (p.kind = 0x0A → exec (.reductionContribution p) s = .next (keepPlat s (receive p s))) ∧
    (p.kind = 0x0B → exec (.reductionResult p) s = .next (keepPlat s (receive p s)))) ∧
  (∀ p s, p.fseq ≠ expected s p → receive p s = s) ∧
  (∀ p s, p.fseq = expected s p → p.src ≠ s.tabs.self → sealOk s p = false → s.fab.held = [] →
    ∃ q, (receive p s).fab.outbox = s.fab.outbox ++ [q] ∧ q = stamped { answerTo { p with keyid := 0 } 0x07 0x0005 [] with opinfo := p.kind } none s ∧ q.kind = 0x07 ∧ q.dst = p.src ∧
      q.tag = p.tag ∧ q.status = 0x05 ∧ (receive p s).mem = s.mem ∧ expected (receive p s) p = p.fseq + 1) ∧
  (∀ p s, p.fseq = expected s p → sealOk s p = true → mayExpose s s.fab.held p = true →
    receive p s = releaseAll (exposeNow p (setExpected p (p.fseq + 1) s))) ∧
  (∀ p s, p.dst = s.tabs.self → p.blen ≤ 536 → p.fseq = expected s p →
    let s1 := setExpected p (p.fseq + 1) s
    (p.kind = 0x05 → p.plane = 1 →
      exec (.readResponse p) s = .next (keep s (if sealOk s1 p then wake (readData p s1) else refuseSeal p s1))) ∧
    (p.kind = 0x06 → p.plane = 0 ∨ p.plane = 1 → exec (.acknowledgement p) s = .next (keep s (wake (acknowledged p s1)))) ∧
    (p.kind = 0x07 → p.plane = 0 ∨ p.plane = 1 → exec (.refusal p) s = .next (keep s (refused p s1)))) ∧
  (∀ p s, p.dst = s.tabs.self → p.blen ≤ 536 → p.plane = 1 → p.fseq ≠ expected s p →
    (p.kind = 0x05 → exec (.readResponse p) s = .next s) ∧ (p.kind = 0x06 → exec (.acknowledgement p) s = .next s) ∧
    (p.kind = 0x07 → exec (.refusal p) s = .next s)) ∧
  (∀ r s, r.grant = none → r.router = s.tabs.self → exec (.slotRequest r) s = .next (keep s
    { (grantSlot r s).1 with fab := { (grantSlot r s).1.fab with slotAsks := (grantSlot r s).1.fab.slotAsks ++ [{ r with grant := some (grantSlot r s).2 }] } }))

/-- R132, R146, R316, R352: what a request does at its home: a write stores its bytes, an atomic its new value, a read nothing; each is
answered, and one whose tag is retained is answered with the recorded result and does nothing again; a row (R172) lands in its slab and counts
its bytes on the barrier. -/
def Obligations.FabricPerforms : Prop :=
  (∀ g phys row bar core add fmt data s, let old := readBytes (sgetD (core * 8 + phys) default s.slabs).data (row * 512) data.length
    sget (core * 8 + phys) s.slabs ≠ none → (s.slabs.map (·.1)).Pairwise (· < ·) →
    let t := performRow g phys row bar core add fmt data s
    (t.slabs.map (·.1)) = (s.slabs.map (·.1)) ∧ (∀ k, k ≠ core * 8 + phys → sget k t.slabs = sget k s.slabs) ∧
    (sget (core * 8 + phys) t.slabs).map (·.data) =
      some (writeBytes (sgetD (core * 8 + phys) default s.slabs).data (row * 512) (if add then addRow fmt old data else data))) ∧
  (∀ p s dpa, p.src ≠ s.tabs.self → Mem.wf s.mem = true → homedHere s dpa = true → mirrorOf s dpa = none →
    let at' (t : State) (bs : List Byte) : Prop := ∀ b, byteAt t.mem b =
      if cellAt s dpa ≤ b ∧ b < cellAt s dpa + bs.length then bs.getD (b - cellAt s dpa) 0 else byteAt s.mem b
    let replies (t : State) (kind : BitVec 8) (st : BitVec 16) (data : List Byte) : Prop :=
      t.fab.outbox = s.fab.outbox ++ [respond' p kind st data s]
    (p.kind = 0x01 → portSays p p.data.length .wr s = .ok dpa → findTag s p.src.toNat p.tag (granuleOf dpa) = none →
      at' (exposePacket p s) p.data ∧ replies (exposePacket p s) 0x06 0 [] ∧
      findTag (exposePacket p s) p.src.toNat p.tag (granuleOf dpa) = some []) ∧
    (∀ op, p.kind = 0x02 ∨ p.kind = 0x03 → AtomFn.ofCode (p.opinfo.extractLsb' 0 4) = some op → portSays p (atomSize p) .at s = .ok dpa →
      findTag s p.src.toNat p.tag (granuleOf dpa) = none →
      let old := readBytes s.mem (cellAt s dpa) (atomSize p)
      let answer := if p.kind = 0x02 then old else []
      at' (exposePacket p s) (atomResult p op old) ∧ replies (exposePacket p s) 0x06 0 answer ∧
      findTag (exposePacket p s) p.src.toNat p.tag (granuleOf dpa) = some answer) ∧
    (p.kind = 0x04 → portSays p p.len .rd s = .ok dpa →
      replies (exposePacket p s) 0x05 0 (readBytes s.mem (cellAt s dpa) p.len) ∧ (exposePacket p s).mem = s.mem) ∧
    (∀ r, p.kind = 0x01 → portSays p p.data.length .wr s = .ok dpa → findTag s p.src.toNat p.tag (granuleOf dpa) = some r →
      mirrorPending s p.src.toNat p.tag (granuleOf dpa) = false → replies (exposePacket p s) 0x06 0 r ∧ (exposePacket p s).mem = s.mem) ∧
    (∀ st c v, p.kind = 0x01 → portSays p p.data.length .wr s = .refused st c v →
      replies (exposePacket p s) 0x07 st (leBytes c.toNat 2 ++ leBytes v.toNat 8) ∧ (exposePacket p s).mem = s.mem) ∧
    (∀ b x c, p.kind = 0x08 ∨ p.kind = 0x09 → let core := bits p.addr.toNat 44 8
      let phys := bits p.addr.toNat 41 3
      let bar := bits p.addr.toNat 34 7
      let row := bits p.addr.toNat 0 7
      sget (core * 8 + phys) s.slabs = some b → group? s b.group = some x → ctx? s x.ctx = some c → c.key = p.keyid →
      barHeld x bar = true → (barGet s x bar).target ≠ 0 → x.frozen = false → x.retiredGroup = false →
      findTag s p.src.toNat p.tag (rowTarget core phys row) = none →
      replies (exposePacket p s) 0x06 0 [] ∧ (exposePacket p s).mem = s.mem ∧
      (exposePacket p s).slabs = (performRow b.group phys row bar core (p.kind == 0x09) (p.opinfo.extractLsb' 0 2) p.data s).slabs ∧
      (exposePacket p s).groups = (performRow b.group phys row bar core (p.kind == 0x09) (p.opinfo.extractLsb' 0 2) p.data s).groups))

/-- R327: coherence messages under key 0; at the home a reader joins the sharers and has the line sent, and a writer has it once every
other holder has given it up. The order of the messages is the model's (log 33). -/
def Obligations.CoherenceMessages : Prop :=
  (∀ p s i, p.dst = s.tabs.self → p.plane = 0 → p.blen ≤ 536 → p.fseq = expected s p → ctlSeal s p = true →
    (i, p.kind) ∈ [(Instr.readShared p, (0x10 : BitVec 8)), (.readOwn p, 0x11), (.upgrade p, 0x12)] →
    exec i s = .next (keep s (lineRequest p (setExpected p (p.fseq + 1) s)))) ∧
  (∀ p s, p.dst = s.tabs.self → p.plane = 0 → p.blen ≤ 536 → p.fseq = expected s p → ctlSeal s p = true →
    let s1 := setExpected p (p.fseq + 1) s
    (p.kind = 0x13 → exec (.writeBack p) s = .next (keep s (writtenBack p s1))) ∧
    (p.kind = 0x14 → exec (.invalidate p) s = .next (keep s (invalidated p s1))) ∧
    (p.kind = 0x15 → exec (.lineData p) s = .next (keep s (lineArrived p s1)))) ∧
  (∀ line p s, (dirAt s line).granting.isSome = true → serveHead line p s = (s, false)) ∧
  (∀ line p s, p.kind = 0x10 → (dirAt s line).granting = none → recalling s line = false → (dirAt s line).owner = none →
    rowFailed s (line * 512) = false → let r := serveHead line p s
    r.2 = true ∧ (dirAt r.1 line).sharers = (dirAt s line).sharers ||| shareBit s p.src.toNat ∧ (dirAt r.1 line).owner = none ∧
    (dirAt r.1 line).granting = some p ∧ r.1.mem = s.mem ∧
    ∃ q, r.1.fab.outbox = s.fab.outbox ++ [q] ∧ q.kind = 0x15 ∧ q.dst = p.src ∧ q.addr = BitVec.ofNat 64 (line * 512) ∧ q.tag = 0x10 ∧
      q.data = homeRead s (line * 512) 512) ∧
  (∀ line p s o, p.kind = 0x10 → (dirAt s line).granting = none → recalling s line = false → (dirAt s line).owner = some o →
    o ≠ p.src.toNat → let r := serveHead line p s
    r.2 = true ∧ (dirAt r.1 line).sharers = (dirAt s line).sharers ||| shareBit s p.src.toNat ∧ (dirAt r.1 line).owner = some o ∧ r.1.mem = s.mem ∧
    ∃ q, r.1.fab.outbox = s.fab.outbox ++ [q] ∧ q.kind = 0x10 ∧ q.dst = BitVec.ofNat 12 o ∧ q.src = s.tabs.self ∧
      q.tag = 4096 + p.src.setWidth 32 ∧ q.addr.toNat = p.addr.toNat) ∧
  (∀ line p s, p.kind ≠ 0x10 → (dirAt s line).granting = none → mustLeave s (dirAt s line) p.src.toNat ≠ [] → let r := serveHead line p s
    r.2 = false ∧ r.1.mem = s.mem ∧ r.1.dir = s.dir ∧
    ∀ o, o ∈ mustLeave s (dirAt s line) p.src.toNat → (0x14, line, o) ∈ r.1.asking) ∧
  (∀ line p s, p.kind ≠ 0x10 → (dirAt s line).granting = none → mustLeave s (dirAt s line) p.src.toNat = [] → recalling s line = false →
    lineHeld s line = false → let r := serveHead line p s
    r.2 = true ∧ (dirAt r.1 line).owner = some p.src.toNat ∧ (dirAt r.1 line).sharers = 0 ∧ r.1.mem = s.mem ∧
    ∃ q, r.1.fab.outbox = s.fab.outbox ++ [q] ∧ q.kind = 0x15 ∧ q.dst = p.src ∧ q.tag.toNat % 256 = p.kind.toNat ∧ q.tag.getLsbD 8 = rowFailed s (line * 512) ∧
      q.data = lineFor (dirAt s line) line p.src.toNat s) ∧
  (∀ p s l, sget (lineOfPacket p) s.l2 = some l → (invalidated p s).l2 = sdel (lineOfPacket p) s.l2 ∧
    ∃ q, (invalidated p s).fab.outbox = s.fab.outbox ++ [q] ∧ q.dst = BitVec.ofNat 12 p.src.toNat ∧
      if l.state = .m ∨ l.state = .o then q.kind = 0x13 ∧ q.data = l.data else q.kind = 0x06) ∧
  (∀ p s l, p.kind = 0x10 → p.tag.toNat < 4096 → homedHere s (lineOfPacket p * 512) = false → sget (lineOfPacket p) s.l2 = some l →
    ∃ q, (lineRequest p s).fab.outbox = s.fab.outbox ++ [q] ∧ q.kind = 0x15 ∧ q.dst = BitVec.ofNat 12 p.src.toNat ∧ q.data = l.data ∧
      (sget (lineOfPacket p) (lineRequest p s).l2).map (·.state) = some (if l.state = .s then .s else .o)) ∧
  (∀ p s, homedHere s (lineOfPacket p * 512) = true → regionMoving s (lineOfPacket p * 512) = false →
    (dirAt s (lineOfPacket p)).owner ≠ some p.src.toNat → writtenBack p s = s)

/-- R302, R303, R328, R329: the loss of a package, the takeover of its regions by their mirrors, and the mirrors
themselves; a mirror on the home's own power feed is refused unless the pairing overrides it. The layout of a MIRROR_WRITE's data is the model's
(log 33). -/
def Obligations.LossAndMirrors : Prop :=
  (∀ pkg s, exec (.lossAnnouncement pkg) s = .next (keepPlat s (announceLoss pkg.toNat s))) ∧
  (∀ pkg e s, e.2.isLost = false → e.2.home = pkg → e.2.moving = false → e.2.mirror = none → sget e.1 s.regions = some e.2 →
    (sget e.1 (regionAfterLoss pkg e s).regions).map (·.isLost) = some true ∧ (regionAfterLoss pkg e s).mem = s.mem) ∧
  (∀ pkg e m s, e.2.isLost = false → e.2.home = pkg → e.2.moving = false → e.2.mirror = some m → pkgLost s m = false →
    sget e.1 s.regions = some e.2 → (sget e.1 (regionAfterLoss pkg e s).regions).map (·.moving) = some true) ∧
  (∀ r s x, sget r s.regions = some x → x.moving = true → x.mirror = some s.selfPkg → x.awaits = [] →
    exec (.mirrorTakeover r) s = .next (keep s (takeOver r s))) ∧
  (∀ r m s x, sget r s.regions = some x → x.isLost = false → (x.home ≠ s.selfPkg ∨ m.feed ≠ s.plat.feed ∨ m.override = true) →
    ∃ t, exec (.mirrorNamed r m) s = .next t ∧
    sget r t.regions = some { x with mirror := some m.pkg.toNat, copying := x.home == s.selfPkg,
                                     notIndependent := x.home == s.selfPkg && m.feed == s.plat.feed } ∧ t.mem = s.mem ∧ t.groups = s.groups) ∧
  (∀ r pkg s x, sget r s.regions = some x → x.isLost = false → x.home = s.selfPkg → ∃ t,
    exec (.mirrorNamed r { pkg := pkg, feed := s.plat.feed, override := false }) s = .next t ∧ t.regions = s.regions) ∧
  (∀ r s x, sget r s.regions = some x → x.copying = true → ∃ t, exec (.regionCopyComplete r) s = .next t ∧ t.mem = s.mem ∧
    sget r t.regions = some { x with copying := false, unprotected := false } ∧ t.groups = s.groups) ∧
  (∀ p s, p.dst = s.tabs.self → p.plane = 0 → p.blen ≤ 536 → p.fseq = expected s p → ctlSeal s p = true →
    (∀ x, p.kind = 0x16 → homedHere s p.addr.toNat = false → regionOf s p.addr.toNat = some x → x.slot.isSome = true → ∃ t,
      exec (.mirrorWrite p) s = .next t ∧
      t.mem = writeBytes s.mem (cellAt s p.addr.toNat) ((p.data.drop 12).take (field p.data 0 2)) ∧ t.groups = s.groups ∧
      ∃ q, t.fab.outbox = s.fab.outbox ++ [q] ∧ q.kind = 0x17 ∧ q.dst = p.src ∧ q.tag = p.tag) ∧
    (p.kind = 0x17 → exec (.mirrorAcknowledgement p) s = .next (keep s (wake (mirrorAnswered p (setExpected p (p.fseq + 1) s))))) ∧
    (p.kind = 0x18 → exec (.homeChange p) s = .next (keep s (homeChanged p (setExpected p (p.fseq + 1) s)))))

/-- R310, R314, R317, R320 to R322, R329, R356: flits, replays, locked ports, resets of a source, packets sent again, the heartbeat and the load
of the fabric's tables. -/
def Obligations.LinksAndTables : Prop :=
  (∀ n f s q, s.fab.ports[n]? = some q → q.connected = true → q.locked = false →
    (linkTagOk n q f = true → f.lseq = q.lseqIn.setWidth 32 → exec (.flitReceive n f) s = .next (keepPlat s (flitGood n f s))) ∧
    (linkTagOk n q f = true → f.lseq ≠ q.lseqIn.setWidth 32 → exec (.flitReceive n f) s = .next s) ∧
    (linkTagOk n q f = false → q.fails = 0 → ∃ t, exec (.flitReceive n f) s = .next t ∧
      t.fab.reports = s.fab.reports ++ [.linkError n, .replayAsk n (q.lseqIn.setWidth 32)] ∧ t.fab.ports[n]? = some { q with fails := 1 } ∧ t.mem = s.mem) ∧
    (linkTagOk n q f = false → q.fails ≠ 0 → ∃ t, exec (.flitReceive n f) s = .next t ∧
      t = keepPlat s (flitBad n f s) ∧
      (lockPort n s).fab.ports[n]? = some { q with fails := q.fails + 1, locked := true, retry := [], waiting := [], opened := [] })) ∧
  (∀ n lseq s q, s.fab.ports[n]? = some q → q.connected = true → q.locked = false → ∃ t, exec (.linkReplayRequest n lseq) s = .next t ∧
    t.fab.ports[n]? = some { q with sent := q.sent ++ (q.retry.map (·.flit)).filter fun g => decide ((g.lseq - lseq).toNat < 2 ^ 31) } ∧ t.mem = s.mem ∧
    t.groups = s.groups) ∧
  (∀ n pkg s, exec (.portLockNotice n pkg) s = .next (keep s (noteLock pkg.toNat n (portLocked pkg.toNat n s)))) ∧
  (∀ src sctx s, ∃ t, exec (.resetNotice src sctx) s = .next t ∧ t.mem = s.mem ∧ t.groups = s.groups ∧
    (∀ p, p.src = src → p.sctx = sctx → (flowClass p = 1 ∨ flowClass p = 2) → expected t p = 0 ∧ (exposureOf t src.toNat sctx.toNat).e = 0) ∧
    ∀ p, (p.src ≠ src ∨ p.sctx ≠ sctx) → expected t p = expected s p) ∧
  (∀ k u s, s.fab.unacked[k]? = some u → retryDue s false u = true →
    exec (.ordRetryResend k) s = .next (keep s (resendFrom u.packet.path.toNat u s))) ∧
  (∀ k u s, s.fab.unacked[k]? = some u → retryDue s true u = true → exec (.peerRetryResend k) s = .next (keep s (resendRow u s))) ∧
  (∀ s, ∃ t, exec .heartbeat s = .next t ∧ t.fab = { s.fab with reports := s.fab.reports ++ [.heartbeat] } ∧ { t with fab := s.fab } = s) ∧
  (∀ tl s, loadsHere tl s = false → ∃ t, exec (.tableLoad tl) s = .next t ∧ t.tabs = s.tabs ∧ t.mem = s.mem ∧ t.groups = s.groups ∧
    (sget tl.self.toNat s.fab.notedLoads ≠ some tl → ∀ n q, s.fab.ports[n]? = some q → q.connected = true → q.locked = false →
      .loadOn n tl.self.toNat ∈ t.fab.reports)) ∧
  (∀ tl s, loadsHere tl s = true → ∃ t, exec (.tableLoad tl) s = .next t ∧ t.tabs.self = tl.self ∧ t.tabs.ndom = tl.ndom ∧ 
    t.tabs.domh = domhOf t.tabs.scopes tl.ndom.toNat ∧
    t.tabs.scopeValid = true ∧ t.tabs.scopeGen = s.tabs.scopeGen + 1 ∧ t.tabs.keys = s.tabs.keys ∧ t.mem = s.mem ∧ t.groups = s.groups ∧
    (∀ d e, d < 4096 → tl.routes = [(d, e)] → routeEntry t d = e) ∧ t.tabs.domain = tl.domain.map (·.toNat))

/-! ### Management -/

/-- R391 to R393, R396, R318: host commands over the session: reads of the journal, the routes and the slots, keys and launch-table entries,
attestation. A command outside a session, or of a length that does not match, gives 0x000A and no effect. -/
def Obligations.ManagementCommands : Prop :=
  let cmd (h : HostCmd) (s : State) (code size : Nat) : Prop := mgmtRuns s = true ∧ h.inSession = true ∧ s.plat.session = true ∧
    h.cmd.toNat = code ∧ h.len.toNat = size ∧ h.body.length = size ∧ h.flags = 0
  let answers (i : Instr) (h : HostCmd) (s : State) (st : BitVec 16) (body : List Byte) : Prop :=
    ∃ t, exec i s = .next t ∧ t.plat = { s.plat with responses := s.plat.responses ++ [{ cmd := h.cmd, flags := h.flags, len := h.len, seq := h.seq, status := st, body := body }] } ∧
      { t with plat := s.plat } = s
  (∀ h s, cmd h s 0x40 0 → answers (.journalRead h) h s 0 (journalBytes s)) ∧
  (∀ h s, cmd h s 0x41 4 → field h.body 0 4 < 4096 → answers (.routeRead h) h s 0 (leBytes (routeEntry s (field h.body 0 4)).toNat 16)) ∧
  (∀ h s, cmd h s 0x42 0 → answers (.slotRead h) h s 0 (s.fab.slots.flatMap fun r => leBytes (slotWord r).toNat 8)) ∧
  (∀ h s i, mgmtRuns s = true → (h.inSession = false ∨ s.plat.session = false ∨ h.len.toNat ≠ h.body.length) →
    i ∈ [Instr.journalRead h, .routeRead h, .slotRead h, .keySet h, .launchtabSet h, .layoutRead h, .bearoff h, .ckpt h, .pair h, .restore h,
      .retire h] → answers i h s 0x000A []) ∧
  (∀ h s, cmd h s 0x30 40 → 0 < field h.body 0 4 → field h.body 0 4 < 4096 → field h.body 4 4 < 2 → ∃ t e,
    exec (.keySet h) s = .next t ∧ sget (field h.body 0 4) t.tabs.keys = some e ∧ e.valid = true ∧
      e.key = BitVec.ofNat 256 (field h.body 8 32) ∧ t.mem = s.mem ∧ t.groups = s.groups ∧
      e.epoch = ((sget (field h.body 0 4) s.tabs.keys).map (·.epoch)).getD 0 + 1 ∧
      ∀ c x, ctx? t c = some x → x.key.toNat = field h.body 0 4 → x.keyEpoch = e.epoch ∧ (c < 4096 → nonceAt t c (field h.body 0 4) = 0)) ∧
  (∀ h s, cmd h s 0x31 24 → let v := field h.body 8 16
    field h.body 0 4 < 64 → field h.body 4 4 < 64 → bits v 0 39 = 0 → bits v 112 15 = 0 → bits v 39 13 ≤ 4096 →
    bits v 52 12 + bits v 39 13 ≤ 4096 → bits v 39 13 ≠ 0 → ∃ t, exec (.launchtabSet h) s = .next t ∧
      t.tabs = { s.tabs with launchTab := sput 0 (field h.body 0 4 * 64 + field h.body 4 4) (BitVec.ofNat 128 v) s.tabs.launchTab } ∧
      t.mem = s.mem ∧ t.groups = s.groups) ∧
  (∀ bytes opens s, s.plat.powered = true → s.plat.stopped = false → ∃ t, exec (.attestationRequest bytes opens) s = .next t ∧
    t.plat.session = (s.plat.session || opens) ∧ { t with plat := s.plat } = s ∧
    t.plat.responses = s.plat.responses ++ [{ body := Config.spdmAnswer (bytes ++ measured s) }])

/-- R292, R297 to R299, R372 to R378: zeroing, scrub and refresh of rows, retirement of layers, and the two-copy commit of a layout. -/
def Obligations.RowsAndLayouts : Prop :=
  let cmd (h : HostCmd) (s : State) (code size : Nat) : Prop := mgmtRuns s = true ∧ h.inSession = true ∧ s.plat.session = true ∧
    h.cmd.toNat = code ∧ h.len.toNat = size ∧ h.body.length = size ∧ h.flags = 0
  (∀ k z b s, s.zeroing[k]? = some z → z.2.buffer = some b → z.2.owed = [] → ∃ t, exec (.zeroingComplete k) s = .next t ∧ t.zeroing = dropAt s.zeroing k ∧
    t.tabs = { s.tabs with bufs := sput 0 b (sgetD b 0 s.tabs.bufs &&& ~~~(1#256 <<< 249)) s.tabs.bufs } ∧ t.mem = s.mem ∧ t.groups = s.groups) ∧
  (∀ chan row s, isRow chan row = true → s.plat.failedRows.contains (chan, row) = false →
    exec (.patrolScrub chan row .clean) s = .next s ∧
    exec (.patrolScrub chan row .uncorrectable) s = .next (keepBase s (failRow chan row s)) ∧
    exec (.patrolScrub chan row .corrected) s = .next (keepBase s (if rowClassOf s chan row = 2 then failRow chan row s
      else reportRow chan row 0x100 (modPlat (setRowClass chan row (rowClassOf s chan row + 1)) s)))) ∧
  (∀ chan row s, isRow chan row = true → ∃ t, exec (.refresh chan row) s = .next t ∧ { t with plat := s.plat } = s ∧
    t.plat.refreshed = (s.plat.refreshed.filter fun r => r.1 != chan * 2 ^ 20 + row) ++ [(chan * 2 ^ 20 + row, s.clk)]) ∧
  (∀ h s, cmd h s 0x50 8 → field h.body 0 4 < 12 → field h.body 4 4 < 16 → layerRetired s (field h.body 0 4) (field h.body 4 4) = false →
    layerUsed s (field h.body 0 4) (field h.body 4 4) = false →
    (∀ r ∈ s.plat.retiring, r.1 ≠ field h.body 0 4 ∨ r.2.1 ≠ field h.body 4 4) → ∃ t, exec (.retire h) s = .next t ∧
      t.plat.retiring = s.plat.retiring ++ [(field h.body 0 4, field h.body 4 4, h.seq.toNat)] ∧ { t with plat := s.plat } = s) ∧
  (∀ stack layer s r, retireReady s stack layer = true → (s.plat.retiring.find? fun r => r.1 == stack && r.2.1 == layer) = some r →
    exec (.layerRetireProceed stack layer) s = .next (keepBase s (layerRecord r.2.2 stack layer (retireLayer stack layer s)))) ∧
  (∀ h s, cmd h s 1 16384 →
    let recs := (List.range 64).map fun p => PartRec.ofBytes ((h.body.drop (256 * p)).take 256)
    let new : Sparse PartRec := recs.zipIdx.map fun r => (r.2, PartRec.sealed r.1)
    layoutBad recs 0 {} = none → layoutBusy s (layoutActive s) new = none → ∃ t, exec (.layoutPrepare h) s = .next t ∧ commitState t = 1 ∧
      layoutShadow t = new ∧ layoutActive t = layoutActive s ∧ t.tabs.bufs = s.tabs.bufs) ∧
  (∀ h s, cmd h s 2 0 → commitState s = 1 → layoutBusy s (layoutActive s) (layoutShadow s) = none → ∃ t,
    exec (.layoutActivate h) s = .next t ∧ commitState t = 2 ∧ layoutActive t = layoutShadow s ∧ layoutShadow t = layoutActive s) ∧
  (∀ s l, mgmtRuns s = true → s.agenda = .commit :: l → (commitState s = 2 ∨ commitState s = 3) → ∃ t, step s = .next t ∧
    commitState t = (commitState s + 1) % 4 ∧ layoutActive t = layoutActive s ∧ (commitState s = 3 → layoutShadow t = layoutActive s)) ∧
  (∀ h s, cmd h s 3 0 → ∃ t, exec (.layoutRead h) s = .next t ∧ { t with plat := s.plat } = s ∧ t.plat.responses = s.plat.responses ++
    [{ cmd := h.cmd, flags := h.flags, len := h.len, seq := h.seq, status := 0, body := (List.range 64).flatMap fun p => PartRec.bytes (recordAt (layoutActive s) p) }]) ∧
  (∀ s, mgmtRuns s = true → commitState s ≠ 0 → ∃ t, exec .mpRestart s = .next t ∧ commitState t = 0) ∧
  (∀ s, mgmtRuns s = true → commitState s = 0 → (∀ p, p < 64 → PartRec.crcOk (recordAt (layoutActive s) p) = true) →
    exec .mpRestart s = .next { s with plat := { s.plat with activating := none } })

/-- R379 to R389: bear-off requests are posted, evaluated, held to their deadlines and ended; checkpoints are begun, streamed to the
partner and restored. -/
def Obligations.BearoffsAndCheckpoints : Prop :=
  let cmd (h : HostCmd) (s : State) (code size : Nat) : Prop := mgmtRuns s = true ∧ h.inSession = true ∧ s.plat.session = true ∧
    h.cmd.toNat = code ∧ h.len.toNat = size ∧ h.body.length = size ∧ h.flags = 0
  (∀ h s, cmd h s 0x10 64 → s.plat.bearoffs.length < 16 → field h.body 40 4 < 2 → zeroBytes h.body 44 20 = true →
    let b : BearReq := { cores := BitVec.ofNat 224 (field h.body 0 28), reqid := BitVec.ofNat 32 (field h.body 28 4), t := field h.body 32 8, noyield := field h.body 40 4 == 1, nextEval := s.clk, checkpointed := 0, discardedQ := 0, runQueues := [], n := [] }
    let s1 := modPlat (fun p => { p with bearoffs := p.bearoffs ++ [b] }) (respondTo h 0 [] s)
    let b1 : BearReq := { b with n := countWork s1 }
    exec (.bearoff h) s = .next (keepBase s (evaluate b1 (modPlat (fun p => { p with bearoffs := s.plat.bearoffs ++ [b1] }) s1))) ∧
    (s.groups = [] → ∃ t b, exec (.bearoff h) s = .next t ∧ t.plat.bearoffs.getLast? = some b ∧ b.cores = BitVec.ofNat 224 (field h.body 0 28) ∧
      b.reqid = BitVec.ofNat 32 (field h.body 28 4) ∧ b.t = field h.body 32 8 ∧ b.noyield = (field h.body 40 4 == 1) ∧
      b.nextEval = s.clk + evalPeriod ∧ t.mem = s.mem)) ∧
  (∀ h s, cmd h s 0x10 64 → 16 ≤ s.plat.bearoffs.length → exec (.bearoff h) s = .next (keepBase s (settleCmd h 0x000A 0 s))) ∧
  (∀ b s, evalDue s = some b → exec .bearoffEvaluation s = .next (keepBase s (evaluate b s))) ∧
  (∀ b q cid s, comparatorFires s = some (b, q) → queueCtx s b.cores q = some cid → saveqOf s (ctxPart s cid) ≠ 0 →
    exec .bearoffComparator s = .next (keepBase s (checkpointCtx (governs s b q) cid s))) ∧
  (∀ reqid b s, (s.plat.bearoffs.find? fun b => b.reqid == reqid && decide (b.t ≤ s.clk) && !(lateOn s b).isEmpty) = some b →
    exec (.bearoffDeadline reqid) s = .next (keepBase s ((lateOn s b).foldl (fun s cid => vacate b cid s) s))) ∧
  (∀ reqid b s, (s.plat.bearoffs.find? fun b => b.reqid == reqid && vacant s b) = some b → ∃ t, exec (.bearoffComplete reqid) s = .next t ∧
    t.plat.bearoffs = s.plat.bearoffs.filter fun y => y != b) ∧
  (∀ s b cid c, ctx? s cid = some c → c.mode = .running → mayYield s b cid c = false →
    (ctx? (checkpointCtx b cid s) cid).map (fun c => (c.mode, c.bearoff)) = some (.frozen, true) ∧
    ∃ st ∈ (checkpointCtx b cid s).steps, st.target = cid ∧ st.kind = 5 ∧ st.bearReq = some b.reqid) ∧
  (∀ h s, let part := field h.body 0 4
    let base := field h.body 4 8
    let len := field h.body 12 8
    let n := field h.body 20 4
    cmd h s 0x20 (24 + 4 * n) → part < 64 → n ≤ 64 → 2 ^ 43 ≤ base → base + len ≤ 2 ^ 43 + 2 ^ 43 →
    (∀ i, i < n → field h.body (24 + 4 * i) 4 < 4096) → (ckptOf s part).busy = false → (ckptOf s part).streaming = none → ∃ t,
      exec (.ckpt h) s = .next t ∧ (ckptOf t part).busy = true ∧ (ckptOf t part).base = base ∧ (ckptOf t part).gen = (ckptOf s part).gen ∧
      (ckptOf t part).replica = (List.range n).map (fun i => field h.body (24 + 4 * i) 4) ∧
      ∃ st ∈ t.steps, st.target = 4096 + part ∧ st.kind = 6) ∧
  (∀ part g s, (ckptOf s part).streaming = some g → ∃ t, exec (.partnerDeltaStream part) s = .next t ∧ (ckptOf t part).streaming = none ∧
    { t with plat := s.plat } = s ∧ ∀ x ∈ t.plat.gens, x.part = part → x.gen = g → x.atPartner = true) ∧
  (∀ h s, cmd h s 0x21 8 → field h.body 0 4 < 4096 → field h.body 4 4 ≠ s.plat.feed → ∃ t, exec (.pair h) s = .next t ∧
    t.plat.partner = some (field h.body 0 4) ∧ t.plat.notIndependent = false) ∧
  (∀ h s, cmd h s 0x21 8 → field h.body 4 4 = s.plat.feed → exec (.pair h) s = .next (keepBase s (settleCmd h 0x000A 0 s))) ∧
  (∀ h s g s2 s3, cmd h s 0x22 16 → let part := field h.body 0 4
    let gen := field h.body 4 4
    heldGen s (field h.body 8 4) part gen = some g →
    let s0 := { s with tabs := { s.tabs with bufs := g.bufs } }
    verifyChunks (field h.body 12 4) part gen s0 g.chunks
      (g.chunks.foldl (fun s c => putChunk s0 part c.1 c.2.1 c.2.2.1 s) (respondTo h 0 [] s)) = (s2, none) →
    fetchBacked (field h.body 12 4) part gen s0 (backedChunks s g) s2 = (s3, none) →
    exec (.restore h) s = .next (keepBase s (mgmtPost { cmdaddr := h.seq, counta := gen, countb := part, progress := s.clk, user := flagOf g.notIndependent } (loadSchedule g s3))))

/-- R390, R391: a start in which nothing fails now and nothing failed before runs its eight steps, and joins the host: each step leaves a
record, the firmware and the kernel come from copy A, the memory trains at full rate, and the Z-ports are connected. -/
def Obligations.PowerOnBoots : Prop :=
  (∀ us s, s.plat.failed = [] → (∀ p, p < 64 → PartRec.crcOk (recordAt (layoutActive s) p) = true) → commitState s = 0 →
    ∃ t, exec (.powerGood us []) s = .next t ∧ t.plat.powered = true ∧ t.plat.stopped = false ∧ t.plat.joined = true ∧
      t.plat.bootn = s.plat.bootn + 1 ∧ t.plat.fwCopyB = false ∧ t.plat.kernelCopyB = false ∧ t.plat.lowRate = false ∧
      t.plat.cxlDown = [] ∧ t.groups = [] ∧ t.ctxs = [] ∧ t.mem = [] ∧ (∀ q ∈ t.fab.ports, q.connected = true) ∧
      (t.plat.journal.getLast?).map (fun r => (r.step, r.unit, r.result)) = some (8, 0xFF, 0)) ∧
  (∀ us s, (∃ u, (2, u) ∈ s.plat.failed) → (∀ f ∈ s.plat.failed, f.1 ∉ [1, 3, 6, 7, 8]) → (∀ p, p < 64 → PartRec.crcOk (recordAt (layoutActive s) p) = true) →
    commitState s = 0 → ∃ t, exec (.powerGood us []) s = .next t ∧ t.plat.fwCopyB = true ∧ t.plat.stopped = false ∧ t.plat.joined = true) ∧
  (∀ us s step, step ∈ [1, 8] → (step, 0xFF) ∈ s.plat.failed → (∀ f ∈ s.plat.failed, f.1 ∈ [1, 2, 3, 6, 7, 8] → f.1 = step) →
    ∃ t, exec (.powerGood us []) s = .next t ∧ t.plat.stopped = true ∧ t.plat.joined = false)
end

