-- ==== Sys2Proof/Laws/Sparse.lean ====
section
/-! SUPPORT. Maps with rising keys: what a lookup gives after an update, and that updates keep the canonical form. -/

namespace Sys2Proof.Laws

open Sys2Proof Sys2Proof.Machine

variable {α β : Type}

@[simp] theorem sget_sset_same (k : Nat) (a : α) (m : Sparse α) : sget k (sset k a m) = some a := by
  induction m with
  | nil => simp [sset, sget]
  | cons h m ih =>
    obtain ⟨k', b⟩ := h
    unfold sset
    split
    · simp [sget]
    · split
      · simp [sget]
      · rename_i h1 h2
        simp [sget, h2, h1, ih]

theorem sget_sset_other {j k : Nat} (h : j ≠ k) (a : α) (m : Sparse α) : sget j (sset k a m) = sget j m := by
  induction m with
  | nil => simp [sset, sget, h]
  | cons e m ih =>
    obtain ⟨k', b⟩ := e
    unfold sset
    split
    · rename_i h1
      by_cases hj : j < k
      · have : j ≠ k' := by omega
        have : j < k' := by omega
        simp [sget, *]
      · simp [sget, h, hj]
    · split
      · rename_i h1 h2
        subst h2
        simp [sget, h]
      · simp only [sget]
        split
        · rfl
        · split
          · rfl
          · exact ih

theorem sget_sset (j k : Nat) (a : α) (m : Sparse α) : sget j (sset k a m) = if j = k then some a else sget j m := by
  by_cases h : j = k
  · subst h; simp
  · simp [h, sget_sset_other h]

theorem sget_smod (j k : Nat) (f : α → α) (m : Sparse α) :
    sget j (smod k f m) = if j = k then (sget j m).map f else sget j m := by
  unfold smod
  split
  · rename_i a h
    rw [sget_sset]
    split
    · subst_vars; simp [h]
    · rfl
  · rename_i h
    split
    · subst_vars; simp [h]
    · rfl

theorem sget_map (j : Nat) (f : α → β) (m : Sparse α) : sget j (m.map fun e => (e.1, f e.2)) = (sget j m).map f := by
  induction m with
  | nil => rfl
  | cons e m ih =>
    simp only [List.map_cons, sget]
    split
    · rfl
    · split
      · rfl
      · exact ih

theorem sset_map (k : Nat) (a : α) (f : α → β) (m : Sparse α) :
    (sset k a m).map (fun e => (e.1, f e.2)) = sset k (f a) (m.map fun e => (e.1, f e.2)) := by
  induction m with
  | nil => rfl
  | cons e m ih =>
    simp only [sset, List.map_cons]
    split
    · rfl
    · split
      · rfl
      · simp [ih]

theorem sset_self (k : Nat) (a : α) (m : Sparse α) (h : sget k m = some a) : sset k a m = m := by
  induction m with
  | nil => simp [sget] at h
  | cons e m ih =>
    obtain ⟨k', b⟩ := e
    simp only [sget] at h
    simp only [sset]
    split at h
    · rename_i h1
      subst h1
      simp at h
      simp [h]
    · rename_i h1
      split at h
      · simp at h
      · rename_i h2
        simp [h1, h2, ih h]

/-- An update that a view does not see leaves the view. -/
theorem smod_map (k : Nat) (f : α → α) (v : α → β) (h : ∀ a, v (f a) = v a) (m : Sparse α) :
    (smod k f m).map (fun e => (e.1, v e.2)) = m.map fun e => (e.1, v e.2) := by
  unfold smod
  split
  · rename_i a ha
    rw [sset_map, h]
    exact sset_self _ _ _ (by rw [sget_map, ha]; rfl)
  · rfl

theorem modAt_get (l : List α) (i j : Nat) (f : α → α) : (modAt l i f)[j]? = if j = i then (l[j]?).map f else l[j]? := by
  unfold modAt
  split
  · rename_i a h
    rw [List.getElem?_set]
    split
    · rename_i h1
      subst h1
      obtain ⟨hl, hv⟩ := List.getElem?_eq_some_iff.mp h
      simp [hl, hv]
    · rename_i h1
      simp [Ne.symm h1]
  · rename_i h
    split
    · rename_i h1
      subst h1
      simp [h]
    · rfl

@[simp] theorem modAt_length (l : List α) (i : Nat) (f : α → α) : (modAt l i f).length = l.length := by
  unfold modAt; split <;> simp

/-! ### The canonical form -/

theorem rising_cons (a : Nat) (l : List Nat) : rising (a :: l) = true ↔ (∀ b ∈ l.head?, a < b) ∧ rising l = true := by
  cases l with
  | nil => simp [rising]
  | cons b l => simp [rising]

theorem sset_head (k : Nat) (a : α) (m : Sparse α) : ∀ x ∈ ((sset k a m).map (·.1)).head?, x = k ∨ x ∈ (m.map (·.1)).head? := by
  cases m with
  | nil => simp [sset]
  | cons e m =>
    obtain ⟨k', b⟩ := e
    simp only [sset]
    split
    · simp
    · split
      · rename_i h; simp
      · simp

theorem rising_sset (k : Nat) (a : α) (m : Sparse α) (h : rising (m.map (·.1)) = true) : rising ((sset k a m).map (·.1)) = true := by
  induction m with
  | nil => simp [sset, rising]
  | cons e m ih =>
    obtain ⟨k', b⟩ := e
    simp only [sset]
    simp only [List.map_cons] at h
    have hr := (rising_cons _ _).mp h
    split
    · rename_i h1
      simp only [List.map_cons]
      rw [rising_cons]
      exact ⟨by simpa using h1, h⟩
    · split
      · rename_i h2
        subst h2
        simpa using h
      · rename_i h1 h2
        simp only [List.map_cons]
        rw [rising_cons]
        refine ⟨?_, ih hr.2⟩
        intro x hx
        rcases sset_head k a m x hx with rfl | hx
        · omega
        · exact hr.1 x hx

theorem rising_tail (e : Nat × α) (m : Sparse α) (h : rising ((e :: m).map (·.1)) = true) : rising (m.map (·.1)) = true := by
  simp only [List.map_cons] at h
  exact ((rising_cons _ _).mp h).2

theorem rising_head_lt (k : Nat) (l : List Nat) (h : rising (k :: l) = true) : ∀ x ∈ l, k < x := by
  induction l generalizing k with
  | nil => simp
  | cons b l ih =>
    simp [rising] at h
    intro x hx
    rcases List.mem_cons.mp hx with rfl | hx
    · exact h.1
    · exact lt_trans h.1 (ih b h.2 x hx)

theorem rising_iff_pairwise (l : List Nat) : rising l = true ↔ l.Pairwise (· < ·) := by
  induction l with
  | nil => simp [rising]
  | cons a l ih =>
    constructor
    · intro h
      rw [List.pairwise_cons]
      exact ⟨rising_head_lt a l h, ih.mp (by rw [rising_cons] at h; exact h.2)⟩
    · intro h
      rw [List.pairwise_cons] at h
      rw [rising_cons]
      exact ⟨fun b hb => h.1 b (List.mem_of_mem_head? hb), ih.mpr h.2⟩

theorem sdel_sublist (k : Nat) (m : Sparse α) : (sdel k m).Sublist m := by
  induction m with
  | nil => simp [sdel]
  | cons e m ih =>
    obtain ⟨k', b⟩ := e
    simp only [sdel]
    split
    · exact List.Sublist.refl _
    · split
      · exact List.sublist_cons_self _ _
      · exact ih.cons_cons _

theorem canonical_sublist [DecidableEq α] (d : α) {m n : Sparse α} (hs : n.Sublist m) (h : canonical d m = true) : canonical d n = true := by
  simp only [canonical, Bool.and_eq_true, rising_iff_pairwise, List.all_eq_true] at *
  exact ⟨h.1.sublist (hs.map _), fun e he => h.2 e (hs.subset he)⟩

theorem sset_mem (k : Nat) (a : α) (m : Sparse α) : ∀ e ∈ sset k a m, e = (k, a) ∨ e ∈ m := by
  induction m with
  | nil => simp [sset]
  | cons h m ih =>
    obtain ⟨k', b⟩ := h
    intro e he
    simp only [sset] at he
    split at he
    · simpa using he
    · split at he
      · rcases List.mem_cons.mp he with rfl | he
        · exact .inl rfl
        · exact .inr (List.mem_cons_of_mem _ he)
      · rcases List.mem_cons.mp he with rfl | he
        · exact .inr (List.mem_cons_self ..)
        · rcases ih e he with rfl | he
          · exact .inl rfl
          · exact .inr (List.mem_cons_of_mem _ he)

/-- A write keeps the canonical form. -/
theorem canonical_sput [DecidableEq α] (d : α) (k : Nat) (a : α) (m : Sparse α) (h : canonical d m = true) :
    canonical d (sput d k a m) = true := by
  unfold sput
  split
  · exact canonical_sublist d (sdel_sublist k m) h
  · rename_i ha
    simp only [canonical, Bool.and_eq_true, List.all_eq_true] at *
    refine ⟨rising_sset k a m h.1, ?_⟩
    intro e he
    rcases sset_mem k a m e he with rfl | he
    · simpa using ha
    · exact h.2 e he

/-! ### Memory -/

theorem setByte_wf (m : Mem) (a : Nat) (b : Byte) (h : Mem.wf m = true) : Mem.wf (setByte m a b) = true := canonical_sput _ _ _ _ h

theorem writeBytes_wf (bs : List Byte) : ∀ (m : Mem) (a : Nat), Mem.wf m = true → Mem.wf (writeBytes m a bs) = true := by
  induction bs with
  | nil => intro m a h; simpa [writeBytes] using h
  | cons b bs ih => intro m a h; exact ih _ _ (setByte_wf m a b h)

theorem zeroRange_wf (m : Mem) (a n : Nat) (h : Mem.wf m = true) : Mem.wf (zeroRange m a n) = true :=
  canonical_sublist _ List.filter_sublist h

theorem sget_sdel_same (k : Nat) (m : Sparse α) (h : rising (m.map (·.1)) = true) : sget k (sdel k m) = none := by
  induction m with
  | nil => rfl
  | cons e m ih =>
    obtain ⟨k', b⟩ := e
    simp only [sdel]
    split
    · rename_i h1
      simp [sget, h1, Nat.ne_of_lt h1]
    · split
      · rename_i h1 h2
        subst h2
        cases m with
        | nil => rfl
        | cons e2 m =>
          simp [rising] at h
          simp [sget, h.1, Nat.ne_of_lt h.1]
      · rename_i h1 h2
        simp [sget, h1, h2, ih (rising_tail _ _ h)]

theorem sget_none_of_lt (k : Nat) (m : Sparse α) (h : ∀ x ∈ m.map (·.1), k < x) : sget k m = none := by
  cases m with
  | nil => rfl
  | cons e m =>
    have := h e.1 (by simp)
    simp [sget, this, Nat.ne_of_lt this]

theorem sget_sdel_other {j k : Nat} (h : j ≠ k) (m : Sparse α) (hr : rising (m.map (·.1)) = true) : sget j (sdel k m) = sget j m := by
  induction m with
  | nil => rfl
  | cons e m ih =>
    obtain ⟨k', b⟩ := e
    simp only [sdel]
    split
    · rfl
    · split
      · rename_i h1 h2
        subst h2
        by_cases hj : j < k
        · simp only [sget, h, hj, if_true, if_false]
          apply sget_none_of_lt
          intro x hx
          have := rising_head_lt k (m.map (·.1)) (by simpa using hr) x hx
          omega
        · simp [sget, h, hj]
      · simp only [sget]
        rw [ih (rising_tail _ _ hr)]

theorem byteAt_setByte (m : Mem) (h : Mem.wf m = true) (a x : Nat) (b : Byte) : byteAt (setByte m a b) x = if x = a then b else byteAt m x := by
  have hr : rising (m.map (·.1)) = true := by
    simp only [Mem.wf, canonical, Bool.and_eq_true] at h; exact h.1
  unfold byteAt setByte sgetD sput
  by_cases hx : x = a
  · subst hx
    split
    · rename_i hb; subst hb; rw [sget_sdel_same _ _ hr]; simp
    · simp
  · split
    · rw [sget_sdel_other hx _ hr]
    · rw [sget_sset_other hx]

end Sys2Proof.Laws
end

