-- ==== Sys2Proof/Laws/State.lean ====
section
/-! SUPPORT. One lemma for each field that an update of State leaves alone. -/

namespace Sys2Proof.Laws

open Sys2Proof Sys2Proof.Machine

/-! ### modGroup -/

@[simp] theorem modGroup_clk (g : Nat) (f : Group → Group) (s : State) : (modGroup g f s).clk = s.clk := rfl
@[simp] theorem modGroup_aphase (g : Nat) (f : Group → Group) (s : State) : (modGroup g f s).aphase = s.aphase := rfl
@[simp] theorem modGroup_mem (g : Nat) (f : Group → Group) (s : State) : (modGroup g f s).mem = s.mem := rfl
@[simp] theorem modGroup_plat (g : Nat) (f : Group → Group) (s : State) : (modGroup g f s).plat = s.plat := rfl
@[simp] theorem modGroup_tabs (g : Nat) (f : Group → Group) (s : State) : (modGroup g f s).tabs = s.tabs := rfl
@[simp] theorem modGroup_slabs (g : Nat) (f : Group → Group) (s : State) : (modGroup g f s).slabs = s.slabs := rfl
@[simp] theorem modGroup_teams (g : Nat) (f : Group → Group) (s : State) : (modGroup g f s).teams = s.teams := rfl
@[simp] theorem modGroup_ctxs (g : Nat) (f : Group → Group) (s : State) : (modGroup g f s).ctxs = s.ctxs := rfl
@[simp] theorem modGroup_launches (g : Nat) (f : Group → Group) (s : State) : (modGroup g f s).launches = s.launches := rfl
@[simp] theorem modGroup_homeq (g : Nat) (f : Group → Group) (s : State) : (modGroup g f s).homeq = s.homeq := rfl
@[simp] theorem modGroup_respq (g : Nat) (f : Group → Group) (s : State) : (modGroup g f s).respq = s.respq := rfl
@[simp] theorem modGroup_l1 (g : Nat) (f : Group → Group) (s : State) : (modGroup g f s).l1 = s.l1 := rfl
@[simp] theorem modGroup_icopies (g : Nat) (f : Group → Group) (s : State) : (modGroup g f s).icopies = s.icopies := rfl
@[simp] theorem modGroup_tlb (g : Nat) (f : Group → Group) (s : State) : (modGroup g f s).tlb = s.tlb := rfl
@[simp] theorem modGroup_resv (g : Nat) (f : Group → Group) (s : State) : (modGroup g f s).resv = s.resv := rfl
@[simp] theorem modGroup_tags (g : Nat) (f : Group → Group) (s : State) : (modGroup g f s).tags = s.tags := rfl
@[simp] theorem modGroup_l2 (g : Nat) (f : Group → Group) (s : State) : (modGroup g f s).l2 = s.l2 := rfl
@[simp] theorem modGroup_dir (g : Nat) (f : Group → Group) (s : State) : (modGroup g f s).dir = s.dir := rfl
@[simp] theorem modGroup_asking (g : Nat) (f : Group → Group) (s : State) : (modGroup g f s).asking = s.asking := rfl
@[simp] theorem modGroup_regions (g : Nat) (f : Group → Group) (s : State) : (modGroup g f s).regions = s.regions := rfl
@[simp] theorem modGroup_zeroing (g : Nat) (f : Group → Group) (s : State) : (modGroup g f s).zeroing = s.zeroing := rfl
@[simp] theorem modGroup_cmds (g : Nat) (f : Group → Group) (s : State) : (modGroup g f s).cmds = s.cmds := rfl
@[simp] theorem modGroup_steps (g : Nat) (f : Group → Group) (s : State) : (modGroup g f s).steps = s.steps := rfl
@[simp] theorem modGroup_fab (g : Nat) (f : Group → Group) (s : State) : (modGroup g f s).fab = s.fab := rfl
@[simp] theorem modGroup_lost (g : Nat) (f : Group → Group) (s : State) : (modGroup g f s).lost = s.lost := rfl
@[simp] theorem modGroup_mirrorq (g : Nat) (f : Group → Group) (s : State) : (modGroup g f s).mirrorq = s.mirrorq := rfl
@[simp] theorem modGroup_deferred (g : Nat) (f : Group → Group) (s : State) : (modGroup g f s).deferred = s.deferred := rfl
@[simp] theorem modGroup_late (g : Nat) (f : Group → Group) (s : State) : (modGroup g f s).late = s.late := rfl
@[simp] theorem modGroup_arrayTurn (g : Nat) (f : Group → Group) (s : State) : (modGroup g f s).arrayTurn = s.arrayTurn := rfl
@[simp] theorem modGroup_ctls (g : Nat) (f : Group → Group) (s : State) : (modGroup g f s).ctls = s.ctls := rfl
@[simp] theorem modGroup_layerStore (g : Nat) (f : Group → Group) (s : State) : (modGroup g f s).layerStore = s.layerStore := rfl
@[simp] theorem modGroup_written (g : Nat) (f : Group → Group) (s : State) : (modGroup g f s).written = s.written := rfl
@[simp] theorem modGroup_agenda (g : Nat) (f : Group → Group) (s : State) : (modGroup g f s).agenda = s.agenda := rfl
@[simp] theorem modGroup_bound (g : Nat) (f : Group → Group) (s : State) : (modGroup g f s).bound = s.bound := rfl
@[simp] theorem modGroup_cur (g : Nat) (f : Group → Group) (s : State) : (modGroup g f s).cur = s.cur := rfl
@[simp] theorem modGroup_free (g : Nat) (f : Group → Group) (s : State) : (modGroup g f s).free = s.free := rfl
@[simp] theorem modGroup_fresh (g : Nat) (f : Group → Group) (s : State) : (modGroup g f s).fresh = s.fresh := rfl

/-! ### modRank -/

@[simp] theorem modRank_clk (g r : Nat) (f : Rank → Rank) (s : State) : (modRank g r f s).clk = s.clk := rfl
@[simp] theorem modRank_aphase (g r : Nat) (f : Rank → Rank) (s : State) : (modRank g r f s).aphase = s.aphase := rfl
@[simp] theorem modRank_mem (g r : Nat) (f : Rank → Rank) (s : State) : (modRank g r f s).mem = s.mem := rfl
@[simp] theorem modRank_plat (g r : Nat) (f : Rank → Rank) (s : State) : (modRank g r f s).plat = s.plat := rfl
@[simp] theorem modRank_tabs (g r : Nat) (f : Rank → Rank) (s : State) : (modRank g r f s).tabs = s.tabs := rfl
@[simp] theorem modRank_slabs (g r : Nat) (f : Rank → Rank) (s : State) : (modRank g r f s).slabs = s.slabs := rfl
@[simp] theorem modRank_teams (g r : Nat) (f : Rank → Rank) (s : State) : (modRank g r f s).teams = s.teams := rfl
@[simp] theorem modRank_ctxs (g r : Nat) (f : Rank → Rank) (s : State) : (modRank g r f s).ctxs = s.ctxs := rfl
@[simp] theorem modRank_launches (g r : Nat) (f : Rank → Rank) (s : State) : (modRank g r f s).launches = s.launches := rfl
@[simp] theorem modRank_homeq (g r : Nat) (f : Rank → Rank) (s : State) : (modRank g r f s).homeq = s.homeq := rfl
@[simp] theorem modRank_respq (g r : Nat) (f : Rank → Rank) (s : State) : (modRank g r f s).respq = s.respq := rfl
@[simp] theorem modRank_l1 (g r : Nat) (f : Rank → Rank) (s : State) : (modRank g r f s).l1 = s.l1 := rfl
@[simp] theorem modRank_icopies (g r : Nat) (f : Rank → Rank) (s : State) : (modRank g r f s).icopies = s.icopies := rfl
@[simp] theorem modRank_tlb (g r : Nat) (f : Rank → Rank) (s : State) : (modRank g r f s).tlb = s.tlb := rfl
@[simp] theorem modRank_resv (g r : Nat) (f : Rank → Rank) (s : State) : (modRank g r f s).resv = s.resv := rfl
@[simp] theorem modRank_tags (g r : Nat) (f : Rank → Rank) (s : State) : (modRank g r f s).tags = s.tags := rfl
@[simp] theorem modRank_l2 (g r : Nat) (f : Rank → Rank) (s : State) : (modRank g r f s).l2 = s.l2 := rfl
@[simp] theorem modRank_dir (g r : Nat) (f : Rank → Rank) (s : State) : (modRank g r f s).dir = s.dir := rfl
@[simp] theorem modRank_asking (g r : Nat) (f : Rank → Rank) (s : State) : (modRank g r f s).asking = s.asking := rfl
@[simp] theorem modRank_regions (g r : Nat) (f : Rank → Rank) (s : State) : (modRank g r f s).regions = s.regions := rfl
@[simp] theorem modRank_zeroing (g r : Nat) (f : Rank → Rank) (s : State) : (modRank g r f s).zeroing = s.zeroing := rfl
@[simp] theorem modRank_cmds (g r : Nat) (f : Rank → Rank) (s : State) : (modRank g r f s).cmds = s.cmds := rfl
@[simp] theorem modRank_steps (g r : Nat) (f : Rank → Rank) (s : State) : (modRank g r f s).steps = s.steps := rfl
@[simp] theorem modRank_fab (g r : Nat) (f : Rank → Rank) (s : State) : (modRank g r f s).fab = s.fab := rfl
@[simp] theorem modRank_lost (g r : Nat) (f : Rank → Rank) (s : State) : (modRank g r f s).lost = s.lost := rfl
@[simp] theorem modRank_mirrorq (g r : Nat) (f : Rank → Rank) (s : State) : (modRank g r f s).mirrorq = s.mirrorq := rfl
@[simp] theorem modRank_deferred (g r : Nat) (f : Rank → Rank) (s : State) : (modRank g r f s).deferred = s.deferred := rfl
@[simp] theorem modRank_late (g r : Nat) (f : Rank → Rank) (s : State) : (modRank g r f s).late = s.late := rfl
@[simp] theorem modRank_arrayTurn (g r : Nat) (f : Rank → Rank) (s : State) : (modRank g r f s).arrayTurn = s.arrayTurn := rfl
@[simp] theorem modRank_ctls (g r : Nat) (f : Rank → Rank) (s : State) : (modRank g r f s).ctls = s.ctls := rfl
@[simp] theorem modRank_layerStore (g r : Nat) (f : Rank → Rank) (s : State) : (modRank g r f s).layerStore = s.layerStore := rfl
@[simp] theorem modRank_written (g r : Nat) (f : Rank → Rank) (s : State) : (modRank g r f s).written = s.written := rfl
@[simp] theorem modRank_agenda (g r : Nat) (f : Rank → Rank) (s : State) : (modRank g r f s).agenda = s.agenda := rfl
@[simp] theorem modRank_bound (g r : Nat) (f : Rank → Rank) (s : State) : (modRank g r f s).bound = s.bound := rfl
@[simp] theorem modRank_cur (g r : Nat) (f : Rank → Rank) (s : State) : (modRank g r f s).cur = s.cur := rfl
@[simp] theorem modRank_free (g r : Nat) (f : Rank → Rank) (s : State) : (modRank g r f s).free = s.free := rfl
@[simp] theorem modRank_fresh (g r : Nat) (f : Rank → Rank) (s : State) : (modRank g r f s).fresh = s.fresh := rfl

/-! ### modCtx -/

@[simp] theorem modCtx_clk (cid : Nat) (f : Ctx → Ctx) (s : State) : (modCtx cid f s).clk = s.clk := rfl
@[simp] theorem modCtx_aphase (cid : Nat) (f : Ctx → Ctx) (s : State) : (modCtx cid f s).aphase = s.aphase := rfl
@[simp] theorem modCtx_mem (cid : Nat) (f : Ctx → Ctx) (s : State) : (modCtx cid f s).mem = s.mem := rfl
@[simp] theorem modCtx_plat (cid : Nat) (f : Ctx → Ctx) (s : State) : (modCtx cid f s).plat = s.plat := rfl
@[simp] theorem modCtx_tabs (cid : Nat) (f : Ctx → Ctx) (s : State) : (modCtx cid f s).tabs = s.tabs := rfl
@[simp] theorem modCtx_groups (cid : Nat) (f : Ctx → Ctx) (s : State) : (modCtx cid f s).groups = s.groups := rfl
@[simp] theorem modCtx_slabs (cid : Nat) (f : Ctx → Ctx) (s : State) : (modCtx cid f s).slabs = s.slabs := rfl
@[simp] theorem modCtx_teams (cid : Nat) (f : Ctx → Ctx) (s : State) : (modCtx cid f s).teams = s.teams := rfl
@[simp] theorem modCtx_launches (cid : Nat) (f : Ctx → Ctx) (s : State) : (modCtx cid f s).launches = s.launches := rfl
@[simp] theorem modCtx_homeq (cid : Nat) (f : Ctx → Ctx) (s : State) : (modCtx cid f s).homeq = s.homeq := rfl
@[simp] theorem modCtx_respq (cid : Nat) (f : Ctx → Ctx) (s : State) : (modCtx cid f s).respq = s.respq := rfl
@[simp] theorem modCtx_l1 (cid : Nat) (f : Ctx → Ctx) (s : State) : (modCtx cid f s).l1 = s.l1 := rfl
@[simp] theorem modCtx_icopies (cid : Nat) (f : Ctx → Ctx) (s : State) : (modCtx cid f s).icopies = s.icopies := rfl
@[simp] theorem modCtx_tlb (cid : Nat) (f : Ctx → Ctx) (s : State) : (modCtx cid f s).tlb = s.tlb := rfl
@[simp] theorem modCtx_resv (cid : Nat) (f : Ctx → Ctx) (s : State) : (modCtx cid f s).resv = s.resv := rfl
@[simp] theorem modCtx_tags (cid : Nat) (f : Ctx → Ctx) (s : State) : (modCtx cid f s).tags = s.tags := rfl
@[simp] theorem modCtx_l2 (cid : Nat) (f : Ctx → Ctx) (s : State) : (modCtx cid f s).l2 = s.l2 := rfl
@[simp] theorem modCtx_dir (cid : Nat) (f : Ctx → Ctx) (s : State) : (modCtx cid f s).dir = s.dir := rfl
@[simp] theorem modCtx_asking (cid : Nat) (f : Ctx → Ctx) (s : State) : (modCtx cid f s).asking = s.asking := rfl
@[simp] theorem modCtx_regions (cid : Nat) (f : Ctx → Ctx) (s : State) : (modCtx cid f s).regions = s.regions := rfl
@[simp] theorem modCtx_zeroing (cid : Nat) (f : Ctx → Ctx) (s : State) : (modCtx cid f s).zeroing = s.zeroing := rfl
@[simp] theorem modCtx_cmds (cid : Nat) (f : Ctx → Ctx) (s : State) : (modCtx cid f s).cmds = s.cmds := rfl
@[simp] theorem modCtx_steps (cid : Nat) (f : Ctx → Ctx) (s : State) : (modCtx cid f s).steps = s.steps := rfl
@[simp] theorem modCtx_fab (cid : Nat) (f : Ctx → Ctx) (s : State) : (modCtx cid f s).fab = s.fab := rfl
@[simp] theorem modCtx_lost (cid : Nat) (f : Ctx → Ctx) (s : State) : (modCtx cid f s).lost = s.lost := rfl
@[simp] theorem modCtx_mirrorq (cid : Nat) (f : Ctx → Ctx) (s : State) : (modCtx cid f s).mirrorq = s.mirrorq := rfl
@[simp] theorem modCtx_deferred (cid : Nat) (f : Ctx → Ctx) (s : State) : (modCtx cid f s).deferred = s.deferred := rfl
@[simp] theorem modCtx_late (cid : Nat) (f : Ctx → Ctx) (s : State) : (modCtx cid f s).late = s.late := rfl
@[simp] theorem modCtx_arrayTurn (cid : Nat) (f : Ctx → Ctx) (s : State) : (modCtx cid f s).arrayTurn = s.arrayTurn := rfl
@[simp] theorem modCtx_ctls (cid : Nat) (f : Ctx → Ctx) (s : State) : (modCtx cid f s).ctls = s.ctls := rfl
@[simp] theorem modCtx_layerStore (cid : Nat) (f : Ctx → Ctx) (s : State) : (modCtx cid f s).layerStore = s.layerStore := rfl
@[simp] theorem modCtx_written (cid : Nat) (f : Ctx → Ctx) (s : State) : (modCtx cid f s).written = s.written := rfl
@[simp] theorem modCtx_agenda (cid : Nat) (f : Ctx → Ctx) (s : State) : (modCtx cid f s).agenda = s.agenda := rfl
@[simp] theorem modCtx_bound (cid : Nat) (f : Ctx → Ctx) (s : State) : (modCtx cid f s).bound = s.bound := rfl
@[simp] theorem modCtx_cur (cid : Nat) (f : Ctx → Ctx) (s : State) : (modCtx cid f s).cur = s.cur := rfl
@[simp] theorem modCtx_free (cid : Nat) (f : Ctx → Ctx) (s : State) : (modCtx cid f s).free = s.free := rfl
@[simp] theorem modCtx_fresh (cid : Nat) (f : Ctx → Ctx) (s : State) : (modCtx cid f s).fresh = s.fresh := rfl

/-! ### modLaunch -/

@[simp] theorem modLaunch_clk (l : Nat) (f : Launch → Launch) (s : State) : (modLaunch l f s).clk = s.clk := rfl
@[simp] theorem modLaunch_aphase (l : Nat) (f : Launch → Launch) (s : State) : (modLaunch l f s).aphase = s.aphase := rfl
@[simp] theorem modLaunch_mem (l : Nat) (f : Launch → Launch) (s : State) : (modLaunch l f s).mem = s.mem := rfl
@[simp] theorem modLaunch_plat (l : Nat) (f : Launch → Launch) (s : State) : (modLaunch l f s).plat = s.plat := rfl
@[simp] theorem modLaunch_tabs (l : Nat) (f : Launch → Launch) (s : State) : (modLaunch l f s).tabs = s.tabs := rfl
@[simp] theorem modLaunch_groups (l : Nat) (f : Launch → Launch) (s : State) : (modLaunch l f s).groups = s.groups := rfl
@[simp] theorem modLaunch_slabs (l : Nat) (f : Launch → Launch) (s : State) : (modLaunch l f s).slabs = s.slabs := rfl
@[simp] theorem modLaunch_teams (l : Nat) (f : Launch → Launch) (s : State) : (modLaunch l f s).teams = s.teams := rfl
@[simp] theorem modLaunch_ctxs (l : Nat) (f : Launch → Launch) (s : State) : (modLaunch l f s).ctxs = s.ctxs := rfl
@[simp] theorem modLaunch_homeq (l : Nat) (f : Launch → Launch) (s : State) : (modLaunch l f s).homeq = s.homeq := rfl
@[simp] theorem modLaunch_respq (l : Nat) (f : Launch → Launch) (s : State) : (modLaunch l f s).respq = s.respq := rfl
@[simp] theorem modLaunch_l1 (l : Nat) (f : Launch → Launch) (s : State) : (modLaunch l f s).l1 = s.l1 := rfl
@[simp] theorem modLaunch_icopies (l : Nat) (f : Launch → Launch) (s : State) : (modLaunch l f s).icopies = s.icopies := rfl
@[simp] theorem modLaunch_tlb (l : Nat) (f : Launch → Launch) (s : State) : (modLaunch l f s).tlb = s.tlb := rfl
@[simp] theorem modLaunch_resv (l : Nat) (f : Launch → Launch) (s : State) : (modLaunch l f s).resv = s.resv := rfl
@[simp] theorem modLaunch_tags (l : Nat) (f : Launch → Launch) (s : State) : (modLaunch l f s).tags = s.tags := rfl
@[simp] theorem modLaunch_l2 (l : Nat) (f : Launch → Launch) (s : State) : (modLaunch l f s).l2 = s.l2 := rfl
@[simp] theorem modLaunch_dir (l : Nat) (f : Launch → Launch) (s : State) : (modLaunch l f s).dir = s.dir := rfl
@[simp] theorem modLaunch_asking (l : Nat) (f : Launch → Launch) (s : State) : (modLaunch l f s).asking = s.asking := rfl
@[simp] theorem modLaunch_regions (l : Nat) (f : Launch → Launch) (s : State) : (modLaunch l f s).regions = s.regions := rfl
@[simp] theorem modLaunch_zeroing (l : Nat) (f : Launch → Launch) (s : State) : (modLaunch l f s).zeroing = s.zeroing := rfl
@[simp] theorem modLaunch_cmds (l : Nat) (f : Launch → Launch) (s : State) : (modLaunch l f s).cmds = s.cmds := rfl
@[simp] theorem modLaunch_steps (l : Nat) (f : Launch → Launch) (s : State) : (modLaunch l f s).steps = s.steps := rfl
@[simp] theorem modLaunch_fab (l : Nat) (f : Launch → Launch) (s : State) : (modLaunch l f s).fab = s.fab := rfl
@[simp] theorem modLaunch_lost (l : Nat) (f : Launch → Launch) (s : State) : (modLaunch l f s).lost = s.lost := rfl
@[simp] theorem modLaunch_mirrorq (l : Nat) (f : Launch → Launch) (s : State) : (modLaunch l f s).mirrorq = s.mirrorq := rfl
@[simp] theorem modLaunch_deferred (l : Nat) (f : Launch → Launch) (s : State) : (modLaunch l f s).deferred = s.deferred := rfl
@[simp] theorem modLaunch_late (l : Nat) (f : Launch → Launch) (s : State) : (modLaunch l f s).late = s.late := rfl
@[simp] theorem modLaunch_arrayTurn (l : Nat) (f : Launch → Launch) (s : State) : (modLaunch l f s).arrayTurn = s.arrayTurn := rfl
@[simp] theorem modLaunch_ctls (l : Nat) (f : Launch → Launch) (s : State) : (modLaunch l f s).ctls = s.ctls := rfl
@[simp] theorem modLaunch_layerStore (l : Nat) (f : Launch → Launch) (s : State) : (modLaunch l f s).layerStore = s.layerStore := rfl
@[simp] theorem modLaunch_written (l : Nat) (f : Launch → Launch) (s : State) : (modLaunch l f s).written = s.written := rfl
@[simp] theorem modLaunch_agenda (l : Nat) (f : Launch → Launch) (s : State) : (modLaunch l f s).agenda = s.agenda := rfl
@[simp] theorem modLaunch_bound (l : Nat) (f : Launch → Launch) (s : State) : (modLaunch l f s).bound = s.bound := rfl
@[simp] theorem modLaunch_cur (l : Nat) (f : Launch → Launch) (s : State) : (modLaunch l f s).cur = s.cur := rfl
@[simp] theorem modLaunch_free (l : Nat) (f : Launch → Launch) (s : State) : (modLaunch l f s).free = s.free := rfl
@[simp] theorem modLaunch_fresh (l : Nat) (f : Launch → Launch) (s : State) : (modLaunch l f s).fresh = s.fresh := rfl

/-! ### modCmd -/

@[simp] theorem modCmd_clk (k : Nat) (f : Cmd → Cmd) (s : State) : (modCmd k f s).clk = s.clk := rfl
@[simp] theorem modCmd_aphase (k : Nat) (f : Cmd → Cmd) (s : State) : (modCmd k f s).aphase = s.aphase := rfl
@[simp] theorem modCmd_mem (k : Nat) (f : Cmd → Cmd) (s : State) : (modCmd k f s).mem = s.mem := rfl
@[simp] theorem modCmd_plat (k : Nat) (f : Cmd → Cmd) (s : State) : (modCmd k f s).plat = s.plat := rfl
@[simp] theorem modCmd_tabs (k : Nat) (f : Cmd → Cmd) (s : State) : (modCmd k f s).tabs = s.tabs := rfl
@[simp] theorem modCmd_groups (k : Nat) (f : Cmd → Cmd) (s : State) : (modCmd k f s).groups = s.groups := rfl
@[simp] theorem modCmd_slabs (k : Nat) (f : Cmd → Cmd) (s : State) : (modCmd k f s).slabs = s.slabs := rfl
@[simp] theorem modCmd_teams (k : Nat) (f : Cmd → Cmd) (s : State) : (modCmd k f s).teams = s.teams := rfl
@[simp] theorem modCmd_ctxs (k : Nat) (f : Cmd → Cmd) (s : State) : (modCmd k f s).ctxs = s.ctxs := rfl
@[simp] theorem modCmd_launches (k : Nat) (f : Cmd → Cmd) (s : State) : (modCmd k f s).launches = s.launches := rfl
@[simp] theorem modCmd_homeq (k : Nat) (f : Cmd → Cmd) (s : State) : (modCmd k f s).homeq = s.homeq := rfl
@[simp] theorem modCmd_respq (k : Nat) (f : Cmd → Cmd) (s : State) : (modCmd k f s).respq = s.respq := rfl
@[simp] theorem modCmd_l1 (k : Nat) (f : Cmd → Cmd) (s : State) : (modCmd k f s).l1 = s.l1 := rfl
@[simp] theorem modCmd_icopies (k : Nat) (f : Cmd → Cmd) (s : State) : (modCmd k f s).icopies = s.icopies := rfl
@[simp] theorem modCmd_tlb (k : Nat) (f : Cmd → Cmd) (s : State) : (modCmd k f s).tlb = s.tlb := rfl
@[simp] theorem modCmd_resv (k : Nat) (f : Cmd → Cmd) (s : State) : (modCmd k f s).resv = s.resv := rfl
@[simp] theorem modCmd_tags (k : Nat) (f : Cmd → Cmd) (s : State) : (modCmd k f s).tags = s.tags := rfl
@[simp] theorem modCmd_l2 (k : Nat) (f : Cmd → Cmd) (s : State) : (modCmd k f s).l2 = s.l2 := rfl
@[simp] theorem modCmd_dir (k : Nat) (f : Cmd → Cmd) (s : State) : (modCmd k f s).dir = s.dir := rfl
@[simp] theorem modCmd_asking (k : Nat) (f : Cmd → Cmd) (s : State) : (modCmd k f s).asking = s.asking := rfl
@[simp] theorem modCmd_regions (k : Nat) (f : Cmd → Cmd) (s : State) : (modCmd k f s).regions = s.regions := rfl
@[simp] theorem modCmd_zeroing (k : Nat) (f : Cmd → Cmd) (s : State) : (modCmd k f s).zeroing = s.zeroing := rfl
@[simp] theorem modCmd_steps (k : Nat) (f : Cmd → Cmd) (s : State) : (modCmd k f s).steps = s.steps := rfl
@[simp] theorem modCmd_fab (k : Nat) (f : Cmd → Cmd) (s : State) : (modCmd k f s).fab = s.fab := rfl
@[simp] theorem modCmd_lost (k : Nat) (f : Cmd → Cmd) (s : State) : (modCmd k f s).lost = s.lost := rfl
@[simp] theorem modCmd_mirrorq (k : Nat) (f : Cmd → Cmd) (s : State) : (modCmd k f s).mirrorq = s.mirrorq := rfl
@[simp] theorem modCmd_deferred (k : Nat) (f : Cmd → Cmd) (s : State) : (modCmd k f s).deferred = s.deferred := rfl
@[simp] theorem modCmd_late (k : Nat) (f : Cmd → Cmd) (s : State) : (modCmd k f s).late = s.late := rfl
@[simp] theorem modCmd_arrayTurn (k : Nat) (f : Cmd → Cmd) (s : State) : (modCmd k f s).arrayTurn = s.arrayTurn := rfl
@[simp] theorem modCmd_ctls (k : Nat) (f : Cmd → Cmd) (s : State) : (modCmd k f s).ctls = s.ctls := rfl
@[simp] theorem modCmd_layerStore (k : Nat) (f : Cmd → Cmd) (s : State) : (modCmd k f s).layerStore = s.layerStore := rfl
@[simp] theorem modCmd_written (k : Nat) (f : Cmd → Cmd) (s : State) : (modCmd k f s).written = s.written := rfl
@[simp] theorem modCmd_agenda (k : Nat) (f : Cmd → Cmd) (s : State) : (modCmd k f s).agenda = s.agenda := rfl
@[simp] theorem modCmd_bound (k : Nat) (f : Cmd → Cmd) (s : State) : (modCmd k f s).bound = s.bound := rfl
@[simp] theorem modCmd_cur (k : Nat) (f : Cmd → Cmd) (s : State) : (modCmd k f s).cur = s.cur := rfl
@[simp] theorem modCmd_free (k : Nat) (f : Cmd → Cmd) (s : State) : (modCmd k f s).free = s.free := rfl
@[simp] theorem modCmd_fresh (k : Nat) (f : Cmd → Cmd) (s : State) : (modCmd k f s).fresh = s.fresh := rfl

/-! ### modPlat -/

@[simp] theorem modPlat_clk (f : Plat → Plat) (s : State) : (modPlat f s).clk = s.clk := rfl
@[simp] theorem modPlat_aphase (f : Plat → Plat) (s : State) : (modPlat f s).aphase = s.aphase := rfl
@[simp] theorem modPlat_plat (f : Plat → Plat) (s : State) : (modPlat f s).plat = f s.plat := rfl
@[simp] theorem modPlat_mem (f : Plat → Plat) (s : State) : (modPlat f s).mem = s.mem := rfl
@[simp] theorem modPlat_tabs (f : Plat → Plat) (s : State) : (modPlat f s).tabs = s.tabs := rfl
@[simp] theorem modPlat_groups (f : Plat → Plat) (s : State) : (modPlat f s).groups = s.groups := rfl
@[simp] theorem modPlat_slabs (f : Plat → Plat) (s : State) : (modPlat f s).slabs = s.slabs := rfl
@[simp] theorem modPlat_teams (f : Plat → Plat) (s : State) : (modPlat f s).teams = s.teams := rfl
@[simp] theorem modPlat_ctxs (f : Plat → Plat) (s : State) : (modPlat f s).ctxs = s.ctxs := rfl
@[simp] theorem modPlat_launches (f : Plat → Plat) (s : State) : (modPlat f s).launches = s.launches := rfl
@[simp] theorem modPlat_homeq (f : Plat → Plat) (s : State) : (modPlat f s).homeq = s.homeq := rfl
@[simp] theorem modPlat_respq (f : Plat → Plat) (s : State) : (modPlat f s).respq = s.respq := rfl
@[simp] theorem modPlat_l1 (f : Plat → Plat) (s : State) : (modPlat f s).l1 = s.l1 := rfl
@[simp] theorem modPlat_icopies (f : Plat → Plat) (s : State) : (modPlat f s).icopies = s.icopies := rfl
@[simp] theorem modPlat_tlb (f : Plat → Plat) (s : State) : (modPlat f s).tlb = s.tlb := rfl
@[simp] theorem modPlat_resv (f : Plat → Plat) (s : State) : (modPlat f s).resv = s.resv := rfl
@[simp] theorem modPlat_tags (f : Plat → Plat) (s : State) : (modPlat f s).tags = s.tags := rfl
@[simp] theorem modPlat_l2 (f : Plat → Plat) (s : State) : (modPlat f s).l2 = s.l2 := rfl
@[simp] theorem modPlat_dir (f : Plat → Plat) (s : State) : (modPlat f s).dir = s.dir := rfl
@[simp] theorem modPlat_asking (f : Plat → Plat) (s : State) : (modPlat f s).asking = s.asking := rfl
@[simp] theorem modPlat_regions (f : Plat → Plat) (s : State) : (modPlat f s).regions = s.regions := rfl
@[simp] theorem modPlat_zeroing (f : Plat → Plat) (s : State) : (modPlat f s).zeroing = s.zeroing := rfl
@[simp] theorem modPlat_cmds (f : Plat → Plat) (s : State) : (modPlat f s).cmds = s.cmds := rfl
@[simp] theorem modPlat_steps (f : Plat → Plat) (s : State) : (modPlat f s).steps = s.steps := rfl
@[simp] theorem modPlat_fab (f : Plat → Plat) (s : State) : (modPlat f s).fab = s.fab := rfl
@[simp] theorem modPlat_lost (f : Plat → Plat) (s : State) : (modPlat f s).lost = s.lost := rfl
@[simp] theorem modPlat_mirrorq (f : Plat → Plat) (s : State) : (modPlat f s).mirrorq = s.mirrorq := rfl
@[simp] theorem modPlat_deferred (f : Plat → Plat) (s : State) : (modPlat f s).deferred = s.deferred := rfl
@[simp] theorem modPlat_late (f : Plat → Plat) (s : State) : (modPlat f s).late = s.late := rfl
@[simp] theorem modPlat_arrayTurn (f : Plat → Plat) (s : State) : (modPlat f s).arrayTurn = s.arrayTurn := rfl
@[simp] theorem modPlat_ctls (f : Plat → Plat) (s : State) : (modPlat f s).ctls = s.ctls := rfl
@[simp] theorem modPlat_layerStore (f : Plat → Plat) (s : State) : (modPlat f s).layerStore = s.layerStore := rfl
@[simp] theorem modPlat_written (f : Plat → Plat) (s : State) : (modPlat f s).written = s.written := rfl
@[simp] theorem modPlat_agenda (f : Plat → Plat) (s : State) : (modPlat f s).agenda = s.agenda := rfl
@[simp] theorem modPlat_bound (f : Plat → Plat) (s : State) : (modPlat f s).bound = s.bound := rfl
@[simp] theorem modPlat_cur (f : Plat → Plat) (s : State) : (modPlat f s).cur = s.cur := rfl
@[simp] theorem modPlat_free (f : Plat → Plat) (s : State) : (modPlat f s).free = s.free := rfl
@[simp] theorem modPlat_fresh (f : Plat → Plat) (s : State) : (modPlat f s).fresh = s.fresh := rfl

/-! ### arith -/

@[simp] theorem arith_clk (n : Nat) (s : State) : (arith n s).clk = s.clk + (s.aphase + n * 1750) / s.plat.aclk := rfl
@[simp] theorem arith_aphase (n : Nat) (s : State) : (arith n s).aphase = (s.aphase + n * 1750) % s.plat.aclk := rfl
@[simp] theorem arith_mem (n : Nat) (s : State) : (arith n s).mem = s.mem := rfl
@[simp] theorem arith_plat (n : Nat) (s : State) : (arith n s).plat = s.plat := rfl
@[simp] theorem arith_tabs (n : Nat) (s : State) : (arith n s).tabs = s.tabs := rfl
@[simp] theorem arith_groups (n : Nat) (s : State) : (arith n s).groups = s.groups := rfl
@[simp] theorem arith_slabs (n : Nat) (s : State) : (arith n s).slabs = s.slabs := rfl
@[simp] theorem arith_teams (n : Nat) (s : State) : (arith n s).teams = s.teams := rfl
@[simp] theorem arith_ctxs (n : Nat) (s : State) : (arith n s).ctxs = s.ctxs := rfl
@[simp] theorem arith_launches (n : Nat) (s : State) : (arith n s).launches = s.launches := rfl
@[simp] theorem arith_homeq (n : Nat) (s : State) : (arith n s).homeq = s.homeq := rfl
@[simp] theorem arith_respq (n : Nat) (s : State) : (arith n s).respq = s.respq := rfl
@[simp] theorem arith_l1 (n : Nat) (s : State) : (arith n s).l1 = s.l1 := rfl
@[simp] theorem arith_icopies (n : Nat) (s : State) : (arith n s).icopies = s.icopies := rfl
@[simp] theorem arith_tlb (n : Nat) (s : State) : (arith n s).tlb = s.tlb := rfl
@[simp] theorem arith_resv (n : Nat) (s : State) : (arith n s).resv = s.resv := rfl
@[simp] theorem arith_tags (n : Nat) (s : State) : (arith n s).tags = s.tags := rfl
@[simp] theorem arith_l2 (n : Nat) (s : State) : (arith n s).l2 = s.l2 := rfl
@[simp] theorem arith_dir (n : Nat) (s : State) : (arith n s).dir = s.dir := rfl
@[simp] theorem arith_asking (n : Nat) (s : State) : (arith n s).asking = s.asking := rfl
@[simp] theorem arith_regions (n : Nat) (s : State) : (arith n s).regions = s.regions := rfl
@[simp] theorem arith_zeroing (n : Nat) (s : State) : (arith n s).zeroing = s.zeroing := rfl
@[simp] theorem arith_cmds (n : Nat) (s : State) : (arith n s).cmds = s.cmds := rfl
@[simp] theorem arith_steps (n : Nat) (s : State) : (arith n s).steps = s.steps := rfl
@[simp] theorem arith_fab (n : Nat) (s : State) : (arith n s).fab = s.fab := rfl
@[simp] theorem arith_lost (n : Nat) (s : State) : (arith n s).lost = s.lost := rfl
@[simp] theorem arith_mirrorq (n : Nat) (s : State) : (arith n s).mirrorq = s.mirrorq := rfl
@[simp] theorem arith_deferred (n : Nat) (s : State) : (arith n s).deferred = s.deferred := rfl
@[simp] theorem arith_late (n : Nat) (s : State) : (arith n s).late = s.late := rfl
@[simp] theorem arith_arrayTurn (n : Nat) (s : State) : (arith n s).arrayTurn = s.arrayTurn := rfl
@[simp] theorem arith_ctls (n : Nat) (s : State) : (arith n s).ctls = s.ctls := rfl
@[simp] theorem arith_layerStore (n : Nat) (s : State) : (arith n s).layerStore = s.layerStore := rfl
@[simp] theorem arith_written (n : Nat) (s : State) : (arith n s).written = s.written := rfl
@[simp] theorem arith_agenda (n : Nat) (s : State) : (arith n s).agenda = s.agenda := rfl
@[simp] theorem arith_bound (n : Nat) (s : State) : (arith n s).bound = s.bound := rfl
@[simp] theorem arith_cur (n : Nat) (s : State) : (arith n s).cur = s.cur := rfl
@[simp] theorem arith_free (n : Nat) (s : State) : (arith n s).free = s.free := rfl
@[simp] theorem arith_fresh (n : Nat) (s : State) : (arith n s).fresh = s.fresh := rfl

/-! ### tick -/

@[simp] theorem tick_clk (n : Nat) (s : State) : (tick n s).clk = s.clk + n := rfl
@[simp] theorem tick_aphase (n : Nat) (s : State) : (tick n s).aphase = s.aphase := rfl
@[simp] theorem tick_mem (n : Nat) (s : State) : (tick n s).mem = s.mem := rfl
@[simp] theorem tick_plat (n : Nat) (s : State) : (tick n s).plat = s.plat := rfl
@[simp] theorem tick_tabs (n : Nat) (s : State) : (tick n s).tabs = s.tabs := rfl
@[simp] theorem tick_groups (n : Nat) (s : State) : (tick n s).groups = s.groups := rfl
@[simp] theorem tick_slabs (n : Nat) (s : State) : (tick n s).slabs = s.slabs := rfl
@[simp] theorem tick_teams (n : Nat) (s : State) : (tick n s).teams = s.teams := rfl
@[simp] theorem tick_ctxs (n : Nat) (s : State) : (tick n s).ctxs = s.ctxs := rfl
@[simp] theorem tick_launches (n : Nat) (s : State) : (tick n s).launches = s.launches := rfl
@[simp] theorem tick_homeq (n : Nat) (s : State) : (tick n s).homeq = s.homeq := rfl
@[simp] theorem tick_respq (n : Nat) (s : State) : (tick n s).respq = s.respq := rfl
@[simp] theorem tick_l1 (n : Nat) (s : State) : (tick n s).l1 = s.l1 := rfl
@[simp] theorem tick_icopies (n : Nat) (s : State) : (tick n s).icopies = s.icopies := rfl
@[simp] theorem tick_tlb (n : Nat) (s : State) : (tick n s).tlb = s.tlb := rfl
@[simp] theorem tick_resv (n : Nat) (s : State) : (tick n s).resv = s.resv := rfl
@[simp] theorem tick_tags (n : Nat) (s : State) : (tick n s).tags = s.tags := rfl
@[simp] theorem tick_l2 (n : Nat) (s : State) : (tick n s).l2 = s.l2 := rfl
@[simp] theorem tick_dir (n : Nat) (s : State) : (tick n s).dir = s.dir := rfl
@[simp] theorem tick_asking (n : Nat) (s : State) : (tick n s).asking = s.asking := rfl
@[simp] theorem tick_regions (n : Nat) (s : State) : (tick n s).regions = s.regions := rfl
@[simp] theorem tick_zeroing (n : Nat) (s : State) : (tick n s).zeroing = s.zeroing := rfl
@[simp] theorem tick_cmds (n : Nat) (s : State) : (tick n s).cmds = s.cmds := rfl
@[simp] theorem tick_steps (n : Nat) (s : State) : (tick n s).steps = s.steps := rfl
@[simp] theorem tick_fab (n : Nat) (s : State) : (tick n s).fab = s.fab := rfl
@[simp] theorem tick_lost (n : Nat) (s : State) : (tick n s).lost = s.lost := rfl
@[simp] theorem tick_mirrorq (n : Nat) (s : State) : (tick n s).mirrorq = s.mirrorq := rfl
@[simp] theorem tick_deferred (n : Nat) (s : State) : (tick n s).deferred = s.deferred := rfl
@[simp] theorem tick_late (n : Nat) (s : State) : (tick n s).late = s.late := rfl
@[simp] theorem tick_arrayTurn (n : Nat) (s : State) : (tick n s).arrayTurn = s.arrayTurn := rfl
@[simp] theorem tick_ctls (n : Nat) (s : State) : (tick n s).ctls = s.ctls := rfl
@[simp] theorem tick_layerStore (n : Nat) (s : State) : (tick n s).layerStore = s.layerStore := rfl
@[simp] theorem tick_written (n : Nat) (s : State) : (tick n s).written = s.written := rfl
@[simp] theorem tick_agenda (n : Nat) (s : State) : (tick n s).agenda = s.agenda := rfl
@[simp] theorem tick_bound (n : Nat) (s : State) : (tick n s).bound = s.bound := rfl
@[simp] theorem tick_cur (n : Nat) (s : State) : (tick n s).cur = s.cur := rfl
@[simp] theorem tick_free (n : Nat) (s : State) : (tick n s).free = s.free := rfl
@[simp] theorem tick_fresh (n : Nat) (s : State) : (tick n s).fresh = s.fresh := rfl

/-! ### keep -/

@[simp] theorem keep_clk (s t : State) : (keep s t).clk = t.clk := rfl
@[simp] theorem keep_aphase (s t : State) : (keep s t).aphase = t.aphase := rfl
@[simp] theorem keep_mem (s t : State) : (keep s t).mem = t.mem := rfl
@[simp] theorem keep_plat (s t : State) : (keep s t).plat = s.plat := rfl
@[simp] theorem keep_tabs (s t : State) : (keep s t).tabs = s.tabs := rfl
@[simp] theorem keep_groups (s t : State) : (keep s t).groups = t.groups := rfl
@[simp] theorem keep_slabs (s t : State) : (keep s t).slabs = t.slabs := rfl
@[simp] theorem keep_teams (s t : State) : (keep s t).teams = t.teams := rfl
@[simp] theorem keep_ctxs (s t : State) : (keep s t).ctxs = t.ctxs := rfl
@[simp] theorem keep_launches (s t : State) : (keep s t).launches = t.launches := rfl
@[simp] theorem keep_homeq (s t : State) : (keep s t).homeq = t.homeq := rfl
@[simp] theorem keep_respq (s t : State) : (keep s t).respq = t.respq := rfl
@[simp] theorem keep_l1 (s t : State) : (keep s t).l1 = t.l1 := rfl
@[simp] theorem keep_icopies (s t : State) : (keep s t).icopies = t.icopies := rfl
@[simp] theorem keep_tlb (s t : State) : (keep s t).tlb = t.tlb := rfl
@[simp] theorem keep_resv (s t : State) : (keep s t).resv = t.resv := rfl
@[simp] theorem keep_tags (s t : State) : (keep s t).tags = t.tags := rfl
@[simp] theorem keep_l2 (s t : State) : (keep s t).l2 = t.l2 := rfl
@[simp] theorem keep_dir (s t : State) : (keep s t).dir = t.dir := rfl
@[simp] theorem keep_asking (s t : State) : (keep s t).asking = t.asking := rfl
@[simp] theorem keep_regions (s t : State) : (keep s t).regions = t.regions := rfl
@[simp] theorem keep_zeroing (s t : State) : (keep s t).zeroing = t.zeroing := rfl
@[simp] theorem keep_cmds (s t : State) : (keep s t).cmds = t.cmds := rfl
@[simp] theorem keep_steps (s t : State) : (keep s t).steps = t.steps := rfl
@[simp] theorem keep_fab (s t : State) : (keep s t).fab = t.fab := rfl
@[simp] theorem keep_lost (s t : State) : (keep s t).lost = t.lost := rfl
@[simp] theorem keep_mirrorq (s t : State) : (keep s t).mirrorq = t.mirrorq := rfl
@[simp] theorem keep_deferred (s t : State) : (keep s t).deferred = t.deferred := rfl
@[simp] theorem keep_late (s t : State) : (keep s t).late = t.late := rfl
@[simp] theorem keep_arrayTurn (s t : State) : (keep s t).arrayTurn = t.arrayTurn := rfl
@[simp] theorem keep_ctls (s t : State) : (keep s t).ctls = t.ctls := rfl
@[simp] theorem keep_layerStore (s t : State) : (keep s t).layerStore = t.layerStore := rfl
@[simp] theorem keep_written (s t : State) : (keep s t).written = t.written := rfl
@[simp] theorem keep_agenda (s t : State) : (keep s t).agenda = t.agenda := rfl
@[simp] theorem keep_bound (s t : State) : (keep s t).bound = t.bound := rfl
@[simp] theorem keep_cur (s t : State) : (keep s t).cur = t.cur := rfl
@[simp] theorem keep_free (s t : State) : (keep s t).free = t.free := rfl
@[simp] theorem keep_fresh (s t : State) : (keep s t).fresh = t.fresh := rfl

/-! ### keepPlat -/

@[simp] theorem keepPlat_clk (s t : State) : (keepPlat s t).clk = t.clk := rfl
@[simp] theorem keepPlat_aphase (s t : State) : (keepPlat s t).aphase = t.aphase := rfl
@[simp] theorem keepPlat_mem (s t : State) : (keepPlat s t).mem = t.mem := rfl
@[simp] theorem keepPlat_plat (s t : State) : (keepPlat s t).plat = s.plat := rfl
@[simp] theorem keepPlat_tabs (s t : State) : (keepPlat s t).tabs = t.tabs := rfl
@[simp] theorem keepPlat_groups (s t : State) : (keepPlat s t).groups = t.groups := rfl
@[simp] theorem keepPlat_slabs (s t : State) : (keepPlat s t).slabs = t.slabs := rfl
@[simp] theorem keepPlat_teams (s t : State) : (keepPlat s t).teams = t.teams := rfl
@[simp] theorem keepPlat_ctxs (s t : State) : (keepPlat s t).ctxs = t.ctxs := rfl
@[simp] theorem keepPlat_launches (s t : State) : (keepPlat s t).launches = t.launches := rfl
@[simp] theorem keepPlat_homeq (s t : State) : (keepPlat s t).homeq = t.homeq := rfl
@[simp] theorem keepPlat_respq (s t : State) : (keepPlat s t).respq = t.respq := rfl
@[simp] theorem keepPlat_l1 (s t : State) : (keepPlat s t).l1 = t.l1 := rfl
@[simp] theorem keepPlat_icopies (s t : State) : (keepPlat s t).icopies = t.icopies := rfl
@[simp] theorem keepPlat_tlb (s t : State) : (keepPlat s t).tlb = t.tlb := rfl
@[simp] theorem keepPlat_resv (s t : State) : (keepPlat s t).resv = t.resv := rfl
@[simp] theorem keepPlat_tags (s t : State) : (keepPlat s t).tags = t.tags := rfl
@[simp] theorem keepPlat_l2 (s t : State) : (keepPlat s t).l2 = t.l2 := rfl
@[simp] theorem keepPlat_dir (s t : State) : (keepPlat s t).dir = t.dir := rfl
@[simp] theorem keepPlat_asking (s t : State) : (keepPlat s t).asking = t.asking := rfl
@[simp] theorem keepPlat_regions (s t : State) : (keepPlat s t).regions = t.regions := rfl
@[simp] theorem keepPlat_zeroing (s t : State) : (keepPlat s t).zeroing = t.zeroing := rfl
@[simp] theorem keepPlat_cmds (s t : State) : (keepPlat s t).cmds = t.cmds := rfl
@[simp] theorem keepPlat_steps (s t : State) : (keepPlat s t).steps = t.steps := rfl
@[simp] theorem keepPlat_fab (s t : State) : (keepPlat s t).fab = t.fab := rfl
@[simp] theorem keepPlat_lost (s t : State) : (keepPlat s t).lost = t.lost := rfl
@[simp] theorem keepPlat_mirrorq (s t : State) : (keepPlat s t).mirrorq = t.mirrorq := rfl
@[simp] theorem keepPlat_deferred (s t : State) : (keepPlat s t).deferred = t.deferred := rfl
@[simp] theorem keepPlat_late (s t : State) : (keepPlat s t).late = t.late := rfl
@[simp] theorem keepPlat_arrayTurn (s t : State) : (keepPlat s t).arrayTurn = t.arrayTurn := rfl
@[simp] theorem keepPlat_ctls (s t : State) : (keepPlat s t).ctls = t.ctls := rfl
@[simp] theorem keepPlat_layerStore (s t : State) : (keepPlat s t).layerStore = t.layerStore := rfl
@[simp] theorem keepPlat_written (s t : State) : (keepPlat s t).written = t.written := rfl
@[simp] theorem keepPlat_agenda (s t : State) : (keepPlat s t).agenda = t.agenda := rfl
@[simp] theorem keepPlat_bound (s t : State) : (keepPlat s t).bound = t.bound := rfl
@[simp] theorem keepPlat_cur (s t : State) : (keepPlat s t).cur = t.cur := rfl
@[simp] theorem keepPlat_free (s t : State) : (keepPlat s t).free = t.free := rfl
@[simp] theorem keepPlat_fresh (s t : State) : (keepPlat s t).fresh = t.fresh := rfl

end Sys2Proof.Laws
end

