-- ==== Sys2Proof/Laws/Words.lean ====
section
/-! SUPPORT. What the shared operations of thread code do: the issuing rank, and how a pass ends. -/

set_option linter.unusedSimpArgs false

namespace Sys2Proof.Laws

open Sys2Proof Sys2Proof.Machine

/-! ### Masks -/

theorem maskOf_fold (f : Nat → Bool) (l : List Nat) (hl : ∀ t ∈ l, t < 32) (m : Mask) (i : Nat) :
    (l.foldl (fun m t => if f t then m ||| (1#32 <<< t) else m) m).getLsbD i = (m.getLsbD i || (decide (i ∈ l) && f i)) := by
  induction l generalizing m with
  | nil => simp
  | cons a l ih =>
    simp only [List.foldl_cons]
    rw [ih (fun t ht => hl t (List.mem_cons_of_mem _ ht))]
    have ha : a < 32 := hl a (List.mem_cons_self ..)
    by_cases hf : f a
    · simp only [hf, if_true, BitVec.getLsbD_or, BitVec.getLsbD_shiftLeft, List.mem_cons]
      by_cases hi : i = a
      · subst hi; simp [hf, ha]
      · have h1 : (1#32).getLsbD (i - a) = decide (i - a = 0) := by simp [BitVec.getLsbD_one]
        by_cases h2 : i < a
        · simp [hi, h2]
        · have : i - a ≠ 0 := by omega
          simp [hi, h1, this]
    · by_cases hi : i = a
      · subst hi; simp [hf]
      · simp [hf, hi]

@[simp] theorem maskOf_get (f : Nat → Bool) (i : Nat) : (maskOf f).getLsbD i = (decide (i < 32) && f i) := by
  unfold maskOf
  rw [maskOf_fold f _ (by simp)]
  simp

theorem mask_ext {a b : Mask} (h : ∀ i, i < 32 → a.getLsbD i = b.getLsbD i) : a = b := BitVec.eq_of_getLsbD_eq (by simpa using h)

theorem mem_threadsOf (m : Mask) (t : Nat) : t ∈ threadsOf m ↔ t < 32 ∧ m.getLsbD t = true := by simp [threadsOf]

theorem threadsOf_ne_nil {m : Mask} (h : m ≠ 0) : threadsOf m ≠ [] := by
  intro hn
  apply h
  apply mask_ext
  intro i hi
  by_contra hc
  have : i ∈ threadsOf m := (mem_threadsOf m i).mpr ⟨hi, by simpa using hc⟩
  simp [hn] at this

/-! ### Groups and ranks -/

theorem group_modGroup (g g' : Nat) (f : Group → Group) (s : State) :
    group? (modGroup g f s) g' = if g' = g then (group? s g').map f else group? s g' := by
  simp [group?, modGroup, sget_smod]

theorem rank_modGroup (g g' r : Nat) (f : Group → Group) (s : State) :
    rank? (modGroup g f s) g' r = if g' = g then (group? s g').bind fun x => (f x).ranks[r]? else rank? s g' r := by
  unfold rank?
  rw [group_modGroup]
  split
  · cases group? s g' <;> rfl
  · rfl

theorem rank_modRank (g r g' r' : Nat) (f : Rank → Rank) (s : State) :
    rank? (modRank g r f s) g' r' = if g' = g ∧ r' = r then (rank? s g' r').map f else rank? s g' r' := by
  unfold modRank
  rw [rank_modGroup]
  by_cases h : g' = g
  · subst h
    simp only [true_and, if_true]
    unfold rank?
    cases group? s g' with
    | none => simp
    | some x => simp [modAt_get]
  · simp [h]

@[simp] theorem rank_modRank_same (g r : Nat) (f : Rank → Rank) (s : State) :
    rank? (modRank g r f s) g r = (rank? s g r).map f := by simp [rank_modRank]

theorem group_modRank (g r g' : Nat) (f : Rank → Rank) (s : State) :
    group? (modRank g r f s) g' = if g' = g then (group? s g').map (fun x => { x with ranks := modAt x.ranks r f }) else group? s g' := by
  unfold modRank
  exact group_modGroup ..

@[simp] theorem rank_modCtx (c : Nat) (f : Ctx → Ctx) (s : State) (g r : Nat) : rank? (modCtx c f s) g r = rank? s g r := rfl
@[simp] theorem group_modCtx (c : Nat) (f : Ctx → Ctx) (s : State) (g : Nat) : group? (modCtx c f s) g = group? s g := rfl
@[simp] theorem rank_tick (n : Nat) (s : State) (g r : Nat) : rank? (tick n s) g r = rank? s g r := rfl
@[simp] theorem rank_arith (n : Nat) (s : State) (g r : Nat) : rank? (arith n s) g r = rank? s g r := rfl
@[simp] theorem group_arith (n : Nat) (s : State) (g : Nat) : group? (arith n s) g = group? s g := rfl
@[simp] theorem group_tick (n : Nat) (s : State) (g : Nat) : group? (tick n s) g = group? s g := rfl
@[simp] theorem rank_keep (s t : State) (g r : Nat) : rank? (keep s t) g r = rank? t g r := rfl
@[simp] theorem group_keep (s t : State) (g : Nat) : group? (keep s t) g = group? t g := rfl

/-! ### SameOutside -/

theorem same_refl (g r : Nat) (s : State) : SameOutside g r s s := ⟨rfl, rfl, fun _ => rfl, fun _ _ _ => rfl⟩

theorem same_trans {g r : Nat} {s t u : State} (h1 : SameOutside g r s t) (h2 : SameOutside g r t u) : SameOutside g r s u :=
  ⟨h2.rest.trans h1.rest, h2.ctxs.trans h1.ctxs, fun g' => (h2.groups g').trans (h1.groups g'),
   fun g' r' h => (h2.ranks g' r' h).trans (h1.ranks g' r' h)⟩

theorem same_modRank (g r : Nat) (f : Rank → Rank) (s : State) : SameOutside g r s (modRank g r f s) := by
  refine ⟨rfl, rfl, ?_, ?_⟩
  · intro g'
    rw [group_modRank]
    split <;> cases group? s g' <;> simp
  · intro g' r' h
    rw [rank_modRank]
    split
    · rename_i h1
      exact absurd (Prod.ext_iff.mpr h1) h
    · rfl

theorem same_modCtx (g r c : Nat) (f : Ctx → Ctx) (h : ∀ x, (f x).noEnergy = x.noEnergy) (s : State) : SameOutside g r s (modCtx c f s) :=
  ⟨rfl, smod_map c f _ h _, fun _ => rfl, fun _ _ _ => rfl⟩

theorem same_charge (g r c n : Nat) (s : State) : SameOutside g r s (charge c n s) := by
  apply same_modCtx
  intro x
  split
  · rfl
  · split <;> rfl

@[simp] theorem rank_charge (c n : Nat) (s : State) (g r : Nat) : rank? (charge c n s) g r = rank? s g r := rfl

theorem same_arith (g r n : Nat) (s : State) : SameOutside g r s (arith n s) := ⟨rfl, rfl, fun _ => rfl, fun _ _ _ => rfl⟩

theorem same_tick (g r n : Nat) (s : State) : SameOutside g r s (tick n s) := ⟨rfl, rfl, fun _ => rfl, fun _ _ _ => rfl⟩

theorem same_keep {g r : Nat} {s t : State} (h : SameOutside g r s t) : SameOutside g r s (keep s t) := by
  refine ⟨?_, h.ctxs, h.groups, h.ranks⟩
  have := h.rest
  simp only [keep]
  have hp := congrArg State.plat this
  have ht := congrArg State.tabs this
  simp only at hp ht
  rw [← this]
  simp [hp, ht]

/-! ### Time -/

/-- Every group's ranks changed, each by a function that may look at its group. -/
def mapRanks (older : Nat × Group → Rank → Rank) (s : State) : State :=
  { s with groups := s.groups.map fun e => (e.1, { e.2 with ranks := e.2.ranks.map (older e) }) }

theorem sget_mapRanks (older : Nat × Group → Rank → Rank) (g : Nat) (m : Sparse Group) :
    sget g (m.map fun e => (e.1, { e.2 with ranks := e.2.ranks.map (older e) })) =
      (sget g m).map fun x => { x with ranks := x.ranks.map (older (g, x)) } := by
  induction m with
  | nil => rfl
  | cons e m ih =>
    simp only [List.map_cons, sget]
    split
    · rename_i h; subst h; rfl
    · split
      · rfl
      · exact ih

theorem rank_mapRanks (older : Nat × Group → Rank → Rank) (s : State) (g r : Nat) :
    rank? (mapRanks older s) g r = (group? s g).bind fun x => (x.ranks[r]?).map (older (g, x)) := by
  simp only [rank?, group?, mapRanks, sget_mapRanks]
  cases sget g s.groups <;> simp

theorem mapRanks_spec (g r : Nat) (older : Nat × Group → Rank → Rank) (h : ∀ e k, ∃ v, older e k = { k with starve := v }) (s : State) :
    SameOutside g r s (mapRanks older s) ∧
    ∀ k, rank? s g r = some k → ∃ v, rank? (mapRanks older s) g r = some { k with starve := v } := by
  refine ⟨⟨rfl, rfl, ?_, ?_⟩, ?_⟩
  · intro g'
    simp only [group?, mapRanks, sget_mapRanks]
    cases sget g' s.groups <;> simp
  · intro g' r' _
    rw [rank_mapRanks]
    unfold rank?
    cases group? s g' with
    | none => rfl
    | some x =>
      simp only [Option.bind_some]
      cases x.ranks[r']? with
      | none => rfl
      | some k =>
        obtain ⟨v, hv⟩ := h (g', x) k
        simp [hv, Rank.noStarve]
  · intro k hk
    rw [rank_mapRanks]
    unfold rank? at hk
    cases hg : group? s g with
    | none => simp [hg] at hk
    | some x =>
      simp only [hg, Option.bind_some] at hk
      obtain ⟨v, hv⟩ := h (g, x) k
      exact ⟨v, by simp [hk, hv]⟩

/-- A pass changes of every rank only how long it has waited. -/
theorem passCycles_spec (g r n : Nat) (s : State) :
    SameOutside g r s (passCycles g r n s) ∧
    ∀ k, rank? s g r = some k → ∃ v, rank? (passCycles g r n s) g r = some { k with starve := v } := by
  unfold passCycles
  split
  · exact ⟨same_refl .., fun k hk => ⟨k.starve, hk⟩⟩
  · rename_i ln _
    have := mapRanks_spec g r (fun e k => if laneOf e.2 k = ln ∧ ¬(e.1 = g ∧ k.idx = r) ∧ k.st = .ready ∧ ¬e.2.frozen then
      { k with starve := k.starve + n } else k) (fun e k => by
        split
        · exact ⟨_, rfl⟩
        · exact ⟨k.starve, rfl⟩) s
    exact ⟨same_trans this.1 (same_arith ..), this.2⟩

/-! ### The issuing rank -/

theorem issuing_spec {s : State} {c : Ctl} {u : Iss} (h : issuing s c = some u) :
    s.cur = some (.rank u.g u.r) ∧ group? s u.g = some u.x ∧ rank? s u.g u.r = some u.k ∧ ctx? s u.x.ctx = some u.c ∧
    u.k.st = .issuing ∧ u.k.pathOk = true ∧ u.pc = pathPc u.k u.k.active ∧ u.active = u.k.active ∧
    u.ex = u.k.active &&& guardMask u.k c := by
  unfold issuing at h
  split at h
  · rename_i g r hc
    split at h
    · rename_i x k hx hk
      split at h
      · rename_i cx hcx
        split at h
        · rename_i hs
          simp only [Option.some.injEq] at h
          subst h
          exact ⟨hc, hx, hk, hcx, hs.1, hs.2, rfl, rfl, rfl⟩
        · simp at h
      · simp at h
    · simp at h
  · simp at h

theorem pathOk_spec {k : Rank} (h : k.pathOk = true) :
    k.threads.length = 32 ∧ k.active ≠ 0 ∧ (∀ t, k.active.getLsbD t = true → t < 32 ∧ (k.thread t).exited = false ∧
      (k.thread t).parked = false ∧ (k.thread t).pc = pathPc k k.active) := by
  simp only [Rank.pathOk, Bool.and_eq_true, beq_iff_eq, bne_iff_ne, List.all_eq_true] at h
  obtain ⟨⟨⟨h1, h2⟩, h3⟩, h4⟩ := h
  refine ⟨h1, h2, ?_⟩
  intro t ht
  have hlt : t < 32 := BitVec.lt_of_getLsbD ht
  have hs : (k.active &&& k.standing).getLsbD t = true := by rw [h3]; exact ht
  rw [BitVec.getLsbD_and, ht, Bool.true_and, Rank.standing, maskOf_get] at hs
  simp only [hlt, decide_true, Bool.true_and, Bool.and_eq_true, Bool.not_eq_true'] at hs
  exact ⟨hlt, hs.1, hs.2, h4 t ((mem_threadsOf _ _).mpr ⟨hlt, ht⟩)⟩

/-! ### How a pass ends -/

theorem thread_of_map (k : Rank) (f : Nat → Thread) (n : Nat) (ts : List Thread) (h : ts = (List.range n).map f) (t : Nat) (ht : t < n) :
    ({ k with threads := ts } : Rank).thread t = f t := by
  subst h
  simp [Rank.thread, List.getD_eq_getElem?_getD, ht]

theorem thread_congr {k k' : Rank} (h : k'.threads = k.threads) (t : Nat) : k'.thread t = k.thread t := by simp [Rank.thread, h]

theorem settleRank_running (g r : Nat) (s : State) (k : Rank) (hk : rank? s g r = some k) (t : Nat) (ht : t < 32)
    (he : (k.thread t).exited = false) (hp : (k.thread t).parked = false) : settleRank g r s = s := by
  unfold settleRank
  rw [hk]
  have h1 : k.allExited = false := by
    simp only [Rank.allExited, beq_eq_false_iff_ne, ne_eq]
    intro h
    have := congrArg (fun m : Mask => BitVec.getLsbD m t) h
    rw [Rank.exitedMask, maskOf_get, he, BitVec.getLsbD_allOnes] at this
    simp [ht] at this
  have h2 : k.standing ≠ 0 := by
    intro h
    have := congrArg (fun m : Mask => BitVec.getLsbD m t) h
    rw [Rank.standing, maskOf_get, he, hp] at this
    simp [ht] at this
  simp only [h1, Bool.false_eq_true, if_false, h2]

/-- The end of a ply changes of its rank only the ply. -/
theorem endPly_spec (g r : Nat) (st : RankState) (s : State) (k : Rank) (hk : rank? s g r = some k) :
    SameOutside g r s (endPly g r st s) ∧
    ∃ k', rank? (endPly g r st s) g r = some k' ∧ k'.noPly = k.noPly ∧ k'.threads = k.threads := by
  have h : ∀ f : Rank → Rank, SameOutside g r s { modRank g r f s with resv := (modRank g r f s).resv.filter (fun v => !(v.group == g && v.rank == r) || scOnWay s v), cur := if (modRank g r f s).cur == some (.rank g r) then none else (modRank g r f s).cur } := fun f =>
    ⟨(same_modRank g r f s).rest, (same_modRank g r f s).ctxs, (same_modRank g r f s).groups, (same_modRank g r f s).ranks⟩
  refine ⟨h _, ?_⟩
  have : ∀ f : Rank → Rank, rank? { modRank g r f s with resv := (modRank g r f s).resv.filter (fun v => !(v.group == g && v.rank == r) || scOnWay s v), cur := if (modRank g r f s).cur == some (.rank g r) then none else (modRank g r f s).cur } g r = some (f k) := fun f => by
    have := rank_modRank_same g r f s
    rw [hk] at this
    exact this
  exact ⟨_, this _, rfl, rfl⟩

/-- The end of a pass of a rank that keeps a standing thread on its path changes of it only the ply. -/
theorem closePass_spec (c : Ctl) (ends : Bool) (u : Iss) (s : State) (k : Rank) (hk : rank? s u.g u.r = some k) (t : Nat)
    (ht : t < 32) (he : (k.thread t).exited = false) (hp : (k.thread t).parked = false) :
    SameOutside u.g u.r s (closePass c ends u s) ∧
    ∃ k', rank? (closePass c ends u s) u.g u.r = some k' ∧ k'.noPly = k.noPly ∧ k'.threads = k.threads := by
  unfold closePass
  rw [hk]
  have hn : ∃ n, n = if plyOver c ends u k then 16 else 16 + c.dly.toNat := ⟨_, rfl⟩
  obtain ⟨n, hn⟩ := hn
  have hpass := passCycles_spec u.g u.r n s
  obtain ⟨v, hv⟩ := hpass.2 k hk
  simp only [← hn]
  split
  · exact ⟨hpass.1, _, hv, rfl, rfl⟩
  · split
    · obtain ⟨hse, k2, hk2, ha, hth⟩ := endPly_spec u.g u.r (afterPly k) _ _ hv
      rw [settleRank_running u.g u.r _ _ hk2 t ht (by rw [thread_congr hth]; exact he) (by rw [thread_congr hth]; exact hp)]
      exact ⟨same_trans hpass.1 hse, k2, hk2, ha, hth⟩
    · refine ⟨same_trans hpass.1 (same_modRank ..), ?_⟩
      rw [rank_modRank_same, hv]
      exact ⟨_, rfl, rfl, rfl⟩

theorem charged_spec (u : Iss) (w : IWord) (s : State) (k : Rank) (hk : rank? s u.g u.r = some k) :
    SameOutside u.g u.r s (charged u w s) ∧ ∃ b, rank? (charged u w s) u.g u.r = some { k with plyClean := b } := by
  refine ⟨same_trans (same_charge ..) (same_modRank ..), ?_⟩
  unfold charged
  rw [rank_modRank_same, rank_charge, hk]
  exact ⟨_, rfl⟩

/-- A pass whose executing threads go somewhere and stand there: the path's end. -/
theorem goTo_after (c : Ctl) (ends : Bool) (w : IWord) (target : Nat → Long) (change : Thread → Thread) (u : Iss) (s : State) (cc : Ctl)
    (hi : issuing s cc = some u) (hx : ∀ x, (change x).exited = x.exited) (hpk : ∀ x, (change x).parked = x.parked) :
    AfterPath (fun t x => { change x with pc := target t }) u s (closePass c ends u (goTo u target change (charged u w s))) := by
  obtain ⟨-, -, hk, -, -, hpath, -, ha, hex⟩ := issuing_spec hi
  obtain ⟨hlen, hne, hall⟩ := pathOk_spec hpath
  obtain ⟨t0, ht0⟩ := List.exists_mem_of_ne_nil _ (threadsOf_ne_nil hne)
  rw [mem_threadsOf] at ht0
  obtain ⟨hlt0, he0, hp0, _⟩ := hall t0 ht0.2
  obtain ⟨hc1, b, hb⟩ := charged_spec u w s u.k hk
  obtain ⟨k2, hk2, hth, hno⟩ : ∃ k2, rank? (goTo u target change (charged u w s)) u.g u.r = some k2 ∧
      k2.threads = rowsAfter u (fun t x => { change x with pc := target t }) u.k ∧ k2.noPly = u.k.noPly := by
    unfold goTo
    rw [rank_modRank_same, hb]
    exact ⟨_, rfl, rfl, rfl⟩
  have h2 : k2.thread t0 = (if u.ex.getLsbD t0 then { change (u.k.thread t0) with pc := target t0 }
      else if u.active.getLsbD t0 then { u.k.thread t0 with pc := ptrAdd u.pc 12 } else u.k.thread t0) := by
    rw [show k2.thread t0 = ({ u.k with threads := k2.threads } : Rank).thread t0 from rfl]
    exact thread_of_map u.k _ u.k.threads.length _ hth t0 (by rw [hlen]; exact hlt0)
  have hend := closePass_spec c ends u _ k2 hk2 t0 hlt0
    (by rw [h2]; split; · exact (hx _).trans he0
        split <;> exact he0)
    (by rw [h2]; split; · exact (hpk _).trans hp0
        split <;> exact hp0)
  obtain ⟨hs, k3, hk3, hn3, ht3⟩ := hend
  exact ⟨⟨u.k, k3, hk, hk3, hn3.trans hno, ht3.trans hth⟩, same_trans hc1 (same_trans (same_modRank ..) hs)⟩

/-- The end of an instruction that does not move its threads by itself: every active thread stands at the next word. The effect may
have moved threads that are not on the path (releases of parked threads). -/
theorem finish_after' {c cc : Ctl} {w : IWord} {u : Iss} {s0 s : State} {k : Rank} (hi : issuing s0 cc = some u)
    (hk : rank? s u.g u.r = some k) (hlen' : k.threads.length = u.k.threads.length)
    (hth : ∀ t, u.k.active.getLsbD t = true → k.thread t = u.k.thread t) : AfterWord u s (finish c w u s) := by
  obtain ⟨-, -, -, -, -, hpath, hpc, ha, hex⟩ := issuing_spec hi
  obtain ⟨hlen, hne, hall⟩ := pathOk_spec hpath
  obtain ⟨t0, ht0⟩ := List.exists_mem_of_ne_nil _ (threadsOf_ne_nil hne)
  rw [mem_threadsOf] at ht0
  obtain ⟨hlt0, he0, hp0, _⟩ := hall t0 ht0.2
  obtain ⟨hc1, b, hb⟩ := charged_spec u w s k hk
  have hrows : ((List.range k.threads.length).map fun t =>
      if u.active.getLsbD t && !(k.thread t).exited && (k.thread t).pc == u.pc then { k.thread t with pc := ptrAdd u.pc 12 } else k.thread t) =
      rowsAfter u (fun _ x => { x with pc := ptrAdd u.pc 12 }) k := by
    unfold rowsAfter
    apply List.map_congr_left
    intro t _
    by_cases hact : u.active.getLsbD t = true
    · have hact' : u.k.active.getLsbD t = true := by rw [← ha]; exact hact
      obtain ⟨hl, he, hp, hpct⟩ := hall t hact'
      rw [hth t hact']
      simp [hact, he, hpct, hpc]
    · have hx : u.ex.getLsbD t = false := by
        have : u.active.getLsbD t = false := by simpa using hact
        rw [hex, ← ha, BitVec.getLsbD_and, this, Bool.false_and]
      simp only [Bool.not_eq_true] at hact
      rw [hact, hx]
      rfl
  obtain ⟨k2, hk2, hth2, hno2⟩ : ∃ k2, rank? (advancePcs u (charged u w s)) u.g u.r = some k2 ∧
      k2.threads = rowsAfter u (fun _ x => { x with pc := ptrAdd u.pc 12 }) k ∧ k2.noPly = k.noPly := by
    unfold advancePcs
    rw [rank_modRank_same, hb]
    exact ⟨_, rfl, hrows, rfl⟩
  have h2 : k2.thread t0 = { u.k.thread t0 with pc := ptrAdd u.pc 12 } := by
    rw [show k2.thread t0 = ({ k with threads := k2.threads } : Rank).thread t0 from rfl,
      thread_of_map k _ k.threads.length _ hth2 t0 (by rw [hlen', hlen]; exact hlt0), hth t0 ht0.2]
    have : u.active.getLsbD t0 = true := by rw [ha]; exact ht0.2
    rw [this]
    simp
  obtain ⟨hs, k3, hk3, hn3, ht3⟩ := closePass_spec c false u _ k2 hk2 t0 hlt0 (by rw [h2]; exact he0) (by rw [h2]; exact hp0)
  exact ⟨⟨k, k3, hk, hk3, hn3.trans hno2, ht3.trans hth2⟩, same_trans hc1 (same_trans (same_modRank ..) hs)⟩

theorem finish_after {c cc : Ctl} {w : IWord} {u : Iss} {s0 s : State} {k : Rank} (hi : issuing s0 cc = some u)
    (hk : rank? s u.g u.r = some k) (hth : k.threads = u.k.threads) : AfterWord u s (finish c w u s) :=
  finish_after' hi hk (congrArg List.length hth) fun t _ => thread_congr hth t

/-- What goes through keep is still the state after the pass. -/
theorem after_keep {go : Nat → Thread → Thread} {u : Iss} {s0 s t : State} (hp : s.plat = s0.plat) (ht : s.tabs = s0.tabs)
    (h : AfterPath go u s t) : AfterPath go u s (keep s0 t) := by
  have : keep s0 t = keep s t := by simp [keep, hp, ht]
  rw [this]
  exact ⟨by simpa using h.rank, same_keep h.rest⟩

/-! ### Words -/

theorem asRank_next {i : Instr} {c : Ctl} {f : Iss → State → State} {s : State} {u : Iss} (h : issuing s c = some u)
    (hh : hurdle s u i = none) : asRank i c f s = .next (keep s (f u s)) := by
  unfold asRank
  simp [h, hh]

/-- A write of a destination leaves everything but the registers. -/
theorem writeOpnd_frame (ty : Ty) (o : Opnd) (t x : Nat) (k : Rank) :
    (writeOpnd ty o t x k).threads = k.threads ∧ (writeOpnd ty o t x k).special = k.special ∧ (writeOpnd ty o t x k).st = k.st := by
  have hv : ∀ n i x (k : Rank), (k.setVs i t x n).threads = k.threads ∧ (k.setVs i t x n).special = k.special ∧ (k.setVs i t x n).st = k.st := by
    intro n
    induction n with
    | zero => intro i x k; exact ⟨rfl, rfl, rfl⟩
    | succ n ih => intro i x k; exact ih (i + 1) (x / 2 ^ 32) (k.setV i t x)
  cases o with
  | v i => exact hv ..
  | p i =>
    show (k.setP _ _ _).threads = _ ∧ (k.setP _ _ _).special = _ ∧ (k.setP _ _ _).st = _
    unfold Rank.setP
    split <;> exact ⟨rfl, rfl, rfl⟩
  | _ => exact ⟨rfl, rfl, rfl⟩

theorem writeAll_frame (ex : Mask) (ty : Ty) (d : Opnd) (f : Nat → Nat) (k : Rank) :
    (writeAll ex ty d f k).threads = k.threads ∧ (writeAll ex ty d f k).special = k.special ∧ (writeAll ex ty d f k).st = k.st := by
  unfold writeAll
  have hf : ∀ (l : List Nat) (k : Rank), (l.foldl (fun k t => writeOpnd ty d t (f t) k) k).threads = k.threads ∧
      (l.foldl (fun k t => writeOpnd ty d t (f t) k) k).special = k.special ∧ (l.foldl (fun k t => writeOpnd ty d t (f t) k) k).st = k.st := by
    intro l
    induction l with
    | nil => intro k; exact ⟨rfl, rfl, rfl⟩
    | cons t l ih =>
      intro k
      have h1 := ih (writeOpnd ty d t (f t) k)
      have h2 := writeOpnd_frame ty d t (f t) k
      exact ⟨h1.1.trans h2.1, h1.2.1.trans h2.2.1, h1.2.2.trans h2.2.2⟩
  split
  · split
    · exact ⟨rfl, rfl, rfl⟩
    · exact writeOpnd_frame ..
  · exact hf ..

/-- A word that computes its destination gives it (R70 to R72). -/
theorem compute_gives (i : Instr) (c : Ctl) (ty : Ty) (d : Opnd) (f : Nat → Iss → Nat → Nat) (s : State) (u : Iss)
    (hi : issuing s c = some u) (hh : hurdle s u i = none) :
    ∃ t, compute i c ty d f s = .next t ∧ AfterWord u (setD u ty d (f s.clk u) s) t := by
  refine ⟨_, asRank_next hi hh, ?_⟩
  obtain ⟨-, -, hk, -⟩ := issuing_spec hi
  apply after_keep rfl rfl
  refine finish_after hi (k := writeAll u.ex ty d (f s.clk u) u.k) ?_ (writeAll_frame ..).1
  unfold setD
  rw [rank_modRank_same, hk]
  rfl

end Sys2Proof.Laws
end

