-- ==== Sys2Proof/Laws/Aside.lean ====
section
/-! SUPPORT. What work beside the ranks leaves alone: packets sent, home writes, questions for lines, queue records; and what a rank
loses to them: counters only. -/

set_option linter.all false

open Sys2Proof Sys2Proof.Machine

namespace Sys2Proof.Laws

/-- A context but for its sticky error bit. -/
def noSticky (c : Ctx) : Ctx := { c with sticky := false }

/-- What work beside the ranks leaves alone: the groups, contexts, launches, teams, slabs, the tables and the platform. -/
structure Aside (s t : State) : Prop where
  groups : t.groups = s.groups
  ctxs : (t.ctxs.map fun e => (e.1, noSticky e.2)) = s.ctxs.map fun e => (e.1, noSticky e.2)
  teams : t.teams = s.teams
  slabs : t.slabs = s.slabs
  launches : t.launches = s.launches
  steps : t.steps = s.steps
  cmds : t.cmds = s.cmds
  plat : t.plat = s.plat
  tabs : t.tabs = s.tabs
  cur : t.cur = s.cur
  clk : t.clk = s.clk

theorem aside_refl (s : State) : Aside s s := ⟨rfl, rfl, rfl, rfl, rfl, rfl, rfl, rfl, rfl, rfl, rfl⟩

theorem aside_trans {a b c : State} (h : Aside a b) (k : Aside b c) : Aside a c :=
  ⟨k.groups.trans h.groups, k.ctxs.trans h.ctxs, k.teams.trans h.teams, k.slabs.trans h.slabs, k.launches.trans h.launches,
   k.steps.trans h.steps, k.cmds.trans h.cmds, k.plat.trans h.plat, k.tabs.trans h.tabs, k.cur.trans h.cur, k.clk.trans h.clk⟩

theorem aside_fold {α : Type} (f : State → α → State) (h : ∀ s a, Aside s (f s a)) (l : List α) (s : State) : Aside s (l.foldl f s) := by
  induction l generalizing s with
  | nil => exact aside_refl s
  | cons a l ih => exact aside_trans (h s a) (ih _)

theorem aside_fold' {α β : Type} (f : State × β → α → State × β) (h : ∀ s a, Aside s.1 (f s a).1) (l : List α) (s : State × β) :
    Aside s.1 (l.foldl f s).1 := by
  induction l generalizing s with
  | nil => exact aside_refl s.1
  | cons a l ih => exact aside_trans (h s a) (ih _)

theorem aside_sendOut (p : Packet) (s : State) : Aside s (sendOut p s) := ⟨rfl, rfl, rfl, rfl, rfl, rfl, rfl, rfl, rfl, rfl, rfl⟩
theorem aside_sendCtl (k d a t b) (s : State) : Aside s (sendCtl k d a t b s) := ⟨rfl, rfl, rfl, rfl, rfl, rfl, rfl, rfl, rfl, rfl, rfl⟩

/-- Zeroing what a buffer owes is work beside the ranks. -/
theorem aside_zeroOwed (s : State) : Aside s (zeroOwed s) := by
  unfold zeroOwed
  simp only
  split
  · exact aside_refl s
  · refine aside_fold _ (fun s z => ?_) s.zeroing s
    split
    · split
      · exact aside_refl s
      · exact ⟨rfl, rfl, rfl, rfl, rfl, rfl, rfl, rfl, rfl, rfl, rfl⟩
    · exact aside_refl s

/-- With nothing owed it does nothing. -/
theorem zeroOwed_none (s : State) (h : (s.zeroing.all fun z => z.2.owed.isEmpty) = true) : zeroOwed s = s := by
  unfold zeroOwed; simp only [h, if_true]

theorem aside_mirrorSend (p d b t) (s : State) (q := none) : Aside s (mirrorSend p d b t s q) := by
  unfold mirrorSend
  split
  · exact aside_refl s
  · exact ⟨rfl, rfl, rfl, rfl, rfl, rfl, rfl, rfl, rfl, rfl, rfl⟩

theorem aside_homeWrite (w k t d b) (s : State) : Aside s (homeWrite w k t d b s) := by
  unfold homeWrite
  simp only
  split
  · have h := aside_mirrorSend (w.pkg.getD s.tabs.self) d b t { s with mem := writeBytes s.mem (cellAt s d) b }
    exact ⟨h.groups, h.ctxs, h.teams, h.slabs, h.launches, h.steps, h.cmds, h.plat, h.tabs, h.cur, h.clk⟩
  · exact ⟨rfl, rfl, rfl, rfl, rfl, rfl, rfl, rfl, rfl, rfl, rfl⟩

theorem aside_pkgWriteRun (d b) (s : State) : Aside s (pkgWriteRun d b s) := aside_fold _ (fun _ _ => aside_homeWrite ..) _ s

theorem aside_askOnce (k l d) (s : State) : Aside s (askOnce k l d s) := by
  unfold askOnce; split
  · exact aside_refl s
  · exact ⟨rfl, rfl, rfl, rfl, rfl, rfl, rfl, rfl, rfl, rfl, rfl⟩

theorem aside_askLine (s : State) (dpa w) : Aside s (askLine s dpa w) := by
  unfold askLine
  simp only
  split
  · exact aside_refl s
  · split
    · split
      · exact aside_refl s
      · split
        · exact aside_refl s
        · rename_i d _ _
          have h1 : Aside s (match d.owner with | some p => askOnce 0x14 (dpa / 512) p s | none => s) := by
            split
            · exact aside_askOnce ..
            · exact aside_refl s
          split
          · exact aside_trans h1 (aside_fold _ (fun _ _ => aside_askOnce ..) _ _)
          · exact h1
    · exact aside_askOnce ..

theorem aside_askAll (l) (s : State) : Aside s (askAll l s) := aside_fold _ (fun _ _ => aside_askLine ..) _ s

theorem aside_gpaWriteNow (part gpa bs) (s : State) : Aside s (gpaWriteNow part gpa bs s).1 := by
  unfold gpaWriteNow
  refine aside_fold' _ ?_ _ (s, none)
  intro a p
  split
  · exact aside_refl _
  · split
    · split
      · exact aside_refl _
      · exact aside_pkgWriteRun ..
    · exact aside_refl _

theorem aside_late (l) (s : State) : Aside s { s with late := l } := ⟨rfl, rfl, rfl, rfl, rfl, rfl, rfl, rfl, rfl, rfl, rfl⟩

theorem aside_gpaWrite (part gpa bs) (s : State) : Aside s (gpaWrite part gpa bs s).1 := by
  unfold gpaWrite
  simp only
  split
  · exact aside_gpaWriteNow ..
  · exact aside_trans (aside_late _ s) (aside_askAll ..)

/-- A rank but for its counters of outstanding remote operations, and whether its frame stands in its image. -/
def Counted (k k' : Rank) : Prop := k' = { k with counters := k'.counters, frameInMem := k'.frameInMem }

/-- Ranks change in these only. -/
structure CountsOnly (s t : State) : Prop where
  groups : ∀ g, (group? t g).map (fun x => { x with ranks := [] }) = (group? s g).map (fun x => { x with ranks := [] })
  ranks : ∀ g r k, rank? s g r = some k → ∃ k', rank? t g r = some k' ∧ Counted k k'
  none : ∀ g r, rank? s g r = none → rank? t g r = none
  ctxs : (t.ctxs.map fun e => (e.1, noSticky e.2)) = s.ctxs.map fun e => (e.1, noSticky e.2)
  plat : t.plat = s.plat
  tabs : t.tabs = s.tabs
  steps : t.steps = s.steps

theorem counts_refl (s : State) : CountsOnly s s := ⟨fun _ => rfl, fun _ _ k h => ⟨k, h, rfl⟩, fun _ _ h => h, rfl, rfl, rfl, rfl⟩

theorem counts_trans {a b c : State} (h : CountsOnly a b) (k : CountsOnly b c) : CountsOnly a c := by
  refine ⟨fun g => (k.groups g).trans (h.groups g), ?_, fun g r e => k.none g r (h.none g r e), k.ctxs.trans h.ctxs, k.plat.trans h.plat, k.tabs.trans h.tabs, k.steps.trans h.steps⟩
  intro g r x hx
  obtain ⟨y, hy, cy⟩ := h.ranks g r x hx
  obtain ⟨z, hz, cz⟩ := k.ranks g r y hy
  refine ⟨z, hz, ?_⟩
  unfold Counted at *
  rw [cy] at cz
  exact cz

theorem counts_aside {s t : State} (h : Aside s t) : CountsOnly s t :=
  ⟨fun g => by simp only [group?, h.groups], fun g r k hk => ⟨k, by simpa [rank?, group?, h.groups] using hk, rfl⟩,
   fun g r hk => by simpa [rank?, group?, h.groups] using hk, h.ctxs, h.plat, h.tabs, h.steps⟩

theorem counts_modRank (g r) (f : Rank → Rank) (hf : ∀ k, Counted k (f k)) (s : State) : CountsOnly s (modRank g r f s) := by
  refine ⟨?_, ?_, ?_, rfl, rfl, rfl, rfl⟩
  · intro g'
    rw [group_modRank]
    split
    · cases group? s g' <;> simp
    · rfl
  · intro g' r' k hk
    rw [rank_modRank]
    split
    · rw [hk]; exact ⟨_, rfl, hf k⟩
    · exact ⟨k, hk, rfl⟩
  · intro g' r' hk
    rw [rank_modRank]
    split <;> simp [hk]

theorem counts_down (g r d p) (s : State) : CountsOnly s (countDown g r d p s) := counts_modRank _ _ _ (fun k => by simp [Counted]) s

/-- A frame is written to its image. -/
theorem counts_writeFrame (g r) (s : State) : CountsOnly s (writeFrame g r s) := by
  unfold writeFrame
  split
  · split
    · refine counts_trans (counts_aside ?_) (counts_modRank _ _ _ (fun k => by simp [Counted]) _)
      refine aside_fold' _ ?_ _ (s, true)
      intro a p
      have h := aside_gpaWrite
      split
      · rename_i e; rw [← congrArg Prod.fst e]; exact h ..
      · rename_i e; rw [← congrArg Prod.fst e]; exact h ..
    · exact counts_refl s
  · exact counts_refl s

theorem counts_fold {α : Type} (f : State → α → State) (h : ∀ s a, CountsOnly s (f s a)) (l : List α) (s : State) : CountsOnly s (l.foldl f s) := by
  induction l generalizing s with
  | nil => exact counts_refl s
  | cons a l ih => exact counts_trans (h s a) (ih _)

theorem counts_orphan (m) (s : State) : CountsOnly s (orphan m s) := by
  have h : CountsOnly s ((s.homeq.filter fun a => m a.who && a.remote).foldl (fun s (a : Access) => countDown a.who.group a.who.rank a.home a.path s) s) :=
    counts_fold _ (fun _ _ => counts_down ..) _ s
  exact ⟨h.groups, h.ranks, h.none, h.ctxs, h.plat, h.tabs, h.steps⟩

theorem counts_dropCut (g r) (s : State) : CountsOnly s (dropCut g r s) := by
  unfold dropCut
  split
  · exact counts_refl s
  · exact counts_orphan ..

theorem aside_setSticky (c) (s : State) : Aside s (setSticky c s) :=
  ⟨rfl, smod_map c (fun (c : Ctx) => { c with sticky := true }) noSticky (fun _ => rfl) s.ctxs, rfl, rfl, rfl, rfl, rfl, rfl, rfl, rfl, rfl⟩

theorem aside_postTo (w r) (s : State) : Aside s (postTo w r s).1 := by
  unfold postTo
  split
  · exact aside_refl s
  · simp only
    split
    · exact aside_refl s
    · split
      · split
        · exact aside_refl s
        · split
          · exact aside_refl s
          · exact aside_trans (aside_pkgWriteRun ..) (aside_homeWrite ..)
      · exact aside_trans (aside_homeWrite ..) (aside_homeWrite ..)

theorem aside_askQueue (s : State) (w) : Aside s (askQueue s w) := by
  unfold askQueue; split
  · exact aside_askLine ..
  · exact aside_refl s

theorem aside_deferred (l) (s : State) : Aside s { s with deferred := l } := ⟨rfl, rfl, rfl, rfl, rfl, rfl, rfl, rfl, rfl, rfl, rfl⟩

theorem aside_postHost (r) (s : State) : Aside s (postHost r s) := by
  unfold postHost postHostBytes postHostNow
  split
  · exact aside_postTo ..
  · exact aside_trans (aside_askQueue ..) (aside_deferred ..)

theorem aside_postCtxBytes (c r) (s : State) : Aside s (postCtxBytes c r s) := by
  unfold postCtxBytes postCtxNow
  split
  · have h := aside_postTo (evqAddr s c) r s
    split
    · rename_i h1; rw [h1] at h; exact h
    · rename_i h1; rw [h1] at h; exact aside_trans h (aside_setSticky ..)
    · rename_i h1; rw [h1] at h; exact aside_trans (aside_trans h (aside_setSticky ..)) (aside_postHost ..)
  · exact aside_trans (aside_askQueue ..) (aside_deferred ..)

theorem aside_postCtx (c r) (s : State) : Aside s (postCtx c r s) := aside_postCtxBytes ..

theorem aside_postHostCtx (p r) (s : State) : Aside s (postHostCtx p r s) := by
  unfold postHostCtx
  simp only
  split
  · exact aside_postCtxBytes ..
  · exact aside_postHost ..

end Sys2Proof.Laws
end

