-- ==== Sys2Proof/Laws/Codes.lean ====
section
/-! SUPPORT. The codes and the fields of a word come back: what the encoder packs, the decoder's cuts read. -/

namespace Sys2Proof

/-! ### Codes -/

@[simp] theorem ty_ofCode (t : Ty) : Ty.ofCode t.code = t := by cases t <;> rfl
@[simp] theorem rnd_ofCode (t : Rnd) : Rnd.ofCode t.code = t := by cases t <;> rfl
@[simp] theorem shape_ofCode (t : Shape) : Shape.ofCode t.code = t := by cases t <;> rfl
@[simp] theorem mkSpace_ofCode (t : MkSpace) : MkSpace.ofCode t.code = t := by cases t <;> rfl
@[simp] theorem tl_ofCode (t : Tl) : Tl.ofCode t.code = t := by cases t <;> rfl
@[simp] theorem atomFn_ofCode (t : AtomFn) : AtomFn.ofCode t.code = some t := by cases t <;> rfl
@[simp] theorem redFn_ofNat (t : RedFn) : RedFn.ofNat? t.code.toNat = some t := by cases t <;> rfl
@[simp] theorem cmp_ofNat (t : Cmp) : Cmp.ofNat? t.code.toNat = some t := by cases t <;> rfl
@[simp] theorem fCmp_ofNat (t : FCmp) : FCmp.ofNat? t.code.toNat = some t := by cases t <;> rfl
@[simp] theorem mulFn_ofNat (t : MulFn) : MulFn.ofNat? t.code.toNat = some t := by cases t <;> rfl
@[simp] theorem psetFn_ofNat (t : PsetFn) : PsetFn.ofNat? t.code.toNat = some t := by cases t <;> rfl
@[simp] theorem census_ofNat (t : CensusFn) : census? t.code.toNat = some t := by cases t <;> rfl
@[simp] theorem sameFn_ofNat (t : SameFn) : SameFn.ofNat? t.code.toNat = some t := by cases t <;> rfl
@[simp] theorem shflFn_ofNat (t : ShflFn) : ShflFn.ofNat? t.code.toNat = some t := by cases t <;> rfl
@[simp] theorem signFn_ofNat (t : SignFn) : SignFn.ofNat? t.code.toNat = some t := by cases t <;> rfl
@[simp] theorem actFn_ofNat (t : ActFn) : ActFn.ofNat? t.code.toNat = some t := by cases t <;> rfl
@[simp] theorem flag_zero : flag? 0 = some false := rfl
@[simp] theorem flag_one : flag? 1 = some true := rfl
@[simp] theorem flag_fnBit (b : Bool) : flag? (fnBit b).toNat = some b := by cases b <;> rfl

@[simp] theorem opnd_ofCode (o : Opnd) : Opnd.ofCode o.code = o := by
  cases o with
  | sp s => cases s <;> rfl
  | imm => rfl
  | v i => revert i; decide
  | w i => revert i; decide
  | o i => revert i; decide
  | y i => revert i; decide
  | p i => revert i; decide
  | j i => revert i; decide
  | t i => revert i; decide
  | a i => revert i; decide
  | b i => revert i; decide

/-! ### Cuts of a packed field -/

@[simp] theorem modT_ty (t : Ty) (r : Rnd) : (modT t r).extractLsb' 2 5 = t.code := by cases t <;> cases r <;> rfl
@[simp] theorem modT_rm (t : Ty) (r : Rnd) : (modT t r).extractLsb' 0 2 = r.code := by cases t <;> cases r <;> rfl
@[simp] theorem fnTy_ty (b : Bool) (t : Ty) : (fnTy b t).extractLsb' 0 5 = t.code := by cases b <;> cases t <;> rfl
@[simp] theorem fnTy_hi (b : Bool) (t : Ty) : (fnTy b t)[5] = b := by cases b <;> cases t <;> rfl
@[simp] theorem modM_sc (sc : Scope) (p : BitVec 2) (o : Bool) : (modM sc p o).extractLsb' 3 4 = sc := by revert sc p o; decide
@[simp] theorem modM_pol (sc : Scope) (p : BitVec 2) (o : Bool) : (modM sc p o).extractLsb' 1 2 = p := by revert sc p o; decide
@[simp] theorem modM_o (sc : Scope) (p : BitVec 2) (o : Bool) : (modM sc p o)[0] = o := by revert sc p o; decide
@[simp] theorem modF_sc (sc : Scope) (t : BitVec 3) : (modF sc t).extractLsb' 3 4 = sc := by revert sc t; decide
@[simp] theorem modF_tl (sc : Scope) (t : BitVec 3) : (modF sc t).extractLsb' 0 3 = t := by revert sc t; decide
@[simp] theorem immX_x (h : BitVec 22) (x : Opnd) : (immX h x).extractLsb' 0 10 = x.code := by
  unfold immX; rw [BitVec.extractLsb'_append_eq_of_add_le (by decide), BitVec.extractLsb'_eq_self]
@[simp] theorem immX_hi (h : BitVec 22) (x : Opnd) : (immX h x).extractLsb' 10 22 = h := by
  unfold immX; rw [BitVec.extractLsb'_append_eq_of_le (by decide), BitVec.extractLsb'_eq_self]
@[simp] theorem immX_tab (t : BitVec 16) (x : Opnd) : (immX (0#6 ++ t) x).extractLsb' 10 16 = t := by
  unfold immX
  rw [BitVec.extractLsb'_append_eq_of_le (by decide), BitVec.extractLsb'_append_eq_of_add_le (by decide), BitVec.extractLsb'_eq_self]
@[simp] theorem immX_seg (t : BitVec 3) (x : Opnd) : (immX (0#19 ++ t) x).extractLsb' 10 3 = t := by
  unfold immX
  rw [BitVec.extractLsb'_append_eq_of_le (by decide), BitVec.extractLsb'_append_eq_of_add_le (by decide), BitVec.extractLsb'_eq_self]
@[simp] theorem immX_flag (b : Bool) (x : Opnd) : (immX (0#21 ++ BitVec.ofBool b) x)[10] = b := by
  unfold immX; rw [← BitVec.getLsbD_eq_getElem, BitVec.getLsbD_append, BitVec.getLsbD_append]; simp
@[simp] theorem immCode_code (c : BitVec 16) : (immCode c).extractLsb' 0 16 = c := by
  unfold immCode; rw [BitVec.extractLsb'_append_eq_of_add_le (by decide), BitVec.extractLsb'_eq_self]
@[simp] theorem immSys_num (n : BitVec 12) (i : BitVec 3) : (immSys n i).extractLsb' 0 12 = n := by
  unfold immSys; rw [BitVec.extractLsb'_append_eq_of_add_le (by decide), BitVec.extractLsb'_eq_self]
@[simp] theorem immSys_idx (n : BitVec 12) (i : BitVec 3) : (immSys n i).extractLsb' 12 3 = i := by
  unfold immSys
  rw [BitVec.extractLsb'_append_eq_of_le (by decide), BitVec.extractLsb'_append_eq_of_add_le (by decide), BitVec.extractLsb'_eq_self]
@[simp] theorem imm_low4 (t : BitVec 4) : (0#28 ++ t : Word).extractLsb' 0 4 = t := by
  rw [BitVec.extractLsb'_append_eq_of_add_le (by decide), BitVec.extractLsb'_eq_self]
@[simp] theorem imm_low20 (t : BitVec 20) : (0#12 ++ t : Word).extractLsb' 0 20 = t := by
  rw [BitVec.extractLsb'_append_eq_of_add_le (by decide), BitVec.extractLsb'_eq_self]
@[simp] theorem imm_low3 (t : BitVec 3) : (0#29 ++ t : Word).extractLsb' 0 3 = t := by
  rw [BitVec.extractLsb'_append_eq_of_add_le (by decide), BitVec.extractLsb'_eq_self]
@[simp] theorem imm_low19 (t : BitVec 19) : (0#13 ++ t : Word).extractLsb' 0 19 = t := by
  rw [BitVec.extractLsb'_append_eq_of_add_le (by decide), BitVec.extractLsb'_eq_self]
@[simp] theorem loop_limit (l : BitVec 12) (o : BitVec 20) : (l ++ o : Word).extractLsb' 20 12 = l := by
  rw [BitVec.extractLsb'_append_eq_of_le (by decide), BitVec.extractLsb'_eq_self]
@[simp] theorem loop_off (l : BitVec 12) (o : BitVec 20) : (l ++ o : Word).extractLsb' 0 20 = o := by
  rw [BitVec.extractLsb'_append_eq_of_add_le (by decide), BitVec.extractLsb'_eq_self]
@[simp] theorem mma_arow (a b : BitVec 4) (n k : BitVec 12) : (a ++ b ++ n ++ k : Word).extractLsb' 28 4 = a := by
  rw [BitVec.extractLsb'_append_eq_of_le (by decide), BitVec.extractLsb'_append_eq_of_le (by decide),
    BitVec.extractLsb'_append_eq_of_le (by decide), BitVec.extractLsb'_eq_self]
@[simp] theorem mma_brow (a b : BitVec 4) (n k : BitVec 12) : (a ++ b ++ n ++ k : Word).extractLsb' 24 4 = b := by
  rw [BitVec.extractLsb'_append_eq_of_le (by decide), BitVec.extractLsb'_append_eq_of_le (by decide),
    BitVec.extractLsb'_append_eq_of_add_le (by decide), BitVec.extractLsb'_eq_self]
@[simp] theorem mma_kbn (a b : BitVec 4) (n k : BitVec 12) : (a ++ b ++ n ++ k : Word).extractLsb' 12 12 = n := by
  rw [BitVec.extractLsb'_append_eq_of_le (by decide), BitVec.extractLsb'_append_eq_of_add_le (by decide), BitVec.extractLsb'_eq_self]
@[simp] theorem mma_kb0 (a b : BitVec 4) (n k : BitVec 12) : (a ++ b ++ n ++ k : Word).extractLsb' 0 12 = k := by
  rw [BitVec.extractLsb'_append_eq_of_add_le (by decide), BitVec.extractLsb'_eq_self]

@[simp] theorem md_shape (sh : Shape) (r : BitVec 5) : (sh.code ++ r : BitVec 7).extractLsb' 5 2 = sh.code := by
  rw [BitVec.extractLsb'_append_eq_of_le (by decide), BitVec.extractLsb'_eq_self]
@[simp] theorem md_mkSpace (sp : MkSpace) (r : BitVec 5) : (sp.code ++ r : BitVec 7).extractLsb' 5 2 = sp.code := by
  rw [BitVec.extractLsb'_append_eq_of_le (by decide), BitVec.extractLsb'_eq_self]
@[simp] theorem md_loop (c : BitVec 2) (r : BitVec 5) : (c ++ r : BitVec 7).extractLsb' 5 2 = c := by revert c r; decide
@[simp] theorem md_mma_shape (sh : Shape) (z s k : Bool) (c : BitVec 2) :
    (sh.code ++ BitVec.ofBool z ++ BitVec.ofBool s ++ BitVec.ofBool k ++ c : BitVec 7).extractLsb' 5 2 = sh.code := by
  cases sh <;> revert z s k c <;> decide
@[simp] theorem md_mma_z (h : BitVec 2) (z s k : Bool) (c : BitVec 2) :
    (h ++ BitVec.ofBool z ++ BitVec.ofBool s ++ BitVec.ofBool k ++ c : BitVec 7)[4] = z := by revert h z s k c; decide
@[simp] theorem md_mma_sat (h : BitVec 2) (z s k : Bool) (c : BitVec 2) :
    (h ++ BitVec.ofBool z ++ BitVec.ofBool s ++ BitVec.ofBool k ++ c : BitVec 7)[3] = s := by revert h z s k c; decide
@[simp] theorem md_mma_kr (h : BitVec 2) (z s k : Bool) (c : BitVec 2) :
    (h ++ BitVec.ofBool z ++ BitVec.ofBool s ++ BitVec.ofBool k ++ c : BitVec 7)[2] = k := by revert h z s k c; decide
@[simp] theorem md_mma_ctr (h : BitVec 2) (z s k : Bool) (c : BitVec 2) :
    (h ++ BitVec.ofBool z ++ BitVec.ofBool s ++ BitVec.ofBool k ++ c : BitVec 7).extractLsb' 0 2 = c := by revert h z s k c; decide
@[simp] theorem md_wait_sc (sc : Scope) (p : Bool) (c : BitVec 2) : (sc ++ BitVec.ofBool p ++ c : BitVec 7).extractLsb' 3 4 = sc := by
  revert sc p c; decide
@[simp] theorem md_wait_pr (sc : Scope) (p : Bool) (c : BitVec 2) : (sc ++ BitVec.ofBool p ++ c : BitVec 7)[2] = p := by
  revert sc p c; decide
@[simp] theorem md_wait_ctr (sc : Scope) (p : Bool) (c : BitVec 2) : (sc ++ BitVec.ofBool p ++ c : BitVec 7).extractLsb' 0 2 = c := by
  revert sc p c; decide
@[simp] theorem md_lea_sh (s : BitVec 3) (z : Bool) : (s ++ BitVec.ofBool z ++ 0#3 : BitVec 7).extractLsb' 4 3 = s := by
  revert s z; decide
@[simp] theorem md_lea_zx (s : BitVec 3) (z : Bool) : (s ++ BitVec.ofBool z ++ 0#3 : BitVec 7)[3] = z := by
  revert s z; decide

/-! ### The groups of fields -/

@[simp] theorem ctl_of_hint (f : Fields) (c : Ctl) (hg : f.gidx = c.gidx) (hn : f.gneg = c.gneg) (h : f.hint = c.hint) : f.ctl = c := by
  obtain ⟨g, n, p, d, k, s⟩ := c
  have h1 : ∀ (p : Bool) (d : BitVec 3) (k : BitVec 2) (s : Bool),
      let h : BitVec 8 := BitVec.ofBool p ++ d ++ k ++ BitVec.ofBool s ++ (0 : BitVec 1)
      h.getLsbD 7 = p ∧ h.extractLsb' 4 3 = d ∧ h.extractLsb' 2 2 = k ∧ h.getLsbD 1 = s := by decide
  obtain ⟨a, b, c, e⟩ := h1 p d k s
  simp only [Fields.ctl, hg, hn, h, Ctl.hint, a, b, c, e]

@[simp] theorem ctl_fields (opc : BitVec 8) (fn : BitVec 6) (md : BitVec 7) (d a b : BitVec 10) (imm : Word) (c : Ctl) :
    (c.fields opc fn md d a b imm).ctl = c := ctl_of_hint _ _ rfl rfl rfl
@[simp] theorem alu1_fields (opc : BitVec 8) (fn : BitVec 6) (x : Alu1) : (x.fields opc fn).alu1 = x := by
  have h : (x.fields opc fn).ctl = x.c := ctl_of_hint _ _ rfl rfl rfl
  simp [Fields.alu1, h]
  simp [Alu1.fields, Fields.ty, Fields.rm]
@[simp] theorem alu2_fields (opc : BitVec 8) (fn : BitVec 6) (x : Alu2) : (x.fields opc fn).alu2 = x := by
  have h : (x.fields opc fn).ctl = x.c := ctl_of_hint _ _ rfl rfl rfl
  simp [Fields.alu2, h]
  simp [Alu2.fields, Fields.ty, Fields.rm]
@[simp] theorem alu3_fields (opc : BitVec 8) (fn : BitVec 6) (hi : BitVec 22) (x : Alu3) : (x.fields opc fn hi).alu3 = x := by
  have h : (x.fields opc fn hi).ctl = x.c := ctl_of_hint _ _ rfl rfl rfl
  simp [Fields.alu3, h]
  simp [Alu3.fields, Fields.ty, Fields.rm, Fields.x]
@[simp] theorem load_fields (opc : BitVec 8) (x : LoadOp) : (x.fields opc).load = x := by
  simp [Fields.load, LoadOp.fields]
  simp [Ctl.fields, Fields.tyFn, Fields.sc, Fields.pol]
@[simp] theorem store_fields (opc : BitVec 8) (x : StoreOp) : (x.fields opc).store = x := by
  simp [Fields.store, StoreOp.fields]
  simp [Ctl.fields, Fields.tyFn, Fields.sc, Fields.pol]
@[simp] theorem xst_fields (c : Ctl) (rel : Bool) (ty : Ty) (sc : Scope) (fl : BitVec 2) (o : Bool) (a b : Opnd) (disp : Word) (opc : BitVec 8)
    (d : BitVec 10) : (c.fields opc (fnTy rel ty) (modM sc fl o) d a.code b.code disp).xst =
      { c := c, ty := ty, rel := rel, sc := sc, fl := fl, ord := o, a := a, b := b, disp := disp } := by
  simp [Fields.xst]
  simp [Ctl.fields, Fields.tyFn, Fields.sc, Fields.pol]
@[simp] theorem md_eng (t b v : Bool) (f : BitVec 2) : (BitVec.ofBool t ++ BitVec.ofBool b ++ BitVec.ofBool v ++ f ++ 0#2 : BitVec 7)[6] = t ∧
    (BitVec.ofBool t ++ BitVec.ofBool b ++ BitVec.ofBool v ++ f ++ 0#2 : BitVec 7)[5] = b ∧
    (BitVec.ofBool t ++ BitVec.ofBool b ++ BitVec.ofBool v ++ f ++ 0#2 : BitVec 7)[4] = v ∧
    (BitVec.ofBool t ++ BitVec.ofBool b ++ BitVec.ofBool v ++ f ++ 0#2 : BitVec 7).extractLsb' 2 2 = f := by
  revert t b v f; decide
@[simp] theorem eng_fields (opc : BitVec 8) (fn : BitVec 6) (imm : Word) (e : Eng) : (e.fields opc fn imm).eng = e := by
  obtain ⟨a, b, c, d⟩ := md_eng e.tl e.bar e.evt e.fl
  simp only [Fields.eng, Eng.fields, ctl_fields]
  simp only [Ctl.fields, opnd_ofCode, BitVec.ofNat_eq_ofNat, BitVec.getLsbD_eq_getElem, a, b, c, d, Nat.reduceLT]
theorem atom_imm (p : BitVec 16) (n : Bool) (t : BitVec 5) (x : BitVec 10) :
    (p ++ BitVec.ofBool n ++ t ++ x : Word).getLsbD 15 = n ∧ (p ++ BitVec.ofBool n ++ t ++ x : Word).extractLsb' 10 5 = t ∧
    (p ++ BitVec.ofBool n ++ t ++ x : Word).extractLsb' 0 10 = x ∧ (p ++ BitVec.ofBool n ++ t ++ x : Word).extractLsb' 16 16 = p := by
  refine ⟨?_, ?_, ?_, ?_⟩
  · rw [BitVec.getLsbD_append, BitVec.getLsbD_append, BitVec.getLsbD_append]; simp
  · rw [BitVec.extractLsb'_append_eq_of_le (by decide), BitVec.extractLsb'_append_eq_of_add_le (by decide), BitVec.extractLsb'_eq_self]
  · rw [BitVec.extractLsb'_append_eq_of_add_le (by decide), BitVec.extractLsb'_eq_self]
  · rw [BitVec.extractLsb'_append_eq_of_le (by decide), BitVec.extractLsb'_append_eq_of_le (by decide),
      BitVec.extractLsb'_append_eq_of_le (by decide), BitVec.extractLsb'_eq_self]
theorem atom_fn (r a : Bool) (c : BitVec 4) : (BitVec.ofBool r ++ BitVec.ofBool a ++ c : BitVec 6).extractLsb' 0 4 = c ∧
    (BitVec.ofBool r ++ BitVec.ofBool a ++ c : BitVec 6).getLsbD 4 = a ∧ (BitVec.ofBool r ++ BitVec.ofBool a ++ c : BitVec 6).getLsbD 5 = r := by
  revert r a c; decide
@[simp] theorem atom_fields_fn (opc : BitVec 8) (x : AtomOp) : (x.fields opc).fn.extractLsb' 0 4 = x.op.code := (atom_fn x.rel x.acq x.op.code).1
@[simp] theorem atom_fields (opc : BitVec 8) (x : AtomOp) : (x.fields opc).atom x.op = x := by
  obtain ⟨a, b, c, d⟩ := atom_imm x.disp x.nr x.ty.code x.x.code
  obtain ⟨-, e, f⟩ := atom_fn x.rel x.acq x.op.code
  simp only [Fields.atom, AtomOp.fields, ctl_fields]
  simp only [Ctl.fields, Fields.sc, Fields.pol, Fields.x, opnd_ofCode, ty_ofCode, modM_sc, modM_pol, a, b, c, d, e, f]
theorem bcvt_imm (z : BitVec 14) (s v r e : Bool) (d : BitVec 4) :
    let w : Word := z ++ BitVec.ofBool s ++ BitVec.ofBool v ++ BitVec.ofBool r ++ BitVec.ofBool e ++ d ++ 0#10
    w.getLsbD 17 = s ∧ w.getLsbD 16 = v ∧ w.getLsbD 15 = r ∧ w.getLsbD 14 = e ∧ w.extractLsb' 10 4 = d := by
  refine ⟨?_, ?_, ?_, ?_, ?_⟩
  · rw [BitVec.getLsbD_append, BitVec.getLsbD_append, BitVec.getLsbD_append, BitVec.getLsbD_append, BitVec.getLsbD_append, BitVec.getLsbD_append]; simp
  · rw [BitVec.getLsbD_append, BitVec.getLsbD_append, BitVec.getLsbD_append, BitVec.getLsbD_append, BitVec.getLsbD_append]; simp
  · rw [BitVec.getLsbD_append, BitVec.getLsbD_append, BitVec.getLsbD_append, BitVec.getLsbD_append]; simp
  · rw [BitVec.getLsbD_append, BitVec.getLsbD_append, BitVec.getLsbD_append]; simp
  · rw [BitVec.extractLsb'_append_eq_of_le (by decide), BitVec.extractLsb'_append_eq_of_add_le (by decide), BitVec.extractLsb'_eq_self]
@[simp] theorem bcvt_fields (opc : BitVec 8) (fn : BitVec 6) (md : BitVec 7) (d a b : BitVec 10) (c : Ctl) (m : Bcvt) :
    (c.fields opc fn md d a b (bcvtHi m ++ 0#10)).bcvt = m := by
  obtain ⟨a, b, c, d, e⟩ := bcvt_imm 0#14 m.sat m.v m.res m.ef m.dist
  simp only [Fields.bcvt, Ctl.fields, bcvtHi, BitVec.ofNat_eq_ofNat]
  rw [a, b, c, d, e]

@[simp] theorem alu1_fn (opc : BitVec 8) (fn : BitVec 6) (x : Alu1) : (x.fields opc fn).fn = fn := rfl
@[simp] theorem alu2_fn (opc : BitVec 8) (fn : BitVec 6) (x : Alu2) : (x.fields opc fn).fn = fn := rfl
@[simp] theorem alu3_fn (opc : BitVec 8) (fn : BitVec 6) (hi : BitVec 22) (x : Alu3) : (x.fields opc fn hi).fn = fn := rfl
@[simp] theorem alu3_imm (opc : BitVec 8) (fn : BitVec 6) (hi : BitVec 22) (x : Alu3) : (x.fields opc fn hi).imm = immX hi x.x := rfl
@[simp] theorem alu1_tyFn (opc : BitVec 8) (b : Bool) (t : Ty) (x : Alu1) : (x.fields opc (fnTy b t)).tyFn = t := by
  simp [Fields.tyFn, Alu1.fields]
@[simp] theorem eng_imm (opc : BitVec 8) (fn : BitVec 6) (imm : Word) (e : Eng) : (e.fields opc fn imm).imm = imm := rfl
@[simp] theorem eng_fn (opc : BitVec 8) (fn : BitVec 6) (imm : Word) (e : Eng) : (e.fields opc fn imm).fn = fn := rfl
@[simp] theorem ctl_fn (opc : BitVec 8) (fn : BitVec 6) (md : BitVec 7) (d a b : BitVec 10) (imm : Word) (c : Ctl) : (c.fields opc fn md d a b imm).fn = fn := rfl
@[simp] theorem ctl_md (opc : BitVec 8) (fn : BitVec 6) (md : BitVec 7) (d a b : BitVec 10) (imm : Word) (c : Ctl) : (c.fields opc fn md d a b imm).md = md := rfl
@[simp] theorem ctl_d (opc : BitVec 8) (fn : BitVec 6) (md : BitVec 7) (d a b : BitVec 10) (imm : Word) (c : Ctl) : (c.fields opc fn md d a b imm).d = d := rfl
@[simp] theorem ctl_a (opc : BitVec 8) (fn : BitVec 6) (md : BitVec 7) (d a b : BitVec 10) (imm : Word) (c : Ctl) : (c.fields opc fn md d a b imm).a = a := rfl
@[simp] theorem ctl_b (opc : BitVec 8) (fn : BitVec 6) (md : BitVec 7) (d a b : BitVec 10) (imm : Word) (c : Ctl) : (c.fields opc fn md d a b imm).b = b := rfl
@[simp] theorem ctl_imm (opc : BitVec 8) (fn : BitVec 6) (md : BitVec 7) (d a b : BitVec 10) (imm : Word) (c : Ctl) : (c.fields opc fn md d a b imm).imm = imm := rfl
@[simp] theorem mFields_md (opc : BitVec 8) (md : BitVec 7) (d a b : BitVec 10) (imm : Word) : (mFields opc md d a b imm).md = md := rfl
@[simp] theorem mFields_d (opc : BitVec 8) (md : BitVec 7) (d a b : BitVec 10) (imm : Word) : (mFields opc md d a b imm).d = d := rfl
@[simp] theorem mFields_a (opc : BitVec 8) (md : BitVec 7) (d a b : BitVec 10) (imm : Word) : (mFields opc md d a b imm).a = a := rfl
@[simp] theorem mFields_b (opc : BitVec 8) (md : BitVec 7) (d a b : BitVec 10) (imm : Word) : (mFields opc md d a b imm).b = b := rfl
@[simp] theorem mFields_imm (opc : BitVec 8) (md : BitVec 7) (d a b : BitVec 10) (imm : Word) : (mFields opc md d a b imm).imm = imm := rfl
@[simp] theorem mFields_fn (opc : BitVec 8) (md : BitVec 7) (d a b : BitVec 10) (imm : Word) : (mFields opc md d a b imm).fn = 0 := rfl

/-- R26: the ten fields of a word come back. -/
@[simp] theorem ofWord_toWord (f : Fields) : Fields.ofWord f.toWord = f := by
  obtain ⟨opc, fn, d, a, b, g, n, md, h, i⟩ := f
  simp only [Fields.ofWord, Fields.toWord, Fields.mk.injEq]
  refine ⟨?_, ?_, ?_, ?_, ?_, ?_, ?_, ?_, ?_, ?_⟩
  case refine_7 =>
    rw [BitVec.getLsbD_append, BitVec.getLsbD_append, BitVec.getLsbD_append, BitVec.getLsbD_append]; simp
  all_goals
    repeat rw [BitVec.extractLsb'_append_eq_of_le (by decide)]
    first
      | rw [BitVec.extractLsb'_append_eq_of_add_le (by decide), BitVec.extractLsb'_eq_self]
      | rw [BitVec.extractLsb'_eq_self]

@[simp] theorem toWord_ofWord (w : IWord) : (Fields.ofWord w).toWord = w := by
  have cut : ∀ (n m k j : Nat), j = k + m → w.extractLsb' j n ++ w.extractLsb' k m = w.extractLsb' k (n + m) := by
    intro n m k j hj
    subst hj
    apply BitVec.eq_of_getLsbD_eq
    intro i hi
    simp only [BitVec.getLsbD_append, BitVec.getLsbD_extractLsb']
    by_cases h : i < m
    · simp [h, hi]
    · simp [h, hi, show i - m < n by omega, show k + m + (i - m) = k + i by omega]
  have one : BitVec.ofBool (w.getLsbD 47) = w.extractLsb' 47 1 := by
    apply BitVec.eq_of_getLsbD_eq
    intro i hi
    obtain rfl : i = 0 := by omega
    simp
  simp only [Fields.ofWord, Fields.toWord, one]
  rw [cut 8 6 82 88 rfl, cut 14 10 72 82 rfl, cut 24 10 62 72 rfl, cut 34 10 52 62 rfl, cut 44 4 48 52 rfl, cut 48 1 47 48 rfl,
    cut 49 7 40 47 rfl, cut 56 8 32 40 rfl, cut 64 32 0 32 rfl]
  exact BitVec.extractLsb'_eq_self

end Sys2Proof
end

