-- ==== Sys2Proof/Laws/Issue.lean ====
section
/-! SUPPORT. Words of one pass: from a meaning to its completion; reading operands; the lowest thread that fails; what waking parked
ranks leaves alone. -/

set_option linter.all false

open Sys2Proof Sys2Proof.Machine

namespace Sys2Proof.Laws

/-- A meaning that is compute gives its results. -/
theorem gives_of {i c ty d f} (h : ∀ s, exec i s = compute i c ty d f s) : Gives i c ty d f := by
  intro s u hi hh _
  rw [h]
  exact compute_gives i c ty d f s u hi hh

/-- The same up to the spelling of type and results. -/
theorem gives_of2 {i c ty ty' d f f'} (h : ∀ s, exec i s = compute i c ty' d f' s) (ht : ty = ty') (hf : ∀ clk u t, f' clk u t = f clk u t) : Gives i c ty d f := by
  subst ht
  have : f' = f := by funext a b c; exact hf a b c
  subst this
  exact gives_of h

/-- A word of one pass completes with its effect, where the effect leaves its own rank issuing with its threads. -/
theorem word_of {i c} {eff : State → Iss → State} {ok : State → Iss → Prop} {f : Iss → State → State} (he : ∀ s, exec i s = asRank i c f s)
    (h : ∀ s u, issuing s c = some u → ok s u → ∃ k, f u s = finish c (encode i) u (eff s u) ∧ rank? (eff s u) u.g u.r = some k ∧ k.threads = u.k.threads ∧ (eff s u).plat = s.plat ∧ (eff s u).tabs = s.tabs) : Completes i c ok eff := by
  intro s u hi hh hok
  obtain ⟨k, hf, hk, ht, hp, htab⟩ := h s u hi hok
  refine ⟨_, (he s).trans (asRank_next hi hh), ?_⟩
  rw [hf]
  exact after_keep hp htab (finish_after hi hk ht)

/-- A word of one pass that nobody executes passes. -/
theorem idle_of {i c} {f : Iss → State → State} (he : ∀ s, exec i s = asRank i c f s)
    (h : ∀ s u, issuing s c = some u → u.ex = 0 → f u s = finish c (encode i) u s) : Completes i c (fun _ u => u.ex = 0) fun s _ => s := by
  refine word_of he fun s u hi hok => ⟨u.k, h s u hi hok, (issuing_spec hi).2.2.1, rfl, rfl, rfl⟩

/-- The same where the effect is a change of the rank. -/
theorem word_rank {i c} {f : State → Iss → Rank → Rank} {ok : State → Iss → Prop} {e : Iss → State → State} (he : ∀ s, exec i s = asRank i c e s)
    (h : ∀ s u, issuing s c = some u → ok s u → e u s = finish c (encode i) u (modRank u.g u.r (f s u) s))
    (ht : ∀ s u k, (f s u k).threads = k.threads) : Completes i c ok fun s u => modRank u.g u.r (f s u) s := by
  refine word_of he fun s u hi hok => ⟨f s u u.k, h s u hi hok, ?_, ht .., rfl, rfl⟩
  rw [rank_modRank_same, (issuing_spec hi).2.2.1]; rfl

theorem acq_threads (k : Rank) (sc m n) : (k.acquire sc m n).threads = k.threads := by
  unfold Rank.acquire; split <;> rfl

theorem rel_threads (k : Rank) (sc m n) : (k.release sc m n).threads = k.threads := by
  unfold Rank.release; split <;> rfl

/-- An operand read is inside its type. -/
theorem readOpnd_lt (clk u ty imm o t) : readOpnd clk u ty imm o t < 2 ^ Ty.bits ty := by
  have hp : 0 < 2 ^ Ty.bits ty := Nat.two_pow_pos _
  have h1 : 1 < 2 ^ Ty.bits ty := Nat.one_lt_two_pow (by cases ty <;> decide)
  unfold readOpnd
  cases o <;> simp only [] <;> first | exact Nat.mod_lt _ hp | (split <;> omega)

theorem inv_eq {n b : Nat} (h : b < 2 ^ n) : maskN n ^^^ b = 2 ^ n - 1 - b := by
  apply Nat.eq_of_testBit_eq
  intro i
  rw [Nat.testBit_xor, maskN, Nat.testBit_two_pow_sub_one, Nat.sub_right_comm, Nat.sub_sub]
  rw [show 2 ^ n - (b + 1) = 2 ^ n - (b + 1) from rfl, Nat.testBit_two_pow_sub_succ h]
  by_cases hi : i < n
  · simp [hi]
  · have : b.testBit i = false := Nat.testBit_lt_two_pow (lt_of_lt_of_le h (Nat.pow_le_pow_right (by decide) (by omega)))
    simp [hi, this]

theorem lut_eq (tab : BitVec 16) (d a b c n : Nat) : lutBits tab.toNat d a b c n =
    ((List.range n).map fun k =>
      (if tab.getLsbD (8 * (d / 2^k % 2) + 4 * (a / 2^k % 2) + 2 * (b / 2^k % 2) + c / 2^k % 2) then 2 ^ k else 0)).sum := by
  induction n with
  | zero => rfl
  | succ n ih =>
    simp only [lutBits, List.range_succ, List.map_append, List.sum_append, ih, List.map_cons, List.map_nil, List.sum_cons, List.sum_nil, Nat.add_zero]
    congr 1
    rw [BitVec.getLsbD, Nat.testBit_eq_decide_div_mod_eq]
    have := Nat.mod_two_eq_zero_or_one (tab.toNat / 2 ^ (8 * (d / 2^n % 2) + 4 * (a / 2^n % 2) + 2 * (b / 2^n % 2) + c / 2^n % 2))
    rcases this with h | h <;> simp [h]

theorem shl_eq (n a k) (h : a < 2 ^ n) : shlValue n a k = a * 2 ^ k % 2 ^ n := by
  unfold shlValue
  split
  · rename_i hk
    obtain ⟨j, rfl⟩ := Nat.exists_eq_add_of_le hk
    rw [Nat.pow_add, Nat.mul_comm, Nat.mul_assoc, Nat.mul_mod_right]
  · rfl

theorem low_iff (m : Mask) (f : Nat → Bool) (t : Nat) (h : lowestWith m f = some t) : m.getLsbD t = true ∧ f t = true ∧ ∀ t', t' < t → m.getLsbD t' = true → f t' = false := by
  unfold lowestWith threadsOf at h
  rw [List.find?_filter] at h
  rw [List.find?_range_eq_some] at h
  simp at h
  refine ⟨h.1.1, h.1.2, fun t' h1 h2 => ?_⟩
  rcases h.2.2 t' h1 with h | h
  · simp [h] at h2
  · exact h

/-- The lowest executing thread that fails. -/
theorem low_some (m : Mask) (f : Nat → Bool) (t : Nat) (h1 : m.getLsbD t = true) (h2 : f t = true) (h3 : ∀ t', t' < t → m.getLsbD t' = true → f t' = false) : lowestWith m f = some t := by
  unfold lowestWith threadsOf
  rw [List.find?_filter, List.find?_range_eq_some]
  have : t < 32 := BitVec.lt_of_getLsbD h1
  simp [h1, h2, this]
  intro j hj
  by_cases h : m.getLsbD j = true
  · exact .inr (h3 j hj h)
  · exact .inl (by simpa using h)

/-- No executing thread fails. -/
theorem low_none (m : Mask) (f : Nat → Bool) (h : ∀ t, m.getLsbD t = true → f t = false) : lowestWith m f = none := by
  unfold lowestWith
  rw [List.find?_eq_none]
  intro t ht
  simp [h t ((mem_threadsOf m t).mp ht).2]

/-- A transfer whose targets pass goes. -/
theorem trans_go {i : Instr} {c target bad cause change} (he : ∀ s, exec i s = transfer i c target bad cause change s) (s : State) (u : Iss) (hi : issuing s c = some u) (hh : hurdle s u i = none)
   (hb : ∀ t, u.ex.getLsbD t = true → (target s u t).extractLsb' 0 2 = 0 ∧ bad u t = false)
   (hx : ∀ u x, (change u x).exited = x.exited) (hpk : ∀ u x, (change u x).parked = x.parked) :
   ∃ t, exec i s = .next t ∧ AfterPath (fun th x => { change u x with pc := target s u th }) u s t := by
  refine ⟨keep s (closePass c (someGo u) u (goTo u (target s u) (change u) (charged u (encode i) s))), ?_, after_keep rfl rfl (goTo_after c (someGo u) (encode i) (target s u) (change u) u s c hi (hx u) (hpk u))⟩
  rw [he, transfer, asRank_next hi hh]
  rw [badTarget, low_none _ _ (fun t ht => by simp [misaligned, (hb t ht).1])]
  rw [low_none _ _ (fun t ht => (hb t ht).2)]

theorem sget_map_entry (f : Nat → Group → Group) (g : Nat) (m : Sparse Group) : sget g (m.map fun e => (e.1, f e.1 e.2)) = (sget g m).map (f g) := by
  induction m with
  | nil => rfl
  | cons e m ih =>
    simp only [List.map_cons, sget]
    split
    · rename_i h; subst h; rfl
    · split
      · rfl
      · exact ih

/-- What waking does to a group whose arrivals are made. -/
def wakeGroup (s : State) (g : Nat) (x : Group) : Group :=
  if x.frozen then x
  else { x with ranks := x.ranks.map (fun k => unparkRank s x (if k.st = .waitOperand ∧ waitOver s x g k then { k with st := .ready, waitFor := .none, readyAt := s.clk, starve := 0 } else k)), seq := unparkSeq s x }

/-- Once arrivals are made, waking changes groups only, each by itself. -/
theorem wakeRanks_groups (s : State) : wakeRanks s = { s with groups := s.groups.map fun e => (e.1, wakeGroup s e.1 e.2) } := by
  refine congrArg (fun gs => { s with groups := gs }) (List.map_congr_left ?_)
  intro e _
  unfold wakeGroup
  by_cases h : e.2.frozen
  · simp [h]
  · simp [h]

theorem group_wakeRanks (s : State) (g : Nat) : group? (wakeRanks s) g = (group? s g).map (wakeGroup s g) := by
  rw [wakeRanks_groups]
  exact sget_map_entry (wakeGroup s) g s.groups

theorem rank_barSet (g b v) (s : State) (g' r) : rank? (barSet g b v s) g' r = rank? s g' r := by
  unfold barSet
  split
  · rfl
  · split
    · rw [rank_modGroup]; split
      · rename_i h; subst h; unfold rank?; rfl
      · rfl
    · rfl

/-- Two ranks with the same threads and the same standing, whatever else has come to them. -/
structure SameThreads (k k' : Rank) : Prop where
  threads : k'.threads = k.threads
  st : k'.st = k.st

theorem sameThreads_refl (k : Rank) : SameThreads k k := ⟨rfl, rfl⟩

theorem sameThreads_trans {a b c : Rank} (h : SameThreads a b) (h' : SameThreads b c) : SameThreads a c :=
  ⟨h'.threads.trans h.threads, h'.st.trans h.st⟩

theorem writeOpnd_same (ty o t x) (k : Rank) : SameThreads k (writeOpnd ty o t x k) :=
  ⟨(writeOpnd_frame ty o t x k).1, (writeOpnd_frame ty o t x k).2.2⟩

theorem writes_same (ty o x) (l : List Nat) (k : Rank) : SameThreads k (l.foldl (fun k t => writeOpnd ty o t x k) k) := by
  induction l generalizing k with
  | nil => exact sameThreads_refl k
  | cons t l ih => exact sameThreads_trans (writeOpnd_same ty o t x k) (ih _)

theorem arrived_same (a e p) (k : Rank) : SameThreads k (k.arrived a e p) := by
  have h : SameThreads k (k.phased a e p) := by
    unfold Rank.phased
    split
    · split
      · exact writeOpnd_same ..
      · exact writes_same ..
    · exact sameThreads_refl k
  exact ⟨h.threads, h.st⟩

/-- An arrival leaves every rank standing where it stood. -/
theorem rank_arriveAt (g r a n e) (s : State) (g' r' k) (h : rank? s g' r' = some k) :
    ∃ k', rank? (arriveAt g r a n e s) g' r' = some k' ∧ SameThreads k k' := by
  unfold arriveAt
  split
  · exact ⟨k, h, sameThreads_refl k⟩
  · simp only [rank_barSet, rank_modRank]
    split
    · exact ⟨_, by rw [h]; rfl, arrived_same ..⟩
    · exact ⟨k, h, sameThreads_refl k⟩

/-- One of the record changes no rank until it is answered. -/
theorem rank_arriveTagged (g r a n e) (s : State) (g' r') : rank? (arriveTagged g r a n e s) g' r' = rank? s g' r' := by
  unfold arriveTagged
  split
  · rfl
  · split
    · rfl
    · exact rank_barSet _ _ _ s g' r'

theorem rank_arrivals (n : Nat) (s : State) (g r k) (h : rank? s g r = some k) :
    ∃ k', rank? (arrivals n s) g r = some k' ∧ SameThreads k k' := by
  induction n generalizing s k with
  | zero => exact ⟨k, h, sameThreads_refl k⟩
  | succ n ih =>
    unfold arrivals
    split
    · exact ih _ k (by rw [rank_arriveTagged]; exact h)
    · exact ⟨k, h, sameThreads_refl k⟩

/-- Waking leaves a rank that is issuing where it stands. -/
theorem rank_wake_issuing (s : State) (g r : Nat) (k : Rank) (h : rank? s g r = some k) (hs : k.st = .issuing) :
    ∃ k', rank? (wake s) g r = some k' ∧ SameThreads k k' := by
  unfold wake
  obtain ⟨k1, h1, s1⟩ := rank_arrivals (s.groups.map fun e => (e.2.ranks.map fun k => (k.live.filter isArrival).length).sum).sum s g r k h
  refine ⟨k1, ?_, s1⟩
  have hs1 : k1.st = .issuing := s1.st.trans hs
  unfold rank? at h1 ⊢
  simp only
  rw [group_wakeRanks]
  generalize arrivals _ s = t at *
  cases hg : group? t g with
  | none => simp [hg] at h1
  | some x =>
    simp only [hg, Option.bind_some, Option.map_some] at h1 ⊢
    unfold wakeGroup
    split
    · exact h1
    · simp [h1, hs1, unparkRank]

theorem rank_barAdd (g b n) (s : State) (g' r k) (h : rank? s g' r = some k) (hs : k.st = .issuing) :
    ∃ k', rank? (barAdd g b n s) g' r = some k' ∧ SameThreads k k' := by
  unfold barAdd
  split
  · exact ⟨k, h, sameThreads_refl k⟩
  · exact rank_wake_issuing _ _ _ _ (by rw [rank_barSet]; exact h) hs

/-- Arrivals and waking leave memory, the tables and the platform alone. -/
theorem barSet_tables (g b v) (s : State) : (barSet g b v s).plat = s.plat ∧ (barSet g b v s).tabs = s.tabs ∧ (barSet g b v s).mem = s.mem := by
  unfold barSet; split
  · exact ⟨rfl, rfl, rfl⟩
  · split <;> exact ⟨rfl, rfl, rfl⟩

theorem arriveAt_tables (g r a n e) (s : State) : (arriveAt g r a n e s).plat = s.plat ∧ (arriveAt g r a n e s).tabs = s.tabs ∧ (arriveAt g r a n e s).mem = s.mem := by
  unfold arriveAt; split
  · exact ⟨rfl, rfl, rfl⟩
  · exact barSet_tables ..

theorem arriveTagged_tables (g r a n e) (s : State) :
    (arriveTagged g r a n e s).plat = s.plat ∧ (arriveTagged g r a n e s).tabs = s.tabs ∧ (arriveTagged g r a n e s).mem = s.mem := by
  unfold arriveTagged; split
  · exact ⟨rfl, rfl, rfl⟩
  · split
    · exact ⟨rfl, rfl, rfl⟩
    · exact barSet_tables ..

theorem arrivals_tables (n) (s : State) : (arrivals n s).plat = s.plat ∧ (arrivals n s).tabs = s.tabs ∧ (arrivals n s).mem = s.mem := by
  induction n generalizing s with
  | zero => exact ⟨rfl, rfl, rfl⟩
  | succ n ih =>
    unfold arrivals; split
    · rename_i g r a e _
      have h1 := ih (arriveTagged g r a (waitValue e).toNat e s)
      have h2 := arriveTagged_tables g r a (waitValue e).toNat e s
      exact ⟨h1.1.trans h2.1, h1.2.1.trans h2.2.1, h1.2.2.trans h2.2.2⟩
    · exact ⟨rfl, rfl, rfl⟩

theorem wake_tables (s : State) : (wake s).plat = s.plat ∧ (wake s).tabs = s.tabs ∧ (wake s).mem = s.mem := arrivals_tables _ s

theorem barAdd_tables (g b n) (s : State) : (barAdd g b n s).plat = s.plat ∧ (barAdd g b n s).tabs = s.tabs ∧ (barAdd g b n s).mem = s.mem := by
  unfold barAdd; split
  · exact ⟨rfl, rfl, rfl⟩
  · rename_i x _
    have h1 := wake_tables (barSet g b ((barGet s x b).add n) s)
    have h2 := barSet_tables g b ((barGet s x b).add n) s
    exact ⟨h1.1.trans h2.1, h1.2.1.trans h2.2.1, h1.2.2.trans h2.2.2⟩

theorem setD_rank (s : State) (u ty d f) (k : Rank) (h : rank? s u.g u.r = some k) : rank? (setD u ty d f s) u.g u.r = some (writeAll u.ex ty d f k) := by
  unfold setD; rw [rank_modRank_same, h]; rfl

end Sys2Proof.Laws
end

