-- ==== Sys2Proof/Laws/PerInstr.lean ====
section
/-! SUPPORT. For every instruction: the fields that the encoder writes are read back as the instruction. -/

set_option linter.unusedVariables false
set_option linter.unusedSimpArgs false

namespace Sys2Proof.Laws.Parses

/-- The fields of an instruction's word, its unused operands zero, are those of no other instruction. -/
def Statement (i : Instr) : Prop :=
  (∀ w, i ≠ .illegalOpcode w) → (∀ w, i ≠ .extensionOpcode w) → reservedOk i = true → ∀ f, fieldsOf i = some f → parse f = some i

/-- An instruction whose FN is zero. -/
def only (fn : BitVec 6) (i : Instr) : Option Instr := if fn.toNat = 0 then some i else none

theorem nop (c : Ctl) : Statement (.nop c) := by
  intro _ _ hr f h; cases h
  have e : parse (c.fields 0x01 0 0 0 0 0 0) = (fun f : Fields => only f.fn (.nop f.ctl)) (c.fields 0x01 0 0 0 0 0 0) := rfl
  rw [e]; simp [only]
theorem illegalOpcode (w : IWord) : Statement (.illegalOpcode w) := fun h _ _ _ _ => absurd rfl (h w)
theorem extensionOpcode (w : IWord) : Statement (.extensionOpcode w) := fun _ h _ _ _ => absurd rfl (h w)
theorem iadd (sat : Bool) (x : Alu2) : Statement (.iadd sat x) := by
  intro _ _ hr f h; cases h
  have e : parse (x.fields 0x02 (fnBit sat)) = (fun f : Fields => (flag? f.fn.toNat).map fun s => .iadd s f.alu2) (x.fields 0x02 (fnBit sat)) := rfl
  rw [e]; simp
theorem isub (sat : Bool) (x : Alu2) : Statement (.isub sat x) := by
  intro _ _ hr f h; cases h
  have e : parse (x.fields 0x03 (fnBit sat)) = (fun f : Fields => (flag? f.fn.toNat).map fun s => .isub s f.alu2) (x.fields 0x03 (fnBit sat)) := rfl
  rw [e]; simp
theorem imul (f : MulFn) (x : Alu2) : Statement (.imul f x) := by
  intro _ _ hr f h; cases h
  have e : parse (x.fields 0x04 f.code) = (fun f : Fields => (MulFn.ofNat? f.fn.toNat).map fun m => .imul m f.alu2) (x.fields 0x04 f.code) := rfl
  rw [e]; simp
theorem imad (f : MulFn) (x : Alu3) : Statement (.imad f x) := by
  intro _ _ hr f h; cases h
  have e : parse (x.fields 0x05 f.code 0) = (fun f : Fields => (MulFn.ofNat? f.fn.toNat).map fun m => .imad m f.alu3) (x.fields 0x05 f.code 0) := rfl
  rw [e]; simp
theorem idiv (rem : Bool) (x : Alu2) : Statement (.idiv rem x) := by
  intro _ _ hr f h; cases h
  have e : parse (x.fields 0x06 (fnBit rem)) = (fun f : Fields => (flag? f.fn.toNat).map fun s => .idiv s f.alu2) (x.fields 0x06 (fnBit rem)) := rfl
  rw [e]; simp
theorem imin (x : Alu2) : Statement (.imin x) := by
  intro _ _ hr f h; cases h
  have e : parse (x.fields 0x07 0) = (fun f : Fields => only f.fn (.imin f.alu2)) (x.fields 0x07 0) := rfl
  rw [e]; simp [only]
theorem imax (x : Alu2) : Statement (.imax x) := by
  intro _ _ hr f h; cases h
  have e : parse (x.fields 0x08 0) = (fun f : Fields => only f.fn (.imax f.alu2)) (x.fields 0x08 0) := rfl
  rw [e]; simp [only]
theorem iabs (sat : Bool) (x : Alu1) : Statement (.iabs sat x) := by
  intro _ _ hr f h; cases h
  have e : parse (x.fields 0x09 (fnBit sat)) = (fun f : Fields => (flag? f.fn.toNat).map fun s => .iabs s f.alu1) (x.fields 0x09 (fnBit sat)) := rfl
  rw [e]; simp
theorem ineg (sat : Bool) (x : Alu1) : Statement (.ineg sat x) := by
  intro _ _ hr f h; cases h
  have e : parse (x.fields 0x0A (fnBit sat)) = (fun f : Fields => (flag? f.fn.toNat).map fun s => .ineg s f.alu1) (x.fields 0x0A (fnBit sat)) := rfl
  rw [e]; simp
theorem iset (cc : Cmp) (x : Alu2) : Statement (.iset cc x) := by
  intro _ _ hr f h; cases h
  have e : parse (x.fields 0x0B cc.code) = (fun f : Fields => (Cmp.ofNat? f.fn.toNat).map fun m => .iset m f.alu2) (x.fields 0x0B cc.code) := rfl
  rw [e]; simp
theorem idot (sat : Bool) (x : Alu3) : Statement (.idot sat x) := by
  intro _ _ hr f h; cases h
  have e : parse (x.fields 0x0C (fnBit sat) 0) = (fun f : Fields => (flag? f.fn.toNat).map fun s => .idot s f.alu3) (x.fields 0x0C (fnBit sat) 0) := rfl
  rw [e]; simp
theorem and (inv : Bool) (x : Alu2) : Statement (.and inv x) := by
  intro _ _ hr f h; cases h
  have e : parse (x.fields 0x10 (fnBit inv)) = (fun f : Fields => (flag? f.fn.toNat).map fun s => .and s f.alu2) (x.fields 0x10 (fnBit inv)) := rfl
  rw [e]; simp
theorem or (inv : Bool) (x : Alu2) : Statement (.or inv x) := by
  intro _ _ hr f h; cases h
  have e : parse (x.fields 0x11 (fnBit inv)) = (fun f : Fields => (flag? f.fn.toNat).map fun s => .or s f.alu2) (x.fields 0x11 (fnBit inv)) := rfl
  rw [e]; simp
theorem xor (x : Alu2) : Statement (.xor x) := by
  intro _ _ hr f h; cases h
  have e : parse (x.fields 0x12 0) = (fun f : Fields => only f.fn (.xor f.alu2)) (x.fields 0x12 0) := rfl
  rw [e]; simp [only]
theorem not (x : Alu1) : Statement (.not x) := by
  intro _ _ hr f h; cases h
  have e : parse (x.fields 0x13 0) = (fun f : Fields => only f.fn (.not f.alu1)) (x.fields 0x13 0) := rfl
  rw [e]; simp [only]
theorem lut (tab : BitVec 16) (x : Alu3) : Statement (.lut tab x) := by
  intro _ _ hr f h; cases h
  have e : parse (x.fields 0x14 0 ((0 : BitVec 6) ++ tab)) = (fun f : Fields => only f.fn (.lut (f.imm.extractLsb' 10 16) f.alu3)) (x.fields 0x14 0 ((0 : BitVec 6) ++ tab)) := rfl
  rw [e]; simp [only]
theorem shl (x : Alu2) : Statement (.shl x) := by
  intro _ _ hr f h; cases h
  have e : parse (x.fields 0x18 0) = (fun f : Fields => only f.fn (.shl f.alu2)) (x.fields 0x18 0) := rfl
  rw [e]; simp [only]
theorem shr (arith : Bool) (x : Alu2) : Statement (.shr arith x) := by
  intro _ _ hr f h; cases h
  have e : parse (x.fields 0x19 (fnBit arith)) = (fun f : Fields => (flag? f.fn.toNat).map fun s => .shr s f.alu2) (x.fields 0x19 (fnBit arith)) := rfl
  rw [e]; simp
theorem rot (right : Bool) (x : Alu2) : Statement (.rot right x) := by
  intro _ _ hr f h; cases h
  have e : parse (x.fields 0x1A (fnBit right)) = (fun f : Fields => (flag? f.fn.toNat).map fun s => .rot s f.alu2) (x.fields 0x1A (fnBit right)) := rfl
  rw [e]; simp
theorem shf (right : Bool) (x : Alu3) : Statement (.shf right x) := by
  intro _ _ hr f h; cases h
  have e : parse (x.fields 0x1B (fnBit right) 0) = (fun f : Fields => (flag? f.fn.toNat).map fun s => .shf s f.alu3) (x.fields 0x1B (fnBit right) 0) := rfl
  rw [e]; simp
theorem popc (x : Alu1) : Statement (.popc x) := by
  intro _ _ hr f h; cases h
  have e : parse (x.fields 0x20 0) = (fun f : Fields => only f.fn (.popc f.alu1)) (x.fields 0x20 0) := rfl
  rw [e]; simp [only]
theorem clz (x : Alu1) : Statement (.clz x) := by
  intro _ _ hr f h; cases h
  have e : parse (x.fields 0x21 0) = (fun f : Fields => only f.fn (.clz f.alu1)) (x.fields 0x21 0) := rfl
  rw [e]; simp [only]
theorem ctz (x : Alu1) : Statement (.ctz x) := by
  intro _ _ hr f h; cases h
  have e : parse (x.fields 0x22 0) = (fun f : Fields => only f.fn (.ctz f.alu1)) (x.fields 0x22 0) := rfl
  rw [e]; simp [only]
theorem brev (x : Alu1) : Statement (.brev x) := by
  intro _ _ hr f h; cases h
  have e : parse (x.fields 0x23 0) = (fun f : Fields => only f.fn (.brev f.alu1)) (x.fields 0x23 0) := rfl
  rw [e]; simp [only]
theorem bfx (sx : Bool) (x : Alu3) : Statement (.bfx sx x) := by
  intro _ _ hr f h; cases h
  have e : parse (x.fields 0x24 (fnBit sx) 0) = (fun f : Fields => (flag? f.fn.toNat).map fun s => .bfx s f.alu3) (x.fields 0x24 (fnBit sx) 0) := rfl
  rw [e]; simp
theorem bfi (x : Alu3) : Statement (.bfi x) := by
  intro _ _ hr f h; cases h
  have e : parse (x.fields 0x25 0 0) = (fun f : Fields => only f.fn (.bfi f.alu3)) (x.fields 0x25 0 0) := rfl
  rw [e]; simp [only]
theorem bmix (x : Alu3) : Statement (.bmix x) := by
  intro _ _ hr f h; cases h
  have e : parse (x.fields 0x26 0 0) = (fun f : Fields => only f.fn (.bmix f.alu3)) (x.fields 0x26 0 0) := rfl
  rw [e]; simp [only]
theorem mov (x : Alu1) : Statement (.mov x) := by
  intro _ _ hr f h; cases h
  have e : parse (x.fields 0x28 0) = (fun f : Fields => only f.fn (.mov f.alu1)) (x.fields 0x28 0) := rfl
  rw [e]; simp [only]
theorem sel (x : Alu3) : Statement (.sel x) := by
  intro _ _ hr f h; cases h
  have e : parse (x.fields 0x29 0 0) = (fun f : Fields => only f.fn (.sel f.alu3)) (x.fields 0x29 0 0) := rfl
  rw [e]; simp [only]
theorem pset (f : PsetFn) (x : Alu2) : Statement (.pset f x) := by
  intro _ _ hr f h; cases h
  have e : parse (x.fields 0x2A f.code) = (fun f : Fields => (PsetFn.ofNat? f.fn.toNat).map fun m => .pset m f.alu2) (x.fields 0x2A f.code) := rfl
  rw [e]; simp
theorem pmovPack (c : Ctl) (d : Opnd) : Statement (.pmovPack c d) := by
  intro _ _ hr f h; cases h
  have e : parse (c.fields 0x2B 0 0 d.code 0 0 0) = (fun f : Fields => (flag? f.fn.toNat).map fun s => if s then .pmovUnpack f.ctl (Opnd.ofCode f.a) else .pmovPack f.ctl (Opnd.ofCode f.d)) (c.fields 0x2B 0 0 d.code 0 0 0) := rfl
  rw [e]; simp
theorem pmovUnpack (c : Ctl) (a : Opnd) : Statement (.pmovUnpack c a) := by
  intro _ _ hr f h; cases h
  have e : parse (c.fields 0x2B 1 0 0 a.code 0 0) = (fun f : Fields => (flag? f.fn.toNat).map fun s => if s then .pmovUnpack f.ctl (Opnd.ofCode f.a) else .pmovPack f.ctl (Opnd.ofCode f.d)) (c.fields 0x2B 1 0 0 a.code 0 0) := rfl
  rw [e]; simp
theorem lea (c : Ctl) (sh : BitVec 3) (zx : Bool) (d a b x : Opnd) : Statement (.lea c sh zx d a b x) := by
  intro _ _ hr f h; cases h
  have e : parse (c.fields 0x30 0 ((sh ++ BitVec.ofBool zx ++ (0 : BitVec 3)) : BitVec 7) d.code a.code b.code (immX 0 x)) = (fun f : Fields => only f.fn (.lea f.ctl (f.md.extractLsb' 4 3) (f.md.getLsbD 3) (Opnd.ofCode f.d) (Opnd.ofCode f.a) (Opnd.ofCode f.b) f.x)) (c.fields 0x30 0 ((sh ++ BitVec.ofBool zx ++ (0 : BitVec 3)) : BitVec 7) d.code a.code b.code (immX 0 x)) := rfl
  rw [e]; simp [Fields.x, only]
theorem ptrMk (c : Ctl) (sp : MkSpace) (d a b : Opnd) (imm : Word) : Statement (.ptrMk c sp d a b imm) := by
  intro _ _ hr f h; cases h
  have e : parse (c.fields 0x31 0 (sp.code ++ (0 : BitVec 5)) d.code a.code b.code imm) = (fun f : Fields => match f.fn.toNat with
    | 0 => some (.ptrMk f.ctl (MkSpace.ofCode (f.md.extractLsb' 5 2)) (Opnd.ofCode f.d) (Opnd.ofCode f.a) (Opnd.ofCode f.b) f.imm)
    | 1 => some (.ptrAdd f.ctl (Opnd.ofCode f.d) (Opnd.ofCode f.a) (Opnd.ofCode f.b) f.imm)
    | 2 => some (.ptrChk f.ctl (Opnd.ofCode f.d) (Opnd.ofCode f.a) (Opnd.ofCode f.b) f.imm)
    | _ => Option.none) (c.fields 0x31 0 (sp.code ++ (0 : BitVec 5)) d.code a.code b.code imm) := rfl
  rw [e]; simp
theorem ptrAdd (c : Ctl) (d a b : Opnd) (imm : Word) : Statement (.ptrAdd c d a b imm) := by
  intro _ _ hr f h; cases h
  have e : parse (c.fields 0x31 1 0 d.code a.code b.code imm) = (fun f : Fields => match f.fn.toNat with
    | 0 => some (.ptrMk f.ctl (MkSpace.ofCode (f.md.extractLsb' 5 2)) (Opnd.ofCode f.d) (Opnd.ofCode f.a) (Opnd.ofCode f.b) f.imm)
    | 1 => some (.ptrAdd f.ctl (Opnd.ofCode f.d) (Opnd.ofCode f.a) (Opnd.ofCode f.b) f.imm)
    | 2 => some (.ptrChk f.ctl (Opnd.ofCode f.d) (Opnd.ofCode f.a) (Opnd.ofCode f.b) f.imm)
    | _ => Option.none) (c.fields 0x31 1 0 d.code a.code b.code imm) := rfl
  rw [e]; simp
theorem ptrChk (c : Ctl) (d a b : Opnd) (imm : Word) : Statement (.ptrChk c d a b imm) := by
  intro _ _ hr f h; cases h
  have e : parse (c.fields 0x31 2 0 d.code a.code b.code imm) = (fun f : Fields => match f.fn.toNat with
    | 0 => some (.ptrMk f.ctl (MkSpace.ofCode (f.md.extractLsb' 5 2)) (Opnd.ofCode f.d) (Opnd.ofCode f.a) (Opnd.ofCode f.b) f.imm)
    | 1 => some (.ptrAdd f.ctl (Opnd.ofCode f.d) (Opnd.ofCode f.a) (Opnd.ofCode f.b) f.imm)
    | 2 => some (.ptrChk f.ctl (Opnd.ofCode f.d) (Opnd.ofCode f.a) (Opnd.ofCode f.b) f.imm)
    | _ => Option.none) (c.fields 0x31 2 0 d.code a.code b.code imm) := rfl
  rw [e]; simp
theorem bra (c : Ctl) (imm : Word) : Statement (.bra c imm) := by
  intro _ _ hr f h; cases h
  have e : parse (c.fields 0x40 0 0 0 0 0 imm) = (fun f : Fields => only f.fn (.bra f.ctl f.imm)) (c.fields 0x40 0 0 0 0 0 imm) := rfl
  rw [e]; simp [only]
theorem brx (c : Ctl) (a : Opnd) : Statement (.brx c a) := by
  intro _ _ hr f h; cases h
  have e : parse (c.fields 0x41 0 0 0 a.code 0 0) = (fun f : Fields => only f.fn (.brx f.ctl (Opnd.ofCode f.a))) (c.fields 0x41 0 0 0 a.code 0 0) := rfl
  rw [e]; simp [only]
theorem call (c : Ctl) (imm : Word) : Statement (.call c imm) := by
  intro _ _ hr f h; cases h
  have e : parse (c.fields 0x42 0 0 0 0 0 imm) = (fun f : Fields => only f.fn (.call f.ctl f.imm)) (c.fields 0x42 0 0 0 0 0 imm) := rfl
  rw [e]; simp [only]
theorem callx (c : Ctl) (a : Opnd) : Statement (.callx c a) := by
  intro _ _ hr f h; cases h
  have e : parse (c.fields 0x43 0 0 0 a.code 0 0) = (fun f : Fields => only f.fn (.callx f.ctl (Opnd.ofCode f.a))) (c.fields 0x43 0 0 0 a.code 0 0) := rfl
  rw [e]; simp [only]
theorem ret (c : Ctl) : Statement (.ret c) := by
  intro _ _ hr f h; cases h
  have e : parse (c.fields 0x44 0 0 0 0 0 0) = (fun f : Fields => only f.fn (.ret f.ctl)) (c.fields 0x44 0 0 0 0 0 0) := rfl
  rw [e]; simp [only]
theorem join (c : Ctl) (d : Opnd) : Statement (.join c d) := by
  intro _ _ hr f h; cases h
  have e : parse (c.fields 0x45 0 0 d.code 0 0 0) = (fun f : Fields => only f.fn (.join f.ctl (Opnd.ofCode f.d))) (c.fields 0x45 0 0 d.code 0 0 0) := rfl
  rw [e]; simp [only]
theorem wait (c : Ctl) (a b : Opnd) (imm : Word) : Statement (.wait c a b imm) := by
  intro _ _ hr f h; cases h
  have e : parse (c.fields 0x46 0 0 0 a.code b.code imm) = (fun f : Fields => only f.fn (.wait f.ctl (Opnd.ofCode f.a) (Opnd.ofCode f.b) f.imm)) (c.fields 0x46 0 0 0 a.code b.code imm) := rfl
  rw [e]; simp [only]
theorem jset (c : Ctl) (d a : Opnd) (imm : Word) : Statement (.jset c d a imm) := by
  intro _ _ hr f h; cases h
  have e : parse (c.fields 0x47 0 0 d.code a.code 0 imm) = (fun f : Fields => only f.fn (.jset f.ctl (Opnd.ofCode f.d) (Opnd.ofCode f.a) f.imm)) (c.fields 0x47 0 0 d.code a.code 0 imm) := rfl
  rw [e]; simp [only]
theorem exit (c : Ctl) : Statement (.exit c) := by
  intro _ _ hr f h; cases h
  have e : parse (c.fields 0x48 0 0 0 0 0 0) = (fun f : Fields => only f.fn (.exit f.ctl)) (c.fields 0x48 0 0 0 0 0 0) := rfl
  rw [e]; simp [only]
theorem bkpt (c : Ctl) (code : BitVec 16) : Statement (.bkpt c code) := by
  intro _ _ hr f h; cases h
  have e : parse (c.fields 0x49 0 0 0 0 0 (immCode code)) = (fun f : Fields => only f.fn (.bkpt f.ctl (f.imm.extractLsb' 0 16))) (c.fields 0x49 0 0 0 0 0 (immCode code)) := rfl
  rw [e]; simp [only]
theorem ballot (x : Alu1) : Statement (.ballot x) := by
  intro _ _ hr f h; cases h
  have e : parse (x.fields 0x50 0) = (fun f : Fields => only f.fn (.ballot f.alu1)) (x.fields 0x50 0) := rfl
  rw [e]; simp [only]
theorem census (f : CensusFn) (x : Alu1) : Statement (.census f x) := by
  intro _ _ hr f h; cases h
  have e : parse (x.fields 0x51 f.code) = (fun f : Fields => (census? f.fn.toNat).map fun m => .census m f.alu1) (x.fields 0x51 f.code) := rfl
  rw [e]; simp
theorem same (f : SameFn) (x : Alu1) : Statement (.same f x) := by
  intro _ _ hr f h; cases h
  have e : parse (x.fields 0x52 f.code) = (fun f : Fields => (SameFn.ofNat? f.fn.toNat).map fun m => .same m f.alu1) (x.fields 0x52 f.code) := rfl
  rw [e]; simp
theorem shfl (f : ShflFn) (seg : BitVec 3) (x : Alu3) : Statement (.shfl f seg x) := by
  intro _ _ hr f h; cases h
  have e : parse (x.fields 0x53 f.code ((0 : BitVec 19) ++ seg)) = (fun f : Fields => (ShflFn.ofNat? f.fn.toNat).map fun m => .shfl m (f.imm.extractLsb' 10 3) f.alu3) (x.fields 0x53 f.code ((0 : BitVec 19) ++ seg)) := rfl
  rw [e]; simp
theorem red (f : RedFn) (x : Alu1) : Statement (.red f x) := by
  intro _ _ hr f h; cases h
  have e : parse (x.fields 0x54 f.code) = (fun f : Fields => (RedFn.ofNat? f.fn.toNat).map fun m => .red m f.alu1) (x.fields 0x54 f.code) := rfl
  rw [e]; simp
theorem scan (f : RedFn) (excl : Bool) (x : Alu1) : Statement (.scan f excl x) := by
  intro _ _ hr f h; cases h
  have e : parse (x.fields 0x55 ((0 : BitVec 2) ++ BitVec.ofBool excl ++ f.code.extractLsb' 0 3)) =
      parseScan (x.fields 0x55 ((0 : BitVec 2) ++ BitVec.ofBool excl ++ f.code.extractLsb' 0 3)) := rfl
  have e' : parseScan (x.fields 0x55 ((0 : BitVec 2) ++ BitVec.ofBool excl ++ f.code.extractLsb' 0 3)) =
      some (.scan f excl (x.fields 0x55 ((0 : BitVec 2) ++ BitVec.ofBool excl ++ f.code.extractLsb' 0 3)).alu1) := by
    have hf : (x.fields 0x55 ((0 : BitVec 2) ++ BitVec.ofBool excl ++ f.code.extractLsb' 0 3)).fn =
        (0 : BitVec 2) ++ BitVec.ofBool excl ++ f.code.extractLsb' 0 3 := rfl
    unfold parseScan
    rw [hf]
    cases excl <;> cases f <;> rfl
  rw [e, e']; simp
theorem bcast (x : Alu2) : Statement (.bcast x) := by
  intro _ _ hr f h; cases h
  have e : parse (x.fields 0x56 0) = (fun f : Fields => only f.fn (.bcast f.alu2)) (x.fields 0x56 0) := rfl
  rw [e]; simp [only]
theorem fadd (x : Alu2) : Statement (.fadd x) := by
  intro _ _ hr f h; cases h
  have e : parse (x.fields 0x60 0) = (fun f : Fields => only f.fn (.fadd f.alu2)) (x.fields 0x60 0) := rfl
  rw [e]; simp [only]
theorem fsub (x : Alu2) : Statement (.fsub x) := by
  intro _ _ hr f h; cases h
  have e : parse (x.fields 0x61 0) = (fun f : Fields => only f.fn (.fsub f.alu2)) (x.fields 0x61 0) := rfl
  rw [e]; simp [only]
theorem fmul (x : Alu2) : Statement (.fmul x) := by
  intro _ _ hr f h; cases h
  have e : parse (x.fields 0x62 0) = (fun f : Fields => only f.fn (.fmul f.alu2)) (x.fields 0x62 0) := rfl
  rw [e]; simp [only]
theorem ffma (ftz : Bool) (x : Alu3) : Statement (.ffma ftz x) := by
  intro _ _ hr f h; cases h
  have e : parse (x.fields 0x63 0 ((0 : BitVec 21) ++ BitVec.ofBool ftz)) = (fun f : Fields => only f.fn (.ffma (f.imm.getLsbD 10) f.alu3)) (x.fields 0x63 0 ((0 : BitVec 21) ++ BitVec.ofBool ftz)) := rfl
  rw [e]; simp [only]
theorem fmin (x : Alu2) : Statement (.fmin x) := by
  intro _ _ hr f h; cases h
  have e : parse (x.fields 0x64 0) = (fun f : Fields => only f.fn (.fmin f.alu2)) (x.fields 0x64 0) := rfl
  rw [e]; simp [only]
theorem fmax (x : Alu2) : Statement (.fmax x) := by
  intro _ _ hr f h; cases h
  have e : parse (x.fields 0x65 0) = (fun f : Fields => only f.fn (.fmax f.alu2)) (x.fields 0x65 0) := rfl
  rw [e]; simp [only]
theorem fset (cc : FCmp) (x : Alu2) : Statement (.fset cc x) := by
  intro _ _ hr f h; cases h
  have e : parse (x.fields 0x66 cc.code) = (fun f : Fields => (FCmp.ofNat? f.fn.toNat).map fun m => .fset m f.alu2) (x.fields 0x66 cc.code) := rfl
  rw [e]; simp
theorem fsign (f : SignFn) (x : Alu2) : Statement (.fsign f x) := by
  intro _ _ hr f h; cases h
  have e : parse (x.fields 0x67 f.code) = (fun f : Fields => (SignFn.ofNat? f.fn.toNat).map fun m => .fsign m f.alu2) (x.fields 0x67 f.code) := rfl
  rw [e]; simp
theorem fdiv (x : Alu2) : Statement (.fdiv x) := by
  intro _ _ hr f h; cases h
  have e : parse (x.fields 0x68 0) = (fun f : Fields => only f.fn (.fdiv f.alu2)) (x.fields 0x68 0) := rfl
  rw [e]; simp [only]
theorem fsqrt (x : Alu1) : Statement (.fsqrt x) := by
  intro _ _ hr f h; cases h
  have e : parse (x.fields 0x69 0) = (fun f : Fields => only f.fn (.fsqrt f.alu1)) (x.fields 0x69 0) := rfl
  rw [e]; simp [only]
theorem frcp (x : Alu1) : Statement (.frcp x) := by
  intro _ _ hr f h; cases h
  have e : parse (x.fields 0x6A 0) = (fun f : Fields => only f.fn (.frcp f.alu1)) (x.fields 0x6A 0) := rfl
  rw [e]; simp [only]
theorem frsq (x : Alu1) : Statement (.frsq x) := by
  intro _ _ hr f h; cases h
  have e : parse (x.fields 0x6B 0) = (fun f : Fields => only f.fn (.frsq f.alu1)) (x.fields 0x6B 0) := rfl
  rw [e]; simp [only]
theorem fexp2 (x : Alu1) : Statement (.fexp2 x) := by
  intro _ _ hr f h; cases h
  have e : parse (x.fields 0x6C 0) = (fun f : Fields => only f.fn (.fexp2 f.alu1)) (x.fields 0x6C 0) := rfl
  rw [e]; simp [only]
theorem flog2 (x : Alu1) : Statement (.flog2 x) := by
  intro _ _ hr f h; cases h
  have e : parse (x.fields 0x6D 0) = (fun f : Fields => only f.fn (.flog2 f.alu1)) (x.fields 0x6D 0) := rfl
  rw [e]; simp [only]
theorem fsin (x : Alu1) : Statement (.fsin x) := by
  intro _ _ hr f h; cases h
  have e : parse (x.fields 0x6E 0) = (fun f : Fields => only f.fn (.fsin f.alu1)) (x.fields 0x6E 0) := rfl
  rw [e]; simp [only]
theorem fcos (x : Alu1) : Statement (.fcos x) := by
  intro _ _ hr f h; cases h
  have e : parse (x.fields 0x6F 0) = (fun f : Fields => only f.fn (.fcos f.alu1)) (x.fields 0x6F 0) := rfl
  rw [e]; simp [only]
theorem ftanh (x : Alu1) : Statement (.ftanh x) := by
  intro _ _ hr f h; cases h
  have e : parse (x.fields 0x70 0) = (fun f : Fields => only f.fn (.ftanh f.alu1)) (x.fields 0x70 0) := rfl
  rw [e]; simp [only]
theorem fclass (x : Alu1) : Statement (.fclass x) := by
  intro _ _ hr f h; cases h
  have e : parse (x.fields 0x71 0) = (fun f : Fields => only f.fn (.fclass f.alu1)) (x.fields 0x71 0) := rfl
  rw [e]; simp [only]
theorem frnd (x : Alu1) : Statement (.frnd x) := by
  intro _ _ hr f h; cases h
  have e : parse (x.fields 0x72 0) = (fun f : Fields => only f.fn (.frnd f.alu1)) (x.fields 0x72 0) := rfl
  rw [e]; simp [only]
theorem fdot (ftz : Bool) (x : Alu3) : Statement (.fdot ftz x) := by
  intro _ _ hr f h; cases h
  have e : parse (x.fields 0x73 0 ((0 : BitVec 21) ++ BitVec.ofBool ftz)) = (fun f : Fields => only f.fn (.fdot (f.imm.getLsbD 10) f.alu3)) (x.fields 0x73 0 ((0 : BitVec 21) ++ BitVec.ofBool ftz)) := rfl
  rw [e]; simp [only]
theorem fact (f : ActFn) (x : Alu1) : Statement (.fact f x) := by
  intro _ _ hr f h; cases h
  have e : parse (x.fields 0x74 f.code) = (fun f : Fields => (ActFn.ofNat? f.fn.toNat).map fun m => .fact m f.alu1) (x.fields 0x74 f.code) := rfl
  rw [e]; simp
theorem cvt (sat : Bool) (sty : Ty) (x : Alu1) : Statement (.cvt sat sty x) := by
  intro _ _ hr f h; cases h
  have e : parse (x.fields 0x78 (fnTy sat sty)) = (fun f : Fields => some (.cvt (f.fn.getLsbD 5) f.tyFn f.alu1)) (x.fields 0x78 (fnTy sat sty)) := rfl
  rw [e]; simp
theorem bcvtPack (m : Bcvt) (x : Alu1) : Statement (.bcvtPack m x) := by
  intro _ _ hr f h; cases h
  have e : parse (x.c.fields 0x79 0 (modT x.ty x.rm) x.d.code x.a.code 0 (bcvtHi m ++ (0 : BitVec 10))) = (fun f : Fields => (flag? f.fn.toNat).map fun s => if s then .bcvtUnpack f.bcvt { f.alu2 with imm := 0 } else .bcvtPack f.bcvt { f.alu1 with imm := 0 }) (x.c.fields 0x79 0 (modT x.ty x.rm) x.d.code x.a.code 0 (bcvtHi m ++ (0 : BitVec 10))) := rfl
  rw [e]; simp
  obtain ⟨c, ty, rm, d, a, imm⟩ := x
  obtain rfl : imm = 0 := by simpa [reservedOk] using hr
  simp [Fields.alu1, Fields.ty, Fields.rm]
theorem bcvtUnpack (m : Bcvt) (x : Alu2) : Statement (.bcvtUnpack m x) := by
  intro _ _ hr f h; cases h
  have e : parse (x.c.fields 0x79 1 (modT x.ty x.rm) x.d.code x.a.code x.b.code (bcvtHi m ++ (0 : BitVec 10))) = (fun f : Fields => (flag? f.fn.toNat).map fun s => if s then .bcvtUnpack f.bcvt { f.alu2 with imm := 0 } else .bcvtPack f.bcvt { f.alu1 with imm := 0 }) (x.c.fields 0x79 1 (modT x.ty x.rm) x.d.code x.a.code x.b.code (bcvtHi m ++ (0 : BitVec 10))) := rfl
  rw [e]; simp
  obtain ⟨c, ty, rm, d, a, b, imm⟩ := x
  obtain rfl : imm = 0 := by simpa [reservedOk] using hr
  simp [Fields.alu2, Fields.ty, Fields.rm]
theorem ld (x : LoadOp) : Statement (.ld x) := by
  intro _ _ hr f h; cases h
  have e : parse (x.fields 0x90) = (fun f : Fields => some (.ld f.load)) (x.fields 0x90) := rfl
  rw [e]; simp
theorem st (x : StoreOp) : Statement (.st x) := by
  intro _ _ hr f h; cases h
  have e : parse (x.fields 0x91) = (fun f : Fields => some (.st f.store)) (x.fields 0x91) := rfl
  rw [e]; simp
theorem ldu (x : LoadOp) : Statement (.ldu x) := by
  intro _ _ hr f h; cases h
  have e : parse (x.fields 0x92) = (fun f : Fields => some (.ldu f.load)) (x.fields 0x92) := rfl
  rw [e]; simp
theorem ldx (x : LoadOp) : Statement (.ldx x) := by
  intro _ _ hr f h; cases h
  have e : parse (x.fields 0x93) = (fun f : Fields => some (.ldx f.load)) (x.fields 0x93) := rfl
  rw [e]; simp
theorem stc (x : StoreOp) : Statement (.stc x) := by
  intro _ _ hr f h; cases h
  have e : parse (x.fields 0x94) = (fun f : Fields => some (.stc f.store)) (x.fields 0x94) := rfl
  rw [e]; simp
theorem lr (x : LoadOp) : Statement (.lr x) := by
  intro _ _ hr f h; cases h
  have e : parse (x.fields 0x96) = (fun f : Fields => some (.lr f.load)) (x.fields 0x96) := rfl
  rw [e]; simp
theorem sc (x : StoreOp) : Statement (.sc x) := by
  intro _ _ hr f h; cases h
  have e : parse (x.fields 0x97) = (fun f : Fields => some (.sc f.store)) (x.fields 0x97) := rfl
  rw [e]; simp
theorem atom (x : AtomOp) : Statement (.atom x) := by
  intro _ _ hr f h; cases h
  have e : parse (x.fields 0x95) = (fun f : Fields => parseAtom .atom f) (x.fields 0x95) := rfl
  rw [e]; simp [parseAtom]
theorem xst (x : XstOp) : Statement (.xst x) := by
  intro _ _ hr f h; cases h
  have e : parse (x.c.fields 0x98 (fnTy x.rel x.ty) (modM x.sc x.fl x.ord) 0 x.a.code x.b.code x.disp) = (fun f : Fields => some (.xst f.xst)) (x.c.fields 0x98 (fnTy x.rel x.ty) (modM x.sc x.fl x.ord) 0 x.a.code x.b.code x.disp) := rfl
  rw [e]; simp
theorem xatom (x : AtomOp) : Statement (.xatom x) := by
  intro _ _ hr f h; cases h
  have e : parse (x.fields 0x99) = (fun f : Fields => parseAtom .xatom f) (x.fields 0x99) := rfl
  rw [e]; simp [parseAtom]
theorem fenceAcq (c : Ctl) (sc : Scope) : Statement (.fenceAcq c sc) := by
  intro _ _ hr f h; cases h
  have e : parse (c.fields 0x9A 0 (modF sc 0) 0 0 0 0) = (fun f : Fields => match f.fn.toNat with
    | 0 => some (.fenceAcq f.ctl f.sc)
    | 1 => some (.fenceRel f.ctl f.sc)
    | 2 => some (.fenceAr f.ctl f.sc)
    | 3 => some (.fenceSc f.ctl f.sc)
    | 4 => some (.fenceAck f.ctl)
    | 5 => some (.fenceTc f.ctl f.sc)
    | _ => Option.none) (c.fields 0x9A 0 (modF sc 0) 0 0 0 0) := rfl
  rw [e]; simp [Fields.sc]
theorem fenceRel (c : Ctl) (sc : Scope) : Statement (.fenceRel c sc) := by
  intro _ _ hr f h; cases h
  have e : parse (c.fields 0x9A 1 (modF sc 0) 0 0 0 0) = (fun f : Fields => match f.fn.toNat with
    | 0 => some (.fenceAcq f.ctl f.sc)
    | 1 => some (.fenceRel f.ctl f.sc)
    | 2 => some (.fenceAr f.ctl f.sc)
    | 3 => some (.fenceSc f.ctl f.sc)
    | 4 => some (.fenceAck f.ctl)
    | 5 => some (.fenceTc f.ctl f.sc)
    | _ => Option.none) (c.fields 0x9A 1 (modF sc 0) 0 0 0 0) := rfl
  rw [e]; simp [Fields.sc]
theorem fenceAr (c : Ctl) (sc : Scope) : Statement (.fenceAr c sc) := by
  intro _ _ hr f h; cases h
  have e : parse (c.fields 0x9A 2 (modF sc 0) 0 0 0 0) = (fun f : Fields => match f.fn.toNat with
    | 0 => some (.fenceAcq f.ctl f.sc)
    | 1 => some (.fenceRel f.ctl f.sc)
    | 2 => some (.fenceAr f.ctl f.sc)
    | 3 => some (.fenceSc f.ctl f.sc)
    | 4 => some (.fenceAck f.ctl)
    | 5 => some (.fenceTc f.ctl f.sc)
    | _ => Option.none) (c.fields 0x9A 2 (modF sc 0) 0 0 0 0) := rfl
  rw [e]; simp [Fields.sc]
theorem fenceSc (c : Ctl) (sc : Scope) : Statement (.fenceSc c sc) := by
  intro _ _ hr f h; cases h
  have e : parse (c.fields 0x9A 3 (modF sc 0) 0 0 0 0) = (fun f : Fields => match f.fn.toNat with
    | 0 => some (.fenceAcq f.ctl f.sc)
    | 1 => some (.fenceRel f.ctl f.sc)
    | 2 => some (.fenceAr f.ctl f.sc)
    | 3 => some (.fenceSc f.ctl f.sc)
    | 4 => some (.fenceAck f.ctl)
    | 5 => some (.fenceTc f.ctl f.sc)
    | _ => Option.none) (c.fields 0x9A 3 (modF sc 0) 0 0 0 0) := rfl
  rw [e]; simp [Fields.sc]
theorem fenceAck (c : Ctl) : Statement (.fenceAck c) := by
  intro _ _ hr f h; cases h
  have e : parse (c.fields 0x9A 4 0 0 0 0 0) = (fun f : Fields => match f.fn.toNat with
    | 0 => some (.fenceAcq f.ctl f.sc)
    | 1 => some (.fenceRel f.ctl f.sc)
    | 2 => some (.fenceAr f.ctl f.sc)
    | 3 => some (.fenceSc f.ctl f.sc)
    | 4 => some (.fenceAck f.ctl)
    | 5 => some (.fenceTc f.ctl f.sc)
    | _ => Option.none) (c.fields 0x9A 4 0 0 0 0 0) := rfl
  rw [e]; simp [Fields.sc]
theorem fenceTc (c : Ctl) (sc : Scope) : Statement (.fenceTc c sc) := by
  intro _ _ hr f h; cases h
  have e : parse (c.fields 0x9A 5 (modF sc 0) 0 0 0 0) = (fun f : Fields => match f.fn.toNat with
    | 0 => some (.fenceAcq f.ctl f.sc)
    | 1 => some (.fenceRel f.ctl f.sc)
    | 2 => some (.fenceAr f.ctl f.sc)
    | 3 => some (.fenceSc f.ctl f.sc)
    | 4 => some (.fenceAck f.ctl)
    | 5 => some (.fenceTc f.ctl f.sc)
    | _ => Option.none) (c.fields 0x9A 5 (modF sc 0) 0 0 0 0) := rfl
  rw [e]; simp [Fields.sc]
theorem cflushWb (c : Ctl) (a : Opnd) (disp : Word) : Statement (.cflushWb c a disp) := by
  intro _ _ hr f h; cases h
  have e : parse (c.fields 0x9B 0 0 0 a.code 0 disp) = (fun f : Fields => match f.fn.toNat with
    | 0 => some (.cflushWb f.ctl (Opnd.ofCode f.a) f.imm)
    | 1 => some (.cflushInv f.ctl (Opnd.ofCode f.a) f.imm)
    | 2 => some (.cflushWbinv f.ctl (Opnd.ofCode f.a) f.imm)
    | _ => Option.none) (c.fields 0x9B 0 0 0 a.code 0 disp) := rfl
  rw [e]; simp
theorem cflushInv (c : Ctl) (a : Opnd) (disp : Word) : Statement (.cflushInv c a disp) := by
  intro _ _ hr f h; cases h
  have e : parse (c.fields 0x9B 1 0 0 a.code 0 disp) = (fun f : Fields => match f.fn.toNat with
    | 0 => some (.cflushWb f.ctl (Opnd.ofCode f.a) f.imm)
    | 1 => some (.cflushInv f.ctl (Opnd.ofCode f.a) f.imm)
    | 2 => some (.cflushWbinv f.ctl (Opnd.ofCode f.a) f.imm)
    | _ => Option.none) (c.fields 0x9B 1 0 0 a.code 0 disp) := rfl
  rw [e]; simp
theorem cflushWbinv (c : Ctl) (a : Opnd) (disp : Word) : Statement (.cflushWbinv c a disp) := by
  intro _ _ hr f h; cases h
  have e : parse (c.fields 0x9B 2 0 0 a.code 0 disp) = (fun f : Fields => match f.fn.toNat with
    | 0 => some (.cflushWb f.ctl (Opnd.ofCode f.a) f.imm)
    | 1 => some (.cflushInv f.ctl (Opnd.ofCode f.a) f.imm)
    | 2 => some (.cflushWbinv f.ctl (Opnd.ofCode f.a) f.imm)
    | _ => Option.none) (c.fields 0x9B 2 0 0 a.code 0 disp) := rfl
  rw [e]; simp
theorem pref (c : Ctl) (pol : BitVec 2) (a : Opnd) (disp : Word) : Statement (.pref c pol a disp) := by
  intro _ _ hr f h; cases h
  have e : parse (c.fields 0x9C 0 (modM 0 pol false) 0 a.code 0 disp) = (fun f : Fields => only f.fn (.pref f.ctl f.pol (Opnd.ofCode f.a) f.imm)) (c.fields 0x9C 0 (modM 0 pol false) 0 a.code 0 disp) := rfl
  rw [e]; simp [Fields.pol, only]
theorem barCfg (c : Ctl) (a b : Opnd) (imm : Word) : Statement (.barCfg c a b imm) := by
  intro _ _ hr f h; cases h
  have e : parse (c.fields 0xB0 0 0 0 a.code b.code imm) = (fun f : Fields => match f.fn.toNat with
    | 0 => some (.barCfg f.ctl (Opnd.ofCode f.a) (Opnd.ofCode f.b) f.imm)
    | 1 => some (.barArv f.ctl f.sc (Opnd.ofCode f.d) (Opnd.ofCode f.a) f.imm)
    | 2 => some (.barWait f.ctl f.sc (Opnd.ofCode f.a) (Opnd.ofCode f.b) f.imm)
    | 3 => some (.barSync f.ctl f.sc (Opnd.ofCode f.a) f.imm)
    | 4 => some (.barAdd f.ctl f.sc (Opnd.ofCode f.a) (Opnd.ofCode f.b) f.imm)
    | 5 => some (.barTest f.ctl f.sc (Opnd.ofCode f.d) (Opnd.ofCode f.a) (Opnd.ofCode f.b) f.imm)
    | _ => Option.none) (c.fields 0xB0 0 0 0 a.code b.code imm) := rfl
  rw [e]; simp [Fields.sc]
theorem barArv (c : Ctl) (sc : Scope) (d a : Opnd) (imm : Word) : Statement (.barArv c sc d a imm) := by
  intro _ _ hr f h; cases h
  have e : parse (c.fields 0xB0 1 (modF sc 0) d.code a.code 0 imm) = (fun f : Fields => match f.fn.toNat with
    | 0 => some (.barCfg f.ctl (Opnd.ofCode f.a) (Opnd.ofCode f.b) f.imm)
    | 1 => some (.barArv f.ctl f.sc (Opnd.ofCode f.d) (Opnd.ofCode f.a) f.imm)
    | 2 => some (.barWait f.ctl f.sc (Opnd.ofCode f.a) (Opnd.ofCode f.b) f.imm)
    | 3 => some (.barSync f.ctl f.sc (Opnd.ofCode f.a) f.imm)
    | 4 => some (.barAdd f.ctl f.sc (Opnd.ofCode f.a) (Opnd.ofCode f.b) f.imm)
    | 5 => some (.barTest f.ctl f.sc (Opnd.ofCode f.d) (Opnd.ofCode f.a) (Opnd.ofCode f.b) f.imm)
    | _ => Option.none) (c.fields 0xB0 1 (modF sc 0) d.code a.code 0 imm) := rfl
  rw [e]; simp [Fields.sc]
theorem barWait (c : Ctl) (sc : Scope) (a b : Opnd) (imm : Word) : Statement (.barWait c sc a b imm) := by
  intro _ _ hr f h; cases h
  have e : parse (c.fields 0xB0 2 (modF sc 0) 0 a.code b.code imm) = (fun f : Fields => match f.fn.toNat with
    | 0 => some (.barCfg f.ctl (Opnd.ofCode f.a) (Opnd.ofCode f.b) f.imm)
    | 1 => some (.barArv f.ctl f.sc (Opnd.ofCode f.d) (Opnd.ofCode f.a) f.imm)
    | 2 => some (.barWait f.ctl f.sc (Opnd.ofCode f.a) (Opnd.ofCode f.b) f.imm)
    | 3 => some (.barSync f.ctl f.sc (Opnd.ofCode f.a) f.imm)
    | 4 => some (.barAdd f.ctl f.sc (Opnd.ofCode f.a) (Opnd.ofCode f.b) f.imm)
    | 5 => some (.barTest f.ctl f.sc (Opnd.ofCode f.d) (Opnd.ofCode f.a) (Opnd.ofCode f.b) f.imm)
    | _ => Option.none) (c.fields 0xB0 2 (modF sc 0) 0 a.code b.code imm) := rfl
  rw [e]; simp [Fields.sc]
theorem barSync (c : Ctl) (sc : Scope) (a : Opnd) (imm : Word) : Statement (.barSync c sc a imm) := by
  intro _ _ hr f h; cases h
  have e : parse (c.fields 0xB0 3 (modF sc 0) 0 a.code 0 imm) = (fun f : Fields => match f.fn.toNat with
    | 0 => some (.barCfg f.ctl (Opnd.ofCode f.a) (Opnd.ofCode f.b) f.imm)
    | 1 => some (.barArv f.ctl f.sc (Opnd.ofCode f.d) (Opnd.ofCode f.a) f.imm)
    | 2 => some (.barWait f.ctl f.sc (Opnd.ofCode f.a) (Opnd.ofCode f.b) f.imm)
    | 3 => some (.barSync f.ctl f.sc (Opnd.ofCode f.a) f.imm)
    | 4 => some (.barAdd f.ctl f.sc (Opnd.ofCode f.a) (Opnd.ofCode f.b) f.imm)
    | 5 => some (.barTest f.ctl f.sc (Opnd.ofCode f.d) (Opnd.ofCode f.a) (Opnd.ofCode f.b) f.imm)
    | _ => Option.none) (c.fields 0xB0 3 (modF sc 0) 0 a.code 0 imm) := rfl
  rw [e]; simp [Fields.sc]
theorem barAdd (c : Ctl) (sc : Scope) (a b : Opnd) (imm : Word) : Statement (.barAdd c sc a b imm) := by
  intro _ _ hr f h; cases h
  have e : parse (c.fields 0xB0 4 (modF sc 0) 0 a.code b.code imm) = (fun f : Fields => match f.fn.toNat with
    | 0 => some (.barCfg f.ctl (Opnd.ofCode f.a) (Opnd.ofCode f.b) f.imm)
    | 1 => some (.barArv f.ctl f.sc (Opnd.ofCode f.d) (Opnd.ofCode f.a) f.imm)
    | 2 => some (.barWait f.ctl f.sc (Opnd.ofCode f.a) (Opnd.ofCode f.b) f.imm)
    | 3 => some (.barSync f.ctl f.sc (Opnd.ofCode f.a) f.imm)
    | 4 => some (.barAdd f.ctl f.sc (Opnd.ofCode f.a) (Opnd.ofCode f.b) f.imm)
    | 5 => some (.barTest f.ctl f.sc (Opnd.ofCode f.d) (Opnd.ofCode f.a) (Opnd.ofCode f.b) f.imm)
    | _ => Option.none) (c.fields 0xB0 4 (modF sc 0) 0 a.code b.code imm) := rfl
  rw [e]; simp [Fields.sc]
theorem barTest (c : Ctl) (sc : Scope) (d a b : Opnd) (imm : Word) : Statement (.barTest c sc d a b imm) := by
  intro _ _ hr f h; cases h
  have e : parse (c.fields 0xB0 5 (modF sc 0) d.code a.code b.code imm) = (fun f : Fields => match f.fn.toNat with
    | 0 => some (.barCfg f.ctl (Opnd.ofCode f.a) (Opnd.ofCode f.b) f.imm)
    | 1 => some (.barArv f.ctl f.sc (Opnd.ofCode f.d) (Opnd.ofCode f.a) f.imm)
    | 2 => some (.barWait f.ctl f.sc (Opnd.ofCode f.a) (Opnd.ofCode f.b) f.imm)
    | 3 => some (.barSync f.ctl f.sc (Opnd.ofCode f.a) f.imm)
    | 4 => some (.barAdd f.ctl f.sc (Opnd.ofCode f.a) (Opnd.ofCode f.b) f.imm)
    | 5 => some (.barTest f.ctl f.sc (Opnd.ofCode f.d) (Opnd.ofCode f.a) (Opnd.ofCode f.b) f.imm)
    | _ => Option.none) (c.fields 0xB0 5 (modF sc 0) d.code a.code b.code imm) := rfl
  rw [e]; simp [Fields.sc]
theorem tlWait (c : Ctl) (sc : Scope) (tl : Tl) (d a : Opnd) (imm : Word) : Statement (.tlWait c sc tl d a imm) := by
  intro _ _ hr f h; cases h
  have e : parse (c.fields 0xB1 0 (modF sc tl.code) d.code a.code 0 imm) = (fun f : Fields => match f.fn.toNat with
    | 0 => some (.tlWait f.ctl f.sc (Tl.ofCode (f.md.extractLsb' 0 3)) (Opnd.ofCode f.d) (Opnd.ofCode f.a) f.imm)
    | 1 => some (.tlRead f.ctl (Tl.ofCode (f.md.extractLsb' 0 3)) (Opnd.ofCode f.d) f.imm)
    | _ => Option.none) (c.fields 0xB1 0 (modF sc tl.code) d.code a.code 0 imm) := rfl
  rw [e]; simp [Fields.sc]
theorem tlRead (c : Ctl) (tl : Tl) (d : Opnd) (imm : Word) : Statement (.tlRead c tl d imm) := by
  intro _ _ hr f h; cases h
  have e : parse (c.fields 0xB1 1 (modF 0 tl.code) d.code 0 0 imm) = (fun f : Fields => match f.fn.toNat with
    | 0 => some (.tlWait f.ctl f.sc (Tl.ofCode (f.md.extractLsb' 0 3)) (Opnd.ofCode f.d) (Opnd.ofCode f.a) f.imm)
    | 1 => some (.tlRead f.ctl (Tl.ofCode (f.md.extractLsb' 0 3)) (Opnd.ofCode f.d) f.imm)
    | _ => Option.none) (c.fields 0xB1 1 (modF 0 tl.code) d.code 0 0 imm) := rfl
  rw [e]; simp [Fields.sc]
theorem copy (e : Eng) : Statement (.copy e) := by
  intro _ _ hr f h; cases h
  have e : parse (e.fields 0xC0 0 0) = (fun f : Fields => (flag? f.fn.toNat).map fun s => if s then .copyPl (f.imm.extractLsb' 0 4) f.eng else .copy f.eng) (e.fields 0xC0 0 0) := rfl
  rw [e]; simp
theorem copyPl (t : BitVec 4) (e : Eng) : Statement (.copyPl t e) := by
  intro _ _ hr f h; cases h
  have e : parse (e.fields 0xC0 1 ((0 : BitVec 28) ++ t)) = (fun f : Fields => (flag? f.fn.toNat).map fun s => if s then .copyPl (f.imm.extractLsb' 0 4) f.eng else .copy f.eng) (e.fields 0xC0 1 ((0 : BitVec 28) ++ t)) := rfl
  rw [e]; simp
theorem gather (e : Eng) : Statement (.gather e) := by
  intro _ _ hr f h; cases h
  have e : parse (e.fields 0xC1 0 0) = (fun f : Fields => only f.fn (.gather f.eng)) (e.fields 0xC1 0 0) := rfl
  rw [e]; simp [only]
theorem scadd (e : Eng) : Statement (.scadd e) := by
  intro _ _ hr f h; cases h
  have e : parse (e.fields 0xC2 0 0) = (fun f : Fields => only f.fn (.scadd f.eng)) (e.fields 0xC2 0 0) := rfl
  rw [e]; simp [only]
theorem sort (e : Eng) : Statement (.sort e) := by
  intro _ _ hr f h; cases h
  have e : parse (e.fields 0xC3 0 0) = (fun f : Fields => only f.fn (.sort f.eng)) (e.fields 0xC3 0 0) := rfl
  rw [e]; simp [only]
theorem tcfg (c : Ctl) (wait : Bool) (d a : Opnd) (scaleoff : BitVec 20) : Statement (.tcfg c wait d a scaleoff) := by
  intro _ _ hr f h; cases h
  have e : parse (c.fields 0xC4 (fnBit wait) 0 d.code a.code 0 ((0 : BitVec 12) ++ scaleoff)) = (fun f : Fields => (flag? f.fn.toNat).map fun s => .tcfg f.ctl s (Opnd.ofCode f.d) (Opnd.ofCode f.a) (f.imm.extractLsb' 0 20)) (c.fields 0xC4 (fnBit wait) 0 d.code a.code 0 ((0 : BitVec 12) ++ scaleoff)) := rfl
  rw [e]; simp
theorem trel (c : Ctl) (wait : Bool) (a : Opnd) : Statement (.trel c wait a) := by
  intro _ _ hr f h; cases h
  have e : parse (c.fields 0xC5 (fnBit wait) 0 0 a.code 0 0) = (fun f : Fields => (flag? f.fn.toNat).map fun s => .trel f.ctl s (Opnd.ofCode f.a)) (c.fields 0xC5 (fnBit wait) 0 0 a.code 0 0) := rfl
  rw [e]; simp
theorem acfgTake (c : Ctl) (d a : Opnd) : Statement (.acfgTake c d a) := by
  intro _ _ hr f h; cases h
  have e : parse (c.fields 0xC6 0 0 d.code a.code 0 0) = (fun f : Fields => (flag? f.fn.toNat).map fun s => if s then .acfgRel f.ctl (Opnd.ofCode f.a) else .acfgTake f.ctl (Opnd.ofCode f.d) (Opnd.ofCode f.a)) (c.fields 0xC6 0 0 d.code a.code 0 0) := rfl
  rw [e]; simp
theorem acfgRel (c : Ctl) (a : Opnd) : Statement (.acfgRel c a) := by
  intro _ _ hr f h; cases h
  have e : parse (c.fields 0xC6 1 0 0 a.code 0 0) = (fun f : Fields => (flag? f.fn.toNat).map fun s => if s then .acfgRel f.ctl (Opnd.ofCode f.a) else .acfgTake f.ctl (Opnd.ofCode f.d) (Opnd.ofCode f.a)) (c.fields 0xC6 1 0 0 a.code 0 0) := rfl
  rw [e]; simp
theorem peer (c : Ctl) (n : BitVec 3) (a b : Opnd) : Statement (.peer c n a b) := by
  intro _ _ hr f h; cases h
  have e : parse (c.fields 0xC8 0 0 0 a.code b.code ((0 : BitVec 29) ++ n)) = (fun f : Fields => only f.fn (.peer f.ctl (f.imm.extractLsb' 0 3) (Opnd.ofCode f.a) (Opnd.ofCode f.b))) (c.fields 0xC8 0 0 0 a.code b.code ((0 : BitVec 29) ++ n)) := rfl
  rw [e]; simp [only]
theorem mstart (c : Ctl) (a : Opnd) : Statement (.mstart c a) := by
  intro _ _ hr f h; cases h
  have e : parse (c.fields 0xC7 0 0 0 a.code 0 0) = (fun f : Fields => only f.fn (.mstart f.ctl (Opnd.ofCode f.a))) (c.fields 0xC7 0 0 0 a.code 0 0) := rfl
  rw [e]; simp [only]
theorem coll (e : Eng) : Statement (.coll e) := by
  intro _ _ hr f h; cases h
  have e : parse (e.fields 0xC9 0 0) = (fun f : Fields => only f.fn (.coll f.eng)) (e.fields 0xC9 0 0) := rfl
  rw [e]; simp [only]
theorem mma (m : MmaOp) : Statement (.mma m) := by
  intro _ _ hr f h; cases h
  have e : parse (mFields 0xD0 (m.shape.code ++ BitVec.ofBool m.z ++ BitVec.ofBool m.sat ++ BitVec.ofBool m.kr ++ m.ctr)
        m.d.code m.a.code m.b.code (m.arow ++ m.brow ++ m.kbn ++ m.kb0)) = (fun f : Fields => only f.fn (.mma { shape := f.shape, z := f.md.getLsbD 4, sat := f.md.getLsbD 3, kr := f.md.getLsbD 2, ctr := f.md.extractLsb' 0 2, d := (Opnd.ofCode f.d), a := (Opnd.ofCode f.a), b := (Opnd.ofCode f.b), kb0 := f.imm.extractLsb' 0 12, kbn := f.imm.extractLsb' 12 12, brow := f.imm.extractLsb' 24 4, arow := f.imm.extractLsb' 28 4 })) (mFields 0xD0 (m.shape.code ++ BitVec.ofBool m.z ++ BitVec.ofBool m.sat ++ BitVec.ofBool m.kr ++ m.ctr)
        m.d.code m.a.code m.b.code (m.arow ++ m.brow ++ m.kbn ++ m.kb0)) := rfl
  rw [e]; simp [Fields.shape, only]
theorem mzero (shape : Shape) (d : Opnd) : Statement (.mzero shape d) := by
  intro _ _ hr f h; cases h
  have e : parse (mFields 0xD1 (shape.code ++ (0 : BitVec 5)) d.code 0 0 0) = (fun f : Fields => only f.fn (.mzero f.shape (Opnd.ofCode f.d))) (mFields 0xD1 (shape.code ++ (0 : BitVec 5)) d.code 0 0 0) := rfl
  rw [e]; simp [Fields.shape, only]
theorem mepi (shape : Shape) (a : Opnd) (desc : BitVec 19) : Statement (.mepi shape a desc) := by
  intro _ _ hr f h; cases h
  have e : parse (mFields 0xD2 (shape.code ++ (0 : BitVec 5)) 0 a.code 0 ((0 : BitVec 13) ++ desc)) = (fun f : Fields => only f.fn (.mepi f.shape (Opnd.ofCode f.a) (f.imm.extractLsb' 0 19))) (mFields 0xD2 (shape.code ++ (0 : BitVec 5)) 0 a.code 0 ((0 : BitVec 13) ++ desc)) := rfl
  rw [e]; simp [Fields.shape, only]
theorem mwait (sc : Scope) (pr : Bool) (ctr : BitVec 2) (a : Opnd) (phase : Word) : Statement (.mwait sc pr ctr a phase) := by
  intro _ _ hr f h; cases h
  have e : parse (mFields 0xD3 (sc ++ BitVec.ofBool pr ++ ctr) 0 a.code 0 phase) = (fun f : Fields => only f.fn (.mwait f.sc (f.md.getLsbD 2) (f.md.extractLsb' 0 2) (Opnd.ofCode f.a) f.imm)) (mFields 0xD3 (sc ++ BitVec.ofBool pr ++ ctr) 0 a.code 0 phase) := rfl
  rw [e]; simp [Fields.sc, only]
theorem marv (sc : Scope) (a : Opnd) (amount : Word) : Statement (.marv sc a amount) := by
  intro _ _ hr f h; cases h
  have e : parse (mFields 0xD4 (modF sc 0) 0 a.code 0 amount) = (fun f : Fields => only f.fn (.marv f.sc (Opnd.ofCode f.a) f.imm)) (mFields 0xD4 (modF sc 0) 0 a.code 0 amount) := rfl
  rw [e]; simp [Fields.sc, only]
theorem mloop (ctr : BitVec 2) (limit : BitVec 12) (off : BitVec 20) : Statement (.mloop ctr limit off) := by
  intro _ _ hr f h; cases h
  have e : parse (mFields 0xD5 (ctr ++ (0 : BitVec 5)) 0 0 0 (limit ++ off)) = (fun f : Fields => only f.fn (.mloop (f.md.extractLsb' 5 2) (f.imm.extractLsb' 20 12) (f.imm.extractLsb' 0 20))) (mFields 0xD5 (ctr ++ (0 : BitVec 5)) 0 0 0 (limit ++ off)) := rfl
  rw [e]; simp [only]
theorem mjmp (off : Word) : Statement (.mjmp off) := by
  intro _ _ hr f h; cases h
  have e : parse (mFields 0xD6 0 0 0 0 off) = (fun f : Fields => only f.fn (.mjmp f.imm)) (mFields 0xD6 0 0 0 0 off) := rfl
  rw [e]; simp [only]
theorem mstop : Statement (.mstop) := by
  intro _ _ hr f h; cases h
  have e : parse (mFields 0xD7 0 0 0 0 0) = (fun f : Fields => only f.fn .mstop) (mFields 0xD7 0 0 0 0 0) := rfl
  rw [e]; simp [only]
theorem trap (c : Ctl) (code : BitVec 16) : Statement (.trap c code) := by
  intro _ _ hr f h; cases h
  have e : parse (c.fields 0xE0 0 0 0 0 0 (immCode code)) = (fun f : Fields => only f.fn (.trap f.ctl (f.imm.extractLsb' 0 16))) (c.fields 0xE0 0 0 0 0 0 (immCode code)) := rfl
  rw [e]; simp [only]
theorem rtt (c : Ctl) : Statement (.rtt c) := by
  intro _ _ hr f h; cases h
  have e : parse (c.fields 0xE1 0 0 0 0 0 0) = (fun f : Fields => only f.fn (.rtt f.ctl)) (c.fields 0xE1 0 0 0 0 0 0) := rfl
  rw [e]; simp [only]
theorem srd (c : Ctl) (d : Opnd) (num : BitVec 12) (idx : BitVec 3) : Statement (.srd c d num idx) := by
  intro _ _ hr f h; cases h
  have e : parse (c.fields 0xE2 0 0 d.code 0 0 (immSys num idx)) = (fun f : Fields => only f.fn (.srd f.ctl (Opnd.ofCode f.d) (f.imm.extractLsb' 0 12) (f.imm.extractLsb' 12 3))) (c.fields 0xE2 0 0 d.code 0 0 (immSys num idx)) := rfl
  rw [e]; simp [only]
theorem swr (c : Ctl) (a : Opnd) (num : BitVec 12) (idx : BitVec 3) : Statement (.swr c a num idx) := by
  intro _ _ hr f h; cases h
  have e : parse (c.fields 0xE3 0 0 0 a.code 0 (immSys num idx)) = (fun f : Fields => only f.fn (.swr f.ctl (Opnd.ofCode f.a) (f.imm.extractLsb' 0 12) (f.imm.extractLsb' 12 3))) (c.fields 0xE3 0 0 0 a.code 0 (immSys num idx)) := rfl
  rw [e]; simp [only]
theorem yield (c : Ctl) : Statement (.yield c) := by
  intro _ _ hr f h; cases h
  have e : parse (c.fields 0xE4 0 0 0 0 0 0) = (fun f : Fields => only f.fn (.yield f.ctl)) (c.fields 0xE4 0 0 0 0 0 0) := rfl
  rw [e]; simp [only]
theorem launch (c : Ctl) (a : Opnd) : Statement (.launch c a) := by
  intro _ _ hr f h; cases h
  have e : parse (c.fields 0xE5 0 0 0 a.code 0 0) = (fun f : Fields => only f.fn (.launch f.ctl (Opnd.ofCode f.a))) (c.fields 0xE5 0 0 0 a.code 0 0) := rfl
  rw [e]; simp [only]
theorem evqPost (c : Ctl) (a b : Opnd) : Statement (.evqPost c a b) := by
  intro _ _ hr f h; cases h
  have e : parse (c.fields 0xE6 0 0 0 a.code b.code 0) = (fun f : Fields => only f.fn (.evqPost f.ctl (Opnd.ofCode f.a) (Opnd.ofCode f.b))) (c.fields 0xE6 0 0 0 a.code b.code 0) := rfl
  rw [e]; simp [only]
theorem ctxFrz (c : Ctl) (a : Opnd) : Statement (.ctxFrz c a) := by
  intro _ _ hr f h; cases h
  have e : parse (c.fields 0xE7 0 0 0 a.code 0 0) = (fun f : Fields => match f.fn.toNat with
    | 0 => some (.ctxFrz f.ctl (Opnd.ofCode f.a))
    | 1 => some (.ctxSav f.ctl (Opnd.ofCode f.a) (Opnd.ofCode f.b))
    | 2 => some (.ctxLd f.ctl (Opnd.ofCode f.a) (Opnd.ofCode f.b))
    | 3 => some (.ctxRes f.ctl (Opnd.ofCode f.a))
    | _ => Option.none) (c.fields 0xE7 0 0 0 a.code 0 0) := rfl
  rw [e]; simp
theorem ctxSav (c : Ctl) (a b : Opnd) : Statement (.ctxSav c a b) := by
  intro _ _ hr f h; cases h
  have e : parse (c.fields 0xE7 1 0 0 a.code b.code 0) = (fun f : Fields => match f.fn.toNat with
    | 0 => some (.ctxFrz f.ctl (Opnd.ofCode f.a))
    | 1 => some (.ctxSav f.ctl (Opnd.ofCode f.a) (Opnd.ofCode f.b))
    | 2 => some (.ctxLd f.ctl (Opnd.ofCode f.a) (Opnd.ofCode f.b))
    | 3 => some (.ctxRes f.ctl (Opnd.ofCode f.a))
    | _ => Option.none) (c.fields 0xE7 1 0 0 a.code b.code 0) := rfl
  rw [e]; simp
theorem ctxLd (c : Ctl) (a b : Opnd) : Statement (.ctxLd c a b) := by
  intro _ _ hr f h; cases h
  have e : parse (c.fields 0xE7 2 0 0 a.code b.code 0) = (fun f : Fields => match f.fn.toNat with
    | 0 => some (.ctxFrz f.ctl (Opnd.ofCode f.a))
    | 1 => some (.ctxSav f.ctl (Opnd.ofCode f.a) (Opnd.ofCode f.b))
    | 2 => some (.ctxLd f.ctl (Opnd.ofCode f.a) (Opnd.ofCode f.b))
    | 3 => some (.ctxRes f.ctl (Opnd.ofCode f.a))
    | _ => Option.none) (c.fields 0xE7 2 0 0 a.code b.code 0) := rfl
  rw [e]; simp
theorem ctxRes (c : Ctl) (a : Opnd) : Statement (.ctxRes c a) := by
  intro _ _ hr f h; cases h
  have e : parse (c.fields 0xE7 3 0 0 a.code 0 0) = (fun f : Fields => match f.fn.toNat with
    | 0 => some (.ctxFrz f.ctl (Opnd.ofCode f.a))
    | 1 => some (.ctxSav f.ctl (Opnd.ofCode f.a) (Opnd.ofCode f.b))
    | 2 => some (.ctxLd f.ctl (Opnd.ofCode f.a) (Opnd.ofCode f.b))
    | 3 => some (.ctxRes f.ctl (Opnd.ofCode f.a))
    | _ => Option.none) (c.fields 0xE7 3 0 0 a.code 0 0) := rfl
  rw [e]; simp
theorem xinv (c : Ctl) (a b : Opnd) : Statement (.xinv c a b) := by
  intro _ _ hr f h; cases h
  have e : parse (c.fields 0xE8 0 0 0 a.code b.code 0) = (fun f : Fields => only f.fn (.xinv f.ctl (Opnd.ofCode f.a) (Opnd.ofCode f.b))) (c.fields 0xE8 0 0 0 a.code b.code 0) := rfl
  rw [e]; simp [only]
theorem bufset (c : Ctl) (a b : Opnd) : Statement (.bufset c a b) := by
  intro _ _ hr f h; cases h
  have e : parse (c.fields 0xE9 0 0 0 a.code b.code 0) = (fun f : Fields => only f.fn (.bufset f.ctl (Opnd.ofCode f.a) (Opnd.ofCode f.b))) (c.fields 0xE9 0 0 0 a.code b.code 0) := rfl
  rw [e]; simp [only]
theorem eread (c : Ctl) (d : Opnd) : Statement (.eread c d) := by
  intro _ _ hr f h; cases h
  have e : parse (c.fields 0xEA 0 0 d.code 0 0 0) = (fun f : Fields => only f.fn (.eread f.ctl (Opnd.ofCode f.d))) (c.fields 0xEA 0 0 d.code 0 0 0) := rfl
  rw [e]; simp [only]
theorem halt (c : Ctl) : Statement (.halt c) := by
  intro _ _ hr f h; cases h
  have e : parse (c.fields 0xEB 0 0 0 0 0 0) = (fun f : Fields => only f.fn (.halt f.ctl)) (c.fields 0xEB 0 0 0 0 0 0) := rfl
  rw [e]; simp [only]
theorem loadResponse (k : Nat) : Statement (.loadResponse k) := fun _ _ _ _ h => nomatch h
theorem lineFill (g r : Nat) : Statement (.lineFill g r) := fun _ _ _ _ h => nomatch h
theorem impreciseFaultTaken (g r : Nat) : Statement (.impreciseFaultTaken g r) := fun _ _ _ _ h => nomatch h
theorem laneChoice (core lane : Nat) : Statement (.laneChoice core lane) := fun _ _ _ _ h => nomatch h
theorem staticEnergyBoundary : Statement (.staticEnergyBoundary) := fun _ _ _ _ h => nomatch h
theorem homeRequest (k : Nat) : Statement (.homeRequest k) := fun _ _ _ _ h => nomatch h
theorem engineCommandStart (e : EngineId) : Statement (.engineCommandStart e) := fun _ _ _ _ h => nomatch h
theorem engineAccessFault (k : Nat) : Statement (.engineAccessFault k) := fun _ _ _ _ h => nomatch h
theorem commandComplete (k : Nat) : Statement (.commandComplete k) := fun _ _ _ _ h => nomatch h
theorem reducerAdd (k : Nat) : Statement (.reducerAdd k) := fun _ _ _ _ h => nomatch h
theorem mmaKblockWrite (g k : Nat) : Statement (.mmaKblockWrite g k) := fun _ _ _ _ h => nomatch h
theorem mepiRowRetire (g k : Nat) : Statement (.mepiRowRetire g k) := fun _ _ _ _ h => nomatch h
theorem launchWindowWrite (q : Nat) (data : List Byte) : Statement (.launchWindowWrite q data) := fun _ _ _ _ h => nomatch h
theorem launchFrame (f : LaunchFrame) : Statement (.launchFrame f) := fun _ _ _ _ h => nomatch h
theorem dispatchRound : Statement (.dispatchRound) := fun _ _ _ _ h => nomatch h
theorem roomHold (q : Nat) : Statement (.roomHold q) := fun _ _ _ _ h => nomatch h
theorem queueTableWrite (st : PcbStore) : Statement (.queueTableWrite st) := fun _ _ _ _ h => nomatch h
theorem contextTableWrite (st : PcbStore) : Statement (.contextTableWrite st) := fun _ _ _ _ h => nomatch h
theorem hostContextTableWrite (st : PcbStore) : Statement (.hostContextTableWrite st) := fun _ _ _ _ h => nomatch h
theorem hevqWrite (st : PcbStore) : Statement (.hevqWrite st) := fun _ _ _ _ h => nomatch h
theorem ctxStepWindowFrz (st : PcbStore) : Statement (.ctxStepWindowFrz st) := fun _ _ _ _ h => nomatch h
theorem ctxStepWindowSav (st : PcbStore) : Statement (.ctxStepWindowSav st) := fun _ _ _ _ h => nomatch h
theorem ctxStepWindowLd (st : PcbStore) : Statement (.ctxStepWindowLd st) := fun _ _ _ _ h => nomatch h
theorem ctxStepWindowRes (st : PcbStore) : Statement (.ctxStepWindowRes st) := fun _ _ _ _ h => nomatch h
theorem ctxStepComplete (k : Nat) : Statement (.ctxStepComplete k) := fun _ _ _ _ h => nomatch h
theorem yieldTrap (g : Nat) : Statement (.yieldTrap g) := fun _ _ _ _ h => nomatch h
theorem yieldDeadline (ctx : Nat) : Statement (.yieldDeadline ctx) := fun _ _ _ _ h => nomatch h
theorem write (p : Packet) : Statement (.write p) := fun _ _ _ _ h => nomatch h
theorem atomicReturning (p : Packet) : Statement (.atomicReturning p) := fun _ _ _ _ h => nomatch h
theorem atomicNotReturning (p : Packet) : Statement (.atomicNotReturning p) := fun _ _ _ _ h => nomatch h
theorem readRequest (p : Packet) : Statement (.readRequest p) := fun _ _ _ _ h => nomatch h
theorem readResponse (p : Packet) : Statement (.readResponse p) := fun _ _ _ _ h => nomatch h
theorem acknowledgement (p : Packet) : Statement (.acknowledgement p) := fun _ _ _ _ h => nomatch h
theorem refusal (p : Packet) : Statement (.refusal p) := fun _ _ _ _ h => nomatch h
theorem peerPut (p : Packet) : Statement (.peerPut p) := fun _ _ _ _ h => nomatch h
theorem peerAdd (p : Packet) : Statement (.peerAdd p) := fun _ _ _ _ h => nomatch h
theorem reductionContribution (p : Packet) : Statement (.reductionContribution p) := fun _ _ _ _ h => nomatch h
theorem reductionResult (p : Packet) : Statement (.reductionResult p) := fun _ _ _ _ h => nomatch h
theorem slotRequest (r : SlotReq) : Statement (.slotRequest r) := fun _ _ _ _ h => nomatch h
theorem readShared (p : Packet) : Statement (.readShared p) := fun _ _ _ _ h => nomatch h
theorem readOwn (p : Packet) : Statement (.readOwn p) := fun _ _ _ _ h => nomatch h
theorem upgrade (p : Packet) : Statement (.upgrade p) := fun _ _ _ _ h => nomatch h
theorem writeBack (p : Packet) : Statement (.writeBack p) := fun _ _ _ _ h => nomatch h
theorem invalidate (p : Packet) : Statement (.invalidate p) := fun _ _ _ _ h => nomatch h
theorem lineData (p : Packet) : Statement (.lineData p) := fun _ _ _ _ h => nomatch h
theorem mirrorWrite (p : Packet) : Statement (.mirrorWrite p) := fun _ _ _ _ h => nomatch h
theorem mirrorAcknowledgement (p : Packet) : Statement (.mirrorAcknowledgement p) := fun _ _ _ _ h => nomatch h
theorem homeChange (p : Packet) : Statement (.homeChange p) := fun _ _ _ _ h => nomatch h
theorem launchPacket (p : Packet) : Statement (.launchPacket p) := fun _ _ _ _ h => nomatch h
theorem flitReceive (port : Nat) (f : Flit) : Statement (.flitReceive port f) := fun _ _ _ _ h => nomatch h
theorem linkReplayRequest (port : Nat) (lseq : BitVec 32) : Statement (.linkReplayRequest port lseq) := fun _ _ _ _ h => nomatch h
theorem portLockNotice (port : Nat) (pkg : BitVec 12) : Statement (.portLockNotice port pkg) := fun _ _ _ _ h => nomatch h
theorem resetNotice (src sctx : BitVec 12) : Statement (.resetNotice src sctx) := fun _ _ _ _ h => nomatch h
theorem ordRetryResend (k : Nat) : Statement (.ordRetryResend k) := fun _ _ _ _ h => nomatch h
theorem peerRetryResend (k : Nat) : Statement (.peerRetryResend k) := fun _ _ _ _ h => nomatch h
theorem tableLoad (t : TableLoad) : Statement (.tableLoad t) := fun _ _ _ _ h => nomatch h
theorem heartbeat : Statement (.heartbeat) := fun _ _ _ _ h => nomatch h
theorem lossAnnouncement (pkg : BitVec 12) : Statement (.lossAnnouncement pkg) := fun _ _ _ _ h => nomatch h
theorem mirrorTakeover (region : Nat) : Statement (.mirrorTakeover region) := fun _ _ _ _ h => nomatch h
theorem mirrorNamed (region : Nat) (mirror : MirrorOffer) : Statement (.mirrorNamed region mirror) := fun _ _ _ _ h => nomatch h
theorem zeroingComplete (k : Nat) : Statement (.zeroingComplete k) := fun _ _ _ _ h => nomatch h
theorem patrolScrub (chan row : Nat) (found : ScrubResult) : Statement (.patrolScrub chan row found) := fun _ _ _ _ h => nomatch h
theorem refresh (chan row : Nat) : Statement (.refresh chan row) := fun _ _ _ _ h => nomatch h
theorem layerRetireProceed (stack layer : Nat) : Statement (.layerRetireProceed stack layer) := fun _ _ _ _ h => nomatch h
theorem layoutPrepare (h : HostCmd) : Statement (.layoutPrepare h) := fun _ _ _ _ h => nomatch h
theorem layoutActivate (h : HostCmd) : Statement (.layoutActivate h) := fun _ _ _ _ h => nomatch h
theorem layoutRead (h : HostCmd) : Statement (.layoutRead h) := fun _ _ _ _ h => nomatch h
theorem mpRestart : Statement (.mpRestart) := fun _ _ _ _ h => nomatch h
theorem bearoff (h : HostCmd) : Statement (.bearoff h) := fun _ _ _ _ h => nomatch h
theorem bearoffEvaluation : Statement (.bearoffEvaluation) := fun _ _ _ _ h => nomatch h
theorem bearoffComparator : Statement (.bearoffComparator) := fun _ _ _ _ h => nomatch h
theorem bearoffDeadline (reqid : BitVec 32) : Statement (.bearoffDeadline reqid) := fun _ _ _ _ h => nomatch h
theorem bearoffComplete (reqid : BitVec 32) : Statement (.bearoffComplete reqid) := fun _ _ _ _ h => nomatch h
theorem ckpt (h : HostCmd) : Statement (.ckpt h) := fun _ _ _ _ h => nomatch h
theorem partnerDeltaStream (part : Nat) : Statement (.partnerDeltaStream part) := fun _ _ _ _ h => nomatch h
theorem pair (h : HostCmd) : Statement (.pair h) := fun _ _ _ _ h => nomatch h
theorem restore (h : HostCmd) : Statement (.restore h) := fun _ _ _ _ h => nomatch h
theorem keySet (h : HostCmd) : Statement (.keySet h) := fun _ _ _ _ h => nomatch h
theorem launchtabSet (h : HostCmd) : Statement (.launchtabSet h) := fun _ _ _ _ h => nomatch h
theorem journalRead (h : HostCmd) : Statement (.journalRead h) := fun _ _ _ _ h => nomatch h
theorem routeRead (h : HostCmd) : Statement (.routeRead h) := fun _ _ _ _ h => nomatch h
theorem slotRead (h : HostCmd) : Statement (.slotRead h) := fun _ _ _ _ h => nomatch h
theorem retire (h : HostCmd) : Statement (.retire h) := fun _ _ _ _ h => nomatch h
theorem attestationRequest (bytes : List Byte) (opens : Bool) : Statement (.attestationRequest bytes opens) := fun _ _ _ _ h => nomatch h
theorem powerGood (us : Nat) (outcomes : List BootOutcome) : Statement (.powerGood us outcomes) := fun _ _ _ _ h => nomatch h
theorem clockStepDown (drawMw : Nat) : Statement (.clockStepDown drawMw) := fun _ _ _ _ h => nomatch h
theorem clockStepUp (drawMw : Nat) : Statement (.clockStepUp drawMw) := fun _ _ _ _ h => nomatch h
theorem thermalTrip (dieTemps : List Nat) : Statement (.thermalTrip dieTemps) := fun _ _ _ _ h => nomatch h
theorem thermalResume (dieTemps : List Nat) : Statement (.thermalResume dieTemps) := fun _ _ _ _ h => nomatch h
theorem conflictingWriteHoldExpiry (granule : Nat) : Statement (.conflictingWriteHoldExpiry granule) := fun _ _ _ _ h => nomatch h
theorem regionCopyComplete (region : Nat) : Statement (.regionCopyComplete region) := fun _ _ _ _ h => nomatch h

end Sys2Proof.Laws.Parses
end

