-- ==== Sys2Proof/Laws/Traps.lean ====
section
/-! SUPPORT. Taking a trap, said once: the rank at its handler, the registers and every other rank as they were. -/

set_option linter.all false

open Sys2Proof Sys2Proof.Machine

namespace Sys2Proof.Laws

theorem foldl_id {α β : Type} (f : β → α → β) (l : List α) (h : ∀ b, ∀ a ∈ l, f b a = b) (b : β) : l.foldl f b = b := by
  induction l generalizing b with
  | nil => rfl
  | cons a l ih =>
    rw [List.foldl_cons, h b a (List.mem_cons_self ..)]
    exact ih (fun b a ha => h b a (List.mem_cons_of_mem _ ha)) b

theorem unstop_id (k : Rank) (h : ∀ e ∈ k.live, e.stop = none) : k.unstop = k := by
  unfold Rank.unstop
  rw [foldl_id _ _ (fun b e he => by simp [h e he])]
  rw [List.map_congr_left (g := id) (fun e he => by simp [h e he]), List.map_id]

theorem group_endPly (g r st) (s : State) (g') : (group? (endPly g r st s) g').map (fun x => { x with ranks := [] }) = (group? s g').map (fun x => { x with ranks := [] }) := by
  unfold endPly
  show (group? (modRank _ _ _ s) g').map _ = _
  rw [group_modRank]
  split
  · cases group? s g' <;> simp
  · rfl

theorem enterTrap_trapped (entry hdr cause tpc tval) (k0 k : Rank) (hl : k0.threads.length = 32) (ht : k.threads = k0.threads) (hn : k.noPly = k0.noPly) :
    Trapped k0 (enterTrap entry hdr false cause tpc tval none k) entry cause tpc tval := by
  have hr : k.regs = k0.regs := by
    have := congrArg Rank.regs hn
    exact this
  refine ⟨⟨rfl, rfl⟩, ⟨rfl, rfl, rfl⟩, ?_, ?_, ?_, ?_⟩
  · intro t hlt he
    simp only [enterTrap, Rank.thread, ht, List.getD_eq_getElem?_getD] at he ⊢
    rw [List.getElem?_map]
    rw [List.getElem?_eq_getElem hlt] at he ⊢
    simp only [Option.getD_some] at he
    simp [he]
  · intro t
    simp only [enterTrap, Rank.thread, ht, List.getD_eq_getElem?_getD]
    rw [List.getElem?_map]
    cases k0.threads[t]? with
    | none => rfl
    | some x => by_cases h : x.exited <;> simp [h]
  · show some (k.copyFrame k.threads) = _
    have h1 := congrArg Rank.p hn
    have h2 := congrArg Rank.w hn
    have h3 := congrArg Rank.j hn
    simp only [Rank.noPly] at h1 h2 h3
    simp only [Rank.copyFrame, h1, h2, h3, ht]
  · exact hr

theorem trapped_counted {k0 k k' : Rank} {entry cause tpc tval} (h : Trapped k0 k entry cause tpc tval) (hc : Counted k k') : Trapped k0 k' entry cause tpc tval := by
  rw [hc]
  exact ⟨h.level, h.regs, h.at', h.gone, h.copy, h.general⟩

/-- Taking a trap with a handler (R341): what it does to its rank, and what it leaves. -/
theorem takeTrap_enters {s : State} {g r : Nat} {x : Group} {c : Ctx} {k : Rank} {impr : Bool} {cause : BitVec 16} {tpc tval : Long} {fault : Option Entry}
    (hx : group? s g = some x) (hc : ctx? s x.ctx = some c) (hk : rank? s g r = some k)
    (h14 : cause ≠ 0x14) (hf : k.frameActive = false) (hv : c.trapvec ≠ 0) :
    let t := takeTrap g r impr cause tpc tval fault s
    (∃ k1 hdr k', k1.noPly = (pathPast impr fault k).unstop.noPly ∧ k1.threads = (pathPast impr fault k).unstop.threads ∧
      rank? t g r = some k' ∧ Counted (enterTrap c.trapvec hdr impr cause tpc tval fault k1) k') ∧
    (∀ g' r', (g', r') ≠ (g, r) → (rank? t g' r').map Rank.regs = (rank? s g' r').map Rank.regs) ∧
    t.plat = s.plat ∧ t.tabs = s.tabs := by
  generalize ht : takeTrap g r impr cause tpc tval fault s = t
  simp only
  simp only [takeTrap, takeTrapOf, hx, hc, hk, hf, hv, h14, if_false, or_false, Bool.false_eq_true] at ht
  generalize hs0 : modRank g r (fun k => (pathPast impr fault k).unstop) s = s0 at ht
  have hk0 : rank? s0 g r = some (pathPast impr fault k).unstop := by
    rw [← hs0, rank_modRank_same, hk]; rfl
  obtain ⟨hsame, k1, hk1, hn, hth⟩ := endPly_spec g r .ready s0 _ hk0
  generalize hs1 : endPly g r .ready s0 = s1 at ht hsame hk1
  generalize hs2 : ({ s1 with resv := s1.resv.filter fun v => !(v.group == g && v.rank == r) } : State) = s2 at ht
  have hk2 : rank? s2 g r = some k1 := by rw [← hs2]; exact hk1
  generalize hs3 : modRank g r (enterTrap c.trapvec (ifrec s2 g r) impr cause tpc tval fault) s2 = s3 at ht
  have hk3 : rank? s3 g r = some (enterTrap c.trapvec (ifrec s2 g r) impr cause tpc tval fault k1) := by
    rw [← hs3, rank_modRank_same, hk2]; rfl
  have hco : CountsOnly s3 t := by rw [← ht]; exact counts_trans (counts_dropCut ..) (counts_writeFrame ..)
  refine ⟨?_, ?_, ?_, ?_⟩
  · obtain ⟨k', hk', hcn⟩ := hco.ranks g r _ hk3
    exact ⟨k1, _, k', hn, hth, hk', hcn⟩
  · intro g' r' hne
    have h3 : rank? s3 g' r' = rank? s1 g' r' := by
      rw [← hs3, rank_modRank, ← hs2]
      split
      · rename_i h; exact absurd (Prod.ext h.1 h.2) hne
      · rfl
    have h0 : (rank? s1 g' r').map Rank.regs = (rank? s g' r').map Rank.regs := by
      have e : rank? s0 g' r' = rank? s g' r' := by
        rw [← hs0, rank_modRank]
        split
        · rename_i h; exact absurd (Prod.ext h.1 h.2) hne
        · rfl
      have h4 := hsame.ranks g' r' hne
      have h5 := congrArg (Option.map Rank.regs) h4
      simp only [Option.map_map] at h5
      rw [show Rank.regs ∘ Rank.noStarve = Rank.regs from rfl] at h5
      rw [h5, e]
    rw [← h0, ← h3]
    cases h : rank? s3 g' r' with
    | none => rw [hco.none _ _ h]
    | some y =>
      obtain ⟨y', hy', hc'⟩ := hco.ranks _ _ _ h
      rw [hy', hc']; rfl
  · rw [hco.plat, ← hs3, ← hs2]
    show s1.plat = _
    rw [← hs1, ← hs0]; rfl
  · rw [hco.tabs, ← hs3, ← hs2]
    show s1.tabs = _
    rw [← hs1, ← hs0]; rfl

end Sys2Proof.Laws
end

