-- ==== Sys2Proof/Tests/Slice0.lean ====
section
/-! SUPPORT. Tests: words written out bit by bit from their encodings and run for one step, with results taken from the rules; ill-formed
terms; and a state that meets the hypotheses of each statement. -/

set_option maxRecDepth 100000
set_option linter.all false

open Sys2Proof Sys2Proof.Machine

namespace Sys2Proof.Tests

/-! ### Helpers -/

/-- A word from its fields (R26): OPC, FN, D, A, B, guard, MOD, hint byte, IMM. -/
def word (opc : BitVec 8) (fn : BitVec 6) (d a b : BitVec 10) (g : BitVec 4) (n : BitVec 1) (md : BitVec 7) (h : BitVec 8)
    (imm : BitVec 32) : IWord := opc ++ fn ++ d ++ a ++ b ++ g ++ n ++ md ++ h ++ imm

/-- A word without guard, hint byte and second operand. -/
def plain (opc : BitVec 8) (fn : BitVec 6) (d a b : BitVec 10) (md : BitVec 7) (imm : BitVec 32) : IWord := word opc fn d a b 0 0 md 0 imm

/-- After reset, with the word where the next step fetches it. -/
def start (w : IWord) : State := State.reset.withFetchWord 96 w.toNat

def onRank (f : Rank → Rank) (s : State) : State := modRank 0 0 f s
def onGroup (f : Group → Group) (s : State) : State := modGroup 0 f s
def onCtx (f : Ctx → Ctx) (s : State) : State := modCtx 0 f s

/-- Register vi of thread t holds x. -/
def putV (i : BitVec 8) (t x : Nat) : State → State := onRank (writeOpnd .b32 (.v i) t x)
def putW (i : BitVec 6) (x : Nat) : State → State := onRank (writeOpnd .b64 (.w i) 0 x)
/-- Predicate pi holds for the threads of m. -/
def putP (i : BitVec 4) (m : Mask) : State → State := onRank fun k => { k with p := sput 0 i.toNat m k.p }
/-- The context has a handler at 64. -/
def withHandler : State → State := onCtx fun c => { c with trapvec := 64 }

/-- The step goes on to a state with property p. -/
def steps (s : State) (p : State → Bool) : Bool := match step s with | .next t => p t | _ => false
/-- The instruction goes on to a state with property p. -/
def after (i : Instr) (s : State) (p : State → Bool) : Bool := match exec i s with | .next t => p t | _ => false
def rankIs (p : Rank → Bool) (s : State) : Bool := match rank? s 0 0 with | some k => p k | none => false
def groupIs (p : Group → Bool) (s : State) : Bool := match group? s 0 with | some x => p x | none => false
def ctxIs (p : Ctx → Bool) (s : State) : Bool := match ctx? s 0 with | some c => p c | none => false
/-- The rank took a precise trap of this cause at the word, with this TVAL. -/
def tookTrap (cause tval : Nat) : State → Bool := rankIs fun k =>
  k.handler && k.tcause.toNat % 65536 == cause && k.tpc.toNat == loadAddr && k.tval.toNat == tval

/-! ### Words and their results -/

-- IADD v1, v2, immediate (R75): 1 + (2^31 - 1) wraps, and saturates with FN 1
theorem test_iadd_wraps : steps (putV 2 0 1 (start (plain 0x02 0 1 2 0x380 0b0011100 0x7FFFFFFF)))
    (rankIs fun k => k.vreg 1 0 == 0x80000000 && k.vreg 2 0 == 1) = true := by decide
theorem test_iadd_saturates : steps (putV 2 0 1 (start (plain 0x02 1 1 2 0x380 0b0011100 0x7FFFFFFF)))
    (rankIs fun k => k.vreg 1 0 == 0x7FFFFFFF) = true := by decide
-- IMUL.hi.s32 of -1 and 1 (R75)
theorem test_imul_hi : steps (putV 2 0 0xFFFFFFFF (start (plain 0x04 1 1 2 0x380 0b0011100 1)))
    (rankIs fun k => k.vreg 1 0 == 0xFFFFFFFF) = true := by decide
-- IDIV by zero (R76): quotient -1, remainder the dividend
theorem test_idiv_by_zero : steps (putV 2 0 9 (start (plain 0x06 0 1 2 0x380 0b0011100 0)))
    (rankIs fun k => k.vreg 1 0 == 0xFFFFFFFF) = true := by decide
theorem test_idiv_rem_sign : steps (putV 2 0 0xFFFFFFF9 (start (plain 0x06 1 1 2 0x380 0b0011100 2)))
    (rankIs fun k => k.vreg 1 0 == 0xFFFFFFFF) = true := by decide
-- ISET.lt.s32 p2 (R77): -1 < 0, and 0 < 0 does not hold
theorem test_iset_signed : steps (putV 2 0 0xFFFFFFFF (start (plain 0x0B 2 0b1000000010 2 0x380 0b0011100 0)))
    (rankIs fun k => k.pred 2 == 1) = true := by decide
-- LUT.b32 (R79): the table's bit 8d + 4a + 2b + c; table 0x8000 gives the AND of all four
theorem test_lut_index : steps (putV 4 0 6 (putV 3 0 12 (putV 2 0 0xF (putV 1 0 0xE (start (plain 0x14 0 1 2 3 0b0001000 (0x8000 * 1024 + 4)))))))
    (rankIs fun k => k.vreg 1 0 == 4) = true := by decide
-- SHL.b32 by 32 gives zero (R80); SHF.left by 32 gives B (R81)
theorem test_shl_all : steps (putV 2 0 5 (start (plain 0x18 0 1 2 0x380 0b0001000 32))) (rankIs fun k => k.vreg 1 0 == 0) = true := by decide
theorem test_shf_left : steps (putV 4 0 40 (putV 3 0 7 (putV 2 0 9 (start (plain 0x1B 0 1 2 3 0b0001000 4)))))
    (rankIs fun k => k.vreg 1 0 == 7) = true := by decide
-- CLZ of 0 (R82), BREV of 1
theorem test_clz_zero : steps (start (plain 0x21 0 1 2 0 0b0001000 0)) (rankIs fun k => k.vreg 1 0 == 32) = true := by decide
theorem test_brev : steps (putV 2 0 1 (start (plain 0x23 0 1 2 0 0b0001000 0))) (rankIs fun k => k.vreg 1 0 == 0x80000000) = true := by decide
-- BFX.s of the byte at 8 (R83); BFI of 0xFF at 28 for 8 bits (R84)
theorem test_bfx_sign : steps (putV 4 0 8 (putV 3 0 8 (putV 2 0 0x8000 (start (plain 0x24 1 1 2 3 0b0001000 4)))))
    (rankIs fun k => k.vreg 1 0 == 0xFFFFFF80) = true := by decide
theorem test_bfi_cut : steps (putV 4 0 0x081C (putV 3 0 0xFF (start (plain 0x25 0 1 2 3 0b0001000 4))))
    (rankIs fun k => k.vreg 1 0 == 0xF0000000) = true := by decide
-- SEL (R87), PSET.andn (R88), PMOV.pack (R89)
theorem test_sel : steps (putP 5 2 (putV 2 1 8 (putV 3 0 9 (start (plain 0x29 0 1 2 3 0b0001000 0b1000000101)))))
    (rankIs fun k => k.vreg 1 0 == 9 && k.vreg 1 1 == 8) = true := by decide
theorem test_pset_andn : steps (putP 3 6 (putP 2 5 (start (plain 0x2A 3 0b1000000001 0b1000000010 0b1000000011 0 0))))
    (rankIs fun k => k.pred 1 == 1) = true := by decide
theorem test_pmov_pack : steps (putP 4 1 (start (plain 0x2B 0 1 0 0 0 0))) (rankIs fun k => k.vreg 1 0 == 17 && k.vreg 1 1 == 1) = true := by
  decide
-- LEA with a zero-extended index shifted by 3 (R90); PTR.mk of local region 1, offset 8 (R91)
theorem test_lea : steps (putV 3 0 0xFFFFFFFF (start (plain 0x30 0 4 6 3 0b0111000 8))) (rankIs fun k => k.vreg 4 0 == 0xFFFFFFF8 && k.vreg 5 0 == 7)
    = true := by decide
theorem test_ptr_mk : steps (putW 2 8 (start (plain 0x31 0 0b0100000011 0b0100000010 0x380 0b1000000 1)))
    (rankIs fun k => k.wreg 3 == 0x8000000100000008) = true := by decide
-- BRA by 24 under ?p1 (R93, R94): thread 0 goes there, the others past the word
theorem test_bra : steps (putP 1 1 (start (word 0x40 0 0 0 0 1 0 0 0 24)))
    (rankIs fun k => (k.thread 0).pc.toNat == loadAddr + 24 && (k.thread 1).pc.toNat == loadAddr + 12) = true := by decide
theorem test_bra_misaligned : steps (withHandler (start (plain 0x40 0 0 0 0 0 26))) (tookTrap 0x05 (loadAddr + 26)) = true := by decide
-- RET with an empty stack (R96), WAIT and JOIN (R98)
theorem test_ret_underflow : steps (withHandler (start (plain 0x44 0 0 0 0 0 0))) (tookTrap 0x0B 0) = true := by decide
theorem test_call_pushes : steps (start (plain 0x42 0 0 0 0 0 48))
    (rankIs fun k => (k.thread 31).stack == [BitVec.ofNat 64 (loadAddr + 12)] && (k.thread 31).pc.toNat == loadAddr + 48) = true := by decide
theorem test_join : steps (putP 1 6 (start (word 0x45 0 0b1001000010 0 0 1 0 0 0 0))) (rankIs fun k => k.jreg 2 == 6) = true := by decide
theorem test_exit_retires : steps (start (plain 0x48 0 0 0 0 0 0)) (fun s => (rank? s 0 0).all fun k => k.st == .retired) = true := by decide
-- TRAP (R180) and BKPT (R101): the code in TVAL
theorem test_trap : steps (withHandler (start (plain 0xE0 0 0 0 0 0 77))) (tookTrap 0x09 77) = true := by decide
theorem test_bkpt : steps (withHandler (start (plain 0x49 0 0 0 0 0 78))) (tookTrap 0x08 78) = true := by decide

/-- Register vi of thread t holds f t, for every thread. -/
def putAll (i : BitVec 8) (f : Nat → Nat) (s : State) : State := (List.range 32).foldl (fun s t => putV i t (f t) s) s

-- CENSUS.most p2, p1 (R103): 17 of 32; BALLOT w1, p1
theorem test_census_most : steps (putP 1 0x1FFFF (start (plain 0x51 2 0b1000000010 0b1000000001 0 0 0))) (rankIs fun k => k.pred 2 == 0xFFFFFFFF)
    = true := by decide
theorem test_ballot : steps (putP 1 0xF0 (start (plain 0x50 0 0b0100000001 0b1000000001 0 0 0))) (rankIs fun k => k.wreg 1 == 0xF0) = true := by
  decide
-- SAME.lead over equal values (R104); SHFL.rot by 1 in segments of 16 (R105)
theorem test_same_lead : steps (putV 2 5 9 (putV 2 7 9 (start (plain 0x52 1 1 2 0 0b0001000 0)))) (rankIs fun k =>
    k.vreg 1 7 == 5 && k.vreg 1 6 == 0) = true := by decide
theorem test_shfl_rot : steps (putAll 2 (fun t => 100 + t) (putAll 3 (fun _ => 1) (start (plain 0x53 1 1 2 3 0b0001000 (1 * 1024 + 2)))))
    (rankIs fun k => k.vreg 1 15 == 100 && k.vreg 1 14 == 115) = true := by decide
-- RED.add.s32 and an exclusive SCAN.add.s32 of 1 in every thread (R106); BCAST from thread 3 (R107)
theorem test_red_add : steps (putAll 2 (fun _ => 1) (start (plain 0x54 0 1 2 0 0b0011100 0))) (rankIs fun k => k.vreg 1 9 == 32) = true := by decide
theorem test_scan_excl : steps (putAll 2 (fun _ => 1) (start (plain 0x55 8 1 2 0 0b0011100 0))) (rankIs fun k => k.vreg 1 9 == 9) = true := by decide
theorem test_bcast : steps (putV 2 3 77 (start (plain 0x56 0 1 2 0x380 0b0001000 3))) (rankIs fun k => k.vreg 1 30 == 77) = true := by decide
-- FADD.f32 1.5 + 2.25 (R108); FFMA 1.5 * 2 + 2.25; FDIV 1 / 3 rounded to nearest; FMIN of a NaN and 1 (R110)
theorem test_fadd : steps (putV 2 0 0x3FC00000 (start (plain 0x60 0 1 2 0x380 0b0110100 0x40100000))) (rankIs fun k => k.vreg 1 0 == 0x40700000) = true := by
  decide
theorem test_ffma : steps (putV 4 0 0x40100000 (putV 3 0 0x40000000 (putV 2 0 0x3FC00000 (start (plain 0x63 0 1 2 3 0b0110100 4)))))
    (rankIs fun k => k.vreg 1 0 == 0x40A80000) = true := by decide
theorem test_fdiv_third : steps (putV 2 0 0x3F800000 (start (plain 0x68 0 1 2 0x380 0b0110100 0x40400000))) (rankIs fun k => k.vreg 1 0 == 0x3EAAAAAB)
    = true := by decide
theorem test_fset_num : steps (putV 2 0 0x7FC00000 (start (plain 0x66 6 0b1000000010 2 0x380 0b0110100 0))) (rankIs fun k => (k.pred 2).getLsbD 0 == false &&
    (k.pred 2).getLsbD 1) = true := by decide
-- FSIGN.neg of +1 (R112), FCLASS of -0 (R114), FSQRT of 4, FRCP of 2
theorem test_fsign_neg : steps (putV 2 0 0x3F800000 (start (plain 0x67 1 1 2 0 0b0110100 0))) (rankIs fun k => k.vreg 1 0 == 0xBF800000) = true := by decide
theorem test_fclass : steps (putV 2 0 0x80000000 (start (plain 0x71 0 1 2 0 0b0110100 0))) (rankIs fun k => k.vreg 1 0 == 8) = true := by decide
theorem test_fsqrt : steps (putV 2 0 0x40800000 (start (plain 0x69 0 1 2 0 0b0110100 0))) (rankIs fun k => k.vreg 1 0 == 0x40000000) = true := by decide
theorem test_frcp : steps (putV 2 0 0x40000000 (start (plain 0x6A 0 1 2 0 0b0110100 0))) (rankIs fun k => k.vreg 1 0 == 0x3F000000) = true := by decide
-- R119's examples: CVT.s8.f32 of 200.7 gives 127, CVT.b8.s32 of -1 gives 0xFF without .sat and 0 with it
theorem test_cvt_clamps : steps (putV 2 0 0x4348B333 (start (plain 0x78 13 1 2 0 0b0010100 0))) (rankIs fun k => k.vreg 1 0 == 127) = true := by decide
theorem test_cvt_keeps : steps (putV 2 0 0xFFFFFFFF (start (plain 0x78 7 1 2 0 0 0))) (rankIs fun k => k.vreg 1 0 == 0xFF) = true := by decide
theorem test_cvt_sat : steps (putV 2 0 0xFFFFFFFF (start (plain 0x78 39 1 2 0 0 0))) (rankIs fun k => k.vreg 1 0 == 0) = true := by decide
-- ST.b32 to scratch byte 0x100 (R125, R277), LD.s8 back, LDU of a pointer that is no multiple of 4 (R124)
theorem test_st_little_endian : steps (putP 1 1 (putV 5 0 0x11223344 (putW 2 0x8000000000000100 (start (word 0x91 2 0 0b0100000010 5 1 0 0 0 0)))))
    (groupIs fun x => x.scratch == [(0x100, 0x44), (0x101, 0x33), (0x102, 0x22), (0x103, 0x11)]) = true := by decide
theorem test_ld_sign_extends : steps (onGroup (fun x => { x with scratch := [(0x101, 0x80)] }) (putW 2 0x8000000000000100
    (start (plain 0x90 5 1 0b0100000010 0 0 1)))) (rankIs fun k => k.vreg 1 3 == 0xFFFFFF80) = true := by decide
theorem test_ldu_misaligned : steps (withHandler (putW 2 0x8000000000000102 (start (plain 0x92 2 0b0100000001 0b0100000010 0 0 0))))
    (tookTrap 0x11 0x8000000000000102) = true := by decide
theorem test_ld_bounds : steps (withHandler (putW 2 0x8000000000080000 (start (plain 0x90 2 1 0b0100000010 0 0 0))))
    (tookTrap 0x12 0x8000000000080000) = true := by decide
-- ATOM.add.b32 on a scratch word (R132): 32 threads add 1, the last reads 31
theorem test_atom_add : steps (putAll 5 (fun _ => 1) (putW 2 0x8000000000000040 (start (plain 0x95 0 1 0b0100000010 5 0 (2 * 1024)))))
    (fun s => groupIs (fun x => x.scratch == [(0x40, 32)]) s && rankIs (fun k => k.vreg 1 31 == 31 && k.vreg 1 0 == 0) s) = true := by decide
-- FENCE.ack with no counter, FENCE.rel.grp (R137)
theorem test_fence_ack : steps (start (plain 0x9A 4 0 0 0 0 0)) (rankIs fun k => (k.thread 0).pc.toNat == loadAddr + 12) = true := by decide
-- BAR.cfg b5 to a target of 1, BAR.arv (R142): the phase completes; an unconfigured barrier traps with its number
theorem test_bar_cfg : steps (start (plain 0xB0 0 0 0b1100000101 0x380 0 1)) 
    (groupIs fun x => x.bars == [(5, { byteMode := false, target := 1, count := 0, phase := 0 })]) = true := by decide
theorem test_bar_arv : steps (onGroup (fun x => { x with bars := [(5, { byteMode := false, target := 1, count := 0, phase := 6 })] })
    (start (plain 0xB0 1 0b0100000001 0b1100000101 0 0b0001000 0))) (fun s => rankIs (fun k => k.wreg 1 == 6) s &&
    groupIs (fun x => (x.bars.map fun b => b.2.phase) == [7]) s) = true := by decide
theorem test_bar_unconfigured : steps (withHandler (start (plain 0xB0 1 0b0100000001 0b1100000101 0 0b0001000 0))) (tookTrap 0x23 5) = true := by decide
-- TL.read of tl.copy (R143)
theorem test_tl_read : steps (onCtx (fun c => { c with tls := modAt c.tls 0 fun t => { t with err := true } }) (start (plain 0xB1 1 0b0100000001 0 0 0 0)))
    (rankIs fun k => k.wreg 1 == 0x8000000000000000) = true := by decide
-- an engine command at a pointer that is no multiple of 64 (R147, R148)
theorem test_copy_misaligned : steps (withHandler (putW 2 0x8000000000000020 (start (plain 0xC0 0 0b0100000001 0b0100000010 0 0 0))))
    (tookTrap 0x11 0x8000000000000020) = true := by decide
-- ACFG.take a1 binds slab 0 and gives its name, ACFG.rel of a slot that is not bound (R164)
theorem test_acfg_take : steps (start (plain 0xC6 0 0b0100000001 0b1011000001 0 0 0)) (fun s => groupIs (fun x => x.slabMap == [(1, 0)]) s &&
    rankIs (fun k => k.wreg 1 == 0) s) = true := by decide
theorem test_acfg_rel_unbound : steps (withHandler (start (plain 0xC6 1 0 0b1011000001 0 0 0))) (tookTrap 0x04 1) = true := by decide
-- MSTART at 96 (R166): the sequencer runs
theorem test_mstart : steps (putW 2 96 (start (plain 0xC7 0 0 0b0100000010 0 0 0))) (groupIs fun x => x.seq.st == .running && x.seq.mpc == 96) = true := by
  decide
-- the M-stream: MLOOP.c1 back by 24 with limit 2, MJMP, MSTOP, an MZERO of an unbound slot (R167)
theorem test_mloop : steps (start (plain 0xD5 0 0 0 0 0b0100000 0x002FFFE8)) (groupIs fun x => x.seq.mpc.toNat == loadAddr - 24 && x.seq.c == [0, 1, 0, 0])
    = true := by decide
theorem test_mjmp : steps (start (plain 0xD6 0 0 0 0 0 60)) (groupIs fun x => x.seq.mpc.toNat == loadAddr + 60) = true := by decide
theorem test_mstop : steps (start (plain 0xD7 0 0 0 0 0 0)) (groupIs fun x => x.seq.st == .idle) = true := by decide
theorem test_mzero_unbound : steps (start (plain 0xD1 0 0b1011000001 0 0 0 0)) (groupIs fun x => x.seq.st == .stopped &&
    x.seqFault == some (BitVec.ofNat 64 loadAddr)) = true := by decide
-- SRD of FEAT0, SWR to it (R9); SRD of TPC at user level (R179); RTT at user level (R180)
theorem test_srd_feat : steps (putW 1 5 (start (plain 0xE2 0 0b0100000001 0 0 0 0x0F0))) (rankIs fun k => k.wreg 1 == 0) = true := by decide
theorem test_swr_feat : steps (withHandler (start (plain 0xE3 0 0 0b0100000001 0 0 0x0F0))) (tookTrap 0x01 0) = true := by decide
theorem test_srd_privilege : steps (withHandler (start (plain 0xE2 0 0b0100000001 0 0 0 0x011))) (tookTrap 0x03 0) = true := by decide
theorem test_rtt_privilege : steps (withHandler (start (plain 0xE1 0 0 0 0 0 0))) (tookTrap 0x03 0) = true := by decide
-- opcode 0x00, an extension word (R36), a reserved bit and a v register above the budget
theorem test_illegal : steps (withHandler (start (plain 0x00 0 0 0 0 0 0))) (tookTrap 0x01 0) = true := by decide
theorem test_extension : steps (withHandler (start (plain 0xF3 9 1 2 3 4 5))) (tookTrap 0x02 0) = true := by decide
theorem test_reserved_bit : steps (withHandler (start (plain 0x48 0 0 0 0 0 1))) (tookTrap 0x01 0) = true := by decide
theorem test_odd_pair : steps (withHandler (start (plain 0x10 0 1 2 4 0b0001100 0))) (tookTrap 0x01 0) = true := by decide
-- HALT freezes the context (R181), YIELD without a request ends the ply
theorem test_halt : steps (start (plain 0xEB 0 0 0 0 0 0)) (ctxIs fun c => c.mode == .frozen) = true := by decide
theorem test_yield : steps (start (plain 0xE4 0 0 0 0 0 0)) (rankIs fun k => k.st == .ready && (k.thread 0).pc.toNat == loadAddr + 12) = true := by decide

/-! ### Words decode to the instructions they stand for -/

abbrev decodes (w : IWord) (i : Instr) : Prop := decodeWord (tableFetcher w) w = .ok i

theorem test_decode_integer : decodes (word 0x05 2 4 2 3 7 1 0b0011100 0 6)
    (.imad .wide { c := { (default : Ctl) with gidx := 7, gneg := true }, ty := .s32, rm := .rne, d := .v 4, a := .v 2, b := .v 3, x := .v 6 }) := by decide
theorem test_decode_bitwise : decodes (plain 0x14 0 2 4 6 0b0001100 (0xCAFE * 1024 + 8))
    (.lut 0xCAFE { c := default, ty := .b64, rm := .rne, d := .v 2, a := .v 4, b := .v 6, x := .v 8 }) := by decide
theorem test_decode_shift : decodes (plain 0x19 1 1 2 3 0b0011100 0) (.shr true { c := default, ty := .s32, rm := .rne, d := .v 1, a := .v 2, b := .v 3, imm := 0 }) := by
  decide
theorem test_decode_count : decodes (plain 0x20 0 1 2 0 0b0001100 0) (.popc { c := default, ty := .b64, rm := .rne, d := .v 1, a := .v 2, imm := 0 }) := by decide
theorem test_decode_field : decodes (plain 0x24 1 1 2 3 0b0001000 4) (.bfx true { c := default, ty := .b32, rm := .rne, d := .v 1, a := .v 2, b := .v 3, x := .v 4 }) := by
  decide
theorem test_decode_predicate : decodes (plain 0x2A 4 0b1000000001 0b1000000010 0b1000001111 0 0)
    (.pset .orn { c := default, ty := .b8, rm := .rne, d := .p 1, a := .p 2, b := .p 15, imm := 0 }) := by decide
theorem test_decode_address : decodes (plain 0x30 0 4 0b0100000010 3 0b1011000 0b0100000011) (.lea default 5 true (.v 4) (.w 2) (.v 3) (.w 3)) := by decide
theorem test_decode_control : decodes (plain 0x46 0 0 0b1001000011 0b0100000001 0 0) (.wait default (.j 3) (.w 1) 0) := by decide
theorem test_decode_exchange : decodes (plain 0x53 2 1 2 3 0b0001000 (4 * 1024 + 5))
    (.shfl .shift 4 { c := default, ty := .b32, rm := .rne, d := .v 1, a := .v 2, b := .v 3, x := .v 5 }) := by decide
theorem test_decode_float : decodes (plain 0x66 7 0b1000000010 2 3 0b0101100 0) (.fset .nan { c := default, ty := .bf16, rm := .rne, d := .p 2, a := .v 2, b := .v 3, imm := 0 })
    := by decide
theorem test_decode_convert : decodes (plain 0x78 0b101101 1 2 0 0b0111100 0) (.cvt true .f32 { c := default, ty := .e4m3, rm := .rne, d := .v 1, a := .v 2, imm := 0 }) := by decide
theorem test_decode_block : decodes (plain 0x79 0 1 2 0 0b1011000 (3 * 1024)) (.bcvtPack { sat := false, v := false, res := false, ef := false, dist := 3 }
    { c := default, ty := .dx8, rm := .rne, d := .v 1, a := .v 2, imm := 0 }) := by decide
theorem test_decode_store : decodes (plain 0x98 0b100010 0 4 6 0b1010111 0xFFFFFFFC)
    (.xst { c := default, ty := .b32, rel := true, sc := 0b1010, fl := 0b11, ord := true, a := .v 4, b := .v 6, disp := 0xFFFFFFFC }) := by decide
theorem test_decode_atomic : decodes (plain 0x95 7 3 4 5 0 (0x0010 * 65536 + 2 * 1024 + 6))
    (.atom { c := default, op := .cas, acq := false, rel := false, sc := 0, fl := 0, nr := false, ty := .b32, d := .v 3, a := .v 4, b := .v 5, x := .v 6, disp := 0x10 }) := by
  decide
theorem test_decode_fence : decodes (plain 0x9A 2 0 0 0 0b0010000 0) (.fenceAr default 2) := by decide
theorem test_decode_cache : decodes (plain 0x9B 2 0 0b0100000010 0 0 64) (.cflushWbinv default (.w 2) 64) := by decide
theorem test_decode_barrier : decodes (plain 0xB0 5 0b1000000011 0b1101100000 0b0100000001 0b0011000 0) (.barTest default 3 (.p 3) (.b 96) (.w 1) 0) := by decide
theorem test_decode_timeline : decodes (plain 0xB1 0 0b1000000001 0b0100000010 0 0b0010101 0) (.tlWait default 2 .q (.p 1) (.w 2) 0) := by decide
theorem test_decode_engine : decodes (plain 0xC0 1 0b0100000001 0b0100000010 0b1100000101 0b1111000 7)
    (.copyPl 7 { c := default, tl := true, bar := true, evt := true, fl := 2, d := .w 1, a := .w 2, b := .b 5 }) := by decide
theorem test_decode_tile : decodes (plain 0xC4 1 0b1010000011 0b0100000010 0 0 0x12345) (.tcfg default true (.t 3) (.w 2) 0x12345) := by decide
theorem test_decode_peer : decodes (plain 0xC8 0 0 0b0100000010 0b0100000011 0 5) (.peer default 5 (.w 2) (.w 3)) := by decide
theorem test_decode_matrix : decodes (plain 0xD0 0 0b1011000010 0b1010000001 0b1010000010 0b1110101 0x3200500A)
    (.mma { shape := .t2x2, z := true, sat := false, kr := true, ctr := 1, d := .a 2, a := .t 1, b := .t 2, kb0 := 10, kbn := 5, brow := 2, arow := 3 }) := by decide
theorem test_decode_system : decodes (plain 0xE7 2 0 0b0100000010 0b0100000011 0 0) (.ctxLd default (.w 2) (.w 3)) := by decide

/-! ### Ill-formed terms -/

def a2 (d a : Opnd) (ty : Ty) (imm : Word) : Alu1 := { c := default, ty := ty, rm := .rne, d := d, a := a, imm := imm }

theorem wf_accepts : wellFormed (.not (a2 (.v 1) (.v 2) .b32 0)) = true := by decide
-- a reserved immediate (check 7), a type the entry has not (check 8), an odd pair (check 9)
theorem wf_reserved : wellFormed (.not (a2 (.v 1) (.v 2) .b32 5)) = false := by decide
theorem wf_code : wellFormed (.not (a2 (.v 1) (.v 2) .f32 0)) = false := by decide
theorem wf_operand : wellFormed (.not (a2 (.v 1) (.v 2) .b64 0)) = false := by decide
-- a legal word as an illegal one, an opcode below 0xF0 as an extension word
theorem wf_illegal : wellFormed (.illegalOpcode (plain 0x48 0 0 0 0 0 0)) = false := by decide
theorem wf_extension : wellFormed (.extensionOpcode (plain 0xE0 0 0 0 0 0 0)) = false := by decide
-- units that the part has not
theorem wf_lane : wellFormed (.laneChoice 223 32) = false ∧ wellFormed (.laneChoice 224 0) = false := by decide
theorem wf_engine : wellFormed (.engineCommandStart (.coll 4)) = false ∧ wellFormed (.engineCommandStart (.gather 56)) = false := by decide
theorem wf_port : wellFormed (.linkReplayRequest 16 0) = false ∧ wellFormed (.portLockNotice 16 0) = false ∧ wellFormed (.flitReceive 16 default) = false := by
  decide
theorem wf_ethernet : wellFormed (.launchFrame { port := 2, part := 0, srcmac := 0, keyid := 0, sealKey := 0, intact := true, bytes := [] }) = false := by
  decide

/-! ### Witnesses: states that meet the hypotheses of the statements -/

/-- The instruction's word placed after reset. -/
def at' (i : Instr) : State := start (encode i)
/-- A path issues i at s, with no hurdle before it, and p holds of the path. -/
def meets (i : Instr) (s : State) (p : Iss → Bool) : Bool :=
  match issuing s (Fields.ofWord (encode i)).ctl with
  | some u => (hurdle s u i).isNone && p u
  | none => false
/-- A path whose every thread executes i, which goes on. -/
def runs (i : Instr) : Bool := wellFormed i && meets i (at' i) (fun u => u.ex == BitVec.allOnes 32) && after i (at' i) fun _ => true

def c0 : Ctl := default
def al1 (ty : Ty) : Alu1 := { c := c0, ty := ty, rm := .rne, d := .v 4, a := .v 8, imm := 0 }
def al2 (ty : Ty) : Alu2 := { c := c0, ty := ty, rm := .rne, d := .v 4, a := .v 8, b := .v 12, imm := 0 }
def al3 (ty : Ty) : Alu3 := { c := c0, ty := ty, rm := .rne, d := .v 4, a := .v 8, b := .v 12, x := .v 16 }
def pr2 (d : Opnd) : Alu2 := { c := c0, ty := .b8, rm := .rne, d := d, a := .p 2, b := .p 3, imm := 0 }
def pr1 (d : Opnd) : Alu1 := { c := c0, ty := .b8, rm := .rne, d := d, a := .p 2, imm := 0 }

theorem witness_DecodeEncode : wellFormed (.copy { (default : Eng) with tl := true, fl := 3, d := .w 1, a := .w 2 }) = true ∧
    (fieldsOf (.copy { (default : Eng) with tl := true, fl := 3, d := .w 1, a := .w 2 })).isSome = true := by decide
theorem witness_DecodeSound : decodeWord .sequencer (plain 0xD7 0 0 0 0 0 0) = .ok .mstop ∧ decodeWord (.rank 256) (plain 0x48 0 0 0 0 0 0) = .ok (.exit default) ∧
    (plain 0xFF 1 2 3 4 5 6).extractLsb' 88 8 = 0xFF ∧ (plain 0xF0 1 2 3 4 5 6).extractLsb' 88 8 = 0xF0 := by decide
theorem witness_StepKeepsSettled : (875 ≤ State.reset.plat.aclk ∧ State.reset.plat.aclk ≤ 1750 ∧ State.reset.plat.aclk % 25 = 0 ∧
    State.reset.plat.commit.toNat < 8) ∧ steps State.reset (fun _ => true) = true := by decide
-- an event on the agenda; a rank's word, a sequencer's word
theorem witness_StepRunsDecoded : steps { State.reset with agenda := [.event .heartbeat] } (fun s => s.fab.reports == [.heartbeat] && s.agenda.isEmpty) = true ∧
    (∃ s', fetchBytes 0 0 loadedCtx (BitVec.ofNat 64 loadAddr) (at' (.exit c0)) = (s', .bytes (wordBytes (encode (.exit c0))))) ∧
    decodeWord (.rank 256) (wordOfBytes (wordBytes (encode (.exit c0)))) = .ok (.exit c0) ∧
    (∃ s', fetchBytes 0 0 loadedCtx (BitVec.ofNat 64 loadAddr) (at' .mstop) = (s', .bytes (wordBytes (encode .mstop)))) ∧
    (at' .mstop).cur = some (.seq 0) ∧ groupIs (fun x => x.seq.st == .running && x.seq.mpc.toNat == loadAddr) (at' .mstop) = true := by
  refine ⟨by decide, ⟨(fetchBytes 0 0 loadedCtx (BitVec.ofNat 64 loadAddr) (at' (.exit c0))).1, by decide⟩, by decide,
    ⟨(fetchBytes 0 0 loadedCtx (BitVec.ofNat 64 loadAddr) (at' .mstop)).1, by decide⟩, by decide, by decide⟩
theorem witness_WordsKeepTables : (fieldsOf (.nop c0)).isSome = true ∧ after (.nop c0) (at' (.nop c0)) (fun _ => true) = true := by decide
theorem witness_MemoryBytes : Mem.wf [(3, 7), (9, 1)] = true ∧ (5 ≤ 6 ∧ 6 < 5 + [1, 2].length) := by decide
theorem witness_RegisterWrites : Ty.slot .f32 = 32 ∧ ([(1, 5), (4, 6)].map (fun (e : Nat × Nat) => e.1)).Pairwise (· < ·) := by decide
theorem witness_IntegerResults : [Instr.iadd true (al2 .s32), .isub false (al2 .b64), .imin (al2 .s64), .imax (al2 .b32), .iabs true (al1 .s32), .ineg false (al1 .s64),
    .imul .lo (al2 .s64), .imul .hi (al2 .b64), .imul .wide (al2 .s32), .imad .wide (al3 .b32), .imad .hi (al3 .s64), .idiv true (al2 .s32),
    .iset .le { al2 .s64 with d := .p 4 }, .idot true (al3 .s8), .idot false (al3 .s4)].all runs = true := by decide
theorem witness_DivisionResults : intOf true 32 0x80000000 = -2 ^ 31 ∧ intOf true 32 0xFFFFFFFF = -1 ∧ intOf false 32 5 ≠ 0 := by decide
theorem witness_BitwiseResults : [Instr.and true (al2 .b64), .or false (al2 .b32), .xor (al2 .b64), .not (al1 .b64), .lut 0xCAFE (al3 .b32), .shl (al2 .b64), .shr true (al2 .s64),
    .shr false (al2 .b32), .rot false (al2 .b32), .rot true (al2 .b64), .shf false (al3 .b64), .shf true (al3 .b32)].all runs = true := by decide
theorem witness_CountingAndFields : [Instr.popc (al1 .b64), .clz (al1 .b32), .ctz (al1 .b64), .brev (al1 .b64), .bfx true (al3 .b64), .bfi (al3 .b32), .bmix (al3 .b32)].all runs =
    true := by decide
theorem witness_MoveResults : [Instr.mov (al1 .b128), .mov (al1 .b32), .sel { al3 .b64 with x := .p 3 }, .pset .orn (pr2 (.p 1)), .pmovPack c0 (.v 3), .pmovUnpack c0 (.v 3),
    .lea c0 3 true (.v 4) (.w 2) (.v 3) (.w 6), .ptrMk c0 .ctl (.w 2) (.w 3) .none 0, .ptrMk c0 .ten (.v 2) (.w 3) (.v 7) 0, .ptrMk c0 .loc (.v 2) (.w 3) .imm 1,
    .ptrAdd c0 (.v 2) (.w 3) (.v 8) 0, .ptrChk c0 (.p 2) (.w 3) (.v 8) 0].all runs = true := by decide
theorem witness_ExchangeResults : [Instr.ballot (pr1 (.w 1)), .census .most (pr1 (.p 1)), .same .whole (al1 .b64), .shfl .bfly 5 (al3 .b64), .red .add (al1 .f32),
    .red .xor (al1 .b64), .scan .min true (al1 .s32), .bcast { al2 .b64 with b := .w 13 }].all runs = true := by decide
theorem witness_IntegerReduction : (List.replicate 32 (some 7)).length = 32 ∧ ∀ x, some x ∈ List.replicate 32 (some 7) → x < 2 ^ Ty.bits .s32 := by
  refine ⟨by decide, fun x h => ?_⟩
  obtain rfl : x = 7 := by simpa using h
  decide
theorem witness_FloatResults : [Instr.fadd (al2 .f64), .fsub (al2 .bf16), .fmul (al2 .f16x2), .fdiv (al2 .f64), .ffma true (al3 .bf16x2), .ffma false (al3 .f32), .fmin (al2 .f16),
    .fmax (al2 .bf16x2), .fset .ne { al2 .f64 with d := .p 2 }, .fsqrt (al1 .f32), .frcp (al1 .f16), .frsq (al1 .f32), .fexp2 (al1 .f32), .flog2 (al1 .bf16), .fsin (al1 .f32),
    .fcos (al1 .f16), .ftanh (al1 .f32), .frnd (al1 .f64), .fact .gelu (al1 .f16), .fact .relu (al1 .f32), .fact .silu (al1 .bf16x2), .fdot true (al3 .f16x2),
    .fdot false (al3 .e4m3)].all runs = true := by decide
theorem witness_SignAndClass : [Instr.fsign .abs { al2 .f64 with b := .none }, .fsign .copy (al2 .f16x2), .fclass (al1 .f64)].all runs = true := by decide
theorem witness_ConversionResults : [Instr.cvt true .f64 (al1 .e4m3), .cvt false .s8 (al1 .b64),
    .bcvtPack { sat := true, v := true, res := false, ef := false, dist := 0 } (al1 .mx8), .bcvtPack { sat := false, v := false, res := true, ef := true, dist := 5 } (al1 .dx4),
    .bcvtUnpack { sat := false, v := false, res := false, ef := false, dist := 0 } { al2 .mx4 with b := .w 3 }].all runs = true ∧
    (Ty.block? true .mx8).isSome = true ∧ Ty.fmt? .s8 = none ∧ Ty.fmt? .b64 = none := by decide

def pathHas (s : State) (p : Iss → Bool) : Bool := match issuing s c0 with | some u => p u | none => false
/-- Half of the threads have exited; the rest stand at the word. -/
def halfGone : State → State := onRank fun k => { k with active := 0xFFFF, threads := k.threads.zipIdx.map fun t => { t.1 with exited := decide (16 ≤ t.2) } }
/-- Only thread 0 is of the path; the others stand elsewhere. -/
def alone : State → State := onRank fun k => { k with active := 1, threads := k.threads.zipIdx.map fun t => if t.2 = 0 then t.1 else { t.1 with pc := 4 } }
def stacked (l : List Long) : State → State := onRank fun k => { k with threads := k.threads.map fun t => { t with stack := l } }
def atHandler : State → State := onRank fun k => { k with handler := true }
def asHost : State → State := onCtx fun c => { c with host := true }
/-- The rank holds a frame, taken where it stands. -/
def inFrame : State → State := onRank fun k => { k with handler := true, frameActive := true, frameCopy := some (k.copyFrame k.threads) }
def nobody (i : Instr) : Bool := meets i (at' i) (fun u => u.ex == 0) && after i (at' i) fun _ => true
def never : Ctl := { (default : Ctl) with gneg := true }

theorem witness_WordsWithoutEffect : runs (.nop c0) = true ∧ (seqIssuing (onGroup (fun x => { x with seq := { x.seq with st := .running } })
      { at' .mstop with cur := some (.seq 0) })).isSome = true ∧
    [Instr.jset never (.j 1) (.w 2) 0, .wait never (.j 1) (.w 2) 0, .bkpt never 1, .trap never 1, .fenceAck never, .barCfg never (.b 1) .imm 5, .barArv never 1 (.w 1) (.b 1) 0,
      .barWait never 1 (.b 1) (.w 2) 0, .barSync never 1 (.b 1) 0, .barAdd never 1 (.b 1) .imm 3, .barTest never 1 (.p 1) (.b 1) (.w 2) 0, .tlWait never 1 .q (.p 1) (.w 1) 0,
      .copy { c := never, tl := true, bar := false, evt := false, fl := 0, d := .w 1, a := .w 2, b := .none },
      .copyPl 3 { c := never, tl := true, bar := false, evt := false, fl := 0, d := .w 1, a := .w 2, b := .none },
      .gather { c := never, tl := true, bar := false, evt := false, fl := 0, d := .w 1, a := .w 2, b := .none },
      .scadd { c := never, tl := true, bar := false, evt := false, fl := 0, d := .w 1, a := .w 2, b := .none },
      .sort { c := never, tl := true, bar := false, evt := false, fl := 0, d := .w 1, a := .w 2, b := .none },
      .coll { c := never, tl := true, bar := false, evt := false, fl := 0, d := .w 1, a := .w 2, b := .none },
      .tcfg never false (.t 1) (.w 2) 0, .trel never true (.t 1), .acfgTake never (.w 1) (.a 1), .mstart never (.w 1), .peer never 1 (.w 1) (.w 2),
      .srd never (.w 1) 0x030 0, .swr never (.w 1) 0x060 2, .eread never (.w 1), .yield never, .halt never, .launch never (.w 1), .evqPost never (.w 1) (.w 2),
      .xinv never (.w 1) (.w 2)].all nobody = true := by decide
theorem witness_WordsWithoutEffect_privileged : [Instr.ctxFrz never (.w 1), .ctxSav never (.w 1) (.w 2), .ctxLd never (.w 1) (.w 2), .ctxRes never (.w 1), .rtt never].all (fun i =>
    meets i (asHost (at' i)) (fun u => u.ex == 0)) = true ∧
    meets (.acfgRel never (.a 1)) (onGroup (fun x => { x with slabMap := [(1, 0)] }) (at' (.acfgRel never (.a 1)))) (fun u => u.ex == 0) = true := by decide

theorem witness_BranchesGo : [Instr.bra c0 24, .call c0 24].all runs = true ∧
    [Instr.brx c0 (.w 1), .callx c0 (.w 1)].all (fun i => meets i (putW 1 64 (at' i)) fun u => u.ex != 0 && (List.range 32).all fun t =>
      readOpnd 0 u .b64 0 (.w 1) t % 4 == 0 && decide ((u.k.thread t).stack.length < 256)) = true ∧
    meets (.ret c0) (stacked [64] (at' (.ret c0))) (fun u => (List.range 32).all fun t => (u.k.thread t).stack == [64]) = true := by decide
theorem witness_BranchesTrap : meets (.bra c0 26) (at' (.bra c0 26)) (fun u => u.ex.getLsbD 0 && (ptrAdd u.pc 26).toNat % 4 == 2) = true ∧
    meets (.brx c0 (.w 1)) (putW 1 66 (at' (.brx c0 (.w 1)))) (fun u => u.ex.getLsbD 0 && readOpnd 0 u .b64 0 (.w 1) 0 == 66) = true ∧
    meets (.call c0 24) (stacked (List.replicate 256 0) (at' (.call c0 24))) (fun u => u.ex.getLsbD 0 && (u.k.thread 0).stack.length == 256) = true ∧
    meets (.callx c0 (.w 1)) (stacked (List.replicate 256 0) (at' (.callx c0 (.w 1)))) (fun u => u.ex.getLsbD 0 && (u.k.thread 0).stack.length == 256) = true ∧
    meets (.ret c0) (at' (.ret c0)) (fun u => u.ex.getLsbD 0 && (u.k.thread 0).stack == []) = true ∧
    meets (.ret c0) (stacked [66] (at' (.ret c0))) (fun u => u.ex.getLsbD 0 && (u.k.thread 0).stack == [66]) = true := by decide
theorem witness_ExitEnds : meets (.exit c0) (alone (at' (.exit c0))) (fun u => !(u.k.thread 5).exited && !u.ex.getLsbD 5 && u.ex.getLsbD 0) = true ∧
    meets (.exit c0) (halfGone (at' (.exit c0))) (fun u => (List.range 32).all fun t => (u.k.thread t).exited || u.ex.getLsbD t) = true := by decide
theorem witness_JoinMasks : runs (.join c0 (.j 2)) = true ∧ runs (.jset c0 (.j 2) (.w 3) 0) = true ∧
    rankIs (fun k => k.j.isEmpty && (k.thread 3).parked) (onRank (fun k => { k with threads := k.threads.map fun t => { t with parked := true } }) (at' (.nop c0))) = true := by decide
theorem witness_WaitParks : runs (.wait c0 (.j 1) (.w 2) 0) = true ∧
    meets (.wait c0 (.j 1) (.w 2) 0) (alone (putW 2 6 (at' (.wait c0 (.j 1) (.w 2) 0)))) (fun u => u.ex == 1 && readOpnd 0 u .b32 0 (.w 2) 0 == 6 &&
      u.k.jreg 1 == 0 && u.k.exitedMask == 0 && !(u.k.thread 7).parked) = true ∧
    rankIs (fun k => k.standing == 0 && k.parkedMask == 1 && !(k.thread 0).exited)
      (onRank (fun k => { k with threads := k.threads.zipIdx.map fun t => if t.2 = 0 then { t.1 with parked := true } else { t.1 with exited := true } }) (at' (.nop c0))) = true := by
  decide
theorem witness_WordsThatTrap : [Instr.bkpt c0 7, .trap c0 7].all (fun i => meets i (withHandler (at' i)) fun u => u.ex != 0 && u.c.trapvec != 0 && !u.k.frameActive) = true ∧
    [Instr.illegalOpcode 0, .extensionOpcode (plain 0xF0 0 0 0 0 0 0)].all (fun i => meets i (withHandler (at' i)) fun u => u.c.trapvec != 0 && !u.k.frameActive && u.k.live.isEmpty) = true ∧
    (seqIssuing (at' .mstop)).isSome = true ∧
    decodeWord (.rank 256) (wordOfBytes (wordBytes (plain 0x48 0 0 0 0 0 1))) = .error .reservedField ∧
    pathHas (start (plain 0x48 0 0 0 0 0 1)) (fun _ => true) = true := by decide
theorem witness_TrapEntry : rankIs (fun k => k.threads.length == 32 && !k.frameActive) (withHandler (at' (.nop c0))) = true ∧
    ctxIs (fun c => c.trapvec != 0) (withHandler (at' (.nop c0))) = true ∧ groupIs (fun x => x.ctx == 0) (withHandler (at' (.nop c0))) = true := by decide
theorem witness_TrapFreezes : rankIs (fun k => k.frameActive) (inFrame (at' (.nop c0))) = true ∧ ctxIs (fun c => c.trapvec == 0) (at' (.nop c0)) = true := by decide
theorem witness_ChecksBeforeIssue : [Instr.rtt c0, .ctxFrz c0 (.w 1), .ctxSav c0 (.w 1) (.w 2), .ctxLd c0 (.w 1) (.w 2), .ctxRes c0 (.w 1), .bufset c0 (.w 1) (.w 2)].all (fun i =>
      pathHas (at' i) fun u => !u.k.handler && !u.c.host) = true ∧
    pathHas (at' (.barArv c0 3 (.w 1) (.b 96) 0)) (fun u => decide (u.x.qbar ≤ 96 - 96) && decide (u.x.lbar ≤ 96) && (sget 1 u.x.slabMap).isNone) = true := by decide
theorem witness_ReturnFromTrap : meets (.rtt c0) (atHandler (at' (.rtt c0))) (fun u => u.ex != 0 && !u.k.frameActive) = true ∧
    meets (.rtt c0) (inFrame (at' (.rtt c0))) (fun u => u.k.frameActive && !storesOpen (inFrame (at' (.rtt c0))) 0 0 && (frameLacks (inFrame (at' (.rtt c0))) u.x u.c u.k).isEmpty) = true ∧
    (match group? (inFrame (at' (.rtt c0))) 0, rank? (inFrame (at' (.rtt c0))) 0 0 with
      | some x, some k => editedFrame (inFrame (at' (.rtt c0))) x loadedCtx k == [] && !k.yielding && k.w.isEmpty
      | _, _ => false) = true := by decide

/-- A store of thread 0 on its way to control byte 4096, and one that acquires. -/
def aStore : Access :=
  { id := 1, who := { group := 0, rank := 0, entry := 1 }, core := 0, ctx := 0, part := 0, key := 0, thread := 0, op := .write [1], ptr := 4096, off := 0, len := 1, wholeOff := 0,
    wholeLen := 1, target := .ctl 4096, tag := none, elem := 0, acq := false, waitAll := 0, waitReads := 0, waitTensor := 0, guaranteed := false, minStamp := 0, acqWide := false,
    home := 0, path := 0, fl := 0, ord := false, remote := false, pc := 0, inOrder := false }
def queued (a : Access) (s : State) : State := { s with homeq := [a] }
def loadOp (ty : Ty) : LoadOp := { c := c0, ty := ty, acq := false, sc := 0, pol := 0, d := .v 4, a := .w 2, disp := 0 }
def storeOp (ty : Ty) (d : Opnd) : StoreOp := { c := c0, ty := ty, rel := false, sc := 0, pol := 0, d := d, a := .w 2, b := .v 8, disp := 0 }
def atomOp (op : AtomFn) : AtomOp :=
  { c := c0, op := op, acq := false, rel := false, sc := 0, fl := 0, nr := false, ty := .b32, d := .v 4, a := .w 2, b := .v 8, x := .none, disp := 0 }
def localP : Nat := 2 ^ 63 + 256
def controlP : Nat := loadAddr + 256
def remoteP : Nat := 2 ^ 62 + 5 * 2 ^ 50
/-- What the checks of a memory word at pointer p say: no failure and no wait, a wait, or a failure. -/
def placed (i : Instr) (p : Nat) (s : State → State) : Option Bool :=
  match memOp i, issuing (s (putW 2 p (at' i))) c0 with
  | some m, some u =>
    let t := s (putW 2 p (at' i))
    let e := memEntry 0 u (encode i) m t.fresh (takeTags u.x.ctx (if m.isLoad then 0 else m.count u.ex) t).2
    let pl := placeAll m u.x.ctx u.x.core u.x (elemsOf m e.mask e.slots) [] t
    if (hurdle t u i).isSome then none else if pl.2.2.isSome then none else some (anyLocalHeld pl.1 u m pl.2.1)
  | _, _ => none
/-- The line that the word's translation needs first. -/
def placedLine (i : Instr) (p : Nat) (s : State → State) : Option (Option Nat) :=
  match memOp i, issuing (s (putW 2 p (at' i))) c0 with
  | some m, some u =>
    let t := s (putW 2 p (at' i))
    if (hurdle t u i).isSome then none
    else (placeAll m u.x.ctx u.x.core u.x (elemsOf m (memEntry 0 u (encode i) m t.fresh 0).mask (memEntry 0 u (encode i) m t.fresh 0).slots) [] t).2.2.map (·.line)
  | _, _ => none
/-- The tables stand in lines that package 7 is home of. -/
def tablesElsewhere (s : State) : State :=
  { s with regions := [(0, { home := 7, mirror := none, isLost := false, moving := false, copying := false, unprotected := false, awaits := [], notIndependent := false })],
           tabs := { s.tabs with s2pt := [(0, 4096)] }, ctxs := s.ctxs.map fun e => (e.1, { e.2 with s1pt := 4096 }) }
/-- The word meets no hurdle, and its checks find a failure. -/
def fails (i : Instr) (p : Nat) : Bool := meets i (putW 2 p (at' i)) (fun _ => true) && placed i p id == none

theorem witness_MemoryIssue : [Instr.ld (loadOp .b128), .ldu { loadOp .b64 with d := .w 1 }, .ldx (loadOp .s16), .st (storeOp .b64 .none), .stc (storeOp .b32 (.w 1)),
      .atom (atomOp .add), .atom { atomOp .inc with d := .w 4, b := .w 8 }].all (fun i => placed i localP id == some false) = true ∧
    [Instr.lr (loadOp .b32), .sc (storeOp .b32 (.v 4))].all (fun i => placed i controlP id == some false) = true ∧
    [Instr.xatom (atomOp .max), .xst { c := c0, ty := .b64, rel := false, sc := 0, fl := 2, ord := true, a := .w 2, b := .v 8, disp := 8 }].all (fun i =>
      placed i remoteP id == some false) = true := by decide
theorem witness_MemoryIssue_waits : [Instr.ld (loadOp .b128), .st (storeOp .b64 .none)].all (fun i => placed i localP (queued { aStore with acq := true }) == some true) = true := by
  decide
theorem witness_MemoryIssue_faults : [Instr.ld (loadOp .b8), .st (storeOp .b8 .none), .atom (atomOp .add), .stc (storeOp .b8 (.w 1))].all (fun i => fails i (2 ^ 64 - 1) && placedLine i (2 ^ 64 - 1) id == some none) = true := by decide
theorem witness_MemoryIssue_line : [Instr.ld (loadOp .b32), .st (storeOp .b32 .none)].all (fun i => placedLine i 8192 tablesElsewhere == some (some 4096)) = true := by decide
theorem witness_LocalMemory : meets (.ld (loadOp .s8)) (putW 2 localP (at' (.ld (loadOp .s8)))) (fun u => u.ex == BitVec.allOnes 32 && (List.range 32).all fun t =>
      !localHeld (putW 2 localP (at' (.ld (loadOp .s8)))) u (ofLoad .ld (loadOp .s8)) t) = true ∧
    meets (.st (storeOp .b64 .none)) (putW 2 localP (at' (.st (storeOp .b64 .none)))) (fun u => u.ex == BitVec.allOnes 32 && (List.range 32).all fun t =>
      !localHeld (putW 2 localP (at' (.st (storeOp .b64 .none)))) u (ofStore .st (storeOp .b64 .none)) t) = true ∧
    ptrOk (BitVec.ofNat 64 localP) = true ∧ ptrSpace (BitVec.ofNat 64 localP) = .loc ∧ ptrRegion (BitVec.ofNat 64 localP) < 2 := by decide
theorem witness_AccessChecks : (ofLoad .lr (loadOp .b32)).reaches 0 (BitVec.ofNat 64 localP) = false ∧ (ofLoad .ldu (loadOp .b32)).reaches 0 (BitVec.ofNat 64 (localP + 2)) = true ∧
    ptrSpace (BitVec.ofNat 64 (localP + 2)) = .loc ∧ ptrOff (BitVec.ofNat 64 (localP + 2)) % 4 ≠ 0 ∧
    (ofAtom .xatom (atomOp .add)).reaches 0 (BitVec.ofNat 64 remoteP) = true ∧ ptrSpace (BitVec.ofNat 64 remoteP) = .tensor ∧ ptrOff (BitVec.ofNat 64 remoteP) % 4 = 0 := by decide
theorem witness_FencesAndCaches : [Instr.fenceAcq c0 1, .fenceRel c0 2, .fenceAr c0 3, .fenceSc c0 4, .fenceTc c0 5, .fenceAck c0].all (fun i =>
      meets i (at' i) fun u => !loadsOpen u.k u.ex && threadsDrained (at' i) u.x u.g u.k u.ex true && u.k.counters.isEmpty) = true ∧
    runs (.fenceAck c0) = true ∧ runs (.pref c0 0 (.w 2) 0) = true ∧
    [Instr.cflushWb c0 (.w 2) 0, .cflushInv c0 (.w 2) 0, .cflushWbinv c0 (.w 2) 0].all (fun i => meets i (putW 2 controlP (at' i)) fun u =>
      (firstLack (flushPlaces u (pointerSlots 0 u (.w 2) 0) (putW 2 controlP (at' i))).2).isNone && (firstPrecise (flushPlaces u (pointerSlots 0 u (.w 2) 0) (putW 2 controlP (at' i))).2).isNone) = true ∧
    meets (.fenceAck c0) (onRank (fun k => { k with counters := [(20, 1)] }) (at' (.fenceAck c0))) (fun u => u.k.counters != []) = true ∧
    homedHere State.reset 4096 = true := by decide
/-- A load of threads m that has not come back. -/
def aLoad (m : Mask) : Entry :=
  { word := encode (.ld (loadOp .b32)), state := .issued, cls := .n, drop := false, zeroed := 0, unif := false, pc := 0, mask := m, tagBase := 0, prog := 0, status := 0, cause := 0,
    block := [], slots := [], id := 3, left := 1, got := [], bad := none, replayed := false }
def loading : State → State := onRank fun k => { k with live := [aLoad 1] }
theorem witness_FencesAndCaches_waits : [Instr.fenceAcq c0 1, .fenceAr c0 3].all (fun i => meets i (loading (at' i)) fun u => loadsOpen u.k u.ex) = true := by decide
/-- With a store of the rank still open. -/
theorem witness_ReturnFromTrap_stores : meets (.rtt c0) (queued aStore (inFrame (at' (.rtt c0)))) (fun u => u.k.frameActive && storesOpen (queued aStore (inFrame (at' (.rtt c0)))) 0 0) = true := by decide
theorem witness_ReturnFromTrap_line : meets (.rtt c0) (tablesElsewhere (inFrame (at' (.rtt c0)))) (fun u => u.k.frameActive &&
    !storesOpen (tablesElsewhere (inFrame (at' (.rtt c0)))) 0 0 && (frameLacks (tablesElsewhere (inFrame (at' (.rtt c0)))) u.x u.c u.k).contains (4096, false)) = true := by decide

def barred (n : Nat) (b : Bar) : State → State := onGroup fun x => { x with bars := sset n b x.bars }
def bar1 (target phase : Nat) : Bar := { byteMode := false, target := BitVec.ofNat 31 target, count := 0, phase := BitVec.ofNat 32 phase }
theorem witness_BarrierWords : meets (.barCfg c0 (.b 5) .imm 9) (at' (.barCfg c0 (.b 5) .imm 9)) (fun u => u.ex != 0 && !barParked (at' (.nop c0)) 0 u.x 5 &&
      !barNamed (at' (.nop c0)) 0 u.x 5 && readOpnd 0 u .b32 9 .imm 0 == 9) = true ∧
    [Instr.barArv c0 1 (.w 1) (.b 5) 0, .barAdd c0 2 (.b 5) .imm 7].all (fun i => meets i (barred 5 (bar1 9 0) (at' i)) fun u =>
      u.ex != 0 && (barGet (barred 5 (bar1 9 0) (at' i)) u.x 5).target == 9 && arriveReady (barred 5 (bar1 9 0) (at' i)) u 1) = true ∧
    meets (.barWait c0 1 (.b 5) (.w 2) 0) (barred 5 (bar1 9 1) (at' (.barWait c0 1 (.b 5) (.w 2) 0))) (fun u => u.ex != 0 && !loadsOpen u.k (BitVec.allOnes 32) &&
      (barGet (barred 5 (bar1 9 1) (at' (.nop c0))) u.x 5).isDone 0) = true ∧
    meets (.barWait c0 1 (.b 5) (.w 2) 0) (barred 5 (bar1 9 0) (at' (.barWait c0 1 (.b 5) (.w 2) 0))) (fun u => u.ex != 0 && !loadsOpen u.k (BitVec.allOnes 32) &&
      !(barGet (barred 5 (bar1 9 0) (at' (.nop c0))) u.x 5).isDone 0) = true ∧
    meets (.barSync c0 1 (.b 5) 0) (barred 5 (bar1 1 4) (at' (.barSync c0 1 (.b 5) 0))) (fun u => u.ex != 0 && arriveReady (at' (.nop c0)) u 1 &&
      ((barGet (barred 5 (bar1 1 4) (at' (.nop c0))) u.x 5).add 1).isDone 4) = true ∧
    meets (.barTest c0 1 (.p 2) (.b 5) (.w 2) 0) (barred 5 (bar1 1 4) (at' (.barTest c0 1 (.p 2) (.b 5) (.w 2) 0))) (fun u => u.ex != 0 &&
      !loadsOpen u.k (BitVec.allOnes 32)) = true ∧
    (bar1 3 0).target ≠ 0 ∧ (bar1 3 0).count.toNat < (bar1 3 0).target.toNat ∧ (bar1 0 0).target = 0 := by decide
theorem witness_TimelineWords : runs (.tlRead c0 .mat (.w 1) 0) = true ∧
    meets (.tlWait c0 1 .gath (.p 1) (.w 2) 0) (at' (.tlWait c0 1 .gath (.p 1) (.w 2) 0)) (fun u => u.ex != 0 && !loadsOpen u.k (BitVec.allOnes 32) &&
      readOpnd 0 u .b64 0 (.w 2) 0 == 0) = true ∧
    meets (.tlWait c0 1 .gath (.p 1) (.w 2) 0) (putW 2 5 (at' (.tlWait c0 1 .gath (.p 1) (.w 2) 0))) (fun u => u.ex != 0 && readOpnd 0 u .b64 0 (.w 2) 0 == 5 &&
      (timeline (at' (.nop c0)) 0 1).value == 0) = true := by decide

/-- Partition 0 owns every core and engine. -/
def owned (s : State) : State := { s with plat := { s.plat with copy0 := [(0, { PartRec.zero with cores := BitVec.allOnes 224, copyeng := BitVec.allOnes 224, gatheng := BitVec.allOnes 56, colleng := 15 })] } }
/-- Bytes of the group's scratchpad from 256 on, to which w2 points. -/
def scratched (bs : List Byte) (s : State) : State := putW 2 localP (onGroup (fun x => { x with scratch := writeBytes [] 256 bs }) s)
def q (n : Nat) : List Byte := leBytes n 8
def d4 (n : Nat) : List Byte := leBytes n 4
def copyBlock : List Byte := q (2 ^ 63 + 4096) ++ q (2 ^ 63 + 8192) ++ q 64 ++ q 64 ++ d4 16 ++ d4 2 ++ q 0 ++ d4 7
def plBlock : List Byte := q (2 ^ 63 + 4096) ++ q 128 ++ q 0 ++ d4 0 ++ d4 1 ++ d4 0 ++ d4 1 ++ q 0 ++ leBytes 13 2
def gathBlock : List Byte := q (2 ^ 62) ++ q 4 ++ d4 64 ++ d4 4 ++ q (2 ^ 63 + 4096) ++ d4 2 ++ d4 0 ++ q 0 ++ q (2 ^ 63 + 8192) ++ d4 64 ++ d4 (13 * 32 + 13 * 1024)
def sortBlock : List Byte := q (2 ^ 63 + 4096) ++ q 0 ++ q (2 ^ 63 + 8192) ++ q 0 ++ q 0 ++ d4 4
def collBlock : List Byte := q (2 ^ 62) ++ q (2 ^ 62 + 4096) ++ q (2 ^ 63 + 4096) ++ d4 4 ++ d4 1 ++ d4 1 ++ d4 1 ++ leBytes 1 2 ++ leBytes 1 2 ++ leBytes 1 2 ++ leBytes 1 2 ++
  q 0 ++ q 0 ++ q 0 ++ d4 13
def eng : Eng := { c := c0, tl := true, bar := false, evt := false, fl := 0, d := .w 1, a := .w 2, b := .none }
def tiled : State → State := onGroup fun x => { x with handles := [(3, handleRecord 13 1 1 0 0)] }
/-- The command is taken by an engine. -/
def issues (i : Instr) (kind : CmdKind) (tile : Nat) (bs : List Byte) : Bool :=
  let s := owned (tiled (scratched bs (at' i)))
  meets i s fun u => u.ex != 0 && match (cmdIssue u kind tile eng (BitVec.ofNat 64 localP) s).2 with | .go _ _ => true | _ => false
theorem witness_EngineWords : issues (.copy eng) .copy 0 copyBlock = true ∧ issues (.copyPl 3 eng) .copyPl 3 plBlock = true ∧ issues (.gather eng) .gather 0 gathBlock = true ∧
    issues (.scadd eng) .scadd 0 gathBlock = true ∧ issues (.sort eng) .sort 0 sortBlock = true ∧ issues (.coll eng) .coll 0 collBlock = true := by decide
theorem witness_EngineWords_traps : [(Instr.copy eng, CmdKind.copy), (.gather eng, .gather), (.scadd eng, .scadd), (.sort eng, .sort), (.coll eng, .coll)].all (fun i =>
    meets i.1 (scratched (q 1 ++ q 1) (at' i.1)) fun u => u.ex != 0 && match (cmdIssue u i.2 0 eng (BitVec.ofNat 64 localP) (scratched (q 1 ++ q 1) (at' i.1))).2 with
      | .trap c _ => c == 0x20
      | _ => false) = true := by decide
theorem witness_TileWords : meets (.tcfg c0 false (.t 3) (.w 2) 0) (putW 2 (13 + 65536 + 2 ^ 28) (at' (.tcfg c0 false (.t 3) (.w 2) 0))) (fun u => u.ex != 0 &&
      tcfgBad u.x 3 (BitVec.ofNat 64 (readOpnd 0 u .b64 0 (.w 2) 0)) 0 == none && !tileBusy u.x 3) = true ∧
    meets (.trel c0 true (.t 3)) (tiled (at' (.trel c0 true (.t 3)))) (fun u => u.ex != 0 && hCfg (handleOf u.x 3) && !tileBusy u.x 3) = true ∧
    meets (.acfgTake c0 (.w 1) (.a 2)) (at' (.acfgTake c0 (.w 1) (.a 2))) (fun u => u.ex != 0 && (sget 2 u.x.slabMap).isNone && decide (u.x.slabMap.length < u.x.slabMax) &&
      freeSlab (at' (.nop c0)) u.x.core == some 0) = true ∧
    meets (.acfgRel c0 (.a 2)) (onGroup (fun x => { x with slabMap := [(2, 0)] }) (at' (.acfgRel c0 (.a 2)))) (fun u => u.ex != 0 && sget 2 u.x.slabMap == some 0 &&
      !slotBusy u.x 2) = true ∧
    meets (.peer c0 1 (.w 2) (.w 3)) (putW 3 127 (putW 2 (5 * 2 ^ 52) (at' (.peer c0 1 (.w 2) (.w 3))))) (fun u => u.ex != 0 && readOpnd 0 u .b64 0 (.w 2) 0 % 2 ^ 41 == 0 &&
      decide (readOpnd 0 u .b32 0 (.w 3) 0 < 128)) = true ∧
    runs (.mstart c0 (.w 2)) = true ∧ meets (.mstart c0 (.w 2)) (at' (.mstart c0 (.w 2))) (fun u => u.x.seq.st == .idle && u.x.mcode.toNat % 4 == 0 && u.x.mcode != 0) = true ∧
    meets (.mstart c0 (.w 2)) (onGroup (fun x => { x with seq := { x.seq with st := .running } }) (at' (.mstart c0 (.w 2)))) (fun u => u.x.seq.st == .running) = true := by decide

/-- What a running sequencer sees. -/
def streams (s : State) (p : Group → Bool) : Bool := match seqIssuing s with | some (_, x, _) => p x | none => false
def slabbed : State → State := fun s => onGroup (fun x => { x with slabMap := [(0, 3), (1, 4)], handles := [(1, handleRecord 13 128 4 0 0), (2, handleRecord 13 256 4 1024 0)], bars := [(5, bar1 1 4)] }) { s with slabs := [(3, { group := 0, data := [] }), (4, { group := 0, data := [] })] }
def mma : MmaOp := { shape := .t1x1, z := true, sat := false, kr := false, ctr := 0, d := .a 0, a := .t 1, b := .t 2, kb0 := 1, kbn := 3, brow := 1, arow := 0 }
/-- A raw epilogue of binary32 rows to the scratchpad from 65536 on. -/
def epilogue : List Byte := d4 0 ++ d4 64 ++ d4 0 ++ d4 512 ++ q (2 ^ 63 + 65536) ++ q 0
def busySeq (s : State) : State := onGroup (fun x => { x with seq := { x.seq with recs := [SeqRec.zero] } }) s
theorem witness_StreamWords : streams (slabbed (at' (.mma mma))) (fun x => mmaBad x mma == none && x.seq.recs.isEmpty && !slotsBusy x [0]) = true ∧
    streams (slabbed (at' (.mzero .t1x2 (.a 0)))) (fun x => shapeBad x .t1x2 0 0 == none && !slotsBusy x [0, 1]) = true ∧
    streams (onGroup (fun x => { x with scratch := writeBytes [] 256 epilogue }) (slabbed (at' (.mepi .t1x1 (.a 0) 256)))) (fun x => mepiBad 0 x .t1x1 0 256 == none) = true ∧
    streams (slabbed (at' (.mwait 1 false 0 (.b 5) 3))) (fun x => seqBarBad (at' .mstop) x (.b 5) == none && x.bars.length == 1) = true ∧
    streams (slabbed (at' (.marv 1 (.b 5) 3))) (fun x => seqBarBad (at' .mstop) x (.b 5) == none && x.seq.recs.isEmpty) = true ∧
    streams (busySeq (slabbed (at' (.marv 1 (.b 5) 3)))) (fun x => seqBarBad (at' .mstop) x (.b 5) == none && !x.seq.recs.isEmpty) = true ∧
    streams (at' (.mloop 1 2 8)) (fun x => (ptrAdd x.seq.mpc 8).toNat % 4 == 0) = true ∧ streams (at' .mstop) (fun x => x.seq.recs.isEmpty) = true ∧
    streams (busySeq (at' .mstop)) (fun x => !x.seq.recs.isEmpty) = true := by decide
theorem witness_StreamWords_faults : streams (at' (.mma mma)) (fun x => mmaBad x mma != none && shapeBad x .t1x1 0 0 != none && mepiBad 0 x .t1x1 0 256 != none &&
    seqBarBad (at' .mstop) x (.b 5) != none && (ptrAdd x.seq.mpc 2).toNat % 4 == 2) = true := by decide

/-- The state with a word of no effect placed, for events. -/
def world : State := at' (.nop c0)
theorem witness_SystemReads : runs (.srd c0 (.w 1) 0 0) = true ∧ runs (.srd c0 (.w 1) 1 0) = true ∧ runs (.srd c0 (.w 1) 2 0) = true ∧ runs (.srd c0 (.w 1) 0x30 0) = true ∧
    runs (.eread c0 (.w 1)) = true ∧ runs (.srd c0 (.w 1) 0x50 0) = true ∧ runs (.srd c0 (.w 1) 0x60 9) = true ∧
    ([0x010, 0x011, 0x012, 0x013, 0x020, 0x031, 0x040, 0x041] : List (BitVec 12)).all (fun n => meets (.srd c0 (.w 1) n 0) (asHost (at' (.srd c0 (.w 1) n 0))) (fun u => u.ex != 0 && u.c.host) &&
      meets (.srd c0 (.w 1) n 0) (atHandler (at' (.srd c0 (.w 1) n 0))) (fun u => u.ex != 0 && u.k.handler) &&
      meets (.srd c0 (.w 1) n 0) (at' (.srd c0 (.w 1) n 0)) (fun u => u.ex != 0 && !u.k.handler && !u.c.host)) = true ∧
    meets (.srd c0 (.w 1) 0x051 0) (at' (.srd c0 (.w 1) 0x051 0)) (fun u => u.ex != 0) = true ∧ sysAccess 0x051 = none ∧ sysAccess 0xFFF = none ∧
    meets (.srd c0 (.w 1) 0 7) (at' (.srd c0 (.w 1) 0 7)) (fun u => u.ex != 0) = true := by decide
theorem witness_FeatureRegisters : ([0x0F0, 0x0F1, 0x0F2, 0x0F3] : List (BitVec 12)).all (fun n => runs (.srd c0 (.w 1) n 0) && meets (.swr c0 (.w 1) n 0) (at' (.swr c0 (.w 1) n 0)) fun u => u.ex != 0) = true ∧
    (plain 0xF0 0 0 0 0 0 0).extractLsb' 88 8 = 0xF0 ∧ (plain 0xFE 0 0 0 0 0 0).extractLsb' 88 8 = 0xFE ∧
    (match issuing (withHandler (start (plain 0xF0 0 0 0 0 0 0))) (Fields.ofWord (plain 0xF0 0 0 0 0 0 0)).ctl with | some u => u.c.trapvec != 0 && !u.k.frameActive | none => false) = true := by decide
theorem witness_SystemWrites : ([0x010, 0x011, 0x012] : List (BitVec 12)).all (fun n => meets (.swr c0 (.w 1) n 0) (atHandler (at' (.swr c0 (.w 1) n 0))) (fun u => u.ex != 0 && u.k.handler) &&
      meets (.swr c0 (.w 1) n 0) (at' (.swr c0 (.w 1) n 0)) fun u => u.ex != 0 && !u.k.handler && !u.c.host) = true ∧
    ([0x020, 0x031, 0x040] : List (BitVec 12)).all (fun n => meets (.swr c0 (.w 1) n 0) (asHost (at' (.swr c0 (.w 1) n 0))) (fun u => u.ex != 0 && u.c.host) &&
      meets (.swr c0 (.w 1) n 0) (atHandler (at' (.swr c0 (.w 1) n 0))) fun u => u.ex != 0 && !u.c.host) = true ∧
    meets (.swr c0 (.w 1) 0x060 255) (at' (.swr c0 (.w 1) 0x060 255)) (fun u => u.ex != 0) = true ∧
    ([0x000, 0x001, 0x002, 0x013, 0x030, 0x041, 0x050] : List (BitVec 12)).all (fun n => meets (.swr c0 (.w 1) n 0) (asHost (at' (.swr c0 (.w 1) n 0))) fun u => u.ex != 0) = true := by decide
theorem witness_YieldAndHalt : meets (.yield c0) (at' (.yield c0)) (fun u => u.ex != 0 && !u.c.yieldPending) = true ∧
    meets (.yield c0) (onCtx (fun c => { c with yieldPending := true }) (at' (.yield c0))) (fun u => u.ex != 0 && u.c.yieldPending) = true ∧
    meets (.halt c0) (at' (.halt c0)) (fun u => u.ex != 0) = true := by decide
/-- Half of the platform belongs to partition 0; a packet of one rank. -/
def packet : List Byte := q 4096 ++ q 0 ++ q 0 ++ q 0 ++ q 0 ++ d4 1 ++ d4 1 ++ d4 1 ++ d4 0 ++ d4 0 ++ d4 0
theorem witness_LaunchWords : meets (.launch c0 (.w 2)) (scratched packet (at' (.launch c0 (.w 2)))) (fun u => u.ex != 0 &&
      (match readBlock u (BitVec.ofNat 64 localP) 64 64 (scratched packet (at' (.launch c0 (.w 2)))) with | (_, .bytes bs) => bs == packet | _ => false)) = true ∧
    meets (.bufset c0 (.w 3) (.w 2)) (asHost <| putW 3 4095 (scratched (zeros 32) (at' (.bufset c0 (.w 3) (.w 2))))) (fun u => u.ex != 0 && readOpnd 0 u .b64 0 (.w 3) 0 == 4095 &&
      (match readBlock u (BitVec.ofNat 64 localP) 32 32 (scratched (zeros 32) world) with | (_, .bytes bs) => bs == zeros 32 && (bufBad world u (BitVec.ofNat 256 (leNat bs))).isNone && (bufLack world u.c.part (BitVec.ofNat 256 (leNat bs))).isNone | _ => false)) = true ∧
    [0x8000, 0xFFFF].all (fun n => meets (.evqPost c0 (.w 1) (.w 2)) (putW 1 n (at' (.evqPost c0 (.w 1) (.w 2)))) fun u => u.ex != 0 && readOpnd 0 u .b64 0 (.w 1) 0 == n) = true ∧
    [0x7FFF, 0x10000].all (fun n => meets (.evqPost c0 (.w 1) (.w 2)) (putW 1 n (at' (.evqPost c0 (.w 1) (.w 2)))) fun u => u.ex != 0 && readOpnd 0 u .b64 0 (.w 1) 0 == n) = true ∧
    meets (.xinv c0 (.w 1) (.w 2)) (putW 1 4096 (putW 2 64 (at' (.xinv c0 (.w 1) (.w 2))))) (fun u => u.ex != 0 && readOpnd 0 u .b64 0 (.w 1) 0 == 4096 && readOpnd 0 u .b64 0 (.w 2) 0 == 64 &&
      (xinvLack (putW 1 4096 (putW 2 64 (at' (.xinv c0 (.w 1) (.w 2))))) 0 4096 64).isNone) = true ∧
    ptrOk 4096 = true ∧ ptrSpace 4096 = .control := by decide
theorem witness_ContextWords : [Instr.ctxFrz c0 (.w 1), .ctxSav c0 (.w 1) (.w 2), .ctxLd c0 (.w 1) (.w 2), .ctxRes c0 (.w 1)].all (fun i =>
    meets i (asHost (putW 1 4095 (putW 2 8192 (at' i)))) fun u => u.ex != 0 && u.c.host && readOpnd 0 u .b64 0 (.w 1) 0 == 4095 && readOpnd 0 u .b64 0 (.w 2) 0 == 8192) = true := by decide

/-- A reservation whose hold is over, and another thread's write to its granule. -/
def reserved : State :=
  { world with clk := 256, homeq := [{ aStore with thread := 3 }], resv := [{ group := 0, rank := 0, thread := 0, granule := granuleOf ((accessDpa world aStore).getD 0), holdUntil := 256 }] }
def readyRank : State → State := onRank fun k => { k with st := .ready, active := 0 }
theorem witness_MemoryEvents : ({ world with respq := [{ group := 0, rank := 0, entry := 1 }] }).respq[0]? = some { group := 0, rank := 0, entry := 1 } ∧
    mayGo (queued aStore world) 0 aStore = true ∧ heldOff (queued aStore world) aStore = false ∧
    (expiredHold (granuleOf ((accessDpa world aStore).getD 0)) reserved).isSome = true ∧
    rankIs (fun k => k.fillLine == some 4) (onRank (fun k => { k with fillLine := some 4 }) world) = true ∧ groupIs (fun x => x.frozen) (onGroup (fun x => { x with frozen := true }) world) = true ∧
    rankIs (fun k => k.st != .issuing && !k.imprecise.isEmpty && !k.allExited) (readyRank (onRank (fun k => { k with imprecise := [{ cause := 0x18, tval := 0, pc := 0, entry := none }] }) world)) = true ∧
    groupIs (fun x => x.seqFault == some 96 && lowestRank x == some 0 && !x.frozen) (readyRank (onGroup (fun x => { x with seqFault := some 96 }) world)) = true := by decide

def aCmd (kind : CmdKind) (e : EngineId) : Cmd :=
  { kind := kind, engine := e, ctx := 0, part := 0, key := 0, core := 0, group := 0, rank := 0, word := 0, pc := 0, blockPtr := 0, block := zeros 96, number := 1, numbered := true,
    bar := none, evt := false, fl := 0, tile := 0, handle := 0, launch := 0, launchid := 0, stamp := 0, st := .running, prog := 0, sub := 0, status := 0, counta := 0, countb := 0, written := 0, order := 0, flights := [], algs := [], mmaBefore := [],
    fetched := [], asked := [], unacked := 0, recDone := false, shard := [], inbox := [], inNetwork := false, axis := 0, agreed := true, tabDone := false }
/-- A copy of 16 bytes from there to the scratchpad. -/
def copies (from' : Nat) : Cmd := { aCmd .copy (.copy 0) with block := q from' ++ q (2 ^ 63 + 8192) ++ q 64 ++ q 64 ++ d4 16 ++ d4 1 ++ q 0 ++ d4 7 }
def withCmd (c : Cmd) : State := { world with cmds := [(5, c)] }
def mmaRec (prog : Nat) : SeqRec := { SeqRec.zero with id := 7, word := encode (.mma mma), kb0 := 1, prog := prog }
def withRec (r : SeqRec) : State := onGroup (fun x => { x with seq := { x.seq with recs := [r] } }) world
theorem witness_UnitEvents : ((chooseRank (readyRank world) 0 0).map fun e => (e.1, e.2.2.idx)) = some (0, 0) ∧ (retryOf (readyRank world) 0 0).isNone = true ∧
    (retryOf (readyRank (onRank (fun k => { k with live := [{ (default : Entry) with word := encode (.launch c0 (.w 2)), replayed := true, state := .issued, cls := .p }] }) world)) 0 0).isSome = true := by decide
theorem witness_UnitEvents_engines : startable (withCmd { aCmd .copy (.copy 0) with st := .waiting }) (.copy 0) = some 5 ∧
    (aCmd .scadd (.gather 0)).agreed = true ∧ mayWork (withCmd (aCmd .scadd (.gather 0))) (aCmd .scadd (.gather 0)) = true ∧ groupActs world 0 = true := by decide
theorem witness_UnitEvents_faults : (match engFault 5 (withCmd (copies 4096)) with | some (.page _ _) => true | _ => false) = true ∧
    (match engFault 5 (withCmd (copies (2 ^ 62))) with | some (.stop _) => true | _ => false) = true := by decide
theorem witness_UnitEvents_complete : workDone { aCmd .copy (.copy 0) with status := 8 } = true ∧
    (match tryRecord 5 { aCmd .copy (.copy 0) with status := 8 } (withCmd { aCmd .copy (.copy 0) with status := 8 }) with | (_, .ok _) => true | _ => false) = true := by decide
theorem witness_UnitEvents_array : recInstr (mmaRec 1) = some (.mma mma) ∧ (mmaRec 1).prog + 1 < (mmaRec 1).kb0 + mma.kbn.toNat ∧ (mmaRec 3).kb0 + mma.kbn.toNat ≤ (mmaRec 3).prog + 1 ∧
    [1, 3].all (fun n => groupIs (fun x => !x.frozen && !earlierMma x 0 && arrayNext (withRec (mmaRec n)) x.core == some (lowestSlab x)) (withRec (mmaRec n))) = true := by decide
/-- A MEPI whose first row goes to the scratchpad. -/
def mepiRec : SeqRec := { SeqRec.zero with id := 7, word := encode (.mepi .t1x1 (.a 0) 256), rows := 128, desc := epilogue }
theorem witness_UnitEvents_epilogue : recInstr mepiRec = some (.mepi .t1x1 (.a 0) 256) ∧ groupIs (fun x => mepiReady x mepiRec && !mepiBefore (withRec mepiRec) x mepiRec &&
    rowSays (withRec mepiRec) x loadedCtx .t1x1 mepiRec == .go) (withRec mepiRec) = true := by decide

def hot : State := { world with plat := { world.plat with hot := true } }
theorem witness_ClockAndHeat : ({ world with clk := 1024 }).bound < 1 ∧ (4400000 : Nat) < 4400001 ∧ 900 ≤ world.plat.aclk ∧ clockFree world = true ∧
    (4299999 : Nat) < 4300000 ∧ ({ world.plat with aclk := 1725 }).aclk + 25 ≤ 1750 ∧ 1750 < world.plat.aclk + 25 ∧ clockFree { world with clk := 5, plat := { world.plat with clockAt := some 1 } } = false ∧
    (∃ d ∈ [20, 105], 105 ≤ d) ∧ world.plat.hot = false ∧ (∀ d ∈ [94, 20], d < 95) ∧ hot.plat.hot = true := by decide

def aLaunch : Launch :=
  { queue := 3, owner := 0, part := 0, n := 1, pkt := packet, cmdaddr := 0, st := .queued, next := 0, retired := 0, discarded := 0, outstanding := 0, status := 0, firstAt := none, passedSince := some 0,
    holdCore := none, holdQuad := none, compatDone := false, gone := false }
def aFrame : LaunchFrame := { port := 0, part := 0, srcmac := 0, keyid := 0, sealKey := 0, intact := true, bytes := packet }
def pkt0 (kind : BitVec 8) : Packet := { (default : Packet) with src := 5, kind := kind, intact := true, ty := .b32, len := 4 }
def queueWord : BitVec 64 := 0x8000000000000000
def ctxWord : BitVec 64 := 0x8000000000000000
/-- Queue 0 admits partition 0 and belongs to context 0, whose entry is valid. -/
def admitting : State := { owned world with tabs := { world.tabs with queues := [(0, queueWord)], ctxs := [(0, ctxWord)] } }
theorem witness_DispatcherEvents : (holdDue { world with clk := Config.roomHoldCycles, launches := [(9, aLaunch)] } 3).isSome = true ∧ Pkt.team aLaunch.pkt = 0 ∧
    aFrame.intact = true ∧ keyOk world 0 = true ∧ keyValue world 0 = aFrame.sealKey ∧ (pkt0 0x20).dst = world.tabs.self ∧ sealOk world (pkt0 0x20) = true ∧
    rejectReason admitting (.word 0) 0 packet = none := by decide
/-- Partition 0 may have one context. -/
def roomy : State := { world with plat := { world.plat with copy0 := [(0, { PartRec.zero with qos := 4096 })] } }
theorem witness_TableWrites : Queue.en queueWord = true ∧ CtxTab.valid (ctxEntry admitting (Queue.own queueWord)) = true ∧ queueWord.toNat % 2 ^ 48 = 0 ∧ queueBusy admitting 0 = false ∧
    queueBusy { world with launches := [(9, aLaunch)] } 3 = true ∧ Queue.own 0 = Queue.own (queueEntry world 3) ∧
    ctxWord.toNat % 2 ^ 12 = 0 ∧ ctxWord.toNat / 2 ^ 48 % 2 ^ 9 = 0 ∧ CtxTab.valid ctxWord = true ∧ CtxTab.valid (ctxEntry world 4095) = false ∧
    ctxCount roomy (CtxTab.part ctxWord) < ctxMax roomy (CtxTab.part ctxWord) ∧ (0x8FFF : BitVec 16).toNat / 2 ^ 12 % 2 ^ 3 = 0 ∧ (4096 : Long).toNat % 64 = 0 ∧
    ({ off := 0, data := zeros 8, hyper := false } : PcbStore).hyper = false := by decide
def stepped (kind prog : Nat) : CtxStep := { id := 8, target := 0, kind := kind, area := 0, issuer := none, prog := prog, bearReq := none }
theorem witness_ContextEvents : ([0, 1, 2, 3].all fun k => canStep { world with steps := [stepped k 0] } (stepped k 0) && (stepLacks { world with steps := [stepped k 0] } (stepped k 0)).isEmpty) = true ∧ (ctx? world 0).isSome = true ∧
    canStep { world with steps := [{ stepped 0 0 with target := 77 }] } { stepped 0 0 with target := 77 } = true ∧ ctx? world 77 = none ∧
    yieldDue (readyRank (onCtx (fun c => { c with yieldPending := true }) world)) 0 = some 0 ∧
    yieldOverrun { (onCtx (fun c => { c with yieldPending := true, deadline := 9 }) world) with clk := 9 } 0 = true := by decide
/-- A frozen context whose stage-2 tables stand elsewhere is to be saved. -/
def savingElsewhere : State := { tablesElsewhere (onCtx (fun c => { c with mode := .frozen }) world) with steps := [stepped 1 0] }
theorem witness_ContextEvents_line : canStep savingElsewhere (stepped 1 0) = true ∧ (stepLacks { savingElsewhere with groups := [] } (stepped 1 0)).isEmpty = false := by decide

/-- Core 0, slab 2 belongs to group 0, which holds barrier 5. -/
def landing : State := { (barred 5 (bar1 64 0) world) with slabs := [(2, { group := 0, data := [] })] }
def peerPacket (kind : BitVec 8) : Packet := { pkt0 kind with addr := BitVec.ofNat 64 (2 * 2 ^ 41 + 5 * 2 ^ 34 + 127), data := zeros 512 }
theorem witness_FabricArrivals : (pkt0 0x01).dst = world.tabs.self ∧ ({ pkt0 0x01 with fseq := 1 }).fseq ≠ expected world { pkt0 0x01 with fseq := 1 } ∧
    (pkt0 0x01).fseq = expected world (pkt0 0x01) ∧ sealOk world (pkt0 0x01) = true ∧ sealOk world { pkt0 0x01 with intact := false } = false ∧ (pkt0 0x01).src ≠ world.tabs.self ∧
    mayExpose world world.fab.held (pkt0 0x01) = true ∧ world.fab.held = [] ∧
    ({ asker := 5, router := 0, keyid := 0, collid := 1, grant := none } : SlotReq).router = world.tabs.self := by decide
theorem witness_FabricPerforms : sget (0 * 8 + 2) landing.slabs ≠ none ∧ (landing.slabs.map (·.1)).Pairwise (· < ·) ∧ Mem.wf world.mem = true ∧ homedHere world 4096 = true ∧
    mirrorOf world 4096 = none ∧ portSays { pkt0 0x01 with addr := 4096, data := [1, 2, 3, 4] } 4 .wr world = .ok 4096 ∧ findTag world 5 0 (granuleOf 4096) = none ∧
    AtomFn.ofCode ((pkt0 0x02).opinfo.extractLsb' 0 4) ≠ none ∧ portSays { pkt0 0x02 with addr := 4096, data := zeros 16 } 4 .at world = .ok 4096 ∧
    portSays { pkt0 0x04 with addr := 4096 } 4 .rd world = .ok 4096 ∧
    findTag { world with tags := [{ pkg := 5, tag := 0, target := granuleOf 4096, result := [] }] } 5 0 (granuleOf 4096) = some [] ∧
    portSays { pkt0 0x01 with addr := BitVec.ofNat 64 (2 ^ 62), data := [1, 2, 3, 4] } 4 .wr world = .refused 0x0002 0x15 (BitVec.ofNat 64 (2 ^ 62)) ∧
    bits (peerPacket 0x08).addr.toNat 44 8 = 0 ∧ bits (peerPacket 0x08).addr.toNat 41 3 = 2 ∧ bits (peerPacket 0x08).addr.toNat 34 7 = 5 ∧ (group? landing 0).isSome = true ∧
    (ctx? landing 0).map (·.key) = some (peerPacket 0x08).keyid ∧ groupIs (fun x => barHeld x 5 && (barGet landing x 5).target != 0 && !x.frozen) landing = true ∧
    findTag landing 5 0 (rowTarget 0 2 127) = none := by decide
def owner7 : State := { world with dir := [(8, { owner := some 7, sharers := 512, pending := [], granting := none })],
                                     tabs := { world.tabs with domain := List.range 64 } }
def holding (st : Moesi) : State := { world with l2 := [(8, { state := st, ctx := 0, data := zeros 512 })] }
theorem witness_CoherenceMessages : (pkt0 0x10).dst = world.tabs.self ∧ ctlSeal world (pkt0 0x10) = true ∧ (dirAt world 8).owner = none ∧
    mustLeave owner7 (dirAt owner7 8) 5 = [7, 9] ∧ mustLeave world (dirAt world 8) 5 = [] ∧ rowFailed world 4096 = false ∧ lineHeld world 8 = false ∧ (pkt0 0x11).kind ≠ 0x10 ∧
    (sget (lineOfPacket { pkt0 0x14 with addr := 4096 }) (holding .m).l2).isSome = true := by decide
def region (home : Nat) (mirror : Option Nat) (moving : Bool) : Region := { home := home, mirror := mirror, isLost := false, moving := moving, copying := false, unprotected := false, awaits := [], notIndependent := false }
def withRegion (r : Region) : State := { world with regions := [(3, r)] }
theorem witness_LossAndMirrors : sget 3 (withRegion (region 7 none false)).regions = some (region 7 none false) ∧ (region 7 none false).home = 7 ∧ (region 7 none false).mirror = none ∧
    (region 7 (some 8) false).mirror = some 8 ∧ pkgLost (withRegion (region 7 (some 8) false)) 8 = false ∧ (region 7 (some 0) true).mirror = some world.selfPkg ∧
    ({ region 0 (some 8) false with copying := true }).copying = true ∧ ctlSeal world (pkt0 0x16) = true ∧
    homedHere (withRegion (region 7 (some 0) false)) (3 * 2 ^ 30) = false := by decide
def port1 (fails : Nat) (locked : Bool) : State :=
  { world with fab := { world.fab with ports := world.fab.ports.set 1 { Port.reset with connected := true, fails := fails, locked := locked, lseqIn := 4, retry := [{ input := 16, hdr := 0, flit := { (default : Flit) with lseq := 3 } }] } } }
def flit4 : Flit := { (default : Flit) with lseq := 4 }
/-- A flit whose tag verifies, and one whose tag does not. -/
theorem linkTagOk_self (n : Nat) (q : Port) (f : Flit) :
    linkTagOk n q { f with tag := linkTag n q.session (!Config.linkDir n) (fullSeq q.lseqIn f.lseq) f } = true := by
  simp [linkTagOk, linkTag, Flit.header]
theorem linkTagOk_other (n : Nat) (q : Port) (f : Flit) :
    linkTagOk n q { f with tag := linkTag n q.session (!Config.linkDir n) (fullSeq q.lseqIn f.lseq) f + 1 } = false := by
  simp [linkTagOk, linkTag, Flit.header]
def sentAgain (kind : BitVec 8) : Unacked :=
  { packet := pkt0 kind, ctx := 0, owner := .cmd 5, number := 1, posted := false, launch := 0, pc := 0, retryAt := some 0, off := 0, access := 0, stale := false, acked := none }
theorem witness_LinksAndTables : [0, 1].all (fun n => ((port1 n false).fab.ports[1]?).any fun p => p.connected && !p.locked && p.fails == n && p.lseqIn.setWidth 32 == flit4.lseq && !p.retry.isEmpty) = true ∧
    ({ flit4 with lseq := 5 }).lseq ≠ flit4.lseq ∧ loadsHere { (default : TableLoad) with self := 9 } { world with tabs := { world.tabs with scopeValid := true } } = false ∧
    loadsHere { (default : TableLoad) with self := 9 } { world with tabs := { world.tabs with scopeValid := false } } = true ∧
    retryDue world false (sentAgain 0x01) = true ∧ retryDue world true (sentAgain 0x08) = true ∧ (0 : BitVec 12) ≠ 1 ∧
    ({ routes := [(4095, 1)], scopes := [], ndom := 0, self := 0 } : TableLoad).routes = [(4095, 1)] := by decide

/-- The start is over and the host's session stands. -/
def managed : State := { world with plat := { world.plat with powered := true, joined := true, session := true } }
def hcmd (code : BitVec 16) (body : List Byte) : HostCmd := { cmd := code, flags := 0, len := BitVec.ofNat 32 body.length, seq := 1, body := body, inSession := true }
def asked (h : HostCmd) (code size : Nat) : Bool :=
  mgmtRuns managed && h.inSession && managed.plat.session && h.cmd.toNat == code && h.len.toNat == size && h.body.length == size && h.flags == 0
def tabEntry : Nat := 5 * 2 ^ 39 + 4091 * 2 ^ 52
theorem witness_ManagementCommands : asked (hcmd 0x40 []) 0x40 0 = true ∧ asked (hcmd 0x41 (d4 4095)) 0x41 4 = true ∧ field (d4 4095) 0 4 < 4096 ∧ asked (hcmd 0x42 []) 0x42 0 = true ∧
    (hcmd 0x41 []).len.toNat ≠ 4 ∧ ({ hcmd 0x40 [] with inSession := false }).inSession = false ∧ ({ hcmd 0x40 [] with len := 1 }).len.toNat ≠ ([] : List Byte).length ∧
    asked (hcmd 0x30 (d4 4095 ++ d4 1 ++ zeros 32)) 0x30 40 = true ∧ field (d4 4095 ++ d4 1 ++ zeros 32) 0 4 = 4095 ∧ field (d4 4095 ++ d4 1 ++ zeros 32) 4 4 < 2 ∧
    asked (hcmd 0x31 (d4 63 ++ d4 63 ++ leBytes tabEntry 16)) 0x31 24 = true ∧ field (d4 63 ++ d4 63 ++ leBytes tabEntry 16) 8 16 = tabEntry ∧ bits tabEntry 0 39 = 0 ∧
    bits tabEntry 112 15 = 0 ∧ bits tabEntry 39 13 = 5 ∧ bits tabEntry 52 12 + bits tabEntry 39 13 ≤ 4096 ∧ managed.plat.stopped = false := by decide

theorem witness_RowsAndLayouts : ({ world with zeroing := [(4, { buffer := some 6, pchan := none })] }).zeroing[0]? = some (4, { buffer := some 6, pchan := none }) ∧
    isRow 0 0 = true ∧ isRow 767 (2 ^ 20 - 1) = true ∧ world.plat.failedRows.contains (0, 0) = false ∧ asked (hcmd 0x50 (d4 11 ++ d4 15)) 0x50 8 = true ∧
    field (d4 11 ++ d4 15) 0 4 < 12 ∧ field (d4 11 ++ d4 15) 4 4 < 16 ∧ layerRetired managed 11 15 = false ∧ layerUsed managed 11 15 = false ∧ managed.plat.retiring = [] ∧
    retireReady { managed with plat := { managed.plat with retiring := [(1, 2, 3)] } } 1 2 = true ∧
    asked (hcmd 2 []) 2 0 = true ∧ commitState { managed with plat := { managed.plat with commit := 1 } } = 1 ∧ layoutBusy managed (layoutActive managed) (layoutShadow managed) = none ∧
    asked (hcmd 3 []) 3 0 = true ∧ mgmtRuns managed = true ∧ commitState managed = 0 ∧ commitState { managed with plat := { managed.plat with commit := 6 } } = 2 := by decide
def bear (t : Nat) : BearReq := { cores := 1, reqid := 9, t := t, noyield := true, nextEval := 0, checkpointed := 0, discardedQ := 0, runQueues := [3], n := [] }
def bearing (t : Nat) : State := { managed with plat := { managed.plat with bearoffs := [bear t] } }
def gen0 : Generation :=
  { part := 1, gen := 2, clk := 0, slot := 0, base := 2 ^ 43, complete := true, notIndependent := false, partnerIncomplete := false, atPartner := false, contexts := [], packets := [], bufs := [], tlq := [],
    images := [], chunks := [], replica := [], backed := [] }
def bearBody : List Byte := leBytes 1 28 ++ d4 9 ++ q 100 ++ d4 1 ++ zeros 20
/-- A launch of queue 3 stands on core 0, and its partition saves 5 GB a second. -/
def banked : State :=
  { (bearing 0) with launches := [(0, aLaunch)], plat := { (bearing 0).plat with copy0 := [(0, { PartRec.zero with qos := 5 })] } }
theorem witness_BearoffsAndCheckpoints : asked (hcmd 0x10 bearBody) 0x10 64 = true ∧ managed.plat.bearoffs.length < 16 ∧ field bearBody 40 4 = 1 ∧ zeroBytes bearBody 44 20 = true ∧
    ({ managed with groups := [] }).groups = [] ∧ (List.replicate 16 (bear 0)).length = 16 ∧ (evalDue (bearing 100)).isSome = true ∧
    (lateOn (bearing 0) (bear 0)) = [0] ∧ vacant { (bearing 0) with groups := [] } (bear 0) = true ∧ mayYield (bearing 0) (bear 0) 0 loadedCtx = false ∧
    asked (hcmd 0x20 (d4 63 ++ q (2 ^ 43) ++ q (2 ^ 43) ++ d4 1 ++ d4 4095)) 0x20 28 = true ∧ field (d4 63 ++ q (2 ^ 43) ++ q (2 ^ 43) ++ d4 1 ++ d4 4095) 24 4 = 4095 ∧
    (ckptOf managed 63).busy = false ∧ (ckptOf managed 63).streaming = none ∧ asked (hcmd 0x21 (d4 4095 ++ d4 1)) 0x21 8 = true ∧ field (d4 4095 ++ d4 1) 4 4 ≠ managed.plat.feed ∧
    field (d4 7 ++ d4 0) 4 4 = managed.plat.feed ∧ asked (hcmd 0x22 (d4 1 ++ d4 2 ++ d4 0 ++ d4 0)) 0x22 16 = true ∧
    (({ managed with plat := { managed.plat with gens := [gen0] } }).plat.gens.find? fun g => g.part == 1 && g.gen == 2 && g.complete) = some gen0 := by decide
theorem witness_BearoffsAndCheckpoints_comparator : ((comparatorFires banked).map fun e => (e.1.reqid, e.2)) = some (9, 3) ∧ queueCtx banked (bear 0).cores 3 = some 0 ∧
    saveqOf banked (ctxPart banked 0) ≠ 0 := by decide
theorem witness_PowerOnBoots : State.reset.plat.failed = [] ∧ (∀ p, p < 64 → PartRec.crcOk (recordAt (layoutActive State.reset) p) = true) ∧ commitState State.reset = 0 ∧
    (2, 0xFF) ∈ [(2, 0xFF)] ∧ (∀ n : Nat, (n, 0xFF) ∈ [(2, 0xFF)] → n = 2) := by
  refine ⟨by decide, by decide, by decide, by decide, fun n h => ?_⟩
  simpa using h

/-! ### More witnesses: boundaries and further clauses -/

theorem witness_StepRunsDecoded_zeroing : (at' (.exit c0)).zeroing = [] ∧ (at' .mstop).zeroing = [] := by decide
theorem witness_StepRunsDecoded_open : rankIs (fun k => k.st == .issuing && (openWord k).isNone) (at' (.exit c0)) = true ∧ (at' (.exit c0)).agenda = [] ∧
    (at' (.exit c0)).cur = some (.rank 0 0) := by decide
theorem witness_WordsThatTrap_record : rankIs (fun k => k.live.isEmpty && (openWord k).isNone && k.st == .issuing) (start (plain 0x48 0 0 0 0 0 1)) = true ∧
    (match seqIssuing (at' .mstop) with | some (_, x, _) => (lowestRank x).isSome && !x.retiredGroup | none => false) = true ∧
    (match issuing (start (plain 0x48 0 0 0 0 0 1)) (Fields.ofWord (plain 0x48 0 0 0 0 0 1)).ctl with | some u => u.c.trapvec == 0 | none => false) = true := by decide
theorem witness_TrapEntry_record : rankIs (fun k => k.live.all fun e => e.stop.isNone) (withHandler (at' (.nop c0))) = true := by decide
/-- The frame's thread 0 would go on at 2. -/
def badFrame : State → State := onRank fun k => { k with handler := true, frameActive := true, frameCopy := some (k.copyFrame (k.threads.map fun t => { t with pc := 2 })) }
theorem witness_ReturnFromTrap_target : meets (.rtt c0) (inFrame (at' (.rtt c0))) (fun u => u.ex != 0 && (badReturn (inFrame (at' (.rtt c0))) u.x u.c u.k).isNone) = true ∧
    meets (.rtt c0) (badFrame (at' (.rtt c0))) (fun u => u.ex != 0 && u.k.frameActive && !storesOpen (badFrame (at' (.rtt c0))) u.g u.r && (frameLacks (badFrame (at' (.rtt c0))) u.x u.c u.k).isEmpty &&
      badReturn (badFrame (at' (.rtt c0))) u.x u.c u.k == some 2) = true := by decide
/-- What the checks of an STC at pointer p find: the cause, how many elements are below it, whether all those are local, and whether a local one is held. -/
def stcAt (p : Nat) (s : State → State) : Option (Option Nat × Nat × Bool × Bool) :=
  let i := Instr.stc (storeOp .b64 (.w 1))
  let t := s (putW 2 p (at' i))
  (issuing t c0).map fun u =>
    let m := ofStore .stc (storeOp .b64 (.w 1))
    let e := memEntry 0 u (encode i) m t.fresh (takeTags u.x.ctx (m.count u.ex) t).2
    let pl := placeAll m u.x.ctx u.x.core u.x (elemsOf m e.mask e.slots) [] t
    (pl.2.2.map (·.cause.toNat), pl.2.1.length, pl.2.1.all (·.2.isLocal), anyLocalHeld pl.1 u m pl.2.1)
theorem witness_MemoryIssue_stc : stcAt (2 ^ 63 + 65536 * 8 - 16) id = some (some 0x12, 2, true, false) ∧
    stcAt (2 ^ 63 + 65536 * 8 - 16) (queued { aStore with acq := true }) = some (some 0x12, 2, true, true) ∧
    stcAt (loadAddr + 4096 - 16) id = some (some 0x13, 2, false, false) := by decide
/-- Every element of the word reaches its space, in a tensor buffer or in the group's allocation. -/
def reaching (i : Instr) (p : Nat) : Bool :=
  let t := putW 2 p (at' i)
  match memOp i, issuing t c0 with
  | some m, some u =>
    let e := memEntry 0 u (encode i) m t.fresh (takeTags u.x.ctx (if m.isLoad then 0 else m.count u.ex) t).2
    let el := elemsOf m e.mask e.slots
    (hurdle t u i).isNone && !el.isEmpty && el.all fun y => m.reaches t.selfPkg y.s.a && (!m.aligned || ptrOff y.s.a % m.bytes == 0) &&
      (ptrSpace y.s.a == .tensor || ptrSpace y.s.a == .loc && decide (ptrOff y.s.a + m.bytes ≤ localSize u.x (ptrRegion y.s.a)) && !localHeld t u m y.t)
  | _, _ => false
def tensorP : Nat := 2 ^ 62 + 8192
theorem witness_MemoryIssue_spaces : [Instr.ld (loadOp .b128), .ldu { loadOp .b64 with d := .w 1 }, .ldx (loadOp .s16), .st (storeOp .b64 .none), .stc (storeOp .b32 (.w 1)),
      .atom (atomOp .add)].all (fun i => reaching i localP && reaching i tensorP) = true ∧
    [Instr.lr (loadOp .b32), .sc (storeOp .b32 (.v 4))].all (fun i => reaching i tensorP) = true ∧
    [Instr.xatom (atomOp .max), .xst { c := c0, ty := .b64, rel := false, sc := 0, fl := 2, ord := true, a := .w 2, b := .v 8, disp := 8 }].all (fun i => reaching i remoteP) = true := by decide

/-- A store of the rank, made earlier, that nothing has performed. -/
def storing (target : Target) (s : State) : State := queued { aStore with target := target } { s with fresh := 5 }
theorem witness_FencesAndCaches_drains : [Instr.fenceRel c0 2, .fenceTc c0 5].all (fun i => meets i (at' i) fun u => threadsDrained (at' i) u.x u.g u.k u.ex true && tensorDrained (at' i) u.x u.g u.k u.ex true) = true ∧
    meets (.fenceRel c0 2) (storing (.ctl 4096) (at' (.fenceRel c0 2))) (fun u => !threadsDrained (storing (.ctl 4096) (at' (.fenceRel c0 2))) u.x u.g u.k u.ex true) = true ∧
    meets (.fenceTc c0 5) (storing (.ten 0 8192 none) (at' (.fenceTc c0 5))) (fun u => !tensorDrained (storing (.ten 0 8192 none) (at' (.fenceTc c0 5))) u.x u.g u.k u.ex true) = true := by decide
theorem witness_BarrierWords_late : meets (.barArv c0 1 (.w 1) (.b 5) 0) (storing (.ctl 4096) (barred 5 (bar1 9 0) (at' (.barArv c0 1 (.w 1) (.b 5) 0)))) (fun u =>
      u.ex != 0 && (barGet (storing (.ctl 4096) (barred 5 (bar1 9 0) (at' (.nop c0)))) u.x 5).target == 9 && !arriveReady (storing (.ctl 4096) (barred 5 (bar1 9 0) (at' (.barArv c0 1 (.w 1) (.b 5) 0)))) u 1) = true ∧
    groupIs (fun x => (sget x.team [(x.team, (default : Team))]).isSome && (x.ranks[0]?).isSome) world = true ∧
    rankIs (fun k => k.v.isEmpty) (barred 5 (bar1 9 0) (at' (.nop c0))) = true := by decide
/-- The block passes the checks of R148 and an engine has room for the command. -/
def passes (i : Instr) (kind : CmdKind) (tile : Nat) (bs : List Byte) : Bool :=
  let s := owned (tiled (scratched bs (at' i)))
  meets i s fun u =>
    let p : Long := BitVec.ofNat 64 (readOpnd s.clk u .b64 0 eng.a 0)
    let b := readBytes u.x.scratch (ptrOff p) (blockBytes kind)
    let h := handleOf u.x tile
    u.ex != 0 && decide (inScratch u.x p (blockBytes kind) 64) && (kind != .copyPl || hCfg h) && (cmdChecks s.selfPkg kind h b).all (·.2) && (localOutside u.x (localRanges kind h b)).isNone &&
      match cmdEngine s kind u.x.core u.c.part with
      | some en => engineRoom s en
      | none => false
theorem witness_EngineWords_runs : passes (.copy eng) .copy 0 copyBlock = true ∧ passes (.copyPl 3 eng) .copyPl 3 plBlock = true ∧ passes (.gather eng) .gather 0 gathBlock = true ∧
    passes (.scadd eng) .scadd 0 gathBlock = true ∧ passes (.sort eng) .sort 0 sortBlock = true ∧ passes (.coll eng) .coll 0 collBlock = true := by decide
/-- The same with the barrier that a command of class bar names. -/
theorem witness_EngineWords_bar : groupIs (fun x => (barGet (barred 5 (bar1 9 0) world) x (barIdx (.b 5))).target != 0) (barred 5 (bar1 9 0) world) = true := by decide
theorem witness_StreamWords_room : streams (slabbed (at' (.mepi .t1x1 (.a 0) 256))) (fun x => numbersFree (slabbed (at' (.mepi .t1x1 (.a 0) 256))) x.ctx (128 * shapeRows .t1x1) &&
      numbersFree (slabbed (at' (.mepi .t1x1 (.a 0) 256))) x.ctx 1 && (lowestRank x).isSome && !x.retiredGroup && !slotsBusy x [0]) = true ∧
    streams (onGroup (fun x => { x with seq := { x.seq with recs := List.replicate 4 SeqRec.zero } }) (at' (.mma mma))) (fun x => x.seq.recs.length == 4) = true := by decide
theorem witness_LaunchWords_scratch : meets (.launch c0 (.w 2)) (scratched packet (at' (.launch c0 (.w 2)))) (fun u => u.ex != 0 && readOpnd 0 u .b64 0 (.w 2) 0 == localP &&
      decide (inScratch u.x (BitVec.ofNat 64 localP) 64 64)) = true ∧
    meets (.bufset c0 (.w 3) (.w 2)) (asHost <| putW 3 4095 (scratched (zeros 32) (at' (.bufset c0 (.w 3) (.w 2))))) (fun u => u.ex != 0 && readOpnd 0 u .b64 0 (.w 3) 0 == 4095 &&
      decide (inScratch u.x (BitVec.ofNat 64 localP) 32 32) && (bufBad world u (BitVec.ofNat 256 (leNat (zeros 32)))).isNone && (bufLack world u.c.part (BitVec.ofNat 256 (leNat (zeros 32)))).isNone) = true ∧
    world.homeq = [] := by decide

theorem witness_MemoryEvents_path : ((enterPath 0 (queued aStore world)).homeq[0]?).any (fun a => mayGo (enterPath 0 (queued aStore world)) 0 a && !heldOff (enterPath 0 (queued aStore world)) a) = true ∧
    (world.groups.map (·.1)).Pairwise (· < ·) ∧ groupIs (fun x => !x.frozen) world = true ∧ rankIs (fun k => (openWord k).isNone) (readyRank world) = true := by decide
theorem witness_DispatcherEvents_packet : (pkt0 0x20).plane = 0 ∧ (pkt0 0x20).blen ≤ 536 ∧ (pkt0 0x20).fseq = expected world (pkt0 0x20) := by decide
/-- A packet of the tensor plane. -/
def pkt1 (kind : BitVec 8) : Packet := { pkt0 kind with plane := 1 }
theorem witness_FabricArrivals_planes : (pkt1 0x01).dst = world.tabs.self ∧ (pkt1 0x01).plane = 1 ∧ (pkt1 0x01).blen ≤ 536 ∧ (pkt0 0x06).plane = 0 ∧
    (pkt1 0x05).fseq = expected world (pkt1 0x05) ∧ (pkt0 0x06).fseq = expected world (pkt0 0x06) ∧ ({ pkt1 0x05 with fseq := 1 }).fseq ≠ expected world { pkt1 0x05 with fseq := 1 } ∧
    sealOk world (pkt1 0x05) = true ∧ (pkt1 0x01).fseq = expected world (pkt1 0x01) ∧ sealOk world { pkt1 0x01 with intact := false } = false ∧ (pkt1 0x01).src ≠ world.tabs.self ∧
    mayExpose world world.fab.held (pkt1 0x01) = true := by decide
theorem witness_FabricPerforms_pending : mirrorPending world 5 0 (granuleOf 4096) = false ∧ groupIs (fun x => !x.retiredGroup) landing = true := by decide
theorem witness_CoherenceMessages_home : (pkt0 0x10).plane = 0 ∧ (pkt0 0x10).blen ≤ 536 ∧ (pkt0 0x10).fseq = expected world (pkt0 0x10) ∧
    (dirAt { world with dir := [(8, { owner := none, sharers := 0, pending := [], granting := some (pkt0 0x10) })] } 8).granting.isSome = true ∧
    (dirAt world 8).granting = none ∧ recalling world 8 = false ∧ (dirAt owner7 8).granting = none ∧ recalling owner7 8 = false ∧ (dirAt owner7 8).owner = some 7 ∧ 7 ≠ (pkt0 0x10).src.toNat ∧
    homedHere world (lineOfPacket { pkt0 0x13 with addr := 4096 } * 512) = true ∧ regionMoving world (lineOfPacket { pkt0 0x13 with addr := 4096 } * 512) = false ∧
    (dirAt owner7 (lineOfPacket { pkt0 0x13 with addr := 4096 })).owner ≠ some (pkt0 0x13).src.toNat := by decide
/-- The same line, homed at package 7. -/
def holdingAway (st : Moesi) : State := { holding st with regions := [(0, region 7 none false)] }
theorem witness_CoherenceMessages_holder : [Moesi.m, .o, .e, .s].all (fun st => (sget (lineOfPacket { pkt0 0x10 with addr := 4096 }) (holdingAway st).l2).isSome &&
    !homedHere (holdingAway st) (lineOfPacket { pkt0 0x10 with addr := 4096 } * 512)) = true ∧ (pkt0 0x10).tag.toNat < 4096 := by decide
theorem witness_LossAndMirrors_named : (region 7 (some 0) true).awaits = [] ∧ (region 7 none false).home ≠ world.selfPkg ∧ (region 0 none false).home = world.selfPkg ∧ (region 0 none false).isLost = false ∧
    sget 3 (withRegion (region 0 none false)).regions = some (region 0 none false) ∧ (pkt0 0x16).plane = 0 ∧ (pkt0 0x16).blen ≤ 536 ∧ (pkt0 0x16).fseq = expected (withRegion (region 7 (some 0) false)) (pkt0 0x16) ∧
    ctlSeal (withRegion (region 7 (some 0) false)) (pkt0 0x16) = true := by decide
theorem witness_BearoffsAndCheckpoints_late : (({ (bearing 0) with clk := 9 }).plat.bearoffs.find? fun b => b.reqid == 9 && decide (b.t ≤ 9) && !(lateOn { (bearing 0) with clk := 9 } b).isEmpty) = some (bear 0) ∧
    (({ (bearing 0) with groups := [] }).plat.bearoffs.find? fun b => b.reqid == 9 && vacant { (bearing 0) with groups := [] } b) = some (bear 0) ∧ loadedCtx.mode = .running := by decide
theorem witness_BearoffsAndCheckpoints_restore : asked (hcmd 0x22 (d4 1 ++ d4 2 ++ d4 0 ++ d4 0)) 0x22 16 = true ∧
    heldGen { managed with plat := { managed.plat with gens := [gen0] } } (field (d4 1 ++ d4 2 ++ d4 0 ++ d4 0) 8 4) 1 2 = some gen0 ∧
    (verifyChunks 0 1 2 managed gen0.chunks managed).2 = none ∧ (fetchBacked 0 1 2 managed (backedChunks managed gen0) managed).2 = none ∧
    (ckptOf { managed with plat := { managed.plat with ckpts := [{ (ckptOf managed 1) with streaming := some 2 }] } } 1).streaming = some 2 := by decide
theorem witness_PowerOnBoots_stops : (1, 0xFF) ∈ [(1, 0xFF)] ∧ (∀ n : Nat, (n, 0xFF) ∈ [(1, 0xFF)] → n = 1) := by
  refine ⟨by decide, fun n h => ?_⟩
  simpa using h

/-! ### Events with their effects -/

/-- Entry 1 of the rank: instruction i in threads 0 and 2, with what it has got and one piece left. -/
def anEntry (i : Instr) (got : List (Nat × Nat × List Byte)) : Entry :=
  { (default : Entry) with word := encode i, mask := 5, id := 1, left := 1, got := got }
/-- The entry's answer is the next that comes back. -/
def answering (i : Instr) (got : List (Nat × Nat × List Byte)) : State :=
  { onRank (fun k => { k with live := [anEntry i got] }) world with respq := [{ group := 0, rank := 0, entry := 1 }] }
def twoThreads : List (Nat × Nat × List Byte) := [(0, 0, [1, 2, 0, 0]), (2, 0, [3, 0]), (2, 2, [0, 1])]
def answerMeets (s : State) (i : Instr) (p : MemOp → Bool) : Bool := groupIs (fun x => !x.retiredGroup) s && ((entryInstr (encode i)).bind memOp).any p &&
  rankIs (fun k => k.st == .issuing && (k.live.find? fun e => e.id == 1).isSome && rising (k.v.map (·.1)) && rising (k.w.map (·.1))) s
-- LD (R126) and LDU (R127): the bytes got, little-endian, in the executing threads; SC's status (R129)
theorem witness_AnswersWrite : answerMeets (answering (.ld (loadOp .b32)) twoThreads) (.ld (loadOp .b32)) (fun m => m.kind == .ld && !m.nr && !m.uniform && m.d == .v 4) = true ∧
    answerMeets (answering (.ldu { loadOp .b64 with d := .w 3 }) []) (.ldu { loadOp .b64 with d := .w 3 }) (fun m => m.kind == .ldu && !m.nr && m.uniform && m.d == .w 3) = true ∧
    answerMeets (answering (.sc (storeOp .b32 (.v 4))) []) (.sc (storeOp .b32 (.v 4))) (fun m => m.kind == .sc && m.d == .v 4) = true ∧
    (threadsOf (5 : Mask)).head? = some 0 ∧ twoThreads.filter (fun p => p.1 == 2) = [(2, 0, [3, 0]), (2, ([3, 0] : List Byte).length, [0, 1])] := by decide
theorem test_load_answer : after (.loadResponse 0) (answering (.ld (loadOp .b32)) twoThreads) (rankIs fun k =>
    k.vreg 4 0 == 513 && k.vreg 4 1 == 0 && k.vreg 4 2 == 16777219 && k.live.isEmpty) = true := by decide
theorem test_uniform_answer : after (.loadResponse 0) (answering (.ldu { loadOp .b64 with d := .w 3 }) [(0, 0, [5, 0, 0, 0, 0, 0, 0, 128])]) (rankIs fun k =>
    k.wreg 3 == 0x8000000000000005 && k.live.isEmpty) = true := by decide
/-- Piece a alone is queued, for the entry. -/
def pieceOf (op : AccOp) (n : Nat) : Access := { aStore with op := op, len := n, wholeLen := n }
def waiting1 (a : Access) : State := onRank (fun k => { k with live := [anEntry (.ld (loadOp .b32)) []] }) { world with homeq := [a], mem := writeBytes world.mem 4096 [7, 0, 0, 0] }
def onlyMeets (a : Access) (s : State) : Bool := ordered s 0 a && (regionOf s 4096).isNone && (dirEntry s 8).isNone && !layerOff s 4096 && !rowFailed s 4096 &&
  !sliceFullAt s (granuleOf 4096) && groupIs (fun x => !x.retiredGroup) s && rankIs (fun k => k.st == .issuing && (k.live.find? fun e => e.id == 1).isSome) s &&
  a.readers.isEmpty && a.tag.isNone && s.l1.isEmpty
def tookIt (bs : List Byte) : State → Bool := rankIs fun k => k.live.any fun e => e.left == 0 && e.got == [(0, 0, bs)]
theorem witness_HomesPerform : [AccOp.write [9, 8], .read, .atom .add .b32 5 0, .sc [1]].all (fun op => onlyMeets (pieceOf op 2) (waiting1 (pieceOf op 2))) = true ∧
    isPostedWord (encode (.ld (loadOp .b32))) = false ∧ Machine.reserved { waiting1 (pieceOf (.sc [1]) 1) with resv := [{ group := 0, rank := 0, thread := 0, granule := granuleOf 4096, holdUntil := 256 }] }
      (pieceOf (.sc [1]) 1) 4096 = true ∧ Machine.reserved (waiting1 (pieceOf (.sc [1]) 1)) (pieceOf (.sc [1]) 1) 4096 = false := by decide
-- a store's bytes stand there (R126); an atomic adds and gets the old value (R132); SC without a reservation stores nothing and gets 1 (R129)
theorem test_home_store : after (.homeRequest 0) (waiting1 (pieceOf (.write [9, 8]) 2)) (fun t => readBytes t.mem 4095 4 == [0, 9, 8, 0] && t.homeq.isEmpty) = true := by decide
theorem test_home_atomic : after (.homeRequest 0) (waiting1 (pieceOf (.atom .add .b32 5 0) 4)) (fun t => readBytes t.mem 4096 4 == [12, 0, 0, 0] && tookIt [7, 0, 0, 0] t) = true ∧
    after (.homeRequest 0) (waiting1 (pieceOf .read 4)) (tookIt [7, 0, 0, 0]) = true ∧
    after (.homeRequest 0) (waiting1 (pieceOf (.sc [1]) 1)) (fun t => readBytes t.mem 4096 1 == [7] && tookIt [1] t) = true := by decide
/-- A store waits for the reservation of thread 3, which has run out or not. -/
def heldStore (clk : Nat) : State := { waiting1 { pieceOf (.write [9]) 1 with inPath := true } with
  clk := clk, resv := [{ group := 0, rank := 0, thread := 3, granule := granuleOf 4096, holdUntil := 256 }] }
theorem test_hold_runs_out : after (.homeRequest 0) (heldStore 255) (fun t => readBytes t.mem 4096 1 == [7] && !t.homeq.isEmpty) = true ∧
    after (.conflictingWriteHoldExpiry (granuleOf 4096)) (heldStore 256) (fun t => readBytes t.mem 4096 1 == [9] && t.resv.isEmpty && t.homeq.isEmpty) = true := by decide
/-- Stage 2 maps partition 0's first 2^40 bytes where they stand, by one range descriptor at 131072. -/
def identity (s : State) : State := { s with mem := writeBytes s.mem 131072 (leBytes (2 ^ 127 + 7 * 2 ^ 124 + (2 ^ 28 - 1) * 2 ^ 16) 16)
                                             tabs := { s.tabs with s2rt := [(0, 131072)], s2rn := [(0, 1)] } }
/-- Register line 4 is away: it stands in the rank's image, 5 in thread 0 and 6 in thread 31. -/
def lineAway : State :=
  let s := identity (onRank (fun k => { k with away := [4], fillLine := some 4 }) world)
  match group? s 0, ctx? s 0 with
  | some x, some c => { s with mem := writeBytes (writeBytes s.mem (lineGpa c x 0 4) [5]) (lineGpa c x 0 4 + 124) [6] }
  | _, _ => s
theorem witness_LinesFill : rankIs (fun k => k.fillLine == some 4 && k.st == .issuing && rising (k.v.map (·.1))) lineAway = true ∧ (lineAway.groups.all fun e => !e.2.frozen) = true ∧
    (match group? lineAway 0, ctx? lineAway 0 with
      | some x, some c => (runLacks lineAway c.part (lineGpa c x 0 4) 128 false).isEmpty && (gpaRead lineAway c.part (lineGpa c x 0 4) 128).isSome
      | _, _ => false) = true := by decide
theorem test_line_fill : after (.lineFill 0 0) lineAway (rankIs fun k => k.vreg 4 0 == 5 && k.vreg 4 31 == 6 && k.vreg 4 1 == 0 && k.away.isEmpty && k.fillLine.isNone) = true := by
  decide
def faulting (e : Option Entry) : State := withHandler (readyRank (onRank (fun k => { k with live := e.toList, imprecise := [{ cause := 0x18, tval := 77, pc := 8, entry := e }] }) world))
theorem witness_ImpreciseEntry : rankIs (fun k => k.st != .issuing && (openWord k).isNone && !k.allExited && !k.frameActive && k.threads.length == 32 &&
      (k.live.all fun y => y.stop.isNone) && (threadsOf ((5 : Mask) &&& ~~~k.exitedMask)).head? == some 0) (faulting (some (anEntry (.ld (loadOp .b32)) []))) = true ∧
    ctxIs (fun c => c.trapvec != 0) (faulting none) = true ∧ groupIs (fun x => !x.frozen) (faulting none) = true := by decide
theorem test_imprecise : after (.impreciseFaultTaken 0 0) (faulting (some (anEntry (.ld (loadOp .b32)) []))) (rankIs fun k =>
    k.tcause.toNat == 2 ^ 31 + 0x18 && k.tval == 77 && k.tpc.toNat == loadAddr && (k.thread 3).pc == 64 && k.frame.length == 1 && k.live.isEmpty) = true := by decide
theorem test_choice : after (.laneChoice 0 0) (readyRank world) (fun t => t.cur == some (.rank 0 0) && rankIs (fun k => k.st == .issuing && k.active == BitVec.allOnes 32) t) = true := by
  decide

/-! ### Engines, array and epilogue with their effects -/

/-- Command 5 alone, on a core whose scratchpad holds 7, 8 from 4096 on. -/
def working5 (c : Cmd) (s : State) : State := { onGroup (fun x => { x with scratch := writeBytes [] 4096 [7, 8] }) s with cmds := [(5, c)] }
/-- A copy of two bytes from the scratchpad to p. -/
def copyTo (p : Nat) : Cmd := { aCmd .copy (.copy 0) with block := q (2 ^ 63 + 4096) ++ q p ++ q 64 ++ q 64 ++ d4 2 ++ d4 1 ++ q 0 ++ d4 7 }
/-- Both stages map the first 2^40 bytes where they stand. -/
def mapped : State := onCtx (fun c => { c with s1rt := 131072, s1rn := 1 }) (identity world)
def noTags (s : State) : Bool := s.tags.isEmpty && s.mirrorq.isEmpty && !sliceFull s && numbersFree s 0 1 && numbersFree s 0 2
def workIs {α : Type} (j : State × Work α) (p : α → Bool) : Bool := match j.2 with
  | .ok a => p a
  | _ => false
theorem witness_CopiesMove : [(copyTo (2 ^ 63 + 8192), world), (copyTo 8192, mapped)].all (fun e => mayWork (working5 e.1 e.2) e.1 && e.1.window == [0] && (e.1.flight? 0).isNone &&
      noTags (working5 e.1 e.2) && workIs (engRead 5 e.1 (copyPiece e.1.block 0).1 2 false (working5 e.1 e.2)) (· == [7, 8]) && (copyPiece e.1.block 0).2.2 == 2 &&
      ptrOff (copyPiece e.1.block 0).2.1 % 32 == (copyPiece e.1.block 0).2.1.toNat % 32) = true ∧
    engAt (copyTo (2 ^ 63 + 8192)) (BitVec.ofNat 64 (2 ^ 63 + 8192)) 2 true (working5 (copyTo (2 ^ 63 + 8192)) world) = .loc 0 8192 ∧
    engAt (copyTo 8192) 8192 2 true (working5 (copyTo 8192) mapped) = .here 8192 ∧ resvHolds mapped 8192 = false ∧ (regionOf mapped 8192).isNone = true ∧
    engAt (copyTo 8192) 8192 2 false (working5 (copyTo 8192) mapped) = .here 8192 ∧ inCorePath mapped (copyTo 8192) 8192 = false ∧ homeLost mapped 8192 = false := by decide
-- COPY (R155): the two bytes go from the scratchpad to the scratchpad, or to control memory
theorem test_copy_moves : groupIs (fun x => readBytes x.scratch 8191 4 == [0, 7, 8, 0]) (engineWork 5 (working5 (copyTo (2 ^ 63 + 8192)) world)) = true ∧
    readBytes (engineWork 5 (working5 (copyTo 8192) mapped)).mem 8191 4 = [0, 7, 8, 0] := by decide
theorem witness_StartsInOrder : ((withCmd { aCmd .copy (.copy 0) with st := .waiting }).cmds.map (·.1)).Pairwise (· < ·) := by decide
/-- A table of rows of one binary32 element, in buffer 1; n positions, in one bag. -/
def bagBlock (mode n : Nat) : List Byte := q (2 ^ 62 + 2 ^ 38 + 64) ++ q 4 ++ d4 64 ++ d4 1 ++ q 0 ++ d4 n ++ d4 1 ++ q 0 ++ q (2 ^ 63) ++ d4 16 ++ d4 (mode + 13 * 2 ^ 5 + 13 * 2 ^ 10) ++ zeros 32
def bagCmd : Cmd := { aCmd .gather (.gather 0) with block := bagBlock 1 2, shard := [1, 2], inbox := [(0, [0])], fetched := [(2 ^ 62 + 2 ^ 38 + 128, [0, 0, 128, 63]), (2 ^ 62 + 2 ^ 38 + 192, [0, 0, 0, 64])] }
-- GATHER (R159): 1 and 2 give 3
theorem witness_GathersSum : bagRow (fun _ => 3) (bagBlock 1 2) [1, 2] [(1, [0x3F800000]), (2, [0x40000000])] = some [0x40400000] ∧
    bagCmd.prog < bagCmd.total ∧ bagCmd.window = [0] ∧ missingPieces bagCmd [0] = [] ∧ (bagOf bagCmd 0).map (fun i => bagCmd.indices.getD i 0) = [1, 2] ∧
    workIs (readRows 5 bagCmd [1, 2] [] (working5 bagCmd world)) (· == [(1, [0x3F800000]), (2, [0x40000000])]) = true ∧
    (bagRow (rowChannel world bagCmd) bagCmd.block [1, 2] [(1, [0x3F800000]), (2, [0x40000000])]).isSome = true := by decide
/-- Buffer 1 of partition 0: 4096 bytes of pseudo-channel 100, which context 0 may read, write and add to. -/
def buffered : State := { identity world with tabs := { (identity world).tabs with bufs := [(1, BitVec.ofNat 256 (63 * 2 ^ 250 + 100 * 2 ^ 179 + 2 ^ 169 + 4095 * 2 ^ 64))] } }
/-- SCADD's position 0 adds the gradient 1 to row 2. -/
def addCmd : Cmd := { aCmd .scadd (.gather 0) with block := bagBlock 0 1, shard := [2], inbox := [(0, [])], fetched := [(2 ^ 63, [0, 0, 128, 63])], flights := [{ u := 0, adv := 1, tag := 9, n := 1, held := 1, next := 0, left := [], bad := false, landed := 0 }] }
theorem witness_AddsLand : mayWork (working5 addCmd buffered) addCmd = true ∧ addCmd.addHere = none ∧ addCmd.window = [0] ∧ finalIndex addCmd.block (addCmd.indices.getD 0 0) = some 2 ∧ gradientRow addCmd 0 = some 0 ∧
    workIs (engRead 5 addCmd (ptrAdd (Gs.data addCmd.block) 0) 4 true (working5 addCmd buffered)) (· == [0, 0, 128, 63]) = true ∧
    (positionAdds addCmd 2 (gradient addCmd 0 [0, 0, 128, 63]))[0]? = some (BitVec.ofNat 64 (2 ^ 62 + 2 ^ 38 + 192), 4, [0, 0, 128, 63]) ∧
    addAt addCmd (BitVec.ofNat 64 (2 ^ 62 + 2 ^ 38 + 192)) 4 (working5 addCmd buffered) = .here (100 * 2 ^ 30 + 192) ∧ noTags (working5 addCmd buffered) = true ∧
    resvHolds buffered (100 * 2 ^ 30 + 192) = false ∧ (regionOf buffered (100 * 2 ^ 30 + 192)).isNone = true := by decide
-- REDUCER_ADD (R160): the row's element becomes 1
theorem test_add_lands : after (.reducerAdd 5) (working5 addCmd buffered) (fun t => readBytes t.mem (100 * 2 ^ 30 + 191) 6 == [0, 0, 0, 128, 63, 0]) = true := by decide
-- SORT (R161): ascending, equal keys in their order
theorem test_stable : stableOrder (fun i => [5, 3, 5, 1].getD i 0) 4 = [3, 1, 0, 2] := by decide
theorem witness_ExchangesKeep : ([4, 7] : List Nat).Nodup ∧ ([7, 4] : List Nat)[0]? = ([4, 7] : List Nat)[1]? ∧ pick [4, 7] [40, 70] [7, 4] = [70, 40] ∧
    assemble [([4], [40]), ([7], [70])] [4, 7] = [40, 70] := by decide
theorem test_page_pauses : after (.engineAccessFault 5) (withCmd (copies 4096)) (fun t => (sget 5 t.cmds).any (fun c => c.st == .paused) &&
    rankIs (fun k => k.imprecise.any (fun f => f.cause == 0x13 && f.tval == 4096) && k.live.any fun e => e.id == 5 && e.state == .faulted) t) = true := by decide
theorem test_stop_status : after (.engineAccessFault 5) (withCmd (copies (2 ^ 62))) (fun t => (sget 5 t.cmds).any fun c => c.status != 0 && c.prog == 0) = true ∧
    groupIs (fun x => (x.ranks[0]?).any fun k => k.st != .retired) world = true := by decide
/-- A finished copy whose record goes to the scratchpad at 64. -/
def recorded : Cmd := { aCmd .copy (.copy 0) with status := 8, block := q 0 ++ q 0 ++ q 64 ++ q 64 ++ d4 2 ++ d4 1 ++ q (2 ^ 63 + 64) ++ d4 7 }
/-- The same with its record on the way. -/
def recording : Cmd := { recorded with flights := [{ u := recUnit, adv := 0, tag := 9, n := 2, held := 2, next := 2, left := [], bad := false, landed := 0 }] }
theorem witness_CommandsComplete : [recorded, recording].all (fun c => workDone c && crecOf c == localPtr 0 64 && !c.recDone) = true ∧ noTags (withCmd recorded) = true ∧
    (match tryRecord 5 recording (withCmd recording) with | (_, .wait) => true | _ => false) = true ∧ (match tryRecord 5 recorded (withCmd recorded) with | (s1, .ok _) => rising (s1.cmds.map (·.1)) | _ => false) = true ∧
    ctxIs (fun y => decide (cmdTl .copy < y.tls.length)) world = true := by decide
-- COMMAND_COMPLETE (R150, R151): the record stands at CREC with its status, the timeline goes on with ERR
theorem test_complete : after (.commandComplete 5) (withCmd recorded) (fun t => groupIs (fun x => readBytes x.scratch (64 + 16) 2 == [8, 0]) t && t.cmds.isEmpty &&
    (timeline t 0 0).value == 1 && (timeline t 0 0).err) = true := by decide
theorem witness_KblocksAdd : [({ mmaRec 1 with phys := [3] } : SeqRec)].all (fun r => (recInstr r == some (.mma mma)) && mma.shape == .t1x1 && groupIs (fun x => !x.frozen && !earlierMma x 0 &&
      arrayNext (withRec r) x.core == some (lowestSlab x) && rising (x.seq.recs.map (·.id))) (withRec r) && decide (r.prog + 1 < r.kb0 + mma.kbn.toNat)) = true ∧
    ((sget (0 * 8 + 3) (slabbed world).slabs).isSome = true) ∧ fmtTy 4 ≠ .f32 ∧ fmtTy 4 ≠ .f64 := by decide
theorem witness_RowsStore : Ep.target mepiRec.desc < 2 ∧ mepiRec.skip.contains mepiRec.prog = false ∧ rowRuns .t1x1 mepiRec 0 = [(BitVec.ofNat 64 (2 ^ 63 + 65536), 512)] ∧
    ptrSpace (BitVec.ofNat 64 (2 ^ 63 + 65536)) = .loc ∧ mepiRec.prog + 1 < mepiRec.rows ∧ mepiRec.left = [] ∧ mepiRec.bad = [] := by decide

/-- A layout of 64 empty records. -/
theorem emptyRecords : (List.range 64).map (fun p => PartRec.ofBytes (((zeros 16384).drop (256 * p)).take 256)) = List.replicate 64 PartRec.zero := by
  rw [List.eq_replicate_iff]
  refine ⟨by simp, fun b h => ?_⟩
  obtain ⟨p, hp, rfl⟩ := List.mem_map.1 h
  have h1 : ((zeros 16384).drop (256 * p)).take 256 = zeros 256 := by
    have : p < 64 := List.mem_range.1 hp
    simp only [zeros, List.drop_replicate, List.take_replicate]
    congr 1
    omega
  rw [h1]
  decide
theorem emptyLayout : layoutBad (List.replicate 64 PartRec.zero) 0 {} = none ∧
    (((List.replicate 64 PartRec.zero).zipIdx.map fun r => (r.2, PartRec.sealed r.1)).filter fun r => r.2 != PartRec.sealed PartRec.zero) = [] := by
  refine ⟨by decide, ?_⟩
  rw [List.filter_eq_nil_iff]
  intro r h
  obtain ⟨x, hx, rfl⟩ := List.mem_map.1 h
  have h1 : x.1 = PartRec.zero := List.eq_of_mem_replicate (List.fst_mem_of_mem_zipIdx hx)
  rw [h1]
  simp
theorem witness_RowsAndLayouts_prepare : (hcmd 1 (zeros 16384)).len.toNat = 16384 ∧ (hcmd 1 (zeros 16384)).body.length = 16384 ∧
    layoutBad ((List.range 64).map fun p => PartRec.ofBytes (((hcmd 1 (zeros 16384)).body.drop (256 * p)).take 256)) 0 {} = none := by
  refine ⟨by simp [hcmd, zeros], by simp [hcmd, zeros], ?_⟩
  show layoutBad ((List.range 64).map fun p => PartRec.ofBytes (((zeros 16384).drop (256 * p)).take 256)) 0 {} = none
  rw [emptyRecords]
  exact emptyLayout.1

/-! ### Witnesses of clauses about exits, entries, checks and energy -/

theorem witness_ExitEnds_path : meets (.exit c0) (alone (at' (.exit c0)))
    (fun u => !(u.k.thread 5).exited && !(u.k.thread 5).parked && !u.ex.getLsbD 5 && decide (u.k.threads.length = 32) && u.ex.getLsbD 0) = true := by decide
theorem witness_TrapEntry_page : (stage2Addr (identity world) 0 8192 .wr).opt = some 8192 ∧ 8192 % 4096 + 64 ≤ 4096 ∧
    (stage2Addr world 0 8192 .wr).opt = none := by decide
theorem witness_TrapEntry_unmapped : ∀ gpa, (stage2Addr (withHandler (at' (.nop c0))) 0 gpa .wr).opt = none := by
  intro gpa
  have h : stage2Map (withHandler (at' (.nop c0))) 0 = fun _ => .absent := by
    funext g; rfl
  simp [stage2Addr, stage2, h, Look.opt]
/-- A queue of 16 places whose tail is 3 and whose head is 0 stands at 4096. -/
def queueAt : State := { world with mem := writeBytes world.mem 4096 (d4 4 ++ d4 0 ++ q 3 ++ q 0 ++ q 0) }
theorem witness_TrapFreezes_queue : field (readBytes queueAt.mem 4096 32) 0 4 = 4 ∧ field (readBytes queueAt.mem 4096 32) 8 8 = 3 ∧
    regionOf queueAt 4096 = none ∧ regionOf queueAt 4352 = none ∧ rowFailed queueAt 4096 = false ∧ layerOff queueAt 4096 = false ∧
    layerOff queueAt 4352 = false := by decide
theorem test_postTo : ((postTo (fun o => .found (4096 + o)) (zeros 63 ++ [9]) queueAt).2 == some true &&
    byteAt (postTo (fun o => .found (4096 + o)) (zeros 63 ++ [9]) queueAt).1.mem (4096 + 64 + 64 * 3 + 63) == 9 &&
    byteAt (postTo (fun o => .found (4096 + o)) (zeros 63 ++ [9]) queueAt).1.mem 4104 == 4) = true := by decide
theorem witness_ChecksBeforeIssue_engine : [Instr.copy { eng with b := .b 96, bar := true }, .copyPl 3 { eng with b := .b 96, bar := true },
      .barCfg c0 (.b 96) (.w 1) 0, .barWait c0 3 (.b 96) (.w 1) 0, .barSync c0 3 (.b 96) 0, .barAdd c0 3 (.b 96) (.w 1) 0,
      .barTest c0 3 (.w 1) (.b 96) (.w 2) 0, .acfgRel c0 (.a 1)].all (fun i =>
    pathHas (at' i) fun u => (notHeld u.x i).isSome) = true := by decide
/-- Core 0 holds one rank of context 0, of static weight 4, and two of context 1, of static weight 10. -/
def shared : State := match group? world 0, ctx? world 0 with
  | some x, some c => { world with
      groups := sset 1 { x with ctx := 1, ranks := x.ranks ++ x.ranks } world.groups
      ctxs := sset 1 { c with weights := [(0, List.replicate 64 0 ++ [7, 3])] } (sset 0 { c with weights := [(0, List.replicate 64 0 ++ [4])] } world.ctxs) }
  | _, _ => world
theorem witness_ClockAndHeat_shares : slotsHeld shared 0 = [(0, 1), (1, 2)] ∧ slotsHeld world 0 = [(0, 1)] ∧
    slotsHeld { world with groups := [] } 0 = [] ∧ ctxIs (fun c => !c.sat && decide (c.energy = 0)) shared = true ∧
    ((ctx? shared 1).any fun c => !c.sat && decide (c.energy = 0)) = true := by decide
theorem test_chargeStatic_shares : (ctx? (chargeStatic 1 0 shared) 0).map (·.energy) = some 1 ∧
    (ctx? (chargeStatic 1 0 shared) 1).map (·.energy) = some 7 := by decide
theorem witness_ContextEvents_named : ctx? world 77 = none ∧ (ctx? world 0).isSome = true ∧ (0 : Nat) < 4096 ∧
    (ctx? world 0).map (fun c => stateWord { c with step := 1 }) = some 256 := by decide

theorem witness_StepRunsDecoded_seq : streams (at' .mstop) (fun x => x.seq.st == .running && !x.quiesced) = true ∧ (at' .mstop).agenda = [] ∧
    (at' .mstop).cur = some (.seq 0) := by decide
theorem witness_ReturnFromTrap_quiet : ((inFrame (at' (.rtt c0))).groups.all fun e => e.2.ranks.all fun k => !k.live.any tileWait) = true := by decide
theorem witness_StreamWords_tags : streams (onGroup (fun x => { x with scratch := writeBytes [] 256 epilogue }) (slabbed (at' (.mepi .t1x1 (.a 0) 256)))) (fun x =>
    mepiBad 0 x .t1x1 0 256 == none && !slotsBusy x [0] && x.seq.recs.isEmpty &&
    numbersFree (slabbed (at' (.mepi .t1x1 (.a 0) 256))) x.ctx (128 * shapeRows .t1x1 * Ep.tags (readBytes x.scratch 256 32))) = true := by decide

end Sys2Proof.Tests
end

section
/-! SUPPORT. System registers (R178, R179) and extension words (R10, R36, R37): what SRD and SWR do in terms of the register table, and
the emulation trap of an extension word. -/

open Sys2Proof Sys2Proof.Machine

namespace Sys2Proof.Laws

/-! ### Destinations of a word that nobody executes -/

theorem same_symm {g r : Nat} {s t : State} (h : SameOutside g r s t) : SameOutside g r t s :=
  ⟨h.rest.symm, h.ctxs.symm, fun g' => (h.groups g').symm, fun g' r' hne => (h.ranks g' r' hne).symm⟩

theorem writeAll_nobody (ty : Ty) (d : Opnd) (f : Nat → Nat) (k : Rank) : writeAll 0 ty d f k = k := by
  have hnone : threadsOf 0 = [] := by decide
  unfold writeAll
  rw [hnone]
  split <;> rfl

/-- The end of a pass that nobody executed is also its end after a write to a destination: no thread takes part in the write. -/
theorem after_setD_nobody {go : Nat → Thread → Thread} {u : Iss} {s t : State} {ty : Ty} {d : Opnd} {f : Nat → Nat} (hex : u.ex = 0)
    (h : AfterPath go u s t) : AfterPath go u (setD u ty d f s) t := by
  obtain ⟨k, k', hk, hk', hply, hrows⟩ := h.rank
  refine ⟨⟨k, k', ?_, hk', hply, hrows⟩, same_trans (same_symm (same_modRank ..)) h.rest⟩
  rw [setD_rank s u ty d f k hk, hex, writeAll_nobody]

/-! ### System words -/

theorem sysWord_nobody {i : Instr} {c : Ctl} {effect : IWord → Iss → State → State} {s : State} {u : Iss} (hi : issuing s c = some u)
    (hh : hurdle s u i = none) (hex : u.ex = 0) : sysWord i c effect s = .next (keep s (finish c (encode i) u s)) := by
  rw [sysWord, asRank_next hi hh, if_pos hex]

theorem sysWord_acts {i : Instr} {c : Ctl} {effect : IWord → Iss → State → State} {s : State} {u : Iss} (hi : issuing s c = some u)
    (hh : hurdle s u i = none) (hex : u.ex ≠ 0) : sysWord i c effect s = .next (keep s (effect (encode i) u s)) := by
  rw [sysWord, asRank_next hi hh, if_neg hex]

theorem exec_srd (c : Ctl) (d : Opnd) (num : BitVec 12) (idx : BitVec 3) (s : State) : exec (.srd c d num idx) s = execSrd c d num idx s := rfl

theorem exec_swr (c : Ctl) (a : Opnd) (num : BitVec 12) (idx : BitVec 3) (s : State) : exec (.swr c a num idx) s = execSwr c a num idx s := rfl

/-- R178, R179: SRD of a listed register at a level that may read it gives the register's value, whatever the register. -/
theorem srd_completes {c : Ctl} {d : Opnd} {num : BitVec 12} {idx : BitVec 3} {rd wr : SysLevel} {indexed : Bool}
    (hacc : sysAccess num.toNat = some (rd, wr, indexed)) (hidx : indexed = true ∨ idx = 0) :
    Completes (.srd c d num idx) c (fun _ u => u.reaches rd = true) fun s u =>
      setD u .b64 d (fun _ => sysRead s u num.toNat idx.toNat) s := by
  intro s u hi hh hlevel
  obtain ⟨-, -, hk, -⟩ := issuing_spec hi
  have hlisted : (!indexed && idx != 0) = false := by rcases hidx with h | h <;> simp [h]
  by_cases hex : u.ex = 0
  · refine ⟨_, (exec_srd ..).trans (sysWord_nobody hi hh hex), ?_⟩
    exact after_setD_nobody hex (after_keep rfl rfl (finish_after hi hk rfl))
  · refine ⟨_, (exec_srd ..).trans (sysWord_acts hi hh hex), ?_⟩
    simp only [hacc, hlisted, hlevel, Bool.false_eq_true, if_false, Bool.not_true]
    exact after_keep rfl rfl (finish_after hi (setD_rank s u .b64 d _ u.k hk) (writeAll_frame ..).1)

/-- R179: SWR of a register that nothing may write is an illegal instruction, and its trap is the word's whole effect. -/
theorem swr_readOnly_traps {c : Ctl} {a : Opnd} {num : BitVec 12} {idx : BitVec 3} {rd : SysLevel} {indexed : Bool} {s : State} {u : Iss}
    (hacc : sysAccess num.toNat = some (rd, .never, indexed)) (hi : issuing s c = some u) (hh : hurdle s u (.swr c a num idx) = none)
    (hex : u.ex ≠ 0) :
    exec (.swr c a num idx) s = .next (keep s (trapAt u (encode (.swr c a num idx)) 0x01 0 s)) := by
  rw [exec_swr, execSwr, sysWord_acts hi hh hex]
  simp only [hacc, beq_self_eq_true, Bool.or_true, if_true]

/-! ### FEAT0 to FEAT3 -/

theorem sysAccess_feat {num : BitVec 12} (h : num ∈ [(0x0F0 : BitVec 12), 0x0F1, 0x0F2, 0x0F3]) :
    sysAccess num.toNat = some (.any, .never, false) := by
  simp only [List.mem_cons, List.not_mem_nil, or_false] at h
  rcases h with rfl | rfl | rfl | rfl <;> rfl

/-- R10: every feature bit is clear. -/
theorem sysRead_feat {num : BitVec 12} (h : num ∈ [(0x0F0 : BitVec 12), 0x0F1, 0x0F2, 0x0F3]) (s : State) (u : Iss) (idx : Nat) :
    sysRead s u num.toNat idx = 0 := by
  simp only [List.mem_cons, List.not_mem_nil, or_false] at h
  rcases h with rfl | rfl | rfl | rfl <;> rfl

theorem srd_feat_gives_zero {num : BitVec 12} (h : num ∈ [(0x0F0 : BitVec 12), 0x0F1, 0x0F2, 0x0F3]) (c : Ctl) (d : Opnd) :
    Gives (.srd c d num 0) c .b64 d fun _ _ _ => 0 := by
  intro s u hi hh _
  have hread := srd_completes (c := c) (d := d) (sysAccess_feat h) (.inr rfl) s u hi hh rfl
  simpa only [sysRead_feat h] using hread

/-! ### Extension words -/

theorem group_modRank_some {s : State} {g r : Nat} {x : Group} {f : Rank → Rank} (h : group? s g = some x) :
    group? (modRank g r f s) g = some { x with ranks := modAt x.ranks r f } := by
  rw [group_modRank, if_pos rfl, h, Option.map_some]

theorem rank_modRank_some {s : State} {g r : Nat} {k : Rank} {f : Rank → Rank} (h : rank? s g r = some k) :
    rank? (modRank g r f s) g r = some (f k) := by
  rw [rank_modRank_same, h, Option.map_some]

theorem isExtOpcode_of_range {opc : BitVec 8} (hlo : 0xF0 ≤ opc.toNat) (hhi : opc.toNat ≤ 0xFE) : isExtOpcode opc = true := by
  have hhigh : opc.extractLsb' 4 4 = 0xF := by
    apply BitVec.eq_of_toNat_eq
    rw [BitVec.extractLsb'_toNat, Nat.shiftRight_eq_div_pow, show (0xF : BitVec 4).toNat = 15 from rfl]
    omega
  have hlast : opc ≠ 0xFF := by
    rintro rfl
    exact absurd hhi (by decide)
  rw [isExtOpcode, hhigh, beq_self_eq_true, Bool.true_and, bne_iff_ne]
  exact hlast

/-- R36 check 2, R10: whoever fetches it, a word of the extension space is an extension word. -/
theorem decodeWord_extension {w : IWord} (hlo : 0xF0 ≤ (w.extractLsb' 88 8).toNat) (hhi : (w.extractLsb' 88 8).toNat ≤ 0xFE) (who : Fetcher) :
    decodeWord who w = .ok (.extensionOpcode w) := by
  have hext : isExtOpcode (Fields.ofWord w).opc = true := isExtOpcode_of_range hlo hhi
  have hassigned : ¬((Fields.ofWord w).opc = 0x00 ∨ (Fields.ofWord w).opc = 0xFF) := by
    rintro (h | h) <;> rw [h] at hext <;> exact absurd hext (by decide)
  rw [decodeWord, decodeFields, if_neg hassigned, if_pos hext, toWord_ofWord]

/-- A path that issues an extension word takes the emulation trap, the word kept for its frame. -/
theorem exec_extensionOpcode {w : IWord} {s : State} {u : Iss} (hi : issuing s (Fields.ofWord w).ctl = some u)
    (hh : hurdle s u (.extensionOpcode w) = none) :
    exec (.extensionOpcode w) s = .next (keep s (takeTrap u.g u.r false 0x02 u.pc 0 (some (emulationEntry s.clk u w s.fresh))
      (modRank u.g u.r (fun k => { k with frameWord := w }) { s with fresh := s.fresh + 1 }))) := by
  show execExtensionOpcode w s = _
  simp only [execExtensionOpcode, (issuing_spec hi).1, hi, hh]

/-- The trap registers of a rank that has taken a trap with a handler (R341, R342). -/
theorem takeTrap_trapRegs {s : State} {g r : Nat} {x : Group} {c : Ctx} {k : Rank} {impr : Bool} {cause : BitVec 16} {tpc tval : Long}
    {fault : Option Entry} (hx : group? s g = some x) (hc : ctx? s x.ctx = some c) (hk : rank? s g r = some k) (h14 : cause ≠ 0x14)
    (hf : k.frameActive = false) (hv : c.trapvec ≠ 0) :
    ∃ k', rank? (takeTrap g r impr cause tpc tval fault s) g r = some k' ∧
      k'.tcause = tcauseWord impr (causeDone cause) cause ∧ k'.tpc = tpc ∧ k'.tval = tval := by
  obtain ⟨⟨k1, hdr, k', -, -, hk', hcounted⟩, -⟩ := takeTrap_enters (impr := impr) (tpc := tpc) (tval := tval) (fault := fault) hx hc hk h14 hf hv
  exact ⟨k', hk', congrArg Rank.tcause hcounted, congrArg Rank.tpc hcounted, congrArg Rank.tval hcounted⟩

/-- R37: the emulation trap of an extension word, cause 0x02 with DONE set, TPC at the word. -/
theorem extensionOpcode_emulates {w : IWord} {s : State} {u : Iss} (hi : issuing s (Fields.ofWord w).ctl = some u) (hv : u.c.trapvec ≠ 0)
    (hf : u.k.frameActive = false) (hh : hurdle s u (.extensionOpcode w) = none) :
    ∃ t k', exec (.extensionOpcode w) s = .next t ∧ rank? t u.g u.r = some k' ∧ k'.tcause = tcauseWord false true 0x02 ∧ k'.tpc = u.pc := by
  obtain ⟨-, hx, hk, hc, -⟩ := issuing_spec hi
  obtain ⟨k', hk', hcause, hpc, -⟩ := takeTrap_trapRegs (impr := false) (cause := 0x02) (tpc := u.pc) (tval := 0)
    (fault := some (emulationEntry s.clk u w s.fresh))
    (s := modRank u.g u.r (fun k => { k with frameWord := w }) { s with fresh := s.fresh + 1 })
    (group_modRank_some hx) hc (rank_modRank_some hk) (by decide) hf hv
  exact ⟨_, k', exec_extensionOpcode hi hh, hk', hcause, hpc⟩

/-! ### The statement -/

/-- Settles O41: the register table gives FEAT0 to FEAT3 to every reader and to no writer, and an extension word traps. -/
theorem featureRegisters : Obligations.FeatureRegisters := by
  refine ⟨fun c d num hnum => ⟨srd_feat_gives_zero hnum c d, fun a s u hi hh hex => ?_⟩, fun w hlo hhi vb s u hi hv hf hh => ?_⟩
  · exact swr_readOnly_traps (sysAccess_feat hnum) hi hh hex
  · exact ⟨decodeWord_extension hlo hhi (.rank vb), extensionOpcode_emulates hi hv hf hh⟩

end Sys2Proof.Laws
end

section
/-! SUPPORT. Integer division (R76): the numbers a type of width n holds, their bit patterns and back, and what IDIV's quotient and
remainder are. -/

open Sys2Proof Sys2Proof.Machine

namespace Sys2Proof.Laws

/-! ### The numbers of width n -/

/-- A number that a type of width n holds: between the model's two ends (R75). -/
def InRange (sgn : Bool) (n : Nat) (z : Int) : Prop := intLo sgn n ≤ z ∧ z ≤ intHi sgn n

theorem inRange_unsigned {n : Nat} {z : Int} : InRange false n z ↔ 0 ≤ z ∧ z < (2 ^ n : Nat) := by
  simp [InRange, intLo, intHi]

theorem inRange_signed {n : Nat} {z : Int} : InRange true n z ↔ -((2 ^ (n - 1) : Nat) : Int) ≤ z ∧ z < (2 ^ (n - 1) : Nat) := by
  simp [InRange, intLo, intHi]

theorem two_pow_eq_double {n : Nat} (hn : 0 < n) : 2 ^ n = 2 * 2 ^ (n - 1) := (mul_pow_sub_one hn.ne' 2).symm

/-- A number no further from zero than one the type holds, and on the same side, is held too. -/
theorem inRange_of_between {sgn : Bool} {n : Nat} {a z : Int} (ha : InRange sgn n a) (h : 0 ≤ z ∧ z ≤ a ∨ a ≤ z ∧ z ≤ 0) :
    InRange sgn n z := by
  have hhalf : 0 < 2 ^ (n - 1) := Nat.two_pow_pos _
  have hfull : 0 < 2 ^ n := Nat.two_pow_pos _
  cases sgn with
  | false => rw [inRange_unsigned] at *; omega
  | true => rw [inRange_signed] at *; omega

/-! ### Encoding and reading back -/

theorem intBits_lt (n : Nat) (z : Int) : intBits n z < 2 ^ n := by
  have hpos : (0 : Int) < (2 ^ n : Nat) := by exact_mod_cast Nat.two_pow_pos n
  have hnonneg := Int.emod_nonneg z hpos.ne'
  have hlt := Int.emod_lt_of_pos z hpos
  unfold intBits
  omega

theorem cast_intBits (n : Nat) (z : Int) : (intBits n z : Int) = z % (2 ^ n : Nat) :=
  Int.toNat_of_nonneg (Int.emod_nonneg z (by exact_mod_cast (Nat.two_pow_pos n).ne'))

/-- The model's reading in two's complement is the library's balanced remainder. -/
theorem signed_eq_bmod {n : Nat} (hn : 0 < n) (a : Nat) : signed a n = (a : Int).bmod (2 ^ n) := by
  have hdouble := two_pow_eq_double hn
  rw [signed, Int.bmod_def, ← Int.natCast_emod]
  generalize a % 2 ^ n = r
  split <;> split <;> omega

theorem intOf_true_intBits {n : Nat} (hn : 0 < n) (z : Int) : intOf true n (intBits n z) = z.bmod (2 ^ n) := by
  rw [intOf, if_pos rfl, signed_eq_bmod hn, cast_intBits, Int.emod_bmod]

theorem intOf_false_intBits (n : Nat) (z : Int) : intOf false n (intBits n z) = z % (2 ^ n : Nat) := by
  rw [intOf, if_neg Bool.false_ne_true, Nat.mod_eq_of_lt (intBits_lt n z), cast_intBits]

/-- A number the type holds is read back as it was written. -/
theorem intOf_intBits {sgn : Bool} {n : Nat} {z : Int} (hn : 0 < n) (hz : InRange sgn n z) : intOf sgn n (intBits n z) = z := by
  cases sgn with
  | false =>
    obtain ⟨hlo, hhi⟩ := inRange_unsigned.mp hz
    rw [intOf_false_intBits, Int.emod_eq_of_lt hlo hhi]
  | true =>
    have hdouble := two_pow_eq_double hn
    obtain ⟨hlo, hhi⟩ := inRange_signed.mp hz
    rw [intOf_true_intBits hn, Int.bmod_eq_of_le_mul_two] <;> omega

theorem inRange_intOf {n : Nat} (hn : 0 < n) (sgn : Bool) (a : Nat) : InRange sgn n (intOf sgn n a) := by
  have hpos := Nat.two_pow_pos n
  cases sgn with
  | false =>
    have hlt := Nat.mod_lt a hpos
    rw [inRange_unsigned, intOf, if_neg Bool.false_ne_true]
    omega
  | true =>
    have hdouble := two_pow_eq_double hn
    have hlo := Int.le_bmod (x := a) hpos
    have hhi := Int.bmod_lt (x := a) hpos
    rw [inRange_signed, intOf, if_pos rfl, signed_eq_bmod hn]
    omega

/-- A pattern of n bits is the encoding of the number it is read as. -/
theorem intBits_intOf {n a : Nat} (hn : 0 < n) (sgn : Bool) (ha : a < 2 ^ n) : intBits n (intOf sgn n a) = a := by
  have hcongr : intOf sgn n a % (2 ^ n : Nat) = (a : Int) % (2 ^ n : Nat) := by
    cases sgn with
    | false => rw [intOf, if_neg Bool.false_ne_true, Nat.mod_eq_of_lt ha]
    | true => rw [intOf, if_pos rfl, signed_eq_bmod hn, Int.bmod_emod]
  rw [intBits, hcongr, ← Int.natCast_emod, Int.toNat_natCast, Nat.mod_eq_of_lt ha]

theorem intBits_neg_one (n : Nat) : intBits n (-1) = 2 ^ n - 1 := by
  have hpos := Nat.two_pow_pos n
  have hwrap : (-1 : Int) % (2 ^ n : Nat) = (2 ^ n : Nat) - 1 := by
    rw [← Int.add_emod_right, Int.emod_eq_of_lt] <;> omega
  rw [intBits, hwrap]
  omega

/-- The number one above the upper end of a signed type has the encoding of the lower end. -/
theorem intBits_half {n : Nat} (hn : 0 < n) : intBits n (2 ^ (n - 1) : Nat) = intBits n (-((2 ^ (n - 1) : Nat) : Int)) := by
  have hdouble := two_pow_eq_double hn
  have hshift : ((2 ^ (n - 1) : Nat) : Int) = -((2 ^ (n - 1) : Nat) : Int) + (2 ^ n : Nat) := by omega
  rw [intBits, intBits, hshift, Int.add_emod_right, ← hshift]

/-! ### Truncated division inside the numbers of width n -/

theorem tmod_nonpos {a : Int} (b : Int) (ha : a ≤ 0) : a.tmod b ≤ 0 := by
  have hneg := Int.tmod_nonneg b (Int.neg_nonneg_of_nonpos ha)
  rw [Int.neg_tmod] at hneg
  omega

theorem tdiv_nonpos {a b : Int} (ha : a ≤ 0) (hb : 0 ≤ b) : a.tdiv b ≤ 0 := by
  have hneg := Int.tdiv_nonneg (Int.neg_nonneg_of_nonpos ha) hb
  rw [Int.neg_tdiv] at hneg
  omega

/-- R76: the remainder takes the sign of the dividend. -/
theorem tmod_mul_dividend_nonneg (a b : Int) : 0 ≤ a.tmod b * a := by
  rcases Int.le_total 0 a with ha | ha
  · exact Int.mul_nonneg (Int.tmod_nonneg b ha) ha
  · exact Int.mul_nonneg_of_nonpos_of_nonpos (tmod_nonpos b ha) ha

theorem inRange_tmod {sgn : Bool} {n : Nat} {a : Int} (ha : InRange sgn n a) (b : Int) : InRange sgn n (a.tmod b) := by
  have habs : (a.tmod b).natAbs ≤ a.natAbs := by rw [Int.natAbs_tmod]; exact Nat.mod_le ..
  refine inRange_of_between ha ?_
  rcases Int.le_total 0 a with h | h
  · have hnonneg := Int.tmod_nonneg b h
    omega
  · have hnonpos := tmod_nonpos b h
    omega

/-- A divisor other than 0, 1 and −1 at least halves the dividend. -/
theorem two_mul_natAbs_tdiv_le {a b : Int} (hb : 2 ≤ b.natAbs) : 2 * (a.tdiv b).natAbs ≤ a.natAbs := by
  have hhalf : a.natAbs / b.natAbs ≤ a.natAbs / 2 := Nat.div_le_div_left hb (by decide)
  have habs : (a.tdiv b).natAbs = a.natAbs / b.natAbs := Int.natAbs_tdiv a b
  omega

/-- The quotient leaves the type only when the least number is divided by −1. -/
theorem inRange_tdiv {sgn : Bool} {n : Nat} {a b : Int} (ha : InRange sgn n a) (hb : InRange sgn n b)
    (hover : ¬(sgn = true ∧ a = -((2 ^ (n - 1) : Nat) : Int) ∧ b = -1)) : InRange sgn n (a.tdiv b) := by
  have habs := Int.natAbs_tdiv_le_natAbs a b
  rcases lt_or_ge b 0 with hneg | hpos
  · cases sgn with
    | false => rw [inRange_unsigned] at hb; omega
    | true =>
      rw [inRange_signed] at ha ⊢
      by_cases hone : b = -1
      · have hne : a ≠ -((2 ^ (n - 1) : Nat) : Int) := fun h => hover ⟨rfl, h, hone⟩
        rw [hone, Int.tdiv_neg, Int.tdiv_one]
        omega
      · have hhalf := two_mul_natAbs_tdiv_le (a := a) (b := b) (by omega)
        have hleast := Nat.two_pow_pos (n - 1)
        omega
  · refine inRange_of_between ha ?_
    rcases Int.le_total 0 a with h | h
    · exact .inl ⟨Int.tdiv_nonneg h hpos, Int.tdiv_le_self b h⟩
    · have hnonpos := tdiv_nonpos h hpos
      omega

/-! ### IDIV -/

theorem divide_lt (rem sgn : Bool) (n : Nat) (a b : Int) : divide rem sgn n a b < 2 ^ n := by
  unfold divide
  split <;> split <;> exact intBits_lt ..

@[simp] theorem divide_rem_zero (sgn : Bool) (n : Nat) (a : Int) : divide true sgn n a 0 = intBits n a := rfl

@[simp] theorem divide_quo_zero (sgn : Bool) (n : Nat) (a : Int) : divide false sgn n a 0 = intBits n (-1) := rfl

theorem divide_rem_of_ne {b : Int} (hb : b ≠ 0) (sgn : Bool) (n : Nat) (a : Int) : divide true sgn n a b = intBits n (a.tmod b) := by
  rw [divide, if_neg hb, if_pos rfl]

theorem divide_quo_of_ne {b : Int} (hb : b ≠ 0) (sgn : Bool) (n : Nat) (a : Int) : divide false sgn n a b = intBits n (a.tdiv b) := by
  rw [divide, if_neg hb, if_neg Bool.false_ne_true]

theorem exec_idiv (rem : Bool) (x : Alu2) (s : State) : exec (.idiv rem x) s = execIdiv rem x s := rfl

theorem idiv_gives (rem : Bool) (x : Alu2) : Gives (.idiv rem x) x.c x.ty x.d fun clk u t =>
    divide rem (Ty.isSigned x.ty) (Ty.bits x.ty) (intOf (Ty.isSigned x.ty) (Ty.bits x.ty) (readOpnd clk u x.ty x.imm x.a t))
      (intOf (Ty.isSigned x.ty) (Ty.bits x.ty) (readOpnd clk u x.ty x.imm x.b t)) :=
  gives_of (exec_idiv rem x)

/-- R76, first two rows: the quotient by zero is −1 in a signed type of two bits or more, and all ones in an unsigned one. -/
theorem quotient_by_zero {n : Nat} (hn : 1 < n) (sgn : Bool) (a : Int) :
    if sgn then intOf sgn n (divide false sgn n a 0) = -1 else divide false sgn n a 0 = 2 ^ n - 1 := by
  rw [divide_quo_zero]
  cases sgn with
  | false => exact intBits_neg_one n
  | true =>
    have hhalf := Nat.two_pow_pos (n - 1)
    exact intOf_intBits (by omega) (inRange_signed.mpr (by omega))

/-- R76, last row: the least number divided by −1 is itself again, without remainder. -/
theorem least_by_neg_one {n : Nat} (hn : 0 < n) :
    intOf true n (divide false true n (-((2 ^ (n - 1) : Nat) : Int)) (-1)) = -((2 ^ (n - 1) : Nat) : Int) ∧
      divide true true n (-((2 ^ (n - 1) : Nat) : Int)) (-1) = 0 := by
  have hhalf := Nat.two_pow_pos (n - 1)
  rw [divide_quo_of_ne (by decide), divide_rem_of_ne (by decide), Int.tdiv_neg, Int.tdiv_one, Int.neg_neg, intBits_half hn,
    Int.tmod_neg, Int.tmod_one]
  exact ⟨intOf_intBits hn (inRange_signed.mpr (by omega)), Int.toNat_eq_zero.mpr (by rw [Int.zero_emod])⟩

/-- R76: elsewhere quotient and remainder are those of division with truncation toward zero. -/
theorem divide_truncates {sgn : Bool} {n : Nat} {a b : Int} (hn : 0 < n) (ha : InRange sgn n a) (hb : InRange sgn n b) (hzero : b ≠ 0)
    (hover : ¬(sgn = true ∧ a = -((2 ^ (n - 1) : Nat) : Int) ∧ b = -1)) :
    intOf sgn n (divide false sgn n a b) = a.tdiv b ∧ intOf sgn n (divide true sgn n a b) = a.tmod b := by
  rw [divide_quo_of_ne hzero, divide_rem_of_ne hzero]
  exact ⟨intOf_intBits hn (inRange_tdiv ha hb hover), intOf_intBits hn (inRange_tmod ha b)⟩

theorem natAbs_tmod_lt (a : Int) {b : Int} (hb : b ≠ 0) : (a.tmod b).natAbs < b.natAbs := by
  rw [Int.natAbs_tmod]
  exact Nat.mod_lt _ (Int.natAbs_pos.mpr hb)

/-- Settles O11: every operand is a number its type holds, so a result the type holds is read back as it was computed; the one quotient the
type does not hold wraps to the least number. -/
theorem divisionResults : Obligations.DivisionResults := by
  refine ⟨idiv_gives, fun sgn n a b hn ha hb => ?_⟩
  have hpos : 0 < n := by omega
  refine ⟨divide_lt .., divide_lt .., fun hzero => ?_, fun hsgn hleast hone => ?_, fun hzero hover => ?_⟩
  · rw [hzero, divide_rem_zero]
    exact ⟨intBits_intOf hpos sgn ha, quotient_by_zero hn sgn _⟩
  · subst hsgn
    rw [hleast, hone]
    exact least_by_neg_one hpos
  · obtain ⟨hquo, hrem⟩ := divide_truncates hpos (inRange_intOf hpos sgn a) (inRange_intOf hpos sgn b) hzero hover
    rw [hquo, hrem]
    exact ⟨(Int.tdiv_mul_add_tmod ..).symm, natAbs_tmod_lt _ hzero, tmod_mul_dividend_nonneg ..⟩

end Sys2Proof.Laws
end

section
/-! SUPPORT. FSIGN (R112) and FCLASS (R114): the sign a result has and the bits it keeps; the class of an encoding by its exponent and
fraction fields. -/

open Sys2Proof Sys2Proof.Machine

namespace Sys2Proof.Laws

/-! ### Fields of a number -/

theorem bit_eq_testBit (x k : Nat) : bit x k = x.testBit k := by
  rw [bit, Nat.testBit_eq_decide_div_mod_eq, beq_eq_decide]

theorem bits_zero (x n : Nat) : bits x 0 n = x % 2 ^ n := by
  rw [bits, Nat.pow_zero, Nat.div_one]

theorem isX2_iff (ty : Ty) : Ty.isX2 ty = true ↔ ty = .f16x2 ∨ ty = .bf16x2 := by
  cases ty <;> decide

theorem perElem_eq (ty : Ty) (f : Nat → Nat) :
    perElem ty f = if ty = .f16x2 ∨ ty = .bf16x2 then f 0 + 2 ^ 16 * f 1 else f 0 := by
  simp only [perElem, isX2_iff]

/-! ### FSIGN -/

/-- R112: the sign of FSIGN's result, from the signs of A and B. -/
def signAfter (f : SignFn) (a b : Bool) : Bool :=
  match f with
  | .abs => false
  | .neg => !a
  | .copy => b

/-- The low m bits of a under the sign s. -/
def withSign (m : Nat) (s : Bool) (a : Nat) : Nat := if s then a % 2 ^ m + 2 ^ m else a % 2 ^ m

theorem testBit_withSign_low {m k : Nat} (hk : k < m) (s : Bool) (a : Nat) : (withSign m s a).testBit k = a.testBit k := by
  have hlow : (a % 2 ^ m).testBit k = a.testBit k := by simp [Nat.testBit_mod_two_pow, hk]
  cases s with
  | false => exact hlow
  | true => exact (congrArg (Nat.testBit · k) (Nat.add_comm ..)).trans ((Nat.testBit_two_pow_add_gt hk _).trans hlow)

theorem testBit_withSign_sign (m : Nat) (s : Bool) (a : Nat) : (withSign m s a).testBit m = s := by
  have hclear : (a % 2 ^ m).testBit m = false := by simp [Nat.testBit_mod_two_pow]
  cases s with
  | false => exact hclear
  | true =>
    rw [withSign, if_pos rfl, Nat.add_comm, Nat.testBit_two_pow_add_eq, hclear, Bool.not_false]

theorem signElem_eq (f : SignFn) (n a b : Nat) :
    signElem f n a b = withSign (n - 1) (signAfter f (a.testBit (n - 1)) (b.testBit (n - 1))) a := by
  simp only [signElem, withSign, bit_eq_testBit]
  cases f with
  | abs => rfl
  | neg => cases a.testBit (n - 1) <;> rfl
  | copy => rfl

/-- R112: below the sign bit the element is A's; its sign bit is the function's. -/
theorem testBit_signElem {n k : Nat} (hk : k < n) (f : SignFn) (a b : Nat) :
    (signElem f n a b).testBit k = if k + 1 < n then a.testBit k else signAfter f (a.testBit k) (b.testBit k) := by
  rw [signElem_eq]
  split
  · exact testBit_withSign_low (by omega) ..
  · obtain rfl : k = n - 1 := by omega
    exact testBit_withSign_sign ..

theorem exec_fsign (f : SignFn) (x : Alu2) (s : State) : exec (.fsign f x) s = execFsign f x s := rfl

/-! ### FCLASS -/

section
variable {f : Fmt} {v : Nat}

theorem classBit_nan (htop : v / 2 ^ f.frac % 2 ^ f.exp = 2 ^ f.exp - 1) (hfrac : v % 2 ^ f.frac ≠ 0) :
    classBit f v = if v.testBit (f.frac - 1) then 9 else 8 := by
  simp only [classBit, bits_zero, bit_eq_testBit]
  rw [bits, if_pos htop, if_neg hfrac]

theorem classBit_inf (htop : v / 2 ^ f.frac % 2 ^ f.exp = 2 ^ f.exp - 1) (hfrac : v % 2 ^ f.frac = 0) :
    classBit f v = if v.testBit (f.exp + f.frac) then 0 else 7 := by
  simp only [classBit, bits_zero, bit_eq_testBit]
  rw [bits, if_pos htop, if_pos hfrac]

theorem classBit_normal (htop : v / 2 ^ f.frac % 2 ^ f.exp ≠ 2 ^ f.exp - 1) (hexp : v / 2 ^ f.frac % 2 ^ f.exp ≠ 0) :
    classBit f v = if v.testBit (f.exp + f.frac) then 1 else 6 := by
  simp only [classBit, bit_eq_testBit]
  rw [bits, if_neg htop, if_neg hexp]

theorem classBit_subnormal (htop : v / 2 ^ f.frac % 2 ^ f.exp ≠ 2 ^ f.exp - 1) (hexp : v / 2 ^ f.frac % 2 ^ f.exp = 0)
    (hfrac : v % 2 ^ f.frac ≠ 0) : classBit f v = if v.testBit (f.exp + f.frac) then 2 else 5 := by
  simp only [classBit, bits_zero, bit_eq_testBit]
  rw [bits, if_neg htop, if_pos hexp, if_neg hfrac]

theorem classBit_zero (htop : v / 2 ^ f.frac % 2 ^ f.exp ≠ 2 ^ f.exp - 1) (hexp : v / 2 ^ f.frac % 2 ^ f.exp = 0)
    (hfrac : v % 2 ^ f.frac = 0) : classBit f v = if v.testBit (f.exp + f.frac) then 3 else 4 := by
  simp only [classBit, bits_zero, bit_eq_testBit]
  rw [bits, if_neg htop, if_pos hexp, if_pos hfrac]

end

/-- R114: the class of an encoding, read from its exponent field, its fraction field and its sign bit. -/
theorem two_pow_classBit (f : Fmt) (v : Nat) :
    2 ^ classBit f v =
      let frac := v % 2 ^ f.frac
      let e := v / 2 ^ f.frac % 2 ^ f.exp
      let neg := v.testBit (f.exp + f.frac)
      let top := e = 2 ^ f.exp - 1
      if top ∧ frac ≠ 0 then (if v.testBit (f.frac - 1) then 2 ^ 9 else 2 ^ 8)
      else if top then (if neg then 2 ^ 0 else 2 ^ 7)
      else if e ≠ 0 then (if neg then 2 ^ 1 else 2 ^ 6)
      else if frac ≠ 0 then (if neg then 2 ^ 2 else 2 ^ 5)
      else if neg then 2 ^ 3 else 2 ^ 4 := by
  extract_lets frac e neg top
  by_cases htop : top
  · by_cases hfrac : frac = 0
    · rw [if_neg (fun h : top ∧ frac ≠ 0 => h.2 hfrac), if_pos htop, classBit_inf htop hfrac, pow_ite]
    · rw [if_pos ⟨htop, hfrac⟩, classBit_nan htop hfrac, pow_ite]
  · rw [if_neg (fun h : top ∧ frac ≠ 0 => htop h.1), if_neg htop]
    by_cases hexp : e = 0
    · rw [if_neg (not_not.mpr hexp)]
      by_cases hfrac : frac = 0
      · rw [if_neg (not_not.mpr hfrac), classBit_zero htop hexp hfrac, pow_ite]
      · rw [if_pos hfrac, classBit_subnormal htop hexp hfrac, pow_ite]
    · rw [if_pos hexp, classBit_normal htop hexp, pow_ite]

theorem exec_fclass (x : Alu1) (s : State) : exec (.fclass x) s = execFclass x s := rfl

/-! ### The statement -/

/-- Settles O18: an element of FSIGN is A's low bits under the sign its function names; FCLASS's mask is two to the class bit, and the two
fields of the encoding pick the class. -/
theorem signAndClass : Obligations.SignAndClass := by
  refine ⟨⟨fun f x => ?_, fun f n a b k _ _ hk => ?_⟩, fun x => ?_⟩
  · exact gives_of2 (exec_fsign f x) rfl fun clk u t => perElem_eq ..
  · rw [testBit_signElem hk]
    cases f <;> rfl
  · refine gives_of2 (exec_fclass x) rfl fun clk u t => ?_
    exact two_pow_classBit ..

end Sys2Proof.Laws
end

section
/-! SUPPORT. Decoding and encoding are inverse (R26 to R36): the word of an instruction has an assigned opcode and no reserved special
value, so its fields pass the decoder as they are; and a decoded word's operand fields are all named by the instruction. -/

open Sys2Proof Sys2Proof.Machine

namespace Sys2Proof.Laws

/-! ### Every instruction's fields parse to it -/

/-- The two rows for words that are no instruction. -/
def isNoWord : Instr → Bool
  | .illegalOpcode _ | .extensionOpcode _ => true
  | _ => false

theorem parses_back (i : Instr) : Parses.Statement i := by
  cases i with
  | nop c => exact Parses.nop c
  | illegalOpcode w => exact Parses.illegalOpcode w
  | extensionOpcode w => exact Parses.extensionOpcode w
  | iadd sat x => exact Parses.iadd sat x
  | isub sat x => exact Parses.isub sat x
  | imul f x => exact Parses.imul f x
  | imad f x => exact Parses.imad f x
  | idiv rem x => exact Parses.idiv rem x
  | imin x => exact Parses.imin x
  | imax x => exact Parses.imax x
  | iabs sat x => exact Parses.iabs sat x
  | ineg sat x => exact Parses.ineg sat x
  | iset cc x => exact Parses.iset cc x
  | idot sat x => exact Parses.idot sat x
  | and inv x => exact Parses.and inv x
  | or inv x => exact Parses.or inv x
  | xor x => exact Parses.xor x
  | not x => exact Parses.not x
  | lut tab x => exact Parses.lut tab x
  | shl x => exact Parses.shl x
  | shr arith x => exact Parses.shr arith x
  | rot right x => exact Parses.rot right x
  | shf right x => exact Parses.shf right x
  | popc x => exact Parses.popc x
  | clz x => exact Parses.clz x
  | ctz x => exact Parses.ctz x
  | brev x => exact Parses.brev x
  | bfx sx x => exact Parses.bfx sx x
  | bfi x => exact Parses.bfi x
  | bmix x => exact Parses.bmix x
  | mov x => exact Parses.mov x
  | sel x => exact Parses.sel x
  | pset f x => exact Parses.pset f x
  | pmovPack c d => exact Parses.pmovPack c d
  | pmovUnpack c a => exact Parses.pmovUnpack c a
  | lea c sh zx d a b x => exact Parses.lea c sh zx d a b x
  | ptrMk c sp d a b imm => exact Parses.ptrMk c sp d a b imm
  | ptrAdd c d a b imm => exact Parses.ptrAdd c d a b imm
  | ptrChk c d a b imm => exact Parses.ptrChk c d a b imm
  | bra c imm => exact Parses.bra c imm
  | brx c a => exact Parses.brx c a
  | call c imm => exact Parses.call c imm
  | callx c a => exact Parses.callx c a
  | ret c => exact Parses.ret c
  | join c d => exact Parses.join c d
  | wait c a b imm => exact Parses.wait c a b imm
  | jset c d a imm => exact Parses.jset c d a imm
  | exit c => exact Parses.exit c
  | bkpt c code => exact Parses.bkpt c code
  | ballot x => exact Parses.ballot x
  | census f x => exact Parses.census f x
  | same f x => exact Parses.same f x
  | shfl f seg x => exact Parses.shfl f seg x
  | red f x => exact Parses.red f x
  | scan f excl x => exact Parses.scan f excl x
  | bcast x => exact Parses.bcast x
  | fadd x => exact Parses.fadd x
  | fsub x => exact Parses.fsub x
  | fmul x => exact Parses.fmul x
  | ffma ftz x => exact Parses.ffma ftz x
  | fmin x => exact Parses.fmin x
  | fmax x => exact Parses.fmax x
  | fset cc x => exact Parses.fset cc x
  | fsign f x => exact Parses.fsign f x
  | fdiv x => exact Parses.fdiv x
  | fsqrt x => exact Parses.fsqrt x
  | frcp x => exact Parses.frcp x
  | frsq x => exact Parses.frsq x
  | fexp2 x => exact Parses.fexp2 x
  | flog2 x => exact Parses.flog2 x
  | fsin x => exact Parses.fsin x
  | fcos x => exact Parses.fcos x
  | ftanh x => exact Parses.ftanh x
  | fclass x => exact Parses.fclass x
  | frnd x => exact Parses.frnd x
  | fdot ftz x => exact Parses.fdot ftz x
  | fact f x => exact Parses.fact f x
  | cvt sat sty x => exact Parses.cvt sat sty x
  | bcvtPack m x => exact Parses.bcvtPack m x
  | bcvtUnpack m x => exact Parses.bcvtUnpack m x
  | ld x => exact Parses.ld x
  | st x => exact Parses.st x
  | ldu x => exact Parses.ldu x
  | ldx x => exact Parses.ldx x
  | stc x => exact Parses.stc x
  | lr x => exact Parses.lr x
  | sc x => exact Parses.sc x
  | atom x => exact Parses.atom x
  | xst x => exact Parses.xst x
  | xatom x => exact Parses.xatom x
  | fenceAcq c sc => exact Parses.fenceAcq c sc
  | fenceRel c sc => exact Parses.fenceRel c sc
  | fenceAr c sc => exact Parses.fenceAr c sc
  | fenceSc c sc => exact Parses.fenceSc c sc
  | fenceAck c => exact Parses.fenceAck c
  | fenceTc c sc => exact Parses.fenceTc c sc
  | cflushWb c a disp => exact Parses.cflushWb c a disp
  | cflushInv c a disp => exact Parses.cflushInv c a disp
  | cflushWbinv c a disp => exact Parses.cflushWbinv c a disp
  | pref c pol a disp => exact Parses.pref c pol a disp
  | barCfg c a b imm => exact Parses.barCfg c a b imm
  | barArv c sc d a imm => exact Parses.barArv c sc d a imm
  | barWait c sc a b imm => exact Parses.barWait c sc a b imm
  | barSync c sc a imm => exact Parses.barSync c sc a imm
  | barAdd c sc a b imm => exact Parses.barAdd c sc a b imm
  | barTest c sc d a b imm => exact Parses.barTest c sc d a b imm
  | tlWait c sc tl d a imm => exact Parses.tlWait c sc tl d a imm
  | tlRead c tl d imm => exact Parses.tlRead c tl d imm
  | copy e => exact Parses.copy e
  | copyPl t e => exact Parses.copyPl t e
  | gather e => exact Parses.gather e
  | scadd e => exact Parses.scadd e
  | sort e => exact Parses.sort e
  | tcfg c wait d a scaleoff => exact Parses.tcfg c wait d a scaleoff
  | trel c wait a => exact Parses.trel c wait a
  | acfgTake c d a => exact Parses.acfgTake c d a
  | acfgRel c a => exact Parses.acfgRel c a
  | peer c n a b => exact Parses.peer c n a b
  | mstart c a => exact Parses.mstart c a
  | coll e => exact Parses.coll e
  | mma m => exact Parses.mma m
  | mzero shape d => exact Parses.mzero shape d
  | mepi shape a desc => exact Parses.mepi shape a desc
  | mwait sc pr ctr a phase => exact Parses.mwait sc pr ctr a phase
  | marv sc a amount => exact Parses.marv sc a amount
  | mloop ctr limit off => exact Parses.mloop ctr limit off
  | mjmp off => exact Parses.mjmp off
  | mstop => exact Parses.mstop
  | trap c code => exact Parses.trap c code
  | rtt c => exact Parses.rtt c
  | srd c d num idx => exact Parses.srd c d num idx
  | swr c a num idx => exact Parses.swr c a num idx
  | yield c => exact Parses.yield c
  | launch c a => exact Parses.launch c a
  | evqPost c a b => exact Parses.evqPost c a b
  | ctxFrz c a => exact Parses.ctxFrz c a
  | ctxSav c a b => exact Parses.ctxSav c a b
  | ctxLd c a b => exact Parses.ctxLd c a b
  | ctxRes c a => exact Parses.ctxRes c a
  | xinv c a b => exact Parses.xinv c a b
  | bufset c a b => exact Parses.bufset c a b
  | eread c d => exact Parses.eread c d
  | halt c => exact Parses.halt c  | _ => exact fun _ _ _ _ h => nomatch h

/-! ### The fields of an instruction's word -/

@[simp] theorem badSpecial_code (o : Opnd) : badSpecial o.code = false := by
  cases o with
  | sp s => cases s <;> rfl
  | imm => rfl
  | v i => revert i; decide
  | w i => revert i; decide
  | o i => revert i; decide
  | y i => revert i; decide
  | p i => revert i; decide
  | j i => revert i; decide
  | t i => revert i; decide
  | a i => revert i; decide
  | b i => revert i; decide

@[simp] theorem badSpecial_zero : badSpecial 0#10 = false := rfl

theorem fixSpecial_of_good {c : BitVec 10} (h : badSpecial c = false) : fixSpecial c = c := by
  rw [fixSpecial, if_neg (by simp [h])]

@[simp] theorem extractLsb'_append_low (hi : BitVec 22) (lo : BitVec 10) : (hi ++ lo).extractLsb' 0 10 = lo := by
  rw [BitVec.extractLsb'_append_eq_of_add_le (by decide), BitVec.extractLsb'_eq_self]

/-- Fields as an encoder writes them: the opcode is assigned, no operand field holds a reserved special value, and an M-stream word has
guard and hint zero (R167). -/
structure Written (f : Fields) : Prop where
  assigned : f.opc ≠ 0x00 ∧ f.opc ≠ 0xFF ∧ isExtOpcode f.opc = false
  d : badSpecial f.d = false
  a : badSpecial f.a = false
  b : badSpecial f.b = false
  x : isUse3 f.opc = true → badSpecial (f.imm.extractLsb' 0 10) = false
  mstream : isMOpcode f.opc = true → f.gidx = 0 ∧ f.gneg = false ∧ f.hint = 0

theorem written_fieldsOf {i : Instr} {f : Fields} (hw : isNoWord i = false) (hf : fieldsOf i = some f) : Written f := by
  cases i
  case illegalOpcode w => cases hw
  case extensionOpcode w => cases hw
  all_goals
    cases hf <;> constructor <;>
    simp [Alu1.fields, Alu2.fields, Alu3.fields, Ctl.fields, LoadOp.fields, StoreOp.fields, AtomOp.fields, Eng.fields, mFields, isExtOpcode,
      isMOpcode, isUse3, (atom_imm ..).2.2.1]

theorem append_extractLsb' (w : Word) : (w.extractLsb' 10 22 ++ w.extractLsb' 0 10 : Word) = w := by
  rw [BitVec.extractLsb'_append_extractLsb'_eq_extractLsb' (start₂ := 10) (start₁ := 0) (len₁ := 10) rfl]
  exact BitVec.extractLsb'_eq_self
  
theorem fix_of_written {f : Fields} (h : Written f) : f.fix = f := by
  simp only [Fields.fix, fixSpecial_of_good h.d, fixSpecial_of_good h.a, fixSpecial_of_good h.b]
  split
  · rename_i huse
    rw [fixSpecial_of_good (h.x huse), append_extractLsb']
  · rfl

theorem rawBad_of_written {f : Fields} (h : Written f) : f.rawBad = fun _ => false := by
  funext k
  match k with
  | 0 => exact h.d
  | 1 => exact h.a
  | 2 => exact h.b
  | k + 3 =>
    show (isUse3 f.opc && badSpecial _) = false
    cases huse : isUse3 f.opc with
    | false => rfl
    | true => exact h.x huse

/-! ### Decoding what was encoded -/

/-- A word of an instruction is accepted when every check passes. -/
theorem decodeFields_accepts {who : Fetcher} {f : Fields} {i : Instr} (h : Written f) (hparse : parse f = some i)
    (howner : fetcherOk who f.opc = true) (hfields : fieldsOf i = some f) (hreserved : reservedOk i = true) (hnop : seqNopOk who f = true)
    (hcodes : codesOk i = true) (hoperands : badOperand who.budget (fun _ => false) i = none) : decodeFields who f = .ok i := by
  obtain ⟨hzero, hones, hext⟩ := h.assigned
  rw [decodeFields, if_neg (not_or.mpr ⟨hzero, hones⟩)]
  simp [hext, fix_of_written h, rawBad_of_written h, hparse, howner, hfields, hreserved, hnop, hcodes, hoperands]

theorem decodeFields_illegal {who : Fetcher} {f : Fields} (hext : isExtOpcode f.opc = false)
    (h : f.opc = 0x00 ∨ f.opc = 0xFF ∨ parse f.fix = none ∨ fetcherOk who f.opc = false) : decodeFields who f = .ok (.illegalOpcode f.toWord) := by
  unfold decodeFields
  split
  · rfl
  · rename_i hassigned
    rw [if_neg (by simp [hext])]
    cases hparse : parse f.fix with
    | none => rfl
    | some i =>
      have howner : fetcherOk who f.opc = false := by
        rcases h with h | h | h | h
        · exact absurd (.inl h) hassigned
        · exact absurd (.inr h) hassigned
        · rw [hparse] at h; cases h
        · exact h
      simp [howner]

theorem decodeFields_extension (who : Fetcher) {f : Fields} (hext : isExtOpcode f.opc = true) :
    decodeFields who f = .ok (.extensionOpcode f.toWord) := by
  have hassigned : ¬(f.opc = 0x00 ∨ f.opc = 0xFF) := by
    rintro (h | h) <;> rw [h] at hext <;> exact absurd hext (by decide)
  rw [decodeFields, if_neg hassigned, if_pos hext]

/-- A word other than the two rows for words that are no instruction is well formed when it passes checks 7 to 9. -/
theorem wellFormed_word {i : Instr} (hw : isNoWord i = false) (hf : fieldsOf i ≠ none) : wellFormed i = wordChecks i := by
  unfold wellFormed
  split
  case h_1 | h_2 => cases hw
  case h_3 | h_4 | h_5 | h_6 | h_7 | h_8 => exact absurd rfl hf
  case h_9 => rfl

theorem wordChecks_iff {i : Instr} :
    wordChecks i = true ↔ reservedOk i = true ∧ codesOk i = true ∧ badOperand 256 (fun _ => false) i = none := by
  simp [wordChecks, and_assoc]

theorem encode_of_fields {i : Instr} {f : Fields} (h : fieldsOf i = some f) : encode i = f.toWord := by
  simp [encode, h]

/-- The owner of an opcode by the table: a sequencer has the M-stream's words, a rank the others (R34). -/
theorem fetcherOk_tableFetcher (f : Fields) : fetcherOk (tableFetcher f.toWord) f.opc = true := by
  have hopc : f.toWord.extractLsb' 88 8 = f.opc := congrArg Fields.opc (ofWord_toWord f)
  rw [tableFetcher, hopc]
  cases h : isMOpcode f.opc <;> simp [fetcherOk, h]

theorem budget_tableFetcher (w : IWord) : (tableFetcher w).budget = 256 := by
  unfold tableFetcher
  split <;> rfl

theorem seqNopOk_of_written {f : Fields} (h : Written f) : seqNopOk (tableFetcher f.toWord) f = true := by
  have hopc : f.toWord.extractLsb' 88 8 = f.opc := congrArg Fields.opc (ofWord_toWord f)
  rw [tableFetcher, hopc]
  cases hm : isMOpcode f.opc with
  | false => rfl
  | true =>
    obtain ⟨hg, hn, hh⟩ := h.mstream hm
    simp [seqNopOk, hg, hn, hh]

/-- The word of a well-formed instruction proper is accepted by the unit that fetches it. -/
theorem decode_encode_word {i : Instr} (hw : isNoWord i = false) (hwf : wellFormed i = true) (hf : fieldsOf i ≠ none) :
    decodeWord (tableFetcher (encode i)) (encode i) = .ok i := by
  obtain ⟨f, hfields⟩ := Option.ne_none_iff_exists'.mp hf
  rw [wellFormed_word hw hf] at hwf
  obtain ⟨hreserved, hcodes, hoperands⟩ := wordChecks_iff.mp hwf
  have hwritten := written_fieldsOf hw hfields
  have hparse : parse f = some i := by
    refine parses_back i (fun w h => ?_) (fun w h => ?_) hreserved f hfields <;> (subst h; cases hw)
  rw [encode_of_fields hfields, decodeWord, ofWord_toWord]
  refine decodeFields_accepts hwritten hparse (fetcherOk_tableFetcher f) hfields hreserved (seqNopOk_of_written hwritten) hcodes ?_
  rw [budget_tableFetcher]
  exact hoperands

theorem decode_illegalWord {w : IWord} (h : isIllegalWord w = true) : decodeWord (.rank 256) w = .ok (.illegalOpcode w) := by
  have hext : isExtOpcode (Fields.ofWord w).opc = false := by
    simp only [isIllegalWord, Bool.or_eq_true, beq_iff_eq, Bool.and_eq_true, Bool.not_eq_true'] at h
    rcases h with (h | h) | h
    · rw [h]; rfl
    · rw [h]; rfl
    · exact h.1
  rw [decodeWord, decodeFields_illegal hext, toWord_ofWord]
  simpa [isIllegalWord, hext, fetcherOk, or_assoc] using h

/-- Settles O1: the fields of an instruction's word parse to it and pass every check it passed itself; the rows for words that are no
instruction give their word back. -/
theorem decodeEncode : Obligations.DecodeEncode := by
  intro i hwf hf
  cases hw : isNoWord i with
  | false =>
    have hfetch : whoFetches i = tableFetcher (encode i) := by
      unfold whoFetches
      split
      · cases hw
      · rfl
    rw [hfetch]
    exact decode_encode_word hw hwf hf
  | true =>
    cases i
    case illegalOpcode w =>
      rw [encode_of_fields rfl, toWord_ofWord]
      exact decode_illegalWord hwf
    case extensionOpcode w =>
      rw [encode_of_fields rfl, decodeWord, ofWord_toWord, decodeFields_extension _ hwf, toWord_ofWord]
    all_goals cases hw

/-! ### Encoding what was decoded -/

/-- An operand field of a word: D, A, B, or operand C of a three-source word (R29). -/
def operandField (f : Fields) : Nat → BitVec 10
  | 0 => f.d
  | 1 => f.a
  | 2 => f.b
  | _ => f.imm.extractLsb' 0 10

/-- The operand fields that an instruction names. -/
def named (i : Instr) : List Nat := (positions i).map (·.1)

/-- A field that an instruction does not name is zero in its word. -/
structure UnnamedZero (i : Instr) (f : Fields) : Prop where
  d : f.d = 0 ∨ 0 ∈ named i
  a : f.a = 0 ∨ 1 ∈ named i
  b : f.b = 0 ∨ 2 ∈ named i
  x : isUse3 f.opc = true → f.imm.extractLsb' 0 10 = 0 ∨ 3 ∈ named i

theorem code_eq_zero {o : Opnd} : o.code = 0#10 ↔ o = Opnd.none := by
  constructor
  · intro h
    rw [← opnd_ofCode o, h]
    rfl
  · rintro rfl
    rfl

/-! An operand that a form of a shared layout does without is zero by check 7. -/

theorem unnamedZero_atom {i : Instr} {opc : BitVec 8} {x : AtomOp} (hp : positions i = sAtom x)
    (hr : ((!x.nr || x.d == Opnd.none) && (x.op == .cas || x.x == Opnd.none)) = true) : UnnamedZero i (x.fields opc) := by
  simp only [Bool.and_eq_true, Bool.or_eq_true, Bool.not_eq_true', beq_iff_eq] at hr
  constructor <;> simp [AtomOp.fields, Ctl.fields, (atom_imm ..).2.2.1, named, hp, sAtom, code_eq_zero]
  · exact hr.1.symm
  · exact fun _ => hr.2.symm

theorem unnamedZero_eng {i : Instr} {opc : BitVec 8} {fn : BitVec 6} {imm : Word} {e : Eng} (hp : positions i = sEng e)
    (hopc : isUse3 opc = false) (hr : (e.bar || e.b == Opnd.none) = true) : UnnamedZero i (e.fields opc fn imm) := by
  simp only [Bool.or_eq_true, beq_iff_eq] at hr
  constructor <;> simp [Eng.fields, Ctl.fields, hopc, named, hp, sEng, code_eq_zero]
  exact hr.symm

theorem unnamedZero_ptrMk {c : Ctl} {sp : MkSpace} {d a b : Opnd} {imm : Word} {f : Fields} (hr : reservedOk (.ptrMk c sp d a b imm) = true)
    (hf : fieldsOf (.ptrMk c sp d a b imm) = some f) : UnnamedZero (.ptrMk c sp d a b imm) f := by
  simp only [reservedOk, Bool.or_eq_true, bne_iff_ne, beq_iff_eq] at hr
  cases hf
  constructor <;> simp [Ctl.fields, isUse3, named, positions, code_eq_zero]
  exact hr.symm

theorem unnamedZero_fsign {sf : SignFn} {x : Alu2} {f : Fields} (hr : reservedOk (.fsign sf x) = true)
    (hf : fieldsOf (.fsign sf x) = some f) : UnnamedZero (.fsign sf x) f := by
  simp only [reservedOk, Bool.or_eq_true, beq_iff_eq] at hr
  cases hf
  constructor <;> simp [Alu2.fields, isUse3, named, positions, code_eq_zero]
  exact hr.symm

theorem unnamedZero_st {x : StoreOp} {f : Fields} (hr : reservedOk (.st x) = true) (hf : fieldsOf (.st x) = some f) :
    UnnamedZero (.st x) f := by
  simp only [reservedOk, beq_iff_eq] at hr
  cases hf
  constructor <;> simp [StoreOp.fields, Ctl.fields, isUse3, named, positions, code_eq_zero, hr]

theorem unnamedZero_fieldsOf {i : Instr} {f : Fields} (hw : isNoWord i = false) (hr : reservedOk i = true) (hf : fieldsOf i = some f) :
    UnnamedZero i f := by
  cases i
  case illegalOpcode w => cases hw
  case extensionOpcode w => cases hw
  case ptrMk => exact unnamedZero_ptrMk hr hf
  case fsign => exact unnamedZero_fsign hr hf
  case st => exact unnamedZero_st hr hf
  case atom | xatom => cases hf; exact unnamedZero_atom rfl hr
  case copy | copyPl | gather | scadd | sort | coll => cases hf; exact unnamedZero_eng rfl rfl hr
  all_goals
    cases hf <;> constructor <;>
    simp [Alu1.fields, Alu2.fields, Alu3.fields, Ctl.fields, LoadOp.fields, StoreOp.fields, mFields, isUse3, named, positions, s1, s2, s3]

theorem firstBad_eq_none {vb : Nat} {raw : Nat → Bool} {l : PosList} :
    firstBad vb raw l = none ↔ ∀ e ∈ l, raw e.1 = false ∧ e.2.1.ok vb e.2.2 = true := by
  induction l with
  | nil => simp [firstBad]
  | cons e l ih =>
    obtain ⟨k, q, o⟩ := e
    cases hraw : raw k <;> cases hok : q.ok vb o <;> simp [firstBad, hraw, hok, ih]

theorem badOperand_eq_none {vb : Nat} {raw : Nat → Bool} {i : Instr} :
    badOperand vb raw i = none ↔ firstBad vb raw (positions i) = none ∧
      (uniformDst (positions i) = true → uniformException i = false → firstPerThread (positions i) = none) := by
  unfold badOperand
  cases firstBad vb raw (positions i) <;> simp

theorem rawBad_named {f : Fields} {i : Instr} {vb k : Nat} (h : badOperand vb f.rawBad i = none) (hk : k ∈ named i) :
    f.rawBad k = false := by
  obtain ⟨e, he, rfl⟩ := List.mem_map.mp hk
  exact (firstBad_eq_none.mp (badOperand_eq_none.mp h).1 e he).1

/-- A field that reads as zero once reserved special values are replaced held none. -/
theorem good_of_fixSpecial_zero {c : BitVec 10} (h : fixSpecial c = 0) : badSpecial c = false := by
  cases hb : badSpecial c with
  | false => rfl
  | true =>
    rw [fixSpecial, if_pos hb] at h
    exact absurd h (by decide)

/-- The fields of an accepted word held no reserved special value: one in a named field fails check 9, one elsewhere check 7. -/
theorem fix_of_accepted {f : Fields} {i : Instr} {vb : Nat} (hw : isNoWord i = false) (hr : reservedOk i = true)
    (hf : fieldsOf i = some f.fix) (hb : badOperand vb f.rawBad i = none) : f.fix = f := by
  obtain ⟨hd, ha, hbz, hx⟩ := unnamedZero_fieldsOf hw hr hf
  have good : ∀ {c : BitVec 10} {k}, f.rawBad k = badSpecial c → (fixSpecial c = 0 ∨ k ∈ named i) → fixSpecial c = c := by
    intro c k hraw h
    refine fixSpecial_of_good ?_
    rcases h with h | h
    · exact good_of_fixSpecial_zero h
    · rw [← hraw]; exact rawBad_named hb h
  have himm : (if isUse3 f.opc then f.imm.extractLsb' 10 22 ++ fixSpecial (f.imm.extractLsb' 0 10) else f.imm) = f.imm := by
    split
    · rename_i huse
      have hx3 := hx huse
      simp only [Fields.fix, huse, if_true, extractLsb'_append_low] at hx3
      rw [good (k := 3) (by simp [Fields.rawBad, huse]) hx3, append_extractLsb']
    · rfl
  simp only [Fields.fix, good (k := 0) rfl hd, good (k := 1) rfl ha, good (k := 2) rfl hbz, himm]

/-- What an accepted word is: no instruction, an extension word, or an instruction that passed every check. -/
theorem decodeFields_ok {who : Fetcher} {f : Fields} {i : Instr} (h : decodeFields who f = .ok i) :
    (i = .illegalOpcode f.toWord ∧ isExtOpcode f.opc = false ∧
      (f.opc = 0x00 ∨ f.opc = 0xFF ∨ parse f.fix = none ∨ fetcherOk who f.opc = false)) ∨
    (i = .extensionOpcode f.toWord ∧ isExtOpcode f.opc = true) ∨
    (fieldsOf i = some f.fix ∧ reservedOk i = true ∧ codesOk i = true ∧ badOperand who.budget f.rawBad i = none ∧ parse f.fix = some i) := by
  unfold decodeFields at h
  split at h
  · rename_i hopc
    cases h
    refine .inl ⟨rfl, ?_, hopc.imp id .inl⟩
    rcases hopc with h | h <;> rw [h] <;> rfl
  split at h
  · rename_i hext
    cases h
    exact .inr (.inl ⟨rfl, hext⟩)
  rename_i hext
  have hext : isExtOpcode f.opc = false := by simpa using hext
  split at h
  · rename_i hparse
    cases h
    exact .inl ⟨rfl, hext, .inr (.inr (.inl hparse))⟩
  rename_i j hparse
  split at h
  · rename_i howner
    cases h
    exact .inl ⟨rfl, hext, .inr (.inr (.inr (by simpa using howner)))⟩
  split at h
  · cases h
  rename_i hfields
  split at h
  · cases h
  rename_i hcodes
  split at h
  · cases h
  rename_i hoperands
  cases h
  simp only [not_or, not_not, Bool.not_eq_false] at hfields hcodes
  exact .inr (.inr ⟨hfields.1, hfields.2.1, hcodes, hoperands, hparse⟩)

/-- Everything in o is an instruction proper. -/
def Proper (o : Option Instr) : Prop := ∀ i ∈ o, isNoWord i = false

@[simp] theorem proper_none : Proper none := by simp [Proper]

@[simp] theorem proper_some {i : Instr} : Proper (some i) ↔ isNoWord i = false := by
  simp [Proper]

theorem proper_map {α : Type} {o : Option α} {g : α → Instr} (h : ∀ a, isNoWord (g a) = false) : Proper (o.map g) := by
  rintro i hi
  obtain ⟨a, -, rfl⟩ := Option.mem_map.mp hi
  exact h a

theorem proper_ite {p : Prop} [Decidable p] {o o' : Option Instr} (h : Proper o) (h' : Proper o') : Proper (if p then o else o') := by
  split
  · exact h
  · exact h'

/-- No opcode parses to a row for words that are no instruction. -/
theorem proper_parse (f : Fields) : Proper (parse f) := by
  unfold parse
  extract_lets fn z c d a b
  have hz : ∀ i, isNoWord i = false → Proper (z i) := fun i hi => proper_ite (proper_some.mpr hi) proper_none
  clear_value z fn
  split
  all_goals
    first
    | exact hz _ rfl
    | exact proper_none
    | exact proper_map fun _ => rfl
    | exact proper_ite (proper_map fun _ => rfl) proper_none
    | exact proper_some.mpr rfl
    | exact proper_map fun b => by cases b <;> rfl
    | (split <;> first | exact proper_some.mpr rfl | exact proper_none)

theorem isNoWord_of_parse {f : Fields} {i : Instr} (h : parse f = some i) : isNoWord i = false := proper_parse f i h

theorem encode_decode {who : Fetcher} {w : IWord} {i : Instr} (h : decodeWord who w = .ok i) : encode i = w := by
  rcases decodeFields_ok h with ⟨rfl, -⟩ | ⟨rfl, -⟩ | ⟨hfields, hreserved, -, hoperands, hparse⟩
  · rw [encode_of_fields rfl, toWord_ofWord, toWord_ofWord]
  · rw [encode_of_fields rfl, toWord_ofWord, toWord_ofWord]
  · rw [encode_of_fields hfields, fix_of_accepted (isNoWord_of_parse hparse) hreserved hfields hoperands, toWord_ofWord]

theorem vOk_mono {vb vb' w : Nat} {i : BitVec 8} (h : vb ≤ vb') (hv : vOk vb w i = true) : vOk vb' w i = true := by
  simp only [vOk, Bool.and_eq_true, decide_eq_true_eq] at hv ⊢
  exact ⟨hv.1, hv.2.trans h⟩

theorem srcOk_mono {vb vb' w : Nat} {imm : Bool} {o : Opnd} (h : vb ≤ vb') (hs : srcOk vb w imm o = true) : srcOk vb' w imm o = true := by
  cases o with
  | v i => exact vOk_mono h hs
  | _ => exact hs

theorem dstOk_mono {vb vb' w : Nat} {o : Opnd} (h : vb ≤ vb') (hd : dstOk vb w o = true) : dstOk vb' w o = true := by
  cases o with
  | v i => exact vOk_mono h hd
  | _ => exact hd

/-- R23: an operand inside a budget of registers is inside a larger one. -/
theorem pos_ok_mono {vb vb' : Nat} {q : Pos} {o : Opnd} (h : vb ≤ vb') (hq : q.ok vb o = true) : q.ok vb' o = true := by
  cases q with
  | src w imm => exact srcOk_mono h hq
  | dst w => exact dstOk_mono h hq
  | perThread w =>
    cases o with
    | v i => exact vOk_mono h hq
    | _ => exact hq
  | base =>
    cases o with
    | v i => exact vOk_mono h hq
    | _ => exact hq
  | movSrc ty =>
    cases o with
    | v i => exact vOk_mono h hq
    | _ => exact hq
  | movDst ty fromMask =>
    cases o with
    | v i => 
      simp only [Pos.ok, dstOk, Bool.and_eq_true] at hq ⊢
      exact ⟨vOk_mono h hq.1, hq.2⟩
    | _ => exact hq
  | bcastSrc w =>
    cases o with
    | v i => exact vOk_mono h hq
    | _ => exact hq
  | _ => exact hq

theorem badOperand_mono {vb : Nat} {raw : Nat → Bool} {i : Instr} (hvb : vb ≤ 256) (h : badOperand vb raw i = none) :
    badOperand 256 (fun _ => false) i = none := by
  obtain ⟨hfirst, huniform⟩ := badOperand_eq_none.mp h
  refine badOperand_eq_none.mpr ⟨firstBad_eq_none.mpr fun e he => ⟨rfl, ?_⟩, huniform⟩
  exact pos_ok_mono hvb (firstBad_eq_none.mp hfirst e he).2

theorem decode_wellFormed {vb : Nat} {w : IWord} {i : Instr} (hvb : vb ≤ 256) (h : decodeWord (.rank vb) w = .ok i) :
    wellFormed i = true := by
  rcases decodeFields_ok h with ⟨rfl, hext, hwhy⟩ | ⟨rfl, hext⟩ | ⟨hfields, hreserved, hcodes, hoperands, hparse⟩
  · simpa [wellFormed, isIllegalWord, hext, fetcherOk, or_assoc] using hwhy
  · simpa [wellFormed] using hext
  · rw [wellFormed_word (isNoWord_of_parse hparse) (by simp [hfields])]
    exact wordChecks_iff.mpr ⟨hreserved, hcodes, badOperand_mono hvb hoperands⟩

theorem isMOpcode_iff {opc : BitVec 8} : isMOpcode opc = true ↔ 0xD0 ≤ opc.toNat ∧ opc.toNat < 0xE0 := by
  revert opc; decide

theorem isExtOpcode_iff {opc : BitVec 8} : isExtOpcode opc = true ↔ 0xF0 ≤ opc.toNat ∧ opc.toNat < 0xFF := by
  revert opc; decide

/-- Settles O2: an accepted word is the one its instruction encodes, its checks are those of a well-formed instruction, and opcodes that
a unit does not own are refused before anything else is looked at. -/
theorem decodeSound : Obligations.DecodeSound := by
  refine ⟨fun who w i => encode_decode, fun vb w i => decode_wellFormed, fun w vb => ?_⟩
  extract_lets opc
  refine ⟨fun h => ?_, fun h who => ?_, fun hnop hmstream hext => ?_⟩
  · have hext : isExtOpcode (Fields.ofWord w).opc = false := by
      refine Bool.eq_false_iff.mpr fun hx => ?_
      have := isExtOpcode_iff.mp hx
      change _ ≤ opc ∧ opc < _ at this
      omega
    rw [decodeWord, decodeFields_illegal hext, toWord_ofWord]
    rcases h with h | h | h
    · exact .inl (BitVec.eq_of_toNat_eq h)
    · exact .inr (.inl (BitVec.eq_of_toNat_eq h))
    · exact .inr (.inr (.inr (by
        have hm : isMOpcode (Fields.ofWord w).opc = true := isMOpcode_iff.mpr h
        simp [fetcherOk, hm])))
  · rw [decodeWord, decodeFields_extension who (isExtOpcode_iff.mpr h), toWord_ofWord]
  · have hnop' : (Fields.ofWord w).opc ≠ 0x01 := fun h => hnop (congrArg BitVec.toNat h)
    rw [decodeWord, decodeFields_illegal (Bool.eq_false_iff.mpr (mt isExtOpcode_iff.mp hext)), toWord_ofWord]
    refine .inr (.inr (.inr ?_))
    have hm : isMOpcode (Fields.ofWord w).opc = false := Bool.eq_false_iff.mpr (mt isMOpcode_iff.mp hmstream)
    simpa [fetcherOk, hm] using hnop'

end Sys2Proof.Laws
end

section
/-! SUPPORT. The meaning that exec gives each row of the opcode table, by name. -/

open Sys2Proof Sys2Proof.Machine

namespace Sys2Proof.Laws

theorem exec_nop (c : Ctl) (s : State) : exec (.nop c) s = execNop c s := rfl
theorem exec_illegalOpcode (w : IWord) (s : State) : exec (.illegalOpcode w) s = execIllegalOpcode w s := rfl
theorem exec_extensionOpcode_eq (w : IWord) (s : State) : exec (.extensionOpcode w) s = execExtensionOpcode w s := rfl
theorem exec_iadd (sat : Bool) (x : Alu2) (s : State) : exec (.iadd sat x) s = execIadd sat x s := rfl
theorem exec_isub (sat : Bool) (x : Alu2) (s : State) : exec (.isub sat x) s = execIsub sat x s := rfl
theorem exec_imul (f : MulFn) (x : Alu2) (s : State) : exec (.imul f x) s = execImul f x s := rfl
theorem exec_imad (f : MulFn) (x : Alu3) (s : State) : exec (.imad f x) s = execImad f x s := rfl
theorem exec_imin (x : Alu2) (s : State) : exec (.imin x) s = execImin x s := rfl
theorem exec_imax (x : Alu2) (s : State) : exec (.imax x) s = execImax x s := rfl
theorem exec_iabs (sat : Bool) (x : Alu1) (s : State) : exec (.iabs sat x) s = execIabs sat x s := rfl
theorem exec_ineg (sat : Bool) (x : Alu1) (s : State) : exec (.ineg sat x) s = execIneg sat x s := rfl
theorem exec_iset (cc : Cmp) (x : Alu2) (s : State) : exec (.iset cc x) s = execIset cc x s := rfl
theorem exec_idot (sat : Bool) (x : Alu3) (s : State) : exec (.idot sat x) s = execIdot sat x s := rfl
theorem exec_and (inv : Bool) (x : Alu2) (s : State) : exec (.and inv x) s = execAnd inv x s := rfl
theorem exec_or (inv : Bool) (x : Alu2) (s : State) : exec (.or inv x) s = execOr inv x s := rfl
theorem exec_xor (x : Alu2) (s : State) : exec (.xor x) s = execXor x s := rfl
theorem exec_not (x : Alu1) (s : State) : exec (.not x) s = execNot x s := rfl
theorem exec_lut (tab : BitVec 16) (x : Alu3) (s : State) : exec (.lut tab x) s = execLut tab x s := rfl
theorem exec_shl (x : Alu2) (s : State) : exec (.shl x) s = execShl x s := rfl
theorem exec_shr (arith : Bool) (x : Alu2) (s : State) : exec (.shr arith x) s = execShr arith x s := rfl
theorem exec_rot (right : Bool) (x : Alu2) (s : State) : exec (.rot right x) s = execRot right x s := rfl
theorem exec_shf (right : Bool) (x : Alu3) (s : State) : exec (.shf right x) s = execShf right x s := rfl
theorem exec_popc (x : Alu1) (s : State) : exec (.popc x) s = execPopc x s := rfl
theorem exec_clz (x : Alu1) (s : State) : exec (.clz x) s = execClz x s := rfl
theorem exec_ctz (x : Alu1) (s : State) : exec (.ctz x) s = execCtz x s := rfl
theorem exec_brev (x : Alu1) (s : State) : exec (.brev x) s = execBrev x s := rfl
theorem exec_bfx (sx : Bool) (x : Alu3) (s : State) : exec (.bfx sx x) s = execBfx sx x s := rfl
theorem exec_bfi (x : Alu3) (s : State) : exec (.bfi x) s = execBfi x s := rfl
theorem exec_bmix (x : Alu3) (s : State) : exec (.bmix x) s = execBmix x s := rfl
theorem exec_mov (x : Alu1) (s : State) : exec (.mov x) s = execMov x s := rfl
theorem exec_sel (x : Alu3) (s : State) : exec (.sel x) s = execSel x s := rfl
theorem exec_pset (f : PsetFn) (x : Alu2) (s : State) : exec (.pset f x) s = execPset f x s := rfl
theorem exec_pmovPack (c : Ctl) (d : Opnd) (s : State) : exec (.pmovPack c d) s = execPmovPack c d s := rfl
theorem exec_pmovUnpack (c : Ctl) (a : Opnd) (s : State) : exec (.pmovUnpack c a) s = execPmovUnpack c a s := rfl
theorem exec_lea (c : Ctl) (sh : BitVec 3) (zx : Bool) (d a b x : Opnd) (s : State) :
    exec (.lea c sh zx d a b x) s = execLea c sh zx d a b x s := rfl
theorem exec_ptrMk (c : Ctl) (sp : MkSpace) (d a b : Opnd) (imm : Word) (s : State) :
    exec (.ptrMk c sp d a b imm) s = execPtrMk c sp d a b imm s := rfl
theorem exec_ptrAdd (c : Ctl) (d a b : Opnd) (imm : Word) (s : State) : exec (.ptrAdd c d a b imm) s = execPtrAdd c d a b imm s := rfl
theorem exec_ptrChk (c : Ctl) (d a b : Opnd) (imm : Word) (s : State) : exec (.ptrChk c d a b imm) s = execPtrChk c d a b imm s := rfl
theorem exec_bra (c : Ctl) (imm : Word) (s : State) : exec (.bra c imm) s = execBra c imm s := rfl
theorem exec_brx (c : Ctl) (a : Opnd) (s : State) : exec (.brx c a) s = execBrx c a s := rfl
theorem exec_call (c : Ctl) (imm : Word) (s : State) : exec (.call c imm) s = execCall c imm s := rfl
theorem exec_callx (c : Ctl) (a : Opnd) (s : State) : exec (.callx c a) s = execCallx c a s := rfl
theorem exec_ret (c : Ctl) (s : State) : exec (.ret c) s = execRet c s := rfl
theorem exec_join (c : Ctl) (d : Opnd) (s : State) : exec (.join c d) s = execJoin c d s := rfl
theorem exec_wait (c : Ctl) (a b : Opnd) (imm : Word) (s : State) : exec (.wait c a b imm) s = execWait c a b imm s := rfl
theorem exec_jset (c : Ctl) (d a : Opnd) (imm : Word) (s : State) : exec (.jset c d a imm) s = execJset c d a imm s := rfl
theorem exec_exit (c : Ctl) (s : State) : exec (.exit c) s = execExit c s := rfl
theorem exec_bkpt (c : Ctl) (code : BitVec 16) (s : State) : exec (.bkpt c code) s = execBkpt c code s := rfl
theorem exec_ballot (x : Alu1) (s : State) : exec (.ballot x) s = execBallot x s := rfl
theorem exec_census (f : CensusFn) (x : Alu1) (s : State) : exec (.census f x) s = execCensus f x s := rfl
theorem exec_same (f : SameFn) (x : Alu1) (s : State) : exec (.same f x) s = execSame f x s := rfl
theorem exec_shfl (f : ShflFn) (seg : BitVec 3) (x : Alu3) (s : State) : exec (.shfl f seg x) s = execShfl f seg x s := rfl
theorem exec_red (f : RedFn) (x : Alu1) (s : State) : exec (.red f x) s = execRed f x s := rfl
theorem exec_scan (f : RedFn) (excl : Bool) (x : Alu1) (s : State) : exec (.scan f excl x) s = execScan f excl x s := rfl
theorem exec_bcast (x : Alu2) (s : State) : exec (.bcast x) s = execBcast x s := rfl
theorem exec_fadd (x : Alu2) (s : State) : exec (.fadd x) s = execFadd x s := rfl
theorem exec_fsub (x : Alu2) (s : State) : exec (.fsub x) s = execFsub x s := rfl
theorem exec_fmul (x : Alu2) (s : State) : exec (.fmul x) s = execFmul x s := rfl
theorem exec_ffma (ftz : Bool) (x : Alu3) (s : State) : exec (.ffma ftz x) s = execFfma ftz x s := rfl
theorem exec_fmin (x : Alu2) (s : State) : exec (.fmin x) s = execFmin x s := rfl
theorem exec_fmax (x : Alu2) (s : State) : exec (.fmax x) s = execFmax x s := rfl
theorem exec_fset (cc : FCmp) (x : Alu2) (s : State) : exec (.fset cc x) s = execFset cc x s := rfl
theorem exec_fdiv (x : Alu2) (s : State) : exec (.fdiv x) s = execFdiv x s := rfl
theorem exec_fsqrt (x : Alu1) (s : State) : exec (.fsqrt x) s = execFsqrt x s := rfl
theorem exec_frcp (x : Alu1) (s : State) : exec (.frcp x) s = execFrcp x s := rfl
theorem exec_frsq (x : Alu1) (s : State) : exec (.frsq x) s = execFrsq x s := rfl
theorem exec_fexp2 (x : Alu1) (s : State) : exec (.fexp2 x) s = execFexp2 x s := rfl
theorem exec_flog2 (x : Alu1) (s : State) : exec (.flog2 x) s = execFlog2 x s := rfl
theorem exec_fsin (x : Alu1) (s : State) : exec (.fsin x) s = execFsin x s := rfl
theorem exec_fcos (x : Alu1) (s : State) : exec (.fcos x) s = execFcos x s := rfl
theorem exec_ftanh (x : Alu1) (s : State) : exec (.ftanh x) s = execFtanh x s := rfl
theorem exec_frnd (x : Alu1) (s : State) : exec (.frnd x) s = execFrnd x s := rfl
theorem exec_fdot (ftz : Bool) (x : Alu3) (s : State) : exec (.fdot ftz x) s = execFdot ftz x s := rfl
theorem exec_fact (f : ActFn) (x : Alu1) (s : State) : exec (.fact f x) s = execFact f x s := rfl
theorem exec_cvt (sat : Bool) (sty : Ty) (x : Alu1) (s : State) : exec (.cvt sat sty x) s = execCvt sat sty x s := rfl
theorem exec_bcvtPack (m : Bcvt) (x : Alu1) (s : State) : exec (.bcvtPack m x) s = execBcvtPack m x s := rfl
theorem exec_bcvtUnpack (m : Bcvt) (x : Alu2) (s : State) : exec (.bcvtUnpack m x) s = execBcvtUnpack m x s := rfl
theorem exec_ld (x : LoadOp) (s : State) : exec (.ld x) s = execLd x s := rfl
theorem exec_st (x : StoreOp) (s : State) : exec (.st x) s = execSt x s := rfl
theorem exec_ldu (x : LoadOp) (s : State) : exec (.ldu x) s = execLdu x s := rfl
theorem exec_ldx (x : LoadOp) (s : State) : exec (.ldx x) s = execLdx x s := rfl
theorem exec_stc (x : StoreOp) (s : State) : exec (.stc x) s = execStc x s := rfl
theorem exec_lr (x : LoadOp) (s : State) : exec (.lr x) s = execLr x s := rfl
theorem exec_sc (x : StoreOp) (s : State) : exec (.sc x) s = execSc x s := rfl
theorem exec_atom (x : AtomOp) (s : State) : exec (.atom x) s = execAtom x s := rfl
theorem exec_xst (x : XstOp) (s : State) : exec (.xst x) s = execXst x s := rfl
theorem exec_xatom (x : AtomOp) (s : State) : exec (.xatom x) s = execXatom x s := rfl
theorem exec_fenceAcq (c : Ctl) (sc : Scope) (s : State) : exec (.fenceAcq c sc) s = execFenceAcq c sc s := rfl
theorem exec_fenceRel (c : Ctl) (sc : Scope) (s : State) : exec (.fenceRel c sc) s = execFenceRel c sc s := rfl
theorem exec_fenceAr (c : Ctl) (sc : Scope) (s : State) : exec (.fenceAr c sc) s = execFenceAr c sc s := rfl
theorem exec_fenceSc (c : Ctl) (sc : Scope) (s : State) : exec (.fenceSc c sc) s = execFenceSc c sc s := rfl
theorem exec_fenceAck (c : Ctl) (s : State) : exec (.fenceAck c) s = execFenceAck c s := rfl
theorem exec_fenceTc (c : Ctl) (sc : Scope) (s : State) : exec (.fenceTc c sc) s = execFenceTc c sc s := rfl
theorem exec_cflushWb (c : Ctl) (a : Opnd) (disp : Word) (s : State) : exec (.cflushWb c a disp) s = execCflushWb c a disp s := rfl
theorem exec_cflushInv (c : Ctl) (a : Opnd) (disp : Word) (s : State) : exec (.cflushInv c a disp) s = execCflushInv c a disp s := rfl
theorem exec_cflushWbinv (c : Ctl) (a : Opnd) (disp : Word) (s : State) : exec (.cflushWbinv c a disp) s = execCflushWbinv c a disp s := rfl
theorem exec_pref (c : Ctl) (pol : BitVec 2) (a : Opnd) (disp : Word) (s : State) : exec (.pref c pol a disp) s = execPref c pol a disp s := rfl
theorem exec_barCfg (c : Ctl) (a b : Opnd) (imm : Word) (s : State) : exec (.barCfg c a b imm) s = execBarCfg c a b imm s := rfl
theorem exec_barArv (c : Ctl) (sc : Scope) (d a : Opnd) (imm : Word) (s : State) :
    exec (.barArv c sc d a imm) s = execBarArv c sc d a imm s := rfl
theorem exec_barWait (c : Ctl) (sc : Scope) (a b : Opnd) (imm : Word) (s : State) :
    exec (.barWait c sc a b imm) s = execBarWait c sc a b imm s := rfl
theorem exec_barSync (c : Ctl) (sc : Scope) (a : Opnd) (imm : Word) (s : State) : exec (.barSync c sc a imm) s = execBarSync c sc a imm s := rfl
theorem exec_barAdd (c : Ctl) (sc : Scope) (a b : Opnd) (imm : Word) (s : State) :
    exec (.barAdd c sc a b imm) s = execBarAdd c sc a b imm s := rfl
theorem exec_barTest (c : Ctl) (sc : Scope) (d a b : Opnd) (imm : Word) (s : State) :
    exec (.barTest c sc d a b imm) s = execBarTest c sc d a b imm s := rfl
theorem exec_tlWait (c : Ctl) (sc : Scope) (tl : Tl) (d a : Opnd) (imm : Word) (s : State) :
    exec (.tlWait c sc tl d a imm) s = execTlWait c sc tl d a imm s := rfl
theorem exec_tlRead (c : Ctl) (tl : Tl) (d : Opnd) (imm : Word) (s : State) : exec (.tlRead c tl d imm) s = execTlRead c tl d imm s := rfl
theorem exec_copy (e : Eng) (s : State) : exec (.copy e) s = execCopy e s := rfl
theorem exec_copyPl (t : BitVec 4) (e : Eng) (s : State) : exec (.copyPl t e) s = execCopyPl t e s := rfl
theorem exec_gather (e : Eng) (s : State) : exec (.gather e) s = execGather e s := rfl
theorem exec_scadd (e : Eng) (s : State) : exec (.scadd e) s = execScadd e s := rfl
theorem exec_sort (e : Eng) (s : State) : exec (.sort e) s = execSort e s := rfl
theorem exec_tcfg (c : Ctl) (wait : Bool) (d a : Opnd) (scaleoff : BitVec 20) (s : State) :
    exec (.tcfg c wait d a scaleoff) s = execTcfg c wait d a scaleoff s := rfl
theorem exec_trel (c : Ctl) (wait : Bool) (a : Opnd) (s : State) : exec (.trel c wait a) s = execTrel c wait a s := rfl
theorem exec_acfgTake (c : Ctl) (d a : Opnd) (s : State) : exec (.acfgTake c d a) s = execAcfgTake c d a s := rfl
theorem exec_acfgRel (c : Ctl) (a : Opnd) (s : State) : exec (.acfgRel c a) s = execAcfgRel c a s := rfl
theorem exec_peer (c : Ctl) (n : BitVec 3) (a b : Opnd) (s : State) : exec (.peer c n a b) s = execPeer c n a b s := rfl
theorem exec_mstart (c : Ctl) (a : Opnd) (s : State) : exec (.mstart c a) s = execMstart c a s := rfl
theorem exec_coll (e : Eng) (s : State) : exec (.coll e) s = execColl e s := rfl
theorem exec_mma (m : MmaOp) (s : State) : exec (.mma m) s = execMma m s := rfl
theorem exec_mzero (shape : Shape) (d : Opnd) (s : State) : exec (.mzero shape d) s = execMzero shape d s := rfl
theorem exec_mepi (shape : Shape) (a : Opnd) (desc : BitVec 19) (s : State) : exec (.mepi shape a desc) s = execMepi shape a desc s := rfl
theorem exec_mwait (sc : Scope) (pr : Bool) (ctr : BitVec 2) (a : Opnd) (phase : Word) (s : State) :
    exec (.mwait sc pr ctr a phase) s = execMwait sc pr ctr a phase s := rfl
theorem exec_marv (sc : Scope) (a : Opnd) (amount : Word) (s : State) : exec (.marv sc a amount) s = execMarv sc a amount s := rfl
theorem exec_mloop (ctr : BitVec 2) (limit : BitVec 12) (off : BitVec 20) (s : State) :
    exec (.mloop ctr limit off) s = execMloop ctr limit off s := rfl
theorem exec_mjmp (off : Word) (s : State) : exec (.mjmp off) s = execMjmp off s := rfl
theorem exec_mstop (s : State) : exec .mstop s = execMstop s := rfl
theorem exec_trap (c : Ctl) (code : BitVec 16) (s : State) : exec (.trap c code) s = execTrap c code s := rfl
theorem exec_rtt (c : Ctl) (s : State) : exec (.rtt c) s = execRtt c s := rfl
theorem exec_yield (c : Ctl) (s : State) : exec (.yield c) s = execYield c s := rfl
theorem exec_launch (c : Ctl) (a : Opnd) (s : State) : exec (.launch c a) s = execLaunch c a s := rfl
theorem exec_evqPost (c : Ctl) (a b : Opnd) (s : State) : exec (.evqPost c a b) s = execEvqPost c a b s := rfl
theorem exec_ctxFrz (c : Ctl) (a : Opnd) (s : State) : exec (.ctxFrz c a) s = execCtxFrz c a s := rfl
theorem exec_ctxSav (c : Ctl) (a b : Opnd) (s : State) : exec (.ctxSav c a b) s = execCtxSav c a b s := rfl
theorem exec_ctxLd (c : Ctl) (a b : Opnd) (s : State) : exec (.ctxLd c a b) s = execCtxLd c a b s := rfl
theorem exec_ctxRes (c : Ctl) (a : Opnd) (s : State) : exec (.ctxRes c a) s = execCtxRes c a s := rfl
theorem exec_xinv (c : Ctl) (a b : Opnd) (s : State) : exec (.xinv c a b) s = execXinv c a b s := rfl
theorem exec_bufset (c : Ctl) (a b : Opnd) (s : State) : exec (.bufset c a b) s = execBufset c a b s := rfl
theorem exec_eread (c : Ctl) (d : Opnd) (s : State) : exec (.eread c d) s = execEread c d s := rfl
theorem exec_halt (c : Ctl) (s : State) : exec (.halt c) s = execHalt c s := rfl
theorem exec_loadResponse (k : Nat) (s : State) : exec (.loadResponse k) s = execLoadResponse k s := rfl
theorem exec_lineFill (g r : Nat) (s : State) : exec (.lineFill g r) s = execLineFill g r s := rfl
theorem exec_impreciseFaultTaken (g r : Nat) (s : State) : exec (.impreciseFaultTaken g r) s = execImpreciseFaultTaken g r s := rfl
theorem exec_laneChoice (core lane : Nat) (s : State) : exec (.laneChoice core lane) s = execLaneChoice core lane s := rfl
theorem exec_staticEnergyBoundary (s : State) : exec .staticEnergyBoundary s = execStaticEnergyBoundary s := rfl
theorem exec_homeRequest (k : Nat) (s : State) : exec (.homeRequest k) s = execHomeRequest k s := rfl
theorem exec_engineCommandStart (e : EngineId) (s : State) : exec (.engineCommandStart e) s = execEngineCommandStart e s := rfl
theorem exec_engineAccessFault (k : Nat) (s : State) : exec (.engineAccessFault k) s = execEngineAccessFault k s := rfl
theorem exec_commandComplete (k : Nat) (s : State) : exec (.commandComplete k) s = execCommandComplete k s := rfl
theorem exec_reducerAdd (k : Nat) (s : State) : exec (.reducerAdd k) s = execReducerAdd k s := rfl
theorem exec_mmaKblockWrite (g k : Nat) (s : State) : exec (.mmaKblockWrite g k) s = execMmaKblockWrite g k s := rfl
theorem exec_mepiRowRetire (g k : Nat) (s : State) : exec (.mepiRowRetire g k) s = execMepiRowRetire g k s := rfl
theorem exec_launchWindowWrite (q : Nat) (data : List Byte) (s : State) :
    exec (.launchWindowWrite q data) s = execLaunchWindowWrite q data s := rfl
theorem exec_launchFrame (f : LaunchFrame) (s : State) : exec (.launchFrame f) s = execLaunchFrame f s := rfl
theorem exec_dispatchRound (s : State) : exec .dispatchRound s = execDispatchRound s := rfl
theorem exec_roomHold (q : Nat) (s : State) : exec (.roomHold q) s = execRoomHold q s := rfl
theorem exec_queueTableWrite (st : PcbStore) (s : State) : exec (.queueTableWrite st) s = execQueueTableWrite st s := rfl
theorem exec_contextTableWrite (st : PcbStore) (s : State) : exec (.contextTableWrite st) s = execContextTableWrite st s := rfl
theorem exec_hostContextTableWrite (st : PcbStore) (s : State) : exec (.hostContextTableWrite st) s = execHostContextTableWrite st s := rfl
theorem exec_hevqWrite (st : PcbStore) (s : State) : exec (.hevqWrite st) s = execHevqWrite st s := rfl
theorem exec_ctxStepWindowFrz (st : PcbStore) (s : State) : exec (.ctxStepWindowFrz st) s = execCtxStepWindowFrz st s := rfl
theorem exec_ctxStepWindowSav (st : PcbStore) (s : State) : exec (.ctxStepWindowSav st) s = execCtxStepWindowSav st s := rfl
theorem exec_ctxStepWindowLd (st : PcbStore) (s : State) : exec (.ctxStepWindowLd st) s = execCtxStepWindowLd st s := rfl
theorem exec_ctxStepWindowRes (st : PcbStore) (s : State) : exec (.ctxStepWindowRes st) s = execCtxStepWindowRes st s := rfl
theorem exec_ctxStepComplete (k : Nat) (s : State) : exec (.ctxStepComplete k) s = execCtxStepComplete k s := rfl
theorem exec_yieldTrap (g : Nat) (s : State) : exec (.yieldTrap g) s = execYieldTrap g s := rfl
theorem exec_yieldDeadline (ctx : Nat) (s : State) : exec (.yieldDeadline ctx) s = execYieldDeadline ctx s := rfl
theorem exec_write (p : Packet) (s : State) : exec (.write p) s = execWrite p s := rfl
theorem exec_atomicReturning (p : Packet) (s : State) : exec (.atomicReturning p) s = execAtomicReturning p s := rfl
theorem exec_atomicNotReturning (p : Packet) (s : State) : exec (.atomicNotReturning p) s = execAtomicNotReturning p s := rfl
theorem exec_readRequest (p : Packet) (s : State) : exec (.readRequest p) s = execReadRequest p s := rfl
theorem exec_readResponse (p : Packet) (s : State) : exec (.readResponse p) s = execReadResponse p s := rfl
theorem exec_acknowledgement (p : Packet) (s : State) : exec (.acknowledgement p) s = execAcknowledgement p s := rfl
theorem exec_refusal (p : Packet) (s : State) : exec (.refusal p) s = execRefusal p s := rfl
theorem exec_peerPut (p : Packet) (s : State) : exec (.peerPut p) s = execPeerPut p s := rfl
theorem exec_peerAdd (p : Packet) (s : State) : exec (.peerAdd p) s = execPeerAdd p s := rfl
theorem exec_reductionContribution (p : Packet) (s : State) : exec (.reductionContribution p) s = execReductionContribution p s := rfl
theorem exec_reductionResult (p : Packet) (s : State) : exec (.reductionResult p) s = execReductionResult p s := rfl
theorem exec_slotRequest (r : SlotReq) (s : State) : exec (.slotRequest r) s = execSlotRequest r s := rfl
theorem exec_readShared (p : Packet) (s : State) : exec (.readShared p) s = execReadShared p s := rfl
theorem exec_readOwn (p : Packet) (s : State) : exec (.readOwn p) s = execReadOwn p s := rfl
theorem exec_upgrade (p : Packet) (s : State) : exec (.upgrade p) s = execUpgrade p s := rfl
theorem exec_writeBack (p : Packet) (s : State) : exec (.writeBack p) s = execWriteBack p s := rfl
theorem exec_invalidate (p : Packet) (s : State) : exec (.invalidate p) s = execInvalidate p s := rfl
theorem exec_lineData (p : Packet) (s : State) : exec (.lineData p) s = execLineData p s := rfl
theorem exec_mirrorWrite (p : Packet) (s : State) : exec (.mirrorWrite p) s = execMirrorWrite p s := rfl
theorem exec_mirrorAcknowledgement (p : Packet) (s : State) : exec (.mirrorAcknowledgement p) s = execMirrorAcknowledgement p s := rfl
theorem exec_homeChange (p : Packet) (s : State) : exec (.homeChange p) s = execHomeChange p s := rfl
theorem exec_launchPacket (p : Packet) (s : State) : exec (.launchPacket p) s = execLaunchPacket p s := rfl
theorem exec_flitReceive (port : Nat) (f : Flit) (s : State) : exec (.flitReceive port f) s = execFlitReceive port f s := rfl
theorem exec_linkReplayRequest (port : Nat) (lseq : BitVec 32) (s : State) :
    exec (.linkReplayRequest port lseq) s = execLinkReplayRequest port lseq s := rfl
theorem exec_portLockNotice (port : Nat) (pkg : BitVec 12) (s : State) : exec (.portLockNotice port pkg) s = execPortLockNotice port pkg s := rfl
theorem exec_resetNotice (src sctx : BitVec 12) (s : State) : exec (.resetNotice src sctx) s = execResetNotice src sctx s := rfl
theorem exec_ordRetryResend (k : Nat) (s : State) : exec (.ordRetryResend k) s = execOrdRetryResend k s := rfl
theorem exec_peerRetryResend (k : Nat) (s : State) : exec (.peerRetryResend k) s = execPeerRetryResend k s := rfl
theorem exec_tableLoad (t : TableLoad) (s : State) : exec (.tableLoad t) s = execTableLoad t s := rfl
theorem exec_heartbeat (s : State) : exec .heartbeat s = execHeartbeat s := rfl
theorem exec_lossAnnouncement (pkg : BitVec 12) (s : State) : exec (.lossAnnouncement pkg) s = execLossAnnouncement pkg s := rfl
theorem exec_mirrorTakeover (region : Nat) (s : State) : exec (.mirrorTakeover region) s = execMirrorTakeover region s := rfl
theorem exec_mirrorNamed (region : Nat) (mirror : MirrorOffer) (s : State) :
    exec (.mirrorNamed region mirror) s = execMirrorNamed region mirror s := rfl
theorem exec_zeroingComplete (k : Nat) (s : State) : exec (.zeroingComplete k) s = execZeroingComplete k s := rfl
theorem exec_patrolScrub (chan row : Nat) (found : ScrubResult) (s : State) :
    exec (.patrolScrub chan row found) s = execPatrolScrub chan row found s := rfl
theorem exec_refresh (chan row : Nat) (s : State) : exec (.refresh chan row) s = execRefresh chan row s := rfl
theorem exec_layerRetireProceed (stack layer : Nat) (s : State) :
    exec (.layerRetireProceed stack layer) s = execLayerRetireProceed stack layer s := rfl
theorem exec_layoutPrepare (h : HostCmd) (s : State) : exec (.layoutPrepare h) s = execLayoutPrepare h s := rfl
theorem exec_layoutActivate (h : HostCmd) (s : State) : exec (.layoutActivate h) s = execLayoutActivate h s := rfl
theorem exec_layoutRead (h : HostCmd) (s : State) : exec (.layoutRead h) s = execLayoutRead h s := rfl
theorem exec_mpRestart (s : State) : exec .mpRestart s = execMpRestart s := rfl
theorem exec_bearoff (h : HostCmd) (s : State) : exec (.bearoff h) s = execBearoff h s := rfl
theorem exec_bearoffEvaluation (s : State) : exec .bearoffEvaluation s = execBearoffEvaluation s := rfl
theorem exec_bearoffComparator (s : State) : exec .bearoffComparator s = execBearoffComparator s := rfl
theorem exec_bearoffDeadline (reqid : BitVec 32) (s : State) : exec (.bearoffDeadline reqid) s = execBearoffDeadline reqid s := rfl
theorem exec_bearoffComplete (reqid : BitVec 32) (s : State) : exec (.bearoffComplete reqid) s = execBearoffComplete reqid s := rfl
theorem exec_ckpt (h : HostCmd) (s : State) : exec (.ckpt h) s = execCkpt h s := rfl
theorem exec_partnerDeltaStream (part : Nat) (s : State) : exec (.partnerDeltaStream part) s = execPartnerDeltaStream part s := rfl
theorem exec_pair (h : HostCmd) (s : State) : exec (.pair h) s = execPair h s := rfl
theorem exec_restore (h : HostCmd) (s : State) : exec (.restore h) s = execRestore h s := rfl
theorem exec_keySet (h : HostCmd) (s : State) : exec (.keySet h) s = execKeySet h s := rfl
theorem exec_launchtabSet (h : HostCmd) (s : State) : exec (.launchtabSet h) s = execLaunchtabSet h s := rfl
theorem exec_journalRead (h : HostCmd) (s : State) : exec (.journalRead h) s = execJournalRead h s := rfl
theorem exec_routeRead (h : HostCmd) (s : State) : exec (.routeRead h) s = execRouteRead h s := rfl
theorem exec_slotRead (h : HostCmd) (s : State) : exec (.slotRead h) s = execSlotRead h s := rfl
theorem exec_retire (h : HostCmd) (s : State) : exec (.retire h) s = execRetire h s := rfl
theorem exec_attestationRequest (bytes : List Byte) (opens : Bool) (s : State) :
    exec (.attestationRequest bytes opens) s = execAttestationRequest bytes opens s := rfl
theorem exec_powerGood (us : Nat) (outcomes : List BootOutcome) (s : State) :
    exec (.powerGood us outcomes) s = execPowerGood us outcomes s := rfl
theorem exec_clockStepDown (drawMw : Nat) (s : State) : exec (.clockStepDown drawMw) s = execClockStepDown drawMw s := rfl
theorem exec_clockStepUp (drawMw : Nat) (s : State) : exec (.clockStepUp drawMw) s = execClockStepUp drawMw s := rfl
theorem exec_thermalTrip (dieTemps : List Nat) (s : State) : exec (.thermalTrip dieTemps) s = execThermalTrip dieTemps s := rfl
theorem exec_thermalResume (dieTemps : List Nat) (s : State) : exec (.thermalResume dieTemps) s = execThermalResume dieTemps s := rfl
theorem exec_conflictingWriteHoldExpiry (granule : Nat) (s : State) :
    exec (.conflictingWriteHoldExpiry granule) s = execConflictingWriteHoldExpiry granule s := rfl
theorem exec_regionCopyComplete (region : Nat) (s : State) : exec (.regionCopyComplete region) s = execRegionCopyComplete region s := rfl

end Sys2Proof.Laws
end

section
/-! SUPPORT. What the wrappers of exec's arms hold fast: every word leaves the platform and, BUFSET apart, the tables (R394); every event
leaves the clock and the commit word, those apart that management has for them (R376, R398). -/

open Sys2Proof Sys2Proof.Machine

namespace Sys2Proof.Laws

/-! ### The platform and the tables -/

/-- Where o goes on, it goes on with the platform and the tables of s. -/
def KeepsTables (s : State) (o : Out) : Prop := ∀ t, o = .next t → t.plat = s.plat ∧ t.tabs = s.tabs

/-- Where o goes on, it goes on with the platform of s. -/
def KeepsPlat (s : State) (o : Out) : Prop := ∀ t, o = .next t → t.plat = s.plat

theorem keepsPlat_of_tables {s : State} {o : Out} (h : KeepsTables s o) : KeepsPlat s o := fun t ht => (h t ht).1

theorem keepsTables_asRank {i : Instr} {c : Ctl} {effect : Iss → State → State} {s : State} : KeepsTables s (asRank i c effect s) := by
  intro t h
  unfold asRank at h
  split at h
  · cases h
  · split at h <;> (cases h; exact ⟨rfl, rfl⟩)

theorem keepsTables_asSeq {effect : Nat → Group → Ctx → State → State} {s : State} : KeepsTables s (asSeq effect s) := by
  intro t h
  unfold asSeq at h
  split at h
  · cases h
  · cases h; exact ⟨rfl, rfl⟩

theorem keepsTables_held {s : State} {o : Out} : KeepsTables s (held s o) := by
  rintro t h
  cases o with
  | next t' => cases h; exact ⟨rfl, rfl⟩
  | fault f => cases h
  | refused r => cases h

theorem keepsPlat_heldPlat {s : State} {o : Out} : KeepsPlat s (heldPlat s o) := by
  rintro t h
  cases o with
  | next t' => cases h; rfl
  | fault f => cases h
  | refused r => cases h

theorem keepsTables_sysWord {i : Instr} {c : Ctl} {effect : IWord → Iss → State → State} {s : State} :
    KeepsTables s (sysWord i c effect s) := keepsTables_asRank

theorem keepsTables_blockRead {i : Instr} {c : Ctl} {a b : Iss → State → Long} {s : State} :
    KeepsTables s (blockRead i c a b s) := keepsTables_sysWord

theorem keepsTables_nop (c : Ctl) (s : State) : KeepsTables s (execNop c s) := by
  unfold execNop
  split
  · exact keepsTables_asSeq
  · exact keepsTables_asRank

theorem keepsTables_illegalOpcode (w : IWord) (s : State) : KeepsTables s (execIllegalOpcode w s) := by
  unfold execIllegalOpcode
  split
  · exact keepsTables_asSeq
  · split
    · intro t h; cases h
    · rintro t h; cases h; exact ⟨rfl, rfl⟩

theorem keepsTables_extensionOpcode (w : IWord) (s : State) : KeepsTables s (execExtensionOpcode w s) := by
  unfold execExtensionOpcode
  split
  · exact keepsTables_asSeq
  · split
    · intro t h; cases h
    · split <;> (rintro t h; cases h; exact ⟨rfl, rfl⟩)

/-- R394: BUFSET writes the buffer table and leaves the platform. -/
theorem keepsPlat_bufset (c : Ctl) (a b : Opnd) (s : State) : KeepsPlat s (execBufset c a b s) := by
  intro t h
  have hread : KeepsTables s (blockRead (.bufset c a b) c (wreg a) (wreg b) s) := keepsTables_blockRead
  unfold execBufset at h
  split at h
  · cases h
  · generalize blockRead (.bufset c a b) c (wreg a) (wreg b) s = o at h hread
    cases o with
    | next t' =>
      dsimp only at h
      split at h <;> (cases h; exact (hread _ rfl).1)
    | fault f => cases h
    | refused r => cases h

theorem keepsTables_compute {i : Instr} {c : Ctl} {ty : Ty} {d : Opnd} {f : Nat → Iss → Nat → Nat} {s : State} :
    KeepsTables s (compute i c ty d f s) := keepsTables_asRank

theorem keepsTables_memIssue {i : Instr} {m : MemOp} {s : State} : KeepsTables s (memIssue i m s) := keepsTables_asRank

theorem keepsTables_barForm {i : Instr} {c : Ctl} {a : Opnd} {effect : Iss → Bar → State → State} {s : State} :
    KeepsTables s (barForm i c a effect s) := keepsTables_asRank

theorem keepsTables_ctxWord {i : Instr} {c : Ctl} {kind : Nat} {a : Opnd} {b : Option Opnd} {s : State} :
    KeepsTables s (ctxWord i c kind a b s) := keepsTables_sysWord

/-- R394: no word but BUFSET changes the tables or the platform. -/
theorem keepsTables_word {i : Instr} (hf : fieldsOf i ≠ none) (hb : ∀ c a b, i ≠ .bufset c a b) (s : State) : KeepsTables s (exec i s) := by
  cases i
  case nop c => exact keepsTables_nop c s
  case illegalOpcode w => exact keepsTables_illegalOpcode w s
  case extensionOpcode w => exact keepsTables_extensionOpcode w s
  case bufset c a b => exact absurd rfl (hb c a b)
  case launch c a => rw [exec_launch, execLaunch]; exact keepsTables_blockRead
  case iadd sat x => rw [exec_iadd, execIadd, intOp2]; exact keepsTables_compute
  case isub sat x => rw [exec_isub, execIsub, intOp2]; exact keepsTables_compute
  case imin x => rw [exec_imin, execImin, intOp2]; exact keepsTables_compute
  case imax x => rw [exec_imax, execImax, intOp2]; exact keepsTables_compute
  case imul f x => rw [exec_imul, execImul]; exact keepsTables_compute
  case imad f x => rw [exec_imad, execImad]; exact keepsTables_compute
  case iset cc x => rw [exec_iset, execIset]; exact keepsTables_compute
  case idot sat x => rw [exec_idot, execIdot]; exact keepsTables_compute
  case lut tab x => rw [exec_lut, execLut]; exact keepsTables_compute
  case shf right x => rw [exec_shf, execShf]; exact keepsTables_compute
  case bfx sx x => rw [exec_bfx, execBfx]; exact keepsTables_compute
  case bfi x => rw [exec_bfi, execBfi]; exact keepsTables_compute
  case bmix x => rw [exec_bmix, execBmix]; exact keepsTables_compute
  case mov x => rw [exec_mov, execMov]; exact keepsTables_compute
  case sel x => rw [exec_sel, execSel]; exact keepsTables_compute
  case pset f x => rw [exec_pset, execPset]; exact keepsTables_compute
  case pmovPack c d => rw [exec_pmovPack, execPmovPack]; exact keepsTables_compute
  case ptrAdd c d a b imm => rw [exec_ptrAdd, execPtrAdd]; exact keepsTables_compute
  case ptrChk c d a b imm => rw [exec_ptrChk, execPtrChk]; exact keepsTables_compute
  case ballot x => rw [exec_ballot, execBallot]; exact keepsTables_compute
  case census f x => rw [exec_census, execCensus]; exact keepsTables_compute
  case same f x => rw [exec_same, execSame]; exact keepsTables_compute
  case shfl f seg x => rw [exec_shfl, execShfl]; exact keepsTables_compute
  case red f x => rw [exec_red, execRed]; exact keepsTables_compute
  case scan f excl x => rw [exec_scan, execScan]; exact keepsTables_compute
  case bcast x => rw [exec_bcast, execBcast]; exact keepsTables_compute
  case ffma ftz x => rw [exec_ffma, execFfma]; exact keepsTables_compute
  case fset cc x => rw [exec_fset, execFset]; exact keepsTables_compute
  case fdot ftz x => rw [exec_fdot, execFdot]; exact keepsTables_compute
  case cvt sat sty x => rw [exec_cvt, execCvt]; exact keepsTables_compute
  case bcvtUnpack m x => rw [exec_bcvtUnpack, execBcvtUnpack]; exact keepsTables_compute
  case idiv rem x => rw [exec_idiv, execIdiv]; exact keepsTables_compute
  case fsign f x => rw [exec_fsign, execFsign]; exact keepsTables_compute
  case fclass x => rw [exec_fclass, execFclass]; exact keepsTables_compute
  case iabs sat x => rw [exec_iabs, execIabs, intOp1]; exact keepsTables_compute
  case ineg sat x => rw [exec_ineg, execIneg, intOp1]; exact keepsTables_compute
  case and inv x => rw [exec_and, execAnd, bitOp2]; exact keepsTables_compute
  case or inv x => rw [exec_or, execOr, bitOp2]; exact keepsTables_compute
  case xor x => rw [exec_xor, execXor, bitOp2]; exact keepsTables_compute
  case not x => rw [exec_not, execNot, bitOp1]; exact keepsTables_compute
  case popc x => rw [exec_popc, execPopc, bitOp1]; exact keepsTables_compute
  case clz x => rw [exec_clz, execClz, bitOp1]; exact keepsTables_compute
  case ctz x => rw [exec_ctz, execCtz, bitOp1]; exact keepsTables_compute
  case brev x => rw [exec_brev, execBrev, bitOp1]; exact keepsTables_compute
  case shl x => rw [exec_shl, execShl, shiftOp]; exact keepsTables_compute
  case shr arith x => rw [exec_shr, execShr, shiftOp]; exact keepsTables_compute
  case rot right x => rw [exec_rot, execRot, shiftOp]; exact keepsTables_compute
  case pmovUnpack c a => show KeepsTables s (execPmovUnpack c a s); unfold execPmovUnpack; exact keepsTables_asRank
  case ret c => show KeepsTables s (execRet c s); unfold execRet; exact keepsTables_asRank
  case join c d => show KeepsTables s (execJoin c d s); unfold execJoin; exact keepsTables_asRank
  case wait c a b imm => show KeepsTables s (execWait c a b imm s); unfold execWait; exact keepsTables_asRank
  case jset c d a imm => show KeepsTables s (execJset c d a imm s); unfold execJset; exact keepsTables_asRank
  case exit c => show KeepsTables s (execExit c s); unfold execExit; exact keepsTables_asRank
  case bcvtPack m x => show KeepsTables s (execBcvtPack m x s); unfold execBcvtPack; exact keepsTables_asRank
  case fenceAcq c sc => show KeepsTables s (execFenceAcq c sc s); unfold execFenceAcq; exact keepsTables_asRank
  case fenceRel c sc => show KeepsTables s (execFenceRel c sc s); unfold execFenceRel; exact keepsTables_asRank
  case fenceAr c sc => show KeepsTables s (execFenceAr c sc s); unfold execFenceAr; exact keepsTables_asRank
  case fenceSc c sc => show KeepsTables s (execFenceSc c sc s); unfold execFenceSc; exact keepsTables_asRank
  case fenceAck c => show KeepsTables s (execFenceAck c s); unfold execFenceAck; exact keepsTables_asRank
  case fenceTc c sc => show KeepsTables s (execFenceTc c sc s); unfold execFenceTc; exact keepsTables_asRank
  case pref c pol a disp => show KeepsTables s (execPref c pol a disp s); unfold execPref; exact keepsTables_asRank
  case barCfg c a b imm => show KeepsTables s (execBarCfg c a b imm s); unfold execBarCfg; exact keepsTables_asRank
  case tlRead c tl d imm => show KeepsTables s (execTlRead c tl d imm s); unfold execTlRead; exact keepsTables_asRank
  case acfgTake c d a => show KeepsTables s (execAcfgTake c d a s); unfold execAcfgTake; exact keepsTables_asRank
  case acfgRel c a => show KeepsTables s (execAcfgRel c a s); unfold execAcfgRel; exact keepsTables_asRank
  case peer c n a b => show KeepsTables s (execPeer c n a b s); unfold execPeer; exact keepsTables_asRank
  case mstart c a => show KeepsTables s (execMstart c a s); unfold execMstart; exact keepsTables_asRank
  case rtt c => show KeepsTables s (execRtt c s); unfold execRtt; exact keepsTables_asRank
  case bra c imm => rw [exec_bra, execBra, transfer]; exact keepsTables_asRank
  case brx c a => rw [exec_brx, execBrx, transfer]; exact keepsTables_asRank
  case call c imm => rw [exec_call, execCall, transfer]; exact keepsTables_asRank
  case callx c a => rw [exec_callx, execCallx, transfer]; exact keepsTables_asRank
  case bkpt c code => rw [exec_bkpt, execBkpt, trapWord]; exact keepsTables_asRank
  case trap c code => rw [exec_trap, execTrap, trapWord]; exact keepsTables_asRank
  case fadd x => rw [exec_fadd, execFadd, fpOp2]; exact keepsTables_compute
  case fsub x => rw [exec_fsub, execFsub, fpOp2]; exact keepsTables_compute
  case fmul x => rw [exec_fmul, execFmul, fpOp2]; exact keepsTables_compute
  case fdiv x => rw [exec_fdiv, execFdiv, fpOp2]; exact keepsTables_compute
  case fmin x => rw [exec_fmin, execFmin, minmaxOp]; exact keepsTables_compute
  case fmax x => rw [exec_fmax, execFmax, minmaxOp]; exact keepsTables_compute
  case fsqrt x => rw [exec_fsqrt, execFsqrt, fpOp1]; exact keepsTables_compute
  case frcp x => rw [exec_frcp, execFrcp, fpOp1]; exact keepsTables_compute
  case frsq x => rw [exec_frsq, execFrsq, fpOp1]; exact keepsTables_compute
  case fexp2 x => rw [exec_fexp2, execFexp2, fpOp1]; exact keepsTables_compute
  case flog2 x => rw [exec_flog2, execFlog2, fpOp1]; exact keepsTables_compute
  case fsin x => rw [exec_fsin, execFsin, fpOp1]; exact keepsTables_compute
  case fcos x => rw [exec_fcos, execFcos, fpOp1]; exact keepsTables_compute
  case ftanh x => rw [exec_ftanh, execFtanh, fpOp1]; exact keepsTables_compute
  case frnd x => rw [exec_frnd, execFrnd, fpOp1]; exact keepsTables_compute
  case fact f x => rw [exec_fact, execFact, fpOp1]; exact keepsTables_compute
  case ld x => rw [exec_ld, execLd]; exact keepsTables_memIssue
  case st x => rw [exec_st, execSt]; exact keepsTables_memIssue
  case ldu x => rw [exec_ldu, execLdu]; exact keepsTables_memIssue
  case ldx x => rw [exec_ldx, execLdx]; exact keepsTables_memIssue
  case stc x => rw [exec_stc, execStc]; exact keepsTables_memIssue
  case lr x => rw [exec_lr, execLr]; exact keepsTables_memIssue
  case sc x => rw [exec_sc, execSc]; exact keepsTables_memIssue
  case atom x => rw [exec_atom, execAtom]; exact keepsTables_memIssue
  case xst x => rw [exec_xst, execXst]; exact keepsTables_memIssue
  case xatom x => rw [exec_xatom, execXatom]; exact keepsTables_memIssue
  case cflushWb c a disp => rw [exec_cflushWb, execCflushWb, cflush]; exact keepsTables_asRank
  case cflushInv c a disp => rw [exec_cflushInv, execCflushInv, cflush]; exact keepsTables_asRank
  case cflushWbinv c a disp => rw [exec_cflushWbinv, execCflushWbinv, cflush]; exact keepsTables_asRank
  case barSync c sc a imm => rw [exec_barSync, execBarSync]; exact keepsTables_barForm
  case copy e => rw [exec_copy, execCopy, engineWord]; exact keepsTables_asRank
  case copyPl t e => rw [exec_copyPl, execCopyPl, engineWord]; exact keepsTables_asRank
  case gather e => rw [exec_gather, execGather, engineWord]; exact keepsTables_asRank
  case scadd e => rw [exec_scadd, execScadd, engineWord]; exact keepsTables_asRank
  case sort e => rw [exec_sort, execSort, engineWord]; exact keepsTables_asRank
  case coll e => rw [exec_coll, execColl, engineWord]; exact keepsTables_asRank
  case trel c wait a => rw [exec_trel, execTrel, tileWord]; exact keepsTables_asRank
  case yield c => rw [exec_yield, execYield]; exact keepsTables_sysWord
  case evqPost c a b => rw [exec_evqPost, execEvqPost]; exact keepsTables_sysWord
  case xinv c a b => rw [exec_xinv, execXinv]; exact keepsTables_sysWord
  case eread c d => rw [exec_eread, execEread]; exact keepsTables_sysWord
  case halt c => rw [exec_halt, execHalt]; exact keepsTables_sysWord
  case srd c d num idx => rw [exec_srd, execSrd]; exact keepsTables_sysWord
  case swr c a num idx => rw [exec_swr, execSwr]; exact keepsTables_sysWord
  case ctxFrz c a => rw [exec_ctxFrz, execCtxFrz]; exact keepsTables_ctxWord
  case ctxSav c a b => rw [exec_ctxSav, execCtxSav]; exact keepsTables_ctxWord
  case ctxLd c a b => rw [exec_ctxLd, execCtxLd]; exact keepsTables_ctxWord
  case ctxRes c a => rw [exec_ctxRes, execCtxRes]; exact keepsTables_ctxWord
  case mma m => show KeepsTables s (execMma m s); unfold execMma; exact keepsTables_asSeq
  case mzero sh d => show KeepsTables s (execMzero sh d s); unfold execMzero; exact keepsTables_asSeq
  case mepi sh a d => show KeepsTables s (execMepi sh a d s); unfold execMepi; exact keepsTables_asSeq
  case mwait sc pr n a p => show KeepsTables s (execMwait sc pr n a p s); unfold execMwait; exact keepsTables_asSeq
  case marv sc a n => show KeepsTables s (execMarv sc a n s); unfold execMarv; exact keepsTables_asSeq
  case mloop n l o => show KeepsTables s (execMloop n l o s); unfold execMloop; exact keepsTables_asSeq
  case mjmp o => show KeepsTables s (execMjmp o s); unfold execMjmp; exact keepsTables_asSeq
  case mstop => show KeepsTables s (execMstop s); unfold execMstop; exact keepsTables_asSeq
  case lea c sh zx d a b x => rw [exec_lea, execLea]; exact keepsTables_compute
  case ptrMk c sp d a b x => rw [exec_ptrMk, execPtrMk]; exact keepsTables_compute
  case barArv c sc d a x => rw [exec_barArv, execBarArv]; exact keepsTables_barForm
  case barWait c sc a b x => rw [exec_barWait, execBarWait]; exact keepsTables_barForm
  case barAdd c sc a b x => rw [exec_barAdd, execBarAdd]; exact keepsTables_barForm
  case barTest c sc d a b x => rw [exec_barTest, execBarTest]; exact keepsTables_barForm
  case tlWait c sc tl d a x => rw [exec_tlWait, execTlWait]; exact keepsTables_asRank
  case tcfg c wt d a x => rw [exec_tcfg, execTcfg, tileWord]; exact keepsTables_asRank
  all_goals exact absurd rfl hf

theorem keepsPlat_word {i : Instr} (hf : fieldsOf i ≠ none) (s : State) : KeepsPlat s (exec i s) := by
  by_cases hb : ∃ c a b, i = .bufset c a b
  · obtain ⟨c, a, b, rfl⟩ := hb
    exact keepsPlat_bufset c a b s
  · push Not at hb
    exact keepsPlat_of_tables (keepsTables_word hf hb s)

/-- Settles O7: every arm of a word but BUFSET's is a rank's or a sequencer's pass, which puts the platform and the tables back. -/
theorem wordsKeepTables : Obligations.WordsKeepTables := fun _ s t hf ht =>
  ⟨keepsPlat_word hf s t ht, fun hb => (keepsTables_word hf hb s t ht).2⟩

end Sys2Proof.Laws
end

section
/-! SUPPORT. The arithmetic clock and the commit word through every arm of exec and every act of step (R376, R398): most arms put
them back (`held`, `heldPlat`, `heldBase`), and what is left are the management processor's own steps. -/

open Sys2Proof Sys2Proof.Machine

namespace Sys2Proof.Laws

/-- Where o goes on from a settled state, it goes on settled. -/
def KeepsSettled (s : State) (o : Out) : Prop := Settled s → ∀ t, o = .next t → Settled t

theorem settled_congr {s t : State} (hs : Settled s) (ha : t.plat.aclk = s.plat.aclk) (hc : t.plat.commit = s.plat.commit) : Settled t :=
  ⟨by rw [ha]; exact hs.low, by rw [ha]; exact hs.high, by rw [ha]; exact hs.step, by rw [hc]; exact hs.commit⟩

theorem settled_plat {s t : State} (hs : Settled s) (h : t.plat = s.plat) : Settled t := settled_congr hs (by rw [h]) (by rw [h])

theorem settled_commit {s t : State} (hs : Settled s) (ha : t.plat.aclk = s.plat.aclk) (hc : t.plat.commit.toNat < 8) : Settled t :=
  ⟨by rw [ha]; exact hs.low, by rw [ha]; exact hs.high, by rw [ha]; exact hs.step, hc⟩

theorem settled_modPlat {f : Plat → Plat} {s : State} (hs : Settled s) (ha : (f s.plat).aclk = s.plat.aclk)
    (hc : (f s.plat).commit = s.plat.commit) : Settled (modPlat f s) := settled_congr hs ha hc

theorem settled_foldl {α : Type} {f : State → α → State} (h : ∀ s a, Settled s → Settled (f s a)) (l : List α) :
    ∀ {s : State}, Settled s → Settled (l.foldl f s) := by
  induction l with
  | nil => exact fun hs => hs
  | cons a l ih => exact fun hs => ih (h _ a hs)

/-! ### The management processor's operations -/

/-- Bit 2 of a commit word with a state below 4 in its low bits leaves the reserved bits zero. -/
theorem commitWord_lt (c : BitVec 32) {st : Nat} (h : st < 4) : ((c &&& 4) ||| BitVec.ofNat 32 st).toNat < 8 := by
  rw [BitVec.toNat_or, BitVec.toNat_and]
  refine Nat.or_lt_two_pow (n := 3) ?_ ?_
  · exact Nat.lt_of_le_of_lt Nat.and_le_right (by decide)
  · rw [BitVec.toNat_ofNat]; omega

theorem settled_setCommit {st : Nat} (h : st < 4) {s : State} (hs : Settled s) : Settled (setCommit st s) :=
  settled_commit hs (by rw [setCommit, modPlat_plat]) (by rw [setCommit, modPlat_plat]; exact commitWord_lt _ h)

theorem settled_flipActive {s : State} (hs : Settled s) : Settled (flipActive s) :=
  settled_commit hs (by rw [flipActive, modPlat_plat]) (by rw [flipActive, modPlat_plat]; exact commitWord_lt _ (by decide : 2 < 4))

theorem settled_journalAdd {r : JRec} {s : State} (hs : Settled s) : Settled (journalAdd r s) := by
  unfold journalAdd
  exact settled_modPlat hs rfl rfl

theorem settled_journalCommit {n r : Nat} {s : State} (hs : Settled s) : Settled (journalCommit n r s) := settled_journalAdd hs

theorem settled_respondTo {h : HostCmd} {st : BitVec 16} {b : List Byte} {s : State} (hs : Settled s) : Settled (respondTo h st b s) :=
  settled_congr hs rfl rfl

theorem settled_mgmtPost {r : Record} {s : State} (hs : Settled s) : Settled (mgmtPost r s) := settled_plat hs (aside_postHost _ s).plat

theorem settled_settleCmd {h : HostCmd} {st : BitVec 16} {n : Nat} {s : State} (hs : Settled s) : Settled (settleCmd h st n s) :=
  settled_mgmtPost (settled_respondTo hs)

theorem settled_setShadow {l : Sparse PartRec} {s : State} (hs : Settled s) : Settled (setShadow l s) := by
  unfold setShadow
  split <;> exact settled_congr hs rfl rfl

theorem settled_setActive {l : Sparse PartRec} {s : State} (hs : Settled s) : Settled (setActive l s) := by
  unfold setActive
  split <;> exact settled_congr hs rfl rfl

theorem foldl_plat {α : Type} {f : State → α → State} (h : ∀ s a, (f s a).plat = s.plat) (l : List α) (s : State) :
    (l.foldl f s).plat = s.plat := by
  induction l generalizing s with
  | nil => rfl
  | cons a l ih => exact (ih _).trans (h s a)

theorem applyLayout_plat (old : Sparse PartRec) (s : State) : (applyLayout old s).plat = s.plat := by
  have h : ∀ (l : List (Nat × Nat)) (t : State), (zeroRanges l t).plat = t.plat := fun _ _ => rfl
  unfold applyLayout
  rw [foldl_plat (fun _ _ => by rfl), h]
  rfl

theorem settled_copyLayout {s : State} (hs : Settled s) : Settled (copyLayout s) :=
  settled_journalCommit (settled_setCommit (by decide) (settled_setShadow hs))

theorem settled_apply {s : State} (hs : Settled s) : Settled (journalCommit 3 0 (setCommit 3 (applyLayout (layoutShadow s) s))) :=
  settled_journalCommit (settled_setCommit (by decide) (settled_plat hs (applyLayout_plat _ s)))

theorem settled_checkActive {b : Bool} {s : State} (hs : Settled s) : Settled (checkActive b s) := by
  refine settled_foldl (fun s p hs => ?_) _ hs
  dsimp only [checkRecord]
  split
  · exact hs
  · split
    · exact settled_setActive hs
    · exact settled_mgmtPost (settled_setActive hs)

theorem settled_resumeCommit {s : State} (hs : Settled s) : Settled (resumeCommit s) := by
  have h0 : Settled (modPlat (fun p => { p with activating := none }) s) := settled_congr hs rfl rfl
  unfold resumeCommit
  dsimp only
  split
  · exact settled_mgmtPost (settled_journalCommit (settled_setCommit (by decide) (settled_setShadow h0)))
  · exact settled_copyLayout (settled_apply (settled_checkActive h0))
  · exact settled_copyLayout h0
  · exact h0

theorem settled_commitStep {s : State} (hs : Settled s) : Settled (commitStep s) := by
  unfold commitStep
  split
  · exact hs
  · split
    · exact settled_apply hs
    · dsimp only
      split
      · exact settled_mgmtPost (settled_congr (settled_copyLayout hs) rfl rfl)
      · exact settled_copyLayout hs
    · exact hs

/-! ### The start -/

theorem settled_powerOn {us : Nat} {s : State} (hs : Settled s) : Settled (powerOn us s) := by
  have ha : (powerOn us s).plat.aclk = 1750 := rfl
  exact ⟨by rw [ha]; decide, by rw [ha], by rw [ha], hs.commit⟩

theorem settled_recordStep {us n u r a c : Nat} {s : State} (hs : Settled s) : Settled (recordStep us n u r a c s) := by
  refine settled_journalAdd (settled_modPlat hs ?_ ?_) <;> (dsimp only; split_ifs <;> rfl)

theorem settled_stopBoot {n : Nat} {s : State} (hs : Settled s) : Settled (stopBoot n s) := settled_modPlat hs rfl rfl

theorem settled_wholeStep {us : Nat} {outs : List BootOutcome} {n alt : Nat} {units : Bool → List Nat} {name : Bool → Nat}
    {work : Bool → State → State} (hw : ∀ b s, Settled s → Settled (work b s)) {s : State} (hs : Settled s) :
    Settled (wholeStep us outs n alt units name work s) := by
  unfold wholeStep
  dsimp only
  split
  · exact settled_stopBoot hs
  · split
    · exact hw _ _ (settled_recordStep hs)
    · exact settled_stopBoot (settled_foldl (fun _ _ h => settled_recordStep h) _ hs)

theorem settled_unitStep {us : Nat} {outs : List BootOutcome} {n : Nat} {up down : Nat → Plat → Fabric → Plat × Fabric}
    (hu : ∀ n p f, (up n p f).1.aclk = p.aclk ∧ (up n p f).1.commit = p.commit)
    (hd : ∀ n p f, (down n p f).1.aclk = p.aclk ∧ (down n p f).1.commit = p.commit) {s : State} (m : Nat) (hs : Settled s) :
    Settled (unitStep us outs n up down s m) := by
  unfold unitStep
  dsimp only
  split
  · exact settled_congr (settled_recordStep hs) (hd ..).1 (hd ..).2
  · split
    · exact settled_congr (settled_recordStep hs) (hu ..).1 (hu ..).2
    · exact settled_congr (settled_recordStep hs) (hd ..).1 (hd ..).2

theorem settled_bootStep {us : Nat} {outs : List BootOutcome} {s : State} (n : Nat) (hs : Settled s) : Settled (bootStep us outs s n) := by
  unfold bootStep
  split
  · exact hs
  · split
    · exact settled_wholeStep (fun _ _ h => settled_modPlat h rfl rfl) hs
    · exact settled_wholeStep (fun _ _ h => settled_modPlat h rfl rfl) hs
    · exact settled_foldl (fun _ m h => settled_unitStep (fun _ _ _ => ⟨rfl, rfl⟩) (fun _ _ _ => ⟨rfl, rfl⟩) m h) _ hs
    · exact settled_foldl (fun _ m h => settled_unitStep (fun _ _ _ => ⟨rfl, rfl⟩) (fun _ _ _ => ⟨rfl, rfl⟩) m h) _ hs
    · exact settled_wholeStep (fun _ _ h => settled_modPlat h rfl rfl) hs
    · refine settled_wholeStep (fun _ s h => ?_) hs
      split
      · exact settled_resumeCommit h
      · exact settled_checkActive (settled_resumeCommit h)
    · exact settled_wholeStep (fun _ _ h => settled_modPlat h rfl rfl) hs
    · exact settled_wholeStep (fun _ _ h => h) hs

/-! ### The arms of exec -/

theorem keepsSettled_plat {s : State} {o : Out} (h : KeepsPlat s o) : KeepsSettled s o := fun hs t ht => settled_plat hs (h t ht)

theorem keepsSettled_heldPlat {s : State} {o : Out} : KeepsSettled s (heldPlat s o) := keepsSettled_plat keepsPlat_heldPlat

theorem keepsSettled_held {s : State} {o : Out} : KeepsSettled s (held s o) := keepsSettled_plat (keepsPlat_of_tables keepsTables_held)

theorem keepsSettled_heldBase {s : State} {o : Out} : KeepsSettled s (heldBase s o) := by
  intro hs t ht
  cases o with
  | next t' => cases ht; exact settled_congr hs rfl rfl
  | fault f => cases ht
  | refused r => cases ht

theorem keepsSettled_next {s t : State} (h : Settled s → Settled t) : KeepsSettled s (.next t) := by
  rintro hs _ ⟨⟩
  exact h hs

theorem keepsSettled_hostCmd {code flags : Nat} {size : HostCmd → Nat} {h : HostCmd} {effect : State → State} {s : State}
    (he : Settled s → Settled (effect s)) : KeepsSettled s (hostCmd code flags size h effect s) := by
  unfold hostCmd
  split
  · exact keepsSettled_next id
  · split
    · exact keepsSettled_next settled_respondTo
    · exact keepsSettled_next he

theorem keepsSettled_layoutPrepare (h : HostCmd) (s : State) : KeepsSettled s (execLayoutPrepare h s) := by
  unfold execLayoutPrepare
  refine keepsSettled_hostCmd fun hs => ?_
  have refuse (off : Nat) : Settled (settleCmd h 0x000A off (journalCommit 1 1 (setCommit 0 (setShadow [] s)))) :=
    settled_settleCmd (settled_journalCommit (settled_setCommit (by decide) (settled_setShadow hs)))
  dsimp only
  split
  · exact refuse _
  · exact refuse _
  · exact settled_settleCmd (settled_journalCommit (settled_setCommit (by decide) (settled_setShadow hs)))

theorem keepsSettled_layoutActivate (h : HostCmd) (s : State) : KeepsSettled s (execLayoutActivate h s) := by
  unfold execLayoutActivate
  refine keepsSettled_hostCmd fun hs => ?_
  split
  · exact settled_settleCmd hs
  · split
    · exact settled_settleCmd (settled_journalCommit hs)
    · exact settled_modPlat (settled_respondTo (settled_journalCommit (settled_flipActive hs))) rfl rfl

theorem keepsSettled_mpRestart (s : State) : KeepsSettled s (execMpRestart s) := by
  unfold execMpRestart
  split
  · exact keepsSettled_next id
  · split
    · exact keepsSettled_next settled_resumeCommit
    · exact keepsSettled_next fun hs => settled_checkActive (settled_resumeCommit hs)

theorem keepsSettled_powerGood (us : Nat) (outs : List BootOutcome) (s : State) : KeepsSettled s (execPowerGood us outs s) :=
  keepsSettled_next fun hs => settled_foldl (fun _ n h => settled_bootStep n h) _ (settled_powerOn hs)

theorem settled_setAclk {n : Nat} {s : State} (hs : Settled s) (hl : 875 ≤ n) (hh : n ≤ 1750) (hm : n % 25 = 0) : Settled (setAclk n s) :=
  ⟨hl, hh, hm, hs.commit⟩

theorem keepsSettled_clockStepDown (mw : Nat) (s : State) : KeepsSettled s (execClockStepDown mw s) := by
  unfold execClockStepDown
  split_ifs with h
  · refine keepsSettled_next fun hs => ?_
    have hl := h.2.1
    have hh := hs.high
    have hm := hs.step
    exact settled_setAclk hs (by omega) (by omega) (by omega)
  · exact keepsSettled_next id

theorem keepsSettled_clockStepUp (mw : Nat) (s : State) : KeepsSettled s (execClockStepUp mw s) := by
  unfold execClockStepUp
  split_ifs with h
  · refine keepsSettled_next fun hs => ?_
    have hl := hs.low
    have hh := h.2.1
    have hm := hs.step
    exact settled_setAclk hs (by omega) (by omega) (by omega)
  · exact keepsSettled_next id

/-- R376, R398: no event takes the clock out of its range or sets a reserved bit of the commit word. -/
theorem keepsSettled_event {i : Instr} (hf : fieldsOf i = none) (s : State) : KeepsSettled s (exec i s) := by
  have word (f : Fields) : some f ≠ none := Option.some_ne_none f
  cases i
  case loadResponse k => rw [exec_loadResponse, execLoadResponse]; exact keepsSettled_held
  case lineFill g r => rw [exec_lineFill, execLineFill]; exact keepsSettled_held
  case impreciseFaultTaken g r => rw [exec_impreciseFaultTaken, execImpreciseFaultTaken]; exact keepsSettled_held
  case laneChoice core lane => rw [exec_laneChoice, execLaneChoice]; exact keepsSettled_heldPlat
  case staticEnergyBoundary => rw [exec_staticEnergyBoundary, execStaticEnergyBoundary]; exact keepsSettled_held
  case homeRequest k => rw [exec_homeRequest, execHomeRequest]; exact keepsSettled_held
  case engineCommandStart e => rw [exec_engineCommandStart, execEngineCommandStart]; exact keepsSettled_held
  case engineAccessFault k => rw [exec_engineAccessFault, execEngineAccessFault]; exact keepsSettled_held
  case commandComplete k => rw [exec_commandComplete, execCommandComplete]; exact keepsSettled_heldPlat
  case reducerAdd k => rw [exec_reducerAdd, execReducerAdd]; exact keepsSettled_held
  case mmaKblockWrite g k => rw [exec_mmaKblockWrite, execMmaKblockWrite]; exact keepsSettled_held
  case mepiRowRetire g k => rw [exec_mepiRowRetire, execMepiRowRetire]; exact keepsSettled_held
  case launchFrame f => rw [exec_launchFrame, execLaunchFrame]; exact keepsSettled_held
  case dispatchRound => rw [exec_dispatchRound, execDispatchRound]; exact keepsSettled_held
  case roomHold q => rw [exec_roomHold, execRoomHold]; exact keepsSettled_held
  case queueTableWrite st => rw [exec_queueTableWrite, execQueueTableWrite]; exact keepsSettled_heldPlat
  case contextTableWrite st => rw [exec_contextTableWrite, execContextTableWrite]; exact keepsSettled_heldPlat
  case hostContextTableWrite st => rw [exec_hostContextTableWrite, execHostContextTableWrite]; exact keepsSettled_heldPlat
  case hevqWrite st => rw [exec_hevqWrite, execHevqWrite]; exact keepsSettled_heldPlat
  case ctxStepWindowFrz st => rw [exec_ctxStepWindowFrz, execCtxStepWindowFrz]; exact keepsSettled_held
  case ctxStepWindowSav st => rw [exec_ctxStepWindowSav, execCtxStepWindowSav]; exact keepsSettled_held
  case ctxStepWindowLd st => rw [exec_ctxStepWindowLd, execCtxStepWindowLd]; exact keepsSettled_held
  case ctxStepWindowRes st => rw [exec_ctxStepWindowRes, execCtxStepWindowRes]; exact keepsSettled_held
  case ctxStepComplete k => rw [exec_ctxStepComplete, execCtxStepComplete]; exact keepsSettled_heldBase
  case yieldTrap g => rw [exec_yieldTrap, execYieldTrap]; exact keepsSettled_held
  case yieldDeadline ctx => rw [exec_yieldDeadline, execYieldDeadline]; exact keepsSettled_held
  case write p => rw [exec_write, execWrite]; exact keepsSettled_held
  case atomicReturning p => rw [exec_atomicReturning, execAtomicReturning]; exact keepsSettled_held
  case atomicNotReturning p => rw [exec_atomicNotReturning, execAtomicNotReturning]; exact keepsSettled_held
  case readRequest p => rw [exec_readRequest, execReadRequest]; exact keepsSettled_held
  case readResponse p => rw [exec_readResponse, execReadResponse]; exact keepsSettled_held
  case acknowledgement p => rw [exec_acknowledgement, execAcknowledgement]; exact keepsSettled_held
  case refusal p => rw [exec_refusal, execRefusal]; exact keepsSettled_held
  case peerPut p => rw [exec_peerPut, execPeerPut]; exact keepsSettled_held
  case peerAdd p => rw [exec_peerAdd, execPeerAdd]; exact keepsSettled_held
  case reductionContribution p => rw [exec_reductionContribution, execReductionContribution]; exact keepsSettled_heldPlat
  case reductionResult p => rw [exec_reductionResult, execReductionResult]; exact keepsSettled_heldPlat
  case slotRequest r => rw [exec_slotRequest, execSlotRequest]; exact keepsSettled_held
  case readShared p => rw [exec_readShared, execReadShared]; exact keepsSettled_held
  case readOwn p => rw [exec_readOwn, execReadOwn]; exact keepsSettled_held
  case upgrade p => rw [exec_upgrade, execUpgrade]; exact keepsSettled_held
  case writeBack p => rw [exec_writeBack, execWriteBack]; exact keepsSettled_held
  case invalidate p => rw [exec_invalidate, execInvalidate]; exact keepsSettled_held
  case lineData p => rw [exec_lineData, execLineData]; exact keepsSettled_held
  case mirrorWrite p => rw [exec_mirrorWrite, execMirrorWrite]; exact keepsSettled_held
  case mirrorAcknowledgement p => rw [exec_mirrorAcknowledgement, execMirrorAcknowledgement]; exact keepsSettled_held
  case homeChange p => rw [exec_homeChange, execHomeChange]; exact keepsSettled_held
  case launchPacket p => rw [exec_launchPacket, execLaunchPacket]; exact keepsSettled_held
  case flitReceive port f => rw [exec_flitReceive, execFlitReceive]; exact keepsSettled_heldPlat
  case portLockNotice port pkg => rw [exec_portLockNotice, execPortLockNotice]; exact keepsSettled_held
  case resetNotice src sctx => rw [exec_resetNotice, execResetNotice]; exact keepsSettled_held
  case ordRetryResend k => rw [exec_ordRetryResend, execOrdRetryResend]; exact keepsSettled_held
  case peerRetryResend k => rw [exec_peerRetryResend, execPeerRetryResend]; exact keepsSettled_held
  case tableLoad t => rw [exec_tableLoad, execTableLoad]; exact keepsSettled_heldPlat
  case heartbeat => rw [exec_heartbeat, execHeartbeat]; exact keepsSettled_held
  case lossAnnouncement pkg => rw [exec_lossAnnouncement, execLossAnnouncement]; exact keepsSettled_heldPlat
  case mirrorTakeover region => rw [exec_mirrorTakeover, execMirrorTakeover]; exact keepsSettled_held
  case zeroingComplete k => rw [exec_zeroingComplete, execZeroingComplete]; exact keepsSettled_heldPlat
  case refresh chan row => rw [exec_refresh, execRefresh]; exact keepsSettled_heldBase
  case layoutPrepare h => rw [exec_layoutPrepare]; exact keepsSettled_layoutPrepare _ _
  case layoutActivate h => rw [exec_layoutActivate]; exact keepsSettled_layoutActivate _ _
  case layoutRead h => rw [exec_layoutRead, execLayoutRead]; exact keepsSettled_heldBase
  case mpRestart  => rw [exec_mpRestart]; exact keepsSettled_mpRestart _
  case bearoff h => rw [exec_bearoff, execBearoff]; exact keepsSettled_heldBase
  case bearoffEvaluation => rw [exec_bearoffEvaluation, execBearoffEvaluation]; exact keepsSettled_heldBase
  case bearoffComparator => rw [exec_bearoffComparator, execBearoffComparator]; exact keepsSettled_heldBase
  case bearoffDeadline reqid => rw [exec_bearoffDeadline, execBearoffDeadline]; exact keepsSettled_heldBase
  case bearoffComplete reqid => rw [exec_bearoffComplete, execBearoffComplete]; exact keepsSettled_heldBase
  case ckpt h => rw [exec_ckpt, execCkpt]; exact keepsSettled_heldBase
  case partnerDeltaStream part => rw [exec_partnerDeltaStream, execPartnerDeltaStream]; exact keepsSettled_heldBase
  case pair h => rw [exec_pair, execPair]; exact keepsSettled_heldBase
  case restore h => rw [exec_restore, execRestore]; exact keepsSettled_heldBase
  case keySet h => rw [exec_keySet, execKeySet]; exact keepsSettled_heldBase
  case launchtabSet h => rw [exec_launchtabSet, execLaunchtabSet]; exact keepsSettled_heldBase
  case journalRead h => rw [exec_journalRead, execJournalRead]; exact keepsSettled_heldBase
  case routeRead h => rw [exec_routeRead, execRouteRead]; exact keepsSettled_heldBase
  case slotRead h => rw [exec_slotRead, execSlotRead]; exact keepsSettled_heldBase
  case retire h => rw [exec_retire, execRetire]; exact keepsSettled_heldBase
  case clockStepDown drawMw => rw [exec_clockStepDown]; exact keepsSettled_clockStepDown _ _
  case clockStepUp drawMw => rw [exec_clockStepUp]; exact keepsSettled_clockStepUp _ _
  case thermalTrip dieTemps => rw [exec_thermalTrip, execThermalTrip]; exact keepsSettled_heldBase
  case thermalResume dieTemps => rw [exec_thermalResume, execThermalResume]; exact keepsSettled_heldBase
  case regionCopyComplete region => rw [exec_regionCopyComplete, execRegionCopyComplete]; exact keepsSettled_held
  case launchWindowWrite => rw [exec_launchWindowWrite, execLaunchWindowWrite]; exact keepsSettled_held
  case linkReplayRequest => rw [exec_linkReplayRequest, execLinkReplayRequest]; exact keepsSettled_held
  case mirrorNamed => rw [exec_mirrorNamed, execMirrorNamed]; exact keepsSettled_heldPlat
  case patrolScrub => rw [exec_patrolScrub]; unfold execPatrolScrub; exact keepsSettled_heldBase
  case layerRetireProceed => rw [exec_layerRetireProceed, execLayerRetireProceed]; exact keepsSettled_heldBase
  case attestationRequest => rw [exec_attestationRequest, execAttestationRequest]; exact keepsSettled_heldBase
  case conflictingWriteHoldExpiry => rw [exec_conflictingWriteHoldExpiry, execConflictingWriteHoldExpiry]; exact keepsSettled_held
  case powerGood => rw [exec_powerGood]; exact keepsSettled_powerGood _ _ _
  all_goals exact absurd hf (word _)

theorem keepsSettled_exec (i : Instr) (s : State) : KeepsSettled s (exec i s) := by
  by_cases hf : fieldsOf i = none
  · exact keepsSettled_event hf s
  · exact keepsSettled_plat (keepsPlat_word hf s)

/-! ### The acts of step -/

theorem charge_plat (cid n : Nat) (s : State) : (charge cid n s).plat = s.plat := rfl

theorem chargeStatic_plat (n core : Nat) (s : State) : (chargeStatic n core s).plat = s.plat := by
  unfold chargeStatic
  dsimp only
  split
  · rfl
  · rw [charge_plat, foldl_plat fun _ _ => charge_plat ..]

theorem chargeBounds_plat (s : State) : (chargeBounds s).plat = s.plat := by
  unfold chargeBounds
  split
  · dsimp only
    exact foldl_plat (fun t c => chargeStatic_plat _ c t) _ _
  · rfl

theorem settleDue_plat (s : State) : (settleDue s).plat = s.plat := (chargeBounds_plat _).trans (aside_zeroOwed s).plat

theorem background_plat (s : State) : (background s).plat = s.plat := rfl

theorem popAct_plat (s : State) : (popAct s).plat = s.plat := by
  unfold popAct
  split
  · split
    · rfl
    · exact settleDue_plat _
  · exact settleDue_plat s
  · exact settleDue_plat s

theorem fetchTurn_plat {u : Turn} {s t : State} {i : Instr} (h : fetchTurn u s = .run i t) : t.plat = s.plat := by
  unfold fetchTurn at h
  dsimp only at h
  split at h <;> cases h
  rfl

theorem fetchTurn_done_plat {u : Turn} {s t : State} (h : fetchTurn u s = .done t) : t.plat = s.plat := by
  unfold fetchTurn at h
  dsimp only at h
  split at h <;> cases h
  rfl

theorem issueOnly_plat (g r : Nat) (s : State) : (issueOnly g r s).plat = s.plat := by
  unfold issueOnly
  split
  · rfl
  · dsimp only
    split
    · rfl
    · split_ifs <;> rfl

theorem settleControl_plat (g r cid clk : Nat) (s : State) (k : Rank) (t : State) : (settleControl g r cid clk s k t).plat = t.plat := by
  unfold settleControl
  dsimp only
  split_ifs <;> rfl

theorem settled_finishWord {g r : Nat} {s : State} (hs : Settled s) : Settled (finishWord exec g r s) := by
  have word : ∀ {i s' t}, exec i s' = .next t → s'.plat = s.plat → Settled t := fun h hp => keepsSettled_exec _ _ (settled_plat hs hp) _ h
  unfold finishWord
  split
  · split
    · dsimp only
      split
      next t ht =>
        have st : Settled t := word ht rfl
        split
        · exact settled_plat st (settleControl_plat ..)
        · split <;> exact settled_plat hs rfl
      · exact settled_plat hs rfl
    · exact hs
  · exact hs

/-- Settles O5: every act of a step keeps the range of the clock and the commit word's reserved bits. -/
theorem stepKeepsSettled : Obligations.StepKeepsSettled := by
  intro s t hs h
  have hp : Settled (popAct s) := settled_plat hs (popAct_plat s)
  unfold Goes step at h
  split at h
  · exact keepsSettled_exec _ _ hp t h
  · cases h; exact settled_plat hp rfl
  · cases h; exact settled_plat hp rfl
  · cases h; exact settled_commitStep hp
  · cases h; exact settled_plat hp rfl
  · cases h; exact settled_plat hp rfl
  · cases h; exact settled_plat hp rfl
  · cases h; exact settled_plat hp (issueOnly_plat ..)
  · cases h; exact settled_finishWord hp
  · split at h
    · exact keepsSettled_exec _ _ (settled_plat hp (fetchTurn_plat ‹_›)) t h
    · cases h; exact settled_plat hp (fetchTurn_done_plat ‹_›)

/-- Settles O4: the clock starts at 1750 MHz and the commit word at zero. -/
theorem resetSettled : Obligations.ResetSettled := ⟨by decide, by decide, by decide, by decide⟩

end Sys2Proof.Laws
end

section
/-! SUPPORT. What a turn of a rank or of a sequencer runs: what is due before an act leaves the groups and whose turn it is. -/

open Sys2Proof Sys2Proof.Machine

namespace Sys2Proof.Laws

/-- Settles O3: the eight words are decoded as written. -/
theorem decodeWords : Obligations.DecodeWords := by
  refine ⟨?_, ?_, ?_, ?_, ?_, ?_, ?_, ?_⟩ <;> decide

/-- s and t have the same groups, turn and tables. -/
def SameTurn (s t : State) : Prop := t.groups = s.groups ∧ t.cur = s.cur ∧ t.tabs = s.tabs

theorem sameTurn_foldl {α : Type} {f : State → α → State} (h : ∀ s a, SameTurn s (f s a)) (l : List α) (s : State) : SameTurn s (l.foldl f s) := by
  induction l generalizing s with
  | nil => exact ⟨rfl, rfl, rfl⟩
  | cons a l ih =>
    obtain ⟨hg, hc, ht⟩ := h s a
    obtain ⟨hg', hc', ht'⟩ := ih (f s a)
    exact ⟨hg'.trans hg, hc'.trans hc, ht'.trans ht⟩

theorem sameTurn_charge (cid n : Nat) (s : State) : SameTurn s (charge cid n s) := ⟨rfl, rfl, rfl⟩

theorem sameTurn_chargeStatic (n core : Nat) (s : State) : SameTurn s (chargeStatic n core s) := by
  unfold chargeStatic
  dsimp only
  split
  · exact ⟨rfl, rfl, rfl⟩
  · exact sameTurn_foldl (fun t (e : Nat × Nat) => sameTurn_charge e.1 _ t) _ s

theorem sameTurn_chargeBounds (s : State) : SameTurn s (chargeBounds s) := by
  unfold chargeBounds
  split
  · obtain ⟨hg, hc, ht⟩ := sameTurn_foldl (fun t c => sameTurn_chargeStatic (s.clk / 1024 - s.bound) c t) (List.range Config.cores) s
    unfold SameTurn
    dsimp only
    exact ⟨hg, hc, ht⟩
  · exact ⟨rfl, rfl, rfl⟩

theorem sameTurn_settleDue (s : State) : SameTurn s (settleDue s) := by
  obtain ⟨hg, hc, ht⟩ := sameTurn_chargeBounds (zeroOwed s)
  have h := aside_zeroOwed s
  exact ⟨hg.trans h.groups, hc.trans h.cur, ht.trans h.tabs⟩

theorem group_settleDue (s : State) (g : Nat) : group? (settleDue s) g = group? s g := congrArg (sget g) (sameTurn_settleDue s).1

theorem rank_settleDue (s : State) (g r : Nat) : rank? (settleDue s) g r = rank? s g r := by
  unfold rank?
  rw [group_settleDue]

theorem settleDue_cur (s : State) : { settleDue s with cur := s.cur } = settleDue s := by
  rw [← (sameTurn_settleDue s).2.1]

theorem keep_settleDue (s t : State) : keep (settleDue s) t = keep s t := by
  unfold keep
  rw [settleDue_plat, (sameTurn_settleDue s).2.2]

/-- With no agenda the unit whose turn it is runs what it fetches. -/
theorem step_turn {s s' : State} {u : Turn} {i : Instr} (ha : s.agenda = []) (hc : s.cur = some u) (hu : unfinished s (.turn u) = none)
    (hf : fetchTurn u (settleDue s) = .run i s') : step s = exec i s' := by
  have hn : nextAct s = .turn u := by simp [nextAct, ha, hc, finishFirst, hu]
  have hp : popAct s = settleDue s := by simp [popAct, ha, hc]
  rw [step, hn, hp]
  simp only [hf]

theorem step_event {s : State} {i : Instr} {l : List Act} (ha : s.agenda = .event i :: l) : step s = exec i (settleDue { s with agenda := l }) := by
  have hn : nextAct s = .event i := by simp [nextAct, ha, finishFirst, unfinished]
  have hp : popAct s = settleDue { s with agenda := l } := by simp [popAct, ha, unfinished]
  rw [step, hn, hp]

/-- Settles O6: the act is the head of the agenda or the turn's, and a turn's fetch gives the decoded instruction. -/
theorem stepRunsDecoded : Obligations.StepRunsDecoded := by
  refine ⟨fun s i l ha => step_event ha, ?_, ?_⟩
  · intro s g r x k c s' bs i ha hcur hx hk hctx hst how hfetch hdec
    have hrun : fetchRank g r (settleDue s) = .run i s' := by
      simp [fetchRank, group_settleDue, rank_settleDue, hx, hk, hctx, hst, hfetch, hdec]
    refine step_turn ha hcur (by simp [unfinished, hk, how]) ?_
    simp only [fetchTurn, ← hcur, settleDue_cur, hrun, keep_settleDue]
  · intro s g x c s' bs i ha hcur hx hctx hst hq hfetch hdec
    have hrun : fetchSeq g (settleDue s) = .run i s' := by
      simp [fetchSeq, group_settleDue, hx, hctx, hst, hq, hfetch, hdec]
    refine step_turn ha hcur rfl ?_
    simp only [fetchTurn, ← hcur, settleDue_cur, hrun, keep_settleDue]

end Sys2Proof.Laws
end

section
/-! SUPPORT. Memory as a map of bytes (R7): what a run of bytes written or zeroed leaves to read, that equal memories are equal lists,
and that bytes hold a number little end first. -/

open Sys2Proof Sys2Proof.Machine

namespace Sys2Proof.Laws

variable {α : Type}

/-! ### Sparse maps with a default -/

theorem sgetD_sput [DecidableEq α] (d : α) (j k : Nat) (a : α) (m : Sparse α) (h : rising (m.map (·.1)) = true) :
    sgetD j d (sput d k a m) = if j = k then a else sgetD j d m := by
  unfold sgetD sput
  by_cases hj : j = k
  · subst hj
    split
    · next ha => subst ha; simp [sget_sdel_same _ _ h]
    · simp
  · split
    · rw [sget_sdel_other hj _ h]
    · rw [sget_sset_other hj]

/-- Maps with rising keys that give the same at every key are the same list. -/
theorem eq_of_sget {m n : Sparse α} (hm : rising (m.map (·.1)) = true) (hn : rising (n.map (·.1)) = true)
    (h : ∀ k, sget k m = sget k n) : m = n := by
  induction m generalizing n with
  | nil =>
    cases n with
    | nil => rfl
    | cons e n => simpa [sget] using h e.1
  | cons e m ih =>
    cases n with
    | nil => simpa [sget] using h e.1
    | cons f n =>
      obtain ⟨k, a⟩ := e
      obtain ⟨l, b⟩ := f
      have below : ∀ (p : Nat) (q : Sparse α), rising (p :: q.map (·.1)) = true → sget p q = none := fun p q hq =>
        sget_none_of_lt p q (rising_head_lt p _ hq)
      have hkl : k = l := by
        have hk := h k
        have hl := h l
        simp only [sget] at hk hl
        by_contra hne
        rcases Nat.lt_or_gt_of_ne hne with hlt | hlt
        · simp [hne, hlt] at hk
        · simp [Ne.symm hne, hlt] at hl
      subst hkl
      have hab : a = b := by simpa [sget] using h k
      subst hab
      refine congrArg _ (ih (rising_tail _ _ hm) (rising_tail _ _ hn) fun j => ?_)
      have hj := h j
      simp only [sget] at hj
      by_cases hjk : j = k
      · rw [hjk, below k m hm, below k n hn]
      · by_cases hlt : j < k
        · rw [sget_none_of_lt j m fun x hx => hlt.trans (rising_head_lt k _ hm x hx),
            sget_none_of_lt j n fun x hx => hlt.trans (rising_head_lt k _ hn x hx)]
        · simpa [hjk, hlt] using hj

theorem mem_of_sget {k : Nat} {a : α} {m : Sparse α} (h : sget k m = some a) : (k, a) ∈ m := by
  induction m with
  | nil => simp [sget] at h
  | cons e m ih =>
    obtain ⟨l, b⟩ := e
    simp only [sget] at h
    split at h
    · next hk => cases h; subst hk; exact List.mem_cons_self
    · split at h
      · cases h
      · exact List.mem_cons_of_mem _ (ih h)

/-- In the canonical form a key with the default value is absent. -/
theorem sget_eq_none_iff [DecidableEq α] {d : α} {m : Sparse α} (h : canonical d m = true) (k : Nat) : sget k m = none ↔ sgetD k d m = d := by
  unfold sgetD
  cases hk : sget k m with
  | none => simp
  | some a =>
    simp only [canonical, Bool.and_eq_true, List.all_eq_true, decide_eq_true_eq] at h
    simpa using h.2 _ (mem_of_sget hk)

theorem eq_of_sgetD [DecidableEq α] {d : α} {m n : Sparse α} (hm : canonical d m = true) (hn : canonical d n = true)
    (h : ∀ k, sgetD k d m = sgetD k d n) : m = n := by
  have rise : ∀ {q : Sparse α}, canonical d q = true → rising (q.map (·.1)) = true := fun hq => (Bool.and_eq_true _ _ ▸ hq).1
  refine eq_of_sget (rise hm) (rise hn) fun k => ?_
  have hd := h k
  by_cases hnone : sgetD k d m = d
  · rw [(sget_eq_none_iff hm k).mpr hnone, (sget_eq_none_iff hn k).mpr (hd ▸ hnone)]
  · obtain ⟨a, ha⟩ := Option.ne_none_iff_exists'.mp (mt (sget_eq_none_iff hm k).mp hnone)
    obtain ⟨b, hb⟩ := Option.ne_none_iff_exists'.mp (mt (sget_eq_none_iff hn k).mp (hd ▸ hnone))
    simpa [sgetD, ha, hb] using hd

/-! ### Runs of bytes -/

theorem byteAt_writeBytes (bs : List Byte) : ∀ (m : Mem) (a b : Nat), m.wf = true →
    byteAt (writeBytes m a bs) b = if a ≤ b ∧ b < a + bs.length then bs.getD (b - a) 0 else byteAt m b := by
  induction bs with
  | nil => intro m a b _; simp [writeBytes]
  | cons x bs ih =>
    intro m a b h
    rw [writeBytes, ih _ _ _ (setByte_wf m a x h), byteAt_setByte m h, List.length_cons]
    rcases Nat.lt_trichotomy b a with hlt | rfl | hgt
    · rw [if_neg (by omega), if_neg (by omega), if_neg (by omega)]
    · simp
    · obtain ⟨n, hn⟩ : ∃ n, b - a = n + 1 := ⟨b - a - 1, by omega⟩
      have hn' : b - (a + 1) = n := by omega
      rw [hn, hn', List.getD_cons_succ, if_neg (by omega : ¬b = a)]
      exact if_congr (by omega) rfl rfl

theorem sget_filter_keys (p : Nat → Bool) (k : Nat) (m : Sparse α) (h : rising (m.map (·.1)) = true) :
    sget k (m.filter fun e => p e.1) = if p k then sget k m else none := by
  induction m with
  | nil => simp [sget]
  | cons e m ih =>
    obtain ⟨l, a⟩ := e
    have hi := ih (rising_tail _ _ h)
    have hlt := rising_head_lt l _ h
    rw [List.filter_cons]
    split
    · next hl =>
      simp only [sget, hi]
      by_cases hk : k = l
      · simp [hk, hl]
      · by_cases hkl : k < l <;> simp [hk, hkl]
    · next hl =>
      rw [hi]
      simp only [sget]
      by_cases hk : k = l
      · simp [hk, hl]
      · by_cases hkl : k < l
        · simp [hk, hkl, sget_none_of_lt k m fun x hx => hkl.trans (hlt x hx)]
        · simp [hk, hkl]

theorem byteAt_zeroRange (m : Mem) (a n b : Nat) (h : m.wf = true) :
    byteAt (zeroRange m a n) b = if a ≤ b ∧ b < a + n then 0 else byteAt m b := by
  have hr : rising (m.map (·.1)) = true := by
    simp only [Mem.wf, canonical, Bool.and_eq_true] at h
    exact h.1
  unfold byteAt zeroRange sgetD
  rw [sget_filter_keys (fun k => decide (k < a) || decide (a + n ≤ k)) b m hr]
  by_cases hb : a ≤ b ∧ b < a + n
  · have : (decide (b < a) || decide (a + n ≤ b)) = false := by simp; omega
    simp [this, hb]
  · have : (decide (b < a) || decide (a + n ≤ b)) = true := by simp; omega
    rw [this, if_neg hb, if_pos rfl]

theorem leNat_leBytes (x n : Nat) : leNat (leBytes x n) = x % 256 ^ n := by
  induction n generalizing x with
  | zero => simp [leBytes, leNat, Nat.mod_one]
  | succ n ih =>
    have h : x % 256 ^ (n + 1) = x % 256 + 256 * (x / 256 % 256 ^ n) := by rw [pow_succ', Nat.mod_mul]
    rw [leBytes, leNat, ih, h, BitVec.toNat_ofNat]

/-- Settles O8: reads after writes and zeroing, the canonical form, and little-endian bytes. -/
theorem memoryBytes : Obligations.MemoryBytes :=
  ⟨fun m a bs b h => byteAt_writeBytes bs m a b h, fun m a bs h => writeBytes_wf bs m a h, fun m a n b h => byteAt_zeroRange m a n b h,
   fun m a n h => zeroRange_wf m a n h, fun _ _ hm hn h => eq_of_sgetD hm hn h, leNat_leBytes⟩

end Sys2Proof.Laws
end

section
/-! SUPPORT. What a register of each class reads after a write (R15, R23, R71). -/

open Sys2Proof Sys2Proof.Machine

namespace Sys2Proof.Laws

theorem rising_sput {α : Type} [DecidableEq α] (d : α) (k : Nat) (a : α) (m : Sparse α) (h : rising (m.map (·.1)) = true) :
    rising ((sput d k a m).map (·.1)) = true := by
  unfold sput
  split
  · rw [rising_iff_pairwise] at *
    exact h.sublist ((sdel_sublist k m).map _)
  · exact rising_sset k a m h

theorem cell_inj {i j t t' : Nat} (ht : t < 32) (ht' : t' < 32) : i * 32 + t = j * 32 + t' ↔ i = j ∧ t = t' := by omega

/-! ### v registers -/

theorem setV_vreg {k : Rank} {i t j t' : Nat} (x : Nat) (hk : rising (k.v.map (·.1)) = true) (ht : t < 32) (ht' : t' < 32) :
    (k.setV i t x).vreg j t' = if j = i ∧ t' = t then x % 2 ^ 32 else k.vreg j t' := by
  unfold Rank.vreg Rank.setV
  dsimp only
  rw [sgetD_sput _ _ _ _ _ hk]
  by_cases h : j = i ∧ t' = t
  · rw [if_pos h, if_pos ((cell_inj ht' ht).mpr h), BitVec.toNat_ofNat]
  · rw [if_neg h, if_neg (mt (cell_inj ht' ht).mp h)]

theorem setVs_vreg {t j t' : Nat} (ht : t < 32) (ht' : t' < 32) (n : Nat) : ∀ (i x : Nat) (k : Rank), rising (k.v.map (·.1)) = true →
    (k.setVs i t x n).vreg j t' = if t' = t ∧ i ≤ j ∧ j < i + n then x / 2 ^ (32 * (j - i)) % 2 ^ 32 else k.vreg j t' := by
  induction n with
  | zero => intro i x k _; rw [Rank.setVs, if_neg (by omega)]
  | succ n ih =>
    intro i x k hk
    have hk' : rising ((k.setV i t x).v.map (·.1)) = true := rising_sput _ _ _ _ hk
    rw [Rank.setVs, ih _ _ _ hk', setV_vreg x hk ht ht']
    by_cases hi : t' = t ∧ i + 1 ≤ j ∧ j < i + 1 + n
    · have hj : 32 * (j - i) = 32 + 32 * (j - (i + 1)) := by omega
      rw [if_pos hi, if_pos (by omega), hj, pow_add, Nat.div_div_eq_div_mul]
    · rw [if_neg hi]
      by_cases he : j = i ∧ t' = t
      · obtain ⟨rfl, rfl⟩ := he
        rw [if_pos ⟨rfl, rfl⟩, if_pos (by omega)]
        simp
      · rw [if_neg he, if_neg (by omega)]

theorem vgroup_eq {k : Rank} {t : Nat} (n : Nat) : ∀ (i x : Nat), (∀ j, j < n → k.vreg (i + j) t = x / 2 ^ (32 * j) % 2 ^ 32) →
    k.vgroup i t n = x % 2 ^ (32 * n) := by
  induction n with
  | zero => intro i x _; simp [Rank.vgroup, Nat.mod_one]
  | succ n ih =>
    intro i x h
    have h0 : k.vreg i t = x % 2 ^ 32 := by simpa using h 0 (by omega)
    have hs : k.vgroup (i + 1) t n = x / 2 ^ 32 % 2 ^ (32 * n) := by
      refine ih (i + 1) (x / 2 ^ 32) fun j hj => ?_
      rw [show i + 1 + j = i + (j + 1) by omega, h (j + 1) (by omega), Nat.div_div_eq_div_mul, ← pow_add,
        show 32 * (j + 1) = 32 + 32 * j by omega]
    rw [Rank.vgroup, h0, hs, show 32 * (n + 1) = 32 + 32 * n by omega, pow_add, Nat.mod_mul]

theorem setVs_vgroup {t : Nat} (ht : t < 32) {k : Rank} (hk : rising (k.v.map (·.1)) = true) (i x n : Nat) :
    (k.setVs i t x n).vgroup i t n = x % 2 ^ (32 * n) := by
  refine vgroup_eq n i x fun j hj => ?_
  rw [setVs_vreg ht ht n i x k hk, if_pos (by omega), Nat.add_sub_cancel_left]

theorem slot_eq (ty : Ty) : 32 * (ty.slot / 32) = ty.slot := by cases ty <;> rfl

/-! ### Other classes stay -/

theorem setVs_others (n : Nat) : ∀ (i t x : Nat) (k : Rank), let k' := k.setVs i t x n
    (k'.o, k'.y, k'.w, k'.p, k'.j) = (k.o, k.y, k.w, k.p, k.j) := by
  induction n with
  | zero => intro i t x k; rfl
  | succ n ih => intro i t x k; exact ih (i + 1) t (x / 2 ^ 32) (k.setV i t x)

/-! ### Predicates -/

theorem one_shl_get {t : Nat} (ht : t < 32) (t' : Nat) : (1#32 <<< t).getLsbD t' = decide (t' = t) := by
  rw [BitVec.getLsbD_shiftLeft, BitVec.getLsbD_one, Bool.eq_iff_iff]
  simp only [Bool.and_eq_true, Bool.not_eq_true', decide_eq_true_eq, decide_eq_false_iff_not]
  omega

theorem setBit_get (m : Mask) {t : Nat} (t' : Nat) (ht : t < 32) (b : Bool) : (setBit m t b).getLsbD t' = if t' = t then b else m.getLsbD t' := by
  unfold setBit
  cases b with
  | true =>
    rw [if_pos rfl, BitVec.getLsbD_or, one_shl_get ht]
    by_cases h : t' = t <;> simp [h]
  | false =>
    rw [if_neg (by simp), BitVec.getLsbD_and, BitVec.getLsbD_not, one_shl_get ht]
    by_cases h : t' = t
    · simp [h]
    · by_cases hl : t' < 32
      · simp [h, hl]
      · simp [h, hl, BitVec.getLsbD_of_ge m t' (by omega)]

theorem setP_others (k : Rank) (i t : Nat) (b : Bool) : let k' := k.setP i t b
    (k'.v, k'.o, k'.y, k'.w, k'.j) = (k.v, k.o, k.y, k.w, k.j) := by
  dsimp only
  unfold Rank.setP
  split <;> rfl

theorem setP_pred {k : Rank} {i : Nat} (t : Nat) (b : Bool) (hk : rising (k.p.map (·.1)) = true) (hi : i ≠ 0) (j : Nat) :
    (k.setP i t b).pred j = if j = i then setBit (k.pred i) t b else k.pred j := by
  unfold Rank.pred Rank.setP
  rw [if_neg hi, if_neg hi]
  dsimp only
  by_cases hj : j = 0
  · rw [if_pos hj, if_pos hj, if_neg (by omega)]
  · rw [if_neg hj, if_neg hj, sgetD_sput _ _ _ _ _ hk]

/-- Settles O9: a destination of each class takes the result, and every other register stays. -/
theorem registerWrites : Obligations.RegisterWrites := by
  refine ⟨?_, ?_, ?_, ?_, ?_, ?_, ?_⟩
  · intro ty k t i x ht hk
    rw [← rising_iff_pairwise] at hk
    refine ⟨(setVs_vgroup ht hk _ _ _).trans (by rw [slot_eq]), fun j t' ht' hn => ?_, setVs_others ..⟩
    exact (setVs_vreg ht ht' _ _ _ k hk).trans (if_neg hn)
  · intro ty k t i x ht hk
    rw [← rising_iff_pairwise] at hk
    exact ⟨fun j t' ht' => (sgetD_sput _ _ _ _ _ hk).trans (if_congr (cell_inj ht' ht) rfl rfl), rfl⟩
  · intro ty k t i x ht hk
    rw [← rising_iff_pairwise] at hk
    exact ⟨fun j t' ht' => (sgetD_sput _ _ _ _ _ hk).trans (if_congr (cell_inj ht' ht) rfl rfl), rfl⟩
  · intro ty k t i x hk
    rw [← rising_iff_pairwise] at hk
    exact ⟨(sgetD_sput _ _ _ _ _ hk).trans (if_pos rfl), fun j hj => (sgetD_sput _ _ _ _ _ hk).trans (if_neg hj), rfl⟩
  · intro ty k t x
    rfl
  · intro k i t x ht hi hk
    rw [← rising_iff_pairwise] at hk
    have hi' : i.toNat ≠ 0 := fun h => hi (BitVec.eq_of_toNat_eq h)
    have hp := setP_pred (k := k) t (x != 0) hk hi'
    refine ⟨?_, fun t' ht' => ?_, fun j hj => (hp j).trans (if_neg hj), setP_others ..⟩
    · exact (congrArg (·.getLsbD t) ((hp _).trans (if_pos rfl))).trans ((setBit_get _ t ht _).trans (if_pos rfl))
    · exact (congrArg (·.getLsbD t') ((hp _).trans (if_pos rfl))).trans ((setBit_get _ t' ht _).trans (if_neg ht'))
  · intro ty k d t x
    obtain ⟨ht, hs, _⟩ := writeOpnd_frame ty d t x k
    exact ⟨hs, ht⟩

end Sys2Proof.Laws
end

section
/-! SUPPORT. The integer instructions (R75, R77): the fitting of a result to its type, the width of a wide product, the sum of IDOT. -/

open Sys2Proof Sys2Proof.Machine

namespace Sys2Proof.Laws

/-! ### Fitting a result -/

theorem fit_lt (sgn sat : Bool) (n : Nat) (z : Int) : fit sgn sat n z < 2 ^ n := intBits_lt ..

theorem clamp_eq {lo hi : Int} (h : lo ≤ hi) (z : Int) : clamp lo hi z = max lo (min z hi) := by
  unfold clamp
  split_ifs <;> omega

theorem fit_unsigned (n : Nat) (z : Int) : (fit false true n z : Int) = max 0 (min z ((2 ^ n : Nat) - 1)) := by
  have hpos := Nat.two_pow_pos n
  rw [fit, cast_intBits, if_pos rfl, show intLo false n = 0 from rfl, show intHi false n = ((2 ^ n : Nat) : Int) - 1 from rfl,
    clamp_eq (by omega)]
  exact Int.emod_eq_of_lt (by omega) (by omega)

theorem fit_signed {n : Nat} (hn : 0 < n) (z : Int) :
    signed (fit true true n z) n = max (-((2 ^ (n - 1) : Nat) : Int)) (min z ((2 ^ (n - 1) : Nat) - 1)) := by
  have hpos := Nat.two_pow_pos (n - 1)
  rw [fit, if_pos rfl, show intLo true n = -((2 ^ (n - 1) : Nat) : Int) from rfl,
    show intHi true n = ((2 ^ (n - 1) : Nat) : Int) - 1 from rfl, clamp_eq (by omega)]
  exact intOf_intBits (sgn := true) hn (inRange_signed.mpr (by omega))

theorem fit_results (sgn sat : Bool) (n : Nat) (z : Int) (hn : 0 < n) : fit sgn sat n z < 2 ^ n ∧
    (sat = false → (fit sgn sat n z : Int) = z % ((2 ^ n : Nat) : Int)) ∧
    (sat = true → sgn = false → (fit sgn sat n z : Int) = max 0 (min z ((2 ^ n : Nat) - 1))) ∧
    (sat = true → sgn = true → signed (fit sgn sat n z) n = max (-((2 ^ (n - 1) : Nat) : Int)) (min z ((2 ^ (n - 1) : Nat) - 1))) := by
  refine ⟨fit_lt .., ?_, ?_, ?_⟩
  · rintro rfl
    exact cast_intBits n z
  · rintro rfl rfl
    exact fit_unsigned n z
  · rintro rfl rfl
    exact fit_signed hn z

/-! ### Products, comparisons, IDOT -/

theorem isSigned_mulTy (f : MulFn) (ty : Ty) : Ty.isSigned (mulTy f ty) = Ty.isSigned ty := by
  unfold mulTy
  split
  · cases ty <;> rfl
  · rfl

theorem mulTy_narrow {f : MulFn} (h : f ≠ .wide) (ty : Ty) : mulTy f ty = ty := if_neg h

theorem mulTy_wide {ty : Ty} (h : ty = .b32 ∨ ty = .s32) : mulTy .wide ty = if ty = .b32 then .b64 else .s64 := by
  rcases h with rfl | rfl <;> rfl

theorem mulTy_eq {f : MulFn} {ty : Ty} (h : f = .wide → ty = .b32 ∨ ty = .s32) :
    mulTy f ty = if f = .wide then (if ty = .b32 then .b64 else .s64) else ty := by
  by_cases hf : f = .wide
  · rw [if_pos hf, hf]
    exact mulTy_wide (h hf)
  · rw [if_neg hf, mulTy_narrow hf]

theorem mulValue_eq (f : MulFn) (n : Nat) (a b c : Int) :
    mulValue f n a b c = (if f = .hi then a * b / ((2 ^ n : Nat) : Int) else a * b) + c := by cases f <;> rfl

theorem compareInt_eq (cc : Cmp) (a b : Int) : compareInt cc a b = (match cc with
      | .eq => decide (a = b) | .ne => decide (a ≠ b) | .lt => decide (a < b) | .le => decide (a ≤ b) | .gt => decide (a > b)
      | .ge => decide (a ≥ b)) := by cases cc <;> rfl

theorem dotInt_eq (sgn : Bool) (w a b n : Nat) :
    dotInt sgn w a b n = ((List.range n).map fun k => intOf sgn w (bits a (w * k) w) * intOf sgn w (bits b (w * k) w)).sum := by
  induction n with
  | zero => rfl
  | succ n ih => simp [dotInt, ih, List.range_succ]

theorem imul_gives {f : MulFn} {x : Alu2} {ty : Ty} (ht : mulTy f x.ty = ty) : Gives (.imul f x) x.c ty x.d fun clk u t =>
    fit (Ty.isSigned x.ty) false (Ty.bits ty) (mulValue f (Ty.bits x.ty) (intOpnd clk u x.ty x.imm x.a t) (intOpnd clk u x.ty x.imm x.b t) 0) := by
  subst ht
  exact gives_of (exec_imul f x)

theorem imad_gives {f : MulFn} {x : Alu3} {ty : Ty} (ht : mulTy f x.ty = ty) : Gives (.imad f x) x.c ty x.d fun clk u t =>
    fit (Ty.isSigned x.ty) false (Ty.bits ty)
      ((if f = .hi then intOf (Ty.isSigned x.ty) (Ty.bits x.ty) (readOpnd clk u x.ty 0 x.a t) *
          intOf (Ty.isSigned x.ty) (Ty.bits x.ty) (readOpnd clk u x.ty 0 x.b t) / ((2 ^ Ty.bits x.ty : Nat) : Int)
        else intOf (Ty.isSigned x.ty) (Ty.bits x.ty) (readOpnd clk u x.ty 0 x.a t) *
          intOf (Ty.isSigned x.ty) (Ty.bits x.ty) (readOpnd clk u x.ty 0 x.b t)) +
        intOf (Ty.isSigned x.ty) (Ty.bits ty) (readOpnd clk u ty 0 x.x t)) := by
  subst ht
  refine gives_of2 (exec_imad f x) rfl fun clk u t => ?_
  rw [mulValue_eq, intOpnd, intOpnd, intOpnd, isSigned_mulTy]

/-- The value that IDOT's arm computes. -/
def idotValue (sat : Bool) (x : Alu3) (clk : Nat) (u : Iss) (t : Nat) : Nat :=
  fit (Ty.isSigned x.ty) sat 32 (intOf (Ty.isSigned x.ty) 32 (readOpnd clk u .b32 0 x.x t) +
    dotInt (Ty.isSigned x.ty) (Ty.bits x.ty) (readOpnd clk u .b32 0 x.a t) (readOpnd clk u .b32 0 x.b t) (32 / Ty.bits x.ty))

/-- Settles O10: each integer instruction computes exactly, and `fit` brings the result into the type. -/
theorem integerResults : Obligations.IntegerResults := by
  refine ⟨fun sat x => gives_of (exec_iadd sat x), fun sat x => gives_of (exec_isub sat x), fun x => gives_of (exec_imin x),
    fun x => gives_of (exec_imax x), fun sat x => gives_of (exec_iabs sat x), fun sat x => gives_of (exec_ineg sat x), ?_, ?_, ?_, ?_, ?_, ?_,
    fit_results⟩
  · intro x
    exact gives_of2 (exec_imul .lo x) rfl fun _ _ _ => by rw [mulValue_eq]; simp [mulTy_narrow, intOpnd]
  · intro x
    exact gives_of2 (exec_imul .hi x) rfl fun _ _ _ => by rw [mulValue_eq]; simp [mulTy_narrow, intOpnd]
  · intro x hx
    refine gives_of2 (exec_imul .wide x) (mulTy_wide hx).symm fun _ _ _ => ?_
    rw [mulValue_eq, mulTy_wide hx]
    rcases hx with hx | hx <;> simp [hx, intOpnd, Ty.bits, Ty.isSigned]
  · intro f x hf
    exact imad_gives (mulTy_eq hf)
  · intro cc x
    exact gives_of2 (exec_iset cc x) rfl fun _ _ _ => by rw [compareInt_eq]; rfl
  · intro sat x
    refine gives_of2 (f' := idotValue sat x) (fun s => ?_) rfl fun clk u t => ?_
    · rw [exec_idot]; rfl
    · rw [idotValue, dotInt_eq]

end Sys2Proof.Laws
end

section
/-! SUPPORT. Bitwise, shifting and rotating instructions (R78 to R81): their values on operands inside the type. -/

open Sys2Proof Sys2Proof.Machine

namespace Sys2Proof.Laws

theorem invIf_eq {n b : Nat} (h : b < 2 ^ n) (i : Bool) : (if i then maskN n ^^^ b else b) = if i then 2 ^ n - 1 - b else b := by
  rw [inv_eq h]

/-! ### Shifts -/

theorem shr_logical {n a : Nat} (h : a < 2 ^ n) (k : Nat) : shrValue false n a k = a / 2 ^ k := by
  have hk : n ≤ k → a / 2 ^ k = 0 := fun hk => Nat.div_eq_of_lt (h.trans_le (Nat.pow_le_pow_right (by decide) hk))
  unfold shrValue
  rw [if_neg Bool.false_ne_true]
  split_ifs with hn
  · exact (hk hn).symm
  · rfl

/-- A number of n bits shifted by n places or more is its sign. -/
theorem signed_shift {n k : Nat} (a : Nat) (hn : 0 < n) (hk : n ≤ k) : signed a n / ((2 ^ k : Nat) : Int) = if signed a n < 0 then -1 else 0 := by
  have hrange := inRange_signed.mp (inRange_intOf hn true a)
  have hpow : 2 ^ (n - 1) ≤ 2 ^ k := Nat.pow_le_pow_right (by decide) (by omega)
  have hs : intOf true n a = signed a n := rfl
  rw [hs] at hrange
  split_ifs with hneg
  · refine Int.ediv_eq_neg_one_of_neg_of_le (by omega) ?_
    omega
  · exact Int.ediv_eq_zero_of_lt (by omega) (by omega)

theorem shr_arithmetic {n : Nat} (hn : 0 < n) (a k : Nat) : shrValue true n a k = intBits n (signed a n / ((2 ^ k : Nat) : Int)) := by
  unfold shrValue
  rw [if_pos rfl]
  rcases Nat.le_total k n with h | h
  · rw [min_eq_left h]
  · rw [min_eq_right h, signed_shift a hn h, signed_shift a hn le_rfl]

/-! ### Rotates -/

/-- The two parts of a rotated number do not meet. -/
theorem rotated_parts {n l a : Nat} (h : a < 2 ^ n) (hl : l ≤ n) : (a * 2 ^ l ||| a / 2 ^ (n - l)) % 2 ^ n = a * 2 ^ l % 2 ^ n + a / 2 ^ (n - l) := by
  have hsplit : 2 ^ n = 2 ^ (n - l) * 2 ^ l := by rw [← pow_add]; congr 1; omega
  have hlow : a / 2 ^ (n - l) < 2 ^ l := by
    rw [Nat.div_lt_iff_lt_mul (Nat.two_pow_pos _), mul_comm, ← hsplit]
    exact h
  have hhigh : a * 2 ^ l % 2 ^ n = 2 ^ l * (a % 2 ^ (n - l)) := by rw [hsplit, Nat.mul_mod_mul_right, mul_comm]
  have hfit : a / 2 ^ (n - l) % 2 ^ n = a / 2 ^ (n - l) :=
    Nat.mod_eq_of_lt (hlow.trans_le (Nat.pow_le_pow_right (by decide) hl))
  rw [Nat.or_mod_two_pow, hfit, hhigh, Nat.two_pow_add_eq_or_of_lt hlow]

theorem rot_left {n a : Nat} (hn : 0 < n) (h : a < 2 ^ n) (k : Nat) :
    rotValue false n a k = a * 2 ^ (k % n) % 2 ^ n + a / 2 ^ (n - k % n) := by
  have hk := Nat.mod_lt k hn
  exact rotated_parts h hk.le

theorem rot_right {n a : Nat} (hn : 0 < n) (h : a < 2 ^ n) (k : Nat) :
    rotValue true n a k = a / 2 ^ (k % n) + a * 2 ^ (n - k % n) % 2 ^ n := by
  have hk := Nat.mod_lt k hn
  unfold rotValue
  dsimp only
  rw [if_pos rfl]
  by_cases hz : k % n = 0
  · rw [hz, Nat.sub_zero, Nat.mod_self, rotated_parts h (Nat.zero_le n)]
    simp [Nat.div_eq_of_lt h, Nat.mod_eq_of_lt h]
  · rw [Nat.mod_eq_of_lt (by omega : n - k % n < n), rotated_parts h (by omega), Nat.add_comm, show n - (n - k % n) = k % n by omega]

/-! ### The funnel shift -/

/-- R81: a count of the full width or more gives the whole other half. -/
theorem shf_full {n a b k : Nat} (ha : a < 2 ^ n) (hb : b < 2 ^ n) (hk : n ≤ k) : shfValue false n a b k = b ∧ shfValue true n a b k = a := by
  have hpos := Nat.two_pow_pos n
  unfold shfValue
  dsimp only
  rw [min_eq_right hk, if_neg Bool.false_ne_true, if_pos rfl, Nat.mul_div_cancel _ hpos, Nat.mul_add_mod_self_right, Nat.mod_eq_of_lt hb,
    Nat.add_comm, Nat.add_mul_div_right _ _ hpos, Nat.div_eq_of_lt hb, Nat.zero_add, Nat.mod_eq_of_lt ha]
  exact ⟨rfl, rfl⟩

theorem bits_pos (ty : Ty) : 0 < Ty.bits ty := by cases ty <;> decide

/-- Another spelling of the results. -/
theorem gives_value {i c ty d f f'} (h : Gives i c ty d f') (hf : ∀ clk u t, f' clk u t = f clk u t) : Gives i c ty d f := by
  have : f' = f := by funext clk u t; exact hf clk u t
  exact this ▸ h

theorem and_gives (i : Bool) (x : Alu2) : Gives (.and i x) x.c x.ty x.d fun clk u t =>
    readOpnd clk u x.ty x.imm x.a t &&& (if i then maskN (Ty.bits x.ty) ^^^ readOpnd clk u x.ty x.imm x.b t else readOpnd clk u x.ty x.imm x.b t) :=
  gives_of (exec_and i x)

theorem or_gives (i : Bool) (x : Alu2) : Gives (.or i x) x.c x.ty x.d fun clk u t =>
    readOpnd clk u x.ty x.imm x.a t ||| (if i then maskN (Ty.bits x.ty) ^^^ readOpnd clk u x.ty x.imm x.b t else readOpnd clk u x.ty x.imm x.b t) :=
  gives_of (exec_or i x)

theorem not_gives (x : Alu1) : Gives (.not x) x.c x.ty x.d fun clk u t => maskN (Ty.bits x.ty) ^^^ readOpnd clk u x.ty x.imm x.a t :=
  gives_of (exec_not x)

theorem lut_gives (tab : BitVec 16) (x : Alu3) : Gives (.lut tab x) x.c x.ty x.d fun clk u t =>
    lutBits tab.toNat (readOpnd clk u x.ty 0 x.d t) (readOpnd clk u x.ty 0 x.a t) (readOpnd clk u x.ty 0 x.b t)
      (readOpnd clk u x.ty 0 x.x t) (Ty.bits x.ty) := gives_of (exec_lut tab x)

theorem shl_gives (x : Alu2) : Gives (.shl x) x.c x.ty x.d fun clk u t =>
    shlValue (Ty.bits x.ty) (readOpnd clk u x.ty x.imm x.a t) (readOpnd clk u .b32 x.imm x.b t) := gives_of (exec_shl x)

theorem shr_gives (arith : Bool) (x : Alu2) : Gives (.shr arith x) x.c x.ty x.d fun clk u t =>
    shrValue arith (Ty.bits x.ty) (readOpnd clk u x.ty x.imm x.a t) (readOpnd clk u .b32 x.imm x.b t) := gives_of (exec_shr arith x)

theorem rot_gives (right : Bool) (x : Alu2) : Gives (.rot right x) x.c x.ty x.d fun clk u t =>
    rotValue right (Ty.bits x.ty) (readOpnd clk u x.ty x.imm x.a t) (readOpnd clk u .b32 x.imm x.b t) := gives_of (exec_rot right x)

/-- Settles O12: each value on operands that their type holds. -/
theorem bitwiseResults : Obligations.BitwiseResults := by
  refine ⟨⟨fun i x => gives_value (and_gives i x) fun clk u t => ?_, fun i x => gives_value (or_gives i x) fun clk u t => ?_,
    fun x => gives_of (exec_xor x), fun x => gives_value (not_gives x) fun clk u t => ?_,
    fun tab x => gives_value (lut_gives tab x) fun clk u t => lut_eq .., fun x => gives_value (shl_gives x) fun clk u t => ?_,
    fun x => gives_value (shr_gives false x) fun clk u t => ?_, fun x => gives_value (shr_gives true x) fun clk u t => ?_,
    fun x => gives_value (rot_gives false x) fun clk u t => ?_, fun x => gives_value (rot_gives true x) fun clk u t => ?_⟩,
    fun right x => gives_of (exec_shf right x), fun n a b ha hb k hk => shf_full ha hb hk⟩
  · exact congrArg (Nat.land _) (invIf_eq (readOpnd_lt ..) i)
  · exact congrArg (Nat.lor _) (invIf_eq (readOpnd_lt ..) i)
  · exact inv_eq (readOpnd_lt ..)
  · exact shl_eq _ _ _ (readOpnd_lt ..)
  · exact shr_logical (readOpnd_lt ..) _
  · exact shr_arithmetic (bits_pos _) _ _
  · exact rot_left (bits_pos _) (readOpnd_lt ..) _
  · exact rot_right (bits_pos _) (readOpnd_lt ..) _

end Sys2Proof.Laws
end

section
/-! SUPPORT. Counting and field instructions (R82 to R85), bit by bit. -/

open Sys2Proof Sys2Proof.Machine

namespace Sys2Proof.Laws

/-! ### Counts and reversal -/

theorem popcount_eq (a n : Nat) : popcount a n = ((List.range n).filter fun k => a.testBit k).length := by
  induction n with
  | zero => rfl
  | succ n ih =>
    rw [popcount, ih, List.range_succ, List.filter_append, List.length_append]
    congr 1
    rw [List.filter_singleton, Nat.testBit_eq_decide_div_mod_eq]
    rcases Nat.mod_two_eq_zero_or_one (a / 2 ^ n) with h | h <;> simp [h]

theorem leadZeros_spec (n : Nat) : ∀ a, a < 2 ^ n → leadZeros a n ≤ n ∧ (a = 0 → leadZeros a n = n) ∧
    (a ≠ 0 → 2 ^ (n - 1 - leadZeros a n) ≤ a ∧ a < 2 ^ (n - leadZeros a n)) := by
  induction n with
  | zero => intro a h; simp [leadZeros] at *; omega
  | succ n ih =>
    intro a h
    have hpos := Nat.two_pow_pos n
    have hquo : a / 2 ^ n < 2 := by rw [Nat.div_lt_iff_lt_mul hpos]; omega
    rw [leadZeros]
    split
    · next hone =>
      have hge : 2 ^ n ≤ a := by
        by_contra hlt
        rw [Nat.div_eq_of_lt (by omega)] at hone
        omega
      exact ⟨by omega, by omega, fun _ => ⟨by simpa using hge, by simpa using h⟩⟩
    · next hone =>
      have hzero : a / 2 ^ n = 0 := by
        revert hquo hone
        generalize a / 2 ^ n = q
        omega
      have hlt : a < 2 ^ n := Nat.lt_of_div_eq_zero hpos hzero
      obtain ⟨hle, hzero, hne⟩ := ih a hlt
      rw [show n + 1 - 1 - (1 + leadZeros a n) = n - 1 - leadZeros a n by omega, show n + 1 - (1 + leadZeros a n) = n - leadZeros a n by omega]
      exact ⟨by omega, fun ha => by have := hzero ha; omega, hne⟩

theorem trailZeros_spec (n : Nat) : ∀ a, a < 2 ^ n → (a = 0 → trailZeros a n = n) ∧
    (a ≠ 0 → a % 2 ^ trailZeros a n = 0 ∧ a.testBit (trailZeros a n) = true) := by
  induction n with
  | zero => intro a h; simp [trailZeros] at *; omega
  | succ n ih =>
    intro a h
    rw [trailZeros]
    split
    · next hodd => exact ⟨by omega, fun _ => ⟨by simp [Nat.mod_one], by simp [hodd]⟩⟩
    · next heven =>
      obtain ⟨hzero, hne⟩ := ih (a / 2) (by omega)
      refine ⟨fun ha => ?_, fun ha => ?_⟩
      · have := hzero (by omega)
        omega
      · obtain ⟨hmod, hbit⟩ := hne (by omega)
        rw [Nat.add_comm 1]
        exact ⟨by rw [pow_succ', Nat.mod_mul, hmod]; omega, by rw [Nat.testBit_succ]; exact hbit⟩

theorem reverseBits_lt (n : Nat) : ∀ a, reverseBits a n < 2 ^ n := by
  induction n with
  | zero => intro a; exact Nat.one_pos
  | succ n ih =>
    intro a
    have hb := Nat.mod_two_eq_zero_or_one a
    have hr := ih (a / 2)
    rw [reverseBits]
    rcases hb with h | h <;> (rw [h]; omega)

theorem reverseBits_testBit (n : Nat) : ∀ a k, k < n → (reverseBits a n).testBit (n - 1 - k) = a.testBit k := by
  induction n with
  | zero => intro a k h; omega
  | succ n ih =>
    intro a k h
    rw [reverseBits, mul_comm, Nat.testBit_two_pow_mul_add _ (reverseBits_lt n _)]
    cases k with
    | zero => simp [Nat.testBit_zero]
    | succ k =>
      rw [if_pos (by omega), show n + 1 - 1 - (k + 1) = n - 1 - k by omega, ih _ _ (by omega), Nat.testBit_succ]

/-! ### Bits of integers -/

/-- Bit k of z in two's complement without end. -/
def zbit (z : Int) (k : Nat) : Bool := decide (z / ((2 ^ k : Nat) : Int) % 2 = 1)

theorem zbit_div (z : Int) (p k : Nat) : zbit (z / ((2 ^ p : Nat) : Int)) k = zbit z (p + k) := by
  unfold zbit
  rw [Int.ediv_ediv_of_nonneg (by positivity), pow_add, Nat.cast_mul]

/-- The bits of z's encoding in n bits are z's low n bits. -/
theorem testBit_intBits (z : Int) {n k : Nat} (hk : k < n) : (intBits n z).testBit k = zbit z k := by
  have hpk : ((2 ^ k : Nat) : Int) ≠ 0 := by positivity
  have hsplit : ((2 ^ n : Nat) : Int) = 2 * ((2 ^ (n - k - 1) : Nat) : Int) * ((2 ^ k : Nat) : Int) := by
    have hnat : 2 ^ n = 2 * 2 ^ (n - k - 1) * 2 ^ k := by
      rw [← pow_succ', ← pow_add]
      congr 1
      omega
    exact_mod_cast hnat
  have hquo : z / ((2 ^ k : Nat) : Int) = z % ((2 ^ n : Nat) : Int) / ((2 ^ k : Nat) : Int) +
      2 * (((2 ^ (n - k - 1) : Nat) : Int) * (z / ((2 ^ n : Nat) : Int))) := by
    have hz := Int.emod_add_mul_ediv z ((2 ^ n : Nat) : Int)
    generalize z / ((2 ^ n : Nat) : Int) = q at hz ⊢
    generalize z % ((2 ^ n : Nat) : Int) = r at hz ⊢
    rw [← Int.add_mul_ediv_right _ _ hpk, ← hz, hsplit]
    congr 1
    ring
  have hcast := cast_intBits n z
  unfold zbit
  rw [Nat.testBit_eq_decide_div_mod_eq, hquo, ← hcast]
  generalize ((2 ^ (n - k - 1) : Nat) : Int) * (z / ((2 ^ n : Nat) : Int)) = q
  norm_cast
  rw [decide_eq_decide]
  omega

/-- A number read in two's complement goes on with its sign bit. -/
theorem zbit_signed {n : Nat} (hn : 0 < n) (a k : Nat) : zbit (signed a n) k = if k < n then a.testBit k else a.testBit (n - 1) := by
  have low : ∀ j, j < n → zbit (signed a n) j = a.testBit j := by
    intro j hj
    have hmod : signed (a % 2 ^ n) n = signed a n := by simp [signed]
    have hback : intBits n (signed a n) = a % 2 ^ n := by
      rw [← hmod]
      exact intBits_intOf hn true (Nat.mod_lt _ (Nat.two_pow_pos n))
    rw [← testBit_intBits _ hj, hback, Nat.testBit_mod_two_pow]
    simp [hj]
  split_ifs with hk
  · exact low k hk
  · have sign : zbit (signed a n) k = zbit (signed a n) (n - 1) := by
      have hrange := inRange_signed.mp (inRange_intOf hn true a)
      rw [show intOf true n a = signed a n from rfl] at hrange
      unfold zbit
      rw [signed_shift a hn (by omega)]
      split_ifs with hneg
      · rw [Int.ediv_eq_neg_one_of_neg_of_le hneg (by omega)]
      · rw [Int.ediv_eq_zero_of_lt (by omega) (by omega)]
    rw [sign, low _ (by omega)]

/-! ### BFX -/

theorem bfx_unsigned {n a pos len k : Nat} (ha : a < 2 ^ n) :
    (bfxValue false n a pos len).testBit k = (decide (k < min (len % 256) n) && decide (pos % 256 + k < n) && a.testBit (pos % 256 + k)) := by
  have hval : bfxValue false n a pos len = a / 2 ^ (pos % 256) % 2 ^ min (len % 256) n := by
    unfold bfxValue
    dsimp only
    split
    · next hz => rw [hz, pow_zero, Nat.mod_one]
    · simp only [Bool.false_eq_true, if_false]
      exact Int.toNat_natCast _
  have hhigh : ¬pos % 256 + k < n → a.testBit (pos % 256 + k) = false := fun h =>
    Nat.testBit_lt_two_pow (ha.trans_le (Nat.pow_le_pow_right (by decide) (by omega)))
  rw [hval, Nat.testBit_mod_two_pow, Nat.testBit_div_two_pow, Nat.add_comm k]
  by_cases h : pos % 256 + k < n <;> simp [h, hhigh]

theorem bfx_signed {n a pos len k : Nat} (hl : 0 < min (len % 256) n) (hk : k < n) :
    (bfxValue true n a pos len).testBit k =
      zbit (signed a n) (pos % 256 + if k < min (len % 256) n then k else min (len % 256) n - 1) := by
  unfold bfxValue
  dsimp only
  generalize hL : min (len % 256) n = l at hl ⊢
  rw [if_neg (by omega), if_pos rfl, if_pos rfl, testBit_intBits _ hk]
  rw [show ((signed a n / ((2 ^ (pos % 256) : Nat) : Int)) % ((2 ^ l : Nat) : Int)).toNat = intBits l (signed a n / ((2 ^ (pos % 256) : Nat) : Int)) from rfl,
    zbit_signed hl, ← zbit_div]
  split_ifs with h
  · exact testBit_intBits _ h
  · exact testBit_intBits _ (by omega)

theorem bfx_testBit {sx : Bool} {n a pos len k : Nat} (hn : 0 < n) (ha : a < 2 ^ n) (hk : k < n) :
    let L := min (len % 256) n
    let ext (j : Nat) : Bool := if j < n then a.testBit j else sx && a.testBit (n - 1)
    (bfxValue sx n a pos len).testBit k = (decide (0 < L) && if k < L then ext (pos % 256 + k) else sx && ext (pos % 256 + L - 1)) := by
  dsimp only
  by_cases hl : 0 < min (len % 256) n
  · cases sx with
    | false =>
      rw [bfx_unsigned ha]
      by_cases h : k < min (len % 256) n <;> by_cases hp : pos % 256 + k < n <;> simp [h, hp, hl]
    | true =>
      rw [bfx_signed hl hk, zbit_signed hn, decide_eq_true hl]
      by_cases h : k < min (len % 256) n
      · simp [h]
      · simp [h, Nat.add_sub_assoc hl]
  · have hval : bfxValue sx n a pos len = 0 := by
      unfold bfxValue
      exact if_pos (by omega)
    simp [hval, hl]

/-! ### BFI -/

/-- The mask of l ones from pos on, cut to n bits. -/
theorem hole_testBit {n l pos k : Nat} (hk : k < n) : (maskN l * 2 ^ pos % 2 ^ n).testBit k = decide (pos ≤ k ∧ k < pos + l) := by
  rw [Nat.testBit_mod_two_pow, Nat.testBit_mul_two_pow, maskN, Nat.testBit_two_pow_sub_one, Bool.eq_iff_iff]
  simp only [Bool.and_eq_true, decide_eq_true_eq]
  omega

theorem bfi_testBit {n a b c k : Nat} (hk : k < n) :
    let pos := c % 256
    let L := c / 256 % 256
    (bfiValue n a b c).testBit k = if pos ≤ k ∧ k < pos + L then b.testBit (k - pos) else a.testBit k := by
  dsimp only
  unfold bfiValue
  dsimp only
  rw [Nat.testBit_or, Nat.testBit_and, Nat.testBit_xor, hole_testBit hk, maskN, Nat.testBit_two_pow_sub_one, Nat.testBit_mod_two_pow,
    Nat.testBit_mul_two_pow, Nat.testBit_mod_two_pow]
  by_cases h : c % 256 ≤ k ∧ k < c % 256 + c / 256 % 256
  · have h' : c % 256 ≤ k ∧ k < c % 256 + min (c / 256 % 256) n := by omega
    have h'' : k - c % 256 < min (c / 256 % 256) n := by omega
    simp [h, h', h'', hk]
  · have h' : ¬(c % 256 ≤ k ∧ k < c % 256 + min (c / 256 % 256) n) := by omega
    have h'' : ¬(c % 256 ≤ k ∧ k - c % 256 < min (c / 256 % 256) n) := by omega
    rw [if_neg h, decide_eq_false h']
    by_cases hp : c % 256 ≤ k
    · simp [hk, hp, show ¬k - c % 256 < min (c / 256 % 256) n from fun hq => h'' ⟨hp, hq⟩]
    · simp [hk, hp]

/-! ### BMIX -/

theorem bmixByte_lt (ab sel : Nat) : bmixByte ab sel < 256 := by
  have hb : bits ab (8 * (sel % 8)) 8 < 256 := Nat.mod_lt _ (by decide)
  unfold bmixByte
  dsimp only
  split
  · exact hb
  · exact reverseBits_lt 8 _
  · split <;> decide
  · have hs : sel % 8 < 8 := Nat.mod_lt _ (by decide)
    generalize sel % 8 = i at hs
    revert i
    decide

theorem bmixByte_eq (ab sel : Nat) : bmixByte ab sel =
    if sel / 8 % 4 = 0 then ab / 2 ^ (8 * (sel % 8)) % 256
    else if sel / 8 % 4 = 1 then reverseBits (ab / 2 ^ (8 * (sel % 8)) % 256) 8
    else if sel / 8 % 4 = 2 then (if 128 ≤ ab / 2 ^ (8 * (sel % 8)) % 256 then 255 else 0)
    else [0x00, 0xFF, 0x80, 0x7F, 0x01, 0x0F, 0xF0, 0x55].getD (sel % 8) 0 := by
  have hs : bits sel 3 2 = sel / 8 % 4 := rfl
  unfold bmixByte
  dsimp only
  rw [hs]
  split
  · next h => rw [if_pos h]; rfl
  · next h => rw [h, if_neg (by decide), if_pos rfl]; rfl
  · next h => exact ((if_neg (by omega)).trans ((if_neg (by omega)).trans (if_pos h))).symm
  · next h0 h1 h2 => rw [if_neg h0, if_neg h1, if_neg h2]

/-- Byte j of four bytes put together. -/
theorem byte_of_four {p q r s : Nat} (hp : p < 256) (hq : q < 256) (hr : r < 256) (hs : s < 256) {j : Nat} (hj : j < 4) :
    (p + 2 ^ 8 * q + 2 ^ 16 * r + 2 ^ 24 * s) / 2 ^ (8 * j) % 256 = [p, q, r, s].getD j 0 := by
  interval_cases j <;> simp <;> omega

theorem bmix_byte (a b c : Nat) {j : Nat} (hj : j < 4) :
    bmixValue a b c / 2 ^ (8 * j) % 256 = bmixByte (a + 2 ^ 32 * b) (c / 2 ^ (8 * j) % 256) := by
  unfold bmixValue
  dsimp only
  rw [byte_of_four (bmixByte_lt ..) (bmixByte_lt ..) (bmixByte_lt ..) (bmixByte_lt ..) hj]
  interval_cases j <;> rfl

/-- Settles O13: the counts, the reversal, and each bit or byte of a field instruction's result. -/
theorem countingAndFields : Obligations.CountingAndFields := by
  refine ⟨⟨fun x => gives_of (exec_popc x), fun x => gives_of (exec_clz x), fun x => gives_of (exec_ctz x), fun x => gives_of (exec_brev x),
    fun n a => popcount_eq a n, leadZeros_spec, trailZeros_spec, fun n a k hk => reverseBits_testBit n a k hk, reverseBits_lt⟩,
    fun sx x => gives_of (exec_bfx sx x), fun x => gives_of (exec_bfi x), fun x => gives_of (exec_bmix x),
    fun sx n a pos len k hn ha hk => bfx_testBit hn ha hk, fun n a b c k _ _ hk => bfi_testBit hk, fun a b c _ _ j hj => ?_⟩
  exact (bmix_byte a b c hj).trans (bmixByte_eq ..)

end Sys2Proof.Laws
end

section
/-! SUPPORT. Moves, selection, predicates and addresses (R86 to R92). -/

open Sys2Proof Sys2Proof.Machine

namespace Sys2Proof.Laws

/-! ### PMOV -/

theorem packPreds_lt (k : Rank) (t n : Nat) : packPreds k t n < 2 ^ n := by
  induction n with
  | zero => exact Nat.one_pos
  | succ n ih => rw [packPreds]; split <;> omega

theorem packPreds_testBit (k : Rank) (t j n : Nat) : (packPreds k t n).testBit j = (decide (j < n) && (k.pred j).getLsbD t) := by
  induction n with
  | zero => simp [packPreds]
  | succ n ih =>
    have hsum : packPreds k t (n + 1) = 2 ^ n * (if (k.pred n).getLsbD t then 1 else 0) + packPreds k t n := by
      rw [packPreds, Nat.add_comm]
      split <;> simp
    rw [hsum, Nat.testBit_two_pow_mul_add _ (packPreds_lt k t n), ih]
    rcases Nat.lt_trichotomy j n with h | rfl | h
    · simp [h, Nat.lt_succ_of_lt h]
    · cases (k.pred j).getLsbD t <;> simp
    · obtain ⟨m, hm⟩ : ∃ m, j - n = m + 1 := ⟨j - n - 1, by omega⟩
      rw [if_neg (by omega), hm, decide_eq_false (by omega : ¬j < n + 1), Nat.testBit_succ]
      cases (k.pred n).getLsbD t <;> simp

theorem setP_rising {k : Rank} (i t : Nat) (b : Bool) (hk : rising (k.p.map (·.1)) = true) : rising ((k.setP i t b).p.map (·.1)) = true := by
  unfold Rank.setP
  split
  · exact hk
  · exact rising_sput _ _ _ _ hk

theorem setP_zero (k : Rank) (t : Nat) (b : Bool) : k.setP 0 t b = k := rfl

/-- Writing the bits of x into the predicates of a list of numbers, each once. -/
theorem unpacked_pred (t x j : Nat) (l : List Nat) (hl : l.Nodup) : ∀ {k : Rank}, rising (k.p.map (·.1)) = true →
    (l.foldl (fun k i => k.setP i t (bit x i)) k).pred j = if j ∈ l ∧ j ≠ 0 then setBit (k.pred j) t (bit x j) else k.pred j := by
  induction l with
  | nil => intro k _; simp
  | cons i l ih =>
    intro k hk
    obtain ⟨hi, hl⟩ := List.nodup_cons.mp hl
    rw [List.foldl_cons, ih hl (setP_rising i t _ hk)]
    by_cases hz : i = 0
    · subst hz
      rw [setP_zero]
      refine if_congr ?_ rfl rfl
      constructor
      · rintro ⟨hm, hj⟩; exact ⟨List.mem_cons_of_mem _ hm, hj⟩
      · rintro ⟨hm, hj⟩; exact ⟨(List.mem_cons.mp hm).resolve_left hj, hj⟩
    · rw [setP_pred t _ hk hz]
      by_cases hj : j = i
      · subst hj
        rw [if_neg fun h => hi h.1, if_pos rfl, if_pos ⟨List.mem_cons_self, hz⟩]
      · rw [if_neg hj]
        exact if_congr (by simp [hj]) rfl rfl

theorem unpackPreds_get {k : Rank} {t j t' : Nat} (x : Nat) (ht : t < 32) (h0 : 0 < j) (hj : j < 16) (hk : rising (k.p.map (·.1)) = true) :
    ((unpackPreds t x k).pred j).getLsbD t' = if t' = t then x.testBit j else (k.pred j).getLsbD t' := by
  have hp := unpacked_pred t x j (List.range 16) List.nodup_range hk
  rw [if_pos ⟨List.mem_range.mpr hj, by omega⟩] at hp
  rw [unpackPreds, hp, setBit_get _ _ ht, bit_eq_testBit]

theorem setP_threads (k : Rank) (i t : Nat) (b : Bool) : (k.setP i t b).threads = k.threads := by
  unfold Rank.setP
  split <;> rfl

theorem foldl_threads {α : Type} {f : Rank → α → Rank} (h : ∀ k a, (f k a).threads = k.threads) (l : List α) (k : Rank) :
    (l.foldl f k).threads = k.threads := by
  induction l generalizing k with
  | nil => rfl
  | cons a l ih => exact (ih _).trans (h k a)

theorem unpackPreds_threads (t x : Nat) (k : Rank) : (unpackPreds t x k).threads = k.threads := foldl_threads (fun _ _ => setP_threads ..) _ k

theorem pmovUnpack_completes (c : Ctl) (a : Opnd) : Completes (.pmovUnpack c a) c (fun _ _ => True) fun s u =>
    modRank u.g u.r (fun k => (threadsOf u.ex).foldl (fun k t => unpackPreds t (readOpnd s.clk u .b32 0 a t) k) k) s :=
  word_rank (e := fun u s => finish c (encode (.pmovUnpack c a)) u
      (modRank u.g u.r (fun k => (threadsOf u.ex).foldl (fun k t => unpackPreds t (readOpnd s.clk u .b32 0 a t) k) k) s))
    (exec_pmovUnpack c a) (fun _ _ _ _ => rfl) fun _ _ _ => foldl_threads (fun _ _ => unpackPreds_threads ..) _ _

/-! ### Predicates and addresses -/

theorem psetValue_eq (f : PsetFn) (a b : Bool) :
    psetValue f a b = (match f with | .and => a && b | .or => a || b | .xor => xor a b | .andn => a && !b | .orn => a || !b) := by
  cases f <;> cases a <;> cases b <;> rfl

theorem lea_gives (c : Ctl) (sh : BitVec 3) (zx : Bool) (d a b x : Opnd) : Gives (.lea c sh zx d a b x) c .b64 d fun clk u t =>
    leaValue sh.toNat zx (readOpnd clk u .b64 0 a t) (readOpnd clk u .b32 0 b t) (readOpnd clk u .b64 0 x t) :=
  gives_of (exec_lea c sh zx d a b x)

theorem leaValue_eq (sh : Nat) (zx : Bool) (a b c : Nat) : leaValue sh zx a b c =
    (((a : Int) + (if zx then (b : Int) else signed b 32) * 2 ^ sh + c) % 2 ^ 64).toNat := by
  unfold leaValue intBits
  push_cast
  rfl

theorem ptrMk_gives (c : Ctl) (sp : MkSpace) (d a b : Opnd) (imm : Word) : Gives (.ptrMk c sp d a b imm) c .b64 d fun clk u t =>
    ptrMkValue sp (readOpnd clk u .b64 imm a t) (readOpnd clk u .b32 imm b t) := gives_of (exec_ptrMk c sp d a b imm)

theorem pset_gives (f : PsetFn) (x : Alu2) : Gives (.pset f x) x.c .b32 x.d fun _ u t =>
    if psetValue f (readPred u x.a t) (readPred u x.b t) then 1 else 0 := gives_of (exec_pset f x)

/-- Settles O14: the value each move gives, and PMOV's bits. -/
theorem moveResults : Obligations.MoveResults := by
  refine ⟨⟨fun x => gives_of (exec_mov x), fun x => gives_of (exec_sel x), fun f x => gives_value (pset_gives f x) fun clk u t => ?_,
    fun c sh zx d a b x => gives_value (lea_gives c sh zx d a b x) fun clk u t => leaValue_eq ..,
    fun c d a b imm => ptrMk_gives c .ctl d a b imm, fun c d a b imm => ptrMk_gives c .ten d a b imm,
    fun c d a b imm => ptrMk_gives c .loc d a b imm, fun c d a b imm => gives_of (exec_ptrAdd c d a b imm),
    fun c d a b imm => gives_of (exec_ptrChk c d a b imm)⟩,
    fun c d => gives_of (exec_pmovPack c d), fun k t j _ => packPreds_testBit k t j 16, pmovUnpack_completes, ?_⟩
  · rw [psetValue_eq] <;> rfl
  · intro k t x j t' ht h0 hj _ hk
    exact unpackPreds_get x ht h0 hj ((rising_iff_pairwise _).mpr hk)

end Sys2Proof.Laws
end

section
/-! SUPPORT. Floating-point results and conversions (R108 to R122): the value each word writes, element by element of a packed type. -/

open Sys2Proof Sys2Proof.Machine

namespace Sys2Proof.Laws

/-! ### Floating-point words -/

/-- The elements of a result: two of a packed type, else one. -/
def elements (ty : Ty) (f : Nat → Nat) : Nat := if ty = .f16x2 ∨ ty = .bf16x2 then f 0 + 2 ^ 16 * f 1 else f 0

theorem perElem_elements (ty : Ty) (f : Nat → Nat) : perElem ty f = elements ty f := perElem_eq ty f

theorem fpOp1_gives {i : Instr} {x : Alu1} {f : XNum → XNum} (h : ∀ s, exec i s = fpOp1 i x f s) : Gives i x.c x.ty x.d fun clk u t =>
    elements x.ty fun h => fpOut x.ty x.rm (f (fpIn x.ty false (readOpnd clk u x.ty x.imm x.a t) h)) :=
  gives_value (gives_of h) fun _ _ _ => perElem_elements ..

theorem fpOp2_gives {i : Instr} {x : Alu2} {f : XNum → XNum → XNum} (h : ∀ s, exec i s = fpOp2 i x f s) : Gives i x.c x.ty x.d fun clk u t =>
    elements x.ty fun h => fpOut x.ty x.rm (f (fpIn x.ty false (readOpnd clk u x.ty x.imm x.a t) h) (fpIn x.ty false (readOpnd clk u x.ty x.imm x.b t) h)) :=
  gives_value (gives_of h) fun _ _ _ => perElem_elements ..

theorem minmax_gives {i : Instr} {x : Alu2} {isMax : Bool} (h : ∀ s, exec i s = minmaxOp i isMax x s) : Gives i x.c x.ty x.d fun clk u t =>
    elements x.ty fun h => fminmax (Ty.fmt x.ty) isMax (elemOf x.ty (readOpnd clk u x.ty x.imm x.a t) h)
      (elemOf x.ty (readOpnd clk u x.ty x.imm x.b t) h) :=
  gives_value (gives_of h) fun _ _ _ => perElem_elements ..

theorem ffma_gives (ftz : Bool) (x : Alu3) : Gives (.ffma ftz x) x.c x.ty x.d fun clk u t => elements x.ty fun h =>
    fpOut x.ty x.rm (numAdd x.rm (numMul (fpIn x.ty ftz (readOpnd clk u x.ty 0 x.a t) h) (fpIn x.ty ftz (readOpnd clk u x.ty 0 x.b t) h))
      (fpIn x.ty ftz (readOpnd clk u x.ty 0 x.x t) h)) :=
  gives_value (gives_of (exec_ffma ftz x)) fun _ _ _ => perElem_elements ..

theorem fset_gives (cc : FCmp) (x : Alu2) : Gives (.fset cc x) x.c .b32 x.d fun clk u t =>
    if fsetHolds cc (fpIn x.ty false (readOpnd clk u x.ty x.imm x.a t) 0) (fpIn x.ty false (readOpnd clk u x.ty x.imm x.b t) 0) then 1 else 0 :=
  gives_of (exec_fset cc x)

theorem fsetHolds_eq (cc : FCmp) (a b : XNum) : fsetHolds cc a b = (match cc with
      | .eq => !(a.isNan || b.isNan) && numCmp a b == 0 | .ne => (a.isNan || b.isNan) || numCmp a b != 0
      | .lt => !(a.isNan || b.isNan) && decide (numCmp a b < 0) | .le => !(a.isNan || b.isNan) && decide (numCmp a b ≤ 0)
      | .gt => !(a.isNan || b.isNan) && decide (numCmp a b > 0) | .ge => !(a.isNan || b.isNan) && decide (numCmp a b ≥ 0)
      | .num => !(a.isNan || b.isNan) | .nan => (a.isNan || b.isNan)) := by cases cc <;> rfl

theorem fact_gives (f : ActFn) (x : Alu1) : Gives (.fact f x) x.c x.ty x.d fun clk u t =>
    elements x.ty fun h => fpOut x.ty x.rm (actFn f (fpIn x.ty false (readOpnd clk u x.ty x.imm x.a t) h)) := fpOp1_gives (exec_fact f x)

/-- Settles O17: each word computes on the decoded elements, and what `fpOut` gives is written. -/
theorem floatResults : Obligations.FloatResults := by
  refine ⟨fun x => fpOp2_gives (exec_fadd x), fun x => fpOp2_gives (f := fun a b => numAdd x.rm a (numNeg b)) (exec_fsub x), fun x => fpOp2_gives (exec_fmul x),
    fun x => fpOp2_gives (exec_fdiv x), ffma_gives, fun x => minmax_gives (exec_fmin x), fun x => minmax_gives (exec_fmax x),
    fun cc x => gives_value (fset_gives cc x) fun _ _ _ => ?_, fun x => fpOp1_gives (exec_fsqrt x), fun x => fpOp1_gives (exec_frcp x),
    fun x => fpOp1_gives (exec_frsq x), fun x => fpOp1_gives (exec_fexp2 x), fun x => fpOp1_gives (exec_flog2 x),
    fun x => fpOp1_gives (exec_fsin x), fun x => fpOp1_gives (exec_fcos x), fun x => fpOp1_gives (exec_ftanh x),
    fun x => fpOp1_gives (exec_frnd x), fun f x => ?_, fun ftz x => gives_of (exec_fdot ftz x)⟩
  · rw [fsetHolds_eq] <;> rfl
  · cases f <;> exact fact_gives _ x

/-! ### Conversions -/

theorem cvtValue_integers (sat : Bool) (mode : Rnd) {sty dty : Ty} (v : Nat) (hs : Ty.fmt? sty = none) (hd : Ty.fmt? dty = none) :
    cvtValue sat mode sty dty v = fit (Ty.isSigned dty) sat (Ty.bits dty) (intOf (Ty.isSigned sty) (Ty.bits sty) v) := by
  unfold cvtValue
  rw [hs, hd]

/-- What BCVT.pack writes into a rank of which a thread executes. -/
def packInto (m : Bcvt) (x : Alu1) (b : Block) (clk : Nat) (u : Iss) (k : Rank) : Rank :=
  (List.range 32).foldl (fun k t =>
    match packWord m b (packBlock m x.rm b clk u x.a) t with
    | some v => writeOpnd .b32 x.d t v k
    | none => k) k

theorem packInto_threads (m : Bcvt) (x : Alu1) (b : Block) (clk : Nat) (u : Iss) (k : Rank) : (packInto m x b clk u k).threads = k.threads := by
  refine foldl_threads (fun k t => ?_) _ k
  split
  · exact (writeOpnd_frame ..).1
  · rfl

theorem bcvtPack_completes {m : Bcvt} {x : Alu1} {b : Block} (hb : Ty.block? m.v x.ty = some b) :
    Completes (.bcvtPack m x) x.c (fun _ u => u.ex ≠ 0) fun s u => modRank u.g u.r (packInto m x b s.clk u) s := by
  refine word_rank (fun s => (exec_bcvtPack m x s).trans rfl) (fun s u _ hex => ?_) fun _ _ _ => packInto_threads ..
  simp only [hb, if_neg hex]
  rfl

theorem bcvtUnpack_gives {m : Bcvt} {x : Alu2} {b : Block} (hb : Ty.block? m.v x.ty = some b) :
    Gives (.bcvtUnpack m x) x.c .f32 x.d fun clk u t =>
      narrow fmtF32 x.rm m.sat (b.decode (readOpnd clk u .b32 0 x.b t) (bits (packedOf b.elemBits (readOpnd clk u .b32 0 x.a)) (b.elemBits * t) b.elemBits)) := by
  refine gives_value (gives_of (exec_bcvtUnpack m x)) fun _ _ _ => ?_
  simp only [hb]

/-- Settles O19: conversions by `cvtValue`, packing a block and unpacking one. -/
theorem conversionResults : Obligations.ConversionResults :=
  ⟨fun sat sty x => gives_of (exec_cvt sat sty x), fun sat mode _ _ v hs hd => cvtValue_integers sat mode v hs hd,
   fun _ _ _ hb => bcvtPack_completes hb, fun _ _ _ hb => bcvtUnpack_gives hb⟩

end Sys2Proof.Laws
end

section
/-! SUPPORT. Exchange between the threads of a rank (R103 to R107): masks as lists of threads, and what the tree of RED combines. -/

open Sys2Proof Sys2Proof.Machine

namespace Sys2Proof.Laws

/-! ### The tree -/

/-- r stands for the values c: nothing for none of them, else a value that Q relates to them. -/
def Sums (Q : Nat → List Nat → Prop) (r : Option Nat) (c : List Nat) : Prop :=
  match r with
  | none => c = []
  | some x => c ≠ [] ∧ Q x c

variable {Q : Nat → List Nat → Prop} {op : Nat → Nat → Nat}

theorem sums_combine (hop : ∀ {x y l m}, Q x l → Q y m → Q (op x y) (l ++ m)) {a b : Option Nat} {l m : List Nat} (ha : Sums Q a l)
    (hb : Sums Q b m) : Sums Q (combine op a b) (l ++ m) := by
  cases a with
  | none =>
    obtain rfl : l = [] := ha
    cases b <;> exact hb
  | some x =>
    cases b with
    | none =>
      obtain rfl : m = [] := hb
      simpa [combine] using ha
    | some y => exact ⟨by simp [ha.1], hop ha.2 hb.2⟩

/-- A level of the tree stands for the same values as the one below it. -/
theorem sums_pairUp (hop : ∀ {x y l m}, Q x l → Q y m → Q (op x y) (l ++ m)) : ∀ (L : List (Option Nat)) (C : List (List Nat)),
    List.Forall₂ (Sums Q) L C → ∃ C', List.Forall₂ (Sums Q) (pairUp op L) C' ∧ C'.flatten = C.flatten
  | [], C, h => ⟨C, h, rfl⟩
  | [_], C, h => ⟨C, h, rfl⟩
  | a :: b :: L, C, h => by
    cases h with
    | cons ha h =>
      cases h with
      | cons hb h =>
        obtain ⟨C', hC, hflat⟩ := sums_pairUp hop L _ h
        exact ⟨_ :: C', .cons (sums_combine hop ha hb) hC, by simp [hflat]⟩

theorem pairUp_length : ∀ (L : List (Option Nat)), (pairUp op L).length = (L.length + 1) / 2
  | [] => rfl
  | [_] => by simp [pairUp]
  | a :: b :: L => by
    rw [pairUp, List.length_cons, pairUp_length L]
    simp only [List.length_cons]
    omega

theorem treeRoot_eq (L : List (Option Nat)) : treeRoot op L = (pairUp op (pairUp op (pairUp op (pairUp op (pairUp op L))))).headD none := rfl

theorem sums_leaves (hleaf : ∀ x, some x ∈ L → Q x [x]) : List.Forall₂ (Sums Q) L (L.map Option.toList) := by
  induction L with
  | nil => exact .nil
  | cons a L ih =>
    refine .cons ?_ (ih fun x hx => hleaf x (List.mem_cons_of_mem _ hx))
    cases a with
    | none => rfl
    | some x => exact ⟨by simp, hleaf x List.mem_cons_self⟩

theorem flatten_leaves (L : List (Option Nat)) : (L.map Option.toList).flatten = L.filterMap id := by
  induction L with
  | nil => rfl
  | cons a L ih => cases a <;> simp [ih]

/-- The root of the tree over 32 leaves stands for all the leaves' values. -/
theorem sums_treeRoot (hop : ∀ {x y l m}, Q x l → Q y m → Q (op x y) (l ++ m)) {L : List (Option Nat)} (hlen : L.length = 32)
    (hleaf : ∀ x, some x ∈ L → Q x [x]) : Sums Q (treeRoot op L) (L.filterMap id) := by
  obtain ⟨C1, h1, e1⟩ := sums_pairUp hop _ _ (sums_leaves hleaf)
  obtain ⟨C2, h2, e2⟩ := sums_pairUp hop _ _ h1
  obtain ⟨C3, h3, e3⟩ := sums_pairUp hop _ _ h2
  obtain ⟨C4, h4, e4⟩ := sums_pairUp hop _ _ h3
  obtain ⟨C5, h5, e5⟩ := sums_pairUp hop _ _ h4
  rw [treeRoot_eq, ← flatten_leaves, ← e1, ← e2, ← e3, ← e4, ← e5]
  have hone : (pairUp op (pairUp op (pairUp op (pairUp op (pairUp op L))))).length = 1 := by simp only [pairUp_length, hlen]
  generalize pairUp op (pairUp op (pairUp op (pairUp op (pairUp op L)))) = T at h5 hone
  cases h5 with
  | nil => simp at hone
  | cons ha h =>
    cases h with
    | nil => simpa using ha
    | cons _ _ => simp at hone

/-! ### Reductions over integers -/

theorem redOp_int {ty : Ty} (ht : Ty.fmt? ty = none) (f : RedFn) (mode : Rnd) (a b : Nat) : redOp f ty mode a b = (match f with
    | .add => (a + b) % 2 ^ Ty.bits ty
    | .min => if intOf (Ty.isSigned ty) (Ty.bits ty) b < intOf (Ty.isSigned ty) (Ty.bits ty) a then b else a
    | .max => if intOf (Ty.isSigned ty) (Ty.bits ty) a < intOf (Ty.isSigned ty) (Ty.bits ty) b then b else a
    | .and => a &&& b
    | .or => a ||| b
    | .xor => a ^^^ b) := by
  unfold redOp
  rw [ht] <;> cases f <;> rfl

variable {L : List (Option Nat)} {ty : Ty} {mode : Rnd}

theorem reduce_none {f : RedFn} (hlen : L.length = 32) : treeRoot (redOp f ty mode) L = none ↔ L.filterMap id = [] := by
  have h : Sums (fun _ _ => True) (treeRoot (redOp f ty mode) L) (L.filterMap id) := sums_treeRoot (fun _ _ => trivial) hlen fun _ _ => trivial
  generalize treeRoot (redOp f ty mode) L = r at h
  cases r with
  | none => exact ⟨fun _ => h, fun _ => rfl⟩
  | some x => exact ⟨nofun, fun hc => absurd hc h.1⟩

theorem reduce_add (ht : Ty.fmt? ty = none) (hlen : L.length = 32) (hx : ∀ x, some x ∈ L → x < 2 ^ Ty.bits ty) :
    (treeRoot (redOp .add ty mode) L).getD 0 = (L.filterMap id).sum % 2 ^ Ty.bits ty := by
  have h : Sums (fun x c => x = c.sum % 2 ^ Ty.bits ty) (treeRoot (redOp .add ty mode) L) (L.filterMap id) := by
    refine sums_treeRoot (fun {x y l m} hl hm => ?_) hlen fun x hm => ?_
    · rw [redOp_int ht, hl, hm, List.sum_append, ← Nat.add_mod]
    · simp [Nat.mod_eq_of_lt (hx x hm)]
  generalize treeRoot (redOp .add ty mode) L = r at h
  cases r with
  | none => rw [show L.filterMap id = [] from h]; simp
  | some x => exact h.2

/-- The operation that keeps the operand that comes first under a total preorder. -/
theorem reduce_extreme {f : RedFn} {le : Nat → Nat → Prop} (hrefl : ∀ x, le x x) (htrans : ∀ x y z, le x y → le y z → le x z)
    (hop : ∀ x y, (redOp f ty mode x y = x ∧ le x y) ∨ (redOp f ty mode x y = y ∧ le y x)) (hlen : L.length = 32) {x : Nat}
    (hroot : treeRoot (redOp f ty mode) L = some x) : x ∈ L.filterMap id ∧ ∀ y ∈ L.filterMap id, le x y := by
  have h : Sums (fun x c => x ∈ c ∧ ∀ y ∈ c, le x y) (treeRoot (redOp f ty mode) L) (L.filterMap id) := by
    refine sums_treeRoot (fun {x y l m} hl hm => ?_) hlen fun x _ => ⟨by simp, fun y hy => by rw [List.mem_singleton.mp hy]; exact hrefl x⟩
    obtain ⟨hxl, hxle⟩ := hl
    obtain ⟨hym, hyle⟩ := hm
    rcases hop x y with ⟨heq, hle⟩ | ⟨heq, hle⟩
    · rw [heq]
      refine ⟨List.mem_append_left _ hxl, fun z hz => (List.mem_append.mp hz).elim (hxle z) fun hz => htrans _ _ _ hle (hyle z hz)⟩
    · rw [heq]
      refine ⟨List.mem_append_right _ hym, fun z hz => (List.mem_append.mp hz).elim (fun hz => htrans _ _ _ hle (hxle z hz)) (hyle z)⟩
  rw [hroot] at h
  exact h.2

theorem reduce_and (ht : Ty.fmt? ty = none) (hlen : L.length = 32) (hne : L.filterMap id ≠ []) (j : Nat) :
    ((treeRoot (redOp .and ty mode) L).getD 0).testBit j = (L.filterMap id).all fun x => x.testBit j := by
  have h : Sums (fun x c => x.testBit j = c.all fun y => y.testBit j) (treeRoot (redOp .and ty mode) L) (L.filterMap id) := by
    refine sums_treeRoot (fun {x y l m} hl hm => ?_) hlen fun x _ => by simp
    rw [redOp_int ht, Nat.testBit_and, hl, hm, List.all_append]
  generalize treeRoot (redOp .and ty mode) L = r at h
  cases r with
  | none => exact absurd h hne
  | some x => exact h.2

theorem reduce_or (ht : Ty.fmt? ty = none) (hlen : L.length = 32) (j : Nat) :
    ((treeRoot (redOp .or ty mode) L).getD 0).testBit j = (L.filterMap id).any fun x => x.testBit j := by
  have h : Sums (fun x c => x.testBit j = c.any fun y => y.testBit j) (treeRoot (redOp .or ty mode) L) (L.filterMap id) := by
    refine sums_treeRoot (fun {x y l m} hl hm => ?_) hlen fun x _ => by simp
    rw [redOp_int ht, Nat.testBit_or, hl, hm, List.any_append]
  generalize treeRoot (redOp .or ty mode) L = r at h
  cases r with
  | none => rw [show L.filterMap id = [] from h]; simp
  | some x => exact h.2

/-- Settles O16: what a node of the tree stands for, by the levels of the tree. -/
theorem integerReduction : Obligations.IntegerReduction := by
  intro ty mode L ht hlen hx
  refine ⟨reduce_add ht hlen hx, fun x hroot => ?_, fun x hroot => ?_, fun f => reduce_none hlen, fun j => ⟨fun hne => reduce_and ht hlen hne j, reduce_or ht hlen j⟩⟩
  · refine reduce_extreme (le := fun x y => intOf (Ty.isSigned ty) (Ty.bits ty) x ≤ intOf (Ty.isSigned ty) (Ty.bits ty) y) (fun _ => le_rfl)
      (fun _ _ _ => le_trans) (fun a b => ?_) hlen hroot
    rw [redOp_int ht]
    dsimp only
    split_ifs with h
    · exact .inr ⟨rfl, h.le⟩
    · exact .inl ⟨rfl, not_lt.mp h⟩
  · refine reduce_extreme (le := fun x y => intOf (Ty.isSigned ty) (Ty.bits ty) y ≤ intOf (Ty.isSigned ty) (Ty.bits ty) x) (fun _ => le_rfl)
      (fun _ _ _ h k => le_trans k h) (fun a b => ?_) hlen hroot
    rw [redOp_int ht]
    dsimp only
    split_ifs with h
    · exact .inr ⟨rfl, h.le⟩
    · exact .inl ⟨rfl, not_lt.mp h⟩

/-! ### Masks -/

theorem sum_bits (x n : Nat) (h : x < 2 ^ n) : (((List.range n).filter fun t => x.testBit t).map fun t => 2 ^ t).sum = x := by
  induction n generalizing x with
  | zero => simp at *; omega
  | succ n ih =>
    have hlow : ((List.range n).filter fun t => x.testBit t) = (List.range n).filter fun t => (x % 2 ^ n).testBit t := by
      refine List.filter_congr fun t ht => ?_
      rw [Nat.testBit_mod_two_pow, decide_eq_true (List.mem_range.mp ht), Bool.true_and]
    have hx := Nat.div_add_mod x (2 ^ n)
    have hq : x / 2 ^ n < 2 := by rw [Nat.div_lt_iff_lt_mul (Nat.two_pow_pos n)]; omega
    rw [List.range_succ, List.filter_append, List.map_append, List.sum_append, hlow, ih _ (Nat.mod_lt _ (Nat.two_pow_pos n)),
      List.filter_singleton, Nat.testBit_eq_decide_div_mod_eq]
    rcases Nat.le_one_iff_eq_zero_or_eq_one.mp (Nat.le_of_lt_succ hq) with h0 | h1
    · rw [h0] at hx ⊢
      simpa using hx
    · rw [h1] at hx ⊢
      simp
      omega

/-- A mask as a number is the sum over its threads. -/
theorem mask_toNat (m : Mask) : m.toNat = ((threadsOf m).map fun t => 2 ^ t).sum := (sum_bits m.toNat 32 m.isLt).symm

theorem threadsOf_maskOf (f : Nat → Bool) : threadsOf (maskOf f) = (List.range 32).filter f := by
  refine List.filter_congr fun t ht => ?_
  rw [maskOf_get, decide_eq_true (List.mem_range.mp ht), Bool.true_and]

theorem threadsOf_inj {a b : Mask} : threadsOf a = threadsOf b ↔ a = b := by
  refine ⟨fun h => mask_ext fun t ht => ?_, fun h => by rw [h]⟩
  have hmem : t ∈ threadsOf a ↔ t ∈ threadsOf b := by rw [h]
  rw [mem_threadsOf, mem_threadsOf] at hmem
  exact Bool.eq_iff_iff.mpr (by simpa [ht] using hmem)

theorem threadsOf_trueMask (u : Iss) (a : Opnd) : threadsOf (trueMask u a) = (List.range 32).filter fun t => u.ex.getLsbD t && readPred u a t :=
  threadsOf_maskOf _

theorem threadsOf_sameMask (u : Iss) (value : Nat → Nat) (v : Nat) :
    threadsOf (sameMask u value v) = ((List.range 32).filter fun t => u.ex.getLsbD t).filter fun s => value s == v := by
  rw [List.filter_filter, sameMask, threadsOf_maskOf]
  exact List.filter_congr fun t _ => Bool.and_comm ..

/-! ### BALLOT, CENSUS, SAME -/

theorem ballot_gives (x : Alu1) : Gives (.ballot x) x.c .b32 x.d fun _ u _ => (trueMask u x.a).toNat := gives_of (exec_ballot x)

theorem census_gives (f : CensusFn) (x : Alu1) : Gives (.census f x) x.c .b32 x.d fun _ u _ =>
    if censusHolds f (threadsOf u.ex).length (threadsOf (trueMask u x.a)).length then 1 else 0 := gives_of (exec_census f x)

theorem censusHolds_eq (f : CensusFn) (np n1 : Nat) : censusHolds f np n1 = (match f with
      | .none => decide (n1 = 0) | .some => decide (1 ≤ n1) | .most => decide (np < 2 * n1) | .all => decide (n1 = np)
      | .mixed => decide (0 < n1 ∧ n1 < np) | .same => decide (n1 = 0 ∨ n1 = np)) := by
  cases f <;> simp [censusHolds, beq_eq_decide]

theorem same_gives (f : SameFn) (x : Alu1) : Gives (.same f x) x.c .b32 x.d fun clk u t => sameValue f u (readOpnd clk u x.ty 0 x.a) t :=
  gives_of (exec_same f x)

theorem sameValue_eq (f : SameFn) (u : Iss) (value : Nat → Nat) (t : Nat) : sameValue f u value t =
    (match f with
      | .mask => ((threadsOf (sameMask u value (value t))).map fun t => 2 ^ t).sum
      | .lead => (threadsOf (sameMask u value (value t))).headD 0
      | .count => (threadsOf (sameMask u value (value t))).length
      | .whole => if threadsOf (sameMask u value (value t)) = threadsOf u.ex then
          ((threadsOf (sameMask u value (value t))).map fun t => 2 ^ t).sum else 0) := by
  unfold sameValue
  cases f with
  | mask => exact mask_toNat _
  | lead => rfl
  | count => rfl
  | whole => exact if_congr threadsOf_inj.symm (mask_toNat _) rfl

/-! ### SHFL -/

theorem shfl_gives (f : ShflFn) (seg : BitVec 3) (x : Alu3) : Gives (.shfl f seg x) x.c x.ty x.d fun clk u t =>
    match shflSource f (32 / 2 ^ seg.toNat) t (readOpnd clk u .b32 0 x.b t) with
    | some k => if u.ex.getLsbD k then readOpnd clk u x.ty 0 x.a k else readOpnd clk u x.ty 0 x.x t
    | none => readOpnd clk u x.ty 0 x.x t := gives_of (exec_shfl f seg x)

/-- Exclusive or with a number below a power of two stays in the segment. -/
theorem xor_segment (t r n : Nat) (hr : r < 2 ^ n) : t ^^^ r = t - t % 2 ^ n + (t % 2 ^ n ^^^ r) := by
  have hlow : t % 2 ^ n ^^^ r < 2 ^ n := Nat.xor_lt_two_pow (Nat.mod_lt _ (Nat.two_pow_pos n)) hr
  have hbase : t - t % 2 ^ n = 2 ^ n * (t / 2 ^ n) := by have := Nat.div_add_mod t (2 ^ n); omega
  rw [hbase]
  refine Nat.eq_of_testBit_eq fun i => ?_
  rw [Nat.testBit_two_pow_mul_add _ hlow, Nat.testBit_xor, Nat.testBit_xor, Nat.testBit_mod_two_pow, Nat.testBit_div_two_pow]
  by_cases hi : i < n
  · simp [hi]
  · have hhigh : r.testBit i = false := Nat.testBit_lt_two_pow (hr.trans_le (Nat.pow_le_pow_right (by decide) (by omega)))
    rw [if_neg hi, hhigh, Bool.xor_false, Nat.sub_add_cancel (by omega)]

theorem segment_width {seg : BitVec 3} (h : seg.toNat ≤ 5) : 32 / 2 ^ seg.toNat = 2 ^ (5 - seg.toNat) := by
  rw [show 32 = 2 ^ 5 by rfl, Nat.pow_div h (by decide)]

theorem bcast_gives (x : Alu2) : Gives (.bcast x) x.c x.ty x.d fun clk u t =>
    if readOpnd clk u .b32 x.imm x.b t < 32 && u.ex.getLsbD (readOpnd clk u .b32 x.imm x.b t) then
      readOpnd clk u x.ty 0 x.a (readOpnd clk u .b32 x.imm x.b t) else 0 := gives_of (exec_bcast x)

/-- Settles O15: masks as lists of threads, and the source of each exchanged value. -/
theorem exchangeResults : Obligations.ExchangeResults := by
  refine ⟨⟨fun x => gives_value (ballot_gives x) fun _ u _ => ?_, fun f x => gives_value (census_gives f x) fun _ u _ => ?_,
    fun f x => gives_value (same_gives f x) fun clk u t => ?_, fun f seg x hseg => gives_value (shfl_gives f seg x) fun clk u t => ?_,
    fun f x => gives_of (exec_red f x), fun f excl x => gives_of (exec_scan f excl x)⟩, fun x => gives_value (bcast_gives x) fun clk u t => ?_⟩
  · rw [mask_toNat, threadsOf_trueMask]
  · rw [censusHolds_eq, threadsOf_trueMask] <;> rfl
  · rw [sameValue_eq, threadsOf_sameMask] <;> rfl
  · have hbase : t % (32 / 2 ^ seg.toNat) ≤ t := Nat.mod_le ..
    cases f with
    | rot => simp only [shflSource, Nat.sub_sub_self hbase]
    | shift =>
      dsimp only [shflSource]
      by_cases h : ((t - t % (32 / 2 ^ seg.toNat) : Nat) : Int) ≤ (t : Int) + signed (readOpnd clk u .b32 0 x.b t) 32 ∧
          (t : Int) + signed (readOpnd clk u .b32 0 x.b t) 32 ≤ ((t - t % (32 / 2 ^ seg.toNat) : Nat) : Int) + ((32 / 2 ^ seg.toNat : Nat) : Int) - 1
      · rw [if_pos h, if_pos ⟨h.1, by omega⟩]
      · rw [if_neg h, if_neg fun k => h ⟨k.1, by omega⟩]
    | bfly =>
      dsimp only [shflSource]
      rw [segment_width hseg, xor_segment _ _ _ (Nat.mod_lt _ (Nat.two_pow_pos _))]
      rfl
    | _ => rfl
  · refine if_congr ?_ rfl rfl
    rw [Bool.and_eq_true, decide_eq_true_eq]
    exact and_congr_left fun _ => Nat.lt_succ_iff

end Sys2Proof.Laws
end

section
/-! SUPPORT. Words without effect (R30, R101), and what a word of a sequencer does (R167). -/

open Sys2Proof Sys2Proof.Machine

namespace Sys2Proof.Laws

/-! ### The pass of a sequencer -/

theorem seqIssuing_spec {s : State} {g : Nat} {x : Group} {c : Ctx} (h : seqIssuing s = some (g, x, c)) :
    s.cur = some (.seq g) ∧ group? s g = some x ∧ ctx? s x.ctx = some c ∧ x.seq.st = .running ∧ x.quiesced = false := by
  unfold seqIssuing at h
  split at h
  · next g' hcur =>
    split at h
    · next x' hx =>
      split at h
      · next c' hc =>
        split_ifs at h with hrun
        cases h
        exact ⟨hcur, hx, hc, hrun.1, by simpa using hrun.2⟩
      · cases h
    · cases h
  · cases h

theorem asSeq_next {effect : Nat → Group → Ctx → State → State} {s : State} {g : Nat} {x : Group} {c : Ctx}
    (h : seqIssuing s = some (g, x, c)) : asSeq effect s = .next (keep s { effect g x c s with cur := none }) := by
  unfold asSeq
  rw [h]

theorem group_modSeq_same {g : Nat} {f : Seq → Seq} {s : State} {x : Group} (h : group? s g = some x) :
    group? (modSeq g f s) g = some { x with seq := f x.seq } := by
  rw [modSeq, group_modGroup, if_pos rfl, h]
  rfl

theorem group_seqAdvance {g : Nat} {s : State} {x : Group} (h : group? s g = some x) :
    group? (seqAdvance g s) g = some { x with seq := { x.seq with mpc := ptrAdd x.seq.mpc 12 } } := by
  rw [seqAdvance, group_tick, group_modSeq_same h]

/-- In a sequencer's turn exec's NOP is the sequencer's. -/
theorem nop_inSeq (c : Ctl) {s : State} {g : Nat} {x : Group} {cx : Ctx} (h : seqIssuing s = some (g, x, cx)) :
    exec (.nop c) s = .next (keep s { seqAdvance g (chargeSeq x s) with cur := none }) := by
  rw [exec_nop, execNop, (seqIssuing_spec h).1]
  exact asSeq_next h

theorem nop_inRank (c : Ctl) {s : State} {u : Iss} (h : issuing s c = some u) (hh : hurdle s u (.nop c) = none) :
    exec (.nop c) s = .next (keep s (finish c (encode (.nop c)) u s)) := by
  rw [exec_nop, execNop, (issuing_spec h).1]
  exact asRank_next h hh

theorem nop_completes (c : Ctl) : Completes (.nop c) c (fun _ _ => True) fun s _ => s := by
  intro s u hi hh _
  exact ⟨_, nop_inRank c hi hh, after_keep rfl rfl (finish_after hi (issuing_spec hi).2.2.1 rfl)⟩

theorem nop_advances (c : Ctl) (s : State) (g : Nat) (x : Group) (cx : Ctx) (h : seqIssuing s = some (g, x, cx)) :
    ∃ t y, exec (.nop c) s = .next t ∧ group? t g = some y ∧ y.seq = { x.seq with mpc := ptrAdd x.seq.mpc 12 } ∧ y.ranks = x.ranks ∧
      y.bars = x.bars ∧ y.slabMap = x.slabMap ∧ t.mem = s.mem ∧ t.slabs = s.slabs := by
  have hgroup : group? (seqAdvance g (chargeSeq x s)) g = some { x with seq := { x.seq with mpc := ptrAdd x.seq.mpc 12 } } := by
    obtain ⟨_, hx, _⟩ := seqIssuing_spec h
    exact group_seqAdvance (s := chargeSeq x s) hx
  exact ⟨_, _, nop_inSeq c h, hgroup, rfl, rfl, rfl, rfl, rfl, rfl⟩

/-! ### Words that nobody executes -/

/-- Without an executing thread the word leaves the machine. -/
def IdleWord (i : Instr) (c : Ctl) : Prop := Completes i c (fun _ u => u.ex = 0) fun s _ => s

theorem idle_sysWord {i : Instr} {c : Ctl} {effect : IWord → Iss → State → State} (he : ∀ s, exec i s = sysWord i c effect s) : IdleWord i c :=
  idle_of he fun _ _ _ h => if_pos h

theorem idle_barForm {i : Instr} {c : Ctl} {a : Opnd} {effect : Iss → Bar → State → State} (he : ∀ s, exec i s = barForm i c a effect s) :
    IdleWord i c := idle_of he fun _ _ _ h => if_pos h

theorem idle_trapWord {i : Instr} {c : Ctl} {cause : BitVec 16} {tval : Long} (he : ∀ s, exec i s = trapWord i c cause tval s) : IdleWord i c :=
  idle_of he fun _ _ _ h => if_pos h

theorem idle_engineWord {i : Instr} {kind : CmdKind} {n : Nat} {e : Eng} (he : ∀ s, exec i s = engineWord i kind n e s) : IdleWord i e.c :=
  idle_of he fun _ _ _ h => if_pos h

theorem idle_tileWord {i : Instr} {c : Ctl} {w : Bool} {n : Nat} {value : Iss → State → Long} (he : ∀ s, exec i s = tileWord i c w n value s) :
    IdleWord i c := idle_of he fun _ _ _ h => if_pos h

theorem idle_ctxWord {i : Instr} {c : Ctl} {kind : Nat} {a : Opnd} {b : Option Opnd} (he : ∀ s, exec i s = ctxWord i c kind a b s) : IdleWord i c :=
  idle_sysWord he

theorem blockRead_nobody {i : Instr} {c : Ctl} {a b : Iss → State → Long} {s : State} {u : Iss} (hi : issuing s c = some u)
    (hh : hurdle s u i = none) (hex : u.ex = 0) : blockRead i c a b s = .next (keep s (finish c (encode i) u s)) := sysWord_nobody hi hh hex

theorem idle_blockRead {i : Instr} {c : Ctl} {a b : Iss → State → Long} (he : ∀ s, exec i s = blockRead i c a b s) : IdleWord i c :=
  idle_sysWord he

theorem idle_bufset (c : Ctl) (a b : Opnd) : IdleWord (.bufset c a b) c := by
  intro s u hi hh hex
  refine ⟨keep s (finish c (encode (.bufset c a b)) u s), ?_, after_keep rfl rfl (finish_after hi (issuing_spec hi).2.2.1 rfl)⟩
  rw [exec_bufset, execBufset, hi]
  simp only [blockRead_nobody hi hh hex, hh, hex, beq_self_eq_true]

theorem idle_jset (c : Ctl) (d a : Opnd) (imm : Word) : IdleWord (.jset c d a imm) c :=
  idle_of (exec_jset c d a imm) fun _ _ _ h => by rw [if_pos h]

theorem idle_wait (c : Ctl) (a b : Opnd) (imm : Word) : IdleWord (.wait c a b imm) c :=
  idle_of (exec_wait c a b imm) fun _ _ _ h => by simp [h]

theorem idle_fenceAck (c : Ctl) : IdleWord (.fenceAck c) c := idle_of (exec_fenceAck c) fun _ _ _ h => by simp [h]

/-- Settles O20: NOP in a rank and in a sequencer, and the words of rank scope that no thread executes. -/
theorem wordsWithoutEffect : Obligations.WordsWithoutEffect := by
  refine ⟨⟨nop_completes, nop_advances⟩, idle_jset, idle_wait, ?_, idle_fenceAck, ?_, ?_, ?_, ?_, ?_, ?_, ?_⟩
  · exact fun c code => ⟨idle_trapWord (exec_bkpt c code), idle_trapWord (exec_trap c code)⟩
  · exact fun c sc a b d imm => ⟨idle_of (exec_barCfg c a b imm) fun _ _ _ h => if_pos h, idle_barForm (exec_barArv c sc d a imm),
      idle_barForm (exec_barWait c sc a b imm), idle_barForm (exec_barSync c sc a imm), idle_barForm (exec_barAdd c sc a b imm),
      idle_barForm (exec_barTest c sc d a b imm)⟩
  · exact fun c sc tl d a imm => idle_of (exec_tlWait c sc tl d a imm) fun _ _ _ h => if_pos h
  · exact fun e t => ⟨idle_engineWord (exec_copy e), idle_engineWord (exec_copyPl t e), idle_engineWord (exec_gather e),
      idle_engineWord (exec_scadd e), idle_engineWord (exec_sort e), idle_engineWord (exec_coll e)⟩
  · exact fun c w d a n => ⟨idle_tileWord (exec_tcfg c w d a n), idle_tileWord (exec_trel c w a),
      idle_of (exec_acfgTake c d a) fun _ _ _ h => if_pos h, idle_of (exec_acfgRel c a) fun _ _ _ h => if_pos h,
      idle_of (exec_mstart c a) fun _ _ _ h => if_pos h⟩
  · exact fun c n a b => idle_of (exec_peer c n a b) fun _ _ _ h => if_pos h
  · exact fun c d n k => ⟨idle_sysWord (exec_srd c d n k), idle_sysWord (exec_swr c d n k), idle_sysWord (exec_eread c d)⟩
  · exact fun c a b => ⟨idle_sysWord (exec_yield c), idle_bufset c a b, idle_sysWord (exec_halt c), idle_blockRead (exec_launch c a),
      idle_sysWord (exec_evqPost c a b), idle_sysWord (exec_xinv c a b), idle_ctxWord (exec_ctxFrz c a), idle_ctxWord (exec_ctxSav c a b),
      idle_ctxWord (exec_ctxLd c a b), idle_ctxWord (exec_ctxRes c a), idle_of (exec_rtt c) fun _ _ _ h => if_pos h⟩

end Sys2Proof.Laws
end

section
/-! SUPPORT. Branches, calls and returns (R93 to R96): where the threads go, and the traps that come before. -/

open Sys2Proof Sys2Proof.Machine

namespace Sys2Proof.Laws

/-! ### Going -/

theorem misaligned_iff (p : Long) : misaligned p = true ↔ p.extractLsb' 0 2 ≠ 0 := by simp [misaligned]

theorem misaligned_false (p : Long) : misaligned p = false ↔ p.extractLsb' 0 2 = 0 := by simp [misaligned]

theorem noCheck_false (u : Iss) (t : Nat) : noCheck u t = false := rfl

theorem stackFull_false (u : Iss) (t : Nat) : stackFull u t = false ↔ (u.k.thread t).stack.length < 256 := by simp [stackFull]

theorem stackFull_true (u : Iss) (t : Nat) : stackFull u t = true ↔ 256 ≤ (u.k.thread t).stack.length := by simp [stackFull]

theorem stackEmpty_true (u : Iss) (t : Nat) : stackEmpty u t = true ↔ (u.k.thread t).stack = [] := List.isEmpty_iff

theorem stackEmpty_false (u : Iss) (t : Nat) : stackEmpty u t = false ↔ (u.k.thread t).stack ≠ [] := by
  rw [← Bool.not_eq_true, stackEmpty_true]

/-- The address that RET pops for thread t. -/
def stackTop (u : Iss) (t : Nat) : Long := (u.k.thread t).stack.headD 0

theorem ret_next (c : Ctl) {s : State} {u : Iss} (hi : issuing s c = some u) (hh : hurdle s u (.ret c) = none) :
    exec (.ret c) s = .next (keep s (match lowestWith u.ex (stackEmpty u) with
      | some t => trapAt u (encode (.ret c)) 0x0B (BitVec.ofNat 64 t) s
      | none =>
        match badTarget u (stackTop u) with
        | some t => trapAt u (encode (.ret c)) 0x05 (stackTop u t) s
        | none => closePass c (someGo u) u (goTo u (stackTop u) Thread.pop (charged u (encode (.ret c)) s)))) := by
  rw [exec_ret, execRet, asRank_next hi hh]
  rfl

theorem ret_goes (c : Ctl) {s : State} {u : Iss} (hi : issuing s c = some u) (hh : hurdle s u (.ret c) = none)
    (hok : ∀ t, u.ex.getLsbD t = true → (stackTop u t).extractLsb' 0 2 = 0 ∧ (u.k.thread t).stack ≠ []) :
    ∃ t, exec (.ret c) s = .next t ∧ AfterPath (fun th x => { x.pop with pc := stackTop u th }) u s t := by
  refine ⟨_, ret_next c hi hh, after_keep rfl rfl ?_⟩
  rw [low_none _ _ fun t ht => (stackEmpty_false u t).mpr (hok t ht).2, badTarget,
    low_none _ _ fun t ht => (misaligned_false _).mpr (hok t ht).1]
  exact goTo_after c (someGo u) _ (stackTop u) Thread.pop u s c hi (fun _ => rfl) (fun _ => rfl)

/-- Settles O21: a transfer whose targets and stacks pass their checks goes. -/
theorem branchesGo : Obligations.BranchesGo := by
  refine ⟨fun c imm s u hi hh hok => ?_, fun c a s u hi hh hok => ?_, fun c imm s u hi hh hok => ?_, fun c a s u hi hh hok => ?_,
    fun c s u hi hh hok => ret_goes c hi hh hok⟩
  · exact trans_go (exec_bra c imm) s u hi hh (fun t ht => ⟨(hok t ht).1, rfl⟩) (fun _ _ => rfl) fun _ _ => rfl
  · exact trans_go (exec_brx c a) s u hi hh (fun t ht => ⟨(hok t ht).1, rfl⟩) (fun _ _ => rfl) fun _ _ => rfl
  · exact trans_go (exec_call c imm) s u hi hh (fun t ht => ⟨(hok t ht).1, (stackFull_false u t).mpr (hok t ht).2⟩) (fun _ _ => rfl) fun _ _ => rfl
  · exact trans_go (exec_callx c a) s u hi hh (fun t ht => ⟨(hok t ht).1, (stackFull_false u t).mpr (hok t ht).2⟩) (fun _ _ => rfl) fun _ _ => rfl

/-! ### Trapping -/

/-- The word traps with the cause and TVAL where it meets no hurdle. -/
def TrapsWith (i : Instr) (s : State) (u : Iss) (cause : BitVec 16) (v : Long) : Prop :=
  hurdle s u i = none → exec i s = .next (keep s (trapAt u (encode i) cause v s))

/-- t is the lowest executing thread that is bad. -/
def Lowest (u : Iss) (bad : Nat → Prop) (t : Nat) : Prop := u.ex.getLsbD t = true ∧ bad t ∧ ∀ t', t' < t → u.ex.getLsbD t' = true → ¬bad t'

theorem lowestWith_of_lowest {u : Iss} {bad : Nat → Prop} {f : Nat → Bool} {t : Nat} (hf : ∀ t, f t = true ↔ bad t) (h : Lowest u bad t) :
    lowestWith u.ex f = some t := by
  obtain ⟨hex, hbad, hbelow⟩ := h
  exact low_some _ _ _ hex ((hf t).mpr hbad) fun t' hlt hex' => by rw [← Bool.not_eq_true, hf]; exact hbelow t' hlt hex'

variable {i : Instr} {c : Ctl} {target : State → Iss → Nat → Long} {bad : Iss → Nat → Bool} {cause : BitVec 16} {change : Iss → Thread → Thread}
  {s : State} {u : Iss} {t : Nat}

/-- R93: the alignment trap comes first. -/
theorem transfer_misaligned (he : ∀ s, exec i s = transfer i c target bad cause change s) (hi : issuing s c = some u)
    (hlow : Lowest u (fun t => (target s u t).extractLsb' 0 2 ≠ 0) t) : TrapsWith i s u 0x05 (target s u t) := by
  intro hh
  rw [he, transfer, asRank_next hi hh, badTarget, lowestWith_of_lowest (fun t => misaligned_iff _) hlow]

theorem transfer_stack (he : ∀ s, exec i s = transfer i c target stackFull cause change s) (hi : issuing s c = some u)
    (heven : ∀ t, u.ex.getLsbD t = true → (target s u t).extractLsb' 0 2 = 0)
    (hlow : Lowest u (fun t => 256 ≤ (u.k.thread t).stack.length) t) : TrapsWith i s u cause (BitVec.ofNat 64 t) := by
  intro hh
  rw [he, transfer, asRank_next hi hh, badTarget, low_none _ _ fun t ht => (misaligned_false _).mpr (heven t ht),
    lowestWith_of_lowest (stackFull_true u) hlow]

theorem ret_empty (hi : issuing s c = some u) (hlow : Lowest u (fun t => (u.k.thread t).stack = []) t) :
    TrapsWith (.ret c) s u 0x0B (BitVec.ofNat 64 t) := by
  intro hh
  rw [ret_next c hi hh, lowestWith_of_lowest (stackEmpty_true u) hlow]

theorem ret_misaligned (hi : issuing s c = some u) (hne : ∀ t, u.ex.getLsbD t = true → (u.k.thread t).stack ≠ [])
    (hlow : Lowest u (fun t => (stackTop u t).extractLsb' 0 2 ≠ 0) t) : TrapsWith (.ret c) s u 0x05 (stackTop u t) := by
  intro hh
  rw [ret_next c hi hh, low_none _ _ fun t ht => (stackEmpty_false u t).mpr (hne t ht), badTarget,
    lowestWith_of_lowest (fun t => misaligned_iff _) hlow]

/-- Settles O22: the trap of the lowest executing thread that fails the first failing check. -/
theorem branchesTrap : Obligations.BranchesTrap := by
  refine ⟨fun c imm s u t hi hlow => ⟨transfer_misaligned (target := fun _ u _ => relTarget imm u) (exec_bra c imm) hi hlow, transfer_misaligned (target := fun _ u _ => relTarget imm u) (exec_call c imm) hi hlow⟩,
    fun c a s u t hi hlow => ⟨transfer_misaligned (target := regTarget a) (exec_brx c a) hi hlow, transfer_misaligned (target := regTarget a) (exec_callx c a) hi hlow⟩,
    fun c imm s u t hi heven hlow => transfer_stack (target := fun _ u _ => relTarget imm u) (exec_call c imm) hi (fun t ht => not_not.mp (heven t ht)) hlow,
    fun c a s u t hi heven hlow => transfer_stack (target := regTarget a) (exec_callx c a) hi (fun t ht => not_not.mp (heven t ht)) hlow,
    fun c s u t hi hlow => ret_empty hi hlow, fun c s u t hi hne hlow => ret_misaligned hi hne hlow⟩

end Sys2Proof.Laws
end

section
/-! SUPPORT. Freezing a context (R354) and halting it (R181, R344): ranks keep their registers and the threads that have exited, the
context's groups stand frozen, and the context engine is given the save. -/

open Sys2Proof Sys2Proof.Machine

namespace Sys2Proof.Laws

/-! ### What a freeze leaves of a rank -/

/-- A rank's registers and which of its threads have exited. -/
def coreOf (k : Rank) : (Sparse Word × Sparse Word × Sparse Word × Sparse Long × Sparse Mask × Sparse Word) × List Bool :=
  (k.regs, k.threads.map (·.exited))

theorem exited_of_core {k k' : Rank} (h : coreOf k' = coreOf k) (t : Nat) : (k'.thread t).exited = (k.thread t).exited := by
  have hl : k'.threads.map (·.exited) = k.threads.map (·.exited) := congrArg Prod.snd h
  have hd : ∀ q : Rank, (q.thread t).exited = (q.threads.map (·.exited)).getD t Thread.zero.exited := by
    intro q
    simp only [Rank.thread, List.getD_eq_getElem?_getD, List.getElem?_map]
    cases q.threads[t]? <;> rfl
  rw [hd, hd, hl]

theorem regs_of_core {k k' : Rank} (h : coreOf k' = coreOf k) : k'.regs = k.regs := congrArg Prod.fst h

theorem map_exited (f : Thread → Thread) (h : ∀ x, (f x).exited = x.exited) (l : List Thread) : (l.map f).map (·.exited) = l.map (·.exited) := by
  rw [List.map_map]
  exact List.map_congr_left fun x _ => h x

/-- Every rank keeps its registers, and its threads whether they have exited. -/
structure Steady (s t : State) : Prop where
  ranks : ∀ g r, (rank? t g r).map coreOf = (rank? s g r).map coreOf

theorem steady_refl (s : State) : Steady s s := ⟨fun _ _ => rfl⟩

theorem steady_trans {a b c : State} (h : Steady a b) (k : Steady b c) : Steady a c := ⟨fun g r => (k.ranks g r).trans (h.ranks g r)⟩

theorem steady_groups {s t : State} (h : t.groups = s.groups) : Steady s t := ⟨fun g r => by simp only [rank?, group?, h]⟩

theorem steady_fold {α : Type} {f : State → α → State} (h : ∀ s a, Steady s (f s a)) (l : List α) (s : State) : Steady s (l.foldl f s) := by
  induction l generalizing s with
  | nil => exact steady_refl s
  | cons a l ih => exact steady_trans (h s a) (ih _)

theorem steady_counts {s t : State} (h : CountsOnly s t) : Steady s t := by
  refine ⟨fun g r => ?_⟩
  cases hk : rank? s g r with
  | none => rw [h.none g r hk]
  | some k =>
    obtain ⟨k', hk', hc⟩ := h.ranks g r k hk
    rw [hk', hc]
    rfl

theorem steady_aside {s t : State} (h : Aside s t) : Steady s t := steady_counts (counts_aside h)

theorem steady_modRank {g r : Nat} {f : Rank → Rank} (h : ∀ k, coreOf (f k) = coreOf k) (s : State) : Steady s (modRank g r f s) := by
  refine ⟨fun g' r' => ?_⟩
  rw [rank_modRank]
  split
  · next he =>
    rw [he.1, he.2]
    cases rank? s g r with
    | none => rfl
    | some k => exact congrArg some (h k)
  · rfl

theorem rank_modGroup_other {g g' r : Nat} (f : Group → Group) (s : State) (h : g' ≠ g) : rank? (modGroup g f s) g' r = rank? s g' r := by
  simp only [rank?, group_modGroup, if_neg h]

theorem rank_modGroup_same (g r : Nat) (f : Group → Group) (s : State) : rank? (modGroup g f s) g r = (group? s g).bind fun x => (f x).ranks[r]? := by
  simp only [rank?, group_modGroup, if_pos]
  cases group? s g <;> rfl

theorem steady_modGroup {g : Nat} {f : Group → Group} (h : ∀ (x : Group) (r : Nat), ((f x).ranks[r]?).map coreOf = (x.ranks[r]?).map coreOf) (s : State) :
    Steady s (modGroup g f s) := by
  refine ⟨fun g' r => ?_⟩
  by_cases hg : g' = g
  · subst hg
    rw [rank_modGroup_same, rank?]
    cases group? s g' with
    | none => rfl
    | some x => exact h x r
  · rw [rank_modGroup_other f s hg]

/-- Rows made of the old rows one by one. -/
theorem rows_exited {F : Nat → Thread → Thread} (h : ∀ t x, (F t x).exited = x.exited) (l : List Thread) :
    ((List.range l.length).map fun t => F t (l.getD t Thread.zero)).map (·.exited) = l.map (·.exited) := by
  refine List.ext_getElem (by simp) fun n h1 h2 => ?_
  have hn : n < l.length := by simpa using h2
  simp [h, List.getD_eq_getElem?_getD, hn]

theorem stepPast_exited (m : Mask) (pc : Long) (l : List Thread) : (stepPast m pc l).map (·.exited) = l.map (·.exited) :=
  rows_exited (F := fun t x => if m.getLsbD t then { x with pc := ptrAdd pc 12 } else x) (fun t x => by split <;> rfl) l

theorem unstopped_exited (l : List Entry) (ts : List Thread) :
    (l.foldl (fun ts (e : Entry) => match e.stop with
      | some p => stepPast p.1 e.pc ts
      | none => ts) ts).map (·.exited) = ts.map (·.exited) := by
  induction l generalizing ts with
  | nil => rfl
  | cons e l ih =>
    rw [List.foldl_cons, ih]
    split
    · exact stepPast_exited ..
    · rfl

theorem unstop_core (k : Rank) : coreOf k.unstop = coreOf k := Prod.ext rfl (unstopped_exited k.live k.threads)

theorem freezeRank_core (k : Rank) : coreOf (freezeRank k) = coreOf k := unstop_core k

theorem enterTrap_core (entry hdr : Long) (impr : Bool) (cause : BitVec 16) (tpc tval : Long) (fault : Option Entry) (k : Rank) :
    coreOf (enterTrap entry hdr impr cause tpc tval fault k) = coreOf k :=
  Prod.ext rfl (map_exited _ (fun x => by split <;> rfl) k.threads)

theorem pathPast_core (impr : Bool) (fault : Option Entry) (k : Rank) : coreOf (pathPast impr fault k) = coreOf k := by
  unfold pathPast
  split
  · split
    · rfl
    · exact Prod.ext rfl (stepPast_exited ..)
  · rfl

theorem steady_keepFault (g r : Nat) (impr : Bool) (fault : Option Entry) (s : State) : Steady s (keepFault g r impr fault s) := by
  unfold keepFault
  split
  · exact steady_refl s
  · split
    · exact steady_refl s
    · apply steady_modRank
      intro k
      refine Prod.ext rfl ?_
      dsimp only [coreOf]
      split
      · rfl
      · exact stepPast_exited ..

/-! ### Freezing -/

theorem steady_dropTraffic (g : Nat) (s : State) : Steady s (dropTraffic g s) :=
  steady_trans (steady_counts (counts_orphan (fun a => a.group == g) s)) (steady_groups rfl)

theorem steady_freezeSeq (g : Nat) (s : State) : Steady s (freezeSeq g s) := by
  unfold freezeSeq
  dsimp only
  refine steady_trans ?_ (steady_modGroup ?_ _)
  · exact steady_groups rfl
  · exact fun _ _ => rfl

theorem steady_freezeCmds (g : Nat) (s : State) : Steady s (freezeCmds g s) := steady_groups rfl

theorem steady_freezeRanks (g : Nat) (s : State) : Steady s (modGroup g (fun x => { x with frozen := true, ranks := x.ranks.map freezeRank }) s) := by
  refine steady_modGroup (fun x r => ?_) s
  rw [List.getElem?_map, Option.map_map]
  cases x.ranks[r]? with
  | none => rfl
  | some k => exact congrArg some (freezeRank_core k)

theorem steady_freezeGroup (g : Nat) (s : State) : Steady s (freezeGroup g s) :=
  steady_trans (steady_freezeRanks g s) (steady_trans (steady_dropTraffic g _) (steady_trans (steady_freezeSeq g _) (steady_freezeCmds g _)))

theorem steady_noteState (cid : Nat) (s : State) : Steady s (noteState cid s) := by
  unfold noteState
  split
  · exact steady_refl s
  · exact steady_aside (aside_gpaWrite ..)

theorem steady_modCtx (cid : Nat) (f : Ctx → Ctx) (s : State) : Steady s (modCtx cid f s) := steady_groups rfl

theorem steady_freezeCtx (cid : Nat) (s : State) : Steady s (freezeCtx cid s) := by
  unfold freezeCtx
  dsimp only
  refine steady_trans ?_ (steady_noteState cid _)
  refine steady_trans ?_ (steady_modCtx ..)
  refine steady_trans ?_ (steady_fold (fun s g => steady_freezeGroup g s) _ _)
  exact steady_groups rfl

theorem steady_haltCtx (cid : Nat) (s : State) : Steady s (haltCtx cid s) := by
  unfold haltCtx
  dsimp only
  split
  · exact steady_freezeCtx cid s
  · exact steady_trans (steady_freezeCtx cid s) (steady_groups rfl)

theorem steady_rankThen {g r : Nat} {f : Rank → Rank} {s t : State} (ht : t.groups = (modRank g r f s).groups)
    (h : ∀ k, coreOf (f k) = coreOf k) : Steady s t := steady_trans (steady_modRank h s) (steady_groups ht)

theorem steady_endPly (g r : Nat) (st : RankState) (s : State) : Steady s (endPly g r st s) := by
  refine steady_rankThen rfl ?_
  exact fun _ => rfl

/-- Taking a trap leaves every rank its registers, and its threads whether they have exited. -/
theorem steady_takeTrap (g r : Nat) (impr : Bool) (cause : BitVec 16) (tpc tval : Long) (fault : Option Entry) (s : State) :
    Steady s (takeTrap g r impr cause tpc tval fault s) := by
  have hply : Steady s (endPly g r .ready (modRank g r (fun k => (pathPast impr fault k).unstop) s)) :=
    steady_trans (steady_modRank (fun k => (unstop_core _).trans (pathPast_core ..)) s) (steady_endPly ..)
  unfold takeTrap takeTrapOf
  split
  · exact steady_refl s
  · split
    · dsimp only
      split
      · refine steady_trans ?_ (steady_aside (aside_postHostCtx _ _ _))
        refine steady_trans ?_ (steady_freezeCtx _ _)
        refine steady_trans ?_ (steady_keepFault _ _ _ _ _)
        exact steady_trans hply (steady_groups rfl)
      · split
        · refine steady_trans ?_ (steady_aside (aside_postCtx _ _ _))
          refine steady_trans ?_ (steady_haltCtx _ _)
          refine steady_trans ?_ (steady_keepFault _ _ _ _ _)
          split
          · refine steady_trans ?_ (steady_modRank ?_ _)
            · exact steady_trans hply (steady_groups rfl)
            · refine fun k => Prod.ext rfl (map_exited _ (fun x => ?_) k.threads)
              split <;> rfl
          · exact steady_trans hply (steady_groups rfl)
        · refine steady_trans ?_ (steady_counts (counts_writeFrame _ _ _))
          refine steady_trans ?_ (steady_counts (counts_dropCut _ _ _))
          refine steady_trans ?_ (steady_modRank ?_ _)
          · exact steady_trans hply (steady_groups rfl)
          · exact fun k => enterTrap_core ..
    · exact steady_refl s

end Sys2Proof.Laws
end

section
/-! SUPPORT. EXIT at a group that the group map holds twice (R100): where its group is freed, a lookup meets the other one. -/

open Sys2Proof Sys2Proof.Machine

namespace Sys2Proof.Laws

set_option maxRecDepth 100000

/-- The control fields of a word without guard and hint. -/
def plainCtl : Ctl := { gidx := 0, gneg := false, pend := false, dly := 0, keep := 0, fsh := false }

/-- A rank at EXIT, its group standing twice in the group map. -/
def groupTwice : State :=
  let s := State.reset.withFetchWord 96 (encode (.exit plainCtl)).toNat
  { s with groups := s.groups ++ s.groups }

theorem groupTwice_path : (match issuing groupTwice plainCtl with
    | some u => (hurdle groupTwice u (.exit plainCtl)).isNone && u.g == 0 && u.r == 0 && u.ex == BitVec.allOnes 32
    | none => false) = true := by decide

theorem groupTwice_after : (match exec (.exit plainCtl) groupTwice with
    | .next t => (rank? t 0 0).any fun k => k.st != .retired
    | _ => false) = true := by decide

/-- Refutes O23: the statement speaks of every state, and the group map of `groupTwice` holds group 0 twice. Its rank's last threads exit,
the group is freed, and rank 0 of group 0 is then the second entry's, which is not retired. -/
theorem not_exitEnds : ¬ Obligations.ExitEnds := by
  intro h
  have hpath := groupTwice_path
  cases hu : issuing groupTwice plainCtl with
  | none => rw [hu] at hpath; cases hpath
  | some u =>
    rw [hu] at hpath
    simp only [Bool.and_eq_true, Option.isNone_iff_eq_none, beq_iff_eq] at hpath
    obtain ⟨⟨⟨hhurdle, hg⟩, hr⟩, hex⟩ := hpath
    obtain ⟨-, -, hall⟩ := h plainCtl groupTwice u hu hhurdle
    obtain ⟨t, ht, hret⟩ := hall fun i hi => .inr (by rw [hex, BitVec.getLsbD_allOnes]; exact decide_eq_true hi)
    have hafter := groupTwice_after
    rw [ht] at hafter
    rw [hg, hr] at hret
    cases hk : rank? t 0 0 with
    | none => simp [hk] at hafter
    | some k => simp [hk, (hret k hk).1] at hafter

end Sys2Proof.Laws
end

section
/-! SUPPORT. Rejoin masks (R97 to R99): JSET, JOIN and WAIT, and the deadlock of a rank whose threads are all parked. -/

open Sys2Proof Sys2Proof.Machine

namespace Sys2Proof.Laws

/-! ### Releasing parked threads -/

/-- The wait of thread x is over under the masks of k. -/
def waitMet (k : Rank) (x : Thread) : Bool := ((k.jreg x.waitJ.toNat ||| k.exitedMask) &&& x.waitMask) == x.waitMask

theorem releaseParked_thread (k : Rank) {t : Nat} (ht : t < k.threads.length) : (releaseParked k).thread t =
    if (k.thread t).parked && waitMet k (k.thread t) then { k.thread t with parked := false, pc := ptrAdd (k.thread t).pc 12 } else k.thread t := by
  simp [releaseParked, Rank.thread, List.getD_eq_getElem?_getD, ht, waitMet]

theorem releaseParked_length (k : Rank) : (releaseParked k).threads.length = k.threads.length := by simp [releaseParked]

theorem releaseParked_jreg (k : Rank) (n : Nat) : (releaseParked k).jreg n = k.jreg n := rfl

theorem setJ_thread (k : Rank) (i : Nat) (x : Word) (t : Nat) : (k.setJ i x).thread t = k.thread t := rfl

theorem setJ_jreg {k : Rank} (i : Nat) (x : Word) (hk : rising (k.j.map (·.1)) = true) (m : Nat) :
    (k.setJ i x).jreg m = if m = i then x else k.jreg m := sgetD_sput _ _ _ _ _ hk

/-- A word whose effect on its rank is to write a mask and release the parked threads completes with it. -/
theorem released_completes {i : Instr} {c : Ctl} {ok : State → Iss → Prop} {n : Nat} {v : State → Iss → Rank → Word} {f : Iss → State → State}
    (he : ∀ s, exec i s = asRank i c f s)
    (hf : ∀ s u, ok s u → f u s = finish c (encode i) u (modRank u.g u.r (fun k => releaseParked (k.setJ n (v s u k))) s)) :
    Completes i c ok fun s u => modRank u.g u.r (fun k => releaseParked (k.setJ n (v s u k))) s := by
  intro s u hi hh hok
  obtain ⟨-, -, hk, -, -, hpath, -⟩ := issuing_spec hi
  obtain ⟨hlen, -, hall⟩ := pathOk_spec hpath
  refine ⟨_, (he s).trans (asRank_next hi hh), ?_⟩
  rw [hf s u hok]
  refine after_keep rfl rfl (finish_after' (k := releaseParked (u.k.setJ n (v s u u.k))) hi ?_ (releaseParked_length _) fun t hact => ?_)
  · rw [rank_modRank_same, hk]
    rfl
  · obtain ⟨hlt, -, hparked, -⟩ := hall t hact
    rw [releaseParked_thread _ (by rw [show (u.k.setJ n (v s u u.k)).threads = u.k.threads from rfl, hlen]; exact hlt), setJ_thread, hparked]
    rfl

theorem join_completes (c : Ctl) (d : Opnd) : Completes (.join c d) c (fun _ _ => True) fun s u =>
    modRank u.g u.r (fun k => releaseParked (k.setJ (joinIdx d) (k.jreg (joinIdx d) ||| u.ex))) s :=
  released_completes (v := fun _ u k => k.jreg (joinIdx d) ||| u.ex) (exec_join c d) fun _ _ _ => rfl

theorem jset_completes (c : Ctl) (d a : Opnd) (imm : Word) : Completes (.jset c d a imm) c (fun _ u => u.ex ≠ 0) fun s u =>
    modRank u.g u.r (fun k => releaseParked (k.setJ (joinIdx d) (BitVec.ofNat 32 (readOpnd s.clk u .b32 imm a 0)))) s :=
  released_completes (v := fun s u _ => BitVec.ofNat 32 (readOpnd s.clk u .b32 imm a 0)) (exec_jset c d a imm) fun _ _ hex => by rw [if_neg hex]

/-- Settles O24: the masks written, and the parked threads whose wait is met released. -/
theorem joinMasks : Obligations.JoinMasks := by
  refine ⟨fun x r lane slot budget role args clk stamp acq n => rfl, join_completes, jset_completes, fun k n v m hk => ⟨?_, fun t ht hp => ?_⟩⟩
  · exact (releaseParked_jreg ..).trans (setJ_jreg n v ((rising_iff_pairwise _).mpr hk) m)
  · have hrel := releaseParked_thread (k.setJ n v) (t := t) ht
    rw [setJ_thread, hp, Bool.true_and] at hrel
    rw [hrel]
    exact if_congr (by rw [waitMet, beq_iff_eq]; rfl) rfl rfl

/-! ### WAIT -/

/-- The condition of WAIT on the masks of the rank. -/
def waitHolds (u : Iss) (a : Opnd) (g : Word) : Prop := ((u.k.jreg (joinIdx a) ||| u.k.exitedMask) &&& g) = g

theorem wait_met (c : Ctl) (a b : Opnd) (imm : Word) {s : State} {u : Iss} (hi : issuing s c = some u) (hh : hurdle s u (.wait c a b imm) = none)
    (hmet : waitHolds u a (BitVec.ofNat 32 (readOpnd s.clk u .b32 imm b 0))) :
    ∃ t, exec (.wait c a b imm) s = .next t ∧ AfterWord u s t := by
  refine ⟨keep s (finish c (encode (.wait c a b imm)) u s), ?_, after_keep rfl rfl (finish_after hi (issuing_spec hi).2.2.1 rfl)⟩
  rw [exec_wait, execWait, asRank_next hi hh]
  unfold waitHolds at hmet
  simp [hmet]

theorem wait_parks (c : Ctl) (a b : Opnd) (imm : Word) {s : State} {u : Iss} (hi : issuing s c = some u) (hh : hurdle s u (.wait c a b imm) = none)
    (hmet : ¬waitHolds u a (BitVec.ofNat 32 (readOpnd s.clk u .b32 imm b 0))) (hex : u.ex ≠ 0) :
    exec (.wait c a b imm) s = .next (keep s (closePass c true u
      (modRank u.g u.r (parkThreads u (joinIdx a) (BitVec.ofNat 32 (readOpnd s.clk u .b32 imm b 0))) (charged u (encode (.wait c a b imm)) s)))) := by
  rw [exec_wait, execWait, asRank_next hi hh]
  unfold waitHolds at hmet
  have hneither : ((((u.k.jreg (joinIdx a) ||| u.k.exitedMask) &&& BitVec.ofNat 32 (readOpnd s.clk u .b32 imm b 0)) ==
      BitVec.ofNat 32 (readOpnd s.clk u .b32 imm b 0)) || u.ex == 0) = false := by rw [beq_false_of_ne hmet, beq_false_of_ne hex, Bool.or_self]
  simp only [hneither, Bool.false_eq_true, if_false]

/-- A thread that stays standing keeps the rank at its ply's end; the executing threads park. -/
theorem parked_after (c cc : Ctl) (w : IWord) (j : Nat) (g : Word) {s : State} {u : Iss} (hi : issuing s cc = some u) {t0 : Nat} (ht0 : t0 < 32)
    (he : (u.k.thread t0).exited = false) (hp : (u.k.thread t0).parked = false) (hx : u.ex.getLsbD t0 = false) :
    AfterPath (fun _ x => { x with parked := true, waitJ := BitVec.ofNat 4 j, waitMask := g }) u s
      (closePass c true u (modRank u.g u.r (parkThreads u j g) (charged u w s))) := by
  obtain ⟨-, -, hk, -, -, hpath, -⟩ := issuing_spec hi
  obtain ⟨hlen, -⟩ := pathOk_spec hpath
  obtain ⟨hc1, b, hb⟩ := charged_spec u w s u.k hk
  obtain ⟨k2, hk2, hth, hno⟩ : ∃ k2, rank? (modRank u.g u.r (parkThreads u j g) (charged u w s)) u.g u.r = some k2 ∧
      k2.threads = rowsAfter u (fun _ x => { x with parked := true, waitJ := BitVec.ofNat 4 j, waitMask := g }) u.k ∧ k2.noPly = u.k.noPly := by
    rw [rank_modRank_same, hb]
    exact ⟨_, rfl, rfl, rfl⟩
  have h2 : (k2.thread t0).exited = false ∧ (k2.thread t0).parked = false := by
    rw [show k2.thread t0 = ({ u.k with threads := k2.threads } : Rank).thread t0 from rfl,
      thread_of_map u.k _ u.k.threads.length _ hth t0 (by rw [hlen]; exact ht0), hx, if_neg Bool.false_ne_true]
    split <;> exact ⟨he, hp⟩
  obtain ⟨hs, k3, hk3, hn3, ht3⟩ := closePass_spec c true u _ k2 hk2 t0 ht0 h2.1 h2.2
  exact ⟨⟨u.k, k3, hk, hk3, hn3.trans hno, ht3.trans hth⟩, same_trans hc1 (same_trans (same_modRank ..) hs)⟩

/-! ### The deadlock -/

theorem threadsOf_lowest {m : Mask} {t : Nat} (hm : m.getLsbD t = true) (hbelow : ∀ t', t' < t → m.getLsbD t' = false) :
    ∃ l, threadsOf m = t :: l := by
  have hmem : t ∈ threadsOf m := (mem_threadsOf m t).mpr ⟨BitVec.lt_of_getLsbD hm, hm⟩
  have hsorted : (threadsOf m).Pairwise (· < ·) := List.pairwise_lt_range.filter _
  cases hl : threadsOf m with
  | nil => rw [hl] at hmem; cases hmem
  | cons a l =>
    rw [hl] at hmem hsorted
    rcases List.mem_cons.mp hmem with rfl | hin
    · exact ⟨l, rfl⟩
    · have hlt : a < t := (List.pairwise_cons.mp hsorted).1 t hin
      have ha : m.getLsbD a = true := ((mem_threadsOf m a).mp (by rw [hl]; exact List.mem_cons_self)).2
      rw [hbelow a hlt] at ha
      cases ha

theorem allExited_false {k : Rank} {t : Nat} (ht : t < 32) (h : (k.thread t).exited = false) : k.allExited = false := by
  rw [Rank.allExited, beq_eq_false_iff_ne]
  intro hall
  have hbit : k.exitedMask.getLsbD t = true := by rw [hall, BitVec.getLsbD_allOnes]; exact decide_eq_true ht
  rw [Rank.exitedMask, maskOf_get, h, Bool.and_false] at hbit
  cases hbit

theorem settleRank_deadlock {s : State} {g r t : Nat} {k : Rank} (hk : rank? s g r = some k) (hst : k.standing = 0)
    (hm : k.parkedMask.getLsbD t = true) (hbelow : ∀ t', t' < t → k.parkedMask.getLsbD t' = false) {t' : Nat} (ht' : t' < 32)
    (he : (k.thread t').exited = false) :
    settleRank g r s = takeTrap g r false 0x0C (k.thread t).pc (k.parkedMask.setWidth 64) none s := by
  obtain ⟨l, hl⟩ := threadsOf_lowest hm hbelow
  unfold settleRank
  rw [hk]
  dsimp only
  rw [allExited_false ht' he, if_neg Bool.false_ne_true, if_pos hst, hl]

/-- Settles O25: WAIT's two outcomes and the deadlock's trap. -/
theorem waitParks : Obligations.WaitParks := by
  refine ⟨fun c a b imm s u hi hh => ⟨wait_met c a b imm hi hh, fun hmet hex hstays => ?_, wait_parks c a b imm hi hh⟩,
    fun s g r k t hk hst _ hm hbelow ⟨t', ht', he⟩ => settleRank_deadlock hk hst hm hbelow ht' he⟩
  obtain ⟨t0, ht0, he, hp, hx⟩ := hstays
  exact ⟨_, wait_parks c a b imm hi hh hmet hex, after_keep rfl rfl (parked_after c c _ _ _ hi ht0 he hp hx)⟩

end Sys2Proof.Laws
end

section
/-! SUPPORT. Words that trap (R36, R37, R101, R180): the rank at its handler, the emulation frame, the stopped sequencer. -/

open Sys2Proof Sys2Proof.Machine

namespace Sys2Proof.Laws

/-! ### The trap of a word -/

/-- A trap at the word of a path with a handler: its rank is there. -/
theorem trapAt_trapped {s : State} {c : Ctl} {u : Iss} (hi : issuing s c = some u) (w : IWord) {cause : BitVec 16} (tval : Long) (h14 : cause ≠ 0x14)
    (hv : u.c.trapvec ≠ 0) (hf : u.k.frameActive = false) (hstop : ∀ e ∈ u.k.live, e.stop = none) :
    ∃ k', rank? (trapAt u w cause tval s) u.g u.r = some k' ∧ Trapped u.k k' u.c.trapvec cause u.pc tval := by
  obtain ⟨-, hx, hk, hc, -, hpath, -⟩ := issuing_spec hi
  obtain ⟨hlen, -⟩ := pathOk_spec hpath
  obtain ⟨⟨k1, hdr, k', hn, hth, hk', hcounted⟩, -⟩ := takeTrap_enters (impr := false) (cause := cause) (tpc := u.pc) (tval := tval) (fault := none)
    (s := modRank u.g u.r (fun k => { k with frameWord := w }) s) (group_modRank_some hx) hc (rank_modRank_some hk) h14 hf hv
  have hid : (pathPast false none { u.k with frameWord := w }).unstop = { u.k with frameWord := w } := unstop_id _ hstop
  rw [hid] at hn hth
  have htrap := trapped_counted (enterTrap_trapped u.c.trapvec hdr cause u.pc tval { u.k with frameWord := w } k1 hlen hth hn) hcounted
  exact ⟨k', hk', htrap.level, htrap.regs, htrap.at', htrap.gone, htrap.copy, htrap.general⟩

theorem trapWord_traps {i : Instr} {c : Ctl} {cause : BitVec 16} {tval : Long} (he : ∀ s, exec i s = trapWord i c cause tval s) {s : State} {u : Iss}
    (hi : issuing s c = some u) (hex : u.ex ≠ 0) (h14 : cause ≠ 0x14) (hv : u.c.trapvec ≠ 0) (hf : u.k.frameActive = false)
    (hstop : ∀ e ∈ u.k.live, e.stop = none) (hh : hurdle s u i = none) :
    ∃ t k', exec i s = .next t ∧ rank? t u.g u.r = some k' ∧ Trapped u.k k' u.c.trapvec cause u.pc tval := by
  obtain ⟨k', hk', htrap⟩ := trapAt_trapped hi (encode i) tval h14 hv hf hstop
  refine ⟨keep s (trapAt u (encode i) cause tval s), k', ?_, hk', htrap⟩
  rw [he, trapWord, asRank_next hi hh, if_neg hex]

theorem illegalOpcode_inRank {w : IWord} {s : State} {u : Iss} (hi : issuing s (Fields.ofWord w).ctl = some u) :
    exec (.illegalOpcode w) s = .next (keep s (trapAt u w 0x01 0 s)) := by
  rw [exec_illegalOpcode, execIllegalOpcode, (issuing_spec hi).1]
  simp only [hi]

theorem illegalOpcode_traps {w : IWord} {s : State} {u : Iss} (hi : issuing s (Fields.ofWord w).ctl = some u) (hv : u.c.trapvec ≠ 0)
    (hf : u.k.frameActive = false) (hstop : ∀ e ∈ u.k.live, e.stop = none) :
    ∃ t k', exec (.illegalOpcode w) s = .next t ∧ rank? t u.g u.r = some k' ∧ Trapped u.k k' u.c.trapvec 0x01 u.pc 0 := by
  obtain ⟨k', hk', htrap⟩ := trapAt_trapped (cause := 0x01) hi w 0 (by decide) hv hf hstop
  exact ⟨_, k', illegalOpcode_inRank hi, hk', htrap⟩

/-! ### The emulation trap -/

/-- A new faulting entry goes last into the frame record. -/
theorem enterTrap_frame_last (entry hdr : Long) (cause : BitVec 16) (tpc tval : Long) {e : Entry} {k : Rank} (hnew : ∀ y ∈ k.live, y.id ≠ e.id) :
    (enterTrap entry hdr false cause tpc tval (some e) k).frame.getLast? = some e.reset := by
  have hlive : withFault (some e) k.live = k.live ++ [e] := by
    have hnone : (k.live.any fun y => y.id == e.id) = false := by simpa using hnew
    simp only [withFault, hnone, Bool.false_eq_true, if_false]
  show (((withFault (some e) k.live).filter _).map Entry.reset).getLast? = _
  rw [hlive, List.filter_append, List.filter_singleton, List.map_append]
  simp

theorem emulation_frame {s : State} {g r : Nat} {x : Group} {c : Ctx} {k : Rank} {tpc : Long} {e : Entry} (hx : group? s g = some x)
    (hc : ctx? s x.ctx = some c) (hk : rank? s g r = some k) (hf : k.frameActive = false) (hv : c.trapvec ≠ 0) (hdrop : e.drop = true)
    (hlive : ∀ y ∈ k.live, y.stop = none ∧ y.id ≠ e.id) :
    ∃ k', rank? (takeTrap g r false 0x02 tpc 0 (some e) s) g r = some k' ∧ k'.tcause = tcauseWord false true 0x02 ∧ k'.tpc = tpc ∧
      k'.regs = k.regs ∧ k'.handler = true ∧ k'.frame.getLast? = some e.reset := by
  obtain ⟨⟨k1, hdr, k', hn, -, hk', hcounted⟩, -⟩ := takeTrap_enters (impr := false) (cause := 0x02) (tpc := tpc) (tval := 0) (fault := some e)
    hx hc hk (by decide) hf hv
  have hpast : pathPast false (some e) k = k := by simp [pathPast, hdrop]
  rw [hpast, unstop_id k fun y hy => (hlive y hy).1] at hn
  have hlive1 : k1.live = k.live := by
    show k1.noPly.live = k.noPly.live
    rw [hn]
  have hregs : k1.regs = k.regs := by
    show k1.noPly.regs = k.noPly.regs
    rw [hn]
  rw [hcounted] at hk'
  refine ⟨_, hk', rfl, rfl, hregs, rfl, ?_⟩
  exact enterTrap_frame_last c.trapvec hdr 0x02 tpc 0 fun y hy => (hlive y (hlive1 ▸ hy)).2

theorem extensionOpcode_frame {w : IWord} {s : State} {u : Iss} (hi : issuing s (Fields.ofWord w).ctl = some u) (hv : u.c.trapvec ≠ 0)
    (hf : u.k.frameActive = false) (hlive : ∀ e ∈ u.k.live, e.stop = none ∧ e.id ≠ s.fresh) (hh : hurdle s u (.extensionOpcode w) = none) :
    ∃ t k', exec (.extensionOpcode w) s = .next t ∧ rank? t u.g u.r = some k' ∧
      k'.tcause = tcauseWord false true 0x02 ∧ k'.tpc = u.pc ∧ k'.regs = u.k.regs ∧ k'.handler = true ∧
      ∃ e, k'.frame.getLast? = some e ∧ e.word = w ∧ e.mask = u.ex ∧ e.cause = 0x02 ∧ e.drop = true := by
  obtain ⟨-, hx, hk, hc, -⟩ := issuing_spec hi
  obtain ⟨k', hk', hcause, hpc, hregs, hhandler, hlast⟩ := emulation_frame (e := emulationEntry s.clk u w s.fresh) (tpc := u.pc)
    (s := modRank u.g u.r (fun k => { k with frameWord := w }) { s with fresh := s.fresh + 1 }) (group_modRank_some hx) hc (rank_modRank_some hk)
    hf hv rfl hlive
  exact ⟨_, k', exec_extensionOpcode hi hh, hk', hcause, hpc, hregs, hhandler, _, hlast, rfl, rfl, rfl, rfl⟩

/-! ### The sequencer -/

theorem lowestRank_not_all {x : Group} (h : lowestRank x ≠ none) : (x.ranks.all fun k => k.st == .retired && k.imprecise.isEmpty) = false := by
  obtain ⟨r, hr⟩ := Option.ne_none_iff_exists'.mp h
  have hfound := List.find?_some hr
  cases hk : x.ranks[r]? with
  | none => rw [hk] at hfound; cases hfound
  | some k =>
    rw [hk] at hfound
    rw [Bool.eq_false_iff]
    intro hall
    have hret := List.all_eq_true.mp hall k (List.mem_of_getElem? hk)
    simp only [Bool.and_eq_true, beq_iff_eq] at hret
    simp [hret.1] at hfound

/-- A group with a rank that has not retired does not settle. -/
theorem settleGroup_running {g : Nat} {s : State} {x : Group} (hx : group? s g = some x) (hret : x.retiredGroup = false)
    (hlow : lowestRank x ≠ none) : settleGroup g s = s := by
  have hget : sget g s.groups = some x := hx
  have hfree : freeGroup g s = s := by
    unfold freeGroup
    rw [hget]
    simp [hret]
  unfold settleGroup
  rw [hget]
  simp only [hret, Bool.false_or, hfree, lowestRank_not_all hlow, Bool.false_and, Bool.false_eq_true, if_false, ite_self]

theorem group_modGroup_some {s : State} {g : Nat} {x : Group} {f : Group → Group} (h : group? s g = some x) : group? (modGroup g f s) g = some (f x) := by
  rw [group_modGroup, if_pos rfl, h]
  rfl

/-- R167: a failed word stops its sequencer; the fault waits for the lowest rank. -/
theorem group_seqFaultAt {g : Nat} {s : State} {x : Group} (hx : group? s g = some x) (hret : x.retiredGroup = false) (hlow : lowestRank x ≠ none)
    (cause : BitVec 16) (tval : Long) :
    group? (seqFaultAt g cause tval s) g = some { x with seqFault := some x.seq.mpc, seq := { x.seq with st := .stopped, recs := x.seq.recs.map fun r => { r with forceErr := true } } } := by
  have hsome : (lowestRank x).isSome = true := Option.isSome_iff_ne_none.mpr hlow
  unfold seqFaultAt
  rw [hx]
  dsimp only
  rw [if_pos hsome]
  generalize hr : ({ source := 3, status := 0x000B, cmdaddr := x.seq.mpc, counta := cause.toNat, countb := tval.toNat, launch := x.launchid } : Record) = rec
  have hpost : group? (postCtx x.ctx rec { (modGroup g (fun x => { x with
        seqFault := if (lowestRank x).isSome then some x.seq.mpc else none
        seq := { x.seq with st := .stopped, recs := x.seq.recs.map fun r => { r with forceErr := true } } }) s) with cur := none }) g =
      some { x with seqFault := some x.seq.mpc, seq := { x.seq with st := .stopped, recs := x.seq.recs.map fun r => { r with forceErr := true } } } := by
    rw [group?, (aside_postCtx ..).groups]
    refine (group_modGroup_some hx).trans ?_
    rw [if_pos hsome]
  rw [settleGroup_running hpost hret hlow]
  exact hpost

theorem seq_stops {i : Instr} {cause : BitVec 16} {s : State} {g : Nat} {x : Group} {c : Ctx} (hs : seqIssuing s = some (g, x, c))
    (he : exec i s = asSeq (fun g _ _ s => seqFaultAt g cause 0 s) s) (hlow : lowestRank x ≠ none) (hret : x.retiredGroup = false) :
    ∃ t y, exec i s = .next t ∧ group? t g = some y ∧ y.seq.st = .stopped ∧ y.seqFault = some x.seq.mpc := by
  obtain ⟨-, hx, -⟩ := seqIssuing_spec hs
  exact ⟨_, _, he.trans (asSeq_next hs), group_seqFaultAt hx hret hlow cause 0, rfl, rfl⟩

theorem illegalOpcode_inSeq (w : IWord) {s : State} {g : Nat} {x : Group} {c : Ctx} (hs : seqIssuing s = some (g, x, c)) :
    exec (.illegalOpcode w) s = asSeq (fun g _ _ s => seqFaultAt g 0x01 0 s) s := by
  rw [exec_illegalOpcode, execIllegalOpcode, (seqIssuing_spec hs).1]

theorem extensionOpcode_inSeq (w : IWord) {s : State} {g : Nat} {x : Group} {c : Ctx} (hs : seqIssuing s = some (g, x, c)) :
    exec (.extensionOpcode w) s = asSeq (fun g _ _ s => seqFaultAt g 0x02 0 s) s := by
  rw [exec_extensionOpcode_eq, execExtensionOpcode, (seqIssuing_spec hs).1]

/-! ### Rejected words -/

/-- With no agenda a unit whose fetch ends its turn leaves that state. -/
theorem step_turn_done {s s' : State} {u : Turn} (ha : s.agenda = []) (hc : s.cur = some u) (hu : unfinished s (.turn u) = none)
    (hf : fetchTurn u (settleDue s) = .done s') : step s = .next s' := by
  have hn : nextAct s = .turn u := by simp [nextAct, ha, hc, finishFirst, hu]
  have hp : popAct s = settleDue s := by simp [popAct, ha, hc]
  rw [step, hn, hp]
  simp only [hf]

theorem step_rejected {s s' : State} {g r : Nat} {x : Group} {k : Rank} {c : Ctx} {bs : List Byte} {e : Reject} {u : Iss} (ha : s.agenda = [])
    (hcur : s.cur = some (.rank g r)) (hx : group? s g = some x) (hk : rank? s g r = some k) (hctx : ctx? (settleDue s) x.ctx = some c)
    (hst : k.st = .issuing) (how : openWord k = none) (hfetch : fetchBytes x.ctx x.core c (pathPc k k.active) (settleDue s) = (s', .bytes bs))
    (hdec : decodeWord (.rank k.budget) (wordOfBytes bs) = .error e) (hu : issuing s' (Fields.ofWord (wordOfBytes bs)).ctl = some u) :
    step s = .next (keep s (trapAt u (wordOfBytes bs) 0x01 (BitVec.ofNat 64 (rejectField e)) s')) := by
  have hdone : fetchRank g r (settleDue s) = .done (trapAt u (wordOfBytes bs) 0x01 (BitVec.ofNat 64 (rejectField e)) s') := by
    simp [fetchRank, group_settleDue, rank_settleDue, hx, hk, hctx, hst, hfetch, hdec, hu]
  refine step_turn_done ha hcur (by simp [unfinished, hk, how]) ?_
  simp only [fetchTurn, ← hcur, settleDue_cur, hdone, keep_settleDue]

/-- Settles O26: the traps of BKPT and TRAP, of words of no instruction in a rank and in a sequencer, and of rejected words. -/
theorem wordsThatTrap : Obligations.WordsThatTrap := by
  refine ⟨fun c code s u hi hex hv hf hstop => ⟨trapWord_traps (exec_bkpt c code) hi hex (by decide) hv hf hstop, trapWord_traps (exec_trap c code) hi hex (by decide) hv hf hstop⟩,
    ⟨fun w s u hi hv hf hlive => ⟨illegalOpcode_traps hi hv hf fun e he => (hlive e he).1, extensionOpcode_frame hi hv hf hlive⟩,
      fun w s g x c hs hlow hret => ⟨seq_stops hs (illegalOpcode_inSeq w hs) hlow hret, seq_stops hs (extensionOpcode_inSeq w hs) hlow hret⟩⟩,
    fun s g r x k c s' bs e u ha hcur hx hk hctx hst how hfetch hdec hu => step_rejected ha hcur hx hk hctx hst how hfetch hdec hu⟩

end Sys2Proof.Laws
end

section
/-! SUPPORT. The checks before a word acts (R36 checks 10 and 11). -/

open Sys2Proof Sys2Proof.Machine

namespace Sys2Proof.Laws

theorem asRank_hurdle {i : Instr} {c : Ctl} {effect : Iss → State → State} {s : State} {u : Iss} {h : Hurdle} (hi : issuing s c = some u)
    (hh : hurdle s u i = some h) : asRank i c effect s = .next (keep s (doHurdle u (encode i) h s)) := by
  unfold asRank
  rw [hi]
  simp only [hh]

theorem hurdle_privilege {i : Instr} {s : State} {u : Iss} (hp : privileged i = true) (hu : u.atHandler = false) : hurdle s u i = some .privilege := by
  simp only [hurdle, hp, hu, Bool.not_false, Bool.and_self, if_true]

theorem hurdle_resource {i : Instr} {s : State} {u : Iss} {f : Nat} (hp : privileged i = false) (hn : notHeld u.x i = some f) :
    hurdle s u i = some (.resource f) := by
  simp only [hurdle, hp, hn, Bool.false_and, Bool.false_eq_true, if_false]

/-- A rank's word that meets an obstacle ends with it. -/
def StopsAt (i : Instr) (c : Ctl) : Prop :=
  ∀ s u h, issuing s c = some u → hurdle s u i = some h → exec i s = .next (keep s (doHurdle u (encode i) h s))

theorem stopsAt_of {i : Instr} {c : Ctl} {effect : Iss → State → State} (he : ∀ s, exec i s = asRank i c effect s) : StopsAt i c :=
  fun s _ _ hi hh => (he s).trans (asRank_hurdle hi hh)

theorem sysWord_hurdle {i : Instr} {c : Ctl} {effect : IWord → Iss → State → State} {s : State} {u : Iss} {h : Hurdle} (hi : issuing s c = some u)
    (hh : hurdle s u i = some h) : sysWord i c effect s = .next (keep s (doHurdle u (encode i) h s)) := asRank_hurdle hi hh

theorem stopsAt_bufset (c : Ctl) (a b : Opnd) : StopsAt (.bufset c a b) c := by
  intro s u h hi hh
  have hread : blockRead (.bufset c a b) c (wreg a) (wreg b) s = .next (keep s (doHurdle u (encode (.bufset c a b)) h s)) :=
    sysWord_hurdle hi hh
  rw [exec_bufset, execBufset, hi]
  simp only [hread, hh]

theorem privileged_traps {i : Instr} {c : Ctl} (hstop : StopsAt i c) (hp : privileged i = true) {s : State} {u : Iss} (hi : issuing s c = some u)
    (hk : u.k.handler = false) (hc : u.c.host = false) : exec i s = .next (keep s (trapAt u (encode i) 0x03 0 s)) :=
  hstop s u .privilege hi (hurdle_privilege hp (by rw [Iss.atHandler, hk, hc]; rfl))

theorem notHeld_traps {i : Instr} {c : Ctl} (hstop : StopsAt i c) (hp : privileged i = false) {s : State} {u : Iss} {f : Nat}
    (hi : issuing s c = some u) (hn : notHeld u.x i = some f) : exec i s = .next (keep s (trapAt u (encode i) 0x04 (BitVec.ofNat 64 f) s)) :=
  hstop s u (.resource f) hi (hurdle_resource hp hn)

theorem barHeld_false {x : Group} {n : Nat} (h : if n < 96 then x.lbar ≤ n else x.qbar ≤ n - 96) : barHeld x n = false := by
  unfold barHeld
  split_ifs at h ⊢ <;> simpa using h

theorem barArv_notHeld {x : Group} (c : Ctl) (sc : Scope) (d : BitVec 6) {b : BitVec 7} (imm : Word)
    (h : if b.toNat < 96 then x.lbar ≤ b.toNat else x.qbar ≤ b.toNat - 96) : notHeld x (.barArv c sc (.w d) (.b b) imm) = some 1 := by
  simp [notHeld, positions, barHeld_false h]

theorem acfgRel_notHeld {x : Group} (c : Ctl) {a : BitVec 3} (h : sget a.toNat x.slabMap = none) : notHeld x (.acfgRel c (.a a)) = some 1 := by
  simp [notHeld, positions, h]

/-- Settles O29: the privileged words below their level, and the words that name a barrier or slab their group does not hold. -/
theorem checksBeforeIssue : Obligations.ChecksBeforeIssue := by
  refine ⟨?_, fun s u c hi => ⟨fun sc d b imm h => ?_, fun a h => ?_⟩, ?_⟩
  · rintro i c s u (rfl | ⟨a, b, rfl | rfl | rfl | rfl | rfl⟩) hi hk hc
    · exact privileged_traps (stopsAt_of (exec_rtt c)) rfl hi hk hc
    · exact privileged_traps (stopsAt_of (exec_ctxFrz c a)) rfl hi hk hc
    · exact privileged_traps (stopsAt_of (exec_ctxSav c a b)) rfl hi hk hc
    · exact privileged_traps (stopsAt_of (exec_ctxLd c a b)) rfl hi hk hc
    · exact privileged_traps (stopsAt_of (exec_ctxRes c a)) rfl hi hk hc
    · exact privileged_traps (stopsAt_bufset c a b) rfl hi hk hc
  · exact notHeld_traps (stopsAt_of (exec_barArv c sc (.w d) (.b b) imm)) rfl hi (barArv_notHeld c sc d imm h)
  · exact notHeld_traps (stopsAt_of (exec_acfgRel c (.a a))) rfl hi (acfgRel_notHeld c h)
  · rintro i c s u f ⟨sc, d, a, b, imm, n, e, hform⟩ hi hn
    obtain rfl | rfl | rfl | rfl | rfl | rfl | rfl | ⟨rfl, rfl | rfl | rfl | rfl | rfl | rfl⟩ := hform
    · exact notHeld_traps (stopsAt_of (exec_barCfg c a b imm)) rfl hi hn
    · exact notHeld_traps (stopsAt_of (exec_barArv c sc d a imm)) rfl hi hn
    · exact notHeld_traps (stopsAt_of (exec_barWait c sc a b imm)) rfl hi hn
    · exact notHeld_traps (stopsAt_of (exec_barSync c sc a imm)) rfl hi hn
    · exact notHeld_traps (stopsAt_of (exec_barAdd c sc a b imm)) rfl hi hn
    · exact notHeld_traps (stopsAt_of (exec_barTest c sc d a b imm)) rfl hi hn
    · exact notHeld_traps (stopsAt_of (exec_acfgRel c a)) rfl hi hn
    · exact notHeld_traps (stopsAt_of (exec_copy e)) rfl hi hn
    · exact notHeld_traps (stopsAt_of (exec_copyPl n e)) rfl hi hn
    · exact notHeld_traps (stopsAt_of (exec_gather e)) rfl hi hn
    · exact notHeld_traps (stopsAt_of (exec_scadd e)) rfl hi hn
    · exact notHeld_traps (stopsAt_of (exec_sort e)) rfl hi hn
    · exact notHeld_traps (stopsAt_of (exec_coll e)) rfl hi hn

end Sys2Proof.Laws

end

section
/-! SUPPORT. The frame of a trap in a memory that is not in its one form (R341, R7): a zero stored there uncovers a byte. -/

open Sys2Proof Sys2Proof.Machine

namespace Sys2Proof.Laws

set_option maxRecDepth 100000

/-- A rank whose context has a handler. Partition 0 has one range, its page 0 at 4096, and the memory's last two bytes stand out of order. -/
def outOfOrder : State :=
  let s := State.reset.withFetchWord 96 (encode (.exit plainCtl)).toNat
  { modCtx 0 (fun c => { c with trapvec := 4 }) s with
    mem := [(5, 0x10), (15, 0xF0), (4096, 1), (4095, 7)]
    tabs := { s.tabs with s2rn := [(0, 1)] } }

theorem outOfOrder_traps : (match group? outOfOrder 0, ctx? outOfOrder 0, rank? outOfOrder 0 0 with
    | some x, some c, some k => x.ctx == 0 && k.threads.length == 32 && k.live.isEmpty && !k.frameActive && c.trapvec == 4
    | _, _, _ => false) = true := by decide

theorem outOfOrder_found : (stage2Addr outOfOrder 0 0 .wr).opt = some 4096 ∧ cellAt outOfOrder 4096 = 4096 := by decide

/-- The byte stored at 4096 changes what is read at 4095. -/
theorem outOfOrder_uncovers : byteAt (gpaWrite 0 0 [0] outOfOrder).1.mem 4095 = 7 ∧ byteAt outOfOrder.mem 4095 = 0 := by decide

/-- Refutes O27: the statement speaks of every state, and the memory of `outOfOrder` is not in its one form. A zero that is stored at 4096
takes that byte's entry out, and with it uncovers the entry of 4095, which stood behind it. -/
theorem not_trapEntry : ¬ Obligations.TrapEntry := by
  unfold Obligations.TrapEntry
  intro h
  have htraps := outOfOrder_traps
  cases hx : group? outOfOrder 0 with
  | none => simp [hx] at htraps
  | some x =>
    cases hc : ctx? outOfOrder 0 with
    | none => simp [hx, hc] at htraps
    | some c =>
      cases hk : rank? outOfOrder 0 0 with
      | none => simp [hx, hc, hk] at htraps
      | some k =>
        simp only [hx, hc, hk, Bool.and_eq_true, beq_iff_eq, List.isEmpty_iff, Bool.not_eq_true'] at htraps
        obtain ⟨⟨⟨⟨hctx, hlen⟩, hlive⟩, hframe⟩, hvec⟩ := htraps
        have hstop : ∀ e ∈ k.live, e.stop = none := by simp [hlive]
        obtain ⟨-, hbyte⟩ := h outOfOrder 0 0 x c k 0x01 0 0 hx (hctx ▸ hc) hk hlen hstop (by decide) hframe (by rw [hvec]; decide)
        obtain ⟨hfound, hcell⟩ := outOfOrder_found
        obtain ⟨hafter, hbefore⟩ := outOfOrder_uncovers
        have hkept := hbyte 0 0 [0] 4095 (by decide) fun d hd => by
          rw [hfound] at hd
          cases hd
          exact .inl (by rw [hcell]; decide)
        rw [hafter, hbefore] at hkept
        exact absurd hkept (by decide)

end Sys2Proof.Laws

end

section
/-! SUPPORT. What a freeze brings about (R344, R346, R354): the context's mode, its groups, the context engine's step, the posted record. -/

open Sys2Proof Sys2Proof.Machine

namespace Sys2Proof.Laws

/-! ### What stays over a freeze -/

/-- Contexts keep where they are saved; groups keep their context, and the frozen ones are still frozen. -/
structure Stands (s t : State) : Prop where
  ctx : ∀ cid c, ctx? s cid = some c → ∃ c', ctx? t cid = some c' ∧ c'.savebase = c.savebase
  group : ∀ g x, group? s g = some x → ∃ y, group? t g = some y ∧ y.ctx = x.ctx ∧ (x.frozen = true → y.frozen = true)

theorem stands_refl (s : State) : Stands s s := ⟨fun _ c h => ⟨c, h, rfl⟩, fun _ x h => ⟨x, h, rfl, id⟩⟩

theorem stands_trans {a b c : State} (h : Stands a b) (k : Stands b c) : Stands a c := by
  refine ⟨fun cid x hx => ?_, fun g x hx => ?_⟩
  · obtain ⟨y, hy, hsave⟩ := h.ctx cid x hx
    obtain ⟨z, hz, hsave'⟩ := k.ctx cid y hy
    exact ⟨z, hz, hsave'.trans hsave⟩
  · obtain ⟨y, hy, hctx, hfrozen⟩ := h.group g x hx
    obtain ⟨z, hz, hctx', hfrozen'⟩ := k.group g y hy
    exact ⟨z, hz, hctx'.trans hctx, hfrozen' ∘ hfrozen⟩

theorem stands_fold {α : Type} {f : State → α → State} (h : ∀ s a, Stands s (f s a)) (l : List α) (s : State) : Stands s (l.foldl f s) := by
  induction l generalizing s with
  | nil => exact stands_refl s
  | cons a l ih => exact stands_trans (h s a) (ih _)

theorem stands_same {s t : State} (hg : t.groups = s.groups) (hc : t.ctxs = s.ctxs) : Stands s t :=
  ⟨fun cid c h => ⟨c, by rw [ctx?, hc]; exact h, rfl⟩, fun g x h => ⟨x, by rw [group?, hg]; exact h, rfl, id⟩⟩

/-- The contexts are the same under a view of them. -/
theorem ctx_of_view {β : Type} {view : Ctx → β} {s t : State} (h : (t.ctxs.map fun e => (e.1, view e.2)) = s.ctxs.map fun e => (e.1, view e.2))
    (cid : Nat) : (ctx? t cid).map view = (ctx? s cid).map view := by
  rw [ctx?, ctx?, ← sget_map cid view t.ctxs, ← sget_map cid view s.ctxs, h]

theorem stands_of_views {β : Type} {view : Ctx → β} {s t : State} (hview : ∀ c c', view c' = view c → c'.savebase = c.savebase)
    (hc : (t.ctxs.map fun e => (e.1, view e.2)) = s.ctxs.map fun e => (e.1, view e.2))
    (hg : ∀ g, (group? t g).map (fun x => { x with ranks := [] }) = (group? s g).map (fun x => { x with ranks := [] })) : Stands s t := by
  refine ⟨fun cid c h => ?_, fun g x h => ?_⟩
  · have hv := ctx_of_view hc cid
    rw [h] at hv
    obtain ⟨c', hc', hcv⟩ := Option.map_eq_some_iff.mp hv
    exact ⟨c', hc', hview c c' hcv⟩
  · have hv := hg g
    rw [h] at hv
    obtain ⟨y, hy, hyv⟩ := Option.map_eq_some_iff.mp hv
    have hctx := congrArg Group.ctx hyv
    have hfrozen := congrArg Group.frozen hyv
    exact ⟨y, hy, hctx, fun hx => hfrozen.trans hx⟩

theorem stands_counts {s t : State} (h : CountsOnly s t) : Stands s t :=
  stands_of_views (view := noSticky) (fun c c' he => show (noSticky c').savebase = (noSticky c).savebase by rw [he]) h.ctxs h.groups

theorem stands_aside {s t : State} (h : Aside s t) : Stands s t := stands_counts (counts_aside h)

theorem stands_outside {g r : Nat} {s t : State} (h : SameOutside g r s t) : Stands s t :=
  stands_of_views (view := Ctx.noEnergy) (fun c c' he => show c'.noEnergy.savebase = c.noEnergy.savebase by rw [he]) h.ctxs h.groups

theorem stands_modRank (g r : Nat) (f : Rank → Rank) (s : State) : Stands s (modRank g r f s) := stands_outside (same_modRank g r f s)

theorem stands_modGroup {g : Nat} {f : Group → Group} (h : ∀ x, (f x).ctx = x.ctx ∧ (x.frozen = true → (f x).frozen = true)) (s : State) :
    Stands s (modGroup g f s) := by
  refine ⟨fun cid c hc => ⟨c, hc, rfl⟩, fun g' x hx => ?_⟩
  by_cases hg : g' = g
  · subst hg
    exact ⟨f x, group_modGroup_some hx, h x⟩
  · exact ⟨x, by rw [group_modGroup, if_neg hg, hx], rfl, id⟩

theorem stands_modCtx {cid : Nat} {f : Ctx → Ctx} (h : ∀ c, (f c).savebase = c.savebase) (s : State) : Stands s (modCtx cid f s) := by
  refine ⟨fun cid' c hc => ?_, fun g x hx => ⟨x, hx, rfl, id⟩⟩
  have hget : ctx? (modCtx cid f s) cid' = if cid' = cid then (ctx? s cid').map f else ctx? s cid' := sget_smod ..
  rw [hget, hc]
  split
  · exact ⟨f c, rfl, h c⟩
  · exact ⟨c, rfl, rfl⟩

theorem stands_endPly (g r : Nat) (st : RankState) (s : State) : Stands s (endPly g r st s) := by
  unfold endPly
  dsimp only
  exact stands_trans (stands_modRank g r _ s) (stands_same rfl rfl)

theorem stands_keepFault (g r : Nat) (impr : Bool) (fault : Option Entry) (s : State) : Stands s (keepFault g r impr fault s) := by
  unfold keepFault
  split
  · exact stands_refl s
  · split
    · exact stands_refl s
    · exact stands_modRank g r _ s

/-! ### A group is frozen -/

theorem counts_dropTraffic (g : Nat) (s : State) : CountsOnly s (dropTraffic g s) := by
  obtain ⟨hg, hr, hn, hc, hp, ht, hs⟩ := counts_orphan (fun a => a.group == g) s
  exact ⟨hg, hr, hn, hc, hp, ht, hs⟩

theorem stands_freezeSeq (g : Nat) (s : State) : Stands s (freezeSeq g s) := by
  unfold freezeSeq
  dsimp only
  refine stands_trans ?_ (stands_modGroup ?_ _)
  · exact stands_same rfl rfl
  · exact fun _ => ⟨rfl, id⟩

/-- After the group is marked, its traffic, sequencer and commands are frozen. -/
theorem stands_afterMark (g : Nat) (s : State) : Stands s (freezeCmds g (freezeSeq g (dropTraffic g s))) := by
  refine stands_trans (stands_counts (counts_dropTraffic g s)) ?_
  refine stands_trans (stands_freezeSeq g _) ?_
  exact stands_same rfl rfl

theorem stands_freezeGroup (g : Nat) (s : State) : Stands s (freezeGroup g s) := by
  unfold freezeGroup
  refine stands_trans (stands_modGroup ?_ s) (stands_afterMark g _)
  exact fun _ => ⟨rfl, fun _ => rfl⟩

theorem freezeGroup_frozen {g : Nat} {s : State} {x : Group} (hx : group? s g = some x) :
    ∃ y, group? (freezeGroup g s) g = some y ∧ y.ctx = x.ctx ∧ y.frozen = true := by
  obtain ⟨y, hy, hctx, hfrozen⟩ := (stands_afterMark g (modGroup g (fun x => { x with frozen := true, ranks := x.ranks.map freezeRank }) s)).group
    g _ (group_modGroup_some hx)
  exact ⟨y, hy, hctx, hfrozen rfl⟩

theorem freezeGroups_frozen {g : Nat} {l : List Nat} (hg : g ∈ l) {s : State} {x : Group} (hx : group? s g = some x) :
    ∃ y, group? (l.foldl (fun s g => freezeGroup g s) s) g = some y ∧ y.frozen = true := by
  induction l generalizing s x with
  | nil => cases hg
  | cons a l ih =>
    rw [List.foldl_cons]
    by_cases hag : a = g
    · subst hag
      obtain ⟨y, hy, -, hfrozen⟩ := freezeGroup_frozen hx
      obtain ⟨z, hz, -, hkeeps⟩ := (stands_fold (fun s g => stands_freezeGroup g s) l (freezeGroup a s)).group a y hy
      exact ⟨z, hz, hkeeps hfrozen⟩
    · obtain ⟨y, hy, -, -⟩ := (stands_freezeGroup a s).group g x hx
      exact ih ((List.mem_cons.mp hg).resolve_left fun h => hag h.symm) hy

/-! ### A context is frozen -/

/-- The mode of a context is another's that differs in its sticky error alone. -/
theorem mode_of_counts {s t : State} (h : CountsOnly s t) (cid : Nat) : (ctx? t cid).map (·.mode) = (ctx? s cid).map (·.mode) := by
  have hv := congrArg (Option.map (fun c : Ctx => c.mode)) (ctx_of_view h.ctxs cid)
  rw [Option.map_map, Option.map_map] at hv
  exact hv

theorem aside_noteState (cid : Nat) (s : State) : Aside s (noteState cid s) := by
  unfold noteState
  split
  · exact aside_refl s
  · exact aside_gpaWrite ..

theorem stands_freezeCtx (cid : Nat) (s : State) : Stands s (freezeCtx cid s) := by
  unfold freezeCtx
  dsimp only
  refine stands_trans ?_ (stands_aside (aside_noteState cid _))
  refine stands_trans ?_ (stands_modCtx ?_ _)
  · refine stands_trans ?_ (stands_fold (fun s g => stands_freezeGroup g s) _ _)
    exact stands_same rfl rfl
  · exact fun _ => rfl

theorem freezeCtx_mode {cid : Nat} {s : State} {c : Ctx} (hc : ctx? s cid = some c) : (ctx? (freezeCtx cid s) cid).map (·.mode) = some .frozen := by
  unfold freezeCtx
  dsimp only
  rw [mode_of_counts (counts_aside (aside_noteState cid _)) cid]
  generalize hmarked : ({ cutPackets cid s with launches := (cutPackets cid s).launches.map _ } : State) = s1
  have hctx : ctx? s1 cid = some c := by rw [← hmarked]; exact hc
  obtain ⟨c', hc', -⟩ := (stands_fold (fun s g => stands_freezeGroup g s)
    (((cutPackets cid s).groups.filter fun e => e.2.ctx == cid && !e.2.frozen).map (·.1)) s1).ctx cid c hctx
  rw [ctx?] at hc'
  rw [modCtx, ctx?, sget_smod, if_pos rfl, hc']
  rfl

theorem freezeCtx_group {cid g : Nat} {s : State} {x : Group} (hx : group? s g = some x) (hcid : x.ctx = cid) :
    ∃ y, group? (freezeCtx cid s) g = some y ∧ y.frozen = true := by
  by_cases hfrozen : x.frozen = true
  · obtain ⟨y, hy, -, hkeeps⟩ := (stands_freezeCtx cid s).group g x hx
    exact ⟨y, hy, hkeeps hfrozen⟩
  · have hmem : g ∈ (s.groups.filter fun e => e.2.ctx == cid && !e.2.frozen).map (·.1) := by
      refine List.mem_map.mpr ⟨(g, x), List.mem_filter.mpr ⟨mem_of_sget hx, ?_⟩, rfl⟩
      simp [hcid, hfrozen]
    unfold freezeCtx
    dsimp only
    generalize hmarked : ({ cutPackets cid s with launches := (cutPackets cid s).launches.map _ } : State) = s1
    have hx1 : group? s1 g = some x := by rw [← hmarked]; exact hx
    obtain ⟨y, hy, hyfrozen⟩ := freezeGroups_frozen hmem hx1
    have hlast := (aside_noteState cid (modCtx cid (fun c => { c with mode := .frozen, yieldPending := false, deadline := 0 })
      (((cutPackets cid s).groups.filter fun e => e.2.ctx == cid && !e.2.frozen).map (·.1) |>.foldl (fun s g => freezeGroup g s) s1))).groups
    refine ⟨y, ?_, hyfrozen⟩
    rw [group?, hlast]
    exact hy

/-! ### A context is halted: it is frozen, and the context engine is to save it -/

theorem haltCtx_spec {cid g : Nat} {s : State} {c : Ctx} {x : Group} (hc : ctx? s cid = some c) (hx : group? s g = some x) (hcid : x.ctx = cid) :
    (ctx? (haltCtx cid s) cid).map (·.mode) = some .frozen ∧
      (∃ st ∈ (haltCtx cid s).steps, st.target = cid ∧ st.kind = 4 ∧ st.area = c.savebase) ∧
      ∃ y, group? (haltCtx cid s) g = some y ∧ y.frozen = true := by
  obtain ⟨c', hc', hsave⟩ := (stands_freezeCtx cid s).ctx cid c hc
  have hmode := freezeCtx_mode hc
  unfold haltCtx
  simp only [hc'] at hmode ⊢
  refine ⟨?_, ⟨_, List.mem_append_right _ (List.mem_singleton_self _), rfl, rfl, hsave⟩, freezeCtx_group hx hcid⟩
  rw [ctx?] at hc'
  rw [ctx?, hc']
  exact hmode

/-! ### Bytes that the package stores in memory of no region -/

theorem writeBytes_append (m : Mem) (a : Nat) (xs ys : List Byte) : writeBytes m a (xs ++ ys) = writeBytes (writeBytes m a xs) (a + xs.length) ys := by
  induction xs generalizing m a with
  | nil => rfl
  | cons x xs ih =>
    rw [List.cons_append, writeBytes, ih, writeBytes, List.length_cons, Nat.add_right_comm, Nat.add_assoc]

theorem homedHere_of_noRegion {s : State} {d : Nat} (h : regionOf s d = none) : homedHere s d = true := by simp [homedHere, homeOf, h]

theorem cellAt_of_noRegion {s : State} {d : Nat} (h : regionOf s d = none) : cellAt s d = d := by simp [cellAt, h]

theorem mirrorSend_mem (p d b t) (s : State) (q := none) : (mirrorSend p d b t s q).mem = s.mem ∧ (mirrorSend p d b t s q).regions = s.regions := by
  unfold mirrorSend
  split
  · exact ⟨rfl, rfl⟩
  · exact ⟨rfl, rfl⟩

theorem homeWrite_mem {w : Writer} {keep : Option (Nat × Nat × Nat)} {tg : Option (BitVec 32 × List Byte)} {d : Nat} (bs : List Byte) {s : State}
    (h : homedHere s d = true) : (homeWrite w keep tg d bs s).mem = writeBytes s.mem (cellAt s d) bs := by
  unfold homeWrite
  rw [if_pos h]
  exact (mirrorSend_mem ..).1

theorem homeWrite_regions (w : Writer) (keep : Option (Nat × Nat × Nat)) (tg : Option (BitVec 32 × List Byte)) (d : Nat) (bs : List Byte) (s : State) :
    (homeWrite w keep tg d bs s).regions = s.regions := by
  unfold homeWrite
  dsimp only
  split
  · exact (mirrorSend_mem ..).2
  · rfl

theorem pkgWrite_mem {d : Nat} (bs : List Byte) {s : State} (h : regionOf s d = none) : (pkgWrite d bs s).mem = writeBytes s.mem d bs := by
  rw [pkgWrite, homeWrite_mem bs (homedHere_of_noRegion h), cellAt_of_noRegion h]

theorem regionOf_pkgWrite (d : Nat) (bs : List Byte) (s : State) (d' : Nat) : regionOf (pkgWrite d bs s) d' = regionOf s d' := by
  rw [regionOf, pkgWrite, homeWrite_regions, regionOf]

theorem regionOf_near {s : State} {a n : Nat} (h64 : a % 64 = 0) (hn : n < 64) : regionOf s (a + n) = regionOf s a := by
  rw [regionOf, regionOf]
  congr 1
  omega

theorem granules_record {a : Nat} (h64 : a % 64 = 0) : granules a 64 = [(0, 32), (32, 32)] := by
  have h32 : a % 32 = 0 := by omega
  simp [granules, h32, List.range_succ]

/-- A record of 64 bytes is stored as two granules. -/
theorem pkgWriteRun_record {a : Nat} {rec : List Byte} {s : State} (h64 : a % 64 = 0) (hlen : rec.length = 64) (h : regionOf s a = none) :
    (pkgWriteRun a rec s).mem = writeBytes s.mem a rec ∧ ∀ d, regionOf (pkgWriteRun a rec s) d = regionOf s d := by
  have hrun : pkgWriteRun a rec s = pkgWrite (a + 32) (rec.drop 32) (pkgWrite a (rec.take 32) s) := by
    rw [pkgWriteRun, hlen, granules_record h64]
    simp [List.take_of_length_le, hlen]
  rw [hrun]
  refine ⟨?_, fun d => by rw [regionOf_pkgWrite, regionOf_pkgWrite]⟩
  rw [pkgWrite_mem _ (by rw [regionOf_pkgWrite, regionOf_near h64 (by decide), h]), pkgWrite_mem _ h]
  conv_rhs => rw [← List.take_append_drop 32 rec, writeBytes_append]
  simp [hlen]

/-- R192: a record that its ring has room for stands at the tail, and the tail goes on. -/
theorem postTo_stands {wher : Nat → Look Nat} {rec : List Byte} {h a : Nat} {s : State} (hlen : rec.length = 64) (hhead : wher 0 = .found h)
    (hslot : wher (64 + 64 * (field (readBytes s.mem h 32) 8 8 % 2 ^ field (readBytes s.mem h 32) 0 4)) = .found a) (hh : h % 64 = 0) (ha : a % 64 = 0)
    (hrh : regionOf s h = none) (hra : regionOf s a = none) (hrow : rowFailed s h = false) (hlh : layerOff s h = false) (hla : layerOff s a = false)
    (h4 : 4 ≤ field (readBytes s.mem h 32) 0 4) (h20 : field (readBytes s.mem h 32) 0 4 ≤ 20)
    (hroom : field (readBytes s.mem h 32) 8 8 - field (readBytes s.mem h 32) 16 8 < 2 ^ field (readBytes s.mem h 32) 0 4) :
    (postTo wher rec s).2 = some true ∧
      (postTo wher rec s).1.mem = writeBytes (writeBytes s.mem a rec) (h + 8) (leBytes (field (readBytes s.mem h 32) 8 8 + 1) 8) := by
  have hread : homeRead s h 32 = readBytes s.mem h 32 := by rw [homeRead, if_pos (homedHere_of_noRegion hrh), cellAt_of_noRegion hrh]
  generalize hhd : readBytes s.mem h 32 = hd at *
  have hfree : (field hd 8 8 - field hd 16 8) % 2 ^ 64 < 2 ^ field hd 0 4 := lt_of_le_of_lt (Nat.mod_le _ _) hroom
  have hpost : postTo wher rec s = (pkgWrite (h + 8) (leBytes (field hd 8 8 + 1) 8) (pkgWriteRun a rec s), some true) := by
    unfold postTo
    simpa [hhead, Look.opt, hread, hrow, hlh, hla, hslot, Nat.not_lt.mpr h4, Nat.not_lt.mpr h20] using hfree
  obtain ⟨hmem, hregions⟩ := pkgWriteRun_record ha hlen hra
  rw [hpost]
  refine ⟨rfl, ?_⟩
  dsimp only
  rw [pkgWrite_mem _ (by rw [hregions, regionOf_near hh (by decide), hrh]), hmem]

/-! ### Traps that freeze -/

/-- R344: a trap in a handler or without one halts the context and posts the record. -/
theorem takeTrap_halts {s : State} {g r : Nat} {x : Group} {c : Ctx} {k : Rank} {impr : Bool} {cause : BitVec 16} {tpc tval : Long}
    (hx : group? s g = some x) (hc : ctx? s x.ctx = some c) (hk : rank? s g r = some k) (h14 : cause ≠ 0x14)
    (hhalt : k.frameActive = true ∨ c.trapvec = 0) :
    ∃ w, Stands s w ∧ takeTrap g r impr cause tpc tval none s =
      postCtx x.ctx { source := 0, status := 0x000D, cmdaddr := tpc, counta := cause.toNat, countb := tval.toNat, launch := x.launchid }
        (haltCtx x.ctx w) := by
  unfold takeTrap takeTrapOf
  simp only [hx, hc, hk, if_neg h14, if_pos hhalt]
  refine ⟨_, ?_, rfl⟩
  refine stands_trans ?_ (stands_keepFault g r impr none _)
  have hply : Stands s (endPly g r .ready (modRank g r (fun k => (pathPast impr none k).unstop) s)) :=
    stands_trans (stands_modRank g r _ s) (stands_endPly g r .ready _)
  split
  · refine stands_trans ?_ (stands_modRank g r _ _)
    exact stands_trans hply (stands_same rfl rfl)
  · exact stands_trans hply (stands_same rfl rfl)

/-- R152: a stage-2 fault freezes the context and tells the host. -/
theorem takeTrap_stage2 {s : State} {g r : Nat} {x : Group} {c : Ctx} {k : Rank} {impr : Bool} {tpc tval : Long}
    (hx : group? s g = some x) (hc : ctx? s x.ctx = some c) (hk : rank? s g r = some k) :
    ∃ w, Stands s w ∧ takeTrap g r impr 0x14 tpc tval none s =
      postHostCtx c.part { source := 0, status := 0x0003, cmdaddr := tpc, counta := 0x14, countb := tval.toNat, ctx := x.ctx, part := c.part,
                           launch := x.launchid } (freezeCtx x.ctx w) := by
  unfold takeTrap takeTrapOf
  simp only [hx, hc, hk, if_true]
  refine ⟨_, ?_, rfl⟩
  refine stands_trans ?_ (stands_keepFault g r impr none _)
  have hply : Stands s (endPly g r .ready (modRank g r (fun k => (pathPast impr none k).unstop) s)) :=
    stands_trans (stands_modRank g r _ s) (stands_endPly g r .ready _)
  exact stands_trans hply (stands_same rfl rfl)

theorem frozen_aside {s t : State} (h : Aside s t) {g : Nat} (hs : ∃ y, group? s g = some y ∧ y.frozen = true) :
    (group? t g).map (·.frozen) = some true := by
  obtain ⟨y, hy, hfrozen⟩ := hs
  rw [group?, h.groups]
  rw [group?] at hy
  rw [hy]
  exact congrArg some hfrozen

theorem trap_halts {s : State} {g r : Nat} {x : Group} {c : Ctx} {k : Rank} {impr : Bool} {cause : BitVec 16} {tpc tval : Long}
    (hx : group? s g = some x) (hc : ctx? s x.ctx = some c) (hk : rank? s g r = some k) (h14 : cause ≠ 0x14)
    (hhalt : k.frameActive = true ∨ c.trapvec = 0) :
    let t := takeTrap g r impr cause tpc tval none s
    (ctx? t x.ctx).map (·.mode) = some .frozen ∧ (∃ st ∈ t.steps, st.target = x.ctx ∧ st.kind = 4 ∧ st.area = c.savebase) ∧
      (∃ w, t = postCtx x.ctx { source := 0, status := 0x000D, cmdaddr := tpc, counta := cause.toNat, countb := tval.toNat,
                                launch := x.launchid } w) ∧
      (group? t g).map (·.frozen) = some true := by
  obtain ⟨w, hw, ht⟩ := takeTrap_halts (impr := impr) (tpc := tpc) (tval := tval) hx hc hk h14 hhalt
  obtain ⟨c', hc', hsave⟩ := hw.ctx _ c hc
  obtain ⟨x', hx', hctx, -⟩ := hw.group g x hx
  obtain ⟨hmode, hstep, hgroup⟩ := haltCtx_spec hc' hx' hctx
  intro t
  rw [show t = _ from ht]
  refine ⟨(mode_of_counts (counts_aside (aside_postCtx ..)) _).trans hmode, ?_, ⟨_, rfl⟩, frozen_aside (aside_postCtx ..) hgroup⟩
  rw [(aside_postCtx ..).steps, ← hsave]
  exact hstep

theorem trap_stage2 {s : State} {g r : Nat} {x : Group} {c : Ctx} {k : Rank} {impr : Bool} {tpc tval : Long}
    (hx : group? s g = some x) (hc : ctx? s x.ctx = some c) (hk : rank? s g r = some k) :
    let t := takeTrap g r impr 0x14 tpc tval none s
    (ctx? t x.ctx).map (·.mode) = some .frozen ∧
      (∃ w, t = postHostCtx c.part { source := 0, status := 0x0003, cmdaddr := tpc, counta := 0x14, countb := tval.toNat, ctx := x.ctx,
                                     part := c.part, launch := x.launchid } w) ∧
      (group? t g).map (·.frozen) = some true := by
  obtain ⟨w, hw, ht⟩ := takeTrap_stage2 (impr := impr) (tpc := tpc) (tval := tval) hx hc hk
  obtain ⟨c', hc', -⟩ := hw.ctx _ c hc
  obtain ⟨x', hx', hctx, -⟩ := hw.group g x hx
  intro t
  rw [show t = _ from ht]
  exact ⟨(mode_of_counts (counts_aside (aside_postHostCtx ..)) _).trans (freezeCtx_mode hc'), ⟨_, rfl⟩,
    frozen_aside (aside_postHostCtx ..) (freezeCtx_group hx' hctx)⟩

/-- Settles O28: the traps that freeze, and the record they post. -/
theorem trapFreezes : Obligations.TrapFreezes := by
  intro s g r x c k impr cause tpc tval hx hc hk t
  refine ⟨fun h14 hhalt => ?_, fun h14 => ?_, fun h => ?_, ?_⟩
  · obtain ⟨hmode, hstep, hpost, -⟩ := trap_halts (impr := impr) (tpc := tpc) (tval := tval) hx hc hk h14 hhalt
    exact ⟨hmode, hstep, hpost⟩
  · subst h14
    obtain ⟨hmode, hpost, -⟩ := trap_stage2 (impr := impr) (tpc := tpc) (tval := tval) hx hc hk
    exact ⟨hmode, hpost⟩
  · by_cases h14 : cause = 0x14
    · subst h14
      exact (trap_stage2 hx hc hk).2.2
    · exact (trap_halts hx hc hk h14 (h.resolve_left h14)).2.2.2
  · intro wher rec h a hlen hhead log2n tail hslot hh ha hrh hra hrow hlh hla h4 h20 hroom
    exact postTo_stands hlen hhead hslot hh ha hrh hra hrow hlh hla h4 h20 hroom

end Sys2Proof.Laws

end

section
/-! SUPPORT. YIELD and HALT (R181, R359, R371): the end of the pass, the group frozen and saved, the context halted. -/

open Sys2Proof Sys2Proof.Machine

namespace Sys2Proof.Laws

/-! ### The rank past the word -/

/-- Charging a word and stepping past it leaves its rank in its ply, the path's threads past the word. -/
theorem rank_advanced {s : State} {c : Ctl} {u : Iss} (hi : issuing s c = some u) (w : IWord) :
    SameOutside u.g u.r s (advancePcs u (charged u w s)) ∧
    ∃ k, rank? (advancePcs u (charged u w s)) u.g u.r = some k ∧ k.noPly = u.k.noPly ∧ k.st = .issuing ∧
      ∀ t, u.active.getLsbD t = true → k.thread t = { u.k.thread t with pc := ptrAdd u.pc 12 } := by
  obtain ⟨-, -, hk, -, hst, hpath, hpc, hactive, -⟩ := issuing_spec hi
  obtain ⟨hlen, -, hall⟩ := pathOk_spec hpath
  obtain ⟨hsame, b, hb⟩ := charged_spec u w s u.k hk
  unfold advancePcs
  refine ⟨same_trans hsame (same_modRank ..), ?_⟩
  rw [rank_modRank_same, hb]
  refine ⟨_, rfl, rfl, hst, fun t ht => ?_⟩
  obtain ⟨hlt, hexited, -, hat⟩ := hall t (hactive ▸ ht)
  refine (thread_of_map { u.k with plyClean := b } _ u.k.threads.length _ rfl t (by rw [hlen]; exact hlt)).trans ?_
  have hthread : ({ u.k with plyClean := b } : Rank).thread t = u.k.thread t := rfl
  simp [hthread, ht, hexited, hat, hpc]

/-! ### The ply ends -/

theorem closePass_ends (c : Ctl) (u : Iss) (s : State) : closePass c true u s = closePass { c with pend := true } false u s := by
  unfold closePass
  simp only [plyOver, Bool.true_or, Bool.or_true]

/-- A rank whose ply has ended at time n. -/
def plyEnded (st : RankState) (n : Nat) (k : Rank) : Rank :=
  { k with st := st, active := 0, plyLen := 0, plyLr := false, readyAt := n, starve := 0, plyClean := false, waitFor := .none }

theorem rank_endPly {g r : Nat} {st : RankState} {s : State} {k : Rank} (hk : rank? s g r = some k) :
    rank? (endPly g r st s) g r = some (plyEnded st s.clk k) := by
  unfold endPly
  dsimp only
  exact rank_modRank_some hk

/-- The end of a ply whose path still stands leaves its rank ready. -/
theorem closePass_ready (c : Ctl) {u : Iss} {s : State} {k : Rank} (hk : rank? s u.g u.r = some k) (hst : k.st = .issuing) {t : Nat} (ht : t < 32)
    (he : (k.thread t).exited = false) (hp : (k.thread t).parked = false) :
    ∃ k', rank? (closePass c true u s) u.g u.r = some k' ∧ k'.st = .ready ∧ k'.active = 0 := by
  have hover : plyOver c true u k = true := by simp only [plyOver, Bool.true_or]
  have hafter : afterPly k = .ready := by
    have hstanding : k.standing ≠ 0 := by
      intro h
      have hbit := congrArg (fun m : Mask => BitVec.getLsbD m t) h
      rw [Rank.standing, maskOf_get, he, hp] at hbit
      simp [ht] at hbit
    simp only [afterPly, allExited_false ht he, hstanding, Bool.false_eq_true, if_false]
  unfold closePass
  rw [hk]
  simp only [hover, if_true]
  rw [if_neg (by rw [hst]; exact not_not.mpr rfl)]
  obtain ⟨v, hv⟩ := (passCycles_spec u.g u.r 16 s).2 k hk
  have hend := rank_endPly (st := afterPly k) hv
  rw [hafter] at hend ⊢
  rw [settleRank_running u.g u.r _ _ hend t ht he hp]
  exact ⟨_, hend, rfl, rfl⟩

theorem yield_ends (c : Ctl) {s : State} {u : Iss} (hi : issuing s c = some u) (hh : hurdle s u (.yield c) = none) (hex : u.ex ≠ 0)
    (hp : u.c.yieldPending = false) :
    ∃ t k', exec (.yield c) s = .next t ∧ AfterWord u s t ∧ rank? t u.g u.r = some k' ∧ k'.st = .ready ∧ k'.active = 0 := by
  obtain ⟨-, -, hk, -, -, hpath, -, hactive, -⟩ := issuing_spec hi
  obtain ⟨-, hne, hall⟩ := pathOk_spec hpath
  obtain ⟨t, ht⟩ := List.exists_mem_of_ne_nil _ (threadsOf_ne_nil hne)
  rw [mem_threadsOf] at ht
  obtain ⟨hlt, hexited, hparked, -⟩ := hall t ht.2
  obtain ⟨-, k, hk1, -, hst, hat⟩ := rank_advanced hi (encode (.yield c))
  have hrow := hat t (hactive ▸ ht.2)
  obtain ⟨k', hk', hready, hnone⟩ := closePass_ready c hk1 hst hlt (by rw [hrow]; exact hexited) (by rw [hrow]; exact hparked)
  refine ⟨keep s (closePass c true u (advancePcs u (charged u (encode (.yield c)) s))), k', ?_, ?_, ?_, hready, hnone⟩
  · rw [exec_yield, execYield, sysWord_acts hi hh hex, hp]
    rfl
  · rw [closePass_ends]
    exact after_keep rfl rfl (finish_after (c := { c with pend := true }) (w := encode (.yield c)) hi hk rfl)
  · rw [rank_keep]
    exact hk'

/-! ### The pass stops -/

theorem stopPass_spec {s : State} {cc : Ctl} {u : Iss} (hi : issuing s cc = some u) (c : Ctl) (w : IWord) :
    SameOutside u.g u.r s (stopPass c w u s) ∧
    ∃ k, rank? (stopPass c w u s) u.g u.r = some k ∧ k.noPly = u.k.noPly ∧
      ∀ t, u.active.getLsbD t = true → k.thread t = { u.k.thread t with pc := ptrAdd u.pc 12 } := by
  obtain ⟨hsame, k, hk, hply, -, hat⟩ := rank_advanced hi w
  obtain ⟨hpass, hstarve⟩ := passCycles_spec u.g u.r 16 (advancePcs u (charged u w s))
  obtain ⟨v, hv⟩ := hstarve k hk
  obtain ⟨hend, k', hk', hply', hthreads⟩ := endPly_spec u.g u.r .ready _ _ hv
  exact ⟨same_trans hsame (same_trans hpass hend), k', hk', hply'.trans hply, fun t ht => (thread_congr hthreads t).trans (hat t ht)⟩

theorem regs_of_noPly {k k' : Rank} (h : k'.noPly = k.noPly) : k'.regs = k.regs := show k'.noPly.regs = k.noPly.regs by rw [h]

theorem live_of_noPly {k k' : Rank} (h : k'.noPly = k.noPly) : k'.live = k.live := show k'.noPly.live = k.noPly.live by rw [h]

/-- A rank of a group that is frozen. -/
theorem rank_freezeGroup {g r : Nat} {s : State} {k : Rank} (hk : rank? s g r = some k) :
    ∃ k', rank? (freezeGroup g s) g r = some k' ∧ Counted (freezeRank k) k' := by
  have hmark : rank? (modGroup g (fun x => { x with frozen := true, ranks := x.ranks.map freezeRank }) s) g r = some (freezeRank k) := by
    rw [rank_modGroup_same]
    rw [rank?] at hk
    cases hx : group? s g with
    | none => rw [hx] at hk; cases hk
    | some x =>
      rw [hx] at hk
      replace hk : x.ranks[r]? = some k := hk
      simp [List.getElem?_map, hk]
  obtain ⟨k', hk', hcounted⟩ := (counts_dropTraffic g _).ranks g r _ hmark
  refine ⟨k', ?_, hcounted⟩
  have hseq : ∀ t : State, rank? (freezeCmds g (freezeSeq g t)) g r = rank? t g r := by
    intro t
    show rank? (modGroup g _ _) g r = _
    rw [rank_modGroup_same]
    cases hx : group? t g with
    | none => simp [group?, rank?] at hx ⊢
    | some x => simp [group?, rank?] at hx ⊢
  rw [freezeGroup, hseq]
  exact hk'

theorem freezeRank_thread {k : Rank} (h : ∀ e ∈ k.live, e.stop = none) (t : Nat) : (freezeRank k).thread t = k.thread t := by
  rw [freezeRank, unstop_id k h]
  rfl

theorem freezeRank_regs (k : Rank) : (freezeRank k).regs = k.regs := rfl

theorem yield_freezes (c : Ctl) {s : State} {u : Iss} (hi : issuing s c = some u) (hh : hurdle s u (.yield c) = none) (hex : u.ex ≠ 0)
    (hp : u.c.yieldPending = true) : exec (.yield c) s =
      .next (keep s (wake (settleYield u.x.ctx (saveGroup u.g (freezeGroup u.g (stopPass c (encode (.yield c)) u s)))))) := by
  rw [exec_yield, execYield, sysWord_acts hi hh hex, hp]
  rfl

theorem halt_halts (c : Ctl) {s : State} {u : Iss} (hi : issuing s c = some u) (hh : hurdle s u (.halt c) = none) (hex : u.ex ≠ 0) :
    ∃ t y, exec (.halt c) s = .next t ∧ (ctx? t u.x.ctx).map (·.mode) = some .frozen ∧ group? t u.g = some y ∧ y.frozen = true ∧
      (∃ st ∈ t.steps, st.target = u.x.ctx ∧ st.kind = 4 ∧ st.area = u.c.savebase) ∧
      ∀ k', rank? t u.g u.r = some k' → k'.regs = u.k.regs := by
  obtain ⟨-, hx, -, hc, -⟩ := issuing_spec hi
  obtain ⟨hstop, k, hk, hply, -⟩ := stopPass_spec hi c (encode (.halt c))
  generalize hrec : ({ source := 0, status := 0x000D, cmdaddr := u.pc, launch := u.x.launchid } : Record) = rec
  have haside := aside_postCtx u.x.ctx rec (stopPass c (encode (.halt c)) u s)
  have hstands := stands_trans (stands_outside hstop) (stands_aside haside)
  obtain ⟨c', hc', hsave⟩ := hstands.ctx _ _ hc
  obtain ⟨x', hx', hctx, -⟩ := hstands.group _ _ hx
  obtain ⟨hmode, hstep, y, hy, hfrozen⟩ := haltCtx_spec hc' hx' hctx
  have hexec : exec (.halt c) s = .next (keep s (haltCtx u.x.ctx (postCtx u.x.ctx rec (stopPass c (encode (.halt c)) u s)))) := by
    rw [exec_halt, execHalt, sysWord_acts hi hh hex, hrec]
  have hcore := (steady_trans (steady_aside haside) (steady_haltCtx u.x.ctx _)).ranks u.g u.r
  obtain ⟨st, hmem, htarget, hkind, harea⟩ := hstep
  generalize haltCtx u.x.ctx (postCtx u.x.ctx rec (stopPass c (encode (.halt c)) u s)) = t at *
  refine ⟨keep s t, y, hexec, hmode, hy, hfrozen, ⟨st, hmem, htarget, hkind, harea.trans hsave⟩, fun k' hk' => ?_⟩
  · rw [rank_keep] at hk'
    rw [hk, hk'] at hcore
    exact (regs_of_core (Option.some.inj hcore)).trans (regs_of_noPly hply)

/-- Settles O43: YIELD without and with a request pending, and HALT. -/
theorem yieldAndHalt : Obligations.YieldAndHalt := by
  refine ⟨fun c s u hi hh hex => ⟨fun hp => yield_ends c hi hh hex hp, fun hp => ?_⟩, fun c s u hi hh hex => halt_halts c hi hh hex⟩
  obtain ⟨-, hx, -⟩ := issuing_spec hi
  obtain ⟨hstop, k, hk, hply, hat⟩ := stopPass_spec hi c (encode (.yield c))
  obtain ⟨x', hx', -⟩ := (stands_outside hstop).group _ _ hx
  obtain ⟨y, hy, -, hfrozen⟩ := freezeGroup_frozen hx'
  refine ⟨_, yield_freezes c hi hh hex hp, rfl, by rw [hy, Option.map_some, hfrozen], fun k' hk' hlive => ?_⟩
  obtain ⟨k1, hk1, hcounted⟩ := rank_freezeGroup hk
  obtain rfl : k1 = k' := Option.some.inj (hk1.symm.trans hk')
  have hstops : ∀ e ∈ k.live, e.stop = none := fun e he => hlive e (live_of_noPly hply ▸ he)
  rw [hcounted]
  refine ⟨(freezeRank_regs k).trans (regs_of_noPly hply), fun th hth => ?_⟩
  have hthread : (freezeRank k).thread th = k.thread th := freezeRank_thread hstops th
  exact (congrArg Thread.pc hthread).trans (congrArg Thread.pc (hat th hth))

end Sys2Proof.Laws

end

section
/-! SUPPORT. RTT (R180, R345): its checks, and the rank it restores from the frame copy. -/

open Sys2Proof Sys2Proof.Machine

namespace Sys2Proof.Laws

/-! ### The word -/

theorem rtt_runs (c : Ctl) {s : State} {u : Iss} (hi : issuing s c = some u) (hh : hurdle s u (.rtt c) = none) (hex : u.ex ≠ 0) :
    (u.k.frameActive = false → exec (.rtt c) s = .next (keep s (trapAt u (encode (.rtt c)) 0x01 0 s))) ∧
    (u.k.frameActive = true → storesOpen s u.g u.r = true → exec (.rtt c) s = .next (keep s (stallPly u.g u.r s))) ∧
    (u.k.frameActive = true → storesOpen s u.g u.r = false → frameLacks s u.x u.c u.k ≠ [] →
      exec (.rtt c) s = .next (keep s (stallPly u.g u.r (askAll (frameLacks s u.x u.c u.k) s)))) ∧
    (u.k.frameActive = true → storesOpen s u.g u.r = false → frameLacks s u.x u.c u.k = [] →
      (∀ p, badReturn s u.x u.c u.k = some p → exec (.rtt c) s = .next (keep s (trapAt u (encode (.rtt c)) 0x05 p s))) ∧
      (badReturn s u.x u.c u.k = none → exec (.rtt c) s = .next (keep s (wake (afterReturn u.g u.r
        (returnTrap u.g u.r (endPly u.g u.r .ready (passCycles u.g u.r 16 (charged u (encode (.rtt c)) s))))))))) := by
  rw [exec_rtt, execRtt, asRank_next hi hh]
  dsimp only
  rw [if_neg hex]
  refine ⟨fun hf => ?_, fun hf ho => ?_, fun hf ho hl => ?_, fun hf ho hl => ⟨fun p hp => ?_, fun hp => ?_⟩⟩
  · simp only [hf, Bool.not_false, if_true]
  · simp only [hf, ho, Bool.not_true, Bool.false_eq_true, if_false, if_true]
  · have hsome : (frameLacks s u.x u.c u.k).isEmpty = false := by simpa using hl
    simp only [hf, ho, hsome, Bool.not_true, Bool.not_false, Bool.false_eq_true, if_false, if_true]
  · simp only [hf, ho, hl, hp, List.isEmpty_nil, Bool.not_true, Bool.false_eq_true, if_false]
  · simp only [hf, ho, hl, hp, List.isEmpty_nil, Bool.not_true, Bool.false_eq_true, if_false]

/-! ### A rank without entries to replay -/

/-- How many entries wait for a tile (R162). -/
def tileWaits (s : State) : Nat := (s.groups.map fun e => (e.2.ranks.map fun k => (k.live.filter tileWait).length).sum).sum

theorem performTiles_none {s : State} (h : tileWaits s = 0) : performTiles s = s := by
  unfold performTiles
  rw [show (List.map _ s.groups).sum = 0 from h]
  rfl

theorem tileWaits_modRank (g r : Nat) {f : Rank → Rank} (h : ∀ k, (f k).live = k.live) (s : State) : tileWaits (modRank g r f s) = tileWaits s := by
  have hrow : ∀ x : Group, ((modAt x.ranks r f).map fun k => (k.live.filter tileWait).length) = x.ranks.map fun k => (k.live.filter tileWait).length := by
    intro x
    refine List.ext_getElem? fun n => ?_
    rw [List.getElem?_map, List.getElem?_map, modAt_get]
    split
    · cases x.ranks[n]? with
      | none => rfl
      | some k => simp [h]
    · rfl
  have hview := smod_map g (fun x : Group => { x with ranks := modAt x.ranks r f })
    (fun x => (x.ranks.map fun k => (k.live.filter tileWait).length).sum) (fun x => congrArg List.sum (hrow x)) s.groups
  have hcounts := congrArg (List.map Prod.snd) hview
  rw [List.map_map, List.map_map] at hcounts
  exact congrArg List.sum hcounts

theorem tileWaits_zero {s : State} (h : (s.groups.all fun e => e.2.ranks.all fun q => !q.live.any tileWait) = true) : tileWaits s = 0 := by
  rw [tileWaits, List.sum_eq_zero_iff]
  intro n hn
  obtain ⟨e, he, rfl⟩ := List.mem_map.mp hn
  rw [List.sum_eq_zero_iff]
  intro m hm
  obtain ⟨k, hk, rfl⟩ := List.mem_map.mp hm
  have hnone := List.all_eq_true.mp (List.all_eq_true.mp h e he) k hk
  simp only [Bool.not_eq_true', List.any_eq_false] at hnone
  rw [List.length_eq_zero_iff, List.filter_eq_nil_iff]
  exact hnone

theorem returnTrap_restores {s : State} {g r : Nat} {x : Group} {k : Rank} {c : Ctx} (hx : group? s g = some x) (hk : rank? s g r = some k)
    (hc : ctx? s x.ctx = some c) (hframe : editedFrame s x c k = []) (hyield : k.yielding = false)
    (hwaits : (s.groups.all fun e => e.2.ranks.all fun q => !q.live.any tileWait) = true) :
    rank? (returnTrap g r s) g r = some ((releaseParked (restoreRank (editedCopy s x c k) [] k)).remark s.fresh) := by
  have hnone : ∀ f : FrameCopy, tileWaits (modRank g r (Rank.remark s.fresh) (modRank g r (fun k => releaseParked (restoreRank f [] k)) s)) = 0 := by
    intro f
    rw [tileWaits_modRank g r (f := Rank.remark s.fresh) fun _ => rfl]
    rw [tileWaits_modRank g r (f := fun k => releaseParked (restoreRank f [] k)) fun _ => rfl]
    exact tileWaits_zero hwaits
  unfold returnTrap
  rw [hx, hk]
  simp only [hc, hframe, hyield, Bool.false_eq_true, if_false, List.foldl_nil, List.filter_nil, injectAll]
  generalize editedCopy s x c k = f
  rw [show (modRank g r (fun k => releaseParked (restoreRank f [] k)) s).fresh = s.fresh from rfl]
  rw [performTiles_none (hnone _), rank_modRank_same, rank_modRank_same, hk]
  rfl

/-! ### What the restored rank holds -/

/-- Registers `first` to `first + n - 1` written one after the other. -/
theorem sgetD_restored {α : Type} [DecidableEq α] (d : α) (first : Nat) (v : Nat → α) (n : Nat) {m : Sparse α} (h : rising (m.map (·.1)) = true) :
    rising (((List.range n).foldl (fun m i => sput d (i + first) (v (i + first)) m) m).map (·.1)) = true ∧
    ∀ j, sgetD j d ((List.range n).foldl (fun m i => sput d (i + first) (v (i + first)) m) m) =
      if first ≤ j ∧ j < n + first then v j else sgetD j d m := by
  induction n with
  | zero => exact ⟨h, fun j => by rw [if_neg (by omega)]; rfl⟩
  | succ n ih =>
    obtain ⟨hr, hget⟩ := ih
    simp only [List.range_succ, List.foldl_append, List.foldl_cons, List.foldl_nil]
    refine ⟨rising_sput d _ _ _ hr, fun j => ?_⟩
    rw [sgetD_sput d _ _ _ _ hr, hget]
    by_cases hj : j = n + first
    · subst hj
      rw [if_pos rfl, if_pos (by omega)]
    · rw [if_neg hj]
      exact if_congr (by omega) rfl rfl

theorem restored_j (f : FrameCopy) (k : Rank) {i : Nat} (hi : i < 16) : (restoreRank f [] k).jreg i = f.j.getD i 0 := by
  have hget := (sgetD_restored 0 0 (fun i => f.j.getD i 0) 16 (m := []) rfl).2 i
  simp only [Nat.add_zero, Nat.zero_le, hi, and_self, if_true] at hget
  exact hget

theorem restored_p (f : FrameCopy) (k : Rank) {i : Nat} (h0 : 0 < i) (hi : i < 16) : (restoreRank f [] k).pred i = f.p.getD i 0 := by
  have hget := (sgetD_restored 0 1 (fun i => f.p.getD i 0) 15 (m := []) rfl).2 i
  rw [if_pos (by omega)] at hget
  rw [Rank.pred, if_neg (by omega)]
  exact hget

theorem restored_w (f : FrameCopy) {k : Rank} (hk : rising (k.w.map (·.1)) = true) (i : Nat) :
    (restoreRank f [] k).wreg i = if i < 8 then f.w.getD i 0 else k.wreg i := by
  have hkeep : rising ((k.w.filter fun e => decide (8 ≤ e.1)).map (·.1)) = true := by
    rw [rising_iff_pairwise] at *
    exact (hk.sublist (List.filter_sublist.map _))
  have hget := (sgetD_restored 0 0 (fun i => f.w.getD i 0) 8 hkeep).2 i
  simp only [Nat.add_zero, Nat.zero_le, true_and] at hget
  rw [Rank.wreg]
  refine hget.trans ?_
  by_cases hi : i < 8
  · rw [if_pos hi, if_pos hi]
  · rw [if_neg hi, if_neg hi, Rank.wreg, sgetD, sgetD, sget_filter_keys (fun n => decide (8 ≤ n)) i k.w hk, if_pos (by simpa using hi)]

theorem resumed_exited (k : Rank) (f : FrameCopy) {t : Nat} (ht : t < 32) :
    ((restoreRank f [] k).thread t).exited = (f.threads.getD t Thread.zero).exited := by
  rw [show (restoreRank f [] k).thread t = _ from thread_of_map k _ 32 _ rfl t ht]
  dsimp only
  split
  · rfl
  · split <;> split <;> rfl

theorem restored_rank (f : FrameCopy) (n : Nat) (k : Rank) (hk : (k.w.map (·.1)).Pairwise (· < ·)) :
    let k' := (releaseParked (restoreRank f [] k)).remark n
    k'.handler = false ∧ k'.frameActive = false ∧ k'.v = k.v ∧ k'.o = k.o ∧ k'.y = k.y ∧
    (∀ i, i < 16 → k'.jreg i = f.j.getD i 0) ∧ (∀ i, 0 < i → i < 16 → k'.pred i = f.p.getD i 0) ∧
    (∀ i, k'.wreg i = if i < 8 then f.w.getD i 0 else k.wreg i) ∧
    ∀ t, t < k'.threads.length → (k'.thread t).exited = (f.threads.getD t Thread.zero).exited := by
  refine ⟨rfl, rfl, rfl, rfl, rfl, fun i hi => restored_j f k hi, fun i h0 hi => restored_p f k h0 hi,
    fun i => restored_w f ((rising_iff_pairwise _).mpr hk) i, fun t ht => ?_⟩
  have h32 : (restoreRank f [] k).threads.length = 32 := by simp [restoreRank, resumeThreads]
  have hlt : t < (restoreRank f [] k).threads.length := by rw [← releaseParked_length]; exact ht
  have hthread := releaseParked_thread (restoreRank f [] k) hlt
  refine (congrArg Thread.exited (show _ = _ from hthread)).trans ?_
  rw [← resumed_exited k f (h32 ▸ hlt)]
  split <;> rfl

/-- Settles O30: what RTT checks and waits for, and the rank that stands after it. -/
theorem returnFromTrap : Obligations.ReturnFromTrap :=
  ⟨fun c _ _ hi hh hex => rtt_runs c hi hh hex,
   fun _ _ _ _ _ _ hx hk hc hframe hyield hwaits => returnTrap_restores hx hk hc hframe hyield hwaits,
   fun f n k hk => restored_rank f n k hk⟩

end Sys2Proof.Laws

end

section
/-! SUPPORT. System registers (R178, R179): what SRD reads, what SWR writes, and the level that each needs. -/

open Sys2Proof Sys2Proof.Machine

namespace Sys2Proof.Laws

/-! ### SRD -/

theorem reaches_any (u : Iss) : u.reaches .any = true := rfl

theorem reaches_handler {u : Iss} : u.reaches .handler = true ↔ u.k.handler = true ∨ u.c.host = true := by
  simp [Iss.reaches, Iss.atHandler]

theorem reaches_handler_false {u : Iss} (hk : u.k.handler = false) (hc : u.c.host = false) : u.reaches .handler = false := by
  simp [Iss.reaches, Iss.atHandler, hk, hc]

/-- A register that every level reads. -/
theorem srd_gives {num : BitVec 12} {idx : BitVec 3} {wr : SysLevel} {indexed : Bool} {f : Iss → Nat}
    (hacc : sysAccess num.toNat = some (.any, wr, indexed)) (hidx : indexed = true ∨ idx = 0)
    (hread : ∀ s u, sysRead s u num.toNat idx.toNat = f u) (c : Ctl) (d : Opnd) : Gives (.srd c d num idx) c .b64 d fun _ u _ => f u := by
  intro s u hi hh _
  have hgives := srd_completes (c := c) (d := d) hacc hidx s u hi hh rfl
  simpa only [hread] using hgives

theorem srd_level_traps {num : BitVec 12} {rd wr : SysLevel} {indexed : Bool} (hacc : sysAccess num.toNat = some (rd, wr, indexed)) (c : Ctl) (d : Opnd)
    {s : State} {u : Iss} (hi : issuing s c = some u) (hh : hurdle s u (.srd c d num 0) = none) (hex : u.ex ≠ 0) (hlevel : u.reaches rd = false) :
    exec (.srd c d num 0) s = .next (keep s (trapAt u (encode (.srd c d num 0)) 0x03 0 s)) := by
  rw [exec_srd, execSrd, sysWord_acts hi hh hex]
  simp only [hacc, hlevel, bne_self_eq_false, Bool.and_false, Bool.false_eq_true, if_false, Bool.not_false, if_true]

theorem sysAccess_indexed {num : Nat} {rd wr : SysLevel} {indexed : Bool} (h : sysAccess num = some (rd, wr, indexed)) :
    indexed = true → num = 0x060 := by
  intro hi
  unfold sysAccess at h
  split at h <;> simp_all

/-- An unlisted register, or an index of a register without one. -/
theorem srd_unlisted_traps (c : Ctl) (d : Opnd) (num : BitVec 12) (idx : BitVec 3) {s : State} {u : Iss} (hi : issuing s c = some u)
    (hh : hurdle s u (.srd c d num idx) = none) (hex : u.ex ≠ 0) (hbad : sysAccess num.toNat = none ∨ (idx ≠ 0 ∧ num ≠ 0x060)) :
    exec (.srd c d num idx) s = .next (keep s (trapAt u (encode (.srd c d num idx)) 0x01 0 s)) := by
  rw [exec_srd, execSrd, sysWord_acts hi hh hex]
  cases hacc : sysAccess num.toNat with
  | none => rfl
  | some r =>
    obtain ⟨rd, wr, indexed⟩ := r
    obtain ⟨hidx, hnum⟩ := hbad.resolve_left (by rw [hacc]; exact Option.some_ne_none _)
    have hplain : indexed = false := by
      rw [Bool.eq_false_iff]
      exact fun h => hnum (BitVec.eq_of_toNat_eq (sysAccess_indexed hacc h))
    have hindex : (idx != 0) = true := bne_iff_ne.mpr hidx
    simp only [hplain, hindex, Bool.not_false, Bool.and_self, if_true]

theorem energyWord_eq (c : Ctx) : energyWord c = c.energy % 2 ^ 48 + if c.sat then 2 ^ 63 else 0 := rfl

/-- A register that handler level or the host context reads. -/
theorem srd_atHandler {num : BitVec 12} {wr : SysLevel} {f : Iss → Nat} (hacc : sysAccess num.toNat = some (.handler, wr, false))
    (hread : ∀ s u, sysRead s u num.toNat 0 = f u) (c : Ctl) (d : Opnd) :
    Completes (.srd c d num 0) c (fun _ u => u.k.handler = true ∨ u.c.host = true) (fun s u => setD u .b64 d (fun _ => f u) s) ∧
    ∀ s u, issuing s c = some u → hurdle s u (.srd c d num 0) = none → u.ex ≠ 0 → u.k.handler = false → u.c.host = false →
      exec (.srd c d num 0) s = .next (keep s (trapAt u (encode (.srd c d num 0)) 0x03 0 s)) := by
  refine ⟨fun s u hi hh hlevel => ?_, fun s u hi hh hex hk hc => srd_level_traps hacc c d hi hh hex (reaches_handler_false hk hc)⟩
  have hgives := srd_completes (c := c) (d := d) hacc (.inr rfl) s u hi hh (reaches_handler.mpr hlevel)
  simpa only [show (0 : BitVec 3).toNat = 0 from rfl, hread] using hgives

theorem eread_gives (c : Ctl) (d : Opnd) : Gives (.eread c d) c .b64 d fun _ u _ => u.c.energy % 2 ^ 48 + if u.c.sat then 2 ^ 63 else 0 := by
  intro s u hi hh _
  obtain ⟨-, -, hk, -⟩ := issuing_spec hi
  rw [exec_eread, execEread]
  simp only [energyWord_eq]
  by_cases hex : u.ex = 0
  · exact ⟨_, sysWord_nobody hi hh hex, after_setD_nobody hex (after_keep rfl rfl (finish_after hi hk rfl))⟩
  · exact ⟨_, sysWord_acts hi hh hex, after_keep rfl rfl (finish_after hi (setD_rank s u .b64 d _ u.k hk) (writeAll_frame ..).1)⟩

/-- Settles O40: each register's value and the level that reads it. -/
theorem systemReads : Obligations.SystemReads := by
  refine ⟨srd_gives (num := 0x000) rfl (.inr rfl) fun _ _ => rfl, srd_gives (num := 0x001) rfl (.inr rfl) fun _ _ => rfl,
    srd_gives (num := 0x002) rfl (.inr rfl) fun _ _ => rfl, srd_gives (num := 0x030) rfl (.inr rfl) fun _ u => energyWord_eq u.c, eread_gives,
    fun c d s u hi hh _ => srd_completes (num := 0x050) rfl (.inr rfl) s u hi hh rfl,
    fun c d idx => srd_gives (num := 0x060) rfl (.inl rfl) (fun _ _ => rfl) c d, ?_, ?_⟩
  · intro c d num f h
    simp only [List.mem_cons, List.not_mem_nil, or_false, Prod.mk.injEq] at h
    obtain ⟨rfl, rfl⟩ | ⟨rfl, rfl⟩ | ⟨rfl, rfl⟩ | ⟨rfl, rfl⟩ | ⟨rfl, rfl⟩ | ⟨rfl, rfl⟩ | ⟨rfl, rfl⟩ | ⟨rfl, rfl⟩ := h
    · exact srd_atHandler (num := 0x010) rfl (fun _ _ => rfl) c d
    · exact srd_atHandler (num := 0x011) rfl (fun _ _ => rfl) c d
    · exact srd_atHandler (num := 0x012) rfl (fun _ _ => rfl) c d
    · exact srd_atHandler (num := 0x013) rfl (fun _ _ => rfl) c d
    · exact srd_atHandler (num := 0x020) rfl (fun _ _ => rfl) c d
    · exact srd_atHandler (num := 0x031) rfl (fun _ _ => rfl) c d
    · exact srd_atHandler (num := 0x040) rfl (fun _ _ => rfl) c d
    · exact srd_atHandler (num := 0x041) rfl (fun _ _ => rfl) c d
  · exact fun c d num idx s u hi hh hex hbad => srd_unlisted_traps c d num idx hi hh hex hbad

/-! ### SWR -/

/-- Loading weights leaves the groups, the platform and the tables. -/
theorem loadWeights_aside (cid core : Nat) (s : State) :
    (loadWeights cid core s).groups = s.groups ∧ (loadWeights cid core s).plat = s.plat ∧ (loadWeights cid core s).tabs = s.tabs := by
  unfold loadWeights
  split
  · exact ⟨rfl, rfl, rfl⟩
  · dsimp only
    split
    · exact ⟨(aside_askLine ..).groups, (aside_askLine ..).plat, (aside_askLine ..).tabs⟩
    · split
      · exact ⟨rfl, rfl, rfl⟩
      · exact ⟨(aside_postHost ..).groups, (aside_postHost ..).plat, (aside_postHost ..).tabs⟩

theorem reloadWeights_aside (cid : Nat) (s : State) :
    (reloadWeights cid s).groups = s.groups ∧ (reloadWeights cid s).plat = s.plat ∧ (reloadWeights cid s).tabs = s.tabs := by
  unfold reloadWeights
  generalize ((s.groups.filter fun e => e.2.ctx == cid).map fun e => e.2.core).eraseDups = l
  induction l generalizing s with
  | nil => exact ⟨rfl, rfl, rfl⟩
  | cons core l ih =>
    obtain ⟨hgroups, hplat, htabs⟩ := ih (loadWeights cid core s)
    obtain ⟨hgroups', hplat', htabs'⟩ := loadWeights_aside cid core s
    exact ⟨hgroups.trans hgroups', hplat.trans hplat', htabs.trans htabs'⟩

/-- A write of a system register leaves the threads of its rank, the platform and the tables. -/
def WritesAside (u : Iss) (s t : State) : Prop :=
  (∃ k, rank? t u.g u.r = some k ∧ k.threads = u.k.threads) ∧ t.plat = s.plat ∧ t.tabs = s.tabs

theorem writesAside_modRank {s : State} {u : Iss} (hk : rank? s u.g u.r = some u.k) {f : Rank → Rank} (hf : ∀ k, (f k).threads = k.threads) :
    WritesAside u s (modRank u.g u.r f s) := ⟨⟨f u.k, rank_modRank_some hk, hf u.k⟩, rfl, rfl⟩

theorem writesAside_groups {s t : State} {u : Iss} (hk : rank? s u.g u.r = some u.k) (hg : t.groups = s.groups) (hp : t.plat = s.plat)
    (ht : t.tabs = s.tabs) : WritesAside u s t := ⟨⟨u.k, by rw [rank?, group?, hg]; exact hk, rfl⟩, hp, ht⟩

theorem writesAside_modGroup {s : State} {u : Iss} (hk : rank? s u.g u.r = some u.k) {f : Group → Group} (hf : ∀ x, (f x).ranks = x.ranks) :
    WritesAside u s (modGroup u.g f s) := by
  refine ⟨⟨u.k, ?_, rfl⟩, rfl, rfl⟩
  rw [rank_modGroup_same]
  simp only [hf]
  exact hk

theorem sysWrite_aside {s : State} {c : Ctl} {u : Iss} (hi : issuing s c = some u) (num idx : Nat) (v : Long) :
    WritesAside u s (sysWrite u num idx v s) := by
  obtain ⟨-, -, hk, -⟩ := issuing_spec hi
  unfold sysWrite
  split
  · exact writesAside_modRank hk fun _ => rfl
  · exact writesAside_modRank hk fun _ => rfl
  · exact writesAside_modRank hk fun _ => rfl
  · exact writesAside_groups hk rfl rfl rfl
  · obtain ⟨hgroups, hplat, htabs⟩ := reloadWeights_aside u.x.ctx (modCtx u.x.ctx (fun c => { c with enwt := v }) s)
    exact writesAside_groups hk hgroups hplat htabs
  · exact writesAside_groups hk rfl rfl rfl
  · exact writesAside_modGroup hk fun _ => rfl
  · exact writesAside_groups hk rfl rfl rfl

theorem swr_completes {num : BitVec 12} {idx : BitVec 3} {rd wr : SysLevel} {indexed : Bool} {f : Iss → Long → State → State}
    (hacc : sysAccess num.toNat = some (rd, wr, indexed)) (hidx : indexed = true ∨ idx = 0) (hwr : wr ≠ .never)
    (hwrite : ∀ u v s, sysWrite u num.toNat idx.toNat v s = f u v s) (c : Ctl) (a : Opnd) :
    Completes (.swr c a num idx) c (fun _ u => u.ex ≠ 0 ∧ u.reaches wr = true) fun s u =>
      f u (BitVec.ofNat 64 (readOpnd s.clk u .b64 0 a 0)) s := by
  intro s u hi hh ⟨hex, hlevel⟩
  have hlisted : ((!indexed && idx != 0) || wr == .never) = false := by
    have hw : (wr == .never) = false := beq_eq_false_iff_ne.mpr hwr
    rcases hidx with h | h <;> simp [h, hw]
  obtain ⟨⟨k, hk, hthreads⟩, hplat, htabs⟩ := sysWrite_aside hi num.toNat idx.toNat (BitVec.ofNat 64 (readOpnd s.clk u .b64 0 a 0))
  rw [hwrite] at hk hplat htabs
  refine ⟨_, (exec_swr ..).trans (sysWord_acts hi hh hex), ?_⟩
  simp only [hacc, hlisted, hlevel, hwrite, Bool.false_eq_true, if_false, Bool.not_true]
  exact after_keep hplat htabs (finish_after hi hk hthreads)

theorem swr_level_traps {num : BitVec 12} {rd wr : SysLevel} (hacc : sysAccess num.toNat = some (rd, wr, false)) (hwr : wr ≠ .never) (c : Ctl) (a : Opnd)
    {s : State} {u : Iss} (hi : issuing s c = some u) (hh : hurdle s u (.swr c a num 0) = none) (hex : u.ex ≠ 0) (hlevel : u.reaches wr = false) :
    exec (.swr c a num 0) s = .next (keep s (trapAt u (encode (.swr c a num 0)) 0x03 0 s)) := by
  have hw : (wr == .never) = false := beq_eq_false_iff_ne.mpr hwr
  rw [exec_swr, execSwr, sysWord_acts hi hh hex]
  simp only [hacc, hlevel, hw, bne_self_eq_false, Bool.and_false, Bool.or_false, Bool.false_eq_true, if_false, Bool.not_false, if_true]

theorem completes_of_ok {i : Instr} {c : Ctl} {ok ok' : State → Iss → Prop} {effect : State → Iss → State} (h : Completes i c ok effect)
    (hok : ∀ s u, ok' s u → ok s u) : Completes i c ok' effect := fun s u hi hh h' => h s u hi hh (hok s u h')

theorem swr_atHandler {num : BitVec 12} {rd : SysLevel} {f : Iss → Long → State → State} (hacc : sysAccess num.toNat = some (rd, .handler, false))
    (hwrite : ∀ u v s, sysWrite u num.toNat 0 v s = f u v s) (c : Ctl) (a : Opnd) :
    Completes (.swr c a num 0) c (fun _ u => u.ex ≠ 0 ∧ (u.k.handler = true ∨ u.c.host = true)) fun s u =>
      f u (BitVec.ofNat 64 (readOpnd s.clk u .b64 0 a 0)) s :=
  completes_of_ok (swr_completes hacc (.inr rfl) (by decide) hwrite c a) fun _ _ h => ⟨h.1, reaches_handler.mpr h.2⟩

theorem swr_atHost {num : BitVec 12} {rd : SysLevel} {f : Iss → Long → State → State} (hacc : sysAccess num.toNat = some (rd, .host, false))
    (hwrite : ∀ u v s, sysWrite u num.toNat 0 v s = f u v s) (c : Ctl) (a : Opnd) :
    Completes (.swr c a num 0) c (fun _ u => u.ex ≠ 0 ∧ u.c.host = true) fun s u => f u (BitVec.ofNat 64 (readOpnd s.clk u .b64 0 a 0)) s :=
  swr_completes hacc (.inr rfl) (by decide) hwrite c a

/-- Settles O42: each writable register at its level, and the traps of the others. -/
theorem systemWrites : Obligations.SystemWrites := by
  unfold Obligations.SystemWrites
  intro v up host
  refine ⟨?_, ?_, ?_, ?_, ?_, ?_, fun c a idx => ?_, ?_, ?_⟩
  · exact swr_atHandler (num := 0x010) (f := fun u v s => modRank u.g u.r (fun k => { k with tcause := v &&& 0xC000FFFF }) s) rfl fun _ _ _ => rfl
  · exact swr_atHandler (num := 0x011) (f := fun u v s => modRank u.g u.r (fun k =>
      { k with tcause := k.tcause &&& ~~~0x40000000, tpcWas := some (k.tpcWas.getD k.tpc), tpc := v }) s) rfl fun _ _ _ => rfl
  · exact swr_atHandler (num := 0x012) (f := fun u v s => modRank u.g u.r (fun k => { k with tval := v }) s) rfl fun _ _ _ => rfl
  · exact swr_atHost (num := 0x020) (f := fun u v s => modCtx u.x.ctx (fun y => { y with evqbase := v }) s) rfl fun _ _ _ => rfl
  · exact swr_atHost (num := 0x031) (f := fun u v s => reloadWeights u.x.ctx (modCtx u.x.ctx (fun y => { y with enwt := v }) s)) rfl fun _ _ _ => rfl
  · exact swr_atHost (num := 0x040) (f := fun u v s => modCtx u.x.ctx (fun y => { y with budget := v.setWidth 32 }) s) rfl fun _ _ _ => rfl
  · exact completes_of_ok (swr_completes (num := 0x060) (f := fun u v s =>
      modGroup u.g (fun x => { x with peers := sput 0 idx.toNat (v &&& 0xFFFFFFFC00000001) x.peers }) s) rfl (.inl rfl) (by decide) (fun _ _ _ => rfl) c a)
      fun _ _ h => ⟨h, rfl⟩
  · rintro c a num s u (⟨hnum, hk, hc⟩ | ⟨hnum, hc⟩) hi hh hex
    · simp only [List.mem_cons, List.not_mem_nil, or_false] at hnum
      obtain rfl | rfl | rfl := hnum
      · exact swr_level_traps (num := 0x010) rfl (by decide) c a hi hh hex (reaches_handler_false hk hc)
      · exact swr_level_traps (num := 0x011) rfl (by decide) c a hi hh hex (reaches_handler_false hk hc)
      · exact swr_level_traps (num := 0x012) rfl (by decide) c a hi hh hex (reaches_handler_false hk hc)
    · simp only [List.mem_cons, List.not_mem_nil, or_false] at hnum
      obtain rfl | rfl | rfl := hnum
      · exact swr_level_traps (num := 0x020) rfl (by decide) c a hi hh hex hc
      · exact swr_level_traps (num := 0x031) rfl (by decide) c a hi hh hex hc
      · exact swr_level_traps (num := 0x040) rfl (by decide) c a hi hh hex hc
  · intro c a num s u hnum hi hh hex
    simp only [List.mem_cons, List.not_mem_nil, or_false] at hnum
    obtain rfl | rfl | rfl | rfl | rfl | rfl | rfl := hnum
    · exact swr_readOnly_traps (num := 0x000) rfl hi hh hex
    · exact swr_readOnly_traps (num := 0x001) rfl hi hh hex
    · exact swr_readOnly_traps (num := 0x002) rfl hi hh hex
    · exact swr_readOnly_traps (num := 0x013) rfl hi hh hex
    · exact swr_readOnly_traps (num := 0x030) rfl hi hh hex
    · exact swr_readOnly_traps (num := 0x041) rfl hi hh hex
    · exact swr_readOnly_traps (num := 0x050) rfl hi hh hex

end Sys2Proof.Laws

end

section
/-! SUPPORT. TL (R143) and the CTX words (R181, R367): the timeline's word, the wait for it, and the step given to the context engine. -/

open Sys2Proof Sys2Proof.Machine

namespace Sys2Proof.Laws

/-! ### Timelines -/

theorem timeline_of_ctx {s : State} {cid : Nat} {c : Ctx} (hc : ctx? s cid = some c) (i : Nat) : timeline s cid i = c.tls.getD i Timeline.zero := by
  rw [timeline, hc]
  rfl

theorem timelineWord_toNat (v : Timeline) : v.word.toNat = v.value % 2 ^ 63 + if v.err then 2 ^ 63 else 0 := by
  rw [Timeline.word, BitVec.toNat_ofNat, Nat.mod_eq_of_lt]
  have hlt := Nat.mod_lt v.value (Nat.two_pow_pos 63)
  split <;> omega

theorem tlRead_gives (c : Ctl) (tl : Tl) (d : Opnd) (imm : Word) : Gives (.tlRead c tl d imm) c .b64 d fun _ u _ =>
    (u.c.tls.getD (tlIndex tl) Timeline.zero).word.toNat := by
  intro s u hi hh _
  obtain ⟨-, -, hk, hc, -⟩ := issuing_spec hi
  rw [exec_tlRead, execTlRead, asRank_next hi hh, timeline_of_ctx hc]
  exact ⟨_, rfl, after_keep rfl rfl (finish_after hi (setD_rank s u .b64 d _ u.k hk) (writeAll_frame ..).1)⟩

theorem acquire_threads (k : Rank) (sc : Scope) (m : Mask) (n : Nat) : (k.acquire sc m n).threads = k.threads := by
  unfold Rank.acquire
  dsimp only
  split <;> rfl

theorem tlWait_reached (c : Ctl) (sc : Scope) (tl : Tl) (d a : Opnd) (imm : Word) : Completes (.tlWait c sc tl d a imm) c
    (fun s u => u.ex ≠ 0 ∧ readOpnd s.clk u .b64 imm a 0 % 2 ^ 63 ≤ (timeline s u.x.ctx (tlIndex tl)).value)
    fun s u => modRank u.g u.r (fun k => k.acquire sc (BitVec.allOnes 32) s.fresh)
      (setD u .b32 d (fun _ => if (timeline s u.x.ctx (tlIndex tl)).err then 1 else 0) s) := by
  intro s u hi hh ⟨hex, hreached⟩
  obtain ⟨-, -, hk, -⟩ := issuing_spec hi
  rw [exec_tlWait, execTlWait, asRank_next hi hh]
  dsimp only
  rw [if_neg hex, if_pos hreached]
  refine ⟨_, rfl, after_keep rfl rfl (finish_after hi (rank_modRank_some (setD_rank s u .b32 d _ u.k hk)) ?_)⟩
  exact (acquire_threads ..).trans (writeAll_frame ..).1

/-- The rank parks with a live entry for the word. -/
theorem rank_parkWith {s : State} {cc : Ctl} {u : Iss} (hi : issuing s cc = some u) (c : Ctl) (w : IWord) (e : Nat → Entry) (st : RankState) :
    ∃ (k : Rank) (n : Nat), rank? (parkWith c u w e st s) u.g u.r = some { k with live := k.live ++ [e n] } ∧ k.st = st ∧ k.noPly = u.k.noPly := by
  obtain ⟨-, k, hk, hply, -⟩ := rank_advanced hi w
  obtain ⟨v, hv⟩ := (passCycles_spec u.g u.r 16 (advancePcs u (charged u w s))).2 k hk
  unfold parkWith
  dsimp only
  generalize passCycles u.g u.r 16 (advancePcs u (charged u w s)) = s1 at hv ⊢
  have hv' : rank? ({ s1 with fresh := s1.fresh + 1 } : State) u.g u.r = some { k with starve := v } := hv
  exact ⟨_, _, rank_modRank_some (rank_endPly (st := st) hv'), rfl, hply⟩

theorem tlWait_parks (c : Ctl) (sc : Scope) (tl : Tl) (d a : Opnd) (imm : Word) {s : State} {u : Iss} (hi : issuing s c = some u)
    (hh : hurdle s u (.tlWait c sc tl d a imm) = none) (hex : u.ex ≠ 0)
    (hshort : (timeline s u.x.ctx (tlIndex tl)).value < readOpnd s.clk u .b64 imm a 0 % 2 ^ 63) :
    ∃ t k', exec (.tlWait c sc tl d a imm) s = .next t ∧ rank? t u.g u.r = some k' ∧ k'.st = .waitTimeline ∧ k'.regs = u.k.regs := by
  generalize hn : readOpnd s.clk u .b64 imm a 0 = n at hshort
  obtain ⟨k, id, hk, hst, hply⟩ := rank_parkWith hi c (encode (.tlWait c sc tl d a imm))
    (waitEntry u (encode (.tlWait c sc tl d a imm)) (BitVec.ofNat 64 n)) .waitTimeline
  have hregs : k.regs = u.k.regs := regs_of_noPly hply
  refine ⟨keep s _, _, ?_, (rank_keep ..).trans hk, hst, hregs⟩
  rw [exec_tlWait, execTlWait, asRank_next hi hh]
  dsimp only
  rw [hn, if_neg hex, if_neg (Nat.not_le.mpr hshort), parkRank]

/-- Settles O36: what TL.read gives, and how TL.wait goes on or parks. -/
theorem timelineWords : Obligations.TimelineWords :=
  ⟨tlRead_gives, timelineWord_toNat, tlWait_reached, fun c sc tl d a imm _ _ hi hh hex hshort => tlWait_parks c sc tl d a imm hi hh hex hshort⟩

/-! ### Steps of the context engine -/

/-- What a given step leaves: the ranks, and the new step in the engine's list and in the target's descriptor. -/
theorem acceptStep_spec (target kind : Nat) (area : Long) (issuer : Option (Nat × Nat × Nat × Nat × Long)) (s : State) :
    let t := acceptStep target kind area issuer s
    t.groups = s.groups ∧ t.plat = s.plat ∧ t.tabs = s.tabs ∧
    t.steps = s.steps ++ [{ id := s.fresh, target := target, kind := kind, area := area, issuer := issuer, prog := 0, bearReq := none }] ∧
    ∀ y, ctx? s target = some y → (ctx? t target).map (·.step) = some (BitVec.ofNat 24 (kind + 1)) := by
  intro t
  generalize hnew : ({ id := s.fresh, target := target, kind := kind, area := area, issuer := issuer, prog := 0, bearReq := none } : CtxStep) = st
  generalize hmark : (modCtx target (fun c => { c with step := BitVec.ofNat 24 (kind + 1) })
    { s with steps := s.steps ++ [st], fresh := s.fresh + 1 } : State) = s1
  have haside : Aside s1 t := by
    have hnote := aside_noteState target s1
    rw [← hmark, ← hnew] at hnote ⊢
    exact hnote
  refine ⟨haside.groups.trans (by rw [← hmark]; rfl), haside.plat.trans (by rw [← hmark]; rfl), haside.tabs.trans (by rw [← hmark]; rfl),
    haside.steps.trans (by rw [← hmark]; rfl), fun y hy => ?_⟩
  have hview := congrArg (Option.map (fun c : Ctx => c.step)) (ctx_of_view haside.ctxs target)
  rw [Option.map_map, Option.map_map] at hview
  refine hview.trans ?_
  rw [ctx?] at hy
  rw [← hmark, modCtx, ctx?, sget_smod, if_pos rfl]
  dsimp only
  rw [hy]
  rfl

/-- A word past which the path goes on has the steps of the state before it, and the contexts but for their energy. -/
theorem afterWord_outside {u : Iss} {s t : State} (h : AfterWord u s t) :
    t.steps = s.steps ∧ ∀ cid, (ctx? t cid).map (·.step) = (ctx? s cid).map (·.step) := by
  have hsteps := congrArg State.steps h.rest.rest
  refine ⟨hsteps, fun cid => ?_⟩
  have hview := congrArg (Option.map (fun c : Ctx => c.step)) (ctx_of_view h.rest.ctxs cid)
  rw [Option.map_map, Option.map_map] at hview
  exact hview

/-- The entry that an issuer's record holds until its step is done. -/
def stepEntry (u : Iss) (w : IWord) (v area : Long) (id : Nat) : Entry :=
  { pageEntry u w (sput Slot.zero 0 { a := v, b := area.setWidth 128, c := 0 } []) id with state := .ctxStep, cls := .p, unif := true }

def addLive (e : Entry) (k : Rank) : Rank := { k with live := k.live ++ [e] }

theorem ctxWord_gives {i : Instr} {c : Ctl} {kind : Nat} {a : Opnd} {b : Option Opnd} (he : ∀ s, exec i s = ctxWord i c kind a b s) {s : State} {u : Iss}
    (hi : issuing s c = some u) (hh : hurdle s u i = none) (hex : u.ex ≠ 0) {area : Long} (harea : (b.map fun o => wreg o u s).getD 0 = area)
    (hv : readOpnd s.clk u .b64 0 a 0 < 4096) (ha : area.toNat % 4096 = 0)
    (hpart : u.c.host = true ∨ ctxIn s (readOpnd s.clk u .b64 0 a 0) u.c.part = true) :
    ∃ t k' e, exec i s = .next t ∧ t.steps = s.steps ++ [{ id := s.fresh, target := readOpnd s.clk u .b64 0 a 0, kind := kind, area := area, issuer := some (u.x.ctx, u.g, u.r, s.fresh, u.pc), prog := 0, bearReq := none }] ∧
      rank? t u.g u.r = some k' ∧ k'.live = u.k.live ++ [e] ∧ e.state = .ctxStep ∧ e.word = encode i ∧ e.pc = u.pc ∧ k'.regs = u.k.regs ∧
      (∀ y, ctx? s (readOpnd s.clk u .b64 0 a 0) = some y →
        (ctx? t (readOpnd s.clk u .b64 0 a 0)).map (·.step) = some (BitVec.ofNat 24 (kind + 1))) := by
  obtain ⟨-, -, hk, -⟩ := issuing_spec hi
  generalize hn : readOpnd s.clk u .b64 0 a 0 = n at *
  have hval : (wreg a u s).toNat = n := by
    rw [wreg, hn, BitVec.toNat_ofNat, Nat.mod_eq_of_lt (by omega)]
  have hexec : exec i s = .next (keep s (finish c (encode i) u (modRank u.g u.r (addLive (stepEntry u (encode i) (wreg a u s) area s.fresh))
      (acceptStep n kind area (some (u.x.ctx, u.g, u.r, s.fresh, u.pc)) s)))) := by
    have hmod : n % 4096 = n := Nat.mod_eq_of_lt hv
    have hreach : (!u.c.host && !ctxIn s n u.c.part) = false := by rcases hpart with h | h <;> simp [h]
    subst harea
    rw [he, ctxWord, sysWord_acts hi hh hex]
    cases b <;> simp only [Option.map_none, Option.map_some, Option.getD_none, Option.getD_some] at ha ⊢ <;>
      simp only [hval, hmod, if_neg (Nat.not_le.mpr hv), ha, ne_eq, not_true_eq_false, if_false, hreach, Bool.false_eq_true] <;> rfl
  obtain ⟨hgroups, hplat, htabs, hsteps, hstep⟩ := acceptStep_spec n kind area (some (u.x.ctx, u.g, u.r, s.fresh, u.pc)) s
  generalize acceptStep n kind area (some (u.x.ctx, u.g, u.r, s.fresh, u.pc)) s = s1 at *
  have hk1 : rank? s1 u.g u.r = some u.k := by rw [rank?, group?, hgroups]; exact hk
  obtain ⟨hstate, hword, hpc⟩ : (stepEntry u (encode i) (wreg a u s) area s.fresh).state = .ctxStep ∧ (stepEntry u (encode i) (wreg a u s) area s.fresh).word = encode i ∧
      (stepEntry u (encode i) (wreg a u s) area s.fresh).pc = u.pc := ⟨rfl, rfl, rfl⟩
  generalize stepEntry u (encode i) (wreg a u s) area s.fresh = e at *
  have hplat' : (modRank u.g u.r (addLive e) s1).plat = s.plat := hplat
  have htabs' : (modRank u.g u.r (addLive e) s1).tabs = s.tabs := htabs
  have hafter := after_keep hplat' htabs' (finish_after (c := c) (w := encode i) hi (rank_modRank_some hk1) rfl)
  obtain ⟨houtside, hctx⟩ := afterWord_outside hafter
  obtain ⟨k1, k', hk1', hk', hply, -⟩ := hafter.rank
  rw [rank_modRank_some hk1] at hk1'
  cases hk1'
  have hregs : k'.regs = (addLive e u.k).regs := regs_of_noPly hply
  refine ⟨_, k', _, hexec, houtside.trans hsteps, hk', live_of_noPly hply, hstate, hword, hpc, hregs, fun y hy => (hctx n).trans (hstep y hy)⟩

/-- Settles O45: the step that each CTX word gives. -/
theorem contextWords : Obligations.ContextWords := by
  unfold Obligations.ContextWords
  intro goes reg
  refine ⟨?_, ?_, ?_, ?_⟩
  · intro c a s u hi hh hex v hv ha hpart
    exact ctxWord_gives (b := none) (exec_ctxFrz c a) hi hh hex rfl hv ha hpart
  · intro c a b s u hi hh hex v hv ha hpart
    exact ctxWord_gives (b := some b) (exec_ctxSav c a b) hi hh hex rfl hv ha hpart
  · intro c a b s u hi hh hex v hv ha hpart
    exact ctxWord_gives (b := some b) (exec_ctxLd c a b) hi hh hex rfl hv ha hpart
  · intro c a s u hi hh hex v hv ha hpart
    exact ctxWord_gives (b := none) (exec_ctxRes c a) hi hh hex rfl hv ha hpart

end Sys2Proof.Laws

end

section
/-! SUPPORT. The checks of one access (R123, R124) and the values of the atomic operations (R132). -/

open Sys2Proof Sys2Proof.Machine

namespace Sys2Proof.Laws

theorem placeAccess_unreached {m : MemOp} {cid core : Nat} {x : Group} {p : Long} {s : State} (h : m.reaches s.selfPkg p = false) :
    placeAccess m cid core x p s = (s, .bad 0x10 p) := by
  simp only [placeAccess, h, Bool.not_false, Bool.true_or, if_true]

theorem aligned_of_kind {m : MemOp} (h : m.kind = .ldu ∨ m.kind = .lr ∨ m.kind = .sc ∨ m.kind = .atom ∨ m.kind = .xatom) : m.aligned = true := by
  rcases h with h | h | h | h | h <;> simp [MemOp.aligned, MemOp.isAtomic, h]

theorem placeAccess_misaligned {m : MemOp} {cid core : Nat} {x : Group} {p : Long} {s : State} (hr : m.reaches s.selfPkg p = true)
    (hsp : ptrSpace p ≠ .control) (ha : m.aligned = true) (ho : ptrOff p % m.bytes ≠ 0) : placeAccess m cid core x p s = (s, .bad 0x11 p) := by
  have hspace : (ptrSpace p == .control) = false := beq_eq_false_iff_ne.mpr hsp
  have hoff : (ptrOff p % m.bytes != 0) = true := bne_iff_ne.mpr ho
  simp only [placeAccess, hr, hspace, ha, hoff, Bool.not_true, Bool.false_and, Bool.or_false, Bool.false_eq_true, if_false, Bool.and_self, if_true]

/-- An access that is reached and aligned where it must be goes by its space. -/
theorem placeAccess_aligned {m : MemOp} {cid core : Nat} {x : Group} {p : Long} {s : State} (hr : m.reaches s.selfPkg p = true)
    (hsp : ptrSpace p ≠ .control) (ha : m.aligned = true → ptrOff p % m.bytes = 0) : placeAccess m cid core x p s =
      match ptrSpace p with
      | .loc => (s, if localSize x (ptrRegion p) < ptrOff p + m.bytes then .bad 0x12 p else .ok (.loc (ptrRegion p) (ptrOff p)))
      | .tensor => (s, .ok (.ten (ptrHome p) (ptrBuf p) (ptrOff p)))
      | _ => translatePieces cid core p m.rights (granules (ptrOff p) m.bytes) [] s := by
  have hspace : (ptrSpace p == .control) = false := beq_eq_false_iff_ne.mpr hsp
  have hfine : (m.aligned && ptrOff p % m.bytes != 0) = false := by
    cases hal : m.aligned with
    | false => rfl
    | true => rw [ha hal]; rfl
  simp only [placeAccess, hr, hspace, hfine, Bool.not_true, Bool.false_and, Bool.or_false, Bool.false_eq_true, if_false] <;> rfl

theorem placeAccess_local {m : MemOp} {cid core : Nat} {x : Group} {p : Long} {s : State} (hr : m.reaches s.selfPkg p = true)
    (hsp : ptrSpace p = .loc) (ha : m.aligned = true → ptrOff p % m.bytes = 0) : placeAccess m cid core x p s =
      (s, if localSize x (ptrRegion p) < ptrOff p + m.bytes then .bad 0x12 p else .ok (.loc (ptrRegion p) (ptrOff p))) := by
  rw [placeAccess_aligned hr (by rw [hsp]; decide) ha, hsp]

theorem placeAccess_tensor {m : MemOp} {cid core : Nat} {x : Group} {p : Long} {s : State} (hr : m.reaches s.selfPkg p = true)
    (hsp : ptrSpace p = .tensor) (ha : m.aligned = true → ptrOff p % m.bytes = 0) : placeAccess m cid core x p s =
      (s, .ok (.ten (ptrHome p) (ptrBuf p) (ptrOff p))) := by
  rw [placeAccess_aligned hr (by rw [hsp]; decide) ha, hsp]

theorem atomNew_min (ty : Ty) (old b c : Nat) : intOf (Ty.isSigned ty) (Ty.bits ty) (atomNew .min ty old b c) =
    min (intOf (Ty.isSigned ty) (Ty.bits ty) old) (intOf (Ty.isSigned ty) (Ty.bits ty) b) := by
  unfold atomNew
  dsimp only
  split
  · next h => rw [min_eq_right h.le]
  · next h => rw [min_eq_left (not_lt.mp h)]

theorem atomNew_max (ty : Ty) (old b c : Nat) : intOf (Ty.isSigned ty) (Ty.bits ty) (atomNew .max ty old b c) =
    max (intOf (Ty.isSigned ty) (Ty.bits ty) old) (intOf (Ty.isSigned ty) (Ty.bits ty) b) := by
  unfold atomNew
  dsimp only
  split
  · next h => rw [max_eq_right h.le]
  · next h => rw [max_eq_left (not_lt.mp h)]

/-- Settles O33: the checks of an access in their order, and each atomic operation's new value. -/
theorem accessChecks : Obligations.AccessChecks := by
  refine ⟨fun m cid core x p s => ⟨placeAccess_unreached, fun hr hsp hkind ho => placeAccess_misaligned hr hsp (aligned_of_kind hkind) ho,
    placeAccess_local, placeAccess_tensor⟩, fun ty old b c => ⟨rfl, atomNew_min ty old b c, atomNew_max ty old b c, fun k => ?_, fun k => ?_, fun k => ?_,
    rfl, rfl, rfl, rfl⟩⟩
  · exact Nat.testBit_and old b k
  · exact Nat.testBit_or old b k
  · exact Nat.testBit_xor old b k

end Sys2Proof.Laws

end

section
/-! SUPPORT. Fences (R137, R138, R276) and the words on cache lines (R139). -/

open Sys2Proof Sys2Proof.Machine

namespace Sys2Proof.Laws

/-! ### Words past which the path goes on -/

/-- A word whose effect leaves the threads, the platform and the tables completes with it. -/
theorem completes_of {i : Instr} {c : Ctl} {ok : State → Iss → Prop} {effect : State → Iss → State} {f : Iss → State → State}
    (he : ∀ s, exec i s = asRank i c f s) (hf : ∀ s u, ok s u → f u s = finish c (encode i) u (effect s u))
    (haside : ∀ s u, issuing s c = some u → WritesAside u s (effect s u)) : Completes i c ok effect := by
  intro s u hi hh hok
  obtain ⟨⟨k, hk, hthreads⟩, hplat, htabs⟩ := haside s u hi
  refine ⟨_, (he s).trans (asRank_next hi hh), ?_⟩
  rw [hf s u hok]
  exact after_keep hplat htabs (finish_after hi hk hthreads)

theorem writesAside_aside {s t : State} {c : Ctl} {u : Iss} (hi : issuing s c = some u) (h : Aside s t) : WritesAside u s t :=
  writesAside_groups (issuing_spec hi).2.2.1 h.groups h.plat h.tabs

/-! ### Fences -/

theorem release_threads (k : Rank) (sc : Scope) (m : Mask) (n : Nat) : (k.release sc m n).threads = k.threads := by
  unfold Rank.release
  split <;> rfl

theorem tensorMark_threads (k : Rank) (sc : Scope) (m : Mask) (n : Nat) : (k.tensorMark sc m n).threads = k.threads := by
  unfold Rank.tensorMark
  dsimp only
  split <;> rfl

/-- A mark that a fence leaves in its rank. -/
theorem writesAside_mark {s : State} {c : Ctl} {u : Iss} (hi : issuing s c = some u) {f : Rank → Rank} (hf : ∀ k, (f k).threads = k.threads) :
    WritesAside u s (modRank u.g u.r f s) := writesAside_modRank (issuing_spec hi).2.2.1 hf

theorem fencesComplete :
    (∀ c sc, Completes (.fenceAcq c sc) c (fun _ u => loadsOpen u.k u.ex = false) fun s u =>
      modRank u.g u.r (fun k => k.acquire sc u.ex s.fresh) s) ∧
    (∀ c sc, Completes (.fenceAr c sc) c (fun s u => loadsOpen u.k u.ex = false ∧ threadsDrained s u.x u.g u.k u.ex (wideScope sc) = true) fun s u =>
      modRank u.g u.r (fun k => (k.acquire sc u.ex s.fresh).release sc u.ex s.fresh) s) ∧
    (∀ c sc, Completes (.fenceRel c sc) c (fun s u => threadsDrained s u.x u.g u.k u.ex (wideScope sc) = true) fun s u =>
      modRank u.g u.r (fun k => k.release sc u.ex s.fresh) s) ∧
    (∀ c sc, Completes (.fenceSc c sc) c (fun s u => loadsOpen u.k u.ex = false ∧ threadsDrained s u.x u.g u.k u.ex (wideScope sc) = true)
      fun s u => modRank u.g u.r (fun k => k.acquire sc u.ex s.fresh) s) ∧
    (∀ c, Completes (.fenceAck c) c (fun _ u => u.k.counters = []) fun s _ => s) ∧
    (∀ c sc, Completes (.fenceTc c sc) c (fun s u => tensorDrained s u.x u.g u.k u.ex (wideScope sc) = true) fun s u =>
      modRank u.g u.r (fun k => k.tensorMark sc u.ex s.fresh) s) := by
  refine ⟨fun c sc => ?_, fun c sc => ?_, fun c sc => ?_, fun c sc => ?_, fun c => ?_, fun c sc => ?_⟩
  · refine completes_of (exec_fenceAcq c sc) (fun s u h => ?_) fun s u hi => writesAside_mark hi fun k => acquire_threads ..
    simp only [h, Bool.false_eq_true, if_false]
  · refine completes_of (exec_fenceAr c sc) (fun s u h => ?_) fun s u hi => writesAside_mark hi fun k => (release_threads ..).trans (acquire_threads ..)
    simp only [h.1, h.2, fenceHere, Bool.false_eq_true, if_false, if_true]
  · refine completes_of (exec_fenceRel c sc) (fun s u h => ?_) fun s u hi => writesAside_mark hi fun k => release_threads ..
    simp only [h, fenceHere, if_true]
  · refine completes_of (exec_fenceSc c sc) (fun s u h => ?_) fun s u hi => writesAside_mark hi fun k => acquire_threads ..
    simp only [h.1, h.2, Bool.not_true, Bool.or_self, Bool.false_eq_true, if_false]
  · refine completes_of (exec_fenceAck c) (fun s u h => ?_) fun s u hi => writesAside_aside hi (aside_refl s)
    simp only [h, acksZero, List.isEmpty_nil, Bool.not_true, Bool.false_eq_true, and_false, if_false]
  · refine completes_of (exec_fenceTc c sc) (fun s u h => ?_) fun s u hi => writesAside_mark hi fun k => tensorMark_threads ..
    simp only [h, fenceHere, if_true]

/-- A fence that is not satisfied breaks the ply. -/
theorem fence_waits {i : Instr} {c : Ctl} {f : Iss → State → State} (he : ∀ s, exec i s = asRank i c f s) {s : State} {u : Iss} {why : WaitFor}
    (hf : f u s = waitHere u why s) (hi : issuing s c = some u) (hh : hurdle s u i = none) :
    exec i s = .next (keep s (breakPly u.g u.r why s)) := by
  rw [he, asRank_next hi hh, hf, waitHere]

/-! ### Lines -/

theorem aside_tlbFill (core stage tag : Nat) (m : Mapping) (s : State) : Aside s (tlbFill core stage tag m s) :=
  ⟨rfl, rfl, rfl, rfl, rfl, rfl, rfl, rfl, rfl, rfl, rfl⟩

theorem aside_stage2 (core : Option Nat) (part gpa : Nat) (r : Right) (s : State) : Aside s (stage2 core part gpa r s).1 := by
  unfold stage2
  dsimp only
  split
  · exact aside_refl s
  · split
    · exact aside_refl s
    · exact aside_refl s
    · exact aside_refl s
    · dsimp only
      split
      · exact aside_tlbFill ..
      · exact aside_refl s

theorem aside_translate (core : Option Nat) (cid va : Nat) (r : Right) (s : State) : Aside s (Machine.translate core cid va r s).1 := by
  unfold Machine.translate
  split
  · exact aside_refl s
  · next c _ =>
    extract_lets hit found
    have h1 : Aside s found.1 := by
      clear_value hit
      unfold found
      cases hit with
      | some e => exact aside_refl s
      | none =>
        dsimp only
        split
        · dsimp only
          split
          · exact aside_tlbFill ..
          · exact aside_refl s
        · exact aside_refl s
    clear_value found
    split
    · exact h1
    · exact h1
    · exact h1
    · next m _ =>
      split
      · exact h1
      · have h2 := aside_trans h1 (aside_stage2 core c.part (m.apply va) r found.1)
        extract_lets gpa
        split
        all_goals next hs => rw [hs] at h2; exact h2

theorem aside_flushAt (u : Iss) (p : Long) (s : State) : Aside s (flushAt u p s).1 := by
  unfold flushAt
  split
  · exact aside_refl s
  · split
    · exact aside_refl s
    · exact aside_refl s
    · split
      · exact aside_refl s
      · split <;> exact aside_refl s
    · have h := aside_translate (some u.x.core) u.x.ctx (ptrOff p) .rd s
      split
      all_goals next hs => rw [hs] at h; exact h

theorem aside_flushPlaces (u : Iss) (slots : Sparse Slot) (s : State) : Aside s (flushPlaces u slots s).1 := by
  unfold flushPlaces
  refine aside_fold' _ ?_ (threadsOf u.ex) (s, [])
  exact fun acc t => aside_flushAt u _ acc.1

theorem aside_loseLine (line : Nat) (s : State) : Aside s (loseLine line s) := ⟨rfl, rfl, rfl, rfl, rfl, rfl, rfl, rfl, rfl, rfl, rfl⟩

theorem aside_giveLine (line : Nat) (s : State) : Aside s (giveLine line s) := by
  unfold giveLine
  split
  · dsimp only
    split
    · exact aside_loseLine line s
    · exact aside_trans (aside_loseLine line s) (aside_sendCtl ..)
  · exact aside_refl s

theorem aside_writeBackLine (line : Nat) (s : State) : Aside s (writeBackLine line s) := by
  unfold writeBackLine
  split
  · split
    · exact ⟨rfl, rfl, rfl, rfl, rfl, rfl, rfl, rfl, rfl, rfl, rfl⟩
    · exact aside_refl s
  · exact aside_refl s

theorem aside_dropLine (core cid dpa : Nat) (s : State) : Aside s (dropLine core cid dpa s) := by
  have h : Aside s { s with l1 := s.l1.filter fun (c : L1Copy) => !(c.core == core && c.ctx == cid && c.sector / 4 == dpa / 512) } :=
    ⟨rfl, rfl, rfl, rfl, rfl, rfl, rfl, rfl, rfl, rfl, rfl⟩
  unfold dropLine
  dsimp only
  split
  · exact aside_trans h (aside_giveLine ..)
  · exact h

theorem aside_flushLine (f : Flush) (core cid dpa : Nat) (s : State) : Aside s (flushLine f core cid dpa s) := by
  unfold flushLine
  split
  · split
    · exact aside_writeBackLine ..
    · exact aside_refl s
  · exact aside_dropLine ..
  · exact aside_dropLine ..

theorem aside_prefetch (u : Iss) (pol : BitVec 2) (slots : Sparse Slot) (s : State) : Aside s (prefetch u pol slots s) := by
  unfold prefetch
  refine aside_fold _ (fun s t => ?_) (threadsOf u.ex) s
  have h := aside_flushAt u (sgetD t Slot.zero slots).a s
  dsimp only
  split
  · next hs =>
    rw [hs] at h
    exact aside_trans h ⟨rfl, rfl, rfl, rfl, rfl, rfl, rfl, rfl, rfl, rfl, rfl⟩
  · next hs =>
    rw [hs] at h
    exact h

theorem writesAside_flushAll (f : Flush) (e : Entry) (ps : List (Nat × FlushAt)) {s t : State} {c : Ctl} {u : Iss} (hi : issuing s c = some u)
    (h : Aside s t) : WritesAside u s (flushAll f u e ps t) := by
  have hlines : Aside s (ps.foldl (fun s p => match p.2 with
      | .line dpa => flushLine f u.x.core u.x.ctx dpa s
      | _ => s) t) := by
    refine aside_trans h (aside_fold _ (fun s p => ?_) ps t)
    split
    · exact aside_flushLine ..
    · exact aside_refl s
  obtain ⟨⟨k, hk, hthreads⟩, hplat, htabs⟩ := writesAside_aside hi hlines
  unfold flushAll
  dsimp only
  split
  · exact ⟨⟨k, hk, hthreads⟩, hplat, htabs⟩
  · exact ⟨⟨_, rank_modRank_some hk, hthreads⟩, hplat, htabs⟩

/-- A CFLUSH whose lines are all here and whose checks pass acts on each executing thread's line. -/
theorem cflush_acts {f : Flush} {i : Instr} {c : Ctl} {a : Opnd} {disp : Word} (he : ∀ s, exec i s = cflush f i c a disp s) {s : State} {u : Iss}
    (hi : issuing s c = some u) (hh : hurdle s u i = none)
    (hlack : firstLack (flushPlaces u (pointerSlots s.clk u a disp) { s with fresh := s.fresh + 1 }).2 = none)
    (hprecise : firstPrecise (flushPlaces u (pointerSlots s.clk u a disp) { s with fresh := s.fresh + 1 }).2 = none) :
    let slots := pointerSlots s.clk u a disp
    let ps := flushPlaces u slots { s with fresh := s.fresh + 1 }
    ∃ t, exec i s = .next t ∧ AfterWord u (flushAll f u (pageEntry u (encode i) slots s.fresh) ps.2 ps.1) t := by
  intro slots ps
  have hfresh : Aside s { s with fresh := s.fresh + 1 } := ⟨rfl, rfl, rfl, rfl, rfl, rfl, rfl, rfl, rfl, rfl, rfl⟩
  obtain ⟨⟨k, hk, hthreads⟩, hplat, htabs⟩ := writesAside_flushAll f (pageEntry u (encode i) slots s.fresh) ps.2 hi
    (aside_trans hfresh (aside_flushPlaces u slots _))
  refine ⟨keep s (finish c (encode i) u (flushAll f u (pageEntry u (encode i) slots s.fresh) ps.2 ps.1)), ?_,
    after_keep hplat htabs (finish_after hi hk hthreads)⟩
  rw [he, cflush, asRank_next hi hh]
  dsimp only
  rw [hlack, hprecise]

/-- Settles O34: what each fence waits for and leaves, CFLUSH and PREF. -/
theorem fencesAndCaches : Obligations.FencesAndCaches := by
  obtain ⟨hacq, har, hrel, hsc, hack, htc⟩ := fencesComplete
  refine ⟨⟨hacq, har, hrel, hsc, hack, htc, ?_, ?_, ?_, ?_⟩, ?_, ?_, ?_⟩
  · intro c sc s u hi hd wait
    refine ⟨fun hh => fence_waits (exec_fenceRel c sc) ?_ hi hh, fun hh hl => fence_waits (exec_fenceAr c sc) ?_ hi hh,
      fun hh => fence_waits (exec_fenceSc c sc) ?_ hi hh⟩
    · simp only [fenceHere, hd, Bool.false_eq_true, if_false]
    · simp only [fenceHere, hd, hl, Bool.false_eq_true, if_false]
    · simp only [hd, Bool.not_false, Bool.or_true, if_true]
  · intro c sc s u hi hh hd
    refine fence_waits (exec_fenceTc c sc) ?_ hi hh
    simp only [fenceHere, hd, Bool.false_eq_true, if_false]
  · intro c sc s u hi hl
    refine ⟨fun hh => fence_waits (exec_fenceAcq c sc) ?_ hi hh, fun hh => fence_waits (exec_fenceAr c sc) ?_ hi hh⟩
    · simp only [hl, if_true]
    · simp only [hl, if_true]
  · intro c s u hi hex hcount hh
    refine fence_waits (exec_fenceAck c) ?_ hi hh
    have hopen : acksZero u.k = false := by simpa [acksZero] using hcount
    simp only [hopen, hex, ne_eq, not_false_eq_true, Bool.not_false, and_self, if_true]
  · intro c a disp s u hi slots ps hlack hprecise
    exact ⟨fun hh => cflush_acts (exec_cflushWb c a disp) hi hh hlack hprecise, fun hh => cflush_acts (exec_cflushInv c a disp) hi hh hlack hprecise,
      fun hh => cflush_acts (exec_cflushWbinv c a disp) hi hh hlack hprecise⟩
  · exact fun c pol a disp => completes_of (exec_pref c pol a disp) (fun _ _ _ => rfl) fun s u hi => writesAside_aside hi (aside_prefetch ..)
  · intro core cid dpa s hhome
    have hnone : holdsLine s cid dpa = false := by rw [holdsLine, hhome]; rfl
    have hkept : holdsLine { s with l1 := s.l1.filter fun (c : L1Copy) => !(c.core == core && c.ctx == cid && c.sector / 4 == dpa / 512) } cid dpa = false := hnone
    simp only [dropLine, hnone, Bool.false_eq_true, if_false, and_self]

end Sys2Proof.Laws

end

section
/-! SUPPORT. Tile handles, slabs, peers and the start of a sequencer (R162 to R166). -/

open Sys2Proof Sys2Proof.Machine

namespace Sys2Proof.Laws

/-! ### TCFG and TREL -/

/-- A handle's word that is done: the path goes on, and what waits is looked at again. -/
theorem tileWord_done {i : Instr} {c : Ctl} {w : Bool} {n : Nat} {value : Iss → State → Long} (he : ∀ s, exec i s = tileWord i c w n value s)
    {s s1 : State} {u : Iss} (hi : issuing s c = some u) (hh : hurdle s u i = none) (hex : u.ex ≠ 0)
    (hstep : tileStep u.g u.x i (value u s) s = .done s1) (haside : WritesAside u s s1) :
    ∃ t, exec i s = .next (keep s (wake t)) ∧ AfterWord u s1 t := by
  obtain ⟨⟨k, hk, hthreads⟩, -, -⟩ := haside
  refine ⟨finish c (encode i) u s1, ?_, finish_after hi hk hthreads⟩
  rw [he, tileWord, asRank_next hi hh]
  dsimp only
  rw [if_neg hex, hstep]

theorem tcfg_done (c : Ctl) (w : Bool) (n : BitVec 4) (a : Opnd) (so : BitVec 20) {s : State} {u : Iss} (hi : issuing s c = some u)
    (hh : hurdle s u (.tcfg c w (.t n) a so) = none) (hex : u.ex ≠ 0)
    (hbad : tcfgBad u.x n.toNat (BitVec.ofNat 64 (readOpnd s.clk u .b64 0 a 0)) so.toNat = none) (hbusy : tileBusy u.x n.toNat = false) :
    ∃ t, exec (.tcfg c w (.t n) a so) s = .next (keep s (wake t)) ∧
      AfterWord u (tcfgDo u.g n.toNat (BitVec.ofNat 64 (readOpnd s.clk u .b64 0 a 0)) so.toNat s) t := by
  refine tileWord_done (exec_tcfg c w (.t n) a so) hi hh hex ?_ (writesAside_modGroup (issuing_spec hi).2.2.1 fun _ => rfl)
  simp only [tileStep, hbad, hbusy, Bool.false_eq_true, if_false]

theorem trel_done (c : Ctl) (w : Bool) (n : BitVec 4) {s : State} {u : Iss} (hi : issuing s c = some u) (hh : hurdle s u (.trel c w (.t n)) = none)
    (hex : u.ex ≠ 0) (hcfg : hCfg (handleOf u.x n.toNat) = true) (hbusy : tileBusy u.x n.toNat = false) :
    ∃ t, exec (.trel c w (.t n)) s = .next (keep s (wake t)) ∧
      AfterWord u (modGroup u.g (fun x => { x with handles := sput 0 n.toNat 0 x.handles }) s) t := by
  refine tileWord_done (exec_trel c w (.t n)) hi hh hex ?_ (writesAside_modGroup (issuing_spec hi).2.2.1 fun _ => rfl)
  simp only [tileStep, hcfg, hbusy, Bool.not_true, Bool.false_eq_true, if_false, trelDo]

/-! ### Slabs -/

theorem acfgTake_completes (c : Ctl) (d : Opnd) (n : BitVec 3) (p : Nat) : Completes (.acfgTake c d (.a n)) c
    (fun s u => u.ex ≠ 0 ∧ sget n.toNat u.x.slabMap = none ∧ u.x.slabMap.length < u.x.slabMax ∧ freeSlab s u.x.core = some p)
    fun s u => setD u .b64 d (fun _ => landingName s u.x.core p)
      { (modGroup u.g (fun x => { x with slabMap := sset n.toNat p x.slabMap }) s) with
        slabs := sset (u.x.core * 8 + p) { group := u.g, data := [] } s.slabs } := by
  refine completes_of (exec_acfgTake c d (.a n)) (fun s u h => ?_) fun s u hi => ?_
  · obtain ⟨hex, hnone, hmax, hfree⟩ := h
    simp only [hex, slotIdx, hnone, Option.isSome_none, Bool.false_eq_true, Nat.not_le.mpr hmax, hfree, if_false]
  · obtain ⟨⟨k, hk, hthreads⟩, hplat, htabs⟩ := writesAside_modGroup (f := fun x => { x with slabMap := sset n.toNat p x.slabMap })
      (issuing_spec hi).2.2.1 fun _ => rfl
    exact ⟨⟨_, setD_rank (k := k) _ u .b64 d _ hk, (writeAll_frame ..).1.trans hthreads⟩, hplat, htabs⟩

theorem acfgRel_completes (c : Ctl) (n : BitVec 3) (p : Nat) : Completes (.acfgRel c (.a n)) c
    (fun _ u => u.ex ≠ 0 ∧ sget n.toNat u.x.slabMap = some p ∧ slotBusy u.x n.toNat = false)
    fun s u => { (modGroup u.g (fun x => { x with slabMap := sdel n.toNat x.slabMap }) s) with slabs := sdel (u.x.core * 8 + p) s.slabs } := by
  refine completes_of (exec_acfgRel c (.a n)) (fun s u h => ?_) fun s u hi => ?_
  · obtain ⟨hex, hsome, hbusy⟩ := h
    simp only [hex, slotIdx, hsome, hbusy, Option.getD_some, Bool.false_eq_true, if_false]
  · obtain ⟨⟨k, hk, hthreads⟩, hplat, htabs⟩ := writesAside_modGroup (f := fun x => { x with slabMap := sdel n.toNat x.slabMap })
      (issuing_spec hi).2.2.1 fun _ => rfl
    exact ⟨⟨k, hk, hthreads⟩, hplat, htabs⟩

/-! ### Peers and the sequencer -/

theorem peer_completes (c : Ctl) (n : BitVec 3) (a b : Opnd) : Completes (.peer c n a b) c
    (fun s u => u.ex ≠ 0 ∧ (readOpnd s.clk u .b64 0 a 0 = 0 ∨ readOpnd s.clk u .b64 0 a 0 % 2 ^ 41 = 0 ∧ readOpnd s.clk u .b32 0 b 0 < 128))
    fun s u =>
      let name := readOpnd s.clk u .b64 0 a 0
      let v : Long := if name = 0 then 0 else BitVec.ofNat 64 (name + readOpnd s.clk u .b32 0 b 0 * 2 ^ 34 + 1)
      modGroup u.g (fun x => { x with peers := sput 0 n.toNat v x.peers }) s := by
  refine completes_of (exec_peer c n a b) (fun s u h => ?_) fun s u hi => writesAside_modGroup (issuing_spec hi).2.2.1 fun _ => rfl
  obtain ⟨hex, hname⟩ := h
  have hfine : ¬(readOpnd s.clk u .b64 0 a 0 ≠ 0 ∧ (bits (readOpnd s.clk u .b64 0 a 0) 0 41 ≠ 0 ∨ 128 ≤ readOpnd s.clk u .b32 0 b 0)) := by
    rintro ⟨hne, hbad⟩
    obtain ⟨hlow, hbar⟩ := hname.resolve_left hne
    rw [bits, pow_zero, Nat.div_one] at hbad
    exact hbad.elim (fun h => h hlow) fun h => Nat.not_le.mpr hbar h
  simp only [if_neg hex, if_neg hfine]

theorem mstart_completes (c : Ctl) (a : Opnd) : Completes (.mstart c a) c
    (fun s u =>
      let v : Long := BitVec.ofNat 64 (readOpnd s.clk u .b64 0 a 0)
      let entry := if v = 0 then u.x.mcode else v
      u.ex ≠ 0 ∧ entry ≠ 0 ∧ entry.extractLsb' 0 2 = 0 ∧ (u.x.seq.st = .idle ∨ u.x.seq.st = .stopped))
    fun s u =>
      let v : Long := BitVec.ofNat 64 (readOpnd s.clk u .b64 0 a 0)
      modSeq u.g (fun q => { q with mpc := if v = 0 then u.x.mcode else v, st := .running, c := [0, 0, 0, 0] }) s := by
  refine completes_of (exec_mstart c a) (fun s u h => ?_) fun s u hi => writesAside_modGroup (issuing_spec hi).2.2.1 fun _ => rfl
  obtain ⟨hex, hne, hal, hst⟩ := h
  have hfree : ¬(u.x.seq.st = .running ∨ u.x.seq.st = .parked) := by rcases hst with h | h <;> simp [h]
  dsimp only
  rw [if_neg hex, if_neg hne, (misaligned_false _).mpr hal, if_neg Bool.false_ne_true, if_neg hfree]

theorem mstart_busy (c : Ctl) (a : Opnd) {s : State} {u : Iss} (hi : issuing s c = some u) (hh : hurdle s u (.mstart c a) = none) (hex : u.ex ≠ 0)
    (hst : u.x.seq.st = .running ∨ u.x.seq.st = .parked)
    (hne : (if BitVec.ofNat 64 (readOpnd s.clk u .b64 0 a 0) = 0 then u.x.mcode else BitVec.ofNat 64 (readOpnd s.clk u .b64 0 a 0)) ≠ 0)
    (hal : (if BitVec.ofNat 64 (readOpnd s.clk u .b64 0 a 0) = 0 then u.x.mcode else BitVec.ofNat 64 (readOpnd s.clk u .b64 0 a 0)).extractLsb' 0 2 = 0) :
    exec (.mstart c a) s = .next (keep s (trapAt u (encode (.mstart c a)) 0x27 0 s)) := by
  rw [exec_mstart, execMstart, asRank_next hi hh]
  dsimp only
  rw [if_neg hex, if_neg hne, (misaligned_false _).mpr hal, if_neg Bool.false_ne_true, if_pos hst]

/-- Settles O38: handles, slabs, peers and the start of a sequencer. -/
theorem tileWords : Obligations.TileWords :=
  ⟨fun c w n a so _ _ hi hh hex hbad hbusy => tcfg_done c w n a so hi hh hex hbad hbusy,
   fun c w n _ _ hi hh hex hcfg hbusy => trel_done c w n hi hh hex hcfg hbusy, acfgTake_completes, acfgRel_completes, peer_completes, mstart_completes,
   fun c a _ _ hi hh hex hst hne hal => mstart_busy c a hi hh hex hst hne hal⟩

end Sys2Proof.Laws

end

section
/-! SUPPORT. LAUNCH, BUFSET, EVQ.post and XINV (R181, R196, R289, R39): the block they read, and what they do with it. -/

open Sys2Proof Sys2Proof.Machine

namespace Sys2Proof.Laws

/-! ### The block a word reads -/

/-- A block in the scratchpad is there at once. -/
theorem readBlock_scratch {s : State} {c : Ctl} {u : Iss} (hi : issuing s c = some u) {p : Long} {n align : Nat} (h : inScratch u.x p n align) :
    readBlock u p n align s = (s, .bytes (readBytes u.x.scratch (ptrOff p) n)) := by
  obtain ⟨-, hx, -⟩ := issuing_spec hi
  obtain ⟨hal, hok, hspace, hregion, hwidth, hsize⟩ := h
  unfold readBlock
  rw [hspace]
  simp [hal, hok, hregion, Nat.not_lt.mpr hwidth, Nat.not_lt.mpr hsize, hx]

theorem aside_readPieces (u : Iss) (p : Long) (n : Nat) (l : List (Nat × Nat)) (got : List Byte) (s : State) : Aside s (readPieces u p n l got s).1 := by
  induction l generalizing got s with
  | nil => exact aside_refl s
  | cons piece rest ih =>
    have hgo : ∀ (s1 : State) (dpa : Nat), Aside s s1 → Aside s
        (if rowFailed s1 dpa then (s1, BlockRead.fault 0x19 (ptrAdd p piece.1))
        else if !lineReady s1 dpa false then (askLine s1 dpa false, .wait)
        else if s1.homeq.any fun a => a.core == u.x.core && a.isWrite && !a.remote && (accessDpa s1 a).any fun d => granuleOf d == granuleOf dpa then
          (s1, .wait)
        else readPieces u p n rest (got ++ homeRead s1 dpa piece.2) s1).1 := by
      intro s1 dpa h
      split
      · exact h
      · split
        · exact aside_trans h (aside_askLine ..)
        · split
          · exact h
          · exact aside_trans h (ih _ s1)
    unfold readPieces
    split
    · split
      · exact hgo s _ (aside_refl s)
      · exact aside_askLine ..
      · exact aside_refl s
      · exact aside_refl s
    · have ht := aside_translate (some u.x.core) u.x.ctx (ptrOff p + piece.1) .rd s
      split
      · next hs =>
        rw [hs] at ht
        split
        · exact ht
        · split
          · exact ht
          · exact hgo _ _ ht
      · next hs =>
        rw [hs] at ht
        exact aside_trans ht (aside_askLine ..)
      · next hs =>
        rw [hs] at ht
        exact ht
      · next hs =>
        rw [hs] at ht
        exact ht

theorem aside_readBlock (u : Iss) (p : Long) (n align : Nat) (s : State) : Aside s (readBlock u p n align s).1 := by
  unfold readBlock
  split
  · exact aside_refl s
  · split
    · exact aside_refl s
    · split
      · exact aside_refl s
      · split
        · exact aside_refl s
        · split <;> exact aside_refl s
      · split
        · exact aside_refl s
        · exact aside_readPieces ..
      · exact aside_readPieces ..

theorem wreg_toNat (o : Opnd) (u : Iss) (s : State) : (wreg o u s).toNat = readOpnd s.clk u .b64 0 o 0 := by
  rw [wreg, BitVec.toNat_ofNat]
  exact Nat.mod_eq_of_lt (readOpnd_lt s.clk u .b64 0 o 0)

/-- The word whose block is there: it goes on with what it does. -/
theorem blockRead_done {i : Instr} {c : Ctl} {a b : Iss → State → Long} {s s1 : State} {u : Iss} (hi : issuing s c = some u)
    (hh : hurdle s u i = none) (hex : u.ex ≠ 0) (hword : blockWord i u (a u s) (b u s) s = .done s1) :
    blockRead i c a b s = .next (keep s (finish c (encode i) u s1)) := by
  rw [blockRead, sysWord_acts hi hh hex, hword]

/-! ### LAUNCH -/

theorem writesAside_submitLaunch {s s1 : State} {c : Ctl} {u : Iss} (hi : issuing s c = some u) (h1 : Aside s s1) (src : LaunchFrom) (part : Nat)
    (addr : Long) (p : List Byte) : WritesAside u s (submitLaunch src part addr p s1) := by
  obtain ⟨hgroups, hplat, htabs⟩ : (submitLaunch src part addr p s1).groups = s1.groups ∧ (submitLaunch src part addr p s1).plat = s1.plat ∧
      (submitLaunch src part addr p s1).tabs = s1.tabs := by
    unfold submitLaunch
    split
    · unfold postReject
      split
      · exact ⟨(aside_postCtx ..).groups, (aside_postCtx ..).plat, (aside_postCtx ..).tabs⟩
      · exact ⟨(aside_postCtx ..).groups, (aside_postCtx ..).plat, (aside_postCtx ..).tabs⟩
      · exact ⟨(aside_postHostCtx ..).groups, (aside_postHostCtx ..).plat, (aside_postHostCtx ..).tabs⟩
    · exact ⟨rfl, rfl, rfl⟩
  exact writesAside_groups (issuing_spec hi).2.2.1 (hgroups.trans h1.groups) (hplat.trans h1.plat) (htabs.trans h1.tabs)

theorem launch_submits (c : Ctl) (a : Opnd) {s s1 : State} {u : Iss} {bs : List Byte} (hi : issuing s c = some u)
    (hh : hurdle s u (.launch c a) = none) (hex : u.ex ≠ 0)
    (hread : readBlock u (BitVec.ofNat 64 (readOpnd s.clk u .b64 0 a 0)) 64 64 s = (s1, .bytes bs)) :
    ∃ t, exec (.launch c a) s = .next t ∧
      AfterWord u (submitLaunch (.word u.x.ctx) u.c.part (BitVec.ofNat 64 (readOpnd s.clk u .b64 0 a 0)) bs s1) t := by
  have h1 : Aside s s1 := by
    have h := aside_readBlock u (BitVec.ofNat 64 (readOpnd s.clk u .b64 0 a 0)) 64 64 s
    rw [hread] at h
    exact h
  have hword : blockWord (.launch c a) u (wreg a u s) 0 s =
      .done (submitLaunch (.word u.x.ctx) u.c.part (BitVec.ofNat 64 (readOpnd s.clk u .b64 0 a 0)) bs s1) := by
    simp only [blockWord, wreg, hread, launchDo]
  obtain ⟨⟨k, hk, hthreads⟩, hplat, htabs⟩ := writesAside_submitLaunch hi h1 (.word u.x.ctx) u.c.part (BitVec.ofNat 64 (readOpnd s.clk u .b64 0 a 0)) bs
  exact ⟨_, (exec_launch c a s).trans (blockRead_done hi hh hex hword), after_keep hplat htabs (finish_after hi hk hthreads)⟩

/-! ### BUFSET -/

theorem bufset_writes (c : Ctl) (a b : Opnd) {s s1 : State} {u : Iss} {bs : List Byte} (hi : issuing s c = some u)
    (hh : hurdle s u (.bufset c a b) = none) (hex : u.ex ≠ 0)
    (hread : readBlock u (BitVec.ofNat 64 (readOpnd s.clk u .b64 0 b 0)) 32 32 s = (s1, .bytes bs)) (hn : readOpnd s.clk u .b64 0 a 0 < 4096)
    (hbad : bufBad s1 u (BitVec.ofNat 256 (leNat bs)) = none) (hlack : bufLack s1 u.c.part (BitVec.ofNat 256 (leNat bs)) = none) :
    exec (.bufset c a b) s = .next { keep s (finish c (encode (.bufset c a b)) u (bufsetDo u.c.part (readOpnd s.clk u .b64 0 a 0) bs s1)) with
      tabs := (bufsetDo u.c.part (readOpnd s.clk u .b64 0 a 0) bs s1).tabs } := by
  have hval := wreg_toNat a u s
  have hword : blockWord (.bufset c a b) u (wreg a u s) (wreg b u s) s = .done (bufsetDo u.c.part (readOpnd s.clk u .b64 0 a 0) bs s1) := by
    have hsmall : readOpnd s.clk u .b64 0 a 0 / 4096 = 0 := Nat.div_eq_of_lt hn
    rw [show wreg b u s = BitVec.ofNat 64 (readOpnd s.clk u .b64 0 b 0) from rfl]
    simp only [blockWord, hval, hsmall, ne_eq, not_true_eq_false, if_false, hread, hbad, hlack]
  have hex' : (u.ex == 0) = false := beq_eq_false_iff_ne.mpr hex
  rw [exec_bufset, execBufset, hi]
  simp only [blockRead_done (b := wreg b) hi hh hex hword, hh, hex', hword]

/-- Where no admitted access goes through the partition's buffers, none is performed first. -/
theorem performAdmitted_none {kind : Access → Bool} {s : State} (h : ∀ a ∈ s.homeq, kind a = false ∨ a.home ≠ s.selfPkg) (n : Nat) :
    performAdmitted kind n s = s := by
  cases n with
  | zero => rfl
  | succ n =>
    unfold performAdmitted
    extract_lets admitted
    have hnone : ((List.range s.homeq.length).find? fun k => (s.homeq[k]?).any admitted) = none := by
      rw [List.find?_eq_none]
      intro k _ hany
      cases hk : s.homeq[k]? with
      | none => rw [hk] at hany; cases hany
      | some a =>
        rw [hk, Option.any_some] at hany
        unfold admitted at hany
        obtain ⟨hkind, htarget⟩ := Bool.and_eq_true_iff.mp hany
        rcases h a (List.mem_of_getElem? hk) with hno | hno
        · rw [hno] at hkind; cases hkind
        · split at htarget
          · exact hno (beq_iff_eq.mp htarget)
          · cases htarget
    rw [hnone]

theorem bufsetDo_aside {part n : Nat} {bs : List Byte} {s : State} (h : ∀ a ∈ s.homeq, a.part ≠ part ∨ a.home ≠ s.selfPkg) :
    (bufsetDo part n bs s).groups = s.groups ∧ (bufsetDo part n bs s).plat = s.plat := by
  unfold bufsetDo
  extract_lets mine s0
  have hnone : ∀ a ∈ s.homeq, mine a = false ∨ a.home ≠ s.selfPkg := by
    intro a ha
    refine (h a ha).imp_left fun hp => ?_
    unfold mine
    rw [beq_eq_false_iff_ne.mpr hp, Bool.false_and]
  have hs0 : s0 = s := congrArg (keep s) (performAdmitted_none hnone s.homeq.length)
  have hkept : s0.groups = s.groups ∧ s0.plat = s.plat := by rw [hs0]; exact ⟨rfl, rfl⟩
  split
  · exact hkept
  · split <;> exact hkept

theorem bufset_goesOn (c : Ctl) (a b : Opnd) {s s1 : State} {u : Iss} {bs : List Byte} (hi : issuing s c = some u)
    (hh : hurdle s u (.bufset c a b) = none) (hex : u.ex ≠ 0)
    (hread : readBlock u (BitVec.ofNat 64 (readOpnd s.clk u .b64 0 b 0)) 32 32 s = (s1, .bytes bs)) (hn : readOpnd s.clk u .b64 0 a 0 < 4096)
    (hbad : bufBad s1 u (BitVec.ofNat 256 (leNat bs)) = none) (hlack : bufLack s1 u.c.part (BitVec.ofNat 256 (leNat bs)) = none)
    (hq : ∀ a ∈ s1.homeq, a.part ≠ u.c.part ∨ a.home ≠ s1.selfPkg) :
    ∃ t, exec (.bufset c a b) s = .next t ∧ AfterWord u (bufsetDo u.c.part (readOpnd s.clk u .b64 0 a 0) bs s1) t := by
  obtain ⟨-, -, hk, -⟩ := issuing_spec hi
  refine ⟨_, bufset_writes c a b hi hh hex hread hn hbad hlack, ?_⟩
  have h1 : Aside s s1 := by
    have h := aside_readBlock u (BitVec.ofNat 64 (readOpnd s.clk u .b64 0 b 0)) 32 32 s
    rw [hread] at h
    exact h
  obtain ⟨hgroups, hplat⟩ := bufsetDo_aside (n := readOpnd s.clk u .b64 0 a 0) (bs := bs) hq
  generalize bufsetDo u.c.part (readOpnd s.clk u .b64 0 a 0) bs s1 = s2 at *
  have hk2 : rank? s2 u.g u.r = some u.k := by rw [rank?, group?, hgroups, h1.groups]; exact hk
  have hafter := finish_after (c := c) (w := encode (.bufset c a b)) hi hk2 rfl
  have hkeep : ({ keep s (finish c (encode (.bufset c a b)) u s2) with tabs := s2.tabs } : State) =
      keep s2 (finish c (encode (.bufset c a b)) u s2) := by
    rw [keep, keep, hplat, h1.plat]
  rw [hkeep]
  exact after_keep rfl rfl hafter

/-! ### EVQ.post and XINV -/

theorem takeTags_aside (cid n : Nat) (s : State) :
    (takeTags cid n s).1.groups = s.groups ∧ (takeTags cid n s).1.plat = s.plat ∧ (takeTags cid n s).1.tabs = s.tabs := by
  unfold takeTags
  split <;> exact ⟨rfl, rfl, rfl⟩

theorem guardPost_aside (u : Iss) (tag : BitVec 32) (s : State) :
    (guardPost u tag s).groups = s.groups ∧ (guardPost u tag s).plat = s.plat ∧ (guardPost u tag s).tabs = s.tabs := by
  unfold guardPost
  split
  · exact ⟨rfl, rfl, rfl⟩
  · next h _ _ =>
    have hsend := aside_mirrorSend s.tabs.self h [] (some (tag, [])) s (some u.x.ctx)
    exact ⟨hsend.groups, hsend.plat, hsend.tabs⟩

theorem sysWord_completes {i : Instr} {c : Ctl} {ok : State → Iss → Prop} {effect : State → Iss → State} {f : IWord → Iss → State → State}
    (he : ∀ s, exec i s = sysWord i c f s) (hf : ∀ s u, ok s u → u.ex ≠ 0 ∧ f (encode i) u s = finish c (encode i) u (effect s u))
    (haside : ∀ s u, issuing s c = some u → WritesAside u s (effect s u)) : Completes i c ok effect := by
  refine completes_of he (fun s u h => ?_) haside
  obtain ⟨hex, heff⟩ := hf s u h
  rw [if_neg hex, heff]

theorem evqPost_posts (c : Ctl) (a b : Opnd) : Completes (.evqPost c a b) c
    (fun s u => u.ex ≠ 0 ∧ 0x8000 ≤ readOpnd s.clk u .b64 0 a 0 ∧ readOpnd s.clk u .b64 0 a 0 < 0x10000)
    fun s u => guardPost u (tagOf u.x.ctx (takeTags u.x.ctx 1 s).2 0) <| postCtx u.x.ctx
      { source := 0, status := BitVec.ofNat 16 (readOpnd s.clk u .b64 0 a 0), cmdaddr := u.pc, counta := readOpnd s.clk u .b64 0 b 0, launch := u.x.launchid }
      (takeTags u.x.ctx 1 s).1 := by
  refine sysWord_completes (exec_evqPost c a b) (fun s u h => ?_) fun s u hi => ?_
  · obtain ⟨hex, hlo, hhi⟩ := h
    refine ⟨hex, ?_⟩
    have hval := wreg_toNat a u s
    have hvalb := wreg_toNat b u s
    have hstatus : (wreg a u s).setWidth 16 = BitVec.ofNat 16 (readOpnd s.clk u .b64 0 a 0) := by
      rw [← hval]
      exact BitVec.eq_of_toNat_eq (by simp)
    dsimp only
    rw [if_neg (by omega), hstatus, hvalb]
  · obtain ⟨hgroups, hplat, htabs⟩ := takeTags_aside u.x.ctx 1 s
    have hpost := aside_postCtx u.x.ctx { source := 0, status := BitVec.ofNat 16 (readOpnd s.clk u .b64 0 a 0), cmdaddr := u.pc, counta := readOpnd s.clk u .b64 0 b 0, launch := u.x.launchid }
      (takeTags u.x.ctx 1 s).1
    obtain ⟨hgroups', hplat', htabs'⟩ := guardPost_aside u (tagOf u.x.ctx (takeTags u.x.ctx 1 s).2 0) (postCtx u.x.ctx
      { source := 0, status := BitVec.ofNat 16 (readOpnd s.clk u .b64 0 a 0), cmdaddr := u.pc, counta := readOpnd s.clk u .b64 0 b 0, launch := u.x.launchid }
      (takeTags u.x.ctx 1 s).1)
    exact writesAside_groups (issuing_spec hi).2.2.1 (hgroups'.trans (hpost.groups.trans hgroups)) (hplat'.trans (hpost.plat.trans hplat))
      (htabs'.trans (hpost.tabs.trans htabs))

theorem evqPost_traps (c : Ctl) (a b : Opnd) {s : State} {u : Iss} (hi : issuing s c = some u) (hh : hurdle s u (.evqPost c a b) = none)
    (hex : u.ex ≠ 0) (hout : (BitVec.ofNat 64 (readOpnd s.clk u .b64 0 a 0)).toNat < 0x8000 ∨ 0x10000 ≤ (BitVec.ofNat 64 (readOpnd s.clk u .b64 0 a 0)).toNat) :
    exec (.evqPost c a b) s = .next (keep s (trapAt u (encode (.evqPost c a b)) 0x20 (BitVec.ofNat 64 (readOpnd s.clk u .b64 0 a 0)) s)) := by
  rw [exec_evqPost, execEvqPost, sysWord_acts hi hh hex]
  exact congrArg (fun t => Host.Outcome.next (keep s t)) (if_pos hout)

theorem xinv_takes (c : Ctl) (a b : Opnd) : Completes (.xinv c a b) c
    (fun s u =>
      let p : Long := BitVec.ofNat 64 (readOpnd s.clk u .b64 0 a 0)
      u.ex ≠ 0 ∧ readOpnd s.clk u .b64 0 b 0 ≠ 0 ∧ ptrOk p = true ∧ ptrSpace p ≠ .loc ∧
        (ptrSpace p = .control → xinvLack s u.x.ctx p (readOpnd s.clk u .b64 0 b 0) = none))
    fun s u =>
      let off (y : ICopy) : Bool := !xinvTakes s u (BitVec.ofNat 64 (readOpnd s.clk u .b64 0 a 0)) (readOpnd s.clk u .b64 0 b 0) y
      { s with icopies := s.icopies.filter off } := by
  refine sysWord_completes (exec_xinv c a b) (fun s u h => ?_) fun s u hi => writesAside_groups (issuing_spec hi).2.2.1 rfl rfl rfl
  obtain ⟨hex, hn, hok, hloc, hlack⟩ := h
  refine ⟨hex, ?_⟩
  have hval := wreg_toNat b u s
  have hspace : (ptrSpace (wreg a u s) == .loc) = false := beq_eq_false_iff_ne.mpr hloc
  have hok' : ptrOk (wreg a u s) = true := hok
  have hnone : (if ptrSpace (wreg a u s) == .control then xinvLack s u.x.ctx (wreg a u s) (readOpnd s.clk u .b64 0 b 0) else none) = none := by
    split
    · next h => exact hlack (beq_iff_eq.mp h)
    · rfl
  dsimp only
  rw [hval, if_neg hn, hok', hspace, hnone]
  rfl

/-- Settles O44: LAUNCH, BUFSET, EVQ.post and XINV. -/
theorem launchWords : Obligations.LaunchWords := by
  refine ⟨?_, ?_, ?_, ?_, evqPost_posts, xinv_takes, ?_⟩
  · intro c a s u hi hh hex p hin
    exact launch_submits c a hi hh hex (readBlock_scratch hi hin)
  · intro c a b s u hi hh hex n p bs hin hn hbad hlack s2
    have hread := readBlock_scratch hi hin
    exact ⟨bufset_writes c a b hi hh hex hread hn hbad hlack, fun hq => bufset_goesOn c a b hi hh hex hread hn hbad hlack hq⟩
  · intro c a s u s1 bs hi hh hex p hread
    exact launch_submits c a hi hh hex hread
  · intro c a b s u s1 bs hi hh hex n hread hn hbad hlack s2
    exact ⟨bufset_writes c a b hi hh hex hread hn hbad hlack, fun hq => bufset_goesOn c a b hi hh hex hread hn hbad hlack hq⟩
  · intro c a b s u hi hh hex v hout
    exact evqPost_traps c a b hi hh hex hout

end Sys2Proof.Laws

end

section
/-! SUPPORT. Engine commands (R147, R148): the checks of the block, and the command that is captured. -/

open Sys2Proof Sys2Proof.Machine

namespace Sys2Proof.Laws

/-! ### The checks -/

theorem aside_cmdIssue (u : Iss) (kind : CmdKind) (tile : Nat) (e : Eng) (p : Long) (s : State) : Aside s (cmdIssue u kind tile e p s).1 := by
  have h := aside_readBlock u p (blockBytes kind) 64 s
  unfold cmdIssue
  split
  · exact aside_refl s
  · split
    all_goals next hs => rw [hs] at h; exact h

theorem firstFail_none {l : List (Nat × Bool)} (h : ∀ k ∈ l, k.2 = true) : firstFail l = none := by
  unfold firstFail
  rw [List.filter_eq_nil_iff.mpr fun k hk => by simp [h k hk]]
  rfl

/-- A block in the scratchpad that passes its checks goes to an engine that has room. -/
theorem cmdIssue_goes {s : State} {c : Ctl} {u : Iss} (hi : issuing s c = some u) {kind : CmdKind} {tile : Nat} {e : Eng} {p : Long} {en : EngineId}
    (hbar : e.bar = true → (barGet s u.x (barIdx e.b)).target ≠ 0) (hin : inScratch u.x p (blockBytes kind) 64)
    (htile : kind = .copyPl → hCfg (handleOf u.x tile) = true)
    (hchecks : ∀ k ∈ cmdChecks s.selfPkg kind (handleOf u.x tile) (readBytes u.x.scratch (ptrOff p) (blockBytes kind)), k.2 = true)
    (hlocal : localOutside u.x (localRanges kind (handleOf u.x tile) (readBytes u.x.scratch (ptrOff p) (blockBytes kind))) = none)
    (hen : cmdEngine s kind u.x.core u.c.part = some en) (hroom : engineRoom s en = true) :
    cmdIssue u kind tile e p s = (s, .go en (readBytes u.x.scratch (ptrOff p) (blockBytes kind))) := by
  have hset : barUnset s u e = false := by
    rw [barUnset]
    cases hb : e.bar with
    | false => rfl
    | true => simpa using hbar hb
  have hcfg : ¬(kind = .copyPl ∧ (!hCfg (handleOf u.x tile)) = true) := by
    rintro ⟨hk, hc⟩
    rw [htile hk] at hc
    cases hc
  rw [cmdIssue, hset, if_neg Bool.false_ne_true, readBlock_scratch hi hin]
  dsimp only
  rw [cmdTests, if_neg hcfg, firstFail_none hchecks, hlocal, hen]
  dsimp only
  rw [if_pos hroom]

/-! ### The command -/

/-- What the capture of a command leaves: its rank, the platform and the tables. -/
theorem writesAside_cmdCapture {s s1 : State} {c : Ctl} {u : Iss} (hi : issuing s c = some u) (h1 : Aside s s1) (w : IWord) (kind : CmdKind)
    (tile : Nat) (e : Eng) (p : Long) (en : EngineId) (b : List Byte) : WritesAside u s (cmdCapture u w kind tile e p en b s1) := by
  obtain ⟨-, -, hk, -⟩ := issuing_spec hi
  have hk1 : rank? s1 u.g u.r = some u.k := by rw [rank?, group?, h1.groups]; exact hk
  unfold cmdCapture
  extract_lets r h user cmd source s2
  obtain ⟨hg2, hp2, ht2⟩ : s2.groups = s1.groups ∧ s2.plat = s1.plat ∧ s2.tabs = s1.tabs := by
    unfold s2 source r
    split <;> exact ⟨rfl, rfl, rfl⟩
  have hk2 : rank? s2 u.g u.r = some u.k := by rw [rank?, group?, hg2]; exact hk1
  clear_value s2
  split
  · obtain ⟨hrank, hplat, htabs⟩ := writesAside_modGroup hk2 (f := fun x => { x with handles := sput 0 tile (hSetInuse (handleOf x tile) (((hInuse (handleOf x tile) : Nat) + (1 : Int)).toNat)) x.handles })
      fun _ => rfl
    exact ⟨hrank, hplat.trans (hp2.trans h1.plat), htabs.trans (ht2.trans h1.tabs)⟩
  · exact ⟨⟨u.k, hk2, rfl⟩, hp2.trans h1.plat, ht2.trans h1.tabs⟩

theorem cmdCapture_cmd (u : Iss) (w : IWord) (kind : CmdKind) (tile : Nat) (e : Eng) (p : Long) (en : EngineId) (b : List Byte) (s : State) :
    ∃ c, sget s.fresh (cmdCapture u w kind tile e p en b s).cmds = some c ∧ c.kind = kind ∧ c.engine = en ∧ c.group = u.g ∧
      c.rank = u.r ∧ c.ctx = u.x.ctx ∧ c.word = w ∧ c.pc = u.pc ∧ c.blockPtr = p ∧ c.st = .waiting ∧ c.prog = 0 ∧ c.numbered = e.tl := by
  unfold cmdCapture
  extract_lets r h user cmd source s2
  refine ⟨cmd, ?_, rfl, rfl, rfl, rfl, rfl, rfl, rfl, rfl, rfl, rfl, rfl⟩
  have hget : sget s.fresh s2.cmds = some cmd := sget_sset_same s.fresh cmd r.1.cmds
  split <;> exact hget

theorem engineWord_goes {i : Instr} {kind : CmdKind} {tile : Nat} {e : Eng} (he : ∀ s, exec i s = engineWord i kind tile e s) {s s1 : State} {u : Iss}
    {en : EngineId} {b : List Byte} (hi : issuing s e.c = some u) (hh : hurdle s u i = none) (hex : u.ex ≠ 0)
    (hgo : cmdIssue u kind tile e (BitVec.ofNat 64 (readOpnd s.clk u .b64 0 e.a 0)) s = (s1, .go en b)) :
    ∃ t, exec i s = .next t ∧
      AfterWord u (setD u .b64 e.d (fun _ => if e.tl then (timeline s1 u.x.ctx (cmdTl kind)).taken + 1 else 0)
        (cmdCapture u (encode i) kind tile e (BitVec.ofNat 64 (readOpnd s.clk u .b64 0 e.a 0)) en b s1)) t := by
  have h1 : Aside s s1 := by
    have h := aside_cmdIssue u kind tile e (BitVec.ofNat 64 (readOpnd s.clk u .b64 0 e.a 0)) s
    rw [hgo] at h
    exact h
  obtain ⟨⟨k, hk, hthreads⟩, hplat, htabs⟩ := writesAside_cmdCapture hi h1 (encode i) kind tile e (BitVec.ofNat 64 (readOpnd s.clk u .b64 0 e.a 0)) en b
  generalize hp : BitVec.ofNat 64 (readOpnd s.clk u .b64 0 e.a 0) = p at *
  refine ⟨keep s (finish e.c (encode i) u (setD u .b64 e.d (fun _ => if e.tl then (timeline s1 u.x.ctx (cmdTl kind)).taken + 1 else 0)
    (cmdCapture u (encode i) kind tile e p en b s1))), ?_, ?_⟩
  · rw [he, engineWord, asRank_next hi hh]
    dsimp only
    rw [if_neg hex, hp, hgo]
  · generalize cmdCapture u (encode i) kind tile e p en b s1 = s2 at *
    exact after_keep hplat htabs (finish_after hi (setD_rank s2 u .b64 e.d _ k hk) ((writeAll_frame ..).1.trans hthreads))

theorem engineWord_traps {i : Instr} {kind : CmdKind} {tile : Nat} {e : Eng} (he : ∀ s, exec i s = engineWord i kind tile e s) {s s1 : State} {u : Iss}
    {c : BitVec 16} {v : Long} (hi : issuing s e.c = some u) (hh : hurdle s u i = none) (hex : u.ex ≠ 0)
    (htrap : cmdIssue u kind tile e (BitVec.ofNat 64 (readOpnd s.clk u .b64 0 e.a 0)) s = (s1, .trap c v)) :
    exec i s = .next (keep s (trapAt u (encode i) c v s1)) := by
  rw [he, engineWord, asRank_next hi hh]
  dsimp only
  rw [if_neg hex, htrap]

/-- Settles O37: the commands that are captured, and the checks that trap. -/
theorem engineWords : Obligations.EngineWords := by
  unfold Obligations.EngineWords
  intro goes runs
  have hgoes : ∀ i kind tile e, (∀ s, exec i s = engineWord i kind tile e s) → goes i kind tile e := by
    intro i kind tile e he s u s1 en b hi hh hex p hgo
    exact ⟨engineWord_goes he hi hh hex hgo, cmdCapture_cmd ..⟩
  have hruns : ∀ i kind tile e, (∀ s, exec i s = engineWord i kind tile e s) → runs i kind tile e := by
    intro i kind tile e he s u en hi hh hex p b h hbar hin htile hchecks hlocal hen hroom
    exact engineWord_goes he hi hh hex (cmdIssue_goes hi hbar hin htile hchecks hlocal hen hroom)
  refine ⟨⟨fun e => hruns _ _ _ _ (exec_copy e), fun t e => hruns _ _ _ _ (exec_copyPl t e), fun e => hruns _ _ _ _ (exec_gather e),
    fun e => hruns _ _ _ _ (exec_scadd e), fun e => hruns _ _ _ _ (exec_sort e), fun e => hruns _ _ _ _ (exec_coll e)⟩,
    fun e => hgoes _ _ _ _ (exec_copy e), fun t e => hgoes _ _ _ _ (exec_copyPl t e), fun e => hgoes _ _ _ _ (exec_gather e),
    fun e => hgoes _ _ _ _ (exec_scadd e), fun e => hgoes _ _ _ _ (exec_sort e), fun e => hgoes _ _ _ _ (exec_coll e), ?_⟩
  intro i kind tile e s u s1 c v hform hi hh hex htrap
  simp only [List.mem_cons, List.not_mem_nil, or_false, Prod.mk.injEq] at hform
  obtain ⟨rfl, rfl, rfl⟩ | ⟨rfl, rfl, rfl⟩ | ⟨rfl, rfl, rfl⟩ | ⟨rfl, rfl, rfl⟩ | ⟨rfl, rfl, rfl⟩ := hform
  · exact engineWord_traps (exec_copy e) hi hh hex htrap
  · exact engineWord_traps (exec_gather e) hi hh hex htrap
  · exact engineWord_traps (exec_scadd e) hi hh hex htrap
  · exact engineWord_traps (exec_sort e) hi hh hex htrap
  · exact engineWord_traps (exec_coll e) hi hh hex htrap

end Sys2Proof.Laws

end

section
/-! SUPPORT. The memory words (R123 to R135): issue, wait and precise fault. -/

open Sys2Proof Sys2Proof.Machine

namespace Sys2Proof.Laws

/-! ### What an issue leaves of its rank -/

/-- Rank r of group g keeps its threads; the platform and the tables stay. -/
structure Past (g r : Nat) (s t : State) : Prop where
  rank : ∀ k, rank? s g r = some k → ∃ k', rank? t g r = some k' ∧ k'.threads = k.threads
  plat : t.plat = s.plat
  tabs : t.tabs = s.tabs

theorem past_refl (g r : Nat) (s : State) : Past g r s s := ⟨fun k h => ⟨k, h, rfl⟩, rfl, rfl⟩

theorem past_trans {g r : Nat} {a b c : State} (h : Past g r a b) (h' : Past g r b c) : Past g r a c := by
  refine ⟨fun k hk => ?_, h'.plat.trans h.plat, h'.tabs.trans h.tabs⟩
  obtain ⟨k1, hk1, hth⟩ := h.rank k hk
  obtain ⟨k2, hk2, hth'⟩ := h'.rank k1 hk1
  exact ⟨k2, hk2, hth'.trans hth⟩

theorem past_groups {g r : Nat} {s t : State} (hg : t.groups = s.groups) (hp : t.plat = s.plat) (ht : t.tabs = s.tabs) : Past g r s t :=
  ⟨fun k hk => ⟨k, by rw [rank?, group?, hg]; exact hk, rfl⟩, hp, ht⟩

theorem past_aside {g r : Nat} {s t : State} (h : Aside s t) : Past g r s t := past_groups h.groups h.plat h.tabs

theorem past_modRank {g r g' r' : Nat} {f : Rank → Rank} (h : ∀ k, (f k).threads = k.threads) (s : State) : Past g r s (modRank g' r' f s) := by
  refine ⟨fun k hk => ?_, rfl, rfl⟩
  rw [rank_modRank]
  split
  · rw [hk]
    exact ⟨f k, rfl, h k⟩
  · exact ⟨k, hk, rfl⟩

theorem past_modGroup {g r g' : Nat} {f : Group → Group} (h : ∀ x, (f x).ranks = x.ranks) (s : State) : Past g r s (modGroup g' f s) := by
  refine ⟨fun k hk => ⟨k, ?_, rfl⟩, rfl, rfl⟩
  by_cases hg : g = g'
  · subst hg
    rw [rank_modGroup_same]
    simp only [h]
    exact hk
  · rw [rank_modGroup_other f s hg, hk]

theorem past_foldl {g r : Nat} {α : Type} {f : State → α → State} (h : ∀ s a, Past g r s (f s a)) (l : List α) (s : State) :
    Past g r s (l.foldl f s) := by
  induction l generalizing s with
  | nil => exact past_refl g r s
  | cons a l ih => exact past_trans (h s a) (ih _)

/-! ### The accesses -/

theorem past_resolve {g r : Nat} (s : State) (a : Access) : Past g r s (resolve s a).1 := by
  unfold resolve
  dsimp only
  split
  · exact past_refl g r s
  · exact past_refl g r s
  · split
    · exact past_refl g r s
    · exact past_groups rfl rfl rfl
    · exact past_refl g r s
    · exact past_refl g r s

theorem past_enterPath {g r : Nat} (n : Nat) (s : State) : Past g r s (enterPath n s) := by
  unfold enterPath
  split
  · exact past_refl g r s
  · next a _ =>
    split
    · have h := past_resolve (g := g) (r := r) s a
      split
      · next hs =>
        rw [hs] at h
        exact past_trans h (past_groups rfl rfl rfl)
      · exact past_refl g r s
    · exact past_refl g r s

theorem past_queuePiece {g r : Nat} (u : Iss) (m : MemOp) (e : Entry) (el : Elem) (id off len wholeOff : Nat) (target : Target) (home path : Nat)
    (s : State) : Past g r s (queuePiece u m e el id off len wholeOff target home path s) := by
  unfold queuePiece
  dsimp only
  refine past_trans ?_ (past_enterPath _ _)
  exact past_groups rfl rfl rfl

theorem past_countUp {g r : Nat} (g' r' dst path : Nat) (s : State) : Past g r s (countUp g' r' dst path s) := by
  refine past_modRank ?_ s
  exact fun _ => rfl

theorem past_countDown {g r : Nat} (g' r' dst path : Nat) (s : State) : Past g r s (countDown g' r' dst path s) := by
  refine past_modRank ?_ s
  exact fun _ => rfl

theorem past_countPiece {g r : Nat} (u : Iss) (home path : Nat) (was : Option Nat) (s : State) : Past g r s (countPiece u home path was s) := by
  unfold countPiece
  split
  · exact past_trans (past_countDown ..) (past_countUp ..)
  · exact past_countUp ..

theorem past_localWrite {g r : Nat} (g' region off : Nat) (bs : List Byte) (s : State) : Past g r s (localWrite g' region off bs s) := by
  unfold localWrite
  exact past_modGroup (fun x => by split <;> rfl) s

theorem past_localAccess {g r : Nat} (g' : Nat) (m : MemOp) (e : Elem) (region off : Nat) (s : State) :
    Past g r s (localAccess g' m e region off s).1 := by
  unfold localAccess
  split
  · exact past_refl g r s
  · dsimp only
    split
    · exact past_refl g r s
    · split
      · exact past_localWrite ..
      · exact past_localWrite ..

theorem past_issueElem {g r : Nat} (u : Iss) (m : MemOp) (e : Entry) (el : Elem) (p : Place) (s : State) : Past g r s (issueElem u m e el p s).1 := by
  unfold issueElem
  split
  · exact past_localAccess ..
  · dsimp only
    refine past_trans ?_ (past_foldl (fun s q => past_queuePiece ..) _ _)
    exact past_groups rfl rfl rfl
  · next home buf off =>
    have hput : ∀ (put : State → Nat × Nat → State) (l : List (Nat × Nat)) (s0 : State), (∀ s q, Past g r s (put s q)) → Past g r s s0 →
        Past g r s (l.foldl put s0) := fun put l s0 h h0 => past_trans h0 (past_foldl h l s0)
    extract_lets id path put ps again fab s1
    have hs1 : Past g r s s1 := by
      refine hput put ps _ (fun s q => ?_) (past_groups rfl rfl rfl)
      unfold put
      dsimp only
      split
      · exact past_trans (past_queuePiece ..) (past_countPiece ..)
      · exact past_queuePiece ..
    clear_value s1
    dsimp only
    split
    · exact past_trans hs1 (past_groups rfl rfl rfl)
    · exact hs1

theorem past_issueElems {g r : Nat} (u : Iss) (m : MemOp) (e : Entry) (ps : List (Elem × Place)) (acc : State × List (Nat × Nat × List Byte) × Nat) :
    Past g r acc.1 (issueElems u m e ps acc).1 := by
  induction ps generalizing acc with
  | nil => exact past_refl g r acc.1
  | cons p ps ih =>
    obtain ⟨el, p⟩ := p
    obtain ⟨s, got, n⟩ := acc
    unfold issueElems
    exact past_trans (past_issueElem u m e el p s)
      (ih ((issueElem u m e el p s).1, got ++ (issueElem u m e el p s).2.1, n + (issueElem u m e el p s).2.2))

theorem writes_threads {α : Type} (l : List α) (f : Rank → α → Rank) (h : ∀ k a, (f k a).threads = k.threads) (k : Rank) :
    (l.foldl f k).threads = k.threads := by
  induction l generalizing k with
  | nil => rfl
  | cons a l ih => exact (ih _).trans (h k a)

theorem deliver_threads (m : MemOp) (e : Entry) (k : Rank) : (deliver m e k).threads = k.threads := by
  unfold deliver
  split
  · rfl
  · rfl
  · split
    · rfl
    · exact (writeOpnd_frame ..).1
  · exact writes_threads _ _ (fun k t => (writeOpnd_frame ..).1) k
  · split
    · rfl
    · split
      · cases (threadsOf e.mask).head? with
        | none => rfl
        | some t => exact (writeOpnd_frame ..).1
      · exact writes_threads _ _ (fun k t => (writeOpnd_frame ..).1) k

theorem past_issuePlaced {g r : Nat} (u : Iss) (m : MemOp) (e : Entry) (ps : List (Elem × Place)) (s : State) :
    Past g r s (issuePlaced u m e ps s) := by
  unfold issuePlaced
  dsimp only
  split
  · exact past_trans (past_issueElems u m e ps (s, [], 0)) (past_modRank (fun k => deliver_threads ..) _)
  · refine past_trans (past_issueElems u m e ps (s, [], 0)) (past_modRank ?_ _)
    exact fun _ => rfl

theorem past_takeTags {g r : Nat} (cid n : Nat) (s : State) : Past g r s (takeTags cid n s).1 := by
  obtain ⟨hgroups, hplat, htabs⟩ := takeTags_aside cid n s
  exact past_groups hgroups hplat htabs

theorem past_translatePieces {g r : Nat} (cid core : Nat) (p : Long) (rs : List Right) (l : List (Nat × Nat)) (got : List (Nat × Nat × Nat)) (s : State) :
    Past g r s (translatePieces cid core p rs l got s).1 := by
  induction l generalizing got s with
  | nil => exact past_refl g r s
  | cons q rest ih =>
    unfold translatePieces
    extract_lets step
    have hstep : ∀ (rs : List Right) (acc : State × Xlat), Past g r acc.1 (rs.foldl step acc).1 := by
      intro rs
      induction rs with
      | nil => exact fun acc => past_refl g r acc.1
      | cons right rs ih' =>
        intro acc
        refine past_trans ?_ (ih' (step acc right))
        unfold step
        split
        · exact past_aside (aside_translate ..)
        · exact past_refl g r acc.1
    have h := hstep rs (s, .ok 0)
    split
    · next hs => rw [hs] at h; exact past_trans h (ih _ _)
    · next hs => rw [hs] at h; exact h
    · next hs => rw [hs] at h; exact h
    · next hs => rw [hs] at h; exact h

theorem past_placeAccess {g r : Nat} (m : MemOp) (cid core : Nat) (x : Group) (p : Long) (s : State) :
    Past g r s (placeAccess m cid core x p s).1 := by
  unfold placeAccess
  dsimp only
  split
  · exact past_refl g r s
  · split
    · exact past_refl g r s
    · split
      · exact past_refl g r s
      · exact past_refl g r s
      · exact past_translatePieces ..

theorem past_placeAll {g r : Nat} (m : MemOp) (cid core : Nat) (x : Group) (l : List Elem) (got : List (Elem × Place)) (s : State) :
    Past g r s (placeAll m cid core x l got s).1 := by
  induction l generalizing got s with
  | nil => exact past_refl g r s
  | cons e rest ih =>
    have h := past_placeAccess (g := g) (r := r) m cid core x e.s.a s
    unfold placeAll
    split
    · next hs => rw [hs] at h; exact past_trans h (ih _ _)
    · next hs => rw [hs] at h; exact h
    · next hs => rw [hs] at h; exact past_trans h (past_aside (aside_askLine ..))

/-! ### The word -/

/-- The path goes on past the word from a state that differs in the ply alone. -/
theorem closePass_after {c cc : Ctl} {u : Iss} {s0 s s1 : State} {k k1 : Rank} (hi : issuing s0 cc = some u) (hk : rank? s u.g u.r = some k)
    (hth : k.threads = u.k.threads) (hsame : SameOutside u.g u.r s s1) (hk1 : rank? s1 u.g u.r = some k1) (hply : k1.noPly = k.noPly)
    (hth1 : k1.threads = k.threads) : AfterWord u s (closePass c false u (advancePcs u s1)) := by
  obtain ⟨-, -, -, -, -, hpath, hpc, hactive, hex⟩ := issuing_spec hi
  obtain ⟨hlen, hne, hall⟩ := pathOk_spec hpath
  have hrows : ((List.range k1.threads.length).map fun t =>
      if u.active.getLsbD t && !(k1.thread t).exited && (k1.thread t).pc == u.pc then { k1.thread t with pc := ptrAdd u.pc 12 } else k1.thread t) =
      rowsAfter u (fun _ x => { x with pc := ptrAdd u.pc 12 }) k := by
    rw [rowsAfter, ← hth1]
    refine List.map_congr_left fun t _ => ?_
    rw [thread_congr hth1 t, thread_congr hth t]
    by_cases hact : u.active.getLsbD t = true
    · obtain ⟨-, he, -, hat⟩ := hall t (hactive ▸ hact)
      simp [hact, he, hat, hpc]
    · rw [Bool.not_eq_true] at hact
      have hx : u.ex.getLsbD t = false := by rw [hex, ← hactive, BitVec.getLsbD_and, hact, Bool.false_and]
      simp [hact, hx]
  have hk2 : rank? (advancePcs u s1) u.g u.r = some { k1 with threads := rowsAfter u (fun _ x => { x with pc := ptrAdd u.pc 12 }) k } := by
    unfold advancePcs
    dsimp only
    rw [rank_modRank_some hk1, hrows]
  obtain ⟨t, ht⟩ := List.exists_mem_of_ne_nil _ (threadsOf_ne_nil hne)
  rw [mem_threadsOf] at ht
  obtain ⟨hlt, he, hp, -⟩ := hall t ht.2
  have hrow : ({ k1 with threads := rowsAfter u (fun _ x => { x with pc := ptrAdd u.pc 12 }) k } : Rank).thread t =
      { u.k.thread t with pc := ptrAdd u.pc 12 } := by
    have hact : u.active.getLsbD t = true := by rw [hactive]; exact ht.2
    refine (thread_of_map k1 _ k.threads.length _ rfl t (by rw [hth, hlen]; exact hlt)).trans ?_
    rw [thread_congr hth t, hact]
    simp
  obtain ⟨hend, k3, hk3, hply3, hth3⟩ := closePass_spec c false u _ _ hk2 t hlt (by rw [hrow]; exact he) (by rw [hrow]; exact hp)
  exact ⟨⟨k, k3, hk, hk3, hply3.trans hply, hth3⟩, same_trans hsame (same_trans (same_modRank ..) hend)⟩

/-- LR's mark is in the ply alone. -/
theorem noteLr_spec (u : Iss) (m : MemOp) {s : State} {k : Rank} (hk : rank? s u.g u.r = some k) :
    SameOutside u.g u.r s (noteLr u m s) ∧ ∃ k1, rank? (noteLr u m s) u.g u.r = some k1 ∧ k1.noPly = k.noPly ∧ k1.threads = k.threads := by
  unfold noteLr
  split
  · exact ⟨same_modRank .., _, rank_modRank_some hk, rfl, rfl⟩
  · exact ⟨same_refl .., k, hk, rfl, rfl⟩

/-- How many tags a memory word takes. -/
abbrev tagsTaken (u : Iss) (m : MemOp) : Nat := if m.isLoad then 0 else m.count u.ex

/-- The entry that a memory word is captured with. -/
abbrev captured (i : Instr) (m : MemOp) (s : State) (u : Iss) : Entry :=
  memEntry s.clk u (encode i) m s.fresh (takeTags u.x.ctx (tagsTaken u m) s).2

/-- Where a memory word's accesses lie. -/
abbrev placed (i : Instr) (m : MemOp) (s : State) (u : Iss) : State × List (Elem × Place) × Option Flt :=
  placeAll m u.x.ctx u.x.core u.x (elemsOf m (captured i m s u).mask (captured i m s u).slots) [] s

/-- The state with n tags taken and the entry's number given. -/
abbrev withTags (u : Iss) (n : Nat) (s : State) : State := { (takeTags u.x.ctx n s).1 with fresh := s.fresh + 1 }

theorem past_withTags {g r : Nat} (u : Iss) (n : Nat) (s : State) : Past g r s (withTags u n s) := by
  refine past_trans (past_takeTags u.x.ctx n s) ?_
  exact past_groups rfl rfl rfl

/-- A memory word whose accesses are placed goes on. -/
theorem memIssue_goesOn {i : Instr} {m : MemOp} (he : ∀ s, exec i s = memIssue i m s) {s s1 : State} {u : Iss} {ps : List (Elem × Place)}
    (hi : issuing s m.c = some u) (hh : hurdle s u i = none) (hplace : placed i m s u = (s1, ps, none)) (hheld : anyLocalHeld s1 u m ps = false) :
    ∃ t, exec i s = .next t ∧ AfterWord u (issuePlaced u m (captured i m s u) ps (withTags u (tagsTaken u m) s1)) t := by
  obtain ⟨-, -, hk, -⟩ := issuing_spec hi
  have h1 : Past u.g u.r s (placed i m s u).1 := past_placeAll ..
  rw [hplace] at h1
  have hexec : exec i s = .next (keep s (closePass m.c false u (advancePcs u (noteLr u m (charged u (encode i)
      (issuePlaced u m (captured i m s u) ps (withTags u (tagsTaken u m) s1))))))) := by
    rw [he, memIssue, asRank_next hi hh]
    dsimp only
    unfold placed captured tagsTaken at hplace
    rw [hplace]
    dsimp only
    rw [hheld, if_neg Bool.false_ne_true]
  generalize captured i m s u = e at *
  have h2 : Past u.g u.r s (issuePlaced u m e ps (withTags u (tagsTaken u m) s1)) :=
    past_trans h1 (past_trans (past_withTags ..) (past_issuePlaced ..))
  generalize issuePlaced u m e ps (withTags u (tagsTaken u m) s1) = s2 at *
  obtain ⟨k, hk2, hth⟩ := h2.rank u.k hk
  obtain ⟨hcharged, b, hb⟩ := charged_spec u (encode i) s2 k hk2
  obtain ⟨hlr, k1, hk1, hply, hth1⟩ := noteLr_spec u m hb
  exact ⟨_, hexec, after_keep h2.plat h2.tabs (closePass_after hi hk2 hth (same_trans hcharged hlr) hk1 hply hth1)⟩

theorem memIssue_held {i : Instr} {m : MemOp} (he : ∀ s, exec i s = memIssue i m s) {s : State} {u : Iss} (hi : issuing s m.c = some u)
    (hh : hurdle s u i = none) (hplace : (placed i m s u).2.2 = none) (hheld : anyLocalHeld (placed i m s u).1 u m (placed i m s u).2.1 = true) :
    exec i s = .next (keep s (stallPly u.g u.r (placed i m s u).1)) := by
  rw [he, memIssue, asRank_next hi hh]
  dsimp only
  unfold placed captured tagsTaken at hplace
  rw [hplace]
  dsimp only
  rw [hheld, if_pos rfl]

theorem memIssue_lacks {i : Instr} {m : MemOp} (he : ∀ s, exec i s = memIssue i m s) {s : State} {u : Iss} {f : Flt} (hi : issuing s m.c = some u)
    (hh : hurdle s u i = none) (hplace : (placed i m s u).2.2 = some f) (hline : f.line ≠ none) :
    exec i s = .next (keep s (stallPly u.g u.r (placed i m s u).1)) := by
  rw [he, memIssue, asRank_next hi hh]
  dsimp only
  unfold placed captured tagsTaken at hplace
  rw [hplace]
  dsimp only
  rw [if_pos (Option.isSome_iff_ne_none.mpr hline)]

theorem memIssue_faults {i : Instr} {m : MemOp} (he : ∀ s, exec i s = memIssue i m s) {s : State} {u : Iss} {f : Flt} (hi : issuing s m.c = some u)
    (hh : hurdle s u i = none) (hplace : (placed i m s u).2.2 = some f) (hline : f.line = none) (hstc : m.kind ≠ .stc) :
    exec i s = .next (keep s (memFault u (encode i) m (captured i m s u) f
      { (takeTags u.x.ctx (if f.cause = 0x13 ∨ f.cause = 0x14 then tagsTaken u m else 0) (placed i m s u).1).1 with
        fresh := (placed i m s u).1.fresh + 1 })) := by
  have htags : (if f.cause == 0x13 || f.cause == 0x14 then tagsTaken u m else 0) = if f.cause = 0x13 ∨ f.cause = 0x14 then tagsTaken u m else 0 := by
    simp only [Bool.or_eq_true, beq_iff_eq]
  rw [he, memIssue, asRank_next hi hh]
  dsimp only
  unfold placed captured tagsTaken at hplace
  rw [hplace]
  dsimp only
  rw [hline, Option.isSome_none, if_neg Bool.false_ne_true, if_neg hstc, htags]

/-- R128: an STC one of whose elements fails. -/
theorem stc_faults {i : Instr} {m : MemOp} (he : ∀ s, exec i s = memIssue i m s) {s : State} {u : Iss} {f : Flt} (hi : issuing s m.c = some u)
    (hh : hurdle s u i = none) (hplace : (placed i m s u).2.2 = some f) (hline : f.line = none) (hstc : m.kind = .stc) :
    exec i s = .next (keep s (if anyLocalHeld (placed i m s u).1 u m (placed i m s u).2.1 then stallPly u.g u.r (placed i m s u).1
      else if (placed i m s u).2.1.all fun p => p.2.isLocal then memFault u (encode i) m (captured i m s u) f
        (issueElems u m (captured i m s u) (placed i m s u).2.1 (withTags u (tagsTaken u m) (placed i m s u).1, [], 0)).1
      else breakPly u.g u.r .stopped (modRank u.g u.r (fun k => { k with frameWord := encode i })
        (issueStop u m (captured i m s u) u.active f (placed i m s u).2.1 (charged u (encode i) (withTags u (tagsTaken u m) (placed i m s u).1)))))) := by
  rw [he, memIssue, asRank_next hi hh]
  dsimp only
  unfold placed captured tagsTaken at hplace
  rw [hplace]
  dsimp only
  rw [hline, Option.isSome_none, if_neg Bool.false_ne_true, if_pos hstc]

/-- Accesses by tensor pointers and local ones in their allocation are placed as they stand. -/
theorem placeAll_direct {m : MemOp} {cid core : Nat} {x : Group} {s : State} {l : List Elem} (got : List (Elem × Place))
    (h : ∀ y ∈ l, m.reaches s.selfPkg y.s.a = true ∧ (m.aligned = true → ptrOff y.s.a % m.bytes = 0) ∧
      (ptrSpace y.s.a = .tensor ∨ ptrSpace y.s.a = .loc ∧ ptrOff y.s.a + m.bytes ≤ localSize x (ptrRegion y.s.a))) :
    placeAll m cid core x l got s = (s, got ++ l.map fun y => (y, if ptrSpace y.s.a = .tensor then
      Place.ten (ptrHome y.s.a) (ptrBuf y.s.a) (ptrOff y.s.a) else .loc (ptrRegion y.s.a) (ptrOff y.s.a)), none) := by
  induction l generalizing got with
  | nil => rw [placeAll, List.map_nil, List.append_nil]
  | cons y l ih =>
    obtain ⟨hr, ha, hspace⟩ := h y (List.mem_cons_self ..)
    have hplace : placeAccess m cid core x y.s.a s = (s, .ok (if ptrSpace y.s.a = .tensor then
        Place.ten (ptrHome y.s.a) (ptrBuf y.s.a) (ptrOff y.s.a) else .loc (ptrRegion y.s.a) (ptrOff y.s.a))) := by
      rcases hspace with ht | ⟨hl, hsize⟩
      · rw [placeAccess_tensor hr ht ha, if_pos ht]
      · rw [placeAccess_local hr hl ha, if_neg (Nat.not_lt.mpr hsize), if_neg (by rw [hl]; decide)]
    rw [placeAll, hplace]
    dsimp only
    rw [ih _ fun z hz => h z (List.mem_cons_of_mem _ hz), List.map_cons, List.append_assoc, List.singleton_append]

theorem memIssue_direct {i : Instr} {m : MemOp} (he : ∀ s, exec i s = memIssue i m s) {s : State} {u : Iss} (hi : issuing s m.c = some u)
    (hh : hurdle s u i = none) (hall : ∀ y ∈ elemsOf m (captured i m s u).mask (captured i m s u).slots,
      m.reaches s.selfPkg y.s.a = true ∧ (m.aligned = true → ptrOff y.s.a % m.bytes = 0) ∧
      (ptrSpace y.s.a = .tensor ∨ ptrSpace y.s.a = .loc ∧ ptrOff y.s.a + m.bytes ≤ localSize u.x (ptrRegion y.s.a) ∧ localHeld s u m y.t = false)) :
    ∃ t, exec i s = .next t ∧ AfterWord u (issuePlaced u m (captured i m s u)
      ((elemsOf m (captured i m s u).mask (captured i m s u).slots).map fun y => (y, if ptrSpace y.s.a = .tensor then
        Place.ten (ptrHome y.s.a) (ptrBuf y.s.a) (ptrOff y.s.a) else .loc (ptrRegion y.s.a) (ptrOff y.s.a))) (withTags u (tagsTaken u m) s)) t := by
  refine memIssue_goesOn he hi hh (placeAll_direct [] fun y hy => ?_) ?_
  · obtain ⟨hr, ha, hspace⟩ := hall y hy
    exact ⟨hr, ha, hspace.imp_right fun h => ⟨h.1, h.2.1⟩⟩
  · rw [anyLocalHeld, List.any_eq_false]
    intro p hp
    obtain ⟨y, hy, rfl⟩ := List.mem_map.mp hp
    obtain ⟨-, -, hspace⟩ := hall y hy
    rcases hspace with ht | ⟨hl, -, hfree⟩
    · simp [ht]
    · simp [hl, hfree]

/-- Settles O31: issue, wait and precise fault of the memory words. -/
theorem memoryIssue : Obligations.MemoryIssue := by
  unfold Obligations.MemoryIssue
  intro goes
  have hgoes : ∀ i m, (∀ s, exec i s = memIssue i m s) → goes i m := by
    intro i m he s u hi hh n e pl s1 el
    refine ⟨fun hnone hheld => memIssue_goesOn he hi hh (Prod.ext rfl (Prod.ext rfl hnone)) hheld, fun hnone hheld => memIssue_held he hi hh hnone hheld,
      fun f hf hline => memIssue_lacks he hi hh hf hline, fun f hf hline hstc => memIssue_faults he hi hh hf hline hstc, ?_, ?_,
      fun hall => memIssue_direct he hi hh hall⟩
    · intro f hf hline hstc hheld
      rw [stc_faults he hi hh hf hline hstc, if_pos hheld]
    · intro f hf hline hstc hheld
      have hfree : ¬anyLocalHeld (placed i m s u).1 u m (placed i m s u).2.1 = true := ne_true_of_eq_false hheld
      refine ⟨fun hlocal => ?_, fun ⟨p, hp, hfar⟩ => ?_⟩
      · rw [stc_faults he hi hh hf hline hstc, if_neg hfree, if_pos (List.all_eq_true.mpr hlocal)]
      · rw [stc_faults he hi hh hf hline hstc, if_neg hfree, if_neg]
        intro hlocal
        rw [List.all_eq_true.mp hlocal p hp] at hfar
        cases hfar
  exact ⟨fun x => hgoes _ _ (exec_ld x), fun x => hgoes _ _ (exec_ldu x), fun x => hgoes _ _ (exec_ldx x), fun x => hgoes _ _ (exec_lr x),
    fun x => hgoes _ _ (exec_st x), fun x => hgoes _ _ (exec_stc x), fun x => hgoes _ _ (exec_sc x), fun x => hgoes _ _ (exec_atom x),
    fun x => hgoes _ _ (exec_xst x), fun x => hgoes _ _ (exec_xatom x)⟩

end Sys2Proof.Laws

end

section
/-! SUPPORT. Loads and stores of the scratchpad and the plane store (R123, R125, R277). -/

open Sys2Proof Sys2Proof.Machine

namespace Sys2Proof.Laws

/-! ### The slots of an entry -/

/-- What a thread's slot would hold were every operand its own. -/
abbrev fullSlot (clk : Nat) (u : Iss) (m : MemOp) (t : Nat) : Slot :=
  { a := ptrAdd (BitVec.ofNat 64 (readOpnd clk u .b64 0 m.a t)) m.disp, b := BitVec.ofNat 128 (readOpnd clk u m.ty 0 m.b t),
    c := BitVec.ofNat 64 (readOpnd clk u m.ty 0 m.x t) }

theorem readOpnd_rankWide {o : Opnd} (h : rankWide o = true) (clk : Nat) (u : Iss) (ty : Ty) (imm : Word) (t t' : Nat) :
    readOpnd clk u ty imm o t = readOpnd clk u ty imm o t' := by
  cases o with
  | v i => cases h
  | o i => cases h
  | y i => cases h
  | p i => cases h
  | sp x => cases x with
    | tid => cases h
    | _ => rfl
  | _ => rfl

/-- Slots written one thread after the other. -/
theorem sgetD_foldl_sput {α : Type} [DecidableEq α] (d : α) (v : Nat → α) (l : List Nat) {m : Sparse α} (h : rising (m.map (·.1)) = true) :
    rising ((l.foldl (fun acc t => sput d t (v t) acc) m).map (·.1)) = true ∧
    ∀ j, sgetD j d (l.foldl (fun acc t => sput d t (v t) acc) m) = if j ∈ l then v j else sgetD j d m := by
  induction l generalizing m with
  | nil => exact ⟨h, fun j => (if_neg List.not_mem_nil).symm⟩
  | cons t l ih =>
    obtain ⟨hr, hget⟩ := ih (rising_sput d t (v t) m h)
    refine ⟨hr, fun j => ?_⟩
    rw [List.foldl_cons, hget, sgetD_sput d _ _ _ _ h]
    by_cases hl : j ∈ l
    · rw [if_pos hl, if_pos (List.mem_cons_of_mem _ hl)]
    · rw [if_neg hl]
      by_cases hj : j = t
      · subst hj
        rw [if_pos rfl, if_pos (List.mem_cons_self ..)]
      · rw [if_neg hj, if_neg (by simp [hj, hl])]

/-- The slot of a thread holds what the thread's operands read. -/
theorem slotFor_memEntry {m : MemOp} (hu : m.uniform = false) (hp : m.packed = false) (clk : Nat) (u : Iss) (w : IWord) (id k : Nat) (base : BitVec 20)
    {t : Nat} (ht : t ∈ threadsOf u.ex) : m.slotFor (memEntry clk u w m id base).slots k t = fullSlot clk u m t := by
  have hA : m.uniA = rankWide m.a := by rw [MemOp.uniA, hu, Bool.false_or]
  have hB : m.uniB = rankWide m.b := by rw [MemOp.uniB, hu, Bool.false_or]
  have hX : m.uniX = rankWide m.x := by rw [MemOp.uniX, hu, Bool.false_or]
  have hall : ∀ t', (rankWide m.a = true → (fullSlot clk u m t').a = (fullSlot clk u m t).a) ∧
      (rankWide m.b = true → (fullSlot clk u m t').b = (fullSlot clk u m t).b) ∧
      (rankWide m.x = true → (fullSlot clk u m t').c = (fullSlot clk u m t).c) := fun t' =>
    ⟨fun h => by simp only [readOpnd_rankWide h clk u .b64 0 t' t], fun h => by simp only [readOpnd_rankWide h clk u m.ty 0 t' t],
      fun h => by simp only [readOpnd_rankWide h clk u m.ty 0 t' t]⟩
  simp only [memEntry, MemOp.slotFor, hA, hB, hX, hp, Bool.false_eq_true, if_false]
  cases hts : threadsOf u.ex with
  | nil => rw [hts] at ht; cases ht
  | cons t0 rest =>
    dsimp only
    rw [← hts]
    obtain ⟨hr, hget⟩ := sgetD_foldl_sput Slot.zero (fun t => ({
      a := if (!rankWide m.a) = true then (fullSlot clk u m t).a else Slot.zero.a,
      b := if (!rankWide m.b) = true then (fullSlot clk u m t).b else Slot.zero.b,
      c := if (!rankWide m.x) = true then (fullSlot clk u m t).c else Slot.zero.c } : Slot)) (threadsOf u.ex) (m := []) rfl
    simp only [sgetD_sput _ _ _ _ _ hr, hget]
    obtain ⟨ha, hb, hx⟩ := hall t0
    simp only [Slot.mk.injEq, fullSlot] at ha hb hx ⊢
    refine ⟨?_, ?_, ?_⟩
    · cases hw : rankWide m.a with
      | true => simpa only [if_true] using ha hw
      | false =>
        by_cases h0 : t = 0
        · subst h0
          simp only [Bool.false_eq_true, Bool.not_false, if_true, if_false, if_pos ht]
        · simp only [Bool.false_eq_true, Bool.not_false, if_true, if_false, if_neg h0, if_pos ht]
    · cases hw : rankWide m.b with
      | true => simpa only [if_true] using hb hw
      | false =>
        by_cases h0 : t = 0
        · subst h0
          simp only [Bool.false_eq_true, Bool.not_false, if_true, if_false, if_pos ht]
        · simp only [Bool.false_eq_true, Bool.not_false, if_true, if_false, if_neg h0, if_pos ht]
    · cases hw : rankWide m.x with
      | true => simpa only [if_true] using hx hw
      | false =>
        by_cases h0 : t = 0
        · subst h0
          simp only [Bool.false_eq_true, Bool.not_false, if_true, if_false, if_pos ht]
        · simp only [Bool.false_eq_true, Bool.not_false, if_true, if_false, if_neg h0, if_pos ht]

/-! ### The elements -/

/-- A word with an element per thread: what is asked of each element is asked of each thread. -/
theorem map_elemsOf {β : Type} {m : MemOp} (hu : m.uniform = false) (mask : Mask) (slots : Sparse Slot) (f : Elem → β) (h : Nat → β)
    (hf : ∀ k, ∀ t ∈ threadsOf mask, f { k := k, t := t, s := m.slotFor slots k t } = h t) :
    (elemsOf m mask slots).map f = (threadsOf mask).map h := by
  have hts : (if m.uniform then (threadsOf mask).take 1 else threadsOf mask) = threadsOf mask := by rw [hu]; rfl
  simp only [elemsOf, hts, List.map_map]
  refine List.ext_getElem (by simp) fun k hk hk' => ?_
  have hlt : k < (threadsOf mask).length := by simpa using hk'
  simp only [List.getElem_map, List.getElem_range, Function.comp_apply, List.getD_eq_getElem _ _ hlt]
  exact hf k _ (List.getElem_mem hlt)

/-- An element's place as its pointer gives it. -/
abbrev placeOf (y : Elem) : Place :=
  if ptrSpace y.s.a = .tensor then Place.ten (ptrHome y.s.a) (ptrBuf y.s.a) (ptrOff y.s.a) else .loc (ptrRegion y.s.a) (ptrOff y.s.a)

theorem placeOf_local {y : Elem} (h : ptrSpace y.s.a = .loc) : placeOf y = .loc (ptrRegion y.s.a) (ptrOff y.s.a) := by
  rw [placeOf, if_neg (by rw [h]; decide)]

/-- Local loads read the group's memory and leave the state. -/
theorem issueElems_loads (u : Iss) {m : MemOp} (e : Entry) {s : State} {x : Group} (hx : group? s u.g = some x) (hl : m.isLoad = true)
    (l : List Elem) (h : ∀ y ∈ l, ptrSpace y.s.a = .loc) (got : List (Nat × Nat × List Byte)) (n : Nat) :
    issueElems u m e (l.map fun y => (y, placeOf y)) (s, got, n) =
      (s, got ++ l.map fun y => (y.t, 0, localRead s x (ptrRegion y.s.a) (ptrOff y.s.a) m.bytes), n) := by
  induction l generalizing got with
  | nil => rw [List.map_nil, List.map_nil, List.append_nil]; rfl
  | cons y l ih =>
    have hone : issueElem u m e y (placeOf y) s = (s, [(y.t, 0, localRead s x (ptrRegion y.s.a) (ptrOff y.s.a) m.bytes)], 0) := by
      rw [placeOf_local (h y (List.mem_cons_self ..)), issueElem]
      simp only [localAccess, hx, hl, if_true]
    rw [List.map_cons, issueElems, hone]
    dsimp only
    rw [Nat.add_zero, ih fun z hz => h z (List.mem_cons_of_mem _ hz), List.map_cons, List.append_assoc, List.singleton_append]

/-- Local stores write the group's memory, one after the other. -/
theorem issueElems_stores (u : Iss) {m : MemOp} (e : Entry) (hl : m.isLoad = false) (ha : m.isAtomic = false)
    (l : List Elem) (h : ∀ y ∈ l, ptrSpace y.s.a = .loc) (got : List (Nat × Nat × List Byte)) (n : Nat) {s : State} (hx : (group? s u.g).isSome) :
    issueElems u m e (l.map fun y => (y, placeOf y)) (s, got, n) =
      (l.foldl (fun s y => localWrite u.g (ptrRegion y.s.a) (ptrOff y.s.a) (dataBytes m y.s) s) s, got, n) := by
  induction l generalizing s with
  | nil => rfl
  | cons y l ih =>
    have hone : issueElem u m e y (placeOf y) s = (localWrite u.g (ptrRegion y.s.a) (ptrOff y.s.a) (dataBytes m y.s) s, [], 0) := by
      obtain ⟨x, hx⟩ := Option.isSome_iff_exists.mp hx
      rw [placeOf_local (h y (List.mem_cons_self ..)), issueElem]
      simp only [localAccess, hx, hl, ha, Bool.false_eq_true, if_false]
    rw [List.map_cons, issueElems, hone]
    dsimp only
    rw [List.append_nil, Nat.add_zero, List.foldl_cons]
    refine ih (fun z hz => h z (List.mem_cons_of_mem _ hz)) ?_
    unfold localWrite
    rw [group_modGroup, if_pos rfl, Option.isSome_map]
    exact hx

/-! ### The values -/

theorem gotValue_map (v : Nat → List Byte) {l : List Nat} (hl : l.Nodup) {t : Nat} (ht : t ∈ l) :
    gotValue (l.map fun t => (t, 0, v t)) t = leNat (v t) := by
  rw [gotValue, List.filter_map]
  have hone : l.filter ((fun p : Nat × Nat × List Byte => p.1 == t) ∘ fun t => (t, 0, v t)) = [t] := by
    refine (List.filter_beq t).trans ?_
    rw [List.count_eq_one_of_mem hl ht]
    rfl
  rw [hone]
  simp

theorem threadsOf_nodup (m : Mask) : (threadsOf m).Nodup := List.nodup_range.filter _

theorem smod_of_fixed {α : Type} {k : Nat} {f : α → α} {m : Sparse α} (h : ∀ a, sget k m = some a → f a = a) : smod k f m = m := by
  unfold smod
  split
  · next a ha => rw [h a ha, sset_self _ _ _ ha]
  · rfl

theorem takeTags_zero (cid : Nat) (s : State) : (takeTags cid 0 s).1 = s := by
  unfold takeTags
  split
  · rfl
  · have h : smod cid (fun c : Ctx => { c with tagSeq := c.tagSeq + BitVec.ofNat 20 0 }) s.ctxs = s.ctxs := smod_of_fixed fun c _ => by simp
    rw [modCtx, h]

/-- A rank that a function leaves as it is. -/
theorem modRank_of_fixed (g r : Nat) {f : Rank → Rank} (h : ∀ k, f k = k) (s : State) : modRank g r f s = s := by
  have hat : ∀ l : List Rank, modAt l r f = l := by
    intro l
    unfold modAt
    split
    · next a ha =>
      obtain ⟨hlt, rfl⟩ := List.getElem?_eq_some_iff.mp ha
      rw [h, List.set_getElem_self]
    · rfl
  have hg : smod g (fun x => { x with ranks := modAt x.ranks r f }) s.groups = s.groups := smod_of_fixed fun x _ => by rw [hat]
  rw [modRank, modGroup, hg]

/-! ### The words -/

/-- The elements of a memory word. -/
abbrev elemsAt (i : Instr) (m : MemOp) (s : State) (u : Iss) : List Elem := elemsOf m (captured i m s u).mask (captured i m s u).slots

theorem map_elemsAt {β : Type} {m : MemOp} (hu : m.uniform = false) (hp : m.packed = false) (i : Instr) (s : State) (u : Iss) (f : Nat → Slot → β) :
    (elemsAt i m s u).map (fun y => f y.t y.s) = (threadsOf u.ex).map fun t => f t (fullSlot s.clk u m t) := by
  refine map_elemsOf hu _ _ _ _ fun k t ht => ?_
  dsimp only
  rw [slotFor_memEntry hu hp s.clk u _ _ k _ ht]

theorem mem_elemsAt {m : MemOp} (hu : m.uniform = false) (hp : m.packed = false) {i : Instr} {s : State} {u : Iss} {y : Elem} (hy : y ∈ elemsAt i m s u) :
    u.ex.getLsbD y.t = true ∧ y.s = fullSlot s.clk u m y.t := by
  have hin := List.mem_map_of_mem (f := fun y : Elem => (y.t, y.s)) hy
  rw [map_elemsAt hu hp i s u fun t z => (t, z)] at hin
  obtain ⟨t, ht, heq⟩ := List.mem_map.mp hin
  obtain ⟨rfl, hs⟩ := Prod.mk.inj heq
  exact ⟨((mem_threadsOf ..).mp ht).2, hs.symm⟩

/-- Every access of the word is a local one that may be made. -/
def AllLocal (m : MemOp) (s : State) (u : Iss) : Prop :=
  ∀ t, u.ex.getLsbD t = true → ptrOk (fullSlot s.clk u m t).a = true ∧ ptrSpace (fullSlot s.clk u m t).a = .loc ∧
    ptrRegion (fullSlot s.clk u m t).a < 2 ∧ ptrOff (fullSlot s.clk u m t).a + m.bytes ≤ localSize u.x (ptrRegion (fullSlot s.clk u m t).a) ∧
    localHeld s u m t = false

/-- A load or store of local memory alone is issued. -/
theorem memIssue_local {i : Instr} {m : MemOp} (he : ∀ s, exec i s = memIssue i m s) {s : State} {u : Iss} (hi : issuing s m.c = some u)
    (hh : hurdle s u i = none) (hk : m.kind = .ld ∨ m.kind = .st) (hall : AllLocal m s u) :
    ∃ t, exec i s = .next t ∧
      AfterWord u (issuePlaced u m (captured i m s u) ((elemsAt i m s u).map fun y => (y, placeOf y)) (withTags u (tagsTaken u m) s)) t := by
  have hu : m.uniform = false := by rcases hk with hk | hk <;> simp [MemOp.uniform, MemOp.isAtomic, hk]
  have hp : m.packed = false := by rcases hk with hk | hk <;> simp [MemOp.packed, hk]
  have ha : m.aligned = false := by rcases hk with hk | hk <;> simp [MemOp.aligned, MemOp.isAtomic, hk]
  refine memIssue_direct he hi hh fun y hy => ?_
  obtain ⟨hex, hs⟩ := mem_elemsAt hu hp hy
  obtain ⟨hok, hloc, hregion, hsize, hfree⟩ := hall y.t hex
  rw [← hs] at hok hloc hregion hsize
  refine ⟨?_, fun h => (Bool.false_ne_true (ha.symm.trans h)).elim, .inr ⟨hloc, hsize, hfree⟩⟩
  rcases hk with hk | hk <;> simp [MemOp.reaches, hok, hloc, hk, hregion]

theorem elemsAt_local {i : Instr} {m : MemOp} {s : State} {u : Iss} (hu : m.uniform = false) (hp : m.packed = false) (hall : AllLocal m s u) :
    ∀ y ∈ elemsAt i m s u, ptrSpace y.s.a = .loc := by
  intro y hy
  obtain ⟨hex, hs⟩ := mem_elemsAt hu hp hy
  obtain ⟨-, hloc, -⟩ := hall y.t hex
  rwa [← hs] at hloc

/-- R123: LD of the scratchpad or plane store. -/
theorem ld_local {x : LoadOp} {s : State} {u : Iss} (hi : issuing s x.c = some u) (hh : hurdle s u (.ld x) = none)
    (hall : AllLocal (ofLoad .ld x) s u) :
    ∃ t, exec (.ld x) s = .next t ∧ AfterWord u { (modRank u.g u.r (fun k => (threadsOf u.ex).foldl (fun k t =>
      writeOpnd x.ty x.d t (leNat (readBytes (if ptrRegion (fullSlot s.clk u (ofLoad .ld x) t).a = 0 then u.x.scratch else u.x.plane)
        (ptrOff (fullSlot s.clk u (ofLoad .ld x) t).a) (Ty.bits x.ty / 8))) k) k) s) with fresh := s.fresh + 1 } t := by
  obtain ⟨-, hgroup, -⟩ := issuing_spec hi
  obtain ⟨t, hexec, hafter⟩ := memIssue_local (exec_ld x) hi hh (.inl rfl) hall
  refine ⟨t, hexec, ?_⟩
  have htags : withTags u (tagsTaken u (ofLoad .ld x)) s = { s with fresh := s.fresh + 1 } := by
    rw [withTags, show tagsTaken u (ofLoad .ld x) = 0 from rfl, takeTags_zero]
  have hx : group? { s with fresh := s.fresh + 1 } u.g = some u.x := hgroup
  have hread : ∀ t ∈ threadsOf u.ex, localRead { s with fresh := s.fresh + 1 } u.x (ptrRegion (fullSlot s.clk u (ofLoad .ld x) t).a)
      (ptrOff (fullSlot s.clk u (ofLoad .ld x) t).a) (Ty.bits x.ty / 8) =
      readBytes (if ptrRegion (fullSlot s.clk u (ofLoad .ld x) t).a = 0 then u.x.scratch else u.x.plane)
        (ptrOff (fullSlot s.clk u (ofLoad .ld x) t).a) (Ty.bits x.ty / 8) := by
    intro t ht
    obtain ⟨-, -, hregion, -⟩ := hall t ((mem_threadsOf ..).mp ht).2
    generalize ptrRegion (fullSlot s.clk u (ofLoad .ld x) t).a = region at *
    rcases (by omega : region = 0 ∨ region = 1) with rfl | rfl <;> rfl
  rw [htags, issuePlaced, issueElems_loads u _ hx rfl _ (elemsAt_local rfl rfl hall), List.nil_append] at hafter
  dsimp only at hafter
  rw [if_pos rfl, map_elemsAt rfl rfl (.ld x) s u fun t z => (t, 0, localRead { s with fresh := s.fresh + 1 } u.x (ptrRegion z.a) (ptrOff z.a) (ofLoad .ld x).bytes)]
    at hafter
  refine (congrArg (fun f => AfterWord u { modRank u.g u.r f s with fresh := s.fresh + 1 } t) (funext fun k => ?_)).mp hafter
  refine List.foldl_ext _ _ _ fun k t ht => ?_
  rw [← hread t ht]
  exact congrArg (writeOpnd x.ty x.d t · k) (gotValue_map _ (threadsOf_nodup u.ex) ht)

/-- R125: ST of the scratchpad or plane store. -/
theorem st_local {x : StoreOp} {s : State} {u : Iss} (hi : issuing s x.c = some u) (hh : hurdle s u (.st x) = none)
    (hall : AllLocal (ofStore .st x) s u) :
    ∃ t, exec (.st x) s = .next t ∧ AfterWord u ((threadsOf u.ex).foldl (fun s' t =>
      localWrite u.g (ptrRegion (fullSlot s.clk u (ofStore .st x) t).a) (ptrOff (fullSlot s.clk u (ofStore .st x) t).a)
        (leBytes (readOpnd s.clk u x.ty 0 x.b t) (Ty.bits x.ty / 8)) s') { (takeTags u.x.ctx (countMask u.ex) s).1 with fresh := s.fresh + 1 }) t := by
  obtain ⟨-, hgroup, -⟩ := issuing_spec hi
  obtain ⟨t, hexec, hafter⟩ := memIssue_local (exec_st x) hi hh (.inr rfl) hall
  refine ⟨t, hexec, ?_⟩
  have htags : withTags u (tagsTaken u (ofStore .st x)) s = { (takeTags u.x.ctx (countMask u.ex) s).1 with fresh := s.fresh + 1 } := rfl
  rw [htags] at hafter
  have hx : (group? { (takeTags u.x.ctx (countMask u.ex) s).1 with fresh := s.fresh + 1 } u.g).isSome := by
    obtain ⟨hgroups, -⟩ := takeTags_aside u.x.ctx (countMask u.ex) s
    rw [group?, hgroups]
    exact Option.isSome_of_eq_some hgroup
  generalize { (takeTags u.x.ctx (countMask u.ex) s).1 with fresh := s.fresh + 1 } = s0 at *
  have hdata : ∀ t, dataBytes (ofStore .st x) (fullSlot s.clk u (ofStore .st x) t) = leBytes (readOpnd s.clk u x.ty 0 x.b t) (Ty.bits x.ty / 8) := by
    intro t
    have hlt : readOpnd s.clk u x.ty 0 x.b t < 2 ^ 128 := lt_of_lt_of_le (readOpnd_lt ..) (Nat.pow_le_pow_right (by decide) (by cases x.ty <;> decide))
    rw [dataBytes, show (fullSlot s.clk u (ofStore .st x) t).b.toNat = readOpnd s.clk u x.ty 0 x.b t from Nat.mod_eq_of_lt hlt]
    rfl
  have hfold : ∀ s', (elemsAt (.st x) (ofStore .st x) s u).foldl (fun s' y =>
      localWrite u.g (ptrRegion y.s.a) (ptrOff y.s.a) (dataBytes (ofStore .st x) y.s) s') s' = (threadsOf u.ex).foldl (fun s' t =>
      localWrite u.g (ptrRegion (fullSlot s.clk u (ofStore .st x) t).a) (ptrOff (fullSlot s.clk u (ofStore .st x) t).a)
        (leBytes (readOpnd s.clk u x.ty 0 x.b t) (Ty.bits x.ty / 8)) s') s' := by
    intro s'
    have h := congrArg (fun l : List Slot => l.foldl (fun s' z => localWrite u.g (ptrRegion z.a) (ptrOff z.a) (dataBytes (ofStore .st x) z) s') s')
      (map_elemsAt (m := ofStore .st x) rfl rfl (.st x) s u fun _ z => z)
    simp only [List.foldl_map, hdata] at h
    exact h
  rw [issuePlaced, issueElems_stores u _ rfl rfl _ (elemsAt_local rfl rfl hall) _ _ hx, hfold] at hafter
  dsimp only at hafter
  rw [if_pos rfl, modRank_of_fixed u.g u.r (f := deliver (ofStore .st x) _) fun k => rfl] at hafter
  exact hafter

/-- Settles O32: loads and stores of the scratchpad and the plane store. -/
theorem localMemory : Obligations.LocalMemory := by
  unfold Obligations.LocalMemory
  constructor
  · intro x s u hi hh m n p hall
    exact ld_local hi hh hall
  · intro x s u hi hh m n p hall
    exact st_local hi hh hall

end Sys2Proof.Laws

end

section
/-! SUPPORT. MSTOP in a group that the group map holds twice (R173): where its group is freed, a lookup meets the other one. -/

open Sys2Proof Sys2Proof.Machine

namespace Sys2Proof.Laws

set_option maxRecDepth 100000

/-- A sequencer in its turn, every rank of its group gone, and the group standing twice in the group map. -/
def streamTwice : State :=
  let s := State.reset.withFetchWord 96 (encode .mstop).toNat
  let groups := s.groups.map fun e => (e.1, { e.2 with ranks := [], seq := { e.2.seq with st := .running, recs := [] } })
  { s with groups := groups ++ groups, cur := some (.seq 0) }

theorem streamTwice_turn : (match seqIssuing streamTwice with
    | some (g, x, _) => g == 0 && x.seq.recs == []
    | none => false) = true := by decide

theorem streamTwice_after : (match exec .mstop streamTwice with
    | .next t => (group? t 0).any fun y => y.seq.st == .running
    | _ => false) = true := by decide

/-- Refutes O39: the statement speaks of every state, and the group map of `streamTwice` holds group 0 twice. MSTOP ends its sequencer, the
group is freed, and group 0 is then the second entry, whose sequencer is running. -/
theorem not_streamWords : ¬ Obligations.StreamWords := by
  intro h
  have hturn := streamTwice_turn
  cases hs : seqIssuing streamTwice with
  | none => rw [hs] at hturn; cases hturn
  | some p =>
    obtain ⟨g, x, c⟩ := p
    rw [hs] at hturn
    simp only [Bool.and_eq_true, beq_iff_eq] at hturn
    obtain ⟨hg, hrecs⟩ := hturn
    obtain ⟨hwords, -⟩ := h
    obtain ⟨-, -, -, -, -, -, -, -, hstop, -⟩ := hwords streamTwice g x c hs
    obtain ⟨t, ht, hidle⟩ := hstop hrecs
    have hafter := streamTwice_after
    rw [ht] at hafter
    obtain ⟨y, hy, hrun⟩ := (Option.any_eq_true ..).mp hafter
    rw [hidle y (hg ▸ hy)] at hrun
    cases hrun

end Sys2Proof.Laws

end

section
/-! SUPPORT. Stores of the hypervisor into the package control block (R192, R363, R394). -/

open Sys2Proof Sys2Proof.Machine

namespace Sys2Proof.Laws

theorem length_leBytes (x n : Nat) : (leBytes x n).length = n := by
  induction n generalizing x with
  | zero => rfl
  | succ n ih => rw [leBytes, List.length_cons, ih]

/-- One aligned store of one entry has its effect. -/
theorem pcbStore_entry {source base size w k v : Nat} {effect : Nat → Nat → State → State} {s : State} (hk : w * k + w ≤ size) (hw : 0 < w)
    (hv : v < 256 ^ w) :
    pcbStore source base size w { off := base + w * k, data := leBytes v w, hyper := true } effect s = .next (effect k v s) := by
  have hin : ¬(base + w * k < base ∨ base + size ≤ base + w * k ∨ (!true) = true) := by simp; omega
  unfold pcbStore
  simp only [if_neg hin, Nat.add_sub_cancel_left, Nat.mul_mod_right, length_leBytes, and_self, if_true, Nat.mul_div_cancel_left _ hw,
    leNat_leBytes, Nat.mod_eq_of_lt hv]

/-- A tenant's store is none. -/
theorem pcbStore_tenant (source base size w : Nat) {st : PcbStore} (effect : Nat → Nat → State → State) (s : State) (h : st.hyper = false) :
    pcbStore source base size w st effect s = .next s := by
  unfold pcbStore
  rw [if_pos (by simp [h])]
  rfl

/-- R192: a store of a queue's entry. -/
theorem queueTable_writes {q : Nat} {v : BitVec 64} {s : State} (hq : q < 4096) (hlow : v.toNat % 2 ^ 48 = 0)
    (hen : Queue.en v = true → CtxTab.valid (ctxEntry s (Queue.own v)) = true)
    (hown : Queue.own v = Queue.own (queueEntry s q) ∨ queueBusy s q = false) :
    exec (.queueTableWrite { off := 8 * q, data := leBytes v.toNat 8, hyper := true }) s =
      .next { s with tabs := { s.tabs with queues := sput 0 q v s.tabs.queues } } := by
  have hstore := fun f => pcbStore_entry (source := 6) (base := 0) (size := 0x8000) (w := 8) (k := q) (v := v.toNat) (effect := f) (s := s) (by omega)
    (by decide) v.isLt
  have hok : ¬(v.toNat % 2 ^ 48 ≠ 0 ∨ (Queue.en v = true ∧ (!CtxTab.valid (ctxEntry s (Queue.own v))) = true) ∨
      Queue.own v ≠ Queue.own (queueEntry s q) ∧ queueBusy s q = true) := by
    rintro (h | ⟨hen', hv⟩ | ⟨hne, hbusy⟩)
    · exact h hlow
    · rw [hen hen'] at hv
      cases hv
    · rcases hown with h | h
      · exact hne h
      · rw [h] at hbusy
        cases hbusy
  rw [Nat.zero_add] at hstore
  rw [exec_queueTableWrite, execQueueTableWrite, hstore]
  simp only [BitVec.ofNat_toNat, BitVec.setWidth_eq]
  rw [if_neg hok]
  rfl

/-- R363: a store that creates a context. -/
theorem contextTable_creates {cid : Nat} {v : BitVec 64} {s : State} (hcid : cid < 4096) (hlow : v.toNat % 2 ^ 12 = 0)
    (hmid : v.toNat / 2 ^ 48 % 2 ^ 9 = 0) (hv : CtxTab.valid v = true) (hnew : CtxTab.valid (ctxEntry s cid) = false)
    (hroom : ctxCount s (CtxTab.part v) < ctxMax s (CtxTab.part v)) :
    exec (.contextTableWrite { off := 0x8000 + 8 * cid, data := leBytes v.toNat 8, hyper := true }) s =
      .next (keepPlat s (setCtxEntry cid v { s with ctxs := sset cid (Ctx.created (CtxTab.part v) (CtxTab.save v)) s.ctxs })) := by
  have hstore := fun f => pcbStore_entry (source := 7) (base := 0x8000) (size := 0x8000) (w := 8) (k := cid) (v := v.toNat) (effect := f) (s := s)
    (by omega) (by decide) v.isLt
  have hbits : ¬(v.toNat % 2 ^ 12 ≠ 0 ∨ bits v.toNat 48 9 ≠ 0) := not_or.mpr ⟨not_not.mpr hlow, not_not.mpr hmid⟩
  rw [exec_contextTableWrite, execContextTableWrite, hstore]
  simp only [BitVec.ofNat_toNat, BitVec.setWidth_eq]
  rw [if_neg hbits, if_pos hv, hnew, Bool.false_or, if_neg (by simpa using hroom)]
  rfl

/-- R394: a store of a host context's entry. -/
theorem hostContextTable_writes {part : Nat} {v : BitVec 16} {s : State} (hpart : part < 64) (hbits : v.toNat / 2 ^ 12 % 2 ^ 3 = 0) :
    exec (.hostContextTableWrite { off := 0x10000 + 2 * part, data := leBytes v.toNat 2, hyper := true }) s =
      .next { s with tabs := { s.tabs with hostCtx := sput 0 part v s.tabs.hostCtx } } := by
  have hstore := fun f => pcbStore_entry (source := 6) (base := 0x10000) (size := 0x80) (w := 2) (k := part) (v := v.toNat) (effect := f) (s := s)
    (by omega) (by decide) v.isLt
  rw [exec_hostContextTableWrite, execHostContextTableWrite, hstore]
  simp only [BitVec.ofNat_toNat, BitVec.setWidth_eq]
  rw [if_neg (show ¬bits v.toNat 12 3 ≠ 0 from not_not.mpr hbits)]
  rfl

/-- R394: a store of HEVQ. -/
theorem hevq_writes {v : Long} {s : State} (hv : v.toNat % 64 = 0) :
    exec (.hevqWrite { off := 0x10080, data := leBytes v.toNat 8, hyper := true }) s = .next { s with tabs := { s.tabs with hevq := v } } := by
  have hstore := fun f => pcbStore_entry (source := 6) (base := 0x10080) (size := 8) (w := 8) (k := 0) (v := v.toNat) (effect := f) (s := s)
    (by omega) (by decide) v.isLt
  rw [exec_hevqWrite, execHevqWrite, if_neg (show ¬(pcbZero 0x10080 && true) = true by decide), hstore]
  simp only [BitVec.ofNat_toNat, BitVec.setWidth_eq]
  rw [if_neg (not_not.mpr hv)]
  rfl

theorem tenant_stores {st : PcbStore} (h : st.hyper = false) (s : State) : exec (.queueTableWrite st) s = .next s ∧
    exec (.contextTableWrite st) s = .next s ∧ exec (.hostContextTableWrite st) s = .next s ∧ exec (.hevqWrite st) s = .next s := by
  refine ⟨?_, ?_, ?_, ?_⟩
  · rw [exec_queueTableWrite, execQueueTableWrite, pcbStore_tenant _ _ _ _ _ _ h]; rfl
  · rw [exec_contextTableWrite, execContextTableWrite, pcbStore_tenant _ _ _ _ _ _ h]; rfl
  · rw [exec_hostContextTableWrite, execHostContextTableWrite, pcbStore_tenant _ _ _ _ _ _ h]; rfl
  · rw [exec_hevqWrite, execHevqWrite, h, Bool.and_false, if_neg Bool.false_ne_true, pcbStore_tenant _ _ _ _ _ _ h]; rfl

/-- Settles O50: the hypervisor's stores to the queue, context and host-context tables and HEVQ. -/
theorem tableWrites : Obligations.TableWrites :=
  ⟨fun _ _ _ hq hlow hen hown => ⟨_, queueTable_writes hq hlow hen hown, rfl, rfl⟩,
    fun _ _ _ hcid hlow hmid hv hnew hroom => ⟨_, contextTable_creates hcid hlow hmid hv hnew hroom, rfl, sget_sset_same .., rfl⟩,
    fun _ _ _ hpart hbits => ⟨_, hostContextTable_writes hpart hbits, rfl, rfl⟩, fun _ _ hv => ⟨_, hevq_writes hv, rfl, rfl⟩,
    fun _ s h => tenant_stores h s⟩

end Sys2Proof.Laws

end

section
/-! SUPPORT. Host commands over the session (R391 to R393, R396, R318). -/

open Sys2Proof Sys2Proof.Machine

namespace Sys2Proof.Laws

/-- A command that meets what is asked of every command (R396). -/
structure CmdOk (h : HostCmd) (s : State) (code size : Nat) : Prop where
  runs : mgmtRuns s = true
  inSession : h.inSession = true
  session : s.plat.session = true
  code : h.cmd.toNat = code
  len : h.len.toNat = size
  body : h.body.length = size
  flags : h.flags = 0

theorem cmdOk_of {h : HostCmd} {s : State} {code size : Nat} (hc : mgmtRuns s = true ∧ h.inSession = true ∧ s.plat.session = true ∧
    h.cmd.toNat = code ∧ h.len.toNat = size ∧ h.body.length = size ∧ h.flags = 0) : CmdOk h s code size := by
  obtain ⟨h1, h2, h3, h4, h5, h6, h7⟩ := hc
  exact ⟨h1, h2, h3, h4, h5, h6, h7⟩

/-- Such a command takes effect. -/
theorem hostCmd_runs {h : HostCmd} {s : State} {code n : Nat} (hc : CmdOk h s code n) {flags : Nat} {size : HostCmd → Nat} (hsize : size h = n)
    (effect : State → State) : hostCmd code flags size h effect s = .next (effect s) := by
  unfold hostCmd
  rw [hc.runs, Bool.not_true, if_neg Bool.false_ne_true, if_neg]
  simp [hc.inSession, hc.session, hc.code, hc.len, hc.body, hc.flags, hsize]

/-- A command outside a session, or of a length that is not its body's, is answered 0x000A alone. -/
theorem hostCmd_refuses {h : HostCmd} {s : State} (hr : mgmtRuns s = true)
    (hbad : h.inSession = false ∨ s.plat.session = false ∨ h.len.toNat ≠ h.body.length) (code flags : Nat) (size : HostCmd → Nat)
    (effect : State → State) : hostCmd code flags size h effect s = .next (respondTo h 0x000A [] s) := by
  unfold hostCmd
  rw [hr, Bool.not_true, if_neg Bool.false_ne_true, if_pos]
  rcases hbad with hb | hb | hb
  · exact .inl (by simp [hb])
  · exact .inl (by simp [hb])
  · exact .inr (.inr (.inl hb))

/-- The command is answered, and nothing else changes. -/
def Answers (i : Instr) (h : HostCmd) (s : State) (st : BitVec 16) (body : List Byte) : Prop :=
  ∃ t, exec i s = .next t ∧ t.plat = { s.plat with responses := s.plat.responses ++ [{ cmd := h.cmd, flags := h.flags, len := h.len, seq := h.seq, status := st, body := body }] } ∧
    { t with plat := s.plat } = s

theorem answers_of {i : Instr} {h : HostCmd} {s : State} {st : BitVec 16} {body : List Byte} (he : exec i s = heldBase s (.next (respondTo h st body s))) :
    Answers i h s st body := ⟨_, he, rfl, rfl⟩

theorem refused_answers {i : Instr} {h : HostCmd} {s : State} {code flags : Nat} {size : HostCmd → Nat} {effect : State → State}
    (hr : mgmtRuns s = true) (hbad : h.inSession = false ∨ s.plat.session = false ∨ h.len.toNat ≠ h.body.length)
    (he : exec i s = heldBase s (hostCmd code flags size h effect s)) : Answers i h s 0x000A [] :=
  answers_of (by rw [he, hostCmd_refuses hr hbad])

/-! ### Keys -/

theorem nonceAt_setKey {k : Nat} (hk : k < 4096) (enrol : Bool) (key : BitVec 256) (s : State) (c : Nat) : nonceAt (setKey k enrol key s) c k = 0 := by
  show sgetD (c * 4096 + k) 0 (s.fab.nonces.filter fun e => e.1 % 4096 != k) = 0
  rw [sgetD]
  cases hget : sget (c * 4096 + k) (s.fab.nonces.filter fun e => e.1 % 4096 != k) with
  | none => rfl
  | some v =>
    obtain ⟨-, hkeep⟩ := List.mem_filter.mp (mem_of_sget hget)
    simp only [Nat.mul_comm c, Nat.mul_add_mod, Nat.mod_eq_of_lt hk, bne_self_eq_false, Bool.false_eq_true] at hkeep

theorem ctx_setKey (k : Nat) (enrol : Bool) (key : BitVec 256) (s : State) (c : Nat) : ctx? (setKey k enrol key s) c =
    (ctx? s c).map fun x => if x.key.toNat = k then { x with keyEpoch := ((sget k s.tabs.keys).map (·.epoch)).getD 0 + 1 } else x := by
  rw [ctx?, ctx?, ← sget_map]
  unfold setKey
  dsimp only
  congr 1
  refine List.map_congr_left fun e _ => ?_
  split <;> rfl

theorem keySet_sets {h : HostCmd} {s : State} (hc : CmdOk h s 0x30 40) (hk : 0 < field h.body 0 4) (hlt : field h.body 0 4 < 4096)
    (hen : field h.body 4 4 < 2) : ∃ t e, exec (.keySet h) s = .next t ∧ sget (field h.body 0 4) t.tabs.keys = some e ∧ e.valid = true ∧
      e.key = BitVec.ofNat 256 (field h.body 8 32) ∧ t.mem = s.mem ∧ t.groups = s.groups ∧
      e.epoch = ((sget (field h.body 0 4) s.tabs.keys).map (·.epoch)).getD 0 + 1 ∧
      ∀ c x, ctx? t c = some x → x.key.toNat = field h.body 0 4 → x.keyEpoch = e.epoch ∧ (c < 4096 → nonceAt t c (field h.body 0 4) = 0) := by
  have hexec : exec (.keySet h) s = heldBase s (.next (respondTo h 0 [] (setKey (field h.body 0 4) (field h.body 4 4 == 1)
      (BitVec.ofNat 256 (field h.body 8 32)) s))) := by
    rw [exec_keySet, execKeySet, hostCmd_runs hc (size := fixedSize 40) rfl]
    dsimp only
    rw [if_neg (by omega)]
  refine ⟨_, _, hexec, sget_sset_same .., rfl, rfl, rfl, rfl, rfl, fun c x hx hkey => ⟨?_, fun _ => nonceAt_setKey hlt (field h.body 4 4 == 1) (BitVec.ofNat 256 (field h.body 8 32)) s c⟩⟩
  have hx := (ctx_setKey (field h.body 0 4) (field h.body 4 4 == 1) (BitVec.ofNat 256 (field h.body 8 32)) s c).symm.trans hx
  obtain ⟨y, -, rfl⟩ := Option.map_eq_some_iff.mp hx
  revert hkey
  split
  · exact fun _ => rfl
  · next hne => exact fun hkey => absurd hkey hne

theorem launchtabSet_sets {h : HostCmd} {s : State} (hc : CmdOk h s 0x31 24) (hpart : field h.body 0 4 < 64) (hi : field h.body 4 4 < 64)
    (hlow : bits (field h.body 8 16) 0 39 = 0) (hhigh : bits (field h.body 8 16) 112 15 = 0) (hcnt : bits (field h.body 8 16) 39 13 ≤ 4096)
    (hsum : bits (field h.body 8 16) 52 12 + bits (field h.body 8 16) 39 13 ≤ 4096) (hne : bits (field h.body 8 16) 39 13 ≠ 0) :
    ∃ t, exec (.launchtabSet h) s = .next t ∧ t.tabs = { s.tabs with launchTab := sput 0 (field h.body 0 4 * 64 + field h.body 4 4) (BitVec.ofNat 128 (field h.body 8 16)) s.tabs.launchTab } ∧ t.mem = s.mem ∧ t.groups = s.groups := by
  have hexec : exec (.launchtabSet h) s = heldBase s (.next (respondTo h 0 [] { s with tabs := { s.tabs with launchTab := sput 0 (field h.body 0 4 * 64 + field h.body 4 4) (BitVec.ofNat 128 (field h.body 8 16)) s.tabs.launchTab } })) := by
    rw [exec_launchtabSet, execLaunchtabSet, hostCmd_runs hc (size := fixedSize 24) rfl]
    dsimp only
    rw [if_neg]
    simp only [hlow, hhigh, hcnt, hsum, not_le.mpr hpart, not_le.mpr hi]
    simp [hne]
  exact ⟨_, hexec, rfl, rfl, rfl⟩

/-- Settles O57: host commands over the session. -/
theorem managementCommands : Obligations.ManagementCommands := by
  unfold Obligations.ManagementCommands
  intro cmd answers
  refine ⟨?_, ?_, ?_, ?_, fun h s hc hk hlt hen => keySet_sets (cmdOk_of hc) hk hlt hen, ?_, ?_⟩
  · intro h s hc
    exact answers_of (by rw [exec_journalRead, execJournalRead, hostCmd_runs (cmdOk_of hc) (size := fixedSize 0) rfl])
  · intro h s hc hlt
    refine answers_of ?_
    rw [exec_routeRead, execRouteRead, hostCmd_runs (cmdOk_of hc) (size := fixedSize 4) rfl]
    dsimp only
    rw [if_neg (by omega)]
  · intro h s hc
    exact answers_of (by rw [exec_slotRead, execSlotRead, hostCmd_runs (cmdOk_of hc) (size := fixedSize 0) rfl])
  · intro h s i hr hbad hi
    simp only [List.mem_cons, List.not_mem_nil, or_false] at hi
    rcases hi with rfl | rfl | rfl | rfl | rfl | rfl | rfl | rfl | rfl | rfl | rfl
    · exact refused_answers hr hbad (exec_journalRead h s)
    · exact refused_answers hr hbad (exec_routeRead h s)
    · exact refused_answers hr hbad (exec_slotRead h s)
    · exact refused_answers hr hbad (exec_keySet h s)
    · exact refused_answers hr hbad (exec_launchtabSet h s)
    · exact refused_answers hr hbad (exec_layoutRead h s)
    · exact refused_answers hr hbad (exec_bearoff h s)
    · exact refused_answers hr hbad (exec_ckpt h s)
    · exact refused_answers hr hbad (exec_pair h s)
    · exact refused_answers hr hbad (exec_restore h s)
    · exact refused_answers hr hbad (exec_retire h s)
  · intro h s hc v hpart hi hlow hhigh hcnt hsum hne
    exact launchtabSet_sets (cmdOk_of hc) hpart hi hlow hhigh hcnt hsum hne
  · intro bytes opens s hpowered hstopped
    have hexec : exec (.attestationRequest bytes opens) s = heldBase s (.next (modPlat (fun p => { p with
        session := p.session || (opens && !p.stopped), responses := p.responses ++ [{ body := Config.spdmAnswer (bytes ++ measured s) }] }) s)) := by
      rw [exec_attestationRequest, execAttestationRequest, hpowered, Bool.not_true, if_neg Bool.false_ne_true]
    refine ⟨_, hexec, ?_, rfl, rfl⟩
    show (s.plat.session || (opens && !s.plat.stopped)) = _
    rw [hstopped, Bool.not_false, Bool.and_true]

end Sys2Proof.Laws

end

section
/-! SUPPORT. Power-on and the steps of the boot where nothing fails now (R390, R391). -/

open Sys2Proof Sys2Proof.Machine

namespace Sys2Proof.Laws

/-! ### What the commit of a layout leaves of the platform -/

/-- The platform without its layouts, its journal and what it answers. -/
def bare (p : Plat) : Plat := { p with journal := [], responses := [], commit := 0, copy0 := [], copy1 := [], activating := none }

theorem bare_mgmtPost (r : Record) (s : State) : bare (mgmtPost r s).plat = bare s.plat := congrArg bare (aside_postHost _ s).plat

theorem bare_setActive (l : Sparse PartRec) (s : State) : bare (setActive l s).plat = bare s.plat := by
  unfold setActive
  split <;> rfl

theorem bare_setShadow (l : Sparse PartRec) (s : State) : bare (setShadow l s).plat = bare s.plat := by
  unfold setShadow
  split <;> rfl

theorem bare_checkRecord (b : Bool) (p : Nat) (s : State) : bare (checkRecord b p s).plat = bare s.plat := by
  unfold checkRecord
  split
  · rfl
  · split
    · exact bare_setActive ..
    · exact (bare_mgmtPost ..).trans (bare_setActive ..)

theorem bare_foldl {α : Type} {f : State → α → State} (h : ∀ s a, bare (f s a).plat = bare s.plat) (l : List α) (s : State) :
    bare (l.foldl f s).plat = bare s.plat := by
  induction l generalizing s with
  | nil => rfl
  | cons a l ih => exact (ih _).trans (h s a)

theorem bare_checkActive (b : Bool) (s : State) : bare (checkActive b s).plat = bare s.plat := bare_foldl (fun s p => bare_checkRecord b p s) _ s

theorem bare_modPlat {f : Plat → Plat} (h : ∀ p, bare (f p) = bare p) (s : State) : bare (modPlat f s).plat = bare s.plat := h s.plat

theorem bare_journalAdd (r : JRec) (s : State) : bare (journalAdd r s).plat = bare s.plat := by
  unfold journalAdd
  dsimp only
  generalize List.drop _ _ = l
  rfl

theorem bare_journalCommit (step result : Nat) (s : State) : bare (journalCommit step result s).plat = bare s.plat := by
  unfold journalCommit journalNow
  exact bare_journalAdd ..

theorem bare_setCommit (st : Nat) (s : State) : bare (setCommit st s).plat = bare s.plat := bare_modPlat (fun _ => rfl) s

theorem bare_copyLayout (s : State) : bare (copyLayout s).plat = bare s.plat := by
  unfold copyLayout
  exact (bare_journalCommit ..).trans ((bare_setCommit ..).trans (bare_setShadow ..))

theorem bare_applyLayout (old : Sparse PartRec) (s : State) : bare (applyLayout old s).plat = bare s.plat := congrArg bare (applyLayout_plat old s)

/-- No change of a layout is being activated. -/
abbrev idleCommit (s : State) : State := modPlat (fun p => { p with activating := none }) s

theorem bare_resumeCommit (s : State) : bare (resumeCommit s).plat = bare s.plat := by
  have h0 : bare (modPlat (fun p => { p with activating := none }) s).plat = bare s.plat := rfl
  unfold resumeCommit
  dsimp only
  generalize modPlat (fun p => { p with activating := none }) s = s0 at *
  rw [← h0]
  split
  · exact (bare_mgmtPost ..).trans ((bare_journalCommit ..).trans ((bare_setCommit ..).trans (bare_setShadow ..)))
  · exact (bare_copyLayout _).trans ((bare_journalCommit ..).trans ((bare_setCommit ..).trans ((bare_applyLayout ..).trans (bare_checkActive ..))))
  · exact bare_copyLayout _
  · rfl

theorem failed_of_bare {p q : Plat} (h : bare p = bare q) : p.failed = q.failed := by
  show (bare p).failed = (bare q).failed
  rw [h]

theorem joined_of_bare {p q : Plat} (h : bare p = bare q) : p.joined = q.joined := by
  show (bare p).joined = (bare q).joined
  rw [h]

theorem stopped_of_bare {p q : Plat} (h : bare p = bare q) : p.stopped = q.stopped := by
  show (bare p).stopped = (bare q).stopped
  rw [h]

/-- Records that all pass their check leave the state. -/
theorem checkActive_passes {b : Bool} {s : State} (h : ∀ p, p < 64 → PartRec.crcOk (recordAt (layoutActive s) p) = true) : checkActive b s = s := by
  have hfold : ∀ l : List Nat, (∀ p ∈ l, p < 64) → l.foldl (fun s p => checkRecord b p s) s = s := by
    intro l
    induction l with
    | nil => exact fun _ => rfl
    | cons p l ih =>
      intro hl
      rw [List.foldl_cons, checkRecord, if_pos (h p (hl p (List.mem_cons_self ..)))]
      exact ih fun q hq => hl q (List.mem_cons_of_mem _ hq)
  exact hfold _ fun p hp => List.mem_range.mp hp

/-- With no change of a layout under way nothing is resumed. -/
theorem resumeCommit_idle {s : State} (h : commitState s = 0) : resumeCommit s = idleCommit s := by
  have h0 : commitState (idleCommit s) = 0 := h
  unfold resumeCommit
  dsimp only
  unfold idleCommit at h0 ⊢
  rw [h0]
  rfl

/-! ### The steps -/

theorem failsNow_nil (step : Nat) (units : List Nat) : failsNow [] step units = [] :=
  List.filterMap_eq_nil_iff.mpr fun _ _ => rfl

theorem wholeStep_first {us step alt : Nat} {units : Bool → List Nat} {name : Bool → Nat} {work : Bool → State → State} {s : State}
    (h : stepFailed s step = false) : wholeStep us [] step alt units name work s = work false (recordStep us step (name false) 0 0 0 s) := by
  unfold wholeStep
  simp only [h, failsNow_nil, Bool.false_and, Bool.false_eq_true, if_false]

theorem wholeStep_again {us step alt : Nat} {units : Bool → List Nat} {name : Bool → Nat} {work : Bool → State → State} {s : State}
    (h : stepFailed s step = true) (ha : alt ≠ 0) :
    wholeStep us [] step alt units name work s = work true (recordStep us step (name true) 3 alt 0 s) := by
  unfold wholeStep
  simp only [h, failsNow_nil, ha, decide_false, Bool.and_false, Bool.false_eq_true, if_false, if_true]

theorem wholeStep_stops {us step : Nat} {outs : List BootOutcome} {units : Bool → List Nat} {name : Bool → Nat} {work : Bool → State → State} {s : State}
    (h : stepFailed s step = true) : wholeStep us outs step 0 units name work s = stopBoot step s := by
  unfold wholeStep
  simp only [h, decide_true, Bool.and_true, if_true]

theorem bootStep_stopped {us : Nat} {outs : List BootOutcome} {s : State} (h : s.plat.stopped = true) (step : Nat) : bootStep us outs s step = s := by
  unfold bootStep
  rw [if_pos h]

theorem bootStep_reset {us : Nat} {outs : List BootOutcome} {s : State} (h : s.plat.stopped = false) :
    bootStep us outs s 1 = plainStep us outs 1 0 (fun _ s => s) s := by
  unfold bootStep
  rw [if_neg (by rw [h]; decide)]
  rfl

theorem bootStep_firmware {us : Nat} {outs : List BootOutcome} {s : State} (h : s.plat.stopped = false) :
    bootStep us outs s 2 = imageStep us outs 2 (fun alt s => modPlat (fun p => { p with fwCopyB := alt }) s) s := by
  unfold bootStep
  rw [if_neg (by rw [h]; decide)]
  rfl

theorem bootStep_memory {us : Nat} {outs : List BootOutcome} {s : State} (h : s.plat.stopped = false) :
    bootStep us outs s 3 = wholeStep us outs 3 2 (fun _ => List.range 12) (fun _ => 0xFF) (fun alt s => modPlat (fun p => { p with lowRate := alt }) s) s := by
  unfold bootStep
  rw [if_neg (by rw [h]; decide)]
  rfl

theorem bootStep_cxl {us : Nat} {outs : List BootOutcome} {s : State} (h : s.plat.stopped = false) :
    bootStep us outs s 4 = (List.range 8).foldl (unitStep us outs 4 cxlUp cxlOff) s := by
  unfold bootStep
  rw [if_neg (by rw [h]; decide)]
  rfl

theorem bootStep_zports {us : Nat} {outs : List BootOutcome} {s : State} (h : s.plat.stopped = false) :
    bootStep us outs s 5 = (List.range 16).foldl (unitStep us outs 5 zportUp zportOff) s := by
  unfold bootStep
  rw [if_neg (by rw [h]; decide)]
  rfl

theorem bootStep_kernel {us : Nat} {outs : List BootOutcome} {s : State} (h : s.plat.stopped = false) :
    bootStep us outs s 6 = imageStep us outs 6 (fun alt s => modPlat (fun p => { p with kernelCopyB := alt }) s) s := by
  unfold bootStep
  rw [if_neg (by rw [h]; decide)]
  rfl

theorem bootStep_layout {us : Nat} {outs : List BootOutcome} {s : State} (h : s.plat.stopped = false) :
    bootStep us outs s 7 = plainStep us outs 7 3 (fun _ s => if commitState s = 2 then resumeCommit s else checkActive (commitState s == 0) (resumeCommit s)) s := by
  unfold bootStep
  rw [if_neg (by rw [h]; decide)]
  rfl

theorem bootStep_join {us : Nat} {outs : List BootOutcome} {s : State} (h : s.plat.stopped = false) :
    bootStep us outs s 8 = plainStep us outs 8 0 (fun _ s => modPlat (fun p => { p with joined := true, bases := some (Config.pcbBase, Config.windowBase) }) s) s := by
  unfold bootStep
  rw [if_neg (by rw [h]; decide)]
  rfl

theorem boot_stopped {us : Nat} {outs : List BootOutcome} {s : State} (h : s.plat.stopped = true) (l : List Nat) :
    l.foldl (bootStep us outs) s = s := by
  induction l with
  | nil => rfl
  | cons n l ih => rw [List.foldl_cons, bootStep_stopped h, ih]

/-- A record is added to the journal last. -/
theorem journalNow_adds (us step unit result alt code : Nat) (s : State) : ∃ l r,
    journalNow us step unit result alt code s = { s with plat := { s.plat with journal := l ++ [r] } } ∧
    (r.step, r.unit, r.result) = (BitVec.ofNat 8 step, BitVec.ofNat 8 unit, BitVec.ofNat 8 result) := by
  unfold journalNow journalAdd
  generalize hr : ({ clk := BitVec.ofNat 64 us, bootn := s.plat.bootn, step := BitVec.ofNat 8 step, unit := BitVec.ofNat 8 unit, result := BitVec.ofNat 8 result, alt := BitVec.ofNat 8 alt, code := BitVec.ofNat 16 code } : JRec) = r
  dsimp only
  rw [List.drop_append_of_le_length (by simp)]
  generalize s.plat.journal.drop _ = l
  exact ⟨l, r, rfl, by rw [← hr]⟩

/-- The failures that stand after a step's record. -/
def failedAfter (step unit result : Nat) (failed : List (Nat × Nat)) : List (Nat × Nat) :=
  if result = 0 then failed.filter (· != (step, unit)) else if result = 1 then failed.filter (· != (step, unit)) ++ [(step, unit)] else failed

/-- A step's record changes the list of failures and the journal. -/
theorem recordStep_eq (us step unit result alt code : Nat) (s : State) : ∃ l r,
    recordStep us step unit result alt code s = { s with plat := { s.plat with journal := l ++ [r], failed := failedAfter step unit result s.plat.failed } } ∧
    (r.step, r.unit, r.result) = (BitVec.ofNat 8 step, BitVec.ofNat 8 unit, BitVec.ofNat 8 result) := by
  unfold recordStep failedAfter
  dsimp only
  split_ifs
  · obtain ⟨l, r, heq, hr⟩ := journalNow_adds us step unit result alt code (modPlat (fun p => { p with failed := p.failed.filter (· != (step, unit)) }) s)
    exact ⟨l, r, heq, hr⟩
  · obtain ⟨l, r, heq, hr⟩ := journalNow_adds us step unit result alt code
      (modPlat (fun p => { p with failed := p.failed.filter (· != (step, unit)) ++ [(step, unit)] }) s)
    exact ⟨l, r, heq, hr⟩
  · obtain ⟨l, r, heq, hr⟩ := journalNow_adds us step unit result alt code (modPlat (fun p => p) s)
    exact ⟨l, r, heq, hr⟩

/-! ### The state of a boot -/

/-- The machine in its start: what the steps up to 6 write. -/
def booted (s0 : State) (l : List JRec) (failed : List (Nat × Nat)) (fw low ker : Bool) (cxl : List Nat) (ports : List Port) : State :=
  { s0 with plat := { s0.plat with journal := l, failed := failed, fwCopyB := fw, lowRate := low, kernelCopyB := ker, cxlDown := cxl }, fab := { s0.fab with ports := ports } }

/-- Failures of step n alone have been taken away. -/
structure Shrinks (n : Nat) (l l' : List (Nat × Nat)) : Prop where
  sub : ∀ f ∈ l', f ∈ l
  keep : ∀ f ∈ l, f.1 ≠ n → f ∈ l'

theorem shrinks_refl (n : Nat) (l : List (Nat × Nat)) : Shrinks n l l := ⟨fun _ h => h, fun _ h _ => h⟩

theorem shrinks_trans {n : Nat} {a b c : List (Nat × Nat)} (h : Shrinks n a b) (h' : Shrinks n b c) : Shrinks n a c :=
  ⟨fun f hf => h.sub f (h'.sub f hf), fun f hf hn => h'.keep f (h.keep f hf hn) hn⟩

theorem shrinks_failedAfter (n u : Nat) {result : Nat} (hr : result ≠ 1) (l : List (Nat × Nat)) : Shrinks n l (failedAfter n u result l) := by
  unfold failedAfter
  rw [if_neg hr]
  split_ifs
  · refine ⟨fun f hf => (List.mem_filter.mp hf).1, fun f hf hn => List.mem_filter.mpr ⟨hf, ?_⟩⟩
    rw [bne_iff_ne]
    rintro rfl
    exact hn rfl
  · exact shrinks_refl n l

section
variable {us : Nat} {s0 : State} {l : List JRec} {failed : List (Nat × Nat)} {fw low ker : Bool} {cxl : List Nat} {ports : List Port}

theorem booted_going (h : s0.plat.stopped = false) : (booted s0 l failed fw low ker cxl ports).plat.stopped = false := h

theorem recordStep_booted (step unit result alt code : Nat) : ∃ l',
    recordStep us step unit result alt code (booted s0 l failed fw low ker cxl ports) = booted s0 l' (failedAfter step unit result failed) fw low ker cxl ports := by
  obtain ⟨l', r, heq, -⟩ := recordStep_eq us step unit result alt code (booted s0 l failed fw low ker cxl ports)
  exact ⟨l' ++ [r], heq⟩

theorem stepFailed_booted (step : Nat) : stepFailed (booted s0 l failed fw low ker cxl ports) step = failed.any fun f => f.1 == step := rfl

theorem any_step_false {l : List (Nat × Nat)} {step : Nat} (h : ∀ f ∈ l, f.1 ≠ step) : (l.any fun f => f.1 == step) = false :=
  List.any_eq_false.mpr fun f hf => by simpa using h f hf

/-- A step that did not fail before and works on the platform's copies. -/
theorem wholeStep_booted {step alt : Nat} {units : Bool → List Nat} {name : Bool → Nat} {work : Bool → State → State} (h : ∀ f ∈ failed, f.1 ≠ step) :
    ∃ l' failed', Shrinks step failed failed' ∧
      wholeStep us [] step alt units name work (booted s0 l failed fw low ker cxl ports) = work false (booted s0 l' failed' fw low ker cxl ports) := by
  obtain ⟨l', hl⟩ := recordStep_booted (us := us) (s0 := s0) (l := l) (failed := failed) (fw := fw) (low := low) (ker := ker) (cxl := cxl) (ports := ports)
    step (name false) 0 0 0
  rw [wholeStep_first ((stepFailed_booted step).trans (any_step_false h)), hl]
  exact ⟨l', _, shrinks_failedAfter step (name false) (by decide) failed, rfl⟩

theorem wholeStep_booted_again {step alt : Nat} {units : Bool → List Nat} {name : Bool → Nat} {work : Bool → State → State}
    (h : ∃ u, (step, u) ∈ failed) (ha : alt ≠ 0) :
    ∃ l' failed', Shrinks step failed failed' ∧
      wholeStep us [] step alt units name work (booted s0 l failed fw low ker cxl ports) = work true (booted s0 l' failed' fw low ker cxl ports) := by
  obtain ⟨l', hl⟩ := recordStep_booted (us := us) (s0 := s0) (l := l) (failed := failed) (fw := fw) (low := low) (ker := ker) (cxl := cxl) (ports := ports)
    step (name true) 3 alt 0
  obtain ⟨u, hu⟩ := h
  rw [wholeStep_again ((stepFailed_booted step).trans (List.any_eq_true.mpr ⟨_, hu, beq_self_eq_true step⟩)) ha, hl]
  exact ⟨l', _, shrinks_failedAfter step (name true) (by decide) failed, rfl⟩

/-- A unit's step: its port is there unless it failed last time. -/
theorem unitStep_booted {step : Nat} {up down : Nat → Plat → Fabric → Plat × Fabric} (unit : Nat) : ∃ l' failed', Shrinks step failed failed' ∧
    unitStep us [] step up down (booted s0 l failed fw low ker cxl ports) unit =
      let s1 := booted s0 l' failed' fw low ker cxl ports
      let r := (if failed.contains (step, unit) then down else up) unit s1.plat s1.fab
      { s1 with plat := r.1, fab := r.2 } := by
  have hlast : lastFailed (booted s0 l failed fw low ker cxl ports) step unit = failed.contains (step, unit) := rfl
  unfold unitStep
  rw [hlast]
  dsimp only
  by_cases h : failed.contains (step, unit) = true
  · obtain ⟨l', hl⟩ := recordStep_booted (us := us) (s0 := s0) (l := l) (failed := failed) (fw := fw) (low := low) (ker := ker) (cxl := cxl) (ports := ports)
      step unit 2 3 0
    rw [if_pos h, hl, if_pos h]
    exact ⟨l', _, shrinks_failedAfter step unit (by decide) failed, rfl⟩
  · obtain ⟨l', hl⟩ := recordStep_booted (us := us) (s0 := s0) (l := l) (failed := failed) (fw := fw) (low := low) (ker := ker) (cxl := cxl) (ports := ports)
      step unit 0 0 0
    rw [if_neg h, if_neg h]
    simp only [outcomeOf, List.find?_nil, hl]
    exact ⟨l', _, shrinks_failedAfter step unit (by decide) failed, rfl⟩

/-- Step 4: the CXL ports that did not fail last time are up. -/
theorem cxl_booted (us : Nat) (s0 : State) (fw low ker : Bool) (ports : List Port) (units : List Nat) (l : List JRec) (failed : List (Nat × Nat))
    (cxl : List Nat) : ∃ l' failed' cxl', Shrinks 4 failed failed' ∧ (failed = [] → cxl' = cxl) ∧
    units.foldl (unitStep us [] 4 cxlUp cxlOff) (booted s0 l failed fw low ker cxl ports) = booted s0 l' failed' fw low ker cxl' ports := by
  induction units generalizing l failed cxl with
  | nil => exact ⟨l, failed, cxl, shrinks_refl 4 failed, fun _ => rfl, rfl⟩
  | cons u units ih =>
    obtain ⟨l1, failed1, h1, hone⟩ := unitStep_booted (us := us) (s0 := s0) (l := l) (failed := failed) (fw := fw) (low := low) (ker := ker) (cxl := cxl)
      (ports := ports) (step := 4) (up := cxlUp) (down := cxlOff) u
    rw [List.foldl_cons, hone]
    dsimp only
    split
    · next hin =>
      obtain ⟨l2, failed2, cxl2, h2, -, heq⟩ := ih l1 failed1 (cxl ++ [u])
      refine ⟨l2, failed2, cxl2, shrinks_trans h1 h2, fun hnil => ?_, heq⟩
      rw [hnil] at hin
      cases hin
    · obtain ⟨l2, failed2, cxl2, h2, hcxl, heq⟩ := ih l1 failed1 cxl
      refine ⟨l2, failed2, cxl2, shrinks_trans h1 h2, fun hnil => hcxl ?_, heq⟩
      exact List.eq_nil_iff_forall_not_mem.mpr fun f hf => by rw [hnil] at h1; cases h1.sub f hf

/-- Step 5: the Z-ports that did not fail last time are connected. -/
theorem zports_booted (us : Nat) (s0 : State) (fw low ker : Bool) (cxl : List Nat) (units : List Nat) (l : List JRec) (failed : List (Nat × Nat))
    (ports : List Port) : ∃ l' failed' ports', Shrinks 5 failed failed' ∧ ports'.length = ports.length ∧
    (failed = [] → ∀ (i : Nat) (q : Port), ports'[i]? = some q → i ∈ units ∨ (ports[i]?).map (·.connected) = some true → q.connected = true) ∧
    units.foldl (unitStep us [] 5 zportUp zportOff) (booted s0 l failed fw low ker cxl ports) = booted s0 l' failed' fw low ker cxl ports' := by
  induction units generalizing l failed ports with
  | nil =>
    refine ⟨l, failed, ports, shrinks_refl 5 failed, rfl, fun _ i q hq h => ?_, rfl⟩
    rcases h with h | h
    · cases h
    · rw [hq] at h
      exact Option.some.inj h
  | cons u units ih =>
    obtain ⟨l1, failed1, h1, hone⟩ := unitStep_booted (us := us) (s0 := s0) (l := l) (failed := failed) (fw := fw) (low := low) (ker := ker) (cxl := cxl)
      (ports := ports) (step := 5) (up := zportUp) (down := zportOff) u
    rw [List.foldl_cons, hone]
    dsimp only
    split
    · next hin =>
      obtain ⟨l2, failed2, ports2, h2, hlen, -, heq⟩ := ih l1 failed1 ports
      refine ⟨l2, failed2, ports2, shrinks_trans h1 h2, hlen, fun hnil => ?_, heq⟩
      rw [hnil] at hin
      cases hin
    · obtain ⟨l2, failed2, ports2, h2, hlen, hcon, heq⟩ := ih l1 failed1 (modAt ports u fun q => { q.attested with connected := true })
      refine ⟨l2, failed2, ports2, shrinks_trans h1 h2, hlen.trans (modAt_length ..), fun hnil i q hq h => ?_, heq⟩
      refine hcon (List.eq_nil_iff_forall_not_mem.mpr fun f hf => by rw [hnil] at h1; cases h1.sub f hf) i q hq ?_
      rw [modAt_get]
      by_cases hi : i = u
      · subst hi
        rw [if_pos rfl]
        right
        have hlt : i < ports.length := by
          obtain ⟨hlt, -⟩ := List.getElem?_eq_some_iff.mp hq
          rwa [hlen, modAt_length] at hlt
        rw [List.getElem?_eq_getElem hlt]
        rfl
      · rw [if_neg hi]
        exact h.imp_left fun h => (List.mem_cons.mp h).resolve_left hi

/-- Steps 1 and 2: the firmware comes from copy B where copy A failed last time. -/
theorem boot_toFirmware (us : Nat) {s0 : State} (hstop : s0.plat.stopped = false) (l : List JRec) {failed : List (Nat × Nat)} (ports : List Port)
    (hf : ∀ f ∈ failed, f.1 ≠ 1) : ∃ l' failed', (∀ f ∈ failed', f ∈ failed) ∧ (∀ f ∈ failed, 2 < f.1 → f ∈ failed') ∧
    bootStep us [] (bootStep us [] (booted s0 l failed false false false [] ports) 1) 2 =
      booted s0 l' failed' (failed.any fun f => f.1 == 2) false false [] ports := by
  obtain ⟨l1, failed1, h1, hs1⟩ := wholeStep_booted (us := us) (s0 := s0) (l := l) (fw := false) (low := false) (ker := false) (cxl := []) (ports := ports)
    (alt := 0) (units := fun _ => []) (name := fun _ => 0xFF) (work := fun _ s => s) hf
  have h12 : (failed1.any fun f => f.1 == 2) = failed.any fun f => f.1 == 2 := by
    rw [Bool.eq_iff_iff, List.any_eq_true, List.any_eq_true]
    constructor
    · exact fun ⟨f, hf, h2⟩ => ⟨f, h1.sub f hf, h2⟩
    · exact fun ⟨f, hf, h2⟩ => ⟨f, h1.keep f hf (by rw [beq_iff_eq] at h2; omega), h2⟩
  rw [bootStep_reset (booted_going hstop), plainStep, hs1, bootStep_firmware (booted_going hstop), imageStep, ← h12]
  cases hany : failed1.any fun f => f.1 == 2 with
  | false =>
    obtain ⟨l2, failed2, h2, hs2⟩ := wholeStep_booted (us := us) (s0 := s0) (l := l1) (failed := failed1) (fw := false) (low := false) (ker := false)
      (cxl := []) (ports := ports) (step := 2) (alt := 1) (units := fun alt => [imageCopy alt]) (name := imageCopy)
      (work := fun alt s => modPlat (fun p => { p with fwCopyB := alt }) s) fun f hf => by simpa using List.any_eq_false.mp hany f hf
    rw [hs2]
    exact ⟨l2, failed2, fun f hf => h1.sub f (h2.sub f hf), fun f hf hlt => h2.keep f (h1.keep f hf (by omega)) (by omega), rfl⟩
  | true =>
    obtain ⟨l2, failed2, h2, hs2⟩ := wholeStep_booted_again (us := us) (s0 := s0) (l := l1) (failed := failed1) (fw := false) (low := false) (ker := false)
      (cxl := []) (ports := ports) (step := 2) (alt := 1) (units := fun alt => [imageCopy alt]) (name := imageCopy)
      (work := fun alt s => modPlat (fun p => { p with fwCopyB := alt }) s) (by
        obtain ⟨⟨n, u⟩, hf, hn⟩ := List.any_eq_true.mp hany
        rw [beq_iff_eq] at hn
        exact ⟨u, hn ▸ hf⟩) (by decide)
    rw [hs2]
    exact ⟨l2, failed2, fun f hf => h1.sub f (h2.sub f hf), fun f hf hlt => h2.keep f (h1.keep f hf (by omega)) (by omega), rfl⟩

/-- Steps 3 to 6, of which 3 and 6 did not fail before. -/
theorem boot_fromMemory (us : Nat) {s0 : State} (hstop : s0.plat.stopped = false) (l : List JRec) (fw : Bool) {failed : List (Nat × Nat)} {ports : List Port}
    (hf : ∀ f ∈ failed, f.1 ∉ [3, 6]) : ∃ l' failed' cxl ports', (∀ f ∈ failed', f ∈ failed) ∧ (∀ f ∈ failed, 6 < f.1 → f ∈ failed') ∧
    (failed = [] → cxl = [] ∧ (ports.length ≤ 16 → ∀ q ∈ ports', q.connected = true)) ∧
    [3, 4, 5, 6].foldl (bootStep us []) (booted s0 l failed fw false false [] ports) = booted s0 l' failed' fw false false cxl ports' := by
  simp only [List.mem_cons, List.not_mem_nil, or_false, not_or] at hf
  obtain ⟨l3, failed3, h3, hs3⟩ := wholeStep_booted (us := us) (s0 := s0) (l := l) (fw := fw) (low := false) (ker := false) (cxl := []) (ports := ports)
    (alt := 2) (units := fun _ => List.range 12) (name := fun _ => 0xFF) (work := fun alt s => modPlat (fun p => { p with lowRate := alt }) s)
    fun f hin => (hf f hin).1
  obtain ⟨l4, failed4, cxl, h4, hcxl, hs4⟩ := cxl_booted us s0 fw false false ports (List.range 8) l3 failed3 []
  obtain ⟨l5, failed5, ports', h5, hlen, hcon, hs5⟩ := zports_booted us s0 fw false false cxl (List.range 16) l4 failed4 ports
  obtain ⟨l6, failed6, h6, hs6⟩ := wholeStep_booted (us := us) (s0 := s0) (l := l5) (failed := failed5) (fw := fw) (low := false) (ker := false) (cxl := cxl)
    (ports := ports') (step := 6) (alt := 1) (units := fun alt => [imageCopy alt]) (name := imageCopy)
    (work := fun alt s => modPlat (fun p => { p with kernelCopyB := alt }) s) fun f hin => (hf f (h3.sub f (h4.sub f (h5.sub f hin)))).2
  refine ⟨l6, failed6, cxl, ports', fun f hin => h3.sub f (h4.sub f (h5.sub f (h6.sub f hin))), ?_, ?_, ?_⟩
  · intro f hin hlt
    exact h6.keep f (h5.keep f (h4.keep f (h3.keep f hin (by omega)) (by omega)) (by omega)) (by omega)
  · rintro rfl
    have hnil3 : failed3 = [] := List.eq_nil_iff_forall_not_mem.mpr fun f hin => by cases h3.sub f hin
    subst hnil3
    have hnil4 : failed4 = [] := List.eq_nil_iff_forall_not_mem.mpr fun f hin => by cases h4.sub f hin
    refine ⟨hcxl rfl, fun h16 q hq => ?_⟩
    obtain ⟨i, hi, rfl⟩ := List.mem_iff_getElem.mp hq
    exact hcon hnil4 i _ (List.getElem?_eq_getElem hi) (.inl (List.mem_range.mpr (by omega)))
  · simp only [List.foldl_cons, List.foldl_nil]
    rw [bootStep_memory (booted_going hstop), hs3]
    rw [show modPlat (fun p => { p with lowRate := false }) (booted s0 l3 failed3 fw false false [] ports) = booted s0 l3 failed3 fw false false [] ports from rfl]
    rw [bootStep_cxl (booted_going hstop), hs4, bootStep_zports (booted_going hstop), hs5, bootStep_kernel (booted_going hstop), imageStep, hs6]
    rfl

end

/-! ### The start -/

theorem powerOn_booted (us : Nat) (s : State) :
    powerOn us s = booted (powerOn us s) s.plat.journal s.plat.failed false false false [] (List.replicate 16 Port.reset) := rfl

theorem powerGood_steps (us : Nat) (s : State) : exec (.powerGood us []) s = .next (bootStep us [] (bootStep us [] ([3, 4, 5, 6].foldl (bootStep us [])
    (bootStep us [] (bootStep us [] (booted (powerOn us s) s.plat.journal s.plat.failed false false false [] (List.replicate 16 Port.reset)) 1) 2)) 7) 8) := rfl

/-- Step 7's work leaves a start with a good layout as it is. -/
theorem layout_booted {us : Nat} {s : State} (hcrc : ∀ p, p < 64 → PartRec.crcOk (recordAt (layoutActive s) p) = true) (hc : commitState s = 0)
    (l : List JRec) (failed : List (Nat × Nat)) (fw low ker : Bool) (cxl : List Nat) (ports : List Port) (b : Bool) :
    checkActive b (resumeCommit (booted (powerOn us s) l failed fw low ker cxl ports)) = booted (powerOn us s) l failed fw low ker cxl ports := by
  have hidle : commitState (booted (powerOn us s) l failed fw low ker cxl ports) = 0 := hc
  rw [resumeCommit_idle hidle]
  exact checkActive_passes (s := booted (powerOn us s) l failed fw low ker cxl ports) hcrc

/-- R390: a start that no failed step stops joins the host. -/
theorem powerGood_joins (us : Nat) {s : State} (hf : ∀ f ∈ s.plat.failed, f.1 ∉ [1, 3, 6, 7, 8])
    (hcrc : ∀ p, p < 64 → PartRec.crcOk (recordAt (layoutActive s) p) = true) (hc : commitState s = 0) :
    ∃ (l : List JRec) (r : JRec) (failed : List (Nat × Nat)) (cxl : List Nat) (ports : List Port), exec (.powerGood us []) s =
      .next (modPlat (fun p => { p with joined := true, bases := some (Config.pcbBase, Config.windowBase) })
        (booted (powerOn us s) (l ++ [r]) failed (s.plat.failed.any fun f => f.1 == 2) false false cxl ports)) ∧
      (r.step, r.unit, r.result) = (8, 0xFF, 0) ∧ (s.plat.failed = [] → cxl = [] ∧ ∀ q ∈ ports, q.connected = true) := by
  simp only [List.mem_cons, List.not_mem_nil, or_false, not_or] at hf
  obtain ⟨l2, failed2, hsub2, -, h2⟩ := boot_toFirmware us (s0 := powerOn us s) rfl s.plat.journal (List.replicate 16 Port.reset) fun f hin => (hf f hin).1
  obtain ⟨l6, failed6, cxl, ports, hsub6, -, hnil, h6⟩ := boot_fromMemory us (s0 := powerOn us s) rfl l2 (s.plat.failed.any fun f => f.1 == 2)
    (failed := failed2) (ports := List.replicate 16 Port.reset) fun f hin => by
      have := hf f (hsub2 f hin)
      simp only [List.mem_cons, List.not_mem_nil, or_false, not_or]
      omega
  have hlate : ∀ f ∈ failed6, f.1 ≠ 7 ∧ f.1 ≠ 8 := fun f hin => (hf f (hsub2 f (hsub6 f hin))).2.2.2
  obtain ⟨l7, failed7, hshrink7, h7⟩ := wholeStep_booted (us := us) (s0 := powerOn us s) (l := l6) (fw := s.plat.failed.any fun f => f.1 == 2) (low := false)
    (ker := false) (cxl := cxl) (ports := ports) (step := 7) (alt := 3) (units := fun _ => []) (name := fun _ => 0xFF)
    (work := fun _ s => if commitState s = 2 then resumeCommit s else checkActive (commitState s == 0) (resumeCommit s)) fun f hin => (hlate f hin).1
  have hwork : ¬commitState (booted (powerOn us s) l7 failed7 (s.plat.failed.any fun f => f.1 == 2) false false cxl ports) = 2 := by
    rw [show commitState (booted (powerOn us s) l7 failed7 (s.plat.failed.any fun f => f.1 == 2) false false cxl ports) = commitState s from rfl, hc]
    decide
  rw [if_neg hwork, layout_booted hcrc hc] at h7
  have h8 : stepFailed (booted (powerOn us s) l7 failed7 (s.plat.failed.any fun f => f.1 == 2) false false cxl ports) 8 = false :=
    any_step_false fun f hin => (hlate f (hshrink7.sub f hin)).2
  obtain ⟨l8, r, hlast, hr⟩ := recordStep_eq us 8 0xFF 0 0 0 (booted (powerOn us s) l7 failed7 (s.plat.failed.any fun f => f.1 == 2) false false cxl ports)
  refine ⟨l8, r, failedAfter 8 0xFF 0 failed7, cxl, ports, ?_, hr, fun hnone => ?_⟩
  · rw [powerGood_steps, h2, h6, bootStep_layout (booted_going rfl), plainStep, h7, bootStep_join (booted_going rfl), plainStep, wholeStep_first h8, hlast]
    rfl
  · have hnone2 : failed2 = [] := List.eq_nil_iff_forall_not_mem.mpr fun f hin => by
      have := hsub2 f hin
      rw [hnone] at this
      cases this
    obtain ⟨hcxl, hports⟩ := hnil hnone2
    exact ⟨hcxl, hports (by decide)⟩

/-- R391: step 1 failed before, and has no alternative. -/
theorem powerGood_stopsFirst (us : Nat) {s : State} (hf : (1, 0xFF) ∈ s.plat.failed) :
    exec (.powerGood us []) s = .next (stopBoot 1 (powerOn us s)) := by
  have h1 : bootStep us [] (powerOn us s) 1 = stopBoot 1 (powerOn us s) := by
    have hfailed : stepFailed (powerOn us s) 1 = true := List.any_eq_true.mpr ⟨_, hf, rfl⟩
    rw [bootStep_reset rfl, plainStep, wholeStep_stops hfailed]
  have hrest := boot_stopped (us := us) (outs := []) (s := stopBoot 1 (powerOn us s)) rfl [2, 3, 4, 5, 6, 7, 8]
  rw [exec_powerGood, execPowerGood]
  rw [show (List.range' 1 8).foldl (bootStep us []) (powerOn us s) = [2, 3, 4, 5, 6, 7, 8].foldl (bootStep us []) (bootStep us [] (powerOn us s) 1) from rfl,
    h1, hrest]

/-- R391: step 8 failed before, and has no alternative. -/
theorem powerGood_stopsLast (us : Nat) {s : State} (hf : (8, 0xFF) ∈ s.plat.failed) (hothers : ∀ f ∈ s.plat.failed, f.1 ∉ [1, 2, 3, 6, 7]) :
    ∃ t, exec (.powerGood us []) s = .next (stopBoot 8 t) ∧ t.plat.joined = false := by
  simp only [List.mem_cons, List.not_mem_nil, or_false, not_or] at hothers
  obtain ⟨l2, failed2, hsub2, hkeep2, h2⟩ := boot_toFirmware us (s0 := powerOn us s) rfl s.plat.journal (List.replicate 16 Port.reset)
    fun f hin => (hothers f hin).1
  obtain ⟨l6, failed6, cxl, ports, hsub6, hkeep6, -, h6⟩ := boot_fromMemory us (s0 := powerOn us s) rfl l2 (s.plat.failed.any fun f => f.1 == 2)
    (failed := failed2) (ports := List.replicate 16 Port.reset) fun f hin => by
      have := hothers f (hsub2 f hin)
      simp only [List.mem_cons, List.not_mem_nil, or_false, not_or]
      omega
  obtain ⟨l7, failed7, hshrink7, h7⟩ := wholeStep_booted (us := us) (s0 := powerOn us s) (l := l6) (failed := failed6) (fw := s.plat.failed.any fun f => f.1 == 2)
    (low := false) (ker := false) (cxl := cxl) (ports := ports) (step := 7) (alt := 3) (units := fun _ => []) (name := fun _ => 0xFF)
    (work := fun _ s => if commitState s = 2 then resumeCommit s else checkActive (commitState s == 0) (resumeCommit s))
    fun f hin => (hothers f (hsub2 f (hsub6 f hin))).2.2.2.2
  have hin7 : (8, 0xFF) ∈ failed7 := hshrink7.keep _ (hkeep6 _ (hkeep2 _ hf (by decide)) (by decide)) (by decide)
  generalize hs7 : booted (powerOn us s) l7 failed7 (s.plat.failed.any fun f => f.1 == 2) false false cxl ports = s7 at *
  have hbare : bare (if commitState s7 = 2 then resumeCommit s7 else checkActive (commitState s7 == 0) (resumeCommit s7)).plat = bare s7.plat := by
    split
    · exact bare_resumeCommit s7
    · exact (bare_checkActive ..).trans (bare_resumeCommit s7)
  generalize (if commitState s7 = 2 then resumeCommit s7 else checkActive (commitState s7 == 0) (resumeCommit s7)) = t at *
  have hstop : t.plat.stopped = false := (stopped_of_bare hbare).trans (by rw [← hs7]; rfl)
  have hfailed : stepFailed t 8 = true := by
    rw [stepFailed, failed_of_bare hbare, ← hs7]
    exact List.any_eq_true.mpr ⟨_, hin7, rfl⟩
  refine ⟨t, ?_, (joined_of_bare hbare).trans (by rw [← hs7]; rfl)⟩
  rw [powerGood_steps, h2, h6, bootStep_layout (booted_going rfl), plainStep, h7, bootStep_join hstop, plainStep, wholeStep_stops hfailed]

/-- Settles O60: power-on without failures, with a failed copy of the firmware, and stopped. -/
theorem powerOnBoots : Obligations.PowerOnBoots := by
  refine ⟨fun us s hfailed hcrc hc => ?_, fun us s ⟨u, hu⟩ hf hcrc hc => ?_, fun us s step hstep hin hothers => ?_⟩
  · obtain ⟨l, r, failed, cxl, ports, hexec, hr, hnil⟩ := powerGood_joins us (by simp [hfailed]) hcrc hc
    obtain ⟨rfl, hports⟩ := hnil hfailed
    refine ⟨_, hexec, rfl, rfl, rfl, rfl, ?_, rfl, rfl, rfl, rfl, rfl, rfl, hports, ?_⟩
    · show (s.plat.failed.any fun f => f.1 == 2) = false
      rw [hfailed]
      rfl
    · show (l ++ [r]).getLast?.map _ = _
      rw [List.getLast?_concat, Option.map_some, hr]
  · obtain ⟨l, r, failed, cxl, ports, hexec, -⟩ := powerGood_joins us hf hcrc hc
    refine ⟨_, hexec, ?_, rfl, rfl⟩
    exact List.any_eq_true.mpr ⟨_, hu, rfl⟩
  · simp only [List.mem_cons, List.not_mem_nil, or_false] at hstep
    rcases hstep with rfl | rfl
    · exact ⟨_, powerGood_stopsFirst us hin, rfl, rfl⟩
    · obtain ⟨t, hexec, hjoined⟩ := powerGood_stopsLast us hin fun f hf hmem => by
        have h8 := hothers f hf (by simp only [List.mem_cons, List.not_mem_nil, or_false] at hmem ⊢; omega)
        rw [h8] at hmem
        revert hmem
        decide
      exact ⟨_, hexec, rfl, hjoined⟩

end Sys2Proof.Laws

end

section
/-! SUPPORT. Requests and answers of other packages: their order, their seal, their acceptance (R316, R319, R320, R322). -/

open Sys2Proof Sys2Proof.Machine

namespace Sys2Proof.Laws

/-- A packet for this package, of its event's kind and a plane that the kind goes over, has its effect. -/
theorem arrive_takes {kind : BitVec 8} {p : Packet} {effect : State → State} {s : State} (hdst : p.dst = s.tabs.self) (hlen : p.blen ≤ 536)
    (hkind : p.kind = kind) (hknown : (kindKnown kind && planeOk kind p.plane) = true) : arrive kind p effect s = .next (effect s) := by
  have hout : ¬(p.dst ≠ s.tabs.self ∨ 536 < p.blen) := by rw [not_or]; exact ⟨not_not.mpr hdst, by omega⟩
  rw [Bool.and_eq_true] at hknown
  obtain ⟨hk, hp⟩ := hknown
  unfold arrive
  rw [if_neg hout, hkind, hk, hp, if_neg (by decide), if_neg (not_not.mpr rfl)]

theorem inTurn_due {p : Packet} {s : State} (h : p.fseq = expected s p) (effect : State → State) :
    inTurn p effect s = effect (setExpected p (p.fseq + 1) s) := by
  unfold inTurn
  rw [if_neg (not_not.mpr h)]

theorem inTurn_undue {p : Packet} {s : State} (h : p.fseq ≠ expected s p) (effect : State → State) : inTurn p effect s = s := by
  unfold inTurn
  rw [if_pos h]

/-! ### Requests -/

theorem receive_undue {p : Packet} {s : State} (h : p.fseq ≠ expected s p) : receive p s = s := by
  unfold receive
  rw [if_pos h]

theorem receive_unsealed {p : Packet} {s : State} (h : p.fseq = expected s p) (hseal : sealOk s p = false) :
    receive p s = releaseAll (noteExposed p (setExpected p (p.fseq + 1) (refuseSeal p s))) := by
  unfold receive
  rw [if_neg (not_not.mpr h), if_pos (by rw [hseal]; rfl)]

theorem receive_exposes {p : Packet} {s : State} (h : p.fseq = expected s p) (hseal : sealOk s p = true) (hmay : mayExpose s s.fab.held p = true) :
    receive p s = releaseAll (exposeNow p (setExpected p (p.fseq + 1) s)) := by
  unfold receive
  rw [if_neg (not_not.mpr h), if_neg (by rw [hseal]; decide), if_pos hmay]

theorem releaseAll_empty {s : State} (h : s.fab.held = []) : releaseAll s = s := by
  unfold releaseAll
  rw [h]
  rfl

theorem expected_setExpected (p : Packet) (n : BitVec 16) (s : State) : expected (setExpected p n s) p = n := by
  unfold expected setExpected
  dsimp only
  rw [List.find?_append]
  have hnone : (s.fab.expects.filter fun e => !(e.src == p.src.toNat && e.sctx == p.sctx.toNat && e.plane == flowClass p && e.label == p.flabel.toNat)).find?
      (fun e => e.src == p.src.toNat && e.sctx == p.sctx.toNat && e.plane == flowClass p && e.label == p.flabel.toNat) = none := by
    rw [List.find?_eq_none]
    intro e he hp
    obtain ⟨-, hkeep⟩ := List.mem_filter.mp he
    rw [hp] at hkeep
    cases hkeep
  rw [hnone]
  simp

/-- R319: a request whose seal fails is refused under key 0. -/
theorem receive_refuses {p : Packet} {s : State} (h : p.fseq = expected s p) (hsrc : p.src ≠ s.tabs.self) (hseal : sealOk s p = false)
    (hheld : s.fab.held = []) : receive p s = noteExposed p (setExpected p (p.fseq + 1) (sendOut { answerTo { p with keyid := 0 } 0x07 0x0005 [] with opinfo := p.kind } s)) := by
  rw [receive_unsealed h hseal, refuseSeal, if_neg hsrc]
  exact releaseAll_empty hheld

/-! ### The statement -/

theorem request_arrives {i : Instr} {kind : BitVec 8} {p : Packet} {s : State} (he : exec i s = held s (arrive kind p (receive p) s))
    (hdst : p.dst = s.tabs.self) (hplane : p.plane = 1) (hlen : p.blen ≤ 536) (hkind : p.kind = kind)
    (hknown : (kindKnown kind && planeOk kind 1) = true) : exec i s = .next (keep s (receive p s)) := by
  rw [he, arrive_takes hdst hlen hkind (by rw [hplane]; exact hknown)]
  rfl

/-- Settles O52: requests and answers of other packages. -/
theorem fabricArrivals : Obligations.FabricArrivals := by
  unfold Obligations.FabricArrivals
  refine ⟨?_, ?_, fun p s h => receive_undue h, ?_, fun p s h hseal hmay => receive_exposes h hseal hmay, ?_, ?_, ?_⟩
  · intro p s i hdst hi hplane hlen
    simp only [List.mem_cons, Prod.mk.injEq, List.not_mem_nil, or_false] at hi
    rcases hi with ⟨rfl, hk⟩ | ⟨rfl, hk⟩ | ⟨rfl, hk⟩ | ⟨rfl, hk⟩ | ⟨rfl, hk⟩ | ⟨rfl, hk⟩
    · exact request_arrives (exec_write p s) hdst hplane hlen hk rfl
    · exact request_arrives (exec_atomicReturning p s) hdst hplane hlen hk rfl
    · exact request_arrives (exec_atomicNotReturning p s) hdst hplane hlen hk rfl
    · exact request_arrives (exec_readRequest p s) hdst hplane hlen hk rfl
    · exact request_arrives (exec_peerPut p s) hdst hplane hlen hk rfl
    · exact request_arrives (exec_peerAdd p s) hdst hplane hlen hk rfl
  · intro p s hdst hplane hlen
    refine ⟨fun hk => ?_, fun hk => ?_⟩
    · rw [exec_reductionContribution, execReductionContribution, arrive_takes hdst hlen hk (by rw [hplane]; rfl)]
      rfl
    · rw [exec_reductionResult, execReductionResult, arrive_takes hdst hlen hk (by rw [hplane]; rfl)]
      rfl
  · intro p s h hsrc hseal hheld
    rw [receive_refuses h hsrc hseal hheld]
    exact ⟨_, rfl, rfl, rfl, rfl, rfl, rfl, rfl, expected_setExpected p _ _⟩
  · intro p s hdst hlen h s1
    refine ⟨fun hk hplane => ?_, fun hk hplane => ?_, fun hk hplane => ?_⟩
    · rw [exec_readResponse, execReadResponse, arrive_takes hdst hlen hk (by rw [hplane]; rfl), inTurn_due h]
      rfl
    · rw [exec_acknowledgement, execAcknowledgement, arrive_takes hdst hlen hk (by rcases hplane with hp | hp <;> rw [hp] <;> rfl), inTurn_due h]
      rfl
    · rw [exec_refusal, execRefusal, arrive_takes hdst hlen hk (by rcases hplane with hp | hp <;> rw [hp] <;> rfl), inTurn_due h]
      rfl
  · intro p s hdst hlen hplane h
    refine ⟨fun hk => ?_, fun hk => ?_, fun hk => ?_⟩
    · rw [exec_readResponse, execReadResponse, arrive_takes hdst hlen hk (by rw [hplane]; rfl), inTurn_undue h]
      rfl
    · rw [exec_acknowledgement, execAcknowledgement, arrive_takes hdst hlen hk (by rw [hplane]; rfl), inTurn_undue h]
      rfl
    · rw [exec_refusal, execRefusal, arrive_takes hdst hlen hk (by rw [hplane]; rfl), inTurn_undue h]
      rfl
  · intro r s hgrant hrouter
    rw [exec_slotRequest, execSlotRequest, hgrant]
    dsimp only
    rw [if_neg (not_not.mpr hrouter)]
    rfl

end Sys2Proof.Laws

end

section
/-! SUPPORT. The loss of a region that an exited rank's atomic is on its way to (R303): the host is told of its fault by a record in memory. -/

open Sys2Proof Sys2Proof.Machine

namespace Sys2Proof.Laws

set_option maxRecDepth 100000

/-- An atomic without result on the first word of region 5. -/
def lateAtomic : Instr :=
  .atom { c := plainCtl, op := .add, acq := false, rel := false, sc := 0, fl := 0, nr := true, ty := .b32, d := .sp .zero, a := .v 0, b := .v 2, x := .sp .zero, disp := 0 }

/-- Its entry in its rank, waiting for its one access. -/
def lateEntry : Entry :=
  { word := encode lateAtomic, state := .issued, cls := .s, drop := false, zeroed := 0, unif := false, pc := 0, mask := 1, tagBase := 0, prog := 0, status := 0, cause := 0, block := [], slots := [], id := 1, left := 1, got := [], bad := none, replayed := false }

/-- Its packet, which package 1 has not answered. -/
def lateRequest : Unacked :=
  { packet := { Packet.empty with dst := 1, kind := 0x03, plane := 1, addr := 5 * 2 ^ 30 }, ctx := 0, owner := .entry 0 0 1 0, number := 0, posted := true, launch := 0, pc := 0, retryAt := none, off := 0, access := 0, stale := false, acked := none }

def lostRegion : Region :=
  { home := 1, mirror := none, isLost := false, moving := false, copying := false, unprotected := false, awaits := [], notIndependent := false }

/-- Every thread of the rank has exited, region 5 is package 1's, and the host queue of 16 records stands at 4096. -/
def lateState : State :=
  let s := State.reset.withFetchWord 96 (encode lateAtomic).toNat
  let s1 := modRank 0 0 (fun k => { k with threads := k.threads.map fun t => { t with exited := true }, live := [lateEntry] }) s
  { s1 with mem := setByte s1.mem 4096 4, tabs := { s1.tabs with hevq := 4096 }, regions := [(5, lostRegion)], fab := { s1.fab with unacked := [lateRequest] } }

theorem lateState_mem : byteAt (regionAfterLoss 1 (5, lostRegion) lateState).mem 4104 ≠ byteAt lateState.mem 4104 := by decide

/-- Refutes O55: region 5 is lost with its home while an atomic of an exited rank is on its way there. The atomic raises its fault, which the
host is told of by a record in its queue: memory is not as it was. -/
theorem not_lossAndMirrors : ¬ Obligations.LossAndMirrors := by
  intro h
  obtain ⟨-, hloss, -⟩ := h
  obtain ⟨-, hmem⟩ := hloss 1 (5, lostRegion) lateState rfl rfl rfl rfl rfl
  exact lateState_mem (by rw [hmem])

end Sys2Proof.Laws

end

section
/-! SUPPORT. Links, replays, resets, retries and the load of the fabric's tables (R310, R314, R317, R320 to R322, R329, R356). -/

open Sys2Proof Sys2Proof.Machine

namespace Sys2Proof.Laws

/-! ### Flits -/

/-- A flit at a port that is up and not locked. -/
theorem flitReceive_open {n : Nat} {f : Flit} {s : State} {q : Port} (hq : s.fab.ports[n]? = some q) (hc : q.connected = true) (hl : q.locked = false) :
    exec (.flitReceive n f) s = heldPlat s (if !linkTagOk n q f then .next (flitBad n f s)
      else if f.lseq ≠ q.lseqIn.setWidth 32 then .next s else .next (flitGood n f s)) := by
  rw [exec_flitReceive, execFlitReceive, hq]
  dsimp only
  rw [hc, hl, if_neg (by decide)]
  rfl

theorem ports_modPort (n : Nat) (f : Port → Port) (s : State) : (modPort n f s).fab.ports[n]? = (s.fab.ports[n]?).map f := by
  rw [modPort, modAt_get, if_pos rfl]

theorem mem_modPort (n : Nat) (f : Port → Port) (s : State) : (modPort n f s).mem = s.mem := rfl

theorem groups_modPort (n : Nat) (f : Port → Port) (s : State) : (modPort n f s).groups = s.groups := rfl

theorem mem_report (r : FabReport) (s : State) : (report r s).mem = s.mem := rfl

theorem flitBad_first {n : Nat} {f : Flit} {s : State} {q : Port} (hq : s.fab.ports[n]? = some q) (h0 : q.fails = 0) :
    flitBad n f s = modPort n (fun q => { q with fails := 1 }) (report (.replayAsk n (q.lseqIn.setWidth 32)) (report (.linkError n) s)) := by
  unfold flitBad
  rw [hq]
  dsimp only
  rw [if_pos h0]

theorem ports_flitBad_first {n : Nat} {f : Flit} {s : State} {q : Port} (hq : s.fab.ports[n]? = some q) (h0 : q.fails = 0) :
    (flitBad n f s).fab.ports[n]? = some { q with fails := 1 } := by
  have hport : (report (.replayAsk n (q.lseqIn.setWidth 32)) (report (.linkError n) s)).fab.ports[n]? = some q := hq
  rw [flitBad_first hq h0, ports_modPort, hport]
  rfl

theorem flitReceive_cases {n : Nat} (f : Flit) {s : State} {q : Port} (hq : s.fab.ports[n]? = some q) (hc : q.connected = true) (hl : q.locked = false) :
    (linkTagOk n q f = true → f.lseq = q.lseqIn.setWidth 32 → exec (.flitReceive n f) s = .next (keepPlat s (flitGood n f s))) ∧
    (linkTagOk n q f = true → f.lseq ≠ q.lseqIn.setWidth 32 → exec (.flitReceive n f) s = .next s) ∧
    (linkTagOk n q f = false → exec (.flitReceive n f) s = .next (keepPlat s (flitBad n f s))) := by
  refine ⟨fun htag hseq => ?_, fun htag hseq => ?_, fun htag => ?_⟩
  · rw [flitReceive_open hq hc hl, htag, if_neg (by decide), if_neg (not_not.mpr hseq)]
    rfl
  · rw [flitReceive_open hq hc hl, htag, if_neg (by decide), if_pos hseq]
    rfl
  · rw [flitReceive_open hq hc hl, htag, Bool.not_false, if_pos rfl]
    rfl

theorem lockPort_locks {n : Nat} {s : State} {q : Port} (hq : s.fab.ports[n]? = some q) : (lockPort n s).fab.ports[n]? =
    some { q with fails := q.fails + 1, locked := true, retry := [], waiting := [], opened := [] } := by
  unfold lockPort
  rw [ports_modPort]
  dsimp only
  rw [hq]
  rfl

theorem linkReplay_sends {n : Nat} (lseq : BitVec 32) {s : State} {q : Port} (hq : s.fab.ports[n]? = some q) (hc : q.connected = true)
    (hl : q.locked = false) : exec (.linkReplayRequest n lseq) s = .next (keep s (modPort n (fun q => { q with
      sent := q.sent ++ (q.retry.map (·.flit)).filter fun g => decide ((g.lseq - lseq).toNat < 2 ^ 31) }) s)) := by
  rw [exec_linkReplayRequest, execLinkReplayRequest, hq]
  dsimp only
  rw [hc, hl, if_neg (by decide)]
  rfl

/-! ### Resets -/

/-- The state after a reset notice. -/
abbrev afterReset (src sctx : BitVec 12) (s : State) : State :=
  { dropTags src.toNat sctx.toNat s with fab := { s.fab with
      expects := s.fab.expects.filter fun e => !(e.src == src.toNat && e.sctx == sctx.toNat && (e.plane == 1 || e.plane == 2))
      exposures := s.fab.exposures.filter fun e => !(e.src == src.toNat && e.sctx == sctx.toNat)
      held := s.fab.held.filter fun p => !(p.src.toNat == src.toNat && p.sctx.toNat == sctx.toNat) } }

theorem resetNotice_next (src sctx : BitVec 12) (s : State) : exec (.resetNotice src sctx) s = .next (keep s (afterReset src sctx s)) := rfl

theorem expected_keep (s t : State) (p : Packet) : expected (keep s t) p = expected t p := rfl

theorem exposureOf_keep (s t : State) (a b : Nat) : exposureOf (keep s t) a b = exposureOf t a b := rfl

/-- What a filter keeps decides a search that asks for no more than it. -/
theorem find_filter_of_imp {α : Type} {p q : α → Bool} (h : ∀ a, p a = true → q a = true) (l : List α) : (l.filter q).find? p = l.find? p := by
  rw [List.find?_filter]
  congr 1
  funext a
  cases hp : p a with
  | false => simp
  | true => simp [h a hp]

theorem find_filter_of_not {α : Type} {p q : α → Bool} (h : ∀ a, p a = true → q a = false) (l : List α) : (l.filter q).find? p = none := by
  rw [List.find?_eq_none]
  intro a ha hp
  obtain ⟨-, hq⟩ := List.mem_filter.mp ha
  rw [h a hp] at hq
  cases hq

theorem expected_afterReset_of {src sctx : BitVec 12} (s : State) {p : Packet} (hsrc : p.src = src) (hctx : p.sctx = sctx)
    (hclass : flowClass p = 1 ∨ flowClass p = 2) : expected (afterReset src sctx s) p = 0 := by
  unfold expected
  rw [find_filter_of_not]
  · rfl
  · intro e he
    simp only [Bool.and_eq_true, beq_iff_eq] at he
    obtain ⟨⟨⟨h1, h2⟩, h3⟩, -⟩ := he
    rcases hclass with hclass | hclass <;> simp [h1, h2, h3, hsrc, hctx, hclass]

theorem expected_afterReset_other {src sctx : BitVec 12} (s : State) {p : Packet} (h : p.src ≠ src ∨ p.sctx ≠ sctx) :
    expected (afterReset src sctx s) p = expected s p := by
  unfold expected
  rw [find_filter_of_imp]
  intro e he
  simp only [Bool.and_eq_true, beq_iff_eq] at he
  obtain ⟨⟨⟨h1, h2⟩, -⟩, -⟩ := he
  have hne : ¬(p.src.toNat = src.toNat ∧ p.sctx.toNat = sctx.toNat) := fun ⟨ha, hb⟩ => h.elim (fun h => h (BitVec.eq_of_toNat_eq ha)) fun h => h (BitVec.eq_of_toNat_eq hb)
  rw [h1, h2, Bool.not_eq_true', Bool.eq_false_iff]
  intro hboth
  simp only [Bool.and_eq_true, beq_iff_eq] at hboth
  exact hne hboth.1

theorem exposure_afterReset (src sctx : BitVec 12) (s : State) : (exposureOf (afterReset src sctx s) src.toNat sctx.toNat).e = 0 := by
  unfold exposureOf
  rw [find_filter_of_not]
  · rfl
  · intro e he
    rw [he]
    rfl

/-! ### Loads of the tables -/

theorem passOn_keeps (r : Nat → FabReport) (s : State) : (passOn r s).tabs = s.tabs ∧ (passOn r s).mem = s.mem ∧ (passOn r s).groups = s.groups := by
  unfold passOn
  generalize List.range s.fab.ports.length = l
  induction l generalizing s with
  | nil => exact ⟨rfl, rfl, rfl⟩
  | cons n l ih =>
    obtain ⟨htabs, hmem, hgroups⟩ := ih (if (s.fab.ports[n]?.map fun q => q.connected && !q.locked).getD false then report (r n) s else s)
    rw [List.foldl_cons]
    refine ⟨htabs.trans ?_, hmem.trans ?_, hgroups.trans ?_⟩ <;> (split <;> rfl)

/-- The news goes out over every port that is up and not locked. -/
theorem passOn_reports (r : Nat → FabReport) {s : State} {n : Nat} {q : Port} (hq : s.fab.ports[n]? = some q) (hc : q.connected = true)
    (hl : q.locked = false) : r n ∈ (passOn r s).fab.reports := by
  have hkeep : ∀ (l : List Nat) (s : State), (∀ f ∈ s.fab.reports, f ∈ (l.foldl (fun s n =>
      if (s.fab.ports[n]?.map fun q => q.connected && !q.locked).getD false then report (r n) s else s) s).fab.reports) ∧
      (n ∈ l → s.fab.ports[n]? = some q → r n ∈ (l.foldl (fun s n =>
      if (s.fab.ports[n]?.map fun q => q.connected && !q.locked).getD false then report (r n) s else s) s).fab.reports) := by
    intro l
    induction l with
    | nil => exact fun s => ⟨fun f hf => hf, fun h => (List.not_mem_nil h).elim⟩
    | cons m l ih =>
      intro s
      simp only [List.foldl_cons]
      obtain ⟨hold, hnew⟩ := ih (if (s.fab.ports[m]?.map fun q => q.connected && !q.locked).getD false then report (r m) s else s)
      refine ⟨fun f hf => hold f ?_, fun hin hport => ?_⟩
      · split
        · exact List.mem_append_left _ hf
        · exact hf
      · rcases List.mem_cons.mp hin with rfl | hin
        · refine hold _ ?_
          rw [hport, if_pos (by simp [hc, hl])]
          exact List.mem_append_right _ (List.mem_singleton.mpr rfl)
        · refine hnew hin ?_
          split
          · exact hport
          · exact hport
  exact (hkeep _ s).2 (List.mem_range.mpr (List.getElem?_eq_some_iff.mp hq).1) hq

theorem tableLoad_passed {tl : TableLoad} {s : State} (h : loadsHere tl s = false) : exec (.tableLoad tl) s = .next (keepPlat s (passLoad tl s)) := by
  rw [exec_tableLoad, execTableLoad, h, Bool.not_false, if_pos rfl]
  rfl

theorem passLoad_keeps (tl : TableLoad) (s : State) : (passLoad tl s).tabs = s.tabs ∧ (passLoad tl s).mem = s.mem ∧ (passLoad tl s).groups = s.groups := by
  unfold passLoad
  split
  · exact ⟨rfl, rfl, rfl⟩
  · exact passOn_keeps ..

theorem tableLoad_loads {tl : TableLoad} {s : State} (h : loadsHere tl s = true) : ∃ t, exec (.tableLoad tl) s = .next t ∧ t.tabs.self = tl.self ∧
      t.tabs.ndom = tl.ndom ∧ t.tabs.domh = domhOf t.tabs.scopes tl.ndom.toNat ∧ t.tabs.scopeValid = true ∧
      t.tabs.scopeGen = s.tabs.scopeGen + 1 ∧ t.tabs.keys = s.tabs.keys ∧ t.mem = s.mem ∧ t.groups = s.groups ∧
      (∀ d e, d < 4096 → tl.routes = [(d, e)] → routeEntry t d = e) ∧ t.tabs.domain = tl.domain.map (·.toNat) := by
  rw [exec_tableLoad, execTableLoad, h, Bool.not_true, if_neg Bool.false_ne_true]
  refine ⟨_, rfl, rfl, rfl, rfl, rfl, rfl, rfl, rfl, rfl, fun d e hd hroutes => ?_, rfl⟩
  show sgetD d 0 (tl.routes.foldl (fun m e => if e.1 < 4096 then sput 0 e.1 e.2 m else m) []) = e
  rw [hroutes, List.foldl_cons, List.foldl_nil, if_pos hd, sgetD_sput _ _ _ _ _ rfl, if_pos rfl]

/-- Settles O56: links, replays, locked ports, resets, retries, the heartbeat and the load of the fabric's tables. -/
theorem linksAndTables : Obligations.LinksAndTables := by
  unfold Obligations.LinksAndTables
  refine ⟨?_, ?_, fun n pkg s => rfl, ?_, ?_, ?_, ?_, ?_, fun tl s h => tableLoad_loads h⟩
  · intro n f s q hq hc hl
    obtain ⟨hgood, hlate, hbad⟩ := flitReceive_cases f hq hc hl
    refine ⟨hgood, hlate, fun htag h0 => ⟨_, hbad htag, ?_, ?_, ?_⟩, fun htag _ => ⟨_, hbad htag, rfl, lockPort_locks hq⟩⟩
    · rw [flitBad_first hq h0]
      exact List.append_assoc ..
    · rw [keepPlat_fab]
      exact ports_flitBad_first hq h0
    · rw [flitBad_first hq h0, keepPlat_mem, mem_modPort, mem_report, mem_report]
  · intro n lseq s q hq hc hl
    refine ⟨_, linkReplay_sends lseq hq hc hl, ?_, ?_, ?_⟩
    · rw [keep_fab, ports_modPort, hq]
      rfl
    · rw [keep_mem, mem_modPort]
    · rw [keep_groups, groups_modPort]
  · intro src sctx s
    refine ⟨_, resetNotice_next src sctx s, keep_mem .., keep_groups .., fun p hsrc hctx hclass => ?_, fun p h => ?_⟩
    · rw [expected_keep, exposureOf_keep]
      exact ⟨expected_afterReset_of s hsrc hctx hclass, exposure_afterReset src sctx s⟩
    · rw [expected_keep]
      exact expected_afterReset_other s h
  · intro k u s hu hdue
    rw [exec_ordRetryResend, execOrdRetryResend, hu]
    dsimp only
    rw [if_pos hdue]
    rfl
  · intro k u s hu hdue
    rw [exec_peerRetryResend, execPeerRetryResend, hu]
    dsimp only
    rw [if_pos hdue]
    rfl
  · exact fun s => ⟨_, rfl, rfl, rfl⟩
  · intro tl s h
    obtain ⟨htabs, hmem, hgroups⟩ := passLoad_keeps tl s
    refine ⟨_, tableLoad_passed h, htabs, hmem, hgroups, fun hnew n q hq hc hl => ?_⟩
    show FabReport.loadOn n tl.self.toNat ∈ (passLoad tl s).fab.reports
    rw [passLoad, if_neg hnew]
    exact passOn_reports (fun n => .loadOn n tl.self.toNat) hq hc hl

end Sys2Proof.Laws

end

section
/-! SUPPORT. Rows, layers and the two-phase change of a layout (R292, R297 to R299, R372 to R378). -/

open Sys2Proof Sys2Proof.Machine

namespace Sys2Proof.Laws

/-! ### The commit word and the two copies -/

/-- The commit word and the two copies of the layout stay. -/
structure SameLayout (s t : State) : Prop where
  commit : t.plat.commit = s.plat.commit
  copy0 : t.plat.copy0 = s.plat.copy0
  copy1 : t.plat.copy1 = s.plat.copy1

theorem sameLayout_trans {a b c : State} (h : SameLayout a b) (h' : SameLayout b c) : SameLayout a c :=
  ⟨h'.commit.trans h.commit, h'.copy0.trans h.copy0, h'.copy1.trans h.copy1⟩

theorem sameLayout_plat {s t : State} (h : t.plat = s.plat) : SameLayout s t := ⟨by rw [h], by rw [h], by rw [h]⟩

theorem commitState_same {s t : State} (h : SameLayout s t) : commitState t = commitState s := by rw [commitState, h.commit]; rfl

theorem layoutActive_same {s t : State} (h : SameLayout s t) : layoutActive t = layoutActive s := by
  rw [layoutActive, h.commit, h.copy0, h.copy1]
  rfl

theorem layoutShadow_same {s t : State} (h : SameLayout s t) : layoutShadow t = layoutShadow s := by
  rw [layoutShadow, h.commit, h.copy0, h.copy1]
  rfl

theorem sameLayout_journalCommit (n r : Nat) (s : State) : SameLayout s (journalCommit n r s) := by
  unfold journalCommit
  obtain ⟨l, rec, heq, -⟩ := journalNow_adds (mgmtUs s) (0x80 + n) 0xFF r 0 0 s
  rw [heq]
  exact ⟨rfl, rfl, rfl⟩

theorem sameLayout_mgmtPost (r : Record) (s : State) : SameLayout s (mgmtPost r s) := sameLayout_plat (aside_postHost _ s).plat

theorem sameLayout_respondTo (h : HostCmd) (st : BitVec 16) (body : List Byte) (s : State) : SameLayout s (respondTo h st body s) := ⟨rfl, rfl, rfl⟩

theorem sameLayout_settleCmd (h : HostCmd) (st : BitVec 16) (n : Nat) (s : State) : SameLayout s (settleCmd h st n s) :=
  sameLayout_trans (sameLayout_respondTo h st [] s) (sameLayout_mgmtPost ..)

theorem sameLayout_activating (q : Option (BitVec 64)) (s : State) : SameLayout s (modPlat (fun p => { p with activating := q }) s) := ⟨rfl, rfl, rfl⟩

theorem sameLayout_applyLayout (old : Sparse PartRec) (s : State) : SameLayout s (applyLayout old s) := sameLayout_plat (applyLayout_plat old s)

/-- The low bits of a commit word that is written are its state. -/
theorem commitWord_state (c : BitVec 32) {st : Nat} (h : st < 4) : ((c &&& 4) ||| BitVec.ofNat 32 st).toNat % 4 = st := by
  have hst : (BitVec.ofNat 32 st).toNat = st := by rw [BitVec.toNat_ofNat]; omega
  have h4 : c.toNat &&& (4 : BitVec 32).toNat = c.toNat / 4 % 2 * 4 := by
    rw [show (4 : BitVec 32).toNat = 2 ^ 2 from rfl, Nat.and_two_pow, Nat.testBit_eq_decide_div_mod_eq]
    have : c.toNat / 2 ^ 2 % 2 < 2 := Nat.mod_lt _ (by decide)
    by_cases hb : c.toNat / 2 ^ 2 % 2 = 1
    · simp only [hb, decide_true, Bool.toNat_true]
      omega
    · simp only [hb, decide_false, Bool.toNat_false]
      omega
  rw [BitVec.toNat_or, BitVec.toNat_and, hst, h4, show 4 = 2 ^ 2 from rfl, Nat.or_mod_two_pow, Nat.mul_mod_left, Nat.zero_or]
  omega

theorem commitWord_bit (c : BitVec 32) {st : Nat} (h : st < 4) : ((c &&& 4) ||| BitVec.ofNat 32 st).getLsbD 2 = c.getLsbD 2 := by
  have hst : (BitVec.ofNat 32 st).getLsbD 2 = false := by
    rw [BitVec.getLsbD_ofNat]
    simp [Nat.testBit_lt_two_pow (i := 2) (x := st) (by omega)]
  rw [BitVec.getLsbD_or, BitVec.getLsbD_and, hst, Bool.or_false, show (4 : BitVec 32).getLsbD 2 = true from rfl, Bool.and_true]

theorem commitState_setCommit {st : Nat} (h : st < 4) (s : State) : commitState (setCommit st s) = st := commitWord_state s.plat.commit h

theorem layoutActive_setCommit {st : Nat} (h : st < 4) (s : State) : layoutActive (setCommit st s) = layoutActive s := by
  show (if ((s.plat.commit &&& 4) ||| BitVec.ofNat 32 st).getLsbD 2 then s.plat.copy1 else s.plat.copy0) = _
  rw [commitWord_bit _ h]
  rfl

theorem layoutShadow_setCommit {st : Nat} (h : st < 4) (s : State) : layoutShadow (setCommit st s) = layoutShadow s := by
  show (if ((s.plat.commit &&& 4) ||| BitVec.ofNat 32 st).getLsbD 2 then s.plat.copy0 else s.plat.copy1) = _
  rw [commitWord_bit _ h]
  rfl

theorem setShadow_commit (l : Sparse PartRec) (s : State) : (setShadow l s).plat.commit = s.plat.commit := by
  unfold setShadow
  split <;> rfl

theorem setActive_commit (l : Sparse PartRec) (s : State) : (setActive l s).plat.commit = s.plat.commit := by
  unfold setActive
  split <;> rfl

theorem layoutActive_setShadow (l : Sparse PartRec) (s : State) : layoutActive (setShadow l s) = layoutActive s := by
  unfold layoutActive
  rw [setShadow_commit]
  unfold setShadow
  by_cases h : s.plat.commit.getLsbD 2 = true
  · rw [if_pos h, if_pos h, if_pos h]
    rfl
  · rw [if_neg h, if_neg h, if_neg h]
    rfl

theorem layoutShadow_setShadow (l : Sparse PartRec) (s : State) : layoutShadow (setShadow l s) = l := by
  unfold layoutShadow
  rw [setShadow_commit]
  unfold setShadow
  by_cases h : s.plat.commit.getLsbD 2 = true
  · rw [if_pos h, if_pos h]
    rfl
  · rw [if_neg h, if_neg h]
    rfl

theorem checkRecord_commit (b : Bool) (p : Nat) (s : State) : (checkRecord b p s).plat.commit = s.plat.commit := by
  unfold checkRecord
  split
  · rfl
  · split
    · exact setActive_commit ..
    · exact (sameLayout_mgmtPost _ _).commit.trans (setActive_commit ..)

theorem checkActive_commit (b : Bool) (s : State) : (checkActive b s).plat.commit = s.plat.commit := by
  unfold checkActive
  generalize List.range 64 = l
  induction l generalizing s with
  | nil => rfl
  | cons p l ih => exact (ih _).trans (checkRecord_commit b p s)

/-! ### The copy of a layout -/

theorem commitState_copyLayout (s : State) : commitState (copyLayout s) = 0 :=
  (commitState_same (sameLayout_journalCommit ..)).trans (commitState_setCommit (by decide) _)

theorem layoutActive_copyLayout (s : State) : layoutActive (copyLayout s) = layoutActive s :=
  (layoutActive_same (sameLayout_journalCommit ..)).trans ((layoutActive_setCommit (by decide) _).trans (layoutActive_setShadow ..))

theorem layoutShadow_copyLayout (s : State) : layoutShadow (copyLayout s) = layoutActive s :=
  (layoutShadow_same (sameLayout_journalCommit ..)).trans ((layoutShadow_setCommit (by decide) _).trans (layoutShadow_setShadow ..))

/-! ### The commands of a layout -/

theorem commitState_of_commit {s t : State} (h : t.plat.commit = s.plat.commit) : commitState t = commitState s := by
  rw [commitState, h]
  rfl

theorem settleCmd_tabs (h : HostCmd) (st : BitVec 16) (n : Nat) (s : State) : (settleCmd h st n s).tabs = s.tabs := by
  unfold settleCmd mgmtPost
  exact (aside_postHost ..).tabs

theorem journalCommit_tabs (n r : Nat) (s : State) : (journalCommit n r s).tabs = s.tabs := by
  unfold journalCommit
  obtain ⟨l, rec, heq, -⟩ := journalNow_adds (mgmtUs s) (0x80 + n) 0xFF r 0 0 s
  rw [heq]

theorem layoutPrepare_writes {h : HostCmd} {s : State} (hc : CmdOk h s 1 16384) {new : Sparse PartRec}
    (hnew : new = ((List.range 64).map fun p => PartRec.ofBytes ((h.body.drop (256 * p)).take 256)).zipIdx.map fun r => (r.2, PartRec.sealed r.1))
    (hok : layoutBad ((List.range 64).map fun p => PartRec.ofBytes ((h.body.drop (256 * p)).take 256)) 0 {} = none)
    (hbusy : layoutBusy s (layoutActive s) new = none) : ∃ t, exec (.layoutPrepare h) s = .next t ∧ commitState t = 1 ∧
      layoutShadow t = new ∧ layoutActive t = layoutActive s ∧ t.tabs.bufs = s.tabs.bufs := by
  subst hnew
  rw [exec_layoutPrepare, execLayoutPrepare, hostCmd_runs hc (size := fixedSize 16384) rfl]
  dsimp only
  rw [hok, hbusy]
  dsimp only
  generalize (((List.range 64).map fun p => PartRec.ofBytes ((h.body.drop (256 * p)).take 256)).zipIdx.map fun r => (r.2, PartRec.sealed r.1)) = new
  have hsame : SameLayout (setCommit 1 (setShadow new s)) (settleCmd h 0 0 (journalCommit 1 0 (setCommit 1 (setShadow new s)))) :=
    sameLayout_trans (sameLayout_journalCommit ..) (sameLayout_settleCmd ..)
  refine ⟨_, rfl, ?_, ?_, ?_, ?_⟩
  · rw [commitState_same hsame, commitState_setCommit (by decide)]
  · rw [layoutShadow_same hsame, layoutShadow_setCommit (by decide), layoutShadow_setShadow]
  · rw [layoutActive_same hsame, layoutActive_setCommit (by decide), layoutActive_setShadow]
  · rw [settleCmd_tabs, journalCommit_tabs, setCommit, modPlat_tabs]
    unfold setShadow
    split <;> rfl

theorem flipActive_swaps (s : State) : commitState (flipActive s) = 2 ∧ layoutActive (flipActive s) = layoutShadow s ∧
    layoutShadow (flipActive s) = layoutActive s := by
  have hbit : (((s.plat.commit ^^^ 4) &&& 4) ||| (2 : BitVec 32)).getLsbD 2 = !s.plat.commit.getLsbD 2 := by
    rw [show (2 : BitVec 32) = BitVec.ofNat 32 2 from rfl, commitWord_bit _ (by decide), BitVec.getLsbD_xor, show (4 : BitVec 32).getLsbD 2 = true from rfl,
      Bool.xor_true]
  refine ⟨commitWord_state (s.plat.commit ^^^ 4) (by decide : 2 < 4), ?_, ?_⟩
  · show (if (((s.plat.commit ^^^ 4) &&& 4) ||| (2 : BitVec 32)).getLsbD 2 then s.plat.copy1 else s.plat.copy0) = _
    rw [hbit, layoutShadow]
    cases s.plat.commit.getLsbD 2 <;> rfl
  · show (if (((s.plat.commit ^^^ 4) &&& 4) ||| (2 : BitVec 32)).getLsbD 2 then s.plat.copy0 else s.plat.copy1) = _
    rw [hbit, layoutActive]
    cases s.plat.commit.getLsbD 2 <;> rfl

theorem layoutActivate_swaps {h : HostCmd} {s : State} (hc : CmdOk h s 2 0) (h1 : commitState s = 1)
    (hbusy : layoutBusy s (layoutActive s) (layoutShadow s) = none) : ∃ t, exec (.layoutActivate h) s = .next t ∧ commitState t = 2 ∧
      layoutActive t = layoutShadow s ∧ layoutShadow t = layoutActive s := by
  rw [exec_layoutActivate, execLayoutActivate, hostCmd_runs hc (size := fixedSize 0) rfl]
  rw [if_neg (not_not.mpr h1), hbusy]
  obtain ⟨hstate, hactive, hshadow⟩ := flipActive_swaps s
  have hsame := sameLayout_trans (sameLayout_journalCommit 2 0 (flipActive s))
    (sameLayout_trans (sameLayout_respondTo h 0 [] _) (sameLayout_activating (some h.seq) _))
  exact ⟨_, rfl, (commitState_same hsame).trans hstate, (layoutActive_same hsame).trans hactive, (layoutShadow_same hsame).trans hshadow⟩

/-! ### The steps of a commit -/

theorem mgmtRuns_plat {s t : State} (h : t.plat = s.plat) : mgmtRuns t = mgmtRuns s := by rw [mgmtRuns, h]; rfl

/-- A commit in state 2 applies the layout. -/
theorem commitStep_applies {s : State} (hr : mgmtRuns s = true) (h2 : commitState s = 2) :
    commitStep s = journalCommit 3 0 (setCommit 3 (applyLayout (layoutShadow s) s)) := by
  unfold commitStep
  rw [hr, h2]
  rfl

/-- A commit in state 3 makes the copies equal, and tells the host. -/
theorem commitStep_copies {s : State} (hr : mgmtRuns s = true) (h3 : commitState s = 3) : SameLayout (copyLayout s) (commitStep s) := by
  unfold commitStep
  rw [hr, h3, Bool.not_true, if_neg Bool.false_ne_true]
  generalize copyLayout s = c
  split
  · next h => cases h
  · dsimp only
    split
    · exact sameLayout_trans (sameLayout_activating none c) (sameLayout_mgmtPost ..)
    · exact ⟨rfl, rfl, rfl⟩
  · next h => exact (h rfl).elim

theorem step_commit {s : State} {l : List Act} (ha : s.agenda = .commit :: l) : step s = .next (commitStep (settleDue { s with agenda := l })) := by
  have hnext : nextAct s = .commit := by rw [nextAct, ha]; rfl
  have hpop : popAct s = settleDue { s with agenda := l } := by
    unfold popAct
    rw [ha]
    rfl
  rw [step, hnext, hpop]

theorem commit_advances {s : State} {l : List Act} (hr : mgmtRuns s = true) (ha : s.agenda = .commit :: l) (hc : commitState s = 2 ∨ commitState s = 3) :
    ∃ t, step s = .next t ∧ commitState t = (commitState s + 1) % 4 ∧ layoutActive t = layoutActive s ∧
      (commitState s = 3 → layoutShadow t = layoutActive s) := by
  have hplat : (settleDue { s with agenda := l }).plat = s.plat := settleDue_plat { s with agenda := l }
  have hsame : SameLayout s (settleDue { s with agenda := l }) := sameLayout_plat hplat
  have hruns : mgmtRuns (settleDue { s with agenda := l }) = true := (mgmtRuns_plat hplat).trans hr
  refine ⟨_, step_commit ha, ?_⟩
  rw [← commitState_same hsame, ← layoutActive_same hsame] at *
  generalize settleDue { s with agenda := l } = s1 at *
  rcases hc with h2 | h3
  · have hafter := sameLayout_journalCommit 3 0 (setCommit 3 (applyLayout (layoutShadow s1) s1))
    rw [commitStep_applies hruns h2, commitState_same hafter, layoutActive_same hafter, commitState_setCommit (by decide), layoutActive_setCommit (by decide),
      layoutActive_same (sameLayout_applyLayout ..), h2]
    exact ⟨rfl, rfl, fun h => absurd h (by decide)⟩
  · have hafter := commitStep_copies hruns h3
    rw [commitState_same hafter, layoutActive_same hafter, layoutShadow_same hafter, commitState_copyLayout, layoutActive_copyLayout, layoutShadow_copyLayout, h3]
    exact ⟨rfl, rfl, fun _ => rfl⟩

/-! ### The restart of the management processor -/

theorem commitState_resumeCommit (s : State) : commitState (resumeCommit s) = 0 := by
  have hlt : commitState s < 4 := Nat.mod_lt _ (by decide)
  have hidle : commitState (modPlat (fun p => { p with activating := none }) s) = commitState s := rfl
  unfold resumeCommit
  dsimp only
  generalize modPlat (fun p => { p with activating := none }) s = s0 at *
  rw [← hidle] at hlt
  split
  · exact (commitState_same (sameLayout_mgmtPost ..)).trans ((commitState_same (sameLayout_journalCommit ..)).trans (commitState_setCommit (by decide) _))
  · exact commitState_copyLayout _
  · exact commitState_copyLayout _
  · next h1 h2 h3 =>
    have h1 : commitState s0 ≠ 1 := h1
    have h2 : commitState s0 ≠ 2 := h2
    have h3 : commitState s0 ≠ 3 := h3
    omega

theorem mpRestart_resumes {s : State} (hr : mgmtRuns s = true) : ∃ t, exec .mpRestart s = .next t ∧ commitState t = 0 := by
  rw [exec_mpRestart, execMpRestart, hr, Bool.not_true, if_neg Bool.false_ne_true]
  split
  · exact ⟨_, rfl, commitState_resumeCommit s⟩
  · exact ⟨_, rfl, (commitState_of_commit (checkActive_commit ..)).trans (commitState_resumeCommit s)⟩

theorem mpRestart_idle {s : State} (hr : mgmtRuns s = true) (h0 : commitState s = 0)
    (hcrc : ∀ p, p < 64 → PartRec.crcOk (recordAt (layoutActive s) p) = true) : exec .mpRestart s = .next (idleCommit s) := by
  rw [exec_mpRestart, execMpRestart, hr, Bool.not_true, if_neg Bool.false_ne_true, if_neg (by rw [h0]; decide), resumeCommit_idle h0]
  exact congrArg _ (checkActive_passes (s := idleCommit s) hcrc)

/-! ### Rows and layers -/

theorem patrolScrub_row {chan row : Nat} {s : State} (found : ScrubResult) (hrow : isRow chan row = true)
    (hf : s.plat.failedRows.contains (chan, row) = false) : exec (.patrolScrub chan row found) s = heldBase s (match found with
      | .clean => .next s
      | .uncorrectable => .next (failRow chan row s)
      | .corrected => if rowClassOf s chan row = 2 then .next (failRow chan row s)
        else .next (reportRow chan row 0x100 (modPlat (setRowClass chan row (rowClassOf s chan row + 1)) s))) := by
  rw [exec_patrolScrub]
  unfold execPatrolScrub
  rw [hrow, hf, Bool.not_true, Bool.false_or, if_neg Bool.false_ne_true] <;> rfl

theorem retire_noted {h : HostCmd} {s : State} (hc : CmdOk h s 0x50 8) (hstack : field h.body 0 4 < 12) (hlayer : field h.body 4 4 < 16)
    (hret : layerRetired s (field h.body 0 4) (field h.body 4 4) = false) (hused : layerUsed s (field h.body 0 4) (field h.body 4 4) = false)
    (hnew : ∀ r ∈ s.plat.retiring, r.1 ≠ field h.body 0 4 ∨ r.2.1 ≠ field h.body 4 4) : ∃ t, exec (.retire h) s = .next t ∧
      t.plat.retiring = s.plat.retiring ++ [(field h.body 0 4, field h.body 4 4, h.seq.toNat)] ∧ { t with plat := s.plat } = s := by
  have hany : (s.plat.retiring.any fun r => r.1 == field h.body 0 4 && r.2.1 == field h.body 4 4) = false := by
    rw [List.any_eq_false]
    intro r hr hboth
    simp only [Bool.and_eq_true, beq_iff_eq] at hboth
    exact (hnew r hr).elim (fun hn => hn hboth.1) fun hn => hn hboth.2
  have hback : h.flags.getLsbD 0 = false := by rw [hc.flags]; rfl
  have hexec : ∃ p : Plat, p.retiring = s.plat.retiring ++ [(field h.body 0 4, field h.body 4 4, h.seq.toNat)] ∧
      exec (.retire h) s = .next { s with plat := p } := by
    rw [exec_retire, execRetire, hostCmd_runs hc (size := fixedSize 8) rfl]
    dsimp only
    rw [if_neg (by omega), hback, if_neg Bool.false_ne_true, hret, hused, hany, Bool.or_false, Bool.or_false, if_neg Bool.false_ne_true]
    exact ⟨_, rfl, rfl⟩
  obtain ⟨p, hp, hexec⟩ := hexec
  exact ⟨_, hexec, hp, rfl⟩

/-- Settles O58: rows, layers and the two-phase change of a layout. -/
theorem rowsAndLayouts : Obligations.RowsAndLayouts := by
  unfold Obligations.RowsAndLayouts
  intro cmd
  refine ⟨?_, ?_, ?_, ?_, ?_, ?_, ?_, fun s l hr ha hc => commit_advances hr ha hc, ?_, fun s hr _ => mpRestart_resumes hr, fun s hr h0 hcrc => mpRestart_idle hr h0 hcrc⟩
  · intro k z b s hz hb howed
    rw [exec_zeroingComplete, execZeroingComplete, hz]
    dsimp only
    rw [howed, hb, List.isEmpty_nil, Bool.not_true, if_neg Bool.false_ne_true]
    exact ⟨_, rfl, rfl, rfl, rfl, rfl⟩
  · intro chan row s hrow hf
    refine ⟨patrolScrub_row .clean hrow hf, patrolScrub_row .uncorrectable hrow hf, ?_⟩
    rw [patrolScrub_row .corrected hrow hf]
    dsimp only
    split <;> rfl
  · intro chan row s hrow
    rw [exec_refresh, execRefresh, hrow, Bool.not_true, if_neg Bool.false_ne_true]
    exact ⟨_, rfl, rfl, rfl⟩
  · intro h s hc hstack hlayer hret hused hnew
    exact retire_noted (cmdOk_of hc) hstack hlayer hret hused hnew
  · intro stack layer s r hready hfind
    rw [exec_layerRetireProceed, execLayerRetireProceed, hready, hfind, Bool.not_true, if_neg Bool.false_ne_true]
    rfl
  · intro h s hc recs new hok hbusy
    exact layoutPrepare_writes (cmdOk_of hc) rfl hok hbusy
  · intro h s hc h1 hbusy
    exact layoutActivate_swaps (cmdOk_of hc) h1 hbusy
  · intro h s hc
    rw [exec_layoutRead, execLayoutRead, hostCmd_runs (cmdOk_of hc) (size := fixedSize 0) rfl]
    exact ⟨_, rfl, rfl, rfl⟩

end Sys2Proof.Laws

end

section
/-! SUPPORT. What a context's freeze, yield and return leave of the platform: all of it. One equation for each of the operations that
they are made of, in the order of the model. -/

open Sys2Proof Sys2Proof.Machine

namespace Sys2Proof.Laws

/-! ### Posts, lines of memory and copies of lines -/

@[simp] theorem sendOut_plat (p : Packet) (s : State) : (sendOut p s).plat = s.plat := rfl

@[simp] theorem out_plat (p : Packet) (s : State) : (out p s).plat = s.plat := rfl

@[simp] theorem askLine_plat (s : State) (l : Nat) (w : Bool) : (askLine s l w).plat = s.plat := (aside_askLine s l w).plat

@[simp] theorem askAll_plat (l : List (Nat × Bool)) (s : State) : (askAll l s).plat = s.plat := (aside_askAll l s).plat

@[simp] theorem askQueue_plat (s : State) (w : Nat → Look Nat) : (askQueue s w).plat = s.plat := (aside_askQueue s w).plat

@[simp] theorem gpaWrite_plat (part gpa : Nat) (bs : List Byte) (s : State) : (gpaWrite part gpa bs s).1.plat = s.plat :=
  (aside_gpaWrite part gpa bs s).plat

@[simp] theorem pkgWrite_plat (dpa : Nat) (bs : List Byte) (s : State) : (pkgWrite dpa bs s).plat = s.plat := (aside_homeWrite ..).plat

@[simp] theorem postTo_plat (w : Nat → Look Nat) (r : List Byte) (s : State) : (postTo w r s).1.plat = s.plat := (aside_postTo w r s).plat

@[simp] theorem postHost_plat (r : Record) (s : State) : (postHost r s).plat = s.plat := (aside_postHost r s).plat

@[simp] theorem postCtx_plat (c : Nat) (r : Record) (s : State) : (postCtx c r s).plat = s.plat := (aside_postCtx c r s).plat

@[simp] theorem postHostCtx_plat (p : Nat) (r : Record) (s : State) : (postHostCtx p r s).plat = s.plat := (aside_postHostCtx p r s).plat

@[simp] theorem setSticky_plat (c : Nat) (s : State) : (setSticky c s).plat = s.plat := (aside_setSticky c s).plat

@[simp] theorem noteState_plat (cid : Nat) (s : State) : (noteState cid s).plat = s.plat := (aside_noteState cid s).plat

@[simp] theorem writeBackLine_plat (n : Nat) (s : State) : (writeBackLine n s).plat = s.plat := (aside_writeBackLine n s).plat

@[simp] theorem flushLine_plat (f : Flush) (core cid dpa : Nat) (s : State) : (flushLine f core cid dpa s).plat = s.plat :=
  (aside_flushLine f core cid dpa s).plat

@[simp] theorem flushPlaces_plat (u : Iss) (slots : Sparse Slot) (s : State) : (flushPlaces u slots s).1.plat = s.plat :=
  (aside_flushPlaces u slots s).plat

@[simp] theorem modPort_plat (n : Nat) (f : Port → Port) (s : State) : (modPort n f s).plat = s.plat := rfl

@[simp] theorem noteWritten_plat (part buf off : Nat) (s : State) : (noteWritten part buf off s).plat = s.plat := by
  unfold noteWritten
  simp only
  split <;> rfl

/-! ### Barriers and the ranks that they wake -/

@[simp] theorem wake_plat (s : State) : (wake s).plat = s.plat := (wake_tables s).1

@[simp] theorem barAdd_plat (g b n : Nat) (s : State) : (barAdd g b n s).plat = s.plat := (barAdd_tables g b n s).1

@[simp] theorem performRow_plat (g phys row bar core : Nat) (add : Bool) (fmt : BitVec 2) (data : List Byte) (s : State) :
    (performRow g phys row bar core add fmt data s).plat = s.plat := by simp [performRow]

@[simp] theorem countDown_plat (g r dst path : Nat) (s : State) : (countDown g r dst path s).plat = s.plat := (past_countDown (g := 0) (r := 0) ..).plat

@[simp] theorem endPly_plat (g r : Nat) (st : RankState) (s : State) : (endPly g r st s).plat = s.plat := rfl

/-! ### Launches and groups as they end -/

@[simp] theorem advance_plat (cid i n : Nat) (err : Bool) (s : State) : (advance cid i n err s).plat = s.plat := rfl

@[simp] theorem completeLaunch_plat (l : Nat) (x : Launch) (s : State) : (completeLaunch l x s).plat = s.plat := by
  unfold completeLaunch
  simp only
  split <;> simp

@[simp] theorem writeBackLaunch_plat (l : Nat) (s : State) : (writeBackLaunch l s).plat = s.plat := foldl_plat (fun _ _ => by simp) _ _

@[simp] theorem signalStore_plat (l : Nat) (x : Launch) (s : State) : (signalStore l x s).plat = s.plat := by
  unfold signalStore
  split
  · simp
  · simp
  · simp only
    split <;> simp

@[simp] theorem settleLaunch_plat (l : Nat) (s : State) : (settleLaunch l s).plat = s.plat := by
  unfold settleLaunch
  split
  · rfl
  · next x hx =>
    split
    · rfl
    · extract_lets s1 signals s2
      have h2 : s2.plat = s.plat := by
        unfold s2
        split <;> simp [s1]
      split
      · exact h2
      · split
        · exact h2
        · simpa using h2

@[simp] theorem freeGroup_plat (g : Nat) (s : State) : (freeGroup g s).plat = s.plat := by
  unfold freeGroup
  split
  · split
    · rw [settleLaunch_plat]
      split <;> rfl
    · rfl
  · rfl

@[simp] theorem settleGroup_plat (g : Nat) (s : State) : (settleGroup g s).plat = s.plat := by
  unfold settleGroup
  split
  · split
    · simp
    · split <;> simp
  · rfl

@[simp] theorem launchDown_plat (l : Nat) (status : BitVec 16) (s : State) : (launchDown l status s).plat = s.plat := by simp [launchDown]

@[simp] theorem launchStatus_plat (l : Nat) (status : BitVec 16) (s : State) : (launchStatus l status s).plat = s.plat := rfl

@[simp] theorem launchUp_plat (l n : Nat) (s : State) : (launchUp l n s).plat = s.plat := rfl

@[simp] theorem releaseTag_plat (tag : BitVec 32) (s : State) : (releaseTag tag s).plat = s.plat := by
  unfold releaseTag
  simp only
  split <;> rfl

@[simp] theorem releaseTags_plat (cid : Nat) (m : MemOp) (e : Entry) (s : State) : (releaseTags cid m e s).plat = s.plat := by
  unfold releaseTags
  split
  · rfl
  · exact foldl_plat (fun _ _ => by simp) _ _

/-! ### Freezing -/

@[simp] theorem cutPackets_plat (cid : Nat) (s : State) : (cutPackets cid s).plat = s.plat := rfl

@[simp] theorem freezeCmds_plat (g : Nat) (s : State) : (freezeCmds g s).plat = s.plat := rfl

@[simp] theorem freezeSeq_plat (g : Nat) (s : State) : (freezeSeq g s).plat = s.plat := rfl

@[simp] theorem freezeGroup_plat (g : Nat) (s : State) : (freezeGroup g s).plat = s.plat := by
  simp [freezeGroup, (counts_dropTraffic g _).plat]

@[simp] theorem freezeCtx_plat (cid : Nat) (s : State) : (freezeCtx cid s).plat = s.plat := by
  simp only [freezeCtx, noteState_plat, modCtx_plat]
  exact foldl_plat (fun _ _ => by simp) _ _

@[simp] theorem haltCtx_plat (cid : Nat) (s : State) : (haltCtx cid s).plat = s.plat := by
  unfold haltCtx
  simp only
  split <;> simp

/-! ### A trap -/

@[simp] theorem keepFault_plat (g r : Nat) (impr : Bool) (fault : Option Entry) (s : State) : (keepFault g r impr fault s).plat = s.plat := by
  unfold keepFault
  split
  · rfl
  · split <;> rfl

@[simp] theorem takeTrapOf_plat (g r : Nat) (impr : Bool) (cause : BitVec 16) (word tpc tval : Long) (fault : Option Entry) (s : State) :
    (takeTrapOf g r impr cause word tpc tval fault s).plat = s.plat := by
  unfold takeTrapOf
  split
  · rfl
  · split
    · simp only
      split
      · simp
      · split
        · simp only [postCtx_plat, haltCtx_plat, keepFault_plat]
          split <;> simp
        · simp [(counts_writeFrame ..).plat, (counts_dropCut ..).plat]
    · rfl

@[simp] theorem takeTrap_plat (g r : Nat) (impr : Bool) (cause : BitVec 16) (tpc tval : Long) (fault : Option Entry) (s : State) :
    (takeTrap g r impr cause tpc tval fault s).plat = s.plat := takeTrapOf_plat ..

/-! ### Waits for tile handles -/

theorem tileStep_plat {g : Nat} {x : Group} {i : Instr} {v : Long} {s t : State} (h : tileStep g x i v s = .done t) : t.plat = s.plat := by
  unfold tileStep at h
  split at h
  · split at h
    · split at h
      · cases h
      · split at h <;> cases h
        rfl
    · cases h
      rfl
  · split at h
    · split at h
      · cases h
      · split at h <;> cases h
        rfl
    · cases h
      rfl
  · cases h
    rfl

@[simp] theorem performWait_plat (g : Nat) (x : Group) (r : Nat) (e : Entry) (s : State) : (performWait g x r e s).plat = s.plat := by
  unfold performWait
  extract_lets s1 past
  split
  · simp [s1]
  · next t h =>
    obtain ⟨i, -, hi⟩ := Option.map_eq_some_iff.1 h
    simp [tileStep_plat hi, s1]
  · rfl
  · rfl

@[simp] theorem performWaits_plat (n : Nat) (s : State) : (performWaits n s).plat = s.plat := by
  induction n generalizing s with
  | zero => rfl
  | succ n ih =>
    unfold performWaits
    split <;> simp [ih]

@[simp] theorem performTiles_plat (s : State) : (performTiles s).plat = s.plat := performWaits_plat ..

@[simp] theorem addInuse_plat (g t : Nat) (d : Int) (s : State) : (addInuse g t d s).plat = s.plat := rfl

@[simp] theorem releaseTile_plat (g t : Nat) (s : State) : (releaseTile g t s).plat = s.plat := by simp [releaseTile]

/-! ### Entries of a record, issued again -/

@[simp] theorem xsDone_plat (ctx : Nat) (tag : BitVec 32) (status : BitVec 16) (s : State) : (xsDone ctx tag status s).plat = s.plat := by
  unfold xsDone
  split
  · rfl
  · extract_lets o1 rest src bad s1 s2
    split
    · rfl
    · rw [launchDown_plat]
      unfold s2
      split <;> simp [s1]

@[simp] theorem dropEntry_plat (g r : Nat) (x : Group) (e : Entry) (s : State) : (dropEntry g r x e s).plat = s.plat := by
  unfold dropEntry
  split
  · extract_lets tag ks mine settled src s1 s2 never
    have h2 : s2.plat = s.plat := foldl_plat (s := s1) (fun _ _ => by simp) settled
    rw [releaseTags_plat, foldl_plat (fun _ _ => by simp), h2]
  · split
    · simp only [launchDown_plat]
      split <;> simp
    · split
      · split
        · rfl
        · simp only [launchDown_plat]
          split <;> simp
      · rfl

@[simp] theorem addLive_plat (g r : Nat) (e : Entry) (s : State) : (Machine.addLive g r e s).plat = s.plat := rfl

@[simp] theorem bringLine_plat (c : Ctx) (g : Nat) (x : Group) (r n : Nat) (s : State) : (bringLine c g x r n s).1.plat = s.plat := by
  unfold bringLine
  simp only
  split
  · simp
  · split <;> rfl

@[simp] theorem bringLines_plat (c : Ctx) (g : Nat) (x : Group) (r : Nat) (ns : List Nat) (s : State) :
    (bringLines c g x r ns s).1.plat = s.plat := by
  unfold bringLines
  refine List.foldlRecOn (motive := fun acc : State × Bool => acc.1.plat = s.plat) ns _ rfl fun acc h n _ => ?_
  split
  · simpa using h
  · exact h

@[simp] theorem flushAll_plat (f : Flush) (u : Iss) (e : Entry) (ps : List (Nat × FlushAt)) (s : State) : (flushAll f u e ps s).plat = s.plat := by
  unfold flushAll
  extract_lets s1
  have h1 : s1.plat = s.plat := foldl_plat (fun s p => by split <;> simp) ps s
  split
  · exact h1
  · exact h1

@[simp] theorem recapture_plat (u : Iss) (kind : CmdKind) (tile : Nat) (g : Eng) (e : Entry) (en : EngineId) (s : State) :
    (recapture u kind tile g e en s).plat = s.plat := rfl

@[simp] theorem sendTensor_plat (m : Send) (s : State) : (sendTensor m s).1.plat = s.plat := rfl

@[simp] theorem resendColl_plat (k : Nat) (s : State) : (resendColl k s).plat = s.plat := by
  unfold resendColl
  simp only [modCmd_plat]
  exact foldl_plat (fun _ _ => by simp) _ _

/-- The state that an attempt to issue an entry again ends in. -/
def injectedState (o : Injected) : State := match o with
  | .done s => s
  | .stop s => s
  | .wait s => s
  | .trap _ _ _ s => s

theorem injectCmd_plat (u : Iss) (kind : CmdKind) (tile : Nat) (g : Eng) (e : Entry) (s : State) :
    (injectedState (injectCmd u kind tile g e s)).plat = s.plat := by
  unfold injectCmd
  extract_lets h
  split
  · rfl
  · split
    · rfl
    · simp only [injectedState]
      split <;> simp
    · simp [injectedState]
    · rfl

@[simp] theorem placeAll_plat (m : MemOp) (cid core : Nat) (x : Group) (l : List Elem) (got : List (Elem × Place)) (s : State) :
    (placeAll m cid core x l got s).1.plat = s.plat := (past_placeAll (g := 0) (r := 0) ..).plat

@[simp] theorem issueElems_plat (u : Iss) (m : MemOp) (e : Entry) (ps : List (Elem × Place)) (acc : State × List (Nat × Nat × List Byte) × Nat) :
    (issueElems u m e ps acc).1.plat = acc.1.plat := (past_issueElems (g := 0) (r := 0) ..).plat

@[simp] theorem issuePlaced_plat (u : Iss) (m : MemOp) (e : Entry) (ps : List (Elem × Place)) (s : State) :
    (issuePlaced u m e ps s).plat = s.plat := (past_issuePlaced (g := 0) (r := 0) ..).plat

@[simp] theorem issueStop_plat (u : Iss) (m : MemOp) (e : Entry) (path : Mask) (f : Flt) (ps : List (Elem × Place)) (s : State) :
    (issueStop u m e path f ps s).plat = s.plat := by simp [issueStop]

theorem injectMem_plat (u : Iss) (m : MemOp) (e : Entry) (s : State) : (injectedState (injectMem u m e s)).plat = s.plat := by
  unfold injectMem
  extract_lets todo
  have hp := placeAll_plat m u.x.ctx u.x.core u.x todo [] s
  split
  · next s1 ps f h =>
    rw [h] at hp
    extract_lets e1
    split
    · exact hp
    · split
      · exact hp
      · split <;> simpa [injectedState] using hp
  · next s1 ps h =>
    rw [h] at hp
    simpa [injectedState] using hp

@[simp] theorem readmit_plat (u : Iss) (i : Instr) (e : Entry) (s : State) : (readmit u i e s).plat = s.plat := by
  unfold readmit
  extract_lets kind slot
  split <;> rfl

theorem injectEntry_plat (g r : Nat) (e : Entry) (s : State) : (injectedState (injectEntry g r e s)).plat = s.plat := by
  unfold injectEntry
  split
  · next u i hu hi =>
    split
    · rfl
    · have hb := bringLines_plat u.c g u.x r (owedBy i) s
      split
      · next h => rwa [h] at hb
      · next s1 h =>
        rw [h] at hb
        rw [← hb]
        split
        · exact injectMem_plat ..
        · split
          · split
            · rfl
            · split
              · exact injectCmd_plat ..
              · rfl
          · split
            · extract_lets ps
              split <;> simp [injectedState, ps]
            · split
              · rfl
              · split
                · simp [injectedState]
                · extract_lets s2
                  simp only [injectedState]
                  split <;> rfl
                · simp [injectedState]
  · rfl

@[simp] theorem injectAll_plat (g r : Nat) (es : List Entry) (s : State) : (injectAll g r es s).plat = s.plat := by
  induction es generalizing s with
  | nil => simp [injectAll]
  | cons e rest ih =>
    have he : ∀ o, (if liveFull s g r then .wait s else injectEntry g r e s) = o → (injectedState o).plat = s.plat := by
      rintro o rfl
      split
      · rfl
      · exact injectEntry_plat ..
    unfold injectAll
    split
    · next h => rw [ih]; exact he _ h
    · next h => exact he _ h
    · next h => exact he _ h
    · next h => rw [takeTrap_plat]; exact he _ h

/-! ### Groups that run again -/

@[simp] theorem mepiComplete_plat (g : Nat) (x : Group) (r : SeqRec) (s : State) : (mepiComplete g x r s).plat = s.plat := by
  unfold mepiComplete
  extract_lets err s1 s2 s3
  have h1 : s1.plat = s.plat := rfl
  have h2 : s2.plat = s.plat := by
    unfold s2
    split <;> simp [h1]
  have h3 : s3.plat = s.plat := by
    unfold s3
    split
    · simp [h2]
    · split <;> simp [h2]
  simp [h3]

@[simp] theorem settleMepi_plat (g id : Nat) (s : State) : (settleMepi g id s).plat = s.plat := by
  unfold settleMepi
  split
  · rfl
  · split
    · rfl
    · simp only
      split <;> simp

@[simp] theorem testWaits_plat (g : Nat) (s : State) : (testWaits g s).plat = s.plat := by
  unfold testWaits
  split
  · rfl
  · refine foldl_plat (fun s k => ?_) _ _
    split <;> rfl

@[simp] theorem thawGroup_plat (g : Nat) (s : State) : (thawGroup g s).plat = s.plat := by
  unfold thawGroup
  split
  · rfl
  · extract_lets s1 gone inject s2
    have hi : ∀ s k, (inject s k).plat = s.plat := fun s k => by
      simp only [inject, injectAll_plat]
      exact foldl_plat (fun _ _ => by simp) _ _
    have h2 : s2.plat = s.plat := foldl_plat (s := s1) hi _
    rw [foldl_plat (fun _ _ => by simp), testWaits_plat, h2]

@[simp] theorem fireArmed_plat (cid : Nat) (s : State) : (fireArmed cid s).plat = s.plat := by
  unfold fireArmed
  split
  · rfl
  · extract_lets fire head s1
    have hf : ∀ s a, (fire s a).plat = s.plat := fun s a => by
      simp only [fire]
      split
      · rfl
      · split
        · split <;> simp
        · simp
    have h1 : s1.plat = s.plat := foldl_plat hf _ _
    split
    · exact h1
    · simp [h1]

@[simp] theorem joinCuts_plat (cid : Nat) (s : State) : (joinCuts cid s).plat = s.plat := by
  unfold joinCuts
  exact foldl_plat (fun _ _ => by simp) _ _

@[simp] theorem resumeCtx_plat (cid : Nat) (s : State) : (resumeCtx cid s).plat = s.plat := by
  unfold resumeCtx
  extract_lets s1 gs s2 s3
  have h1 : s1.plat = s.plat := by simp [s1]
  have h2 : s2.plat = s.plat := by
    simp only [s2, wake_plat]
    rw [foldl_plat (fun _ _ => by simp), h1]
  have h3 : s3.plat = s.plat := by
    simp only [s3]
    rw [foldl_plat (fun _ _ => by simp), h2]
  rw [foldl_plat (fun _ _ => by simp), h3]

/-! ### A save and a yield -/

@[simp] theorem saveFault_plat (cid : Nat) (c : Ctx) (gpa : Nat) (s : State) : (saveFault cid c gpa s).plat = s.plat := by
  unfold saveFault
  simp only [postHost_plat, noteState_plat, modCtx_plat]
  split <;> simp

@[simp] theorem recordCmd_plat (k : Nat) (c : Cmd) (s : State) : (recordCmd k c s).plat = s.plat := by
  have hg : ∀ s : State, (if c.kind = .coll then s else { s with cmds := sdel k s.cmds }).plat = s.plat := fun s => by split <;> rfl
  unfold recordCmd
  split
  · rfl
  · extract_lets gone fresh room own
    split
    · exact hg _
    · split
      · rfl
      · exact hg _

@[simp] theorem recordCmds_plat (mine : Nat → Group → Bool) (s : State) : (recordCmds mine s).plat = s.plat :=
  foldl_plat (s := takeFrames mine s) (fun _ _ => by simp) _

@[simp] theorem writeAreas_plat (part base : Nat) (l : List Piece) (s : State) : (writeAreas part base l s).1.plat = s.plat := by
  induction l generalizing s with
  | nil => rfl
  | cons p rest ih =>
    unfold writeAreas
    have hw := gpaWrite_plat part (base + p.1) p.2 s
    split
    · next s1 h =>
      rw [ih]
      rwa [h] at hw
    · exact hw

@[simp] theorem saveGroupAt_plat (base g : Nat) (s : State) : (saveGroupAt base g s).1.plat = s.plat := by
  unfold saveGroupAt
  extract_lets s1
  split
  · rfl
  · next x hx =>
    split
    · rfl
    · next c hc =>
      have hw := writeAreas_plat c.part base (shift x.imgOff (groupPieces s1 x)) s1
      split
      · next s2 h =>
        rw [h] at hw
        exact hw.trans (recordCmds_plat ..)
      · exact hw.trans (recordCmds_plat ..)

@[simp] theorem saveGroup_plat (g : Nat) (s : State) : (saveGroup g s).plat = s.plat := by
  unfold saveGroup
  split
  · rfl
  · next cid c h =>
    have hs := saveGroupAt_plat c.savebase.toNat g s
    split
    · next h => rwa [h] at hs
    · next h =>
      rw [h] at hs
      rwa [saveFault_plat]

@[simp] theorem freezeIdleGroups_plat (cid : Nat) (s : State) : (freezeIdleGroups cid s).plat = s.plat := foldl_plat (fun _ _ => by simp) _ _

@[simp] theorem settleYield_plat (cid : Nat) (s : State) : (settleYield cid s).plat = s.plat := by
  unfold settleYield
  split <;> simp

@[simp] theorem requestYield_plat (cid : Nat) (s : State) : (requestYield cid s).plat = s.plat := by simp [requestYield]

end Sys2Proof.Laws
end

section
/-! SUPPORT. Bear-off requests (R379 to R384) and checkpoints (R385 to R389). -/

open Sys2Proof Sys2Proof.Machine

namespace Sys2Proof.Laws

/-! ### Bear-off requests -/

theorem keepBase_bearoffs (s t : State) : (keepBase s t).plat.bearoffs = t.plat.bearoffs := rfl

theorem keepBase_ckpts (s t : State) : (keepBase s t).plat.ckpts = t.plat.ckpts := rfl

theorem keepBase_mem (s t : State) : (keepBase s t).mem = t.mem := rfl

theorem keepBase_partner (s t : State) : (keepBase s t).plat.partner = t.plat.partner := rfl

theorem keepBase_notIndependent (s t : State) : (keepBase s t).plat.notIndependent = t.plat.notIndependent := rfl

theorem ctx_modCtx (cid : Nat) (f : Ctx → Ctx) (s : State) : ctx? (modCtx cid f s) cid = (ctx? s cid).map f := by
  rw [ctx?, modCtx, sget_smod, if_pos rfl]
  rfl

/-- Without groups an evaluation only sets its time and forgets what ran. -/
theorem evaluate_noGroups {r : BearReq} {s : State} (hg : s.groups = []) :
    evaluate r s = modReq r.reqid (fun y => { y with nextEval := s.clk + evalPeriod, runQueues := [] }) s := by
  have hq : queuesOn s r.cores = [] := by simp [queuesOn, hg]
  rw [evaluate]
  simp only [hq, List.filterMap_nil, List.foldl_nil]

theorem getLast_modReq {l : List BearReq} {b : BearReq} {reqid : Word} {f : BearReq → BearReq} (s : State) (hs : s.plat.bearoffs = l ++ [b])
    (hb : b.reqid = reqid) : (modReq reqid f s).plat.bearoffs.getLast? = some (f b) := by
  simp [modReq, hs, hb]

theorem evaluate_posted {l : List BearReq} {b : BearReq} {s : State} (hg : s.groups = []) (hs : s.plat.bearoffs = l ++ [b]) :
    (evaluate b s).plat.bearoffs.getLast? = some { b with nextEval := s.clk + evalPeriod, runQueues := [] } ∧ (evaluate b s).mem = s.mem := by
  rw [evaluate_noGroups hg]
  exact ⟨getLast_modReq s hs rfl, rfl⟩

theorem checkpointCtx_frozen {b : BearReq} {cid : Nat} {c : Ctx} {s : State} (hc : ctx? s cid = some c) (hm : c.mode = .running)
    (hy : mayYield s b cid c = false) :
    (ctx? (checkpointCtx b cid s) cid).map (fun c => (c.mode, c.bearoff)) = some (.frozen, true) ∧
    ∃ st ∈ (checkpointCtx b cid s).steps, st.target = cid ∧ st.kind = 5 ∧ st.bearReq = some b.reqid := by
  rw [checkpointCtx, hc]
  simp only [hm, hy, Bool.false_and, Bool.false_eq_true, if_false, ne_eq, not_true_eq_false]
  refine ⟨?_, ⟨_, List.mem_append_right _ (List.mem_singleton_self _), rfl, rfl, rfl⟩⟩
  obtain ⟨y, hy, hmode⟩ := Option.map_eq_some_iff.1 (freezeCtx_mode hc)
  have hget : ∀ qs u, ctx? (forgetRun qs (modCtx cid (fun c => { c with bearoff := true }) { freezeCtx cid s with steps := u, fresh := (freezeCtx cid s).fresh + 1 })) cid =
      (ctx? (freezeCtx cid s) cid).map fun c => { c with bearoff := true } := fun qs u => ctx_modCtx ..
  rw [hget, hy]
  simp [hmode]

/-! ### Checkpoints -/

theorem ckptOf_plat {s t : State} (h : t.plat = s.plat) (part : Nat) : ckptOf t part = ckptOf s part := by rw [ckptOf, ckptOf, h]

theorem ckptOf_part (s : State) (part : Nat) : (ckptOf s part).part = part := by
  rw [ckptOf]
  cases h : s.plat.ckpts.find? fun c => c.part == part with
  | none => rfl
  | some c => simpa using List.find?_some h

theorem ckptOf_setCkpt (c : CkptState) (s : State) : ckptOf (setCkpt c s) c.part = c := by
  have hnone : (s.plat.ckpts.filter fun y => y.part != c.part).find? (fun y => y.part == c.part) = none := by
    simp only [List.find?_eq_none, List.mem_filter]
    rintro y ⟨-, hy⟩
    simpa using hy
  simp [ckptOf, setCkpt, List.find?_append, hnone]

theorem cutStream_idle {part : Nat} {s : State} (h : (ckptOf s part).streaming = none) : cutStream part s = s := by rw [cutStream, h]

theorem startFreeze_plat (cid : Nat) (c : Ctx) (s : State) : (startFreeze cid c s).plat = s.plat := by
  unfold startFreeze
  split <;> simp

theorem ckpt_begins {h : HostCmd} {s : State} (hc : CmdOk h s 0x20 (24 + 4 * field h.body 20 4)) (hp : field h.body 0 4 < 64)
    (hn : field h.body 20 4 ≤ 64) (hb : 2 ^ 43 ≤ field h.body 4 8) (hl : field h.body 4 8 + field h.body 12 8 ≤ 2 ^ 43 + 2 ^ 43)
    (hbufs : ∀ i, i < field h.body 20 4 → field h.body (24 + 4 * i) 4 < 4096) (hbusy : (ckptOf s (field h.body 0 4)).busy = false)
    (hs : (ckptOf s (field h.body 0 4)).streaming = none) : ∃ t, exec (.ckpt h) s = .next t ∧ (ckptOf t (field h.body 0 4)).busy = true ∧
      (ckptOf t (field h.body 0 4)).base = field h.body 4 8 ∧ (ckptOf t (field h.body 0 4)).gen = (ckptOf s (field h.body 0 4)).gen ∧
      (ckptOf t (field h.body 0 4)).replica = (List.range (field h.body 20 4)).map (fun i => field h.body (24 + 4 * i) 4) ∧
      ∃ st ∈ t.steps, st.target = 4096 + field h.body 0 4 ∧ st.kind = 6 := by
  have hall : ((List.range (field h.body 20 4)).map fun i => field h.body (24 + 4 * i) 4).any (fun b => decide (4096 ≤ b)) = false := by
    simp only [List.any_eq_false, List.mem_map, List.mem_range]
    rintro _ ⟨i, hi, rfl⟩
    simpa using hbufs i hi
  rw [exec_ckpt, execCkpt, hostCmd_runs hc (size := fun h => 24 + 4 * field h.body 20 4) rfl]
  simp only [heldBase, mapNext]
  rw [if_neg (by simp only [hall, hbusy]; simp; omega)]
  have hcut : cutStream (field h.body 0 4) (respondTo h 0 [] s) = respondTo h 0 [] s := cutStream_idle hs
  rw [hcut]
  generalize hrun : List.map _ (List.filter _ (partCtxs _ _)) = run
  generalize hs2 : run.foldl _ (respondTo h 0 [] s) = s2
  have hk : ckptOf s2 (field h.body 0 4) = ckptOf s (field h.body 0 4) := by
    have hplat : s2.plat = (respondTo h 0 [] s).plat := by
      rw [← hs2]
      refine foldl_plat (fun s cid => ?_) _ _
      split
      · exact startFreeze_plat ..
      · rfl
    exact ckptOf_plat hplat _
  have hgen := congrArg CkptState.gen hk
  obtain ⟨k, hkpart, hkbusy, hkbase, hkgen, hkrep, hkeq⟩ : ∃ k : CkptState, k.part = field h.body 0 4 ∧ k.busy = true ∧ k.base = field h.body 4 8 ∧
      k.gen = (ckptOf s (field h.body 0 4)).gen ∧ k.replica = (List.range (field h.body 20 4)).map (fun i => field h.body (24 + 4 * i) 4) ∧
      k = { ckptOf s2 (field h.body 0 4) with busy := true, base := field h.body 4 8, slotBytes := field h.body 12 8 / 2, frozen := run, replica := (List.range (field h.body 20 4)).map (fun i => field h.body (24 + 4 * i) 4) } :=
    ⟨{ ckptOf s2 (field h.body 0 4) with busy := true, base := field h.body 4 8, slotBytes := field h.body 12 8 / 2, frozen := run, replica := (List.range (field h.body 20 4)).map (fun i => field h.body (24 + 4 * i) 4) }, ckptOf_part s2 _, rfl, rfl, hgen, rfl, rfl⟩
  rw [← hkeq]
  have hget : ∀ u : State, ckptOf (keepBase s (setCkpt k u)) (field h.body 0 4) = k := by
    intro u
    rw [← hkpart]
    exact ckptOf_setCkpt k u
  refine ⟨_, rfl, ?_⟩
  rw [hget]
  exact ⟨hkbusy, hkbase, hkgen, hkrep, _, List.mem_append_right _ (List.mem_singleton_self _), rfl, rfl⟩

theorem partnerDeltaStream_arrives {part g : Nat} {s : State} (hs : (ckptOf s part).streaming = some g) :
    ∃ t, exec (.partnerDeltaStream part) s = .next t ∧ (ckptOf t part).streaming = none ∧
      { t with plat := s.plat } = s ∧ ∀ x ∈ t.plat.gens, x.part = part → x.gen = g → x.atPartner = true := by
  rw [exec_partnerDeltaStream, execPartnerDeltaStream]
  simp only [hs, heldBase, mapNext]
  generalize harr : (fun p : Plat => ({ p with gens := _, partnerGens := _ } : Plat)) = arrive
  generalize hk : ({ ckptOf s part with streaming := none, stream := [] } : CkptState) = k
  have hkpart : k.part = part := by
    rw [← hk]
    exact ckptOf_part s part
  have hget : ckptOf (keepBase s (setCkpt k (modPlat arrive s))) part = k := by
    rw [← hkpart]
    exact ckptOf_setCkpt k (modPlat arrive s)
  refine ⟨_, rfl, ?_, rfl, ?_⟩
  · rw [hget, ← hk]
  · intro x hx hpart hgen
    have hx : x ∈ (arrive s.plat).gens := hx
    rw [← harr] at hx
    obtain ⟨y, -, rfl⟩ := List.mem_map.1 hx
    revert hpart hgen
    split
    · exact fun _ _ => rfl
    · next hne => exact fun h1 h2 => absurd ⟨h1, h2⟩ hne

/-- Settles O59: bear-off requests and checkpoints. -/
theorem bearoffsAndCheckpoints : Obligations.BearoffsAndCheckpoints := by
  unfold Obligations.BearoffsAndCheckpoints
  intro cmd
  refine ⟨?_, ?_, ?_, ?_, ?_, ?_, fun s b cid c hc hm hy => checkpointCtx_frozen hc hm hy, ?_, fun part g s hs => partnerDeltaStream_arrives hs, ?_, ?_, ?_⟩
  · intro h s hc hlen hflags hzero b s1 b1
    have hexec : exec (.bearoff h) s = .next (keepBase s (evaluate b1 (modPlat (fun p => { p with bearoffs := s.plat.bearoffs ++ [b1] }) s1))) := by
      rw [exec_bearoff, execBearoff, hostCmd_runs (cmdOk_of hc) (size := fixedSize 64) rfl]
      dsimp only
      rw [if_neg (by simp [hzero]; omega)]
      rfl
    generalize hs2 : modPlat (fun p => { p with bearoffs := s.plat.bearoffs ++ [b1] }) s1 = s2 at hexec ⊢
    refine ⟨hexec, fun hg => ?_⟩
    have h2 : s2.groups = [] ∧ s2.plat.bearoffs = s.plat.bearoffs ++ [b1] ∧ s2.mem = s.mem ∧ s2.clk = s.clk := by
      subst hs2
      exact ⟨hg, rfl, rfl, rfl⟩
    obtain ⟨hg2, hb2, hmem2, hclk2⟩ := h2
    obtain ⟨hlast, hmem⟩ := evaluate_posted hg2 hb2
    rw [hclk2] at hlast
    rw [← keepBase_bearoffs s] at hlast
    rw [← keepBase_mem s] at hmem
    exact ⟨_, _, hexec, hlast, rfl, rfl, rfl, rfl, rfl, hmem.trans hmem2⟩
  · intro h s hc hlen
    rw [exec_bearoff, execBearoff, hostCmd_runs (cmdOk_of hc) (size := fixedSize 64) rfl]
    dsimp only
    rw [if_pos (.inl hlen)]
    rfl
  · intro b s hb
    rw [exec_bearoffEvaluation, execBearoffEvaluation, hb]
    rfl
  · intro b q cid s hf hq hs
    rw [exec_bearoffComparator, execBearoffComparator, hf]
    dsimp only
    rw [hq]
    dsimp only
    rw [if_neg hs]
    rfl
  · intro reqid b s hb
    rw [exec_bearoffDeadline, execBearoffDeadline, hb]
    rfl
  · intro reqid b s hb
    rw [exec_bearoffComplete, execBearoffComplete, hb]
    refine ⟨_, rfl, ?_⟩
    rw [keepBase_bearoffs, mgmtPost, postHost_plat]
    rfl
  · intro h s part base len n hc hp hn hb hl hbufs hbusy hs
    exact ckpt_begins (cmdOk_of hc) hp hn hb hl hbufs hbusy hs
  · intro h s hc hp hf
    rw [exec_pair, execPair, hostCmd_runs (cmdOk_of hc) (size := fixedSize 8) rfl]
    dsimp only
    rw [if_neg (by simp [hf]; omega)]
    refine ⟨_, rfl, ?_⟩
    rw [keepBase_partner, keepBase_notIndependent, mgmtPost, postHost_plat]
    exact ⟨rfl, by simp [respondTo, modPlat, hf]⟩
  · intro h s hc hf
    rw [exec_pair, execPair, hostCmd_runs (cmdOk_of hc) (size := fixedSize 8) rfl]
    dsimp only
    rw [if_pos]
    · rfl
    · exact .inr ⟨by simp [hf], by simp [(cmdOk_of hc).flags]⟩
  · intro h s g s2 s3 hc part gen hg s0 hv hf
    rw [exec_restore, execRestore, hostCmd_runs (cmdOk_of hc) (size := fixedSize 16) rfl]
    dsimp only
    rw [hg]
    dsimp only
    rw [hv]
    dsimp only
    rw [hf]
    rfl

end Sys2Proof.Laws
end

section
/-! SUPPORT. Static energy (R330, R331), the arithmetic clock and the thermal freeze (R397, R398). -/

open Sys2Proof Sys2Proof.Machine

namespace Sys2Proof.Laws

/-! ### Static energy -/

theorem chargeStatic_keeps (n core : Nat) (s : State) : (chargeStatic n core s).clk = s.clk ∧ (chargeStatic n core s).mem = s.mem ∧
    (chargeStatic n core s).groups = s.groups := by
  unfold chargeStatic
  extract_lets held total most share s1
  have h1 : s1.clk = s.clk ∧ s1.mem = s.mem ∧ s1.groups = s.groups :=
    List.foldlRecOn (motive := fun t : State => t.clk = s.clk ∧ t.mem = s.mem ∧ t.groups = s.groups) held _ ⟨rfl, rfl, rfl⟩ fun _ h _ _ => h
  split
  · exact ⟨rfl, rfl, rfl⟩
  · exact h1

theorem chargeCores_keeps (l : List Nat) (s : State) : (l.foldl (fun t c => chargeStatic 1 c t) s).clk = s.clk ∧
    (l.foldl (fun t c => chargeStatic 1 c t) s).mem = s.mem ∧ (l.foldl (fun t c => chargeStatic 1 c t) s).groups = s.groups := by
  induction l generalizing s with
  | nil => exact ⟨rfl, rfl, rfl⟩
  | cons a l ih =>
    obtain ⟨hclk, hmem, hgroups⟩ := ih (chargeStatic 1 a s)
    obtain ⟨hc, hm, hg⟩ := chargeStatic_keeps 1 a s
    exact ⟨hclk.trans hc, hmem.trans hm, hgroups.trans hg⟩

theorem charge_other {c d n : Nat} (s : State) (h : c ≠ d) : ctx? (charge d n s) c = ctx? s c := by
  rw [ctx?, charge, modCtx, sget_smod, if_neg h]
  rfl

/-- A charge that does not saturate adds to its context's energy. -/
theorem charge_adds {c n : Nat} {s : State} {x : Ctx} (hx : ctx? s c = some x) (hsat : x.sat = false) (hlt : x.energy + n < 2 ^ 48) :
    ctx? (charge c n s) c = some { x with energy := x.energy + n } := by
  rw [charge, ctx_modCtx, hx, Option.map_some, if_neg (by simp [hsat]), if_pos hlt]

/-- A core that one context alone holds charges it all of the core's static energy. -/
theorem chargeStatic_alone {core c n : Nat} {s : State} {x : Ctx} (hheld : slotsHeld s core = [(c, n)]) (hn : 0 < n) (hx : ctx? s c = some x)
    (hsat : x.sat = false) (hlt : x.energy + staticWeight s c core < 2 ^ 48) :
    (ctx? (chargeStatic 1 core s) c).map (·.energy) = some (x.energy + staticWeight s c core) := by
  have hw : staticWeight s c core * n / n = staticWeight s c core := Nat.mul_div_cancel _ hn
  have h1 := charge_adds hx hsat hlt
  unfold chargeStatic
  simp only [hheld, List.foldl_cons, List.foldl_nil, List.headD_cons, Nat.zero_add, if_neg (by omega : ¬n = 0), lt_irrefl, and_false, or_self,
    if_false, Nat.one_mul, hw, Nat.sub_self]
  rw [charge_adds h1 hsat (by simpa using hlt)]
  rfl

/-- Of two contexts on a core each is charged its floor, and the one with the most slots what is left over. -/
theorem charge_shared {c d : Nat} {s : State} {x y : Ctx} {a b r : Nat} (hne : c ≠ d) (hx : ctx? s c = some x) (hy : ctx? s d = some y)
    (hxs : x.sat = false) (hys : y.sat = false) (ha : x.energy + (a + r) < 2 ^ 48) (hb : y.energy + b < 2 ^ 48) :
    ((ctx? (charge c r (charge d b (charge c a s))) c).map (·.energy) = some (x.energy + (a + r)) ∧
     (ctx? (charge c r (charge d b (charge c a s))) d).map (·.energy) = some (y.energy + b)) ∧
    ((ctx? (charge c r (charge c a (charge d b s))) c).map (·.energy) = some (x.energy + (a + r)) ∧
     (ctx? (charge c r (charge c a (charge d b s))) d).map (·.energy) = some (y.energy + b)) := by
  have hc1 : ctx? (charge d b (charge c a s)) c = some { x with energy := x.energy + a } := by
    rw [charge_other _ hne, charge_adds hx hxs (by omega)]
  have hc2 : ctx? (charge c a (charge d b s)) c = some { x with energy := x.energy + a } :=
    charge_adds ((charge_other _ hne).trans hx) hxs (by omega)
  have hd1 : ctx? (charge d b (charge c a s)) d = some { y with energy := y.energy + b } :=
    charge_adds ((charge_other _ hne.symm).trans hy) hys hb
  have hd2 : ctx? (charge c a (charge d b s)) d = some { y with energy := y.energy + b } := by
    rw [charge_other _ hne.symm, charge_adds hy hys hb]
  have hlt : ({ x with energy := x.energy + a } : Ctx).energy + r < 2 ^ 48 := by
    show x.energy + a + r < 2 ^ 48
    omega
  refine ⟨⟨?_, ?_⟩, ?_, ?_⟩
  · rw [charge_adds hc1 hxs hlt, Option.map_some, ← Nat.add_assoc]
  · rw [charge_other _ hne.symm, hd1, Option.map_some]
  · rw [charge_adds hc2 hxs hlt, Option.map_some, ← Nat.add_assoc]
  · rw [charge_other _ hne.symm, hd2, Option.map_some]

theorem add_rest {a b w : Nat} (h : a + b ≤ w) : a + (w - (a + b)) = w - b := by omega

theorem chargeStatic_shared {core c d n m : Nat} {s : State} {x y : Ctx}
    (hheld : slotsHeld s core = [(c, n), (d, m)] ∨ slotsHeld s core = [(d, m), (c, n)]) (hne : c ≠ d) (hn : 0 < n) (hmost : m < n ∨ (m = n ∧ c < d))
    (hx : ctx? s c = some x) (hy : ctx? s d = some y) (hxs : x.sat = false) (hys : y.sat = false)
    (hxlt : x.energy + staticWeight s c core < 2 ^ 48) (hylt : y.energy + staticWeight s d core < 2 ^ 48) :
    (ctx? (chargeStatic 1 core s) c).map (·.energy) = some (x.energy + (staticWeight s c core - staticWeight s c core * m / (n + m))) ∧
    (ctx? (chargeStatic 1 core s) d).map (·.energy) = some (y.energy + staticWeight s d core * m / (n + m)) := by
  have hfirst : ¬(n < m ∨ (n = m ∧ d < c)) := by omega
  have hsum : staticWeight s c core * n / (n + m) + staticWeight s c core * m / (n + m) ≤ staticWeight s c core := by
    refine Nat.div_add_div_le_add_div.trans ?_
    rw [← Nat.mul_add, Nat.mul_div_cancel _ (by omega)]
  have hfloor : staticWeight s d core * m / (n + m) ≤ staticWeight s d core :=
    Nat.div_le_of_le_mul (by rw [Nat.mul_comm]; exact Nat.mul_le_mul_right _ (by omega))
  have hall : staticWeight s c core * n / (n + m) + (staticWeight s c core - (staticWeight s c core * n / (n + m) + staticWeight s c core * m / (n + m))) =
      staticWeight s c core - staticWeight s c core * m / (n + m) := add_rest hsum
  obtain ⟨⟨hc1, hd1⟩, hc2, hd2⟩ := charge_shared (a := staticWeight s c core * n / (n + m)) (b := staticWeight s d core * m / (n + m))
    (r := staticWeight s c core - (staticWeight s c core * n / (n + m) + staticWeight s c core * m / (n + m))) hne hx hy hxs hys
    (by rw [hall]; exact lt_of_le_of_lt (Nat.add_le_add_left (Nat.sub_le _ _) _) hxlt) (lt_of_le_of_lt (Nat.add_le_add_left hfloor _) hylt)
  rw [hall] at hc1 hc2
  rcases hheld with hheld | hheld
  · unfold chargeStatic
    simp only [hheld, List.foldl_cons, List.foldl_nil, List.headD_cons, Nat.zero_add, if_neg (by omega : ¬n + m = 0), lt_irrefl, and_false, or_self,
      if_false, Nat.one_mul, if_neg hfirst]
    exact ⟨hc1, hd1⟩
  · unfold chargeStatic
    simp only [hheld, List.foldl_cons, List.foldl_nil, List.headD_cons, Nat.zero_add, Nat.add_comm m n, if_neg (by omega : ¬n + m = 0), lt_irrefl,
      and_false, or_self, if_false, Nat.one_mul, if_pos hmost, Nat.add_comm (staticWeight s c core * m / (n + m))]
    exact ⟨hc2, hd2⟩

/-! ### The thermal freeze -/

theorem freezeGroup_mode (g cid : Nat) (s : State) : (ctx? (freezeGroup g s) cid).map (·.mode) = (ctx? s cid).map (·.mode) :=
  mode_of_counts (counts_dropTraffic g (modGroup g (fun x => { x with frozen := true, ranks := x.ranks.map freezeRank }) s)) cid

theorem freezeCtx_modes (cid cid' : Nat) (s : State) : (ctx? (freezeCtx cid s) cid').map (·.mode) =
    if cid' = cid then (ctx? s cid').map fun _ => .frozen else (ctx? s cid').map (·.mode) := by
  unfold freezeCtx
  dsimp only
  rw [mode_of_counts (counts_aside (aside_noteState cid _)) cid']
  generalize hframe : List.foldl _ _ _ = t
  have ht : (ctx? t cid').map (·.mode) = (ctx? s cid').map (·.mode) := by
    rw [← hframe]
    exact List.foldlRecOn (motive := fun t : State => (ctx? t cid').map (·.mode) = (ctx? s cid').map (·.mode)) _ _ rfl
      fun t ht g _ => (freezeGroup_mode g cid' t).trans ht
  rw [ctx?, modCtx, sget_smod]
  split
  · have hf := congrArg (Option.map fun _ => CtxMode.frozen) ht
    rw [Option.map_map, Option.map_map] at hf
    rw [Option.map_map]
    exact hf
  · exact ht

theorem keepBase_hot (s t : State) : (keepBase s t).plat.hot = t.plat.hot := rfl

/-- What a thermal trip does to one context. -/
def tripCtx (s : State) (cid : Nat) : State := modCtx cid (fun c => { c with thermal := true }) (freezeCtx cid s)

theorem tripCtx_mode (cid cid' : Nat) (s : State) : (ctx? (tripCtx s cid) cid').map (·.mode) =
    if cid' = cid then (ctx? s cid').map fun _ => .frozen else (ctx? s cid').map (·.mode) := by
  have hmode : (ctx? (tripCtx s cid) cid').map (·.mode) = (ctx? (freezeCtx cid s) cid').map (·.mode) := by
    rw [tripCtx, ctx?, modCtx, sget_smod]
    split
    · exact Option.map_map ..
    · rfl
  rw [hmode, freezeCtx_modes]

/-- The contexts that a trip freezes run no longer, and no other begins to. -/
theorem trip_running {l : List Nat} {cid : Nat} {s : State} (h : (ctx? (l.foldl tripCtx s) cid).map (·.mode) = some .running) :
    cid ∉ l ∧ (ctx? s cid).map (·.mode) = some .running := by
  induction l generalizing s with
  | nil => exact ⟨List.not_mem_nil, h⟩
  | cons a l ih =>
    obtain ⟨hl, hm⟩ := ih h
    rw [tripCtx_mode] at hm
    split at hm
    · cases hc : ctx? s cid <;> simp [hc] at hm
    · next hne => exact ⟨by simp [hne, hl], hm⟩

/-- Settles O48: static energy and its shares, the steps of the arithmetic clock, the thermal trip and what follows it. -/
theorem clockAndHeat : Obligations.ClockAndHeat := by
  unfold Obligations.ClockAndHeat
  refine ⟨⟨?_, ?_, ?_, ?_, ?_, ?_, ?_, ?_, ?_, ?_⟩, ?_, ?_, ?_, ?_⟩
  · intro s hb
    rw [exec_staticEnergyBoundary, execStaticEnergyBoundary, if_pos hb]
    generalize List.range Config.cores = l
    obtain ⟨hclk, hmem, hgroups⟩ := chargeCores_keeps l s
    exact ⟨_, rfl, rfl, hclk, hmem, hgroups⟩
  · intro s hb
    rw [exec_staticEnergyBoundary, execStaticEnergyBoundary, if_neg (by omega)]
    rfl
  · intro s hb
    rw [exec_staticEnergyBoundary, execStaticEnergyBoundary, if_pos hb]
    rfl
  · intro core s hheld
    rw [chargeStatic, hheld]
    rfl
  · exact fun core c n x s hheld hn hx hsat hlt => chargeStatic_alone hheld hn hx hsat hlt
  · exact fun core c d n m x y s hheld hne hn hmost hx hy hxs hys hxlt hylt => chargeStatic_shared hheld hne hn hmost hx hy hxs hys hxlt hylt
  · intro mw s hmw ha hf
    rw [exec_clockStepDown, execClockStepDown, if_pos ⟨hmw, ha, hf⟩]
    exact ⟨_, rfl, rfl, rfl⟩
  · intro mw s hmw ha hf
    rw [exec_clockStepUp, execClockStepUp, if_pos ⟨hmw, ha, hf⟩]
    exact ⟨_, rfl, rfl, rfl⟩
  · intro mw s h
    rw [exec_clockStepDown, execClockStepDown, if_neg]
    · rfl
    · rintro ⟨h1, h2, h3⟩
      rcases h with h | h | h
      · omega
      · omega
      · rw [h] at h3
        cases h3
  · intro mw s h
    rw [exec_clockStepUp, execClockStepUp, if_neg]
    · rfl
    · rintro ⟨h1, h2, h3⟩
      rcases h with h | h | h
      · omega
      · omega
      · rw [h] at h3
        cases h3
  · rintro temps s ⟨d, hd, h105⟩ hhot
    have hany : temps.any (fun t => decide (105 ≤ t)) = true := List.any_eq_true.2 ⟨d, hd, by simpa using h105⟩
    rw [exec_thermalTrip, execThermalTrip, if_pos (by simp only [hany, hhot]; rfl)]
    refine ⟨_, rfl, ?_, ?_, rfl⟩
    · rw [keepBase_hot, mgmtPost, postHost_plat]
      rfl
    · intro cid c hc hm
      have hrun : (ctx? ((runningCtxs s).foldl tripCtx s) cid).map (·.mode) = some .running := by
        rw [← hm, ← Option.map_some, ← hc]
        exact (mode_of_counts (counts_aside (aside_postHost _ (modPlat (fun p => { p with hot := true }) ((runningCtxs s).foldl tripCtx s)))) cid).symm
      obtain ⟨hl, hs⟩ := trip_running hrun
      obtain ⟨c0, hc0, hm0⟩ := Option.map_eq_some_iff.1 hs
      exact hl (List.mem_map.2 ⟨(cid, c0), List.mem_filter.2 ⟨mem_of_sget hc0, by simp [hm0]⟩, rfl⟩)
  · intro temps s hcold hhot
    have hall : temps.all (fun t => decide (t < 95)) = true := List.all_eq_true.2 fun d hd => by simpa using hcold d hd
    rw [exec_thermalResume, execThermalResume, if_pos (by simp only [hall, hhot]; rfl)]
    refine ⟨_, rfl, ?_⟩
    rw [keepBase_hot, foldl_plat fun _ _ => by simp]
    rfl
  · intro temps s hhot
    rw [exec_thermalTrip, execThermalTrip, if_neg (by simp [hhot])]
    rfl
  · intro temps s hhot
    rw [exec_thermalResume, execThermalResume, if_neg (by simp [hhot])]
    rfl

end Sys2Proof.Laws
end

section
/-! SUPPORT. The context engine: the host's step window, its work, the yield trap and its deadline (R359, R367 to R369, R394). -/

open Sys2Proof Sys2Proof.Machine

namespace Sys2Proof.Laws

/-! ### The step window -/

/-- The 64 bytes that a store of a step gives. -/
def stepBytes (kind target : Nat) (area : Long) : List Byte := leBytes kind 4 ++ leBytes target 4 ++ leBytes area.toNat 8 ++ zeros 48

theorem length_stepBytes (kind target : Nat) (area : Long) : (stepBytes kind target area).length = 64 := by
  simp [stepBytes, length_leBytes, zeros]

theorem stepBytes_fields {kind target : Nat} (area : Long) (hk : kind < 4) (ht : target < 4096) :
    field (stepBytes kind target area) 0 4 = kind ∧ field (stepBytes kind target area) 4 4 = target ∧
    field (stepBytes kind target area) 8 8 = area.toNat ∧ zeroBytes (stepBytes kind target area) 16 48 = true := by
  have h4 : ∀ n, (leBytes n 4).length = 4 := fun n => length_leBytes n 4
  have h8 : (leBytes area.toNat 8).length = 8 := length_leBytes _ 8
  have hnil : ∀ n, (leBytes n 4).drop 8 = [] := fun n => List.drop_of_length_le (by rw [h4]; decide)
  have hz : leNat (zeros 48) = 0 := by decide
  have hlt := area.isLt
  refine ⟨?_, ?_, ?_, ?_⟩ <;> simp [zeroBytes, field, stepBytes, List.take_append, List.drop_append, h4, h8, hnil, leNat_leBytes]
  · omega
  · omega
  · omega
  · exact hz

theorem windowStep_accepts {kind target : Nat} {area : Long} {s : State} (hk : kind < 4) (ht : target < 4096) (ha : area.toNat % 4096 = 0)
    (hz : kind = 1 ∨ kind = 2 ∨ area = 0) :
    windowStep kind { off := 0x100C0, data := stepBytes kind target area, hyper := true } s = .next (acceptStep target kind area none s) := by
  obtain ⟨h0, h4, h8, h16⟩ := stepBytes_fields area hk ht
  have harea : (kind == 1 || kind == 2 || area.toNat == 0) = true := by
    rcases hz with h | h | h <;> simp [h]
  unfold windowStep
  simp only [h0, h4, h8, h16, length_stepBytes, ha, harea, hk, ht, decide_true, beq_self_eq_true, Bool.and_true, Bool.not_true, Bool.false_eq_true,
    if_false, ne_eq, not_true_eq_false, or_false, BitVec.ofNat_toNat, BitVec.setWidth_eq]
  rfl

theorem acceptStep_none {target kind : Nat} {area : Long} {s : State} (h : ctx? s target = none) : acceptStep target kind area none s =
    { s with steps := s.steps ++ [{ id := s.fresh, target := target, kind := kind, area := area, issuer := none, prog := 0, bearReq := none }], fresh := s.fresh + 1 } := by
  have hs : sget target s.ctxs = none := h
  simp only [acceptStep, modCtx, smod, hs]
  rw [noteState, ctx?, hs]

theorem acceptStep_some {target kind : Nat} {area : Long} {s : State} {c : Ctx} (h : ctx? s target = some c) : acceptStep target kind area none s =
    (gpaWrite c.part c.savebase.toNat (leBytes (stateWord { c with step := BitVec.ofNat 24 (kind + 1) }) 4)
      { s with steps := s.steps ++ [{ id := s.fresh, target := target, kind := kind, area := area, issuer := none, prog := 0, bearReq := none }], fresh := s.fresh + 1, ctxs := sset target { c with step := BitVec.ofNat 24 (kind + 1) } s.ctxs }).1 := by
  have hs : sget target s.ctxs = some c := h
  simp only [acceptStep, modCtx, smod, hs]
  rw [noteState, ctx?, sget_sset_same]

/-! ### The yield trap -/

theorem thread_stepPast_exited (m : Mask) (pc : Long) (ts : List Thread) :
    (stepPast m pc ts).length = ts.length ∧ ∀ t, t < ts.length → ((stepPast m pc ts).getD t Thread.zero).exited = (ts.getD t Thread.zero).exited := by
  refine ⟨by simp [stepPast], fun t ht => ?_⟩
  simp only [stepPast, List.getD_eq_getElem?_getD, List.getElem?_map, List.getElem?_range ht, Option.map_some, Option.getD_some]
  split <;> rfl

/-- Threads that stand past a stopped entry are the same ones, exited or not. -/
theorem unstop_exited (k : Rank) : k.unstop.threads.length = k.threads.length ∧
    ∀ t, t < k.threads.length → (k.unstop.thread t).exited = (k.thread t).exited := by
  refine List.foldlRecOn (motive := fun ts : List Thread => ts.length = k.threads.length ∧ ∀ t, t < k.threads.length → (ts.getD t Thread.zero).exited = (k.thread t).exited)
    k.live _ ⟨rfl, fun t _ => rfl⟩ fun ts h e _ => ?_
  obtain ⟨hlen, hexit⟩ := h
  split
  · next p _ =>
    obtain ⟨hl, he⟩ := thread_stepPast_exited p.1 e.pc ts
    exact ⟨hl.trans hlen, fun t ht => (he t (hlen ▸ ht)).trans (hexit t ht)⟩
  · exact ⟨hlen, hexit⟩

theorem yieldTrap_enters {g r : Nat} {x : Group} {c : Ctx} {k : Rank} {s : State} (hx : group? s g = some x) (hdue : yieldDue s g = some r)
    (hc : ctx? s x.ctx = some c) (hk : rank? s g r = some k) : ∃ t k',
      exec (.yieldTrap g) s = .next t ∧ rank? t g r = some k' ∧ k'.handler = true ∧ k'.frameActive = true ∧ k'.yielding = true ∧
      k'.tcause = tcauseWord false false 0x30 ∧ k'.tval = c.budget.setWidth 64 ∧ k'.regs = k.regs ∧
      (group? t g).map (·.quiesced) = some true ∧
      ∀ th, th < k.threads.length → (k.thread th).exited = false → (k'.thread th).pc = c.yvec := by
  have hexec : exec (.yieldTrap g) s = .next (keep s (enterYield g r x c k s)) := by
    rw [exec_yieldTrap, execYieldTrap, hx, hdue]
    dsimp only
    rw [hc, hk]
    rfl
  generalize ht : enterYield g r x c k s = t at hexec
  unfold enterYield at ht
  extract_lets pc s1 s2 at ht
  have hk0 : rank? (modRank g r Rank.unstop s) g r = some k.unstop := by rw [rank_modRank_same, hk]; rfl
  obtain ⟨-, k1, hk1, hn, hth⟩ := endPly_spec g r .ready _ _ hk0
  obtain ⟨k2, hk2, hhandler, hframe, hyield, hcause, htval, hregs, hthreads⟩ : ∃ k2, rank? s2 g r = some k2 ∧ k2.handler = true ∧ k2.frameActive = true ∧
      k2.yielding = true ∧ k2.tcause = tcauseWord false false 0x30 ∧ k2.tval = c.budget.setWidth 64 ∧ k2.regs = k1.regs ∧
      k2.threads = k1.threads.map fun t => if t.exited then t else { t with pc := c.yvec, parked := false, passed := 0 } :=
    ⟨_, rank_modRank_some hk1, rfl, rfl, rfl, rfl, rfl, rfl, rfl⟩
  have hk3 : rank? (modGroup g (fun x => { x with quiesced := true, yieldTaken := true }) s2) g r = some k2 := by
    rw [rank_modGroup_same]
    exact hk2
  have hco : CountsOnly (modGroup g (fun x => { x with quiesced := true, yieldTaken := true }) s2) t := by
    rw [← ht]
    exact counts_trans (counts_dropCut ..) (counts_writeFrame ..)
  obtain ⟨k', hk', hcounted⟩ := hco.ranks g r k2 hk3
  obtain ⟨x2, hx2, -⟩ := Option.bind_eq_some_iff.1 hk2
  obtain ⟨hlen, hexited⟩ := unstop_exited k
  have hregs1 : k1.noPly.regs = k.unstop.noPly.regs := by rw [hn]
  refine ⟨_, k', hexec, hk', ?_⟩
  rw [hcounted]
  refine ⟨hhandler, hframe, hyield, hcause, htval, hregs.trans hregs1, ?_, ?_⟩
  · have hg := congrArg (Option.map Group.quiesced) (hco.groups g)
    rw [Option.map_map, Option.map_map, group_modGroup_some hx2] at hg
    exact hg
  · intro th hlt hup
    rw [← hexited th hlt, ← thread_congr hth] at hup
    have hlt1 : th < k1.threads.length := by rw [hth, hlen]; exact hlt
    rw [Rank.thread, List.getD_eq_getElem _ _ hlt1] at hup
    rw [thread_congr (k := k2) (by rfl), Rank.thread, hthreads, List.getD_eq_getElem _ _ (by rwa [List.length_map]), List.getElem_map, if_neg (by simp [hup])]

/-- Settles O51: the steps of the host's window, the context engine's work, the yield trap and its deadline. -/
theorem contextEvents : Obligations.ContextEvents := by
  unfold Obligations.ContextEvents
  refine ⟨?_, ?_, ?_, ?_, fun g x r c k s hx hdue hc hk => yieldTrap_enters hx hdue hc hk, ?_⟩
  · intro kind target area s i ht ha hz st hi s1
    have hexec : exec i s = .next (keep s (acceptStep target kind area none s)) := by
      simp only [List.mem_cons, Prod.mk.injEq, List.not_mem_nil, or_false] at hi
      rcases hi with ⟨rfl, rfl⟩ | ⟨rfl, rfl⟩ | ⟨rfl, rfl⟩ | ⟨rfl, rfl⟩
      · exact congrArg (held s) (windowStep_accepts (by decide) ht ha hz)
      · exact congrArg (held s) (windowStep_accepts (by decide) ht ha hz)
      · exact congrArg (held s) (windowStep_accepts (by decide) ht ha hz)
      · exact congrArg (held s) (windowStep_accepts (by decide) ht ha hz)
    refine ⟨fun hc => ?_, ?_⟩
    · rw [hexec, acceptStep_none hc]
    · intro c hc c'
      rw [hexec, acceptStep_some hc]
  · intro k st s c hst hcan h6 hlacks hc
    rw [exec_ctxStepComplete, execCtxStepComplete, hst]
    dsimp only
    rw [hcan, hlacks, hc, if_neg h6]
    simp only [List.isEmpty_nil, Bool.not_true, Bool.false_eq_true, if_false]
    split <;> rfl
  · intro k st s hst hcan h6 hc
    have hlacks : stepLacks s st = [] := by rw [stepLacks, hc]; exact if_neg h6
    rw [exec_ctxStepComplete, execCtxStepComplete, hst]
    dsimp only
    rw [hcan, hlacks, hc, if_neg h6]
    rfl
  · intro k st s hst hcan hlacks
    rw [exec_ctxStepComplete, execCtxStepComplete, hst]
    dsimp only
    rw [hcan, if_neg (by simp), if_pos (by simpa using hlacks)]
    rfl
  · intro cid s hover
    rw [exec_yieldDeadline, execYieldDeadline, if_pos hover]
    refine ⟨rfl, ?_⟩
    cases hc : ctx? s cid with
    | some c => exact freezeCtx_mode hc
    | none =>
      rw [yieldOverrun, hc] at hover
      cases hover

end Sys2Proof.Laws
end

section
/-! SUPPORT. What a request does at its home, and how it is answered (R132, R146, R172, R316, R352). -/

open Sys2Proof Sys2Proof.Machine

namespace Sys2Proof.Laws

/-! ### Packets that leave -/

/-- What the stamp of a packet that leaves is made of is the same in both states. -/
structure SameStamp (s t : State) : Prop where
  fab : t.fab = s.fab
  tabs : t.tabs = s.tabs
  clk : t.clk = s.clk
  free : t.free = s.free

theorem sameStamp_trans {a b c : State} (h : SameStamp a b) (h' : SameStamp b c) : SameStamp a c :=
  ⟨h'.fab.trans h.fab, h'.tabs.trans h.tabs, h'.clk.trans h.clk, h'.free.trans h.free⟩

theorem stamped_same {s t : State} (h : SameStamp s t) (p : Packet) (was : Option Word) : stamped p was t = stamped p was s := by
  have hview : stamped p was t = stamped p was { s with fab := t.fab, tabs := t.tabs, clk := t.clk, free := t.free } := rfl
  rw [hview, h.fab, h.tabs, h.clk, h.free]

/-- An answer to another package leaves at the end of the outbox, and does nothing else to memory, slabs, groups and tags. -/
theorem reply_leaves {p : Packet} {s t : State} (hp : p.src ≠ s.tabs.self) (h : SameStamp s t) (kind : BitVec 8) (st : BitVec 16) (data : List Byte) :
    (reply p kind st data t).fab.outbox = s.fab.outbox ++ [respond' p kind st data s] ∧ (reply p kind st data t).mem = t.mem ∧
    (reply p kind st data t).tags = t.tags ∧ (reply p kind st data t).slabs = t.slabs ∧ (reply p kind st data t).groups = t.groups := by
  have hout : t.fab.outbox ++ [stamped (answerTo p kind st data) none t] = s.fab.outbox ++ [respond' p kind st data s] := by
    rw [stamped_same h, h.fab]
    rfl
  have hself : p.src ≠ t.tabs.self := by rw [h.tabs]; exact hp
  rw [reply, if_neg hself]
  exact ⟨hout, rfl, rfl, rfl, rfl⟩

/-! ### A write and an atomic operation, once -/

theorem noteWrite_same (p : Packet) (s : State) : SameStamp s (noteWrite p s) ∧ (noteWrite p s).mem = s.mem ∧ (noteWrite p s).tags = s.tags := by
  unfold noteWrite
  split
  · exact ⟨⟨rfl, rfl, rfl, rfl⟩, rfl, rfl⟩
  · unfold noteWritten
    dsimp only
    split <;> exact ⟨⟨rfl, rfl, rfl, rfl⟩, rfl, rfl⟩

theorem mirrorSend_unmirrored (pkg : BitVec 12) {dpa : Nat} (bs : List Byte) (tg : Option (BitVec 32 × List Byte)) {s : State} (h : mirrorOf s dpa = none) :
    mirrorSend pkg dpa bs tg s = s := by
  unfold mirrorSend
  rw [h]

/-- A write at the home of a line that is not mirrored changes memory, copies of the line and reservations. -/
theorem homeWrite_same {w : Writer} {keep : Option (Nat × Nat × Nat)} {tg : Option (BitVec 32 × List Byte)} {dpa : Nat} {bs : List Byte} {s : State}
    (hh : homedHere s dpa = true) (hm : mirrorOf s dpa = none) :
    SameStamp s (homeWrite w keep tg dpa bs s) ∧ (homeWrite w keep tg dpa bs s).tags = s.tags := by
  have hm' : mirrorOf { s with mem := writeBytes s.mem (cellAt s dpa) bs } dpa = none := hm
  unfold homeWrite
  rw [if_pos hh, mirrorSend_unmirrored _ _ _ hm']
  exact ⟨⟨rfl, rfl, rfl, rfl⟩, rfl⟩

theorem findTag_keepTag {s : State} {pkg target : Nat} {tag : BitVec 32} (result : List Byte) (h : findTag s pkg tag target = none) {t : State}
    (ht : t.tags = (keepTag pkg tag target result s).tags) : findTag t pkg tag target = some result := by
  have hnone : s.tags.find? (fun r => r.pkg == pkg && r.tag == tag && r.target == target) = none := Option.map_eq_none_iff.1 h
  rw [findTag, ht, keepTag, List.find?_append, hnone]
  simp

theorem performTagged_once {p : Packet} {dpa : Nat} {result bs : List Byte} {s : State} (hp : p.src ≠ s.tabs.self) (hwf : Mem.wf s.mem = true)
    (hh : homedHere s dpa = true) (hm : mirrorOf s dpa = none) (htag : findTag s p.src.toNat p.tag (granuleOf dpa) = none) (w : Writer)
    (tg : Option (BitVec 32 × List Byte)) : let t := performTagged p dpa result (homeWrite w none tg dpa bs) s
      (∀ b, byteAt t.mem b = if cellAt s dpa ≤ b ∧ b < cellAt s dpa + bs.length then bs.getD (b - cellAt s dpa) 0 else byteAt s.mem b) ∧
      t.fab.outbox = s.fab.outbox ++ [respond' p 0x06 0 result s] ∧ findTag t p.src.toNat p.tag (granuleOf dpa) = some result := by
  obtain ⟨hhome, hhtags⟩ := homeWrite_same (w := w) (keep := none) (tg := tg) (bs := bs) hh hm
  obtain ⟨hnote, hnmem, hntags⟩ := noteWrite_same p (homeWrite w none tg dpa bs s)
  intro t
  have ht : t = ackTo p result (keepTag p.src.toNat p.tag (granuleOf dpa) result (noteWrite p (homeWrite w none tg dpa bs s))) := by
    simp only [t, performTagged, htag, hm, Option.isSome_none, Bool.and_false, Bool.false_and, Bool.false_eq_true, if_false]
  have hsame : SameStamp s (keepTag p.src.toNat p.tag (granuleOf dpa) result (noteWrite p (homeWrite w none tg dpa bs s))) :=
    sameStamp_trans (sameStamp_trans hhome hnote) ⟨rfl, rfl, rfl, rfl⟩
  obtain ⟨hout, hmem, htags, -, -⟩ := reply_leaves hp hsame 0x06 0 result
  rw [ht]
  refine ⟨fun b => ?_, hout, ?_⟩
  · have hm2 : (ackTo p result (keepTag p.src.toNat p.tag (granuleOf dpa) result (noteWrite p (homeWrite w none tg dpa bs s)))).mem =
        writeBytes s.mem (cellAt s dpa) bs := hmem.trans (hnmem.trans (homeWrite_mem bs hh))
    rw [hm2, byteAt_writeBytes _ _ _ _ hwf]
  · refine findTag_keepTag result ?_ htags
    rw [findTag, hntags, hhtags]
    exact htag

theorem homeRead_here {s : State} {dpa : Nat} (h : homedHere s dpa = true) (n : Nat) : homeRead s dpa n = readBytes s.mem (cellAt s dpa) n := by
  rw [homeRead, if_pos h]

/-! ### Ranks that an arrival wakes -/

/-- What an addition to a barrier leaves: everything but the barriers, the ranks, the sequencers and the tags. -/
structure Woken (s t : State) : Prop where
  same : SameStamp s t
  slabs : t.slabs = s.slabs
  mem : t.mem = s.mem
  retired : ∀ g, (group? t g).map (·.retiredGroup) = (group? s g).map (·.retiredGroup)

theorem woken_trans {a b c : State} (h : Woken a b) (h' : Woken b c) : Woken a c :=
  ⟨sameStamp_trans h.same h'.same, h'.slabs.trans h.slabs, h'.mem.trans h.mem, fun g => (h'.retired g).trans (h.retired g)⟩

theorem woken_refl (s : State) : Woken s s := ⟨⟨rfl, rfl, rfl, rfl⟩, rfl, rfl, fun _ => rfl⟩

theorem woken_barSet (g b : Nat) (v : Bar) (s : State) : Woken s (barSet g b v s) := by
  unfold barSet
  split
  · exact woken_refl s
  · split
    · refine ⟨⟨rfl, rfl, rfl, rfl⟩, rfl, rfl, fun g' => ?_⟩
      rw [group_modGroup]
      split
      · exact Option.map_map ..
      · rfl
    · exact ⟨⟨rfl, rfl, rfl, rfl⟩, rfl, rfl, fun _ => rfl⟩

theorem woken_arriveTagged (g r : Nat) (a : Arrival) (n : Nat) (e : Entry) (s : State) : Woken s (arriveTagged g r a n e s) := by
  unfold arriveTagged
  split
  · exact woken_refl s
  · extract_lets v s1
    have h1 : Woken s s1 := by
      unfold s1
      split
      · exact woken_refl s
      · exact woken_trans (woken_barSet ..) ⟨⟨rfl, rfl, rfl, rfl⟩, rfl, rfl, fun _ => rfl⟩
    exact woken_trans h1 ⟨⟨rfl, rfl, rfl, rfl⟩, rfl, rfl, fun _ => rfl⟩

theorem woken_arrivals (n : Nat) (s : State) : Woken s (arrivals n s) := by
  induction n generalizing s with
  | zero => exact woken_refl s
  | succ n ih =>
    unfold arrivals
    split
    · exact woken_trans (woken_arriveTagged ..) (ih _)
    · exact woken_refl s

theorem woken_wakeRanks (s : State) : Woken s (wakeRanks s) := by
  refine ⟨⟨rfl, rfl, rfl, rfl⟩, rfl, rfl, fun g => ?_⟩
  rw [group_wakeRanks, Option.map_map]
  refine congrFun (congrArg Option.map (funext fun x => ?_)) _
  simp only [Function.comp, wakeGroup]
  split <;> rfl

theorem woken_wake (s : State) : Woken s (wake s) := woken_trans (woken_arrivals _ s) (woken_wakeRanks _)

theorem woken_barAdd (g b n : Nat) (s : State) : Woken s (barAdd g b n s) := by
  unfold barAdd
  split
  · exact woken_refl s
  · exact woken_trans (woken_barSet ..) (woken_wake _)

/-! ### Rows -/

theorem trafficEnds_running {g : Nat} {s : State} (h : (group? s g).map (·.retiredGroup) = some false) : trafficEnds g s = s := by
  obtain ⟨x, hx, hr⟩ := Option.map_eq_some_iff.1 h
  have hg : sget g s.groups = some x := hx
  simp only [trafficEnds, hg, hr, Bool.false_eq_true, if_false]

theorem performRow_woken (g phys row bar core : Nat) (add : Bool) (fmt : BitVec 2) (data : List Byte) (s : State) :
    Woken { s with slabs := smod (core * 8 + phys) (fun b => { b with data := writeBytes b.data (row * 512) (if add then addRow fmt (readBytes b.data (row * 512) data.length) data else data) }) s.slabs }
      (performRow g phys row bar core add fmt data s) := woken_barAdd ..

theorem keys_sset {α : Type} {k : Nat} (a : α) {m : Sparse α} (h : (m.map (·.1)).Pairwise (· < ·)) (hk : sget k m ≠ none) :
    (sset k a m).map (·.1) = m.map (·.1) := by
  induction m with
  | nil => exact absurd rfl hk
  | cons e m ih =>
    obtain ⟨k', b⟩ := e
    rw [List.map_cons, List.pairwise_cons] at h
    obtain ⟨hlow, htail⟩ := h
    by_cases heq : k = k'
    · simp [sset, heq]
    · have hin : sget k m ≠ none := by
        rw [sget, if_neg heq] at hk
        split at hk
        · exact absurd rfl hk
        · exact hk
      obtain ⟨v, hv⟩ := Option.ne_none_iff_exists'.1 hin
      have hlt : ¬k < k' := not_lt.2 (hlow k (List.mem_map.2 ⟨(k, v), mem_of_sget hv, rfl⟩)).le
      rw [sset, if_neg hlt, if_neg heq, List.map_cons, ih htail hin, List.map_cons]

/-- A row lands in its slab, in the bytes of its index, and no other slab changes. -/
theorem performRow_slabs {g phys row bar core : Nat} {add : Bool} {fmt : BitVec 2} {data : List Byte} {s : State}
    (hslab : sget (core * 8 + phys) s.slabs ≠ none) (hkeys : (s.slabs.map (·.1)).Pairwise (· < ·)) :
    ((performRow g phys row bar core add fmt data s).slabs.map (·.1)) = (s.slabs.map (·.1)) ∧
    (∀ k, k ≠ core * 8 + phys → sget k (performRow g phys row bar core add fmt data s).slabs = sget k s.slabs) ∧
    (sget (core * 8 + phys) (performRow g phys row bar core add fmt data s).slabs).map (·.data) =
      some (writeBytes (sgetD (core * 8 + phys) default s.slabs).data (row * 512)
        (if add then addRow fmt (readBytes (sgetD (core * 8 + phys) default s.slabs).data (row * 512) data.length) data else data)) := by
  obtain ⟨b, hb⟩ := Option.ne_none_iff_exists'.1 hslab
  rw [(performRow_woken ..).slabs]
  refine ⟨?_, fun k hk => ?_, ?_⟩
  · rw [smod, hb]
    exact keys_sset _ hkeys hslab
  · rw [sget_smod, if_neg hk]
  · rw [sget_smod, if_pos rfl, sgetD, hb]
    rfl

/-- A row for a slab whose group runs under its key, and waits on its barrier, lands. -/
theorem landRow_done {p : Packet} {s : State} {b : Slab} {x : Group} {c : Ctx} (hb : sget (rowCore p * 8 + rowSlab p) s.slabs = some b)
    (hx : group? s b.group = some x) (hc : ctx? s x.ctx = some c) (hkey : c.key = p.keyid) (hheld : barHeld x (rowBar p) = true)
    (htarget : (barGet s x (rowBar p)).target ≠ 0) (hfrozen : x.frozen = false) :
    landRow p s = (performRow b.group (rowSlab p) (rowIndex p) (rowBar p) (rowCore p) (rowAdds p) (rowFmt p) p.data s, .done) := by
  unfold landRow
  simp only [hb, hx, hc, hkey, hheld, hfrozen, Option.bind_some, Option.map_some, ne_eq, not_true_eq_false, if_false, Bool.not_true, Bool.false_or,
    Bool.false_eq_true, beq_iff_eq, htarget]

theorem exposeRow_lands {p : Packet} {s : State} {b : Slab} {x : Group} {c : Ctx} (hp : p.src ≠ s.tabs.self)
    (hb : sget (rowCore p * 8 + rowSlab p) s.slabs = some b)
    (hx : group? s b.group = some x) (hc : ctx? s x.ctx = some c) (hkey : c.key = p.keyid) (hheld : barHeld x (rowBar p) = true)
    (htarget : (barGet s x (rowBar p)).target ≠ 0) (hfrozen : x.frozen = false) (hretired : x.retiredGroup = false)
    (htag : findTag s p.src.toNat p.tag (rowTarget (rowCore p) (rowSlab p) (rowIndex p)) = none) :
    let done := performRow b.group (rowSlab p) (rowIndex p) (rowBar p) (rowCore p) (rowAdds p) (rowFmt p) p.data s
    (exposeRow p s).fab.outbox = s.fab.outbox ++ [respond' p 0x06 0 [] s] ∧ (exposeRow p s).mem = s.mem ∧ (exposeRow p s).slabs = done.slabs ∧
      (exposeRow p s).groups = done.groups := by
  intro done
  have hwoken : Woken _ done := performRow_woken ..
  have hsame : SameStamp s (keepTag p.src.toNat p.tag (rowTarget (rowCore p) (rowSlab p) (rowIndex p)) [] done) :=
    ⟨hwoken.same.fab, hwoken.same.tabs, hwoken.same.clk, hwoken.same.free⟩
  obtain ⟨hout, hmem, -, hslabs, hgroups⟩ := reply_leaves hp hsame 0x06 0 []
  have hruns : trafficEnds b.group (ackTo p [] (keepTag p.src.toNat p.tag (rowTarget (rowCore p) (rowSlab p) (rowIndex p)) [] done)) =
      ackTo p [] (keepTag p.src.toNat p.tag (rowTarget (rowCore p) (rowSlab p) (rowIndex p)) [] done) := by
    refine trafficEnds_running ?_
    have hg : group? (ackTo p [] (keepTag p.src.toNat p.tag (rowTarget (rowCore p) (rowSlab p) (rowIndex p)) [] done)) b.group = group? done b.group := by
      rw [group?, ackTo, hgroups]
      rfl
    rw [hg, hwoken.retired b.group]
    exact (congrArg (Option.map Group.retiredGroup) hx).trans (congrArg some hretired)
  unfold exposeRow
  simp only [htag, Option.isSome_none, Bool.false_eq_true, if_false, landRow_done hb hx hc hkey hheld htarget hfrozen, hb]
  rw [hruns]
  exact ⟨hout, hmem.trans hwoken.mem, hslabs, hgroups⟩

/-- Settles O53: what a request does at its home, once, and how it is answered. -/
theorem fabricPerforms : Obligations.FabricPerforms := by
  unfold Obligations.FabricPerforms
  refine ⟨?_, ?_⟩
  · intro g phys row bar core add fmt data s old hslab hkeys t
    exact performRow_slabs hslab hkeys
  · intro p s dpa hp hwf hh hm at' replies
    refine ⟨?_, ?_, ?_, ?_, ?_, ?_⟩
    · intro hkind hport htag
      have hexpose : exposePacket p s = performTagged p dpa [] (homeWrite (writerOf p) none (some (p.tag, [])) dpa p.data) s := by
        rw [exposePacket, if_pos hkind, exposeWrite, hport]
      simp only [at', replies, hexpose]
      exact performTagged_once hp hwf hh hm htag _ _
    · intro op hkind hop hport htag old answer
      have hexpose : exposePacket p s = performTagged p dpa answer (homeWrite (writerOf p) none (some (p.tag, answer)) dpa (atomResult p op old)) s := by
        rw [exposePacket, if_neg (by rcases hkind with h | h <;> rw [h] <;> decide), if_pos hkind, exposeAtomic, hop]
        dsimp only
        rw [hport]
        dsimp only
        rw [homeRead_here hh]
      simp only [at', replies, hexpose]
      exact performTagged_once hp hwf hh hm htag _ _
    · intro hkind hport
      have hexpose : exposePacket p s = reply p 0x05 0 (readBytes s.mem (cellAt s dpa) p.len) s := by
        rw [exposePacket, if_neg (by rw [hkind]; decide), if_neg (by rw [hkind]; decide), if_pos hkind, exposeRead, hport]
        dsimp only
        rw [homeRead_here hh]
      obtain ⟨hout, hmem, -⟩ := reply_leaves hp ⟨rfl, rfl, rfl, rfl⟩ 0x05 0 (readBytes s.mem (cellAt s dpa) p.len)
      simp only [replies, hexpose]
      exact ⟨hout, hmem⟩
    · intro r hkind hport htag hpend
      have hexpose : exposePacket p s = reply p 0x06 0 r s := by
        rw [exposePacket, if_pos hkind, exposeWrite, hport]
        dsimp only
        rw [performTagged, htag]
        dsimp only
        rw [hpend]
        rfl
      obtain ⟨hout, hmem, -⟩ := reply_leaves hp ⟨rfl, rfl, rfl, rfl⟩ 0x06 0 r
      simp only [replies, hexpose]
      exact ⟨hout, hmem⟩
    · intro st c v hkind hport
      have hexpose : exposePacket p s = reply p 0x07 st (leBytes c.toNat 2 ++ leBytes v.toNat 8) s := by
        rw [exposePacket, if_pos hkind, exposeWrite, hport]
        rfl
      obtain ⟨hout, hmem, -⟩ := reply_leaves hp ⟨rfl, rfl, rfl, rfl⟩ 0x07 st (leBytes c.toNat 2 ++ leBytes v.toNat 8)
      simp only [replies, hexpose]
      exact ⟨hout, hmem⟩
    · intro b x c hkind core phys bar row hb hx hc hkey hheld htarget hfrozen hretired htag
      have hexpose : exposePacket p s = exposeRow p s := by
        rw [exposePacket, if_neg (by rcases hkind with h | h <;> rw [h] <;> decide), if_neg (by rcases hkind with h | h <;> rw [h] <;> decide),
          if_neg (by rcases hkind with h | h <;> rw [h] <;> decide), if_pos hkind]
      simp only [replies, hexpose]
      exact exposeRow_lands hp hb hx hc hkey hheld htarget hfrozen hretired htag

end Sys2Proof.Laws
end

section
/-! SUPPORT. Coherence of control lines between packages (R327). -/

open Sys2Proof Sys2Proof.Machine

namespace Sys2Proof.Laws

/-! ### Messages of the control plane -/

/-- A control message for this package, due and under key 0, has its effect. -/
theorem control_arrives {i : Instr} {kind : BitVec 8} {p : Packet} {effect : State → State} {s : State}
    (he : exec i s = held s (arrive kind p (inTurn p (underKey0 p effect)) s)) (hdst : p.dst = s.tabs.self) (hplane : p.plane = 0) (hlen : p.blen ≤ 536)
    (hdue : p.fseq = expected s p) (hseal : ctlSeal s p = true) (hkind : p.kind = kind) (hknown : (kindKnown kind && planeOk kind 0) = true) :
    exec i s = .next (keep s (effect (setExpected p (p.fseq + 1) s))) := by
  have hseal1 : ctlSeal (setExpected p (p.fseq + 1) s) p = true := hseal
  rw [he, arrive_takes hdst hlen hkind (by rw [hplane]; exact hknown), inTurn_due hdue, underKey0, if_pos hseal1]
  rfl

/-- A message that leaves is the last of the outbox; it carries what it is given. -/
theorem sendCtl_leaves (kind : BitVec 8) (dst addr : Nat) (tag : BitVec 32) (data : List Byte) (s : State) :
    ∃ q, (sendCtl kind dst addr tag data s).fab.outbox = s.fab.outbox ++ [q] ∧ q.kind = kind ∧ q.dst = BitVec.ofNat 12 dst ∧ q.src = s.tabs.self ∧
      q.addr = BitVec.ofNat 64 addr ∧ q.tag = tag ∧ q.data = data := ⟨_, rfl, rfl, rfl, rfl, rfl, rfl, rfl⟩

/-- The tag of a line that is sent: the kind asked for, and whether the row has failed. -/
theorem lineTag (kind : BitVec 8) (failed : Bool) :
    (kind.setWidth 32 ||| if failed then 0x100 else (0 : BitVec 32)).toNat % 256 = kind.toNat ∧
    (kind.setWidth 32 ||| if failed then 0x100 else (0 : BitVec 32)).getLsbD 8 = failed := by
  have hlt := kind.isLt
  cases failed with
  | false => 
    simp
    omega
  | true =>
    simp [Nat.or_mod_two_pow (n := 8)]
    omega

theorem dirAt_sendCtl (kind : BitVec 8) (dst addr : Nat) (tag : BitVec 32) (data : List Byte) (s : State) (line : Nat) :
    dirAt (sendCtl kind dst addr tag data s) line = dirAt s line := rfl

theorem src_back (x : BitVec 12) : BitVec.ofNat 12 x.toNat = x := by rw [BitVec.ofNat_toNat, BitVec.setWidth_eq]

/-! ### The directory -/

theorem dirAt_setDir {d : DirEntry} {p : Packet} (h : d.granting = some p) (line : Nat) (s : State) : dirAt (setDir line d s) line = d := by
  have hne : d ≠ DirEntry.none := by
    rintro rfl
    cases h
  rw [dirAt, dirEntry, setDir, if_neg hne, sget_sset_same]
  rfl

theorem askOnce_asks (kind : BitVec 8) (line dst : Nat) (s : State) : (askOnce kind line dst s).mem = s.mem ∧ (askOnce kind line dst s).dir = s.dir ∧
    (kind.toNat, line, dst) ∈ (askOnce kind line dst s).asking ∧ ∀ a ∈ s.asking, a ∈ (askOnce kind line dst s).asking := by
  unfold askOnce
  split
  · next h => exact ⟨rfl, rfl, by simpa using h, fun _ h => h⟩
  · exact ⟨rfl, rfl, List.mem_append_right _ (List.mem_singleton_self _), fun _ h => List.mem_append_left _ h⟩

theorem askEach_asks (kind : BitVec 8) (line : Nat) (l : List Nat) (s : State) : (l.foldl (fun s o => askOnce kind line o s) s).mem = s.mem ∧
    (l.foldl (fun s o => askOnce kind line o s) s).dir = s.dir ∧
    (∀ o ∈ l, (kind.toNat, line, o) ∈ (l.foldl (fun s o => askOnce kind line o s) s).asking) ∧
    ∀ a ∈ s.asking, a ∈ (l.foldl (fun s o => askOnce kind line o s) s).asking := by
  induction l generalizing s with
  | nil => exact ⟨rfl, rfl, fun _ h => absurd h List.not_mem_nil, fun _ h => h⟩
  | cons a l ih =>
    obtain ⟨hm, hd, hin, hkeep⟩ := askOnce_asks kind line a s
    obtain ⟨hmem, hdir, hall, hstay⟩ := ih (askOnce kind line a s)
    refine ⟨hmem.trans hm, hdir.trans hd, fun o ho => ?_, fun b hb => hstay b (hkeep b hb)⟩
    rcases List.mem_cons.1 ho with rfl | ho
    · exact hstay _ hin
    · exact hall o ho

theorem serveHead_busy {line : Nat} {p : Packet} {s : State} (h : (dirAt s line).granting.isSome = true) : serveHead line p s = (s, false) := by
  unfold serveHead
  rw [if_pos h]

/-- A reader of a line that the home holds has it sent. -/
theorem serveHead_reads {line : Nat} {p : Packet} {s : State} (hk : p.kind = 0x10) (hg : (dirAt s line).granting = none)
    (hr : recalling s line = false) (ho : (dirAt s line).owner = none) :
    serveHead line p s = (sendLine line p.src.toNat 0x10 (lineFor (dirAt s line) line p.src.toNat s)
      (setDir line { dirAt s line with sharers := (dirAt s line).sharers ||| shareBit s p.src.toNat, granting := some p } s), true) := by
  unfold serveHead
  simp only [hg, hk, hr, ho, Option.isSome_none, Bool.false_eq_true, if_false, if_true]

/-- A reader of a line that another package owns is sent to the owner. -/
theorem serveHead_passes {line o : Nat} {p : Packet} {s : State} (hk : p.kind = 0x10) (hg : (dirAt s line).granting = none)
    (hr : recalling s line = false) (ho : (dirAt s line).owner = some o) (hne : o ≠ p.src.toNat) :
    serveHead line p s = (passedOn p o
      (setDir line { dirAt s line with sharers := (dirAt s line).sharers ||| shareBit s p.src.toNat, granting := some p } s), true) := by
  unfold serveHead
  simp only [hg, hk, hr, ho, hne, Option.isSome_none, Bool.false_eq_true, if_false, if_true]

/-- A writer asks every other holder to give the line up. -/
theorem serveHead_recalls {line : Nat} {p : Packet} {s : State} (hk : p.kind ≠ 0x10) (hg : (dirAt s line).granting = none)
    (hl : mustLeave s (dirAt s line) p.src.toNat ≠ []) :
    serveHead line p s = ((mustLeave s (dirAt s line) p.src.toNat).foldl (fun s o => askOnce 0x14 line o s) s, false) := by
  have hne : (!(mustLeave s (dirAt s line) p.src.toNat).isEmpty) = true := by simpa using hl
  unfold serveHead
  simp only [hg, hk, hne, Option.isSome_none, Bool.false_eq_true, if_false, if_true]

/-- A writer of a line that nobody else holds has it. -/
theorem serveHead_writes {line : Nat} {p : Packet} {s : State} (hk : p.kind ≠ 0x10) (hg : (dirAt s line).granting = none)
    (hl : mustLeave s (dirAt s line) p.src.toNat = []) (hr : recalling s line = false) (hh : lineHeld s line = false) :
    serveHead line p s = (sendLine line p.src.toNat p.kind (lineFor (dirAt s line) line p.src.toNat s)
      (setDir line { dirAt s line with owner := some p.src.toNat, sharers := 0, granting := some p } { s with resv := s.resv.filter fun v => v.granule / 16 != line, tlb := s.tlb.filter fun e => !e.lines.contains line }), true) := by
  unfold serveHead
  simp only [hg, hk, hl, hr, hh, Option.isSome_none, Bool.false_eq_true, if_false, List.isEmpty_nil, Bool.not_true, Bool.or_self]

/-- Settles O54: coherence of control lines between packages. -/
theorem coherenceMessages : Obligations.CoherenceMessages := by
  unfold Obligations.CoherenceMessages
  refine ⟨?_, ?_, fun line p s h => serveHead_busy h, ?_, ?_, ?_, ?_, ?_, ?_, ?_⟩
  · intro p s i hdst hplane hlen hdue hseal hi
    simp only [List.mem_cons, Prod.mk.injEq, List.not_mem_nil, or_false] at hi
    rcases hi with ⟨rfl, hk⟩ | ⟨rfl, hk⟩ | ⟨rfl, hk⟩
    · exact control_arrives (exec_readShared p s) hdst hplane hlen hdue hseal hk rfl
    · exact control_arrives (exec_readOwn p s) hdst hplane hlen hdue hseal hk rfl
    · exact control_arrives (exec_upgrade p s) hdst hplane hlen hdue hseal hk rfl
  · intro p s hdst hplane hlen hdue hseal s1
    refine ⟨fun hk => ?_, fun hk => ?_, fun hk => ?_⟩
    · exact control_arrives (exec_writeBack p s) hdst hplane hlen hdue hseal hk rfl
    · exact control_arrives (exec_invalidate p s) hdst hplane hlen hdue hseal hk rfl
    · exact control_arrives (exec_lineData p s) hdst hplane hlen hdue hseal hk rfl
  · intro line p s hk hg hrec ho hf r
    have hr : r = _ := serveHead_reads hk hg hrec ho
    have hdata : lineFor (dirAt s line) line p.src.toNat s = homeRead s (line * 512) 512 := by
      rw [lineFor, ho, if_neg (by simp), if_neg (by simp [hf])]
    rw [hr, hdata]
    obtain ⟨q, hq, hkind, hdst, -, haddr, htag, hd⟩ := sendCtl_leaves 0x15 p.src.toNat (line * 512) ((0x10 : BitVec 8).setWidth 32 ||| if rowFailed s (line * 512) then 0x100 else 0)
      (homeRead s (line * 512) 512) (setDir line { dirAt s line with sharers := (dirAt s line).sharers ||| shareBit s p.src.toNat, granting := some p } s)
    refine ⟨rfl, ?_, ?_, ?_, rfl, q, hq, hkind, hdst.trans (src_back _), haddr, ?_, hd⟩
    · rw [sendLine, dirAt_sendCtl, dirAt_setDir rfl]
    · rw [sendLine, dirAt_sendCtl, dirAt_setDir rfl, ho]
    · rw [sendLine, dirAt_sendCtl, dirAt_setDir rfl]
    · rw [htag, hf]
      rfl
  · intro line p s o hk hg hrec ho hne r
    have hr : r = _ := serveHead_passes hk hg hrec ho hne
    rw [hr]
    obtain ⟨q, hq, hkind, hdst, hsrc, haddr, htag, -⟩ := sendCtl_leaves p.kind o p.addr.toNat (4096 + p.src.setWidth 32) p.data
      (setDir line { dirAt s line with sharers := (dirAt s line).sharers ||| shareBit s p.src.toNat, granting := some p } s)
    refine ⟨rfl, ?_, ?_, rfl, q, hq, hkind.trans hk, hdst, hsrc, htag, by rw [haddr, BitVec.ofNat_toNat, BitVec.setWidth_eq]⟩
    · rw [passedOn, dirAt_sendCtl, dirAt_setDir rfl]
    · rw [passedOn, dirAt_sendCtl, dirAt_setDir rfl, ho]
  · intro line p s hk hg hl r
    obtain ⟨hmem, hdir, hall, -⟩ := askEach_asks 0x14 line (mustLeave s (dirAt s line) p.src.toNat) s
    have hr : r = _ := serveHead_recalls hk hg hl
    rw [hr]
    exact ⟨rfl, hmem, hdir, hall⟩
  · intro line p s hk hg hl hrec hh r
    have hr : r = _ := serveHead_writes hk hg hl hrec hh
    rw [hr]
    obtain ⟨q, hq, hkind, hdst, -, -, htag, hd⟩ := sendCtl_leaves 0x15 p.src.toNat (line * 512) (p.kind.setWidth 32 ||| if rowFailed s (line * 512) then 0x100 else 0)
      (lineFor (dirAt s line) line p.src.toNat s) (setDir line { dirAt s line with owner := some p.src.toNat, sharers := 0, granting := some p } { s with resv := s.resv.filter fun v => v.granule / 16 != line, tlb := s.tlb.filter fun e => !e.lines.contains line })
    obtain ⟨hlow, hbit⟩ := lineTag p.kind (rowFailed s (line * 512))
    refine ⟨rfl, ?_, ?_, rfl, q, hq, hkind, hdst.trans (src_back _), ?_, ?_, hd⟩
    · rw [sendLine, dirAt_sendCtl, dirAt_setDir rfl]
    · rw [sendLine, dirAt_sendCtl, dirAt_setDir rfl]
    · rw [htag, hlow]
    · rw [htag, hbit]
  · intro p s l hl
    unfold invalidated
    simp only [hl]
    split
    · obtain ⟨q, hq, hkind, hdst, -, -, -, hd⟩ := sendCtl_leaves 0x13 p.src.toNat p.addr.toNat 1 l.data (loseLine (lineOfPacket p) s)
      exact ⟨rfl, q, hq, hdst, hkind, hd⟩
    · obtain ⟨q, hq, hkind, hdst, -⟩ := sendCtl_leaves 0x06 p.src.toNat p.addr.toNat 1 [] (loseLine (lineOfPacket p) s)
      exact ⟨rfl, q, hq, hdst, hkind⟩
  · intro p s l hk ht hh hl
    have hmade : asMade p = p := by rw [asMade, if_pos ht]
    have hrequest : lineRequest p s = sendLine (lineOfPacket p) p.src.toNat 0x10 l.data
        { s with l2 := sset (lineOfPacket p) { l with state := if l.state = .s then .s else .o } s.l2 } := by
      unfold lineRequest
      simp only [hh, hk, hl, hmade, Bool.false_eq_true, if_false, ne_eq, not_true_eq_false]
    rw [hrequest]
    refine ⟨_, rfl, rfl, rfl, rfl, ?_⟩
    have hget : ∀ m : State, sget (lineOfPacket p) (sendLine (lineOfPacket p) p.src.toNat 0x10 l.data m).l2 = sget (lineOfPacket p) m.l2 := fun _ => rfl
    rw [hget, sget_sset_same]
    rfl
  · intro p s hh hm ho
    have hown : ((dirAt s (lineOfPacket p)).owner != some p.src.toNat) = true := by simpa using ho
    unfold writtenBack
    simp only [hh, hown, Bool.not_true, Bool.false_and, Bool.false_eq_true, false_and, if_false, Bool.false_or, if_true]

end Sys2Proof.Laws
end

section
/-! SUPPORT. A load that stands in its core's write path (R264): the home lets it stand. -/

open Sys2Proof Sys2Proof.Machine

namespace Sys2Proof.Laws

set_option maxRecDepth 100000

/-- A load of the first word of control space. -/
def pathLoad : Instr := .ld { c := plainCtl, ty := .b32, acq := false, sc := 0, pol := 0, d := .v 0, a := .v 2, disp := 0 }

/-- Its entry in its rank, waiting for its one access. -/
def pathLoadEntry : Entry :=
  { word := encode pathLoad, state := .issued, cls := .n, drop := false, zeroed := 0, unif := false, pc := 0, mask := 1, tagBase := 0, prog := 0, status := 0, cause := 0, block := [], slots := [], id := 1, left := 1, got := [], bad := none, replayed := false }

/-- Its access, marked as one that has entered its core's write path. -/
def pathRead : Access :=
  { id := 1, who := { group := 0, rank := 0, entry := 1 }, core := 0, ctx := 0, part := 0, key := 0, thread := 0, op := .read, ptr := 0, off := 0, len := 4, wholeOff := 0, wholeLen := 4, target := .ctl 0, tag := none, elem := 0, acq := false, waitAll := 0, waitReads := 0, waitTensor := 0, guaranteed := false, minStamp := 0, acqWide := false, home := 0, path := 0, fl := 0, ord := false, remote := false, pc := 0, inOrder := false, inPath := true }

/-- The access is the only one, and its rank waits for nothing else. -/
def pathState : State :=
  let s := State.reset.withFetchWord 96 (encode pathLoad).toNat
  { modRank 0 0 (fun k => { k with live := [pathLoadEntry] }) s with homeq := [pathRead] }

/-- The group and the rank of the load. -/
theorem pathState_rank : ∃ x k, group? pathState 0 = some x ∧ rank? pathState 0 0 = some k ∧ x.retiredGroup = false ∧ k.st = .issuing ∧
    k.live = [pathLoadEntry] := ⟨_, _, rfl, rfl, rfl, rfl, rfl⟩

theorem pathState_only : ∃ x k, OnlyAccess pathRead 0 x k pathLoadEntry pathState := by
  obtain ⟨x, k, hx, hk, hstays, hst, hlive⟩ := pathState_rank
  refine ⟨x, k, ?_⟩
  constructor
  case queue => rfl
  case place => exact ⟨rfl, rfl, rfl, rfl⟩
  case ready => decide
  case goes => exact .inl rfl
  case free => exact fun v hv => absurd (show v ∈ ([] : List Reservation) from hv) List.not_mem_nil
  case fresh => exact ⟨fun _ h => (nomatch h), by decide⟩
  case unread => rfl
  case group => exact hx
  case stays => exact hstays
  case rank => exact hk
  case runs => rw [hst]; decide
  case live => decide
  case entry => rw [hlive]; rfl
  case last => exact ⟨rfl, rfl, rfl⟩

/-- The home finds the load itself before it in the write path, and leaves it queued. -/
theorem pathState_stays : (match exec (.homeRequest 0) pathState with
    | .next t => t.homeq
    | _ => []) ≠ [] := by decide

/-- Refutes O46: a load that is marked as standing in its core's write path, where only stores come, waits for itself: its home request
leaves it in the queue. -/
theorem not_memoryEvents : ¬ Obligations.MemoryEvents := by
  intro h
  obtain ⟨-, hhomes, -⟩ := h
  obtain ⟨-, hread, -⟩ := hhomes
  obtain ⟨x, k, honly⟩ := pathState_only
  obtain ⟨t, ht, hq, -⟩ := hread pathRead 0 x k pathLoadEntry pathState honly rfl (by decide) (by decide)
  refine pathState_stays ?_
  rw [ht]
  exact hq

end Sys2Proof.Laws

end

section
/-! SUPPORT. Orders: a stable sort (R252), the commands of an engine by age (R149, R245), values picked by their indices (R254), and the sum
of a bag whose rows have one home (R159). -/

open Sys2Proof Sys2Proof.Machine

namespace Sys2Proof.Laws

/-! ### A stable sort -/

theorem insertBy_perm {β : Type} (le : β → β → Bool) (a : β) (l : List β) : (insertBy le a l).Perm (a :: l) := by
  induction l with
  | nil => exact List.Perm.refl _
  | cons b l ih =>
    rw [insertBy]
    split
    · exact List.Perm.refl _
    · exact (ih.cons b).trans (List.Perm.swap a b l)

theorem sortBy_perm {β : Type} (le : β → β → Bool) (l : List β) : (sortBy le l).Perm l := by
  induction l with
  | nil => exact List.Perm.refl _
  | cons a l ih => exact (insertBy_perm le a _).trans (ih.cons a)

/-- An element comes to stand before the first that it may precede. -/
theorem insertBy_pairwise {β : Type} {R : β → β → Prop} {le : β → β → Bool} {a : β} {l : List β} (hl : l.Pairwise R)
    (hle : ∀ b ∈ l, le a b = true → R a b) (hnot : ∀ b ∈ l, le a b = false → R b a) (htrans : ∀ b c, R a b → R b c → R a c) :
    (insertBy le a l).Pairwise R := by
  induction l with
  | nil => exact List.pairwise_singleton R a
  | cons b l ih =>
    obtain ⟨hb, hrest⟩ := List.pairwise_cons.1 hl
    rw [insertBy]
    split
    · next h =>
      have hab := hle b List.mem_cons_self h
      refine List.pairwise_cons.2 ⟨fun c hc => ?_, hl⟩
      rcases List.mem_cons.1 hc with rfl | hc
      · exact hab
      · exact htrans b c hab (hb c hc)
    · next h =>
      refine List.pairwise_cons.2 ⟨fun c hc => ?_, ih hrest (fun c hc => hle c (List.mem_cons_of_mem b hc)) fun c hc => hnot c (List.mem_cons_of_mem b hc)⟩
      rcases List.mem_cons.1 ((insertBy_perm le a l).subset hc) with rfl | hc
      · exact hnot b List.mem_cons_self (by simpa using h)
      · exact hb c hc

/-- Sorting by a key orders by the key. -/
theorem sortBy_pairwise {β : Type} (key : β → Nat) (l : List β) : (sortBy (fun a b => decide (key a ≤ key b)) l).Pairwise fun a b => key a ≤ key b := by
  induction l with
  | nil => exact List.Pairwise.nil
  | cons a l ih =>
    exact insertBy_pairwise ih (fun b _ h => by simpa using h) (fun b _ h => by simp at h; omega) fun b c hb hc => hb.trans hc

/-- Sorting what rises by a key keeps the order of what has one key. -/
theorem sortBy_stable (key : Nat → Nat) {l : List Nat} (h : l.Pairwise (· < ·)) :
    (sortBy (fun i j => decide (key i ≤ key j)) l).Pairwise fun i j => key i < key j ∨ key i = key j ∧ i < j := by
  induction l with
  | nil => exact List.Pairwise.nil
  | cons a l ih =>
    obtain ⟨ha, hl⟩ := List.pairwise_cons.1 h
    have hlow : ∀ b ∈ sortBy (fun i j => decide (key i ≤ key j)) l, a < b := fun b hb => ha b ((sortBy_perm _ l).subset hb)
    refine insertBy_pairwise (ih hl) (fun b hb hle => ?_) (fun b hb hle => ?_) fun b c hb hc => by omega
    · have := hlow b hb
      simp only [decide_eq_true_eq] at hle
      omega
    · simp only [decide_eq_false_iff_not] at hle
      omega

theorem stableOrder_sorts : SortsStable := fun key _ => ⟨sortBy_perm _ _, sortBy_stable key List.pairwise_lt_range⟩

/-! ### The commands of an engine -/

/-- In a map whose keys rise, an entry is what its key gives. -/
theorem sget_of_mem {α : Type} {m : Sparse α} (h : (m.map (·.1)).Pairwise (· < ·)) {k : Nat} {a : α} (hm : (k, a) ∈ m) : sget k m = some a := by
  induction m with
  | nil => cases hm
  | cons e m ih =>
    obtain ⟨hlow, htail⟩ := List.pairwise_cons.1 h
    rcases List.mem_cons.1 hm with rfl | hin
    · rw [sget, if_pos rfl]
    · have hlt : e.1 < k := hlow k (List.mem_map.2 ⟨(k, a), hin, rfl⟩)
      rw [sget, if_neg (by omega), if_neg (by omega)]
      exact ih htail hin

/-- Of what is sorted by a key, what is found first has the least key among all that meet the condition. -/
theorem find_least {β : Type} {key : β → Nat} {p : β → Bool} {l : List β} {a b : β} (hl : l.Pairwise fun a b => key a ≤ key b)
    (ha : l.find? p = some a) (hb : b ∈ l) (hp : p b = true) : key a ≤ key b := by
  obtain ⟨-, xs, ys, rfl, hxs⟩ := List.find?_eq_some_iff_append.1 ha
  obtain ⟨-, hys, -⟩ := List.pairwise_append.1 hl
  rcases List.mem_append.1 hb with hb | hb
  · have := hxs b hb
    simp [hp] at this
  · rcases List.mem_cons.1 hb with rfl | hb
    · exact le_rfl
    · exact (List.pairwise_cons.1 hys).1 b hb

theorem starts_inOrder : StartsInOrder := by
  intro e k s hkeys hstart
  unfold startable at hstart
  extract_lets all places waiting first at hstart
  split at hstart
  · cases hstart
  · next hroom =>
    obtain ⟨⟨k', c⟩, hhead, rfl⟩ := Option.map_eq_some_iff.1 hstart
    obtain ⟨hin, hfirst⟩ := List.mem_filter.1 (List.mem_of_head? hhead)
    have hwait : ∀ x : Nat × Cmd, x ∈ waiting ↔ x ∈ s.cmds ∧ x.2.engine = e ∧ x.2.st = .waiting := fun x => by
      simp only [waiting, (sortBy_perm _ _).mem_iff, all, List.mem_filter, beq_iff_eq, and_assoc]
    obtain ⟨hmem, heng, hst⟩ := (hwait _).1 hin
    refine ⟨c, sget_of_mem hkeys hmem, heng, hst, ?_, fun d hd hde hds hdc => ?_⟩
    · have hplaces : places ≤ 16 := by
        unfold places
        split <;> decide
      exact lt_of_lt_of_le (not_le.1 hroom) hplaces
    · obtain ⟨hf, -⟩ := Bool.and_eq_true_iff.1 hfirst
      obtain ⟨f, hfind, hfk⟩ := Option.map_eq_some_iff.1 (eq_of_beq hf)
      have hfm := ((hwait f).1 (List.mem_of_find?_eq_some hfind)).1
      have hfc : f.2 = c := by
        have h1 := sget_of_mem hkeys (show (f.1, f.2) ∈ s.cmds from hfm)
        rw [hfk, sget_of_mem hkeys hmem] at h1
        exact (Option.some.inj h1).symm
      have hleast := find_least (key := fun x : Nat × Cmd => x.2.order) (sortBy_pairwise _ _) hfind ((hwait d).2 ⟨hd, hde, hds⟩) (by simp [hdc])
      rw [← hfc]
      exact hleast

/-! ### Values by their indices -/

theorem pick_at {idx vals want : List Nat} {i j : Nat} (hidx : idx.Nodup) (hi : i < idx.length) (hw : want[j]? = idx[i]?) :
    (pick idx vals want)[j]? = some (vals.getD i 0) := by
  rw [pick, List.getElem?_map, hw, List.getElem?_eq_getElem hi, Option.map_some]
  have hfind : idx.findIdx (· == idx[i]) = i := hidx.idxOf_getElem i hi
  rw [hfind]

theorem exchanges_keep : ExchangesKeep := by
  refine ⟨fun idx vals want i j hidx hi hw _ => pick_at hidx hi hw, fun i1 v1 i2 v2 want h1 h2 hnodup hperm hw => ?_⟩
  have hlen : (i1 ++ i2).length = i1.length + i2.length := List.length_append
  have hassemble : assemble [(i1, v1), (i2, v2)] want = pick (i1 ++ i2) (v1 ++ v2) want := by simp [assemble]
  rw [hassemble]
  refine List.ext_getElem? fun j => ?_
  by_cases hj : j < i1.length
  · have hwant : want[j]? = (i1 ++ i2)[j]? := (hw j hj).trans (List.getElem?_append_left hj).symm
    have hjv : j < v1.length := by omega
    rw [List.getElem?_take_of_lt hj, pick_at hnodup (by omega) hwant, List.getD_eq_getElem?_getD, List.getElem?_append_left hjv,
      List.getElem?_eq_getElem hjv]
    rfl
  · rw [List.getElem?_eq_none (by rw [List.length_take]; omega), List.getElem?_eq_none (by omega)]

/-! ### The sum of a bag -/

theorem addRows_range (op : Nat → Nat → Nat) {n : Nat} (f : Nat → Nat) {r : List Nat} (h : r.length = n) :
    combineRow op (some ((List.range n).map f)) r = some ((List.range n).map fun j => op (f j) (r.getD j 0)) := by
  rw [combineRow, h]
  refine congrArg some (List.map_congr_left fun j hj => ?_)
  rw [List.getD_eq_getElem?_getD, List.getElem?_map, List.getElem?_range (List.mem_range.1 hj)]
  rfl

/-- Rows are added up element by element, in their order. -/
theorem addRows_sum (op : Nat → Nat → Nat) {n : Nat} (val : Nat → List Nat) {l : List Nat} (h : ∀ y ∈ l, (val y).length = n) (f : Nat → Nat) :
    l.foldl (fun a x => combineRow op a (val x)) (some ((List.range n).map f)) =
      some ((List.range n).map fun j => l.foldl (fun a y => op a ((val y).getD j 0)) (f j)) := by
  induction l generalizing f with
  | nil => rfl
  | cons x l ih =>
    rw [List.foldl_cons, addRows_range op f (h x List.mem_cons_self), ih fun y hy => h y (List.mem_cons_of_mem x hy)]
    rfl

theorem range_map_getD {l : List Nat} {n : Nat} (h : l.length = n) : (List.range n).map (fun j => l.getD j 0) = l := by
  subst h
  refine List.ext_getElem (by simp) fun j hj _ => ?_
  rw [List.length_map, List.length_range] at hj
  simp [hj]

theorem eraseDups_same {h : Nat} (l : List Nat) (hl : ∀ y ∈ l, y = h) : (h :: l).eraseDups = [h] := by
  rw [List.eraseDups_cons, List.filter_eq_nil_iff.2 fun y hy => by simp [hl y hy]]
  rfl

/-- A bag whose rows have one home is summed in its order. -/
theorem bagSum_oneHome {chan : Nat → Nat} {rows : List (Nat × List Nat)} {val : Nat → List Nat} {x : Nat} {l : List Nat} {h n : Nat}
    (hall : ∀ y ∈ x :: l, chan y = h ∧ rows.find? (fun g => g.1 == y) = some (y, val y) ∧ (val y).length = n) :
    bagSum chan rows (x :: l) = some ((List.range n).map fun j => l.foldl (fun a y => addF32 a ((val y).getD j 0)) ((val x).getD j 0)) := by
  have hhomes : ((x :: l).map chan).eraseDups = [h] := by
    rw [List.map_cons, (hall x List.mem_cons_self).1]
    refine eraseDups_same _ fun y hy => ?_
    obtain ⟨z, hz, rfl⟩ := List.mem_map.1 hy
    exact (hall z (List.mem_cons_of_mem x hz)).1
  have hfilter : (x :: l).filter (fun x => chan x == h) = x :: l := List.filter_eq_self.2 fun y hy => by simp [(hall y hy).1]
  have hrow : ∀ y ∈ x :: l, ((rows.find? fun g => g.1 == y).map (·.2)).getD [] = val y := fun y hy => by rw [(hall y hy).2.1]; rfl
  have hfold : (x :: l).foldl (fun a x => combineRow addF32 a (((rows.find? fun g => g.1 == x).map (·.2)).getD [])) none =
      some ((List.range n).map fun j => l.foldl (fun a y => addF32 a ((val y).getD j 0)) ((val x).getD j 0)) := by
    rw [List.foldl_cons, hrow x List.mem_cons_self, combineRow, List.foldl_ext _ (fun a x => combineRow addF32 a (val x)) _ fun a y hy => by
      rw [hrow y (List.mem_cons_of_mem x hy)]]
    have hsum := addRows_sum addF32 val (fun y hy => (hall y (List.mem_cons_of_mem x hy)).2.2) fun j => (val x).getD j 0
    rwa [range_map_getD (hall x List.mem_cons_self).2.2] at hsum
  unfold bagSum
  simp only [hhomes, sortBy, List.foldr_cons, List.foldr_nil, insertBy, List.filterMap_cons, List.filterMap_nil, hfilter, hfold]
  rfl

theorem gather_sums {chan : Nat → Nat} {b : List Byte} {rows : List (Nat × List Nat)} {val : Nat → List Nat} {x : Nat} {l : List Nat} {h : Nat}
    (hmode : Gs.mode b = 1) (hall : ∀ y ∈ x :: l, chan y = h ∧ y < Gs.trows b ∧ rows.find? (fun g => g.1 == y) = some (y, val y) ∧ (val y).length = Gs.cols b) :
    bagRow chan b (x :: l) rows = some ((List.range (Gs.cols b)).map fun j => l.foldl (fun a y => addF32 a ((val y).getD j 0)) ((val x).getD j 0)) := by
  have hxs : (x :: l).filterMap (finalIndex b) = x :: l := by
    refine (List.filterMap_congr fun y hy => ?_).trans List.filterMap_some
    rw [finalIndex, if_pos (hall y hy).2.1]
  have hsum := bagSum_oneHome fun y hy => ⟨(hall y hy).1, (hall y hy).2.2.1, (hall y hy).2.2.2⟩
  unfold bagRow
  simp only [hmode, hxs, hsum, Option.getD_some]

end Sys2Proof.Laws
end

section
/-! SUPPORT. Plies that start (R211, R214, R215), and commands that start, pause and stop (R147, R153). -/

open Sys2Proof Sys2Proof.Machine

namespace Sys2Proof.Laws

/-! ### A ply -/

/-- What the start of a ply does to its rank. -/
theorem startPly_starts {k : Rank} {p : Long × Mask} (h : choosePath k = some p) :
    (startPly k).st = .issuing ∧ (startPly k).active = p.2 ∧ (startPly k).plyLen = 0 ∧ (startPly k).y = [] ∧ (startPly k).live = k.live ∧
    ((startPly k).v, (startPly k).o, (startPly k).w, (startPly k).p, (startPly k).j) = (k.v, k.o, k.w, k.p, k.j) ∧
    ∀ th, th < k.threads.length → ((startPly k).thread th).pc = (k.thread th).pc ∧ (p.2.getLsbD th = true → ((startPly k).thread th).passed = 0) := by
  have hmap : (startPly k).threads = (List.range k.threads.length).map fun t =>
      let x := k.thread t
      if p.2.getLsbD t then { x with passed := 0 }
      else if k.standing.getLsbD t then { x with passed := (((pathsOfRank k).find? fun q => q.2.getLsbD t).map (pathPassed k)).getD 0 + 1 }
      else x := by
    rw [startPly, h]
  refine ⟨by rw [startPly, h], by rw [startPly, h], by rw [startPly, h], by rw [startPly, h], by rw [startPly, h], by rw [startPly, h], fun th hth => ?_⟩
  have hth' : (startPly k).thread th = _ := thread_of_map (startPly k) _ k.threads.length _ hmap th hth
  rw [hth']
  dsimp only
  split
  · exact ⟨rfl, fun _ => rfl⟩
  · next hp =>
    refine ⟨?_, fun hp' => absurd hp' hp⟩
    split <;> rfl

theorem laneChoice_starts {core lane g : Nat} {x : Group} {k : Rank} {s : State} (hc : chooseRank s core lane = some (g, x, k))
    (hr : retryOf s g k.idx = none) : exec (.laneChoice core lane) s = .next (keep s { (modRank g k.idx startPly s) with cur := some (.rank g k.idx) }) := by
  rw [exec_laneChoice, execLaneChoice, hc]
  dsimp only
  rw [hr]
  rfl

theorem laneChoice_retries {core lane g : Nat} {x : Group} {k : Rank} {e : Entry} {s : State} (hc : chooseRank s core lane = some (g, x, k))
    (hr : retryOf s g k.idx = some e) : exec (.laneChoice core lane) s = .next (keepPlat s (retryBlock g k.idx e s)) := by
  rw [exec_laneChoice, execLaneChoice, hc]
  dsimp only
  rw [hr]
  rfl

theorem plies_start : PliesStart := by
  intro core lane g x k p s hc hr hk hp
  obtain ⟨hst, hactive, hlen, hy, hlive, hregs, hthreads⟩ := startPly_starts hp
  have hrank : ∀ g' r', rank? (keep s { (modRank g k.idx startPly s) with cur := some (.rank g k.idx) }) g' r' = rank? (modRank g k.idx startPly s) g' r' :=
    fun _ _ => rfl
  refine ⟨_, startPly k, laneChoice_starts hc hr, rfl, rfl, rfl, ?_, hst, hactive, hlen, hy, hlive, hregs, hthreads, fun g' r' hne => ?_⟩
  · rw [hrank, rank_modRank_some hk]
  · rw [hrank, rank_modRank, if_neg fun h => hne (Prod.ext h.1 h.2)]

/-! ### Commands -/

theorem cmd_modCmd {k : Nat} {f : Cmd → Cmd} {s : State} {c : Cmd} (h : sget k s.cmds = some c) : sget k (modCmd k f s).cmds = some (f c) := by
  rw [modCmd, sget_smod, if_pos rfl, h]
  rfl

theorem cmd_modCmd_other {k j : Nat} (h : j ≠ k) (f : Cmd → Cmd) (s : State) : sget j (modCmd k f s).cmds = sget j s.cmds := by
  rw [modCmd, sget_smod, if_neg h]

theorem engineCommandStart_starts {e : EngineId} {k : Nat} {s : State} (h : startable s e = some k) :
    ∃ t, exec (.engineCommandStart e) s = .next t ∧
      (∀ c, sget k s.cmds = some c → sget k t.cmds = some { c with st := .running }) ∧ (∀ j, j ≠ k → sget j t.cmds = sget j s.cmds) ∧
      t.mem = s.mem ∧ t.groups = s.groups := by
  rw [exec_engineCommandStart, execEngineCommandStart, h]
  exact ⟨_, rfl, fun c hc => cmd_modCmd (s := s) hc, fun j hj => cmd_modCmd_other hj _ s, rfl, rfl⟩

theorem engineAccessFault_pauses {k : Nat} {c : Cmd} {cause : BitVec 16} {v : Long} {s : State} (hc : sget k s.cmds = some c)
    (hf : engFault k s = some (.page cause v)) : exec (.engineAccessFault k) s = .next (keep s (pauseCmd k c cause v s)) := by
  rw [exec_engineAccessFault, execEngineAccessFault, hc, hf]
  rfl

theorem engineAccessFault_stops {k : Nat} {c : Cmd} {st : BitVec 16} {s : State} (hc : sget k s.cmds = some c)
    (hf : engFault k s = some (.stop st)) : exec (.engineAccessFault k) s = .next (keep s (stopCmd k st s)) := by
  rw [exec_engineAccessFault, execEngineAccessFault, hc, hf]
  rfl

/-- A command that meets a fault has met none before. -/
theorem engFault_status {k : Nat} {c : Cmd} {f : EngFault} {s : State} (hc : sget k s.cmds = some c) (hf : engFault k s = some f) : c.status = 0 := by
  rw [engFault, hc] at hf
  dsimp only at hf
  split at hf
  · next hwork =>
    simp only [mayWork, working, Bool.and_eq_true, beq_iff_eq] at hwork
    exact hwork.1.1.1.2
  · cases hf

/-- A page fault of a command is an imprecise fault of its issuer, as long as that stands. -/
theorem pauseCmd_issuer {k : Nat} {c : Cmd} {cause : BitVec 16} {v : Long} {x : Group} {q : Rank} {s : State} (hx : group? s c.group = some x)
    (hq : x.ranks[c.rank]? = some q) (hst : q.st ≠ .retired) : pauseCmd k c cause v s =
      modRank c.group c.rank (fun q => { q with live := q.live ++ [cmdEntry k c .faulted cause s], imprecise := q.imprecise ++ [{ cause := cause, tval := v, pc := c.pc, entry := some (cmdEntry k c .faulted cause s) }] })
        (modCmd k (fun c => { c with st := .paused }) s) := by
  have hfr : faultRank s c = some c.rank := by
    rw [faultRank, hx]
    dsimp only
    rw [hq]
    exact if_neg hst
  rw [pauseCmd, hfr]

theorem commands_fault : CommandsFault := by
  refine ⟨fun k c cause v x q s hc hf hx hq hst => ?_, fun k c st s hc hf => ?_⟩
  · have hrank : rank? (modCmd k (fun c => { c with st := .paused }) s) c.group c.rank = some q := by
      rw [rank?, show group? (modCmd k (fun c => { c with st := .paused }) s) c.group = group? s c.group from rfl, hx]
      exact hq
    rw [engineAccessFault_pauses hc hf, pauseCmd_issuer hx hq hst]
    exact ⟨_, _, cmdEntry k c .faulted cause s, rfl, cmd_modCmd (s := s) hc, rank_modRank_some hrank, rfl, rfl, rfl, rfl, rfl, rfl, rfl, rfl, rfl, rfl, rfl⟩
  · rw [engineAccessFault_stops hc hf]
    exact ⟨_, _, rfl, cmd_modCmd (s := s) hc, by rw [if_pos (engFault_status hc hf)], rfl, rfl, rfl, rfl⟩

end Sys2Proof.Laws
end

section
/-! SUPPORT. The pieces that an engine writes: a unit that begins takes its tags and no more (R153), a piece that is performed stores its bytes, and
what settles after it leaves the bytes of memory and of the scratchpads. -/

open Sys2Proof Sys2Proof.Machine

namespace Sys2Proof.Laws

/-! ### A unit begins -/

/-- A context but for the next tag of its numbers. -/
def noTagSeq (c : Ctx) : Ctx := { c with tagSeq := 0 }

/-- What the start of a unit changes: the commands, and the next tag of a context. -/
def Begun (s t : State) : Prop :=
  ∃ cs ds, t = { s with ctxs := cs, cmds := ds } ∧ ∀ cid, (sget cid cs).map noTagSeq = (sget cid s.ctxs).map noTagSeq

theorem begun_refl (s : State) : Begun s s := ⟨s.ctxs, s.cmds, rfl, fun _ => rfl⟩

theorem begun_cmds {s t : State} (h : Begun s t) (ds : Sparse Cmd) : Begun s { t with cmds := ds } := by
  obtain ⟨cs, _, rfl, hc⟩ := h
  exact ⟨cs, ds, rfl, hc⟩

theorem begun_takeTags (cid n : Nat) (s : State) : Begun s (takeTags cid n s).1 ∧ (takeTags cid n s).1.cmds = s.cmds := by
  unfold takeTags
  split
  · exact ⟨begun_refl s, rfl⟩
  · refine ⟨⟨_, s.cmds, rfl, fun c => ?_⟩, rfl⟩
    rw [sget_smod]
    split
    · rw [Option.map_map]
      rfl
    · rfl

/-! What a walk of the translation tables finds depends on the state through what the tables hold. -/

theorem searchRanges_congr {s t : State} (h : tableLook t = tableLook s) (wher : Nat → Look (Nat × List Nat)) (a i n : Nat) :
    searchRanges t wher a i n = searchRanges s wher a i n := by
  induction n generalizing i with
  | zero => rfl
  | succ n ih => simp only [searchRanges, ih, h]

theorem walkPages_congr {s t : State} (h : tableLook t = tableLook s) (wher : Nat → Look (Nat × List Nat)) (a : Nat) (shifts : List Nat) (table : Nat)
    (seen : List Nat) : walkPages t wher a shifts table seen = walkPages s wher a shifts table seen := by
  induction shifts generalizing table seen with
  | nil => rfl
  | cons sh rest ih => simp only [walkPages, ih, h]

theorem findMapping_congr {s t : State} (h : tableLook t = tableLook s) (wher : Nat → Look (Nat × List Nat)) (rt rn pt a : Nat) :
    findMapping t wher rt rn pt a = findMapping s wher rt rn pt a := by
  simp only [findMapping, searchRanges_congr h, walkPages_congr h]

theorem stage2Map_congr {s t : State} (h : tableLook t = tableLook s) (htabs : t.tabs = s.tabs) : stage2Map t = stage2Map s := by
  funext part gpa
  simp only [stage2Map, findMapping_congr h, htabs]

theorem stage2Lines_congr {s t : State} (h : tableLook t = tableLook s) (htabs : t.tabs = s.tabs) : stage2Lines t = stage2Lines s := by
  funext part gpa
  simp only [stage2Lines, stage2Map_congr h htabs]

theorem stage2_congr {s t : State} (h : tableLook t = tableLook s) (htabs : t.tabs = s.tabs) (part gpa : Nat) (r : Right) :
    (stage2 none part gpa r t).2 = (stage2 none part gpa r s).2 := by
  unfold stage2
  rw [stage2Map_congr h htabs]
  cases stage2Map s part gpa <;> rfl

theorem stage2All_congr {s t : State} (h : tableLook t = tableLook s) (htabs : t.tabs = s.tabs) (part gpa : Nat) (rs : List Right) :
    stage2All t part gpa rs = stage2All s part gpa rs := by
  induction rs with
  | nil => rfl
  | cons r rs ih =>
    cases rs with
    | nil => exact stage2_congr h htabs part gpa r
    | cons r' rs => simp only [stage2All, stage2Addr, stage2_congr h htabs] at ih ⊢; simp only [ih]

theorem portResolve_congr {s t : State} (h : tableLook t = tableLook s) (htabs : t.tabs = s.tabs) (hplat : t.plat = s.plat) (k : Asker)
    (buf off size : Nat) (r : BufRight) : portResolve t k buf off size r = portResolve s k buf off size r := by
  have hbuf : bufEntry t = bufEntry s := by funext part buf; rw [bufEntry, htabs]; rfl
  have hlayer : layerOff t = layerOff s := by funext dpa; rw [layerOff, hplat]; rfl
  simp only [portResolve, portCheck, portPlace, hbuf, stage2All_congr h htabs, hlayer]

/-- A translation looks at no tag and no command. -/
theorem translate_begun {s t : State} (h : Begun s t) (cid va : Nat) (r : Right) : (translate none cid va r t).2 = (translate none cid va r s).2 := by
  obtain ⟨cs, ds, rfl, hc⟩ := h
  have htable : tableLook { s with ctxs := cs, cmds := ds } = tableLook s := rfl
  have hcid := hc cid
  cases hs : sget cid s.ctxs with
  | none =>
    rw [hs, Option.map_none, Option.map_eq_none_iff] at hcid
    unfold Machine.translate
    rw [hs, hcid]
  | some c =>
    rw [hs] at hcid
    obtain ⟨c', hc', hcc⟩ := Option.map_eq_some_iff.1 hcid
    have hview : ∀ {β : Type} (f : Ctx → β), f (noTagSeq c') = f (noTagSeq c) := fun f => congrArg f hcc
    have h1 : c'.s1rt = c.s1rt := hview (·.s1rt)
    have h2 : c'.s1rn = c.s1rn := hview (·.s1rn)
    have h3 : c'.s1pt = c.s1pt := hview (·.s1pt)
    have h4 : c'.part = c.part := hview (·.part)
    unfold Machine.translate
    simp only [hs, hc', h1, h2, h3, h4, findMapping_congr htable, stage2Lines_congr htable rfl]
    cases findMapping s (stage2Lines s c.part) c.s1rt.toNat c.s1rn.toNat c.s1pt.toNat va with
    | found m =>
      dsimp only
      split
      · rfl
      · have h2 := stage2_congr (s := s) (t := { s with ctxs := cs, cmds := ds }) htable rfl c.part (m.apply va) r
        revert h2
        generalize stage2 none c.part (m.apply va) r { s with ctxs := cs, cmds := ds } = x
        generalize stage2 none c.part (m.apply va) r s = y
        obtain ⟨_, x⟩ := x
        obtain ⟨_, y⟩ := y
        rintro rfl
        cases x <;> rfl
    | _ => rfl

/-- Where a piece goes does not depend on the tags and commands. -/
theorem engAt_begun {s t : State} (h : Begun s t) (c : Cmd) (p : Long) (n : Nat) (w : Bool) : engAt c p n w t = engAt c p n w s := by
  have htr := translate_begun h
  obtain ⟨cs, ds, rfl, -⟩ := h
  have hport := portResolve_congr (s := s) (t := { s with ctxs := cs, cmds := ds }) rfl rfl rfl
  unfold engAt
  simp only [htr, hport]
  rfl

/-! ### What settles keeps the bytes -/

/-- No command comes or goes, and the timelines stay. -/
structure Beside (s t : State) : Prop where
  keys : ∀ k, (sget k t.cmds).isSome = (sget k s.cmds).isSome
  tls : ∀ cid, (ctx? t cid).map (·.tls) = (ctx? s cid).map (·.tls)

theorem beside_refl (s : State) : Beside s s := ⟨fun _ => rfl, fun _ => rfl⟩

theorem beside_trans {a b c : State} (h : Beside a b) (h' : Beside b c) : Beside a c :=
  ⟨fun k => (h'.keys k).trans (h.keys k), fun cid => (h'.tls cid).trans (h.tls cid)⟩

/-- The bytes of memory and of the scratchpads stay too. -/
structure KeepsBytes (s t : State) : Prop where
  beside : Beside s t
  mem : t.mem = s.mem
  scratch : ∀ g, (group? t g).map (·.scratch) = (group? s g).map (·.scratch)

theorem keepsBytes_refl (s : State) : KeepsBytes s s := ⟨beside_refl s, rfl, fun _ => rfl⟩

theorem keepsBytes_trans {a b c : State} (h : KeepsBytes a b) (h' : KeepsBytes b c) : KeepsBytes a c :=
  ⟨beside_trans h.beside h'.beside, h'.mem.trans h.mem, fun g => (h'.scratch g).trans (h.scratch g)⟩

theorem keepsBytes_fold {α : Type} {f : State → α → State} (h : ∀ s a, KeepsBytes s (f s a)) (l : List α) (s : State) : KeepsBytes s (l.foldl f s) := by
  induction l generalizing s with
  | nil => exact keepsBytes_refl s
  | cons a l ih => exact keepsBytes_trans (h s a) (ih _)

theorem keepsBytes_modCmd (k : Nat) (f : Cmd → Cmd) (s : State) : KeepsBytes s (modCmd k f s) := by
  refine ⟨⟨fun j => ?_, fun _ => rfl⟩, rfl, fun _ => rfl⟩
  rw [modCmd, sget_smod]
  split
  · rw [Option.isSome_map]
  · rfl

/-- Taking tags leaves the timelines and the bytes. -/
theorem keepsBytes_takeTags (cid n : Nat) (s : State) : KeepsBytes s (takeTags cid n s).1 := by
  obtain ⟨⟨cs, ds, heq, hctx⟩, hcmds⟩ := begun_takeTags cid n s
  rw [heq] at hcmds ⊢
  refine ⟨⟨fun k => by rw [hcmds], fun c => ?_⟩, rfl, fun _ => rfl⟩
  have h := congrArg (Option.map (fun c : Ctx => c.tls)) (hctx c)
  rw [Option.map_map, Option.map_map] at h
  exact h

theorem keepsBytes_keepTag (pkg : Nat) (tag : BitVec 32) (target : Nat) (result : List Byte) (s : State) :
    KeepsBytes s (keepTag pkg tag target result s) := ⟨⟨fun _ => rfl, fun _ => rfl⟩, rfl, fun _ => rfl⟩

theorem keepsBytes_releaseTag (tag : BitVec 32) (s : State) : KeepsBytes s (releaseTag tag s) := by
  unfold releaseTag
  dsimp only
  split <;> exact ⟨⟨fun _ => rfl, fun _ => rfl⟩, rfl, fun _ => rfl⟩

theorem keepsBytes_modGroup {g : Nat} {f : Group → Group} (h : ∀ x, (f x).scratch = x.scratch) (s : State) : KeepsBytes s (modGroup g f s) := by
  refine ⟨⟨fun _ => rfl, fun _ => rfl⟩, rfl, fun g' => ?_⟩
  rw [group_modGroup]
  split
  · rw [Option.map_map]
    exact congrFun (congrArg Option.map (funext h)) _
  · rfl

theorem keepsBytes_barSet (g b : Nat) (v : Bar) (s : State) : KeepsBytes s (barSet g b v s) := by
  unfold barSet
  split
  · exact keepsBytes_refl s
  · split
    · refine keepsBytes_modGroup ?_ s
      exact fun _ => rfl
    · exact ⟨⟨fun _ => rfl, fun _ => rfl⟩, rfl, fun _ => rfl⟩

theorem keepsBytes_arriveTagged (g r : Nat) (a : Arrival) (n : Nat) (e : Entry) (s : State) : KeepsBytes s (arriveTagged g r a n e s) := by
  unfold arriveTagged
  split
  · exact keepsBytes_refl s
  · extract_lets v s1
    have h1 : KeepsBytes s s1 := by
      unfold s1
      split
      · exact keepsBytes_refl s
      · exact keepsBytes_trans (keepsBytes_barSet ..) (keepsBytes_keepTag ..)
    exact keepsBytes_trans h1 ⟨⟨fun _ => rfl, fun _ => rfl⟩, rfl, fun _ => rfl⟩

theorem keepsBytes_arrivals (n : Nat) (s : State) : KeepsBytes s (arrivals n s) := by
  induction n generalizing s with
  | zero => exact keepsBytes_refl s
  | succ n ih =>
    unfold arrivals
    split
    · exact keepsBytes_trans (keepsBytes_arriveTagged ..) (ih _)
    · exact keepsBytes_refl s

theorem keepsBytes_wakeRanks (s : State) : KeepsBytes s (wakeRanks s) := by
  refine ⟨⟨fun _ => rfl, fun _ => rfl⟩, rfl, fun g => ?_⟩
  rw [group_wakeRanks, Option.map_map]
  refine congrFun (congrArg Option.map (funext fun x => ?_)) _
  simp only [Function.comp, wakeGroup]
  split <;> rfl

theorem keepsBytes_wake (s : State) : KeepsBytes s (wake s) := keepsBytes_trans (keepsBytes_arrivals _ s) (keepsBytes_wakeRanks _)

theorem keepsBytes_barAdd (g b n : Nat) (s : State) : KeepsBytes s (barAdd g b n s) := by
  unfold barAdd
  split
  · exact keepsBytes_refl s
  · exact keepsBytes_trans (keepsBytes_barSet ..) (keepsBytes_wake _)

theorem keepsBytes_dropFlight (k : Nat) (f : Flight) (s : State) : KeepsBytes s (dropFlight k f s) := by
  unfold dropFlight
  split
  · exact keepsBytes_refl s
  · exact keepsBytes_trans (keepsBytes_modCmd ..) (keepsBytes_fold (fun _ _ => keepsBytes_releaseTag ..) _ _)

theorem keepsBytes_settleFlights (k n : Nat) (s : State) : KeepsBytes s (settleFlights k n s) := by
  induction n generalizing s with
  | zero => exact keepsBytes_refl s
  | succ n ih =>
    unfold settleFlights
    split
    · exact keepsBytes_refl s
    · split
      · exact keepsBytes_refl s
      · exact keepsBytes_trans (keepsBytes_trans (keepsBytes_dropFlight ..) (keepsBytes_modCmd ..)) (ih _)

theorem keepsBytes_landPiece (k u i n : Nat) (s : State) : KeepsBytes s (landPiece k u i n s) := by
  unfold landPiece
  split
  · exact keepsBytes_refl s
  · split
    · exact keepsBytes_refl s
    · split
      · exact keepsBytes_refl s
      · extract_lets s1
        have h1 : KeepsBytes s s1 := keepsBytes_trans (keepsBytes_modCmd ..) (keepsBytes_modCmd ..)
        split
        · exact h1
        · split
          · exact h1
          · exact keepsBytes_trans h1 (keepsBytes_trans (keepsBytes_keepTag ..) (keepsBytes_barAdd ..))

theorem keepsBytes_pieceWent (k u i n : Nat) (e : PieceEnd) (s : State) : KeepsBytes s (pieceWent k u i n e s) := by
  cases e with
  | performed => exact keepsBytes_trans (keepsBytes_trans (keepsBytes_modCmd ..) (keepsBytes_landPiece ..)) (keepsBytes_settleFlights ..)
  | sent => exact keepsBytes_modCmd ..

theorem keepsBytes_dropFetched (k : Nat) (used : List (Long × Nat)) (s : State) : KeepsBytes s (dropFetched k used s) := by
  unfold dropFetched
  dsimp only
  split
  · exact keepsBytes_refl s
  · exact keepsBytes_modCmd ..

/-! ### Addresses of pieces -/

theorem extract_high {p q : Long} {w i n : Nat} (h : p.toNat / 2 ^ w = q.toNat / 2 ^ w) (hw : w ≤ i) : p.extractLsb' i n = q.extractLsb' i n := by
  have hdiv : ∀ x : Nat, x / 2 ^ i = x / 2 ^ w / 2 ^ (i - w) := fun x => by rw [Nat.div_div_eq_div_mul, ← pow_add, Nat.add_sub_cancel' hw]
  refine BitVec.eq_of_toNat_eq ?_
  rw [BitVec.extractLsb'_toNat, BitVec.extractLsb'_toNat, Nat.shiftRight_eq_div_pow, Nat.shiftRight_eq_div_pow, hdiv, hdiv, h]

/-- Pointers with the same bits above their offset have the same space, and are both good or both not. -/
theorem ptr_high {p q : Long} (h : q.toNat / 2 ^ (ptrSpace p).width = p.toNat / 2 ^ (ptrSpace p).width) : ptrSpace q = ptrSpace p ∧ ptrOk q = ptrOk p := by
  have hw : (ptrSpace p).width ≤ 48 := by cases ptrSpace p <;> decide
  have hspace : ptrSpace q = ptrSpace p := by rw [ptrSpace, extract_high h (by omega), ← ptrSpace]
  refine ⟨hspace, ?_⟩
  rw [ptrOk, ptrOk, hspace]
  cases hp : ptrSpace p with
  | control => rw [hp] at h; rw [extract_high h (by decide)]
  | loc => rw [hp] at h; rw [extract_high (i := 40) (n := 22) h (by decide), extract_high (i := 32) (n := 8) h (by decide)]
  | _ => rfl

theorem ptrAdd_zero {p : Long} (h : ptrOk p = true) : ptrAdd p 0 = p := by
  have hlt : ptrOff p < 2 ^ (ptrSpace p).width := Nat.mod_lt _ (Nat.two_pow_pos _)
  have hle : ptrOff p ≤ p.toNat := Nat.mod_le _ _
  unfold ptrAdd
  dsimp only
  rw [if_pos (by simp only [h, Bool.true_and, Bool.and_eq_true, decide_eq_true_eq]; omega), Int.add_zero, Int.toNat_natCast, Nat.sub_add_cancel hle,
    BitVec.ofNat_toNat, BitVec.setWidth_eq]

/-- What an addition gives, adding nothing leaves. -/
theorem ptrAdd_ptrAdd_zero (p : Long) (d : Int) : ptrAdd (ptrAdd p d) 0 = ptrAdd p d := by
  by_cases h : (ptrOk p && decide (0 ≤ (ptrOff p : Int) + d) && decide ((ptrOff p : Int) + d < (2 ^ (ptrSpace p).width : Nat))) = true
  · have heq : ptrAdd p d = BitVec.ofNat 64 (p.toNat - ptrOff p + ((ptrOff p : Int) + d).toNat) := by
      unfold ptrAdd
      exact if_pos h
    simp only [Bool.and_eq_true, decide_eq_true_eq] at h
    obtain ⟨⟨hok, h0⟩, hlt⟩ := h
    refine ptrAdd_zero ?_
    rw [heq]
    refine (ptr_high (p := p) ?_).2.trans hok
    generalize hm : ((ptrOff p : Int) + d).toNat = m
    have hm' : m < 2 ^ (ptrSpace p).width := by omega
    have hw : (ptrSpace p).width ≤ 48 := by cases ptrSpace p <;> decide
    have hpow : 2 ^ (ptrSpace p).width ∣ 2 ^ 64 := pow_dvd_pow 2 (by omega)
    have hsub : p.toNat - ptrOff p = 2 ^ (ptrSpace p).width * (p.toNat / 2 ^ (ptrSpace p).width) := by
      have := Nat.div_add_mod p.toNat (2 ^ (ptrSpace p).width)
      rw [ptrOff]
      omega
    have hbound : 2 ^ (ptrSpace p).width * (p.toNat / 2 ^ (ptrSpace p).width) + m < 2 ^ 64 := by
      obtain ⟨c, hc⟩ := hpow
      have hp := p.isLt
      rw [hc] at hp ⊢
      have hdiv : p.toNat / 2 ^ (ptrSpace p).width < c := Nat.div_lt_of_lt_mul hp
      calc 2 ^ (ptrSpace p).width * (p.toNat / 2 ^ (ptrSpace p).width) + m
          < 2 ^ (ptrSpace p).width * (p.toNat / 2 ^ (ptrSpace p).width) + 2 ^ (ptrSpace p).width := by omega
        _ = 2 ^ (ptrSpace p).width * (p.toNat / 2 ^ (ptrSpace p).width + 1) := by rw [Nat.mul_add, Nat.mul_one]
        _ ≤ 2 ^ (ptrSpace p).width * c := Nat.mul_le_mul_left _ hdiv
    rw [hsub, BitVec.toNat_ofNat, Nat.mod_eq_of_lt hbound, Nat.mul_add_div (Nat.two_pow_pos _), Nat.div_eq_of_lt hm', Nat.add_zero]
  · have heq : ptrAdd p d = invalidPtr := by
      unfold ptrAdd
      exact if_neg h
    rw [heq]
    decide

theorem granules_one {a n : Nat} (h0 : 0 < n) (h : a % 32 + n ≤ 32) : granules a n = [(0, n)] := by
  have h1 : (a % 32 + n + 31) / 32 = 1 := by omega
  have h2 : min n (32 - a % 32) = n := by omega
  simp [granules, h1, h2]

/-- What lies in one granule is one piece. -/
theorem writePieces_one {p : Long} {bs : List Byte} (h0 : 0 < bs.length) (h : ptrOff p % 32 + bs.length ≤ 32) (hp : ptrAdd p 0 = p) :
    writePieces [(p, bs)] = [(p, bs)] := by
  simp [writePieces, granules_one h0 h, hp]

/-! ### A piece is written -/

/-- A unit that begins: its flight is new, and the state is as before but for the commands and the tags. -/
theorem beginFlight_begins {k u adv n : Nat} {c : Cmd} {s : State} (hc : sget k s.cmds = some c) (hu : c.flight? u = none)
    (hheld : numbersFree s c.ctx (if c.bar.isSome && u != recUnit then 2 * n else n) = true) :
    ∃ t f, beginFlight k u adv n s = (t, some f) ∧ Begun s t ∧ sget k t.cmds = some { c with flights := c.flights ++ [f] } ∧
      f = { u := u, adv := adv, tag := f.tag, n := n, held := f.held, next := 0, left := [], bad := false, landed := 0 } := by
  unfold beginFlight
  rw [hc]
  dsimp only
  rw [hu]
  dsimp only
  rw [hheld]
  obtain ⟨hbegun, hcmds⟩ := begun_takeTags c.ctx (if c.bar.isSome && u != recUnit then 2 * n else n) s
  exact ⟨_, _, rfl, begun_cmds hbegun _, cmd_modCmd (by rw [hcmds, hc]), rfl⟩

/-- A piece whose bytes lie here and that is known under no tag stores its bytes. -/
theorem writePiece_here {k i dpa : Nat} {c : Cmd} {f : Flight} {p : Long} {bs : List Byte} {s : State} (hat : engAt c p bs.length true s = .here dpa)
    (hmirror : s.mirrorq = []) (htag : ∀ tag target, findTag s s.selfPkg tag target = none) (hfull : sliceFull s = false) (hr : resvHolds s dpa = false)
    (hreg : regionOf s dpa = none) : ∃ t, writePiece k c f i p bs s = (t, .ok .performed) ∧ t.mem = writeBytes s.mem dpa bs := by
  have hhome := homedHere_of_noRegion hreg
  have hmir : mirrorOf s dpa = none := by rw [mirrorOf, hreg]
  have hpend : ∀ tag target, mirrorPending s s.selfPkg tag target = false := fun _ _ => by rw [mirrorPending, hmirror]; rfl
  have hclaim : claimLine c.ctx dpa s = s := by rw [claimLine, if_pos hhome]
  unfold writePiece
  simp only [hat, htag, hpend, hfull, hr, hmir, hclaim, Option.isSome_none, Bool.or_self, Bool.and_false, Bool.false_eq_true, if_false]
  refine ⟨_, rfl, ?_⟩
  have hwrite := homeWrite_mem (w := c.writer) (keep := none) (tg := some (tagOf c.ctx f.tag i, [])) bs hhome
  rw [cellAt_of_noRegion hreg] at hwrite
  split
  · refine Eq.trans ?_ hwrite
    unfold noteWritten
    dsimp only
    split <;> rfl
  · exact hwrite

/-- A piece in the group's own memory that is known under no tag stores its bytes there. -/
theorem writePiece_local {k i r o : Nat} {c : Cmd} {f : Flight} {p : Long} {bs : List Byte} {s : State} (hat : engAt c p bs.length true s = .loc r o)
    (htag : findTag s s.selfPkg (tagOf c.ctx f.tag i) (localTarget c.group r o) = none) :
    writePiece k c f i p bs s = (keepTag s.selfPkg (tagOf c.ctx f.tag i) (localTarget c.group r o) [] (localWrite c.group r o bs s), .ok .performed) := by
  unfold writePiece
  simp only [hat, htag, Option.isSome_none, Bool.false_eq_true, if_false]

/-- A unit's next piece is written. -/
theorem putNext_writes {k u adv : Nat} {ws : List (Long × List Byte)} {c : Cmd} {p : Long} {bs : List Byte} {s t s2 : State} {f : Flight} {e : PieceEnd}
    (hbegin : beginFlight k u adv ws.length s = (t, some f)) (hc : sget k t.cmds = some c) (hget : ws[f.next]? = some (p, bs))
    (hw : writePiece k c f f.next p bs t = (s2, .ok e)) : putNext k u adv ws s = (pieceWent k u f.next bs.length e s2, .ok ()) := by
  unfold putNext
  rw [hbegin]
  dsimp only
  rw [hc, hget]
  dsimp only
  rw [hw]

end Sys2Proof.Laws
end

section
/-! SUPPORT. COPY moves the bytes of a piece in one turn of its engine, where they lie in this package's memory or in the group's own (R149 to R153). -/

open Sys2Proof Sys2Proof.Machine

namespace Sys2Proof.Laws

theorem copyUnit_writes {k i : Nat} {c : Cmd} {bs : List Byte} {s : State} (h : CopyReady k c i s)
    (hread : engRead k c (copyPiece c.block i).1 (copyPiece c.block i).2.2 false s = (s, .ok bs)) :
    unitOf k c s = (s, .ok (.writes i [((copyPiece c.block i).2.1, bs)] (copyPiece c.block i).2.2 [((copyPiece c.block i).1, (copyPiece c.block i).2.2)])) := by
  obtain ⟨-, hkind, -⟩ := h.cmd
  obtain ⟨hwindow, -⟩ := h.piece
  have hmore : ¬ c.total ≤ c.prog := fun hle => by
    rw [Cmd.window, hkind] at hwindow
    dsimp only at hwindow
    rw [copyPieces, if_pos hle] at hwindow
    cases hwindow
  simp only [unitOf, hkind, hmore, if_false, copyUnit, hwindow, choose, List.length_singleton, le_refl, if_true, List.head?_cons, Job.andThen, hread, Job.give]

/-- The one turn of an engine that writes a piece of a COPY: what is left after the piece is written keeps the bytes. -/
theorem engineWork_copies {k i : Nat} {c : Cmd} {bs : List Byte} {s : State} (h : CopyReady k c i s)
    (hread : engRead k c (copyPiece c.block i).1 (copyPiece c.block i).2.2 false s = (s, .ok bs)) (hlen : bs.length = (copyPiece c.block i).2.2)
    (h0 : 0 < bs.length) (hoff : ptrOff (copyPiece c.block i).2.1 % 32 = (copyPiece c.block i).2.1.toNat % 32) :
    ∃ t f, Begun s t ∧ ∀ s2, writePiece k { c with flights := c.flights ++ [f] } f 0 (copyPiece c.block i).2.1 bs t = (s2, .ok .performed) →
      KeepsBytes s2 (engineWork k s) := by
  obtain ⟨hc, hkind, hmay⟩ := h.cmd
  obtain ⟨h1, h2⟩ := h.numbers
  obtain ⟨t, f, hbegin, hbegun, hct, hf⟩ := beginFlight_begins (adv := (copyPiece c.block i).2.2) (n := 1) hc h.piece.2 (by split <;> assumption)
  refine ⟨t, f, hbegun, fun s2 hw => ?_⟩
  have hfit : ptrOff (copyPiece c.block i).2.1 % 32 + bs.length ≤ 32 := by
    rw [hoff, hlen]
    have hmin : (copyPiece c.block i).2.2 ≤ 32 - (copyPiece c.block i).2.1.toNat % 32 := (min_le_right ..).trans (min_le_right ..)
    omega
  have hnext : f.next = 0 := by rw [hf]
  have hput := putNext_writes (ws := [((copyPiece c.block i).2.1, bs)]) (p := (copyPiece c.block i).2.1) (bs := bs) hbegin hct (by rw [hnext]; rfl)
    (by rw [hnext]; exact hw)
  rw [hnext] at hput
  have htry : tryWork k c s = (dropFetched k [((copyPiece c.block i).1, (copyPiece c.block i).2.2)] (pieceWent k i 0 bs.length .performed s2), .ok ()) := by
    simp only [tryWork, hkind, reduceCtorEq, false_and, if_false, tryUnit, copyUnit_writes h hread, writePieces_one h0 hfit (ptrAdd_ptrAdd_zero _ _), hput]
  have hwork : engineWork k s = wake (tick 1 (tryWork k c s).1) := by
    unfold engineWork
    rw [hc]
    exact if_pos hmay
  rw [hwork, htry]
  have hsettled : KeepsBytes s2 (tick 1 (dropFetched k [((copyPiece c.block i).1, (copyPiece c.block i).2.2)] (pieceWent k i 0 bs.length .performed s2))) :=
    keepsBytes_trans (keepsBytes_trans (keepsBytes_pieceWent ..) (keepsBytes_dropFetched ..)) ⟨⟨fun _ => rfl, fun _ => rfl⟩, rfl, fun _ => rfl⟩
  exact keepsBytes_trans hsettled (keepsBytes_wake _)

/-- Where a piece goes is the same for the command with its new flight. -/
theorem engAt_begins {s t : State} {f : Flight} {c : Cmd} {p : Long} {n m : Nat} {a : EngAt} (h : Begun s t) (hat : engAt c p m true s = a) (hn : n = m) :
    engAt { c with flights := c.flights ++ [f] } p n true t = a := by
  subst hn
  exact (engAt_begun h c p n true).trans hat

theorem copy_toMemory {k i dpa : Nat} {c : Cmd} {bs : List Byte} {s : State} (h : CopyReady k c i s)
    (hread : engRead k c (copyPiece c.block i).1 (copyPiece c.block i).2.2 false s = (s, .ok bs)) (hlen : bs.length = (copyPiece c.block i).2.2)
    (h0 : 0 < (copyPiece c.block i).2.2) (hat : engAt c (copyPiece c.block i).2.1 (copyPiece c.block i).2.2 true s = .here dpa)
    (hreg : regionOf s dpa = none) (hr : resvHolds s dpa = false) (hoff : ptrOff (copyPiece c.block i).2.1 % 32 = (copyPiece c.block i).2.1.toNat % 32) :
    (engineWork k s).mem = writeBytes s.mem dpa bs := by
  obtain ⟨t, f, hbegun, hkeeps⟩ := engineWork_copies h hread hlen (by omega) hoff
  have hat' := engAt_begins (f := f) hbegun hat hlen
  obtain ⟨htags, hmirror, hfull⟩ := h.tags
  obtain ⟨cs, ds, rfl, -⟩ := hbegun
  obtain ⟨s2, hw, hmem2⟩ := writePiece_here (k := k) (i := 0) (f := f) hat' hmirror htags hfull hr hreg
  rw [(hkeeps s2 hw).mem, hmem2]

theorem copy_toScratch {k i : Nat} {c : Cmd} {bs : List Byte} {x : Group} {s : State} (h : CopyReady k c i s)
    (hread : engRead k c (copyPiece c.block i).1 (copyPiece c.block i).2.2 false s = (s, .ok bs)) (hlen : bs.length = (copyPiece c.block i).2.2)
    (h0 : 0 < (copyPiece c.block i).2.2) (hat : engAt c (copyPiece c.block i).2.1 (copyPiece c.block i).2.2 true s = .loc 0 (ptrOff (copyPiece c.block i).2.1))
    (hx : group? s c.group = some x) (hoff : ptrOff (copyPiece c.block i).2.1 % 32 = (copyPiece c.block i).2.1.toNat % 32) :
    (engineWork k s).mem = s.mem ∧
      (group? (engineWork k s) c.group).map (·.scratch) = some (writeBytes x.scratch (ptrOff (copyPiece c.block i).2.1) bs) := by
  obtain ⟨t, f, hbegun, hkeeps⟩ := engineWork_copies h hread hlen (by omega) hoff
  have hat' := engAt_begins (f := f) hbegun hat hlen
  obtain ⟨cs, ds, rfl, -⟩ := hbegun
  have hw := writePiece_local (k := k) (i := 0) (f := f) hat' (h.tags.1 _ _)
  have hk := hkeeps _ hw
  refine ⟨hk.mem, ?_⟩
  rw [hk.scratch]
  have hgroup : group? (localWrite c.group 0 (ptrOff (copyPiece c.block i).2.1) bs { s with ctxs := cs, cmds := ds }) c.group =
      some { x with scratch := writeBytes x.scratch (ptrOff (copyPiece c.block i).2.1) bs } := by
    rw [localWrite, group_modGroup, if_pos rfl, show group? { s with ctxs := cs, cmds := ds } c.group = some x from hx]
    rfl
  exact congrArg (Option.map (·.scratch)) hgroup

/-! ### A piece is read -/

theorem readPiece_here {k n dpa : Nat} {c : Cmd} {p : Long} {s : State} (hc : sget k s.cmds = some c) (hfetched : c.fetched = [])
    (hlost : homeLost s p = false) (hat : engAt c p n false s = .here dpa) (hreg : regionOf s dpa = none) (hcore : inCorePath s c dpa = false) :
    readPiece k c p n s = (s, .ok (readBytes s.mem dpa n)) := by
  have hhome := homedHere_of_noRegion hreg
  have hclaim : claimLine c.ctx dpa s = s := by rw [claimLine, if_pos hhome]
  have hbytes : homeRead s dpa n = readBytes s.mem dpa n := by rw [homeRead, if_pos hhome, cellAt_of_noRegion hreg]
  simp only [readPiece, hlost, hc, Option.getD_some, hfetched, List.find?_nil, hat, hcore, hclaim, hbytes, Bool.false_eq_true, if_false]

theorem readPiece_local {k n o : Nat} {c : Cmd} {p : Long} {x : Group} {s : State} (hc : sget k s.cmds = some c) (hfetched : c.fetched = [])
    (hlost : homeLost s p = false) (hat : engAt c p n false s = .loc 0 o) (hx : group? s c.group = some x) :
    readPiece k c p n s = (s, .ok (readBytes x.scratch o n)) := by
  simp only [readPiece, hlost, hc, Option.getD_some, hfetched, List.find?_nil, hat, hx, Option.map_some, Bool.false_eq_true, if_false]
  rfl

theorem copies_move : CopiesMove := by
  refine ⟨fun k c i bs dpa s h => ?_, fun k c i bs x s h => ?_, fun k c p n dpa s hc hf hl hat hreg hcore => readPiece_here hc hf hl hat hreg hcore,
    fun k c p n x o s hc hf hl hat hx => readPiece_local hc hf hl hat hx⟩
  · intro q hread hlen h0 hat hreg hr hoff
    exact copy_toMemory h hread hlen h0 hat hreg hr hoff
  · intro q hread hlen h0 hat hx hoff
    exact copy_toScratch h hread hlen h0 hat hx hoff

end Sys2Proof.Laws
end

section
/-! SUPPORT. Sums: a value narrowed to 32 bits has 32 bits (R47, R48), a granule's sums stand in its elements, and an add lands once at its home
(R155, R244, R250); a bag whose rows are here is summed (R159). -/

open Sys2Proof Sys2Proof.Machine

namespace Sys2Proof.Laws

/-! ### A narrowed value fits its format -/

theorem roundShift_le (mode : Rnd) (neg : Bool) (m k : Nat) : roundShift mode neg m k ≤ m / 2 ^ k + 1 := by
  unfold roundShift
  extract_lets q r
  split
  · omega
  · cases mode with
    | rz => exact Nat.le_succ _
    | ru => dsimp only; split <;> omega
    | rd => dsimp only; split <;> omega
    | rne =>
      dsimp only
      split
      · omega
      · split
        · omega
        · split <;> omega

/-- Rounding keeps one more bit than the fraction has, or carries into the next power of two. -/
theorem roundTo_le (f : Fmt) (mode : Rnd) (neg : Bool) (m : Nat) (e : Int) : (roundTo f mode neg m e).1 ≤ 2 ^ (f.frac + 1) := by
  unfold roundTo
  split
  · exact Nat.zero_le _
  · next hm =>
    extract_lets top q
    have hlog : m < 2 ^ (Nat.log2 m + 1) := Nat.lt_log2_self
    have hq : top - f.frac ≤ q := le_max_left _ _
    have htop : top = e + Nat.log2 m := rfl
    split
    · next hqe =>
      have hshift : Nat.log2 m + 1 + (e - q).toNat ≤ f.frac + 1 := by omega
      calc m * 2 ^ (e - q).toNat ≤ 2 ^ (Nat.log2 m + 1) * 2 ^ (e - q).toNat := Nat.mul_le_mul_right _ hlog.le
        _ = 2 ^ (Nat.log2 m + 1 + (e - q).toNat) := (pow_add ..).symm
        _ ≤ 2 ^ (f.frac + 1) := Nat.pow_le_pow_right (by decide) hshift
    · next hqe =>
      have hshift : Nat.log2 m + 1 ≤ f.frac + 1 + (q - e).toNat := by omega
      have hdiv : m / 2 ^ (q - e).toNat < 2 ^ (f.frac + 1) := by
        refine Nat.div_lt_of_lt_mul (hlog.trans_le ?_)
        rw [← pow_add]
        exact Nat.pow_le_pow_right (by decide) (by omega)
      exact (roundShift_le ..).trans hdiv

theorem encode_f32 {neg : Bool} {n x : Nat} {q : Int} (hn : n ≤ 2 ^ 24) (h : fmtF32.encode? neg n q = some x) : x < 2 ^ 32 := by
  unfold Fmt.encode? at h
  extract_lets sign n' q' e at h
  have hsign : sign ≤ 2 ^ 31 := by unfold sign; split <;> decide
  have hn' : n' < 2 ^ 24 := by
    unfold n'
    rw [show fmtF32.frac = 23 from rfl]
    split <;> omega
  have hfrac : fmtF32.frac = 23 := rfl
  have hemax : (fmtF32.emax : Int) = 254 := rfl
  rw [hfrac] at h
  split at h
  · have := Option.some.inj h
    omega
  · split at h
    · next he =>
      have := Option.some.inj h
      rw [hemax] at he
      omega
    · cases h

/-- R48: what is narrowed to 32 bits has 32 bits. -/
theorem narrow_f32 (x : XNum) : narrow fmtF32 .rne false x < 2 ^ 32 := by
  cases x with
  | nan => decide
  | inf neg => cases neg <;> decide
  | fin neg m e =>
    unfold narrow narrowTo
    dsimp only
    cases h : fmtF32.encode? neg (roundTo fmtF32 .rne neg m e).1 (roundTo fmtF32 .rne neg m e).2 with
    | some x => exact encode_f32 (roundTo_le ..) h
    | none => cases neg <;> decide

/-! ### The elements of a granule -/

theorem field_flatMap {w j : Nat} (g : Nat → Nat) {l : List Nat} (hj : j < l.length) :
    field (l.flatMap fun i => leBytes (g i) w) (w * j) w = g l[j] % 256 ^ w := by
  induction l generalizing j with
  | nil => cases hj
  | cons a l ih =>
    have hlen := length_leBytes (g a) w
    rw [List.flatMap_cons, field]
    cases j with
    | zero => rw [Nat.mul_zero, List.drop_zero, List.take_left' hlen, leNat_leBytes]; rfl
    | succ j =>
      rw [show w * (j + 1) = (leBytes (g a) w).length + w * j by rw [hlen, Nat.mul_succ, Nat.add_comm], ← List.drop_drop, List.drop_left, ← field,
        ih (Nat.lt_of_succ_lt_succ hj)]
      rfl

theorem addGranule_field {old add : List Byte} {j : Nat} (h : 4 * j + 4 ≤ old.length) :
    field (addGranule false old add) (4 * j) 4 = addF32 (field old (4 * j) 4) (field add (4 * j) 4) := by
  have hj : j < (List.range (old.length / 4)).length := by rw [List.length_range]; omega
  rw [addGranule, if_neg Bool.false_ne_true, field_flatMap _ hj, List.getElem_range]
  exact Nat.mod_eq_of_lt (narrow_f32 _)

/-! ### An add at its home -/

theorem reduceHere_adds {c : Cmd} {p : Long} {len dpa : Nat} {tag : BitVec 32} {data : List Byte} {s : State}
    (htag : findTag s s.selfPkg tag (granuleOf dpa) = none) (hreg : regionOf s dpa = none) :
    (reduceHere c p len dpa tag data s).mem = writeBytes s.mem dpa (addGranule (Gs.ttype c.block == 11) (readBytes s.mem dpa len) data) := by
  have hhome := homedHere_of_noRegion hreg
  have hread : homeRead s dpa len = readBytes s.mem dpa len := by rw [homeRead, if_pos hhome, cellAt_of_noRegion hreg]
  have hwrite := homeWrite_mem (w := c.writer) (keep := none) (tg := some (tag, [])) (addGranule (Gs.ttype c.block == 11) (readBytes s.mem dpa len) data) hhome
  rw [cellAt_of_noRegion hreg] at hwrite
  unfold reduceHere
  simp only [htag, hread, Option.isSome_none, Bool.false_eq_true, if_false]
  refine Eq.trans ?_ hwrite
  unfold noteWritten
  dsimp only
  split <;> rfl

theorem reduceHere_known {c : Cmd} {p : Long} {len dpa : Nat} {tag : BitVec 32} {data : List Byte} {s : State}
    (htag : (findTag s s.selfPkg tag (granuleOf dpa)).isSome = true) : reduceHere c p len dpa tag data s = s := if_pos htag

theorem reducerAdd_adds {k : Nat} {c : Cmd} {s : State} (hc : sget k s.cmds = some c) (hkind : c.kind = .scadd) (hagreed : c.agreed = true)
    (hmay : mayWork s c = true) : exec (.reducerAdd k) s = .next (keep s (wake (ackHere k c.addHere (tick 1 (tryAdd k c s).1)))) := by
  rw [exec_reducerAdd, execReducerAdd, hc]
  dsimp only
  rw [if_pos ⟨hkind, hagreed, hmay⟩]
  rfl

/-- A piece of an add whose home is here is added there. -/
theorem addPiece_here {k i dpa : Nat} {c : Cmd} {f : Flight} {a : Long × Nat × List Byte} {s : State} (hat : addAt c a.1 a.2.1 s = .here dpa)
    (hfull : sliceFull s = false) (hr : resvHolds s dpa = false) :
    addPiece k c f i a s = (modFlight k f.u (fun f => { f with here := f.here ++ [(i, a.2.1)] }) (reduceHere c a.1 a.2.1 dpa (tagOf c.ctx f.tag i) a.2.2 s), .ok .sent) := by
  simp only [addPiece, hat, hfull, hr, Bool.or_self, Bool.and_false, Bool.false_eq_true, if_false]

theorem adds_land : AddsLand := by
  refine ⟨fun old add j h => addGranule_field h, fun c p len dpa tag data s ht hreg => reduceHere_adds ht hreg,
    fun c p len dpa tag data s ht => reduceHere_known ht, ?_⟩
  intro k c u x r bs p len data f dpa s hc hkind hagreed hmay hhere hwindow hx hr hread hflight hpiece hat htag hfull hresv hreg
  have hbegin : ∀ n, beginFlight k u 1 n s = (s, some f) := fun n => by
    unfold beginFlight
    rw [hc]
    dsimp only
    rw [hflight]
  have hpiece' : addPiece k c f f.next (p, len, data) s = (_, .ok .sent) := addPiece_here (a := (p, len, data)) hat hfull hresv
  have htry : (tryAdd k c s).1 = pieceWent k u f.next len .sent
      (modFlight k f.u (fun f' => { f' with here := f'.here ++ [(f.next, len)] }) (reduceHere c p len dpa (tagOf c.ctx f.tag f.next) data s)) := by
    unfold tryAdd
    simp only [hwindow, choose, List.length_singleton, le_refl, if_true, List.head?_cons, hx, hr, Job.andThen, hread, Job.give, hbegin, hpiece, hpiece']
  refine ⟨_, reducerAdd_adds hc hkind hagreed hmay, ?_⟩
  rw [hhere, htry, ← reduceHere_adds htag hreg]
  exact (wake_tables _).2.2

/-! ### A bag -/

theorem gather_writes {k : Nat} {c : Cmd} {rows : List (Nat × List Nat)} {v : List Nat} {s s1 : State} (hkind : c.kind = .gather)
    (hagreed : c.agreed = true) (hmore : c.prog < c.total) (hwindow : c.window ≠ []) (hhave : missingPieces c [c.prog] = [])
    (hrows : readRows k c (((bagOf c c.prog).map fun i => c.indices.getD i 0).filterMap (finalIndex c.block)) [] s = (s1, .ok rows))
    (hrow : bagRow (rowChannel s1 c) c.block ((bagOf c c.prog).map fun i => c.indices.getD i 0) rows = some v) :
    unitOf k c s = (s1, .ok (.writes c.prog [(ptrAdd (Gs.data c.block) ((c.prog * Gs.dstride c.block : Nat) : Int), narrowRow (Gs.dtype c.block) v)] 1 [])) := by
  have hmore' : ¬ c.total ≤ c.prog := by omega
  have hwindow' : c.window.isEmpty = false := by simpa using hwindow
  have hunit : unitOf k c = gatherUnit k c := by
    simp only [unitOf, hkind, hmore', decide_false, Bool.and_false, Bool.false_eq_true, if_false]
  rw [hunit, gatherUnit, if_neg (by simp [hagreed]), if_neg (by simp [hwindow'])]
  refine (congrFun (if_pos (by rw [hhave]; rfl)) s).trans ?_
  simp only [Job.andThen, hrows, hrow]

theorem gathers_sum : GathersSum := by
  refine ⟨fun chan b rows val x l h hmode hall => gather_sums hmode hall, fun k c rows v s s1 hkind ha hm hw hh => ?_⟩
  intro idx hrows hrow
  exact gather_writes hkind ha hm hw hh hrows hrow

end Sys2Proof.Laws
end

section
/-! SUPPORT. What a completed command's record and end change (R145, R147, R153): the record is written in pieces, and the end moves one timeline. -/

open Sys2Proof Sys2Proof.Machine

namespace Sys2Proof.Laws

/-! ### Work beside the commands and timelines -/

theorem beside_aside {s t : State} (h : Aside s t) : Beside s t := by
  refine ⟨fun k => by rw [h.cmds], fun cid => ?_⟩
  have hv := congrArg (Option.map (fun c : Ctx => c.tls)) (ctx_of_view h.ctxs cid)
  rw [Option.map_map, Option.map_map] at hv
  exact hv

theorem beside_askEng (c : Cmd) (dpa : Nat) (w : Bool) (s : State) : Beside s (askEng c dpa w s) := by
  unfold askEng
  refine beside_aside (aside_trans ?_ (aside_askLine ..))
  split
  · exact aside_giveLine ..
  · exact aside_refl s

theorem beside_noteWritten (part buf off : Nat) (s : State) : Beside s (noteWritten part buf off s) := by
  unfold noteWritten
  dsimp only
  split <;> exact ⟨fun _ => rfl, fun _ => rfl⟩

theorem beside_claimLine (cid dpa : Nat) (s : State) : Beside s (claimLine cid dpa s) := by
  unfold claimLine
  split <;> exact ⟨fun _ => rfl, fun _ => rfl⟩

theorem beside_writePiece (k : Nat) (c : Cmd) (f : Flight) (i : Nat) (p : Long) (bs : List Byte) (s : State) :
    Beside s (writePiece k c f i p bs s).1 := by
  unfold writePiece
  dsimp only
  split
  · exact beside_askEng ..
  · exact beside_refl s
  · exact beside_refl s
  · split <;> exact ⟨fun _ => rfl, fun _ => rfl⟩
  · split <;> exact ⟨fun _ => rfl, fun _ => rfl⟩
  · next dpa _ =>
    split
    · exact ⟨fun _ => rfl, fun _ => rfl⟩
    · split
      · exact beside_refl s
      · split
        · exact beside_refl s
        · have h1 : Beside s (keepTag s.selfPkg (tagOf c.ctx f.tag i) (granuleOf dpa) []
              (homeWrite c.writer none (some (tagOf c.ctx f.tag i, [])) dpa bs (claimLine c.ctx dpa s))) :=
            beside_trans (beside_trans (beside_claimLine ..) (beside_aside (aside_homeWrite _ none ..))) ⟨fun _ => rfl, fun _ => rfl⟩
          have h2 := beside_trans h1 (beside_noteWritten c.part (ptrBuf p) (ptrOff p) _)
          split
          · split
            · exact beside_trans h2 ⟨fun _ => rfl, fun _ => rfl⟩
            · exact beside_trans h1 ⟨fun _ => rfl, fun _ => rfl⟩
          · split
            · exact h2
            · exact h1

theorem beside_beginFlight (k u adv n : Nat) (s : State) : Beside s (beginFlight k u adv n s).1 := by
  unfold beginFlight
  split
  · exact beside_refl s
  · split
    · exact beside_refl s
    · extract_lets held
      split
      · exact beside_refl s
      · exact beside_trans (keepsBytes_takeTags ..).beside (keepsBytes_modCmd ..).beside

theorem beside_putNext (k u adv : Nat) (ws : List (Long × List Byte)) (s : State) : Beside s (putNext k u adv ws s).1 := by
  have hbegin := beside_beginFlight k u adv ws.length s
  unfold putNext
  split
  · next h => rw [h] at hbegin; exact hbegin
  · next s1 f h =>
    rw [h] at hbegin
    refine beside_trans hbegin ?_
    dsimp only
    split
    · next c w _ _ =>
      have hw := beside_writePiece k c f f.next w.1 w.2 s1
      generalize writePiece k c f f.next w.1 w.2 s1 = r at hw ⊢
      obtain ⟨s2, e⟩ := r
      cases e with
      | ok e => exact beside_trans hw (keepsBytes_pieceWent ..).beside
      | _ => exact hw
    · exact (keepsBytes_settleFlights ..).beside

theorem beside_andThen {α β : Type} {j : Job α} {f : α → Job β} (hj : ∀ s, Beside s (j s).1) (hf : ∀ a s, Beside s (f a s).1) (s : State) :
    Beside s (j.andThen f s).1 := by
  have h := hj s
  unfold Job.andThen
  generalize j s = r at h ⊢
  obtain ⟨s1, e⟩ := r
  cases e with
  | ok a => exact beside_trans h (hf a s1)
  | _ => exact h

theorem beside_putAll (k u : Nat) (ws : List (Long × List Byte)) (n : Nat) (s : State) : Beside s (putAll k u ws n s).1 := by
  induction n generalizing s with
  | zero => exact beside_refl s
  | succ n ih => exact beside_andThen (beside_putNext k u 0 ws) (fun _ => ih) s

theorem beside_checkPieces (c : Cmd) (ws : List (Long × List Byte)) (s : State) : Beside s (checkPieces c ws s).1 := by
  induction ws with
  | nil => exact beside_refl s
  | cons w ws ih =>
    unfold checkPieces
    split
    · exact beside_askEng ..
    · exact beside_refl s
    · exact beside_refl s
    · exact ih

/-- Writing the record ends no command and moves no timeline. -/
theorem beside_tryRecord (k : Nat) (c : Cmd) (s : State) : Beside s (tryRecord k c s).1 := by
  unfold tryRecord
  split
  · exact beside_refl s
  · extract_lets ws
    have hcheck := beside_checkPieces c ws s
    generalize checkPieces c ws s = r at hcheck ⊢
    obtain ⟨s1, e⟩ := r
    cases e with
    | ok a =>
      dsimp only
      split
      · exact hcheck
      · have hput := beside_putAll k recUnit ws ws.length s1
        generalize putAll k recUnit ws ws.length s1 = r at hput ⊢
        obtain ⟨s2, e⟩ := r
        cases e with
        | ok a =>
          dsimp only
          split <;> exact beside_trans hcheck hput
        | _ => exact beside_trans hcheck hput
    | _ => exact hcheck

theorem timeline_beside {s t : State} (h : Beside s t) (cid i : Nat) : timeline t cid i = timeline s cid i := by
  have hview : ∀ u : State, timeline u cid i = (((ctx? u cid).map (·.tls)).map fun l => l.getD i Timeline.zero).getD Timeline.zero := fun u => by
    rw [timeline, Option.map_map]
    rfl
  rw [hview, hview, h.tls]

theorem commandComplete_waits {k : Nat} {c : Cmd} {s s1 : State} (hc : sget k s.cmds = some c) (hd : workDone c = true)
    (ha : groupActs s c.group = true) (hr : tryRecord k c s = (s1, .wait)) : exec (.commandComplete k) s = .next (keepPlat s s1) := by
  rw [exec_commandComplete, execCommandComplete, hc]
  simp only [hd, ha, Bool.and_self, if_true, hr]
  rfl

theorem commandComplete_ends {k : Nat} {c : Cmd} {s s1 : State} {b : Unit} (hc : sget k s.cmds = some c) (hd : workDone c = true)
    (ha : groupActs s c.group = true) (hr : tryRecord k c s = (s1, .ok b)) : exec (.commandComplete k) s = .next (keepPlat s (endCmd k c s1)) := by
  rw [exec_commandComplete, execCommandComplete, hc]
  simp only [hd, ha, Bool.and_self, if_true, hr]
  rfl

/-! ### What a command's end changes -/

/-- No command comes or goes, and the timelines but that of launches stay. -/
structure EndsBeside (s t : State) : Prop where
  keys : ∀ k, (sget k t.cmds).isSome = (sget k s.cmds).isSome
  tls : ∀ cid i, i ≠ 5 → timeline t cid i = timeline s cid i

theorem endsBeside_of {s t : State} (h : Beside s t) : EndsBeside s t := ⟨h.keys, fun cid i _ => timeline_beside h cid i⟩

theorem endsBeside_refl (s : State) : EndsBeside s s := endsBeside_of (beside_refl s)

theorem endsBeside_trans {a b c : State} (h : EndsBeside a b) (h' : EndsBeside b c) : EndsBeside a c :=
  ⟨fun k => (h'.keys k).trans (h.keys k), fun cid i hi => (h'.tls cid i hi).trans (h.tls cid i hi)⟩

theorem endsBeside_aside {s t : State} (h : Aside s t) : EndsBeside s t := endsBeside_of (beside_aside h)

theorem getD_modAt_other {l : List Timeline} {i j : Nat} (h : j ≠ i) (f : Timeline → Timeline) (d : Timeline) : (modAt l i f).getD j d = l.getD j d := by
  unfold modAt
  split
  · rw [List.getD_eq_getElem?_getD, List.getD_eq_getElem?_getD, List.getElem?_set_ne (Ne.symm h)]
  · rfl

theorem getD_modAt_same {l : List Timeline} {i : Nat} (h : i < l.length) (f : Timeline → Timeline) (d : Timeline) :
    (modAt l i f).getD i d = f (l.getD i d) := by
  rw [modAt, List.getElem?_eq_getElem h]
  dsimp only
  rw [List.getD_eq_getElem?_getD, List.getD_eq_getElem?_getD, List.getElem?_set_self h, List.getElem?_eq_getElem h]
  rfl

theorem timeline_advance_other {cid i n j : Nat} (h : j ≠ i) (err : Bool) (s : State) (cid' : Nat) :
    timeline (advance cid i n err s) cid' j = timeline s cid' j := by
  unfold timeline advance
  rw [ctx?, modCtx, sget_smod]
  split
  · rw [Option.map_map]
    exact congrArg (fun o => Option.getD o Timeline.zero) (congrFun (congrArg Option.map (funext fun c => getD_modAt_other h _ _)) _)
  · rfl

theorem timeline_advance_same {cid i n : Nat} {c : Ctx} {s : State} (hc : ctx? s cid = some c) (hi : i < c.tls.length) (err : Bool) :
    timeline (advance cid i n err s) cid i = (timeline s cid i).complete n err := by
  unfold timeline advance
  rw [ctx_modCtx, hc]
  exact getD_modAt_same hi _ _

theorem endsBeside_advance (cid n : Nat) (err : Bool) (s : State) : EndsBeside s (advance cid 5 n err s) :=
  ⟨fun _ => rfl, fun cid' _ hi => timeline_advance_other hi err s cid'⟩

theorem endsBeside_modLaunch (l : Nat) (f : Launch → Launch) (s : State) : EndsBeside s (modLaunch l f s) := ⟨fun _ => rfl, fun _ _ _ => rfl⟩

theorem endsBeside_completeLaunch (l : Nat) (x : Launch) (s : State) : EndsBeside s (completeLaunch l x s) := by
  unfold completeLaunch
  extract_lets err s1 s2
  have h1 : EndsBeside s s1 := endsBeside_advance ..
  refine endsBeside_trans (b := s2) ?_ ⟨fun _ => rfl, fun _ _ _ => rfl⟩
  unfold s2
  split
  · exact endsBeside_trans h1 (endsBeside_aside (aside_postCtx ..))
  · exact h1

theorem endsBeside_signalStore (l : Nat) (x : Launch) (s : State) : EndsBeside s (signalStore l x s) := by
  unfold signalStore
  split
  · exact endsBeside_aside (aside_askLine ..)
  · exact endsBeside_trans (endsBeside_aside (aside_postCtx ..)) (endsBeside_modLaunch ..)
  · extract_lets s1 p s2
    have h1 : EndsBeside s s1 := endsBeside_aside (aside_fold _ (fun _ _ => aside_writeBackLine ..) _ s)
    have h2 : EndsBeside s s2 := by
      unfold s2
      split
      · exact endsBeside_trans h1 (endsBeside_of (beside_noteWritten ..))
      · exact h1
    exact endsBeside_trans (endsBeside_trans h2 (endsBeside_aside (aside_homeWrite ..))) (endsBeside_modLaunch ..)

theorem endsBeside_settleLaunch (l : Nat) (s : State) : EndsBeside s (settleLaunch l s) := by
  unfold settleLaunch
  split
  · exact endsBeside_refl s
  · next x _ =>
    split
    · exact endsBeside_refl s
    · extract_lets s1 signals s2
      have h2 : EndsBeside s s2 := by
        unfold s2
        split
        · exact endsBeside_trans (endsBeside_modLaunch ..) (endsBeside_signalStore ..)
        · exact endsBeside_modLaunch ..
      split
      · exact h2
      · split
        · exact h2
        · exact endsBeside_trans h2 (endsBeside_completeLaunch ..)

theorem endsBeside_freeGroup (g : Nat) (s : State) : EndsBeside s (freeGroup g s) := by
  unfold freeGroup
  split
  · split
    · extract_lets s1
      refine endsBeside_trans ?_ (endsBeside_settleLaunch ..)
      split <;> exact ⟨fun _ => rfl, fun _ _ _ => rfl⟩
    · exact endsBeside_refl s
  · exact endsBeside_refl s

theorem endsBeside_settleGroup (g : Nat) (s : State) : EndsBeside s (settleGroup g s) := by
  unfold settleGroup
  split
  · split
    · exact endsBeside_freeGroup ..
    · split
      · refine endsBeside_trans ?_ (endsBeside_freeGroup ..)
        refine endsBeside_trans ?_ (endsBeside_settleLaunch ..)
        exact ⟨fun _ => rfl, fun _ _ _ => rfl⟩
      · exact endsBeside_refl s
  · exact endsBeside_refl s

/-- A numbered command's end takes it from the commands and completes its number in its timeline. -/
theorem endCmd_ends {k : Nat} {c : Cmd} {y : Ctx} {s : State} (hkind : c.kind ≠ .copyPl) (hnum : c.numbered = true)
    (hkeys : (s.cmds.map (·.1)).Pairwise (· < ·)) (hy : ctx? s c.ctx = some y) (hlen : cmdTl c.kind < y.tls.length) :
    sget k (endCmd k c s).cmds = none ∧
      timeline (endCmd k c s) c.ctx (cmdTl c.kind) = (timeline s c.ctx (cmdTl c.kind)).complete c.number (c.status != 0) := by
  have h5 : cmdTl c.kind ≠ 5 := by cases c.kind <;> decide
  unfold endCmd
  extract_lets err sf s0 s1 s2 s3
  have hfold := (keepsBytes_fold (fun s f => keepsBytes_dropFlight k f s) c.flights s).beside
  have htl0 : ∀ cid, (ctx? s0 cid).map (·.tls) = (ctx? s cid).map (·.tls) := hfold.tls
  have hs1 : s1 = s0 := by
    unfold s1
    rw [if_neg hkind]
  have hs2 : s2 = advance c.ctx (cmdTl c.kind) c.number err s0 := by
    unfold s2
    rw [if_pos hnum, hs1]
  obtain ⟨y0, hy0, hl0⟩ : ∃ y0, ctx? s0 c.ctx = some y0 ∧ y0.tls = y.tls := by
    have h := htl0 c.ctx
    rw [hy, Option.map_some] at h
    exact Option.map_eq_some_iff.1 h
  have htl : timeline s0 c.ctx (cmdTl c.kind) = timeline s c.ctx (cmdTl c.kind) := by
    rw [timeline, timeline, hy0, hy, Option.map_some, Option.map_some, hl0]
  have h3 : EndsBeside s2 s3 := by
    unfold s3
    split
    · exact endsBeside_aside (aside_postCtx ..)
    · exact endsBeside_refl s2
  have hend : EndsBeside s2 (settleGroup c.group (wake (launchDown c.launch c.status s3))) :=
    endsBeside_trans h3 (endsBeside_trans (endsBeside_trans (endsBeside_modLaunch ..) (endsBeside_settleLaunch ..))
      (endsBeside_trans (endsBeside_of (keepsBytes_wake _).beside) (endsBeside_settleGroup ..)))
  constructor
  · have hnone : sget k s2.cmds = none := by
      rw [hs2]
      exact sget_sdel_same k _ ((rising_iff_pairwise _).2 hkeys)
    have hkey := hend.keys k
    rw [hnone] at hkey
    exact Option.isNone_iff_eq_none.1 (by simpa using hkey)
  · rw [hend.tls _ _ h5, hs2, timeline_advance_same hy0 (by rw [hl0]; exact hlen), htl]

end Sys2Proof.Laws
end

section
/-! SUPPORT. A completion record of 64 bytes goes to the group's own memory in two pieces (R145, R153). -/

open Sys2Proof Sys2Proof.Machine

namespace Sys2Proof.Laws

/-! ### Pointers to the scratchpad -/

theorem localPtr_toNat {o : Nat} (h : o < 2 ^ 32) : (localPtr 0 o).toNat = 2 ^ 63 + o := by
  rw [localPtr, BitVec.toNat_ofNat]
  omega

theorem localPtr_space {o : Nat} (h : o < 2 ^ 32) : ptrSpace (localPtr 0 o) = .loc := by
  have hbits : ((localPtr 0 o).extractLsb' 62 2).toNat = 2 := by
    rw [BitVec.extractLsb'_toNat, localPtr_toNat h, Nat.shiftRight_eq_div_pow]
    omega
  rw [ptrSpace, hbits]
  rfl

theorem localPtr_off {o : Nat} (h : o < 2 ^ 32) : ptrOff (localPtr 0 o) = o := by
  rw [ptrOff, localPtr_space h, localPtr_toNat h, Space.width]
  omega

theorem localPtr_region {o : Nat} (h : o < 2 ^ 32) : ptrRegion (localPtr 0 o) = 0 := by
  rw [ptrRegion, BitVec.extractLsb'_toNat, localPtr_toNat h, Nat.shiftRight_eq_div_pow]
  omega

theorem localPtr_ok {o : Nat} (h : o < 2 ^ 32) : ptrOk (localPtr 0 o) = true := by
  have hhigh : (localPtr 0 o).extractLsb' 40 22 = 0 := by
    refine BitVec.eq_of_toNat_eq ?_
    rw [BitVec.extractLsb'_toNat, localPtr_toNat h, Nat.shiftRight_eq_div_pow]
    simp
    omega
  have hregion : ((localPtr 0 o).extractLsb' 32 8).toNat = 0 := localPtr_region h
  rw [ptrOk, localPtr_space h]
  dsimp only
  rw [hhigh, hregion]
  rfl

theorem ptrAdd_localPtr {o d : Nat} (h : o + d < 2 ^ 32) : ptrAdd (localPtr 0 o) (d : Int) = localPtr 0 (o + d) := by
  have ho : o < 2 ^ 32 := by omega
  unfold ptrAdd
  rw [localPtr_ok ho, localPtr_off ho, localPtr_space ho, localPtr_toNat ho, Space.width]
  dsimp only
  rw [if_pos (by simp only [Bool.true_and, Bool.and_eq_true, decide_eq_true_eq]; omega), localPtr]
  congr 1
  omega

theorem engAt_localPtr {o : Nat} (h : o < 2 ^ 32) (c : Cmd) (n : Nat) (w : Bool) (s : State) : engAt c (localPtr 0 o) n w s = .loc 0 o := by
  unfold engAt
  rw [localPtr_space h, localPtr_region h, localPtr_off h]

/-! ### The pieces of a record -/

theorem length_bytes (r : Record) : r.bytes.length = 64 := by
  simp [Record.bytes, length_leBytes, zeros]

theorem tagOf_next (cid : Nat) (base : BitVec 20) : tagOf cid base 0 ≠ tagOf cid base 1 := by
  intro h
  have hlow := congrArg (BitVec.setWidth 20) h
  simp only [tagOf, BitVec.setWidth_append] at hlow
  simp at hlow

/-- The two pieces of a record in the scratchpad. -/
theorem recordPieces {o : Nat} {bs : List Byte} (h64 : o % 64 = 0) (ho : o + 64 ≤ 2 ^ 32) (hlen : bs.length = 64) :
    writePieces [(localPtr 0 o, bs)] = [(localPtr 0 o, bs.take 32), (localPtr 0 (o + 32), bs.drop 32)] := by
  have h0 := ptrAdd_localPtr (o := o) (d := 0) (by omega)
  have h32 := ptrAdd_localPtr (o := o) (d := 32) (by omega)
  rw [Nat.add_zero] at h0
  have hdrop : (bs.drop 32).take 32 = bs.drop 32 := List.take_of_length_le (by rw [List.length_drop]; omega)
  simp only [writePieces, List.flatMap_cons, List.flatMap_nil, List.append_nil, localPtr_off (show o < 2 ^ 32 by omega), hlen, granules_record h64,
    List.map_cons, List.map_nil, h0, h32, List.drop_zero, hdrop]

theorem checkPieces_local {c : Cmd} {o o' : Nat} {b b' : List Byte} (h : o < 2 ^ 32) (h' : o' < 2 ^ 32) (s : State) :
    checkPieces c [(localPtr 0 o, b), (localPtr 0 o', b')] s = (s, .ok ()) := by
  simp only [checkPieces, engAt_localPtr h, engAt_localPtr h', Job.give]

/-! ### Turns of the record -/

theorem landPiece_record (k i n : Nat) (s : State) : landPiece k recUnit i n s = s := by
  unfold landPiece
  split
  · rfl
  · split
    · rfl
    · rw [if_pos rfl]

/-- The state once the next piece of a flight stands in the scratchpad, under its tag. -/
def pieceKept (c : Cmd) (f : Flight) (o : Nat) (bs : List Byte) (s : State) : State :=
  keepTag s.selfPkg (tagOf c.ctx f.tag f.next) (localTarget c.group 0 o) [] (localWrite c.group 0 o bs s)

theorem pieceKept_scratch (c : Cmd) (f : Flight) (o : Nat) (bs : List Byte) (s : State) :
    (group? (pieceKept c f o bs s) c.group).map (·.scratch) = ((group? s c.group).map (·.scratch)).map fun m => writeBytes m o bs := by
  have hgroup : group? (pieceKept c f o bs s) c.group = group? (localWrite c.group 0 o bs s) c.group := rfl
  rw [hgroup, localWrite, group_modGroup, if_pos rfl, Option.map_map, Option.map_map]
  rfl

/-- A turn of a unit whose next piece goes to the scratchpad. -/
theorem putNext_local {k u o : Nat} {ws : List (Long × List Byte)} {c : Cmd} {bs : List Byte} {s t : State} {f : Flight}
    (hbegin : beginFlight k u 0 ws.length s = (t, some f)) (hc : sget k t.cmds = some c) (hget : ws[f.next]? = some (localPtr 0 o, bs))
    (ho : o < 2 ^ 32) (htag : findTag t t.selfPkg (tagOf c.ctx f.tag f.next) (localTarget c.group 0 o) = none) :
    putNext k u 0 ws s = (pieceWent k u f.next bs.length .performed (pieceKept c f o bs t), .ok ()) :=
  putNext_writes hbegin hc hget (writePiece_local (engAt_localPtr ho c bs.length true t) htag)

theorem begun_bytes {s t : State} (h : Begun s t) : t.mem = s.mem ∧ (∀ g, group? t g = group? s g) ∧
    ∀ tag target, findTag t t.selfPkg tag target = findTag s s.selfPkg tag target := by
  obtain ⟨_, _, rfl, -⟩ := h
  exact ⟨rfl, fun _ => rfl, fun _ _ => rfl⟩

/-- A unit that is not done stays when a piece of it went. -/
theorem pieceWent_more {k n : Nat} {c : Cmd} {f : Flight} {s : State} (hc : sget k s.cmds = some c) (hf : c.flights = [f]) (hu : f.u = recUnit)
    (hn : f.next + 1 < f.n) :
    pieceWent k recUnit f.next n .performed s = modFlight k recUnit (fun y => { y with next := f.next + 1 }) s ∧
      sget k (modFlight k recUnit (fun y => { y with next := f.next + 1 }) s).cmds = some { c with flights := [{ f with next := f.next + 1 }] } := by
  have hcmd : sget k (modFlight k recUnit (fun y => { y with next := f.next + 1 }) s).cmds = some { c with flights := [{ f with next := f.next + 1 }] } := by
    rw [modFlight, cmd_modCmd hc, hf, List.map_singleton, if_pos hu]
  refine ⟨?_, hcmd⟩
  have hdone : Flight.isDone { f with next := f.next + 1 } = false := by simp [Flight.isDone, hn]
  unfold pieceWent
  dsimp only
  rw [landPiece_record, settleUnits, hcmd]
  simp only [Option.map_some, Option.getD_some, List.length_singleton, settleFlights, hcmd, List.find?_cons, hdone, Bool.false_and, List.find?_nil]

theorem cmds_releaseTag (tag : BitVec 32) (s : State) : (releaseTag tag s).cmds = s.cmds := by
  unfold releaseTag
  dsimp only
  split <;> rfl

theorem cmds_dropFlight {k : Nat} {c : Cmd} (f : Flight) {s : State} (hc : sget k s.cmds = some c) :
    sget k (dropFlight k f s).cmds = some { c with flights := c.flights.filter fun y => y.u != f.u } := by
  have hfold : ∀ (l : List Nat) (t : State), (l.foldl (fun s i => releaseTag (tagOf c.ctx f.tag i) s) t).cmds = t.cmds := fun l => by
    induction l with
    | nil => exact fun _ => rfl
    | cons a l ih => exact fun t => (ih _).trans (cmds_releaseTag ..)
  unfold dropFlight
  rw [hc]
  dsimp only
  rw [hfold, cmd_modCmd hc]

/-- A record's unit that is done settles: the record is written. -/
theorem settleUnits_record {k : Nat} {c : Cmd} {f : Flight} {s : State} (hc : sget k s.cmds = some c) (hf : c.flights = [f]) (hu : f.u = recUnit)
    (hadv : f.adv = 0) (hdone : f.isDone = true) : (sget k (settleUnits k s).cmds).map (·.recDone) = some true := by
  have hfind : c.flights.find? (fun f => f.isDone && (f.adv == 0 || f.u == c.prog)) = some f := by
    rw [hf, List.find?_cons_of_pos]
    rw [hdone, hadv]
    rfl
  rw [settleUnits, hc, Option.map_some, Option.getD_some, hf, List.length_singleton, settleFlights, hc]
  dsimp only
  rw [hfind]
  dsimp only [settleFlights]
  rw [cmd_modCmd (cmds_dropFlight f hc), if_pos hadv, Option.map_some, hu, Cmd.unitEnds, if_pos rfl]

/-- The record's last piece ends its unit: the record is written. -/
theorem pieceWent_record {k n : Nat} {c : Cmd} {f : Flight} {s : State} (hc : sget k s.cmds = some c) (hf : c.flights = [f]) (hu : f.u = recUnit)
    (hadv : f.adv = 0) (hn : f.n = f.next + 1) (hleft : f.left = []) (hbad : f.bad = false) :
    (sget k (pieceWent k recUnit f.next n .performed s).cmds).map (·.recDone) = some true := by
  have hcmd : sget k (modFlight k recUnit (fun y => { y with next := f.next + 1 }) s).cmds = some { c with flights := [{ f with next := f.next + 1 }] } := by
    rw [modFlight, cmd_modCmd hc, hf, List.map_singleton, if_pos hu]
  unfold pieceWent
  dsimp only
  rw [landPiece_record]
  exact settleUnits_record hcmd rfl hu hadv (by simp [Flight.isDone, hn, hleft, hbad])

theorem findTag_keepTag_other {tag tag' : BitVec 32} (h : tag ≠ tag') (pkg target : Nat) (result : List Byte) (s : State) (pkg' target' : Nat) :
    findTag (keepTag pkg tag target result s) pkg' tag' target' = findTag s pkg' tag' target' := by
  have hb : (tag == tag') = false := by simpa using h
  simp only [findTag, keepTag, List.find?_append, List.find?_cons, hb, Bool.and_false, Bool.false_and, List.find?_nil, Option.or_none]

/-- The first turn of a record in the scratchpad: its unit begins and the first piece is written. -/
theorem record_begins {k o : Nat} {c : Cmd} {b0 : List Byte} {w1 : Long × List Byte} {s : State} (hc : sget k s.cmds = some c) (ho : o < 2 ^ 32)
    (hflights : c.flights = []) (hfree : numbersFree s c.ctx 2 = true) (htags : ∀ tag target, findTag s s.selfPkg tag target = none) :
    ∃ t f, putNext k recUnit 0 [(localPtr 0 o, b0), w1] s = (t, .ok ()) ∧ sget k t.cmds = some { c with flights := [f] } ∧
      (f.u = recUnit ∧ f.adv = 0 ∧ f.n = 2 ∧ f.next = 1 ∧ f.left = [] ∧ f.bad = false) ∧ t.mem = s.mem ∧
      (group? t c.group).map (·.scratch) = ((group? s c.group).map (·.scratch)).map (fun m => writeBytes m o b0) ∧
      ∀ target, findTag t t.selfPkg (tagOf c.ctx f.tag 1) target = none := by
  obtain ⟨t, f, hbegin, hbegun, hct, hf⟩ := beginFlight_begins (u := recUnit) (adv := 0) (n := 2) hc (by rw [Cmd.flight?, hflights]; rfl) (by simpa using hfree)
  rw [hflights, List.nil_append] at hct
  obtain ⟨hu, hn, hnext⟩ : f.u = recUnit ∧ f.n = 2 ∧ f.next = 0 := by
    rw [hf]
    exact ⟨rfl, rfl, rfl⟩
  obtain ⟨hmem, hgroup, htag⟩ := begun_bytes hbegun
  have hput := putNext_local (ws := [(localPtr 0 o, b0), w1]) hbegin hct (by rw [hnext]; rfl) ho (by rw [htag, htags])
  obtain ⟨hwent, hcmd⟩ := pieceWent_more (n := b0.length) (s := pieceKept { c with flights := [f] } f o b0 t) hct rfl hu (by omega)
  rw [hwent] at hput
  refine ⟨_, { f with next := f.next + 1 }, hput, hcmd, ?_, hmem, ?_, fun target => ?_⟩
  · rw [hf]
    exact ⟨rfl, rfl, rfl, rfl, rfl, rfl⟩
  · exact (pieceKept_scratch { c with flights := [f] } f o b0 t).trans (by rw [hgroup])
  · have hother := findTag_keepTag_other (tag := tagOf c.ctx f.tag f.next) (tag' := tagOf c.ctx f.tag 1) (by rw [hnext]; exact tagOf_next _ _) t.selfPkg (localTarget c.group 0 o) []
      (localWrite c.group 0 o b0 t) t.selfPkg target
    exact hother.trans ((htag _ _).trans (htags _ _))

/-- The second turn writes the second piece and ends the unit. -/
theorem record_goesOn {k o : Nat} {c : Cmd} {w0 : Long × List Byte} {b1 : List Byte} {f : Flight} {s : State} (hc : sget k s.cmds = some { c with flights := [f] })
    (ho : o < 2 ^ 32) (hf : f.u = recUnit ∧ f.adv = 0 ∧ f.n = 2 ∧ f.next = 1 ∧ f.left = [] ∧ f.bad = false)
    (htag : ∀ target, findTag s s.selfPkg (tagOf c.ctx f.tag 1) target = none) :
    ∃ t, putNext k recUnit 0 [w0, (localPtr 0 o, b1)] s = (t, .ok ()) ∧ (sget k t.cmds).map (·.recDone) = some true ∧ t.mem = s.mem ∧
      (group? t c.group).map (·.scratch) = ((group? s c.group).map (·.scratch)).map (fun m => writeBytes m o b1) := by
  obtain ⟨hu, hadv, hn, hnext, hleft, hbad⟩ := hf
  have hbegin : beginFlight k recUnit 0 2 s = (s, some f) := by
    have hfind : Cmd.flight? { c with flights := [f] } recUnit = some f := by simp [Cmd.flight?, hu]
    unfold beginFlight
    rw [hc]
    dsimp only
    rw [hfind]
  have hput := putNext_local (ws := [w0, (localPtr 0 o, b1)]) hbegin hc (by rw [hnext]; rfl) ho (by rw [hnext, htag])
  have hkeeps := keepsBytes_pieceWent k recUnit f.next b1.length .performed (pieceKept { c with flights := [f] } f o b1 s)
  exact ⟨_, hput, pieceWent_record hc rfl hu hadv (by omega) hleft hbad, hkeeps.mem,
    (hkeeps.scratch c.group).trans (pieceKept_scratch { c with flights := [f] } f o b1 s)⟩

/-- R145: a record that goes to the scratchpad is written there, in two pieces, and nowhere else. -/
theorem tryRecord_local {k o : Nat} {c : Cmd} {x : Group} {s : State} (hc : sget k s.cmds = some c) (hrec : crecOf c = localPtr 0 o)
    (h64 : o % 64 = 0) (ho : o + 64 ≤ 2 ^ 32) (hx : group? s c.group = some x) (hnot : c.recDone = false) (hflights : c.flights = [])
    (hfree : numbersFree s c.ctx 2 = true) (htags : ∀ tag target, findTag s s.selfPkg tag target = none) :
    ∃ s1, tryRecord k c s = (s1, .ok ()) ∧ s1.mem = s.mem ∧
      (group? s1 c.group).map (·.scratch) = some (writeBytes x.scratch o (recordOf c).bytes) := by
  have hlen := length_bytes (recordOf c)
  have ho1 : o < 2 ^ 32 := by omega
  have ho2 : o + 32 < 2 ^ 32 := by omega
  have hpieces := recordPieces h64 ho hlen
  obtain ⟨t, f, hput0, hct, hf, hmem0, hscratch0, htag1⟩ := record_begins (b0 := (recordOf c).bytes.take 32) (w1 := (localPtr 0 (o + 32), (recordOf c).bytes.drop 32))
    hc ho1 hflights hfree htags
  obtain ⟨t', hput1, hdone, hmem1, hscratch1⟩ := record_goesOn (w0 := (localPtr 0 o, (recordOf c).bytes.take 32)) (b1 := (recordOf c).bytes.drop 32) hct ho2 hf htag1
  have hnull : localPtr 0 o ≠ 0 := fun h => by
    have hz := congrArg BitVec.toNat h
    rw [localPtr_toNat ho1] at hz
    simp at hz
  have hunsent : c.unsent recUnit = true := by simp [Cmd.unsent, Cmd.flight?, hflights]
  refine ⟨t', ?_, hmem1.trans hmem0, ?_⟩
  · unfold tryRecord
    simp only [hrec, hnull, hnot, Bool.false_eq_true, or_self, if_false, hpieces, checkPieces_local ho1 ho2, hunsent, Bool.not_true, List.length_cons,
      List.length_nil, putAll, Job.andThen, hput0, hput1, Job.give, hdone, if_true]
  · rw [hscratch1, hscratch0, hx]
    simp only [Option.map_some]
    conv_rhs => rw [← List.take_append_drop 32 (recordOf c).bytes, writeBytes_append]
    simp [hlen]

theorem commands_complete : CommandsComplete := by
  refine ⟨fun k c s s1 hc hd ha hr => ?_, fun k c s s1 hc hd ha hr hkind hnum hkeys hlen => ?_, fun k c x o s hc hrec h64 ho hx hnot hfl hfree htags =>
    tryRecord_local hc hrec h64 ho hx hnot hfl hfree htags⟩
  · have hb := beside_tryRecord k c s
    rw [hr] at hb
    exact ⟨_, commandComplete_waits hc hd ha hr, (hb.keys k).trans (by rw [hc]; rfl), fun i => timeline_beside hb c.ctx i⟩
  · have hb := beside_tryRecord k c s
    rw [hr] at hb
    obtain ⟨y, hy, hylen⟩ := (Option.any_eq_true _ _).1 hlen
    have htls := hb.tls c.ctx
    rw [hy, Option.map_some] at htls
    obtain ⟨y1, hy1, htls1⟩ := Option.map_eq_some_iff.1 htls
    obtain ⟨hgone, htl⟩ := endCmd_ends hkind hnum hkeys hy1 (by rw [htls1]; simpa using hylen)
    exact ⟨_, commandComplete_ends hc hd ha hr, hgone, by rw [← timeline_beside hb]; exact htl⟩

end Sys2Proof.Laws
end

section
/-! SUPPORT. A K-block adds to its slab: the elements of a slab, and the one step of the array that computes them (R167, R233). -/

open Sys2Proof Sys2Proof.Machine

namespace Sys2Proof.Laws

/-! ### The bytes of a slab -/

theorem sparseFrom_low {a : Nat} {l : List Byte} {e : Nat × Byte} (h : e ∈ sparseFrom a l) : a ≤ e.1 := by
  induction l generalizing a with
  | nil => cases h
  | cons b l ih =>
    rw [sparseFrom] at h
    split at h
    · exact (Nat.le_succ a).trans (ih h)
    · rcases List.mem_cons.1 h with rfl | h
      · exact le_rfl
      · exact (Nat.le_succ a).trans (ih h)

/-- Before its first entry a map reads zero. -/
theorem denseGo_before {a n : Nat} {m : Sparse Byte} (h : ∀ e ∈ m, a < e.1) : denseGo m a (n + 1) = 0 :: denseGo m (a + 1) n := by
  cases m with
  | nil => rfl
  | cons e m =>
    have hne : e.1 ≠ a := (h e List.mem_cons_self).ne'
    simp only [denseGo, if_neg hne]

theorem denseGo_sparseFrom (a : Nat) (l : List Byte) : denseGo (sparseFrom a l) a l.length = l := by
  induction l generalizing a with
  | nil => rfl
  | cons b l ih =>
    rw [sparseFrom, List.length_cons]
    split
    · next hb => rw [denseGo_before fun e he => sparseFrom_low he, ih, hb]
    · simp only [denseGo, if_true, ih]

theorem denseSlab_sparseFrom {l : List Byte} (h : l.length = 65536) : denseSlab (sparseFrom 0 l) = l := by
  rw [denseSlab, ← h, denseGo_sparseFrom]

/-- A field within one of blocks of one length. -/
theorem field_block {L i o w : Nat} {g : Nat → List Byte} {l : List Nat} (hg : ∀ a, (g a).length = L) (hi : i < l.length) (ho : o + w ≤ L) :
    field (l.flatMap g) (i * L + o) w = field (g l[i]) o w := by
  induction l generalizing i with
  | nil => cases hi
  | cons a l ih =>
    have hlen := hg a
    rw [List.flatMap_cons]
    cases i with
    | zero =>
      rw [Nat.zero_mul, Nat.zero_add, field, field, List.drop_append_of_le_length (by omega), List.take_append_of_le_length (by rw [List.length_drop]; omega)]
      rfl
    | succ i =>
      have hoff : (i + 1) * L + o = (g a).length + (i * L + o) := by rw [hlen, Nat.succ_mul]; omega
      rw [field, hoff, ← List.drop_drop, List.drop_left, ← field, ih (Nat.lt_of_succ_lt_succ hi)]
      rfl

theorem length_blocks {L : Nat} {g : Nat → List Byte} (hg : ∀ a, (g a).length = L) (l : List Nat) : (l.flatMap g).length = l.length * L := by
  induction l with
  | nil => simp
  | cons a l ih => rw [List.flatMap_cons, List.length_append, hg, ih, List.length_cons, Nat.succ_mul, Nat.add_comm]

theorem field_row {old : List Byte} {a o w L : Nat} (h : o + w ≤ L) : field ((old.drop a).take L) o w = field old (a + o) w := by
  rw [field, field, List.drop_take, List.take_take, List.drop_drop, Nat.min_eq_left (by omega)]

/-! ### The elements of a K-block -/

theorem kblock_width (f : Nat) : let w := if fmtTy f = .f64 then 8 else 4; w * (512 / w) = 512 ∧ 0 < w := by
  dsimp only
  split <;> decide

/-- R233: every element of the slab is the one before it with the K-block's products added. -/
theorem kblockSlab_field {f i j w : Nat} {sat fresh : Bool} {old : List Byte} {as bs : List (List XNum)} (hw : w = if fmtTy f = .f64 then 8 else 4)
    (hi : i < 128) (hj : j < 512 / w) :
    field (kblockSlab f sat fresh old as bs 0 0) (i * 512 + j * w) w =
      kblockElem f sat (if fresh = true then 0 else field old (i * 512 + j * w) w) (as.getD i []) (bs.getD j []) % 256 ^ w := by
  have hwidth := kblock_width f
  rw [← hw] at hwidth
  obtain ⟨hfull, hpos⟩ := hwidth
  have hfit : j * w + w ≤ 512 := by
    calc j * w + w = w * (j + 1) := by rw [Nat.mul_comm, Nat.mul_succ]
      _ ≤ w * (512 / w) := Nat.mul_le_mul_left _ hj
      _ = 512 := hfull
  unfold kblockSlab
  rw [← hw]
  dsimp only
  rw [field_block (L := 512) (fun a => ?_) (by rw [List.length_range]; exact hi) hfit, List.getElem_range, Nat.mul_comm j w,
    field_flatMap _ (by rw [List.length_range]; exact hj), List.getElem_range, field_row hfit, Nat.mul_comm w j]
  · simp only [Nat.zero_mul, Nat.zero_add]
  · rw [length_blocks (fun b => length_leBytes _ w), List.length_range, Nat.mul_comm, hfull]

theorem kblockSlab_length (f : Nat) (sat fresh : Bool) (old : List Byte) (as bs : List (List XNum)) (ri cj : Nat) :
    (kblockSlab f sat fresh old as bs ri cj).length = 65536 := by
  obtain ⟨hfull, -⟩ := kblock_width f
  unfold kblockSlab
  dsimp only at hfull ⊢
  rw [length_blocks (L := 512) fun a => ?_, List.length_range]
  rw [length_blocks fun b => length_leBytes _ _, List.length_range, Nat.mul_comm, hfull]

/-- A K-block of a format in groups of 32 has one group. -/
theorem kblockElem_one {f : Nat} (h32 : fmtTy f ≠ .f32) (h64 : fmtTy f ≠ .f64) (sat : Bool) (acc : Nat) (a b : List XNum) :
    kblockElem f sat acc a b = accumulate f sat acc (dotGroup (a.take 32) (b.take 32)) := by
  have hlen : groupLen f = 32 := by
    unfold groupLen
    split
    · exact absurd ‹_› h32
    · exact absurd ‹_› h64
    · rfl
  unfold kblockElem
  rw [hlen]
  rfl

/-! ### The step of the array -/

theorem mmaKblockWrite_goesOn {g k : Nat} {x : Group} {r : SeqRec} {m : MmaOp} {s : State} (hx : group? s g = some x) (hr : x.seq.recs[k]? = some r)
    (hi : recInstr r = some (.mma m)) (hf : x.frozen = false) (he : earlierMma x k = false) (ha : arrayNext s x.core = some (lowestSlab x))
    (hmore : r.prog + 1 < r.kb0 + m.kbn.toNat) :
    exec (.mmaKblockWrite g k) s = .next (keep s (setRec g { r with prog := r.prog + 1 }
      (arith 1 (writeKblock g x m r { s with arrayTurn := sset x.core (lowestSlab x) s.arrayTurn })))) := by
  rw [exec_mmaKblockWrite, execMmaKblockWrite, hx]
  simp only [hr, hi, hf, he, ha, bne_self_eq_false, Bool.or_self, Bool.false_eq_true, if_false, hmore, if_true]
  rfl

theorem mmaKblockWrite_ends {g k : Nat} {x : Group} {r : SeqRec} {m : MmaOp} {s : State} (hx : group? s g = some x) (hr : x.seq.recs[k]? = some r)
    (hi : recInstr r = some (.mma m)) (hf : x.frozen = false) (he : earlierMma x k = false) (ha : arrayNext s x.core = some (lowestSlab x))
    (hlast : r.kb0 + m.kbn.toNat ≤ r.prog + 1) :
    exec (.mmaKblockWrite g k) s = .next (keep s (settleGroup g (wake ((tilesOf r).foldl (fun s t => releaseTile g t s) (dropRec g r.id
      (arith 1 (writeKblock g x m r { s with arrayTurn := sset x.core (lowestSlab x) s.arrayTurn }))))))) := by
  have hmore : ¬ r.prog + 1 < r.kb0 + m.kbn.toNat := by omega
  rw [exec_mmaKblockWrite, execMmaKblockWrite, hx]
  simp only [hr, hi, hf, he, ha, bne_self_eq_false, Bool.or_self, Bool.false_eq_true, if_false, hmore]
  rfl

/-- The rows of a K-block as the array reads them: n rows of a handle's planes from a row block on. -/
def planeRows (h : Handle) (plane : Mem) (row kb n : Nat) : List (List XNum) := (List.range n).map fun i => planeRow h plane (row + i) kb

theorem planeRows_getD {h : Handle} {plane : Mem} {row kb n i : Nat} (hi : i < n) : (planeRows h plane row kb n).getD i [] = planeRow h plane (row + i) kb := by
  simp [planeRows, List.getD_eq_getElem?_getD, hi]

/-- The bytes that a K-block leaves in the one slab of its accumulator. -/
def kblockBytes (x : Group) (m : MmaOp) (r : SeqRec) (p : Nat) (s : State) : List Byte :=
  kblockSlab (hFmt r.handleA) m.sat (m.z && r.prog == r.kb0) (denseSlab (slabAt s x.core p))
    (planeRows r.handleA x.plane (m.arow.toNat * 128) r.prog 128)
    (planeRows r.handleB x.plane (m.brow.toNat * 128) r.prog (if fmtTy (hFmt r.handleA) = .f64 then 64 else 128)) 0 0

theorem writeKblock_one {g p : Nat} {x : Group} {m : MmaOp} {r : SeqRec} {s : State} (hshape : m.shape = .t1x1) (hphys : r.phys = [p]) :
    ∃ n, writeKblock g x m r s = charge x.ctx n (setSlab x.core p (sparseFrom 0 (kblockBytes x m r p s)) s) := by
  refine ⟨weightOf s x.ctx x.core 13 * 1, ?_⟩
  unfold writeKblock kblockBytes planeRows
  rw [hphys, hshape]
  simp only [shapeRows, shapeCols, List.length_singleton, List.range_one, List.foldl_cons, List.foldl_nil, Nat.mul_one, Nat.zero_div, Nat.zero_mod,
    List.getD_cons_zero]

theorem slabAt_setSlab {core p q : Nat} (d : Sparse Byte) {s : State} (hin : (sget (core * 8 + p) s.slabs).isSome = true) :
    slabAt (setSlab core p d s) core q = if q = p then d else slabAt s core q := by
  rw [slabAt, setSlab, sget_smod]
  by_cases hq : q = p
  · subst hq
    obtain ⟨b, hb⟩ := Option.isSome_iff_exists.1 hin
    rw [if_pos rfl, if_pos rfl, hb]
    rfl
  · rw [if_neg (by omega), if_neg hq]
    rfl

theorem kblockBytes_length (x : Group) (m : MmaOp) (r : SeqRec) (p : Nat) (s : State) : (kblockBytes x m r p s).length = 65536 := kblockSlab_length ..

theorem kblockBytes_field {x : Group} {m : MmaOp} {r : SeqRec} {p i j w : Nat} {s : State} (hw : w = if fmtTy (hFmt r.handleA) = .f64 then 8 else 4)
    (hi : i < 128) (hj : j < 512 / w) : field (kblockBytes x m r p s) (i * 512 + j * w) w =
      kblockElem (hFmt r.handleA) m.sat (if m.z = true ∧ r.prog = r.kb0 then 0 else field (denseSlab (slabAt s x.core p)) (i * 512 + j * w) w)
        (planeRow r.handleA x.plane (m.arow.toNat * 128 + i) r.prog) (planeRow r.handleB x.plane (m.brow.toNat * 128 + j) r.prog) % 256 ^ w := by
  have hcols : j < if fmtTy (hFmt r.handleA) = .f64 then 64 else 128 := by
    rw [hw] at hj
    split at hj <;> split <;> simp_all
  rw [kblockBytes, kblockSlab_field hw hi hj, planeRows_getD hi, planeRows_getD hcols]
  simp only [Bool.and_eq_true, beq_iff_eq]

theorem group_setRec {g : Nat} {s : State} {x : Group} (h : group? s g = some x) (r : SeqRec) :
    group? (setRec g r s) g = some { x with seq := { x.seq with recs := x.seq.recs.map fun y => if y.id = r.id then r else y } } :=
  group_modSeq_same h

/-- A K-block that is not the last: what its step leaves in the record, the slabs and memory. -/
theorem mmaKblockWrite_adds {g k p : Nat} {x : Group} {r : SeqRec} {m : MmaOp} {s : State} (hx : group? s g = some x) (hr : x.seq.recs[k]? = some r)
    (hi : recInstr r = some (.mma m)) (hf : x.frozen = false) (he : earlierMma x k = false) (ha : arrayNext s x.core = some (lowestSlab x))
    (hshape : m.shape = .t1x1) (hphys : r.phys = [p]) (hin : (sget (x.core * 8 + p) s.slabs).isSome = true) (hmore : r.prog + 1 < r.kb0 + m.kbn.toNat) :
    ∃ t x', exec (.mmaKblockWrite g k) s = .next t ∧ t.mem = s.mem ∧ group? t g = some x' ∧ x'.seq.recs[k]? = some { r with prog := r.prog + 1 } ∧
      ∀ q, slabAt t x.core q = if q = p then sparseFrom 0 (kblockBytes x m r p s) else slabAt s x.core q := by
  obtain ⟨n, hwrite⟩ := writeKblock_one (g := g) (s := { s with arrayTurn := sset x.core (lowestSlab x) s.arrayTurn }) hshape hphys
  have hexec := mmaKblockWrite_goesOn hx hr hi hf he ha hmore
  rw [hwrite] at hexec
  generalize hd : sparseFrom 0 (kblockBytes x m r p { s with arrayTurn := sset x.core (lowestSlab x) s.arrayTurn }) = d at hexec
  refine ⟨_, _, hexec, rfl,
    group_setRec (s := arith 1 (charge x.ctx n (setSlab x.core p d { s with arrayTurn := sset x.core (lowestSlab x) s.arrayTurn }))) hx _, ?_, fun q => ?_⟩
  · dsimp only
    rw [List.getElem?_map, hr, Option.map_some, if_pos rfl]
  · refine (slabAt_setSlab (s := { s with arrayTurn := sset x.core (lowestSlab x) s.arrayTurn }) d hin).trans ?_
    rw [← hd]
    rfl

theorem kblocks_add : KblocksAdd := by
  refine ⟨fun g k x r m p s hx hr hi hf he ha hshape hphys hin _ hmore => ?_, fun f sat acc a b h32 h64 hint => ?_, fun f sat acc a b h32 h64 hint => ?_⟩
  · intro w
    obtain ⟨t, x', hexec, hmem, hx', hrec, hslab⟩ := mmaKblockWrite_adds hx hr hi hf he ha hshape hphys hin hmore
    refine ⟨t, x', hexec, hmem, hx', hrec, fun q hq _ => by rw [hslab, if_neg hq], fun i j hi' hj => ?_⟩
    rw [hslab, if_pos rfl, denseSlab_sparseFrom (kblockBytes_length ..), pow_mul]
    exact kblockBytes_field rfl hi' hj
  · rw [kblockElem_one h32 h64, accumulate, if_neg (by simp [hint]), if_neg h64]
  · rw [kblockElem_one h32 h64, accumulate, if_pos hint]

end Sys2Proof.Laws
end

section
/-! SUPPORT. A row of an epilogue that goes to the scratchpad: the record that counts it, the bytes it stores, and what its end leaves (R169, R171). -/

open Sys2Proof Sys2Proof.Machine

namespace Sys2Proof.Laws

/-! ### A record among the records of its sequencer -/

/-- The records with a change of the one of an identifier. -/
def onRec (id : Nat) (f : SeqRec → SeqRec) (l : List SeqRec) : List SeqRec := l.map fun r => if r.id = id then f r else r

theorem onRec_onRec {id : Nat} {f h : SeqRec → SeqRec} (hf : ∀ r, (f r).id = r.id) (l : List SeqRec) : onRec id h (onRec id f l) = onRec id (fun r => h (f r)) l := by
  rw [onRec, onRec, onRec, List.map_map]
  refine List.map_congr_left fun r _ => ?_
  simp only [Function.comp]
  by_cases hr : r.id = id
  · simp only [hr, if_true, hf]
  · simp only [hr, if_false]

theorem onRec_at {id k : Nat} {f : SeqRec → SeqRec} {l : List SeqRec} {r : SeqRec} (h : l[k]? = some r) (hid : r.id = id) :
    (onRec id f l)[k]? = some (f r) := by
  rw [onRec, List.getElem?_map, h, Option.map_some, if_pos hid]

/-- Where identifiers differ, a record is the one its identifier finds. -/
theorem find_rec {k : Nat} {l : List SeqRec} {r : SeqRec} (h : l[k]? = some r) (hnodup : (l.map (·.id)).Nodup) :
    l.find? (fun y => y.id == r.id) = some r := by
  obtain ⟨hk, rfl⟩ := List.getElem?_eq_some_iff.1 h
  cases hfind : l.find? (fun y => y.id == l[k].id) with
  | none => simpa using List.find?_eq_none.1 hfind l[k] (List.getElem_mem hk)
  | some y =>
    obtain ⟨j, hj, rfl⟩ := List.getElem_of_mem (List.mem_of_find?_eq_some hfind)
    have hid : l[j].id = l[k].id := by simpa using List.find?_some hfind
    have hjk : j = k := by
      refine (List.Nodup.getElem_inj_iff hnodup (hi := by simpa using hj) (hj := by simpa using hk)).1 ?_
      rwa [List.getElem_map, List.getElem_map]
    subst hjk
    rfl

theorem find_onRec {id : Nat} {f : SeqRec → SeqRec} {l : List SeqRec} {r : SeqRec} (hf : ∀ r, (f r).id = r.id) (h : l.find? (fun y => y.id == id) = some r) :
    (onRec id f l).find? (fun y => y.id == id) = some (f r) := by
  have hp : ∀ y : SeqRec, ((if y.id = id then f y else y).id == id) = (y.id == id) := fun y => by split <;> simp [hf]
  have hid : r.id = id := by simpa using List.find?_some h
  rw [onRec, List.find?_map]
  simp only [Function.comp_def, hp]
  rw [h, Option.map_some, if_pos hid]

/-- A group with other records and another scratchpad. -/
def withRow (x : Group) (recs : List SeqRec) (scratch : Mem) : Group := { x with scratch := scratch, seq := { x.seq with recs := recs } }

theorem group_modRec {g id : Nat} {f : SeqRec → SeqRec} {s : State} {x : Group} {l : List SeqRec} {m : Mem} (h : group? s g = some (withRow x l m)) :
    group? (modRec g id f s) g = some (withRow x (onRec id f l) m) := group_modSeq_same h

theorem group_localWrite {g o : Nat} {bs : List Byte} {s : State} {x : Group} {l : List SeqRec} {m : Mem} (h : group? s g = some (withRow x l m)) :
    group? (localWrite g 0 o bs s) g = some (withRow x l (writeBytes m o bs)) := by
  rw [localWrite, group_modGroup, if_pos rfl, h]
  rfl

/-! ### The end of a row -/

theorem releases_leave {α : Type} (f : α → BitVec 32) (l : List α) (s : State) :
    (l.foldl (fun s i => releaseTag (f i) s) s).groups = s.groups ∧ (l.foldl (fun s i => releaseTag (f i) s) s).mem = s.mem ∧
      (l.foldl (fun s i => releaseTag (f i) s) s).slabs = s.slabs := by
  have hone : ∀ (s : State) t, (releaseTag t s).groups = s.groups ∧ (releaseTag t s).mem = s.mem ∧ (releaseTag t s).slabs = s.slabs := fun s t => by
    unfold releaseTag
    dsimp only
    split <;> exact ⟨rfl, rfl, rfl⟩
  induction l generalizing s with
  | nil => exact ⟨rfl, rfl, rfl⟩
  | cons a l ih =>
    obtain ⟨h1, h2, h3⟩ := ih (releaseTag (f a) s)
    obtain ⟨k1, k2, k3⟩ := hone s (f a)
    exact ⟨h1.trans k1, h2.trans k2, h3.trans k3⟩

theorem clearRow_leaves (core : Nat) (r : SeqRec) (sh : Shape) (i : Nat) (s : State) :
    (clearRow core r sh i s).groups = s.groups ∧ (clearRow core r sh i s).mem = s.mem := by
  unfold clearRow
  generalize List.range (shapeCols sh) = l
  induction l generalizing s with
  | nil => exact ⟨rfl, rfl⟩
  | cons a l ih => exact ih _

/-- A record counts the bytes of a row that has ended. -/
def countsRow (row : Nat) (r : SeqRec) : SeqRec := { r with bytes := r.bytes + sgetD row 0 r.part, part := sdel row r.part }

/-- The state once the record has counted a row and the row's tags are free. -/
def rowCounted (g id row : Nat) (x : Group) (r : SeqRec) (s : State) : State :=
  (List.range (Ep.tags r.desc)).foldl (fun s i => releaseTag (rowTag x r row i) s) (modRec g id (countsRow row) s)

/-- A row of which nothing is on its way ends: it is counted, and the accumulator's row cleared where the descriptor asks for it. -/
theorem rowEnds_cases {g id row : Nat} {s : State} {x : Group} {r : SeqRec} (h : group? s g = some x)
    (hfind : x.seq.recs.find? (fun y => y.id == id) = some r) (hleft : r.left = []) (hbad : r.bad = []) :
    rowEnds g id row s = rowCounted g id row x r s ∨
      (Ep.clr r.desc = true ∧ ∃ sh, rowEnds g id row s = clearRow x.core r sh row (rowCounted g id row x r s)) := by
  unfold rowEnds
  rw [h]
  dsimp only
  rw [hfind]
  dsimp only
  rw [hleft, hbad, if_neg (by simp)]
  split
  · next sh _ _ _ =>
    split
    · next hclr => exact .inr ⟨hclr, sh, rfl⟩
    · exact .inl rfl
  · exact .inl rfl

theorem rowEnds_counts {g id row : Nat} {s : State} {x : Group} {l : List SeqRec} {m : Mem} {r : SeqRec} (h : group? s g = some (withRow x l m))
    (hfind : l.find? (fun y => y.id == id) = some r) (hleft : r.left = []) (hbad : r.bad = []) :
    group? (rowEnds g id row s) g = some (withRow x (onRec id (countsRow row) l) m) ∧ (rowEnds g id row s).mem = s.mem ∧
      (Ep.clr r.desc = false → (rowEnds g id row s).slabs = s.slabs) := by
  obtain ⟨hgroups, hmem, hslabs⟩ := releases_leave (fun i => rowTag (withRow x l m) r row i) (List.range (Ep.tags r.desc)) (modRec g id (countsRow row) s)
  have hends : ∀ t : State, t.groups = (rowCounted g id row (withRow x l m) r s).groups → group? t g = some (withRow x (onRec id (countsRow row) l) m) :=
    fun t ht => by
      rw [group?, ht, rowCounted, hgroups]
      exact group_modRec h
  rcases rowEnds_cases (row := row) h hfind hleft hbad with heq | ⟨hclr, sh, heq⟩
  · rw [heq]
    exact ⟨hends _ rfl, hmem, fun _ => hslabs⟩
  · obtain ⟨hcg, hcm⟩ := clearRow_leaves x.core r sh row (rowCounted g id row (withRow x l m) r s)
    rw [heq]
    exact ⟨hends _ hcg, hcm.trans hmem, fun h => absurd (h.symm.trans hclr) Bool.false_ne_true⟩

/-! ### A row that goes to the scratchpad -/

/-- What a retired row changes in its record: the next row is its successor's, its turn is over, and it is no row to skip. -/
def nextRow (row turn : Nat) (r : SeqRec) : SeqRec := { r with prog := row + 1, turn := turn, skip := r.skip.erase row }

/-- The state once a row's bytes stand in the scratchpad. -/
def rowStored (g : Nat) (r : SeqRec) (o : Nat) (bs : List Byte) (s : State) : State :=
  modRec g r.id (SeqRec.took r.prog bs.length) (localWrite g 0 o bs (modRec g r.id (nextRow r.prog s.fresh) { s with fresh := s.fresh + 1 }))

theorem retireRow_local {g n : Nat} {x : Group} {c : Ctx} {sh : Shape} {r : SeqRec} {p : Long} {s : State} (hskip : r.skip.contains r.prog = false)
    (htarget : Ep.target r.desc < 2) (hruns : rowRuns sh r r.prog = [(p, n)]) (hp : ptrSpace p = .loc) :
    retireRow g x c sh r s = rowEnds g r.id r.prog (rowStored g r (ptrOff p) (epilogueRow r.desc sh (tileRow s x.core r sh r.prog)).1 s) := by
  unfold retireRow
  dsimp only
  rw [if_neg (by rw [hskip]; exact Bool.false_ne_true), if_pos htarget, hruns]
  simp only [List.length_singleton, List.range_one, List.foldl_cons, List.foldl_nil, ne_eq, not_true_eq_false, if_false, List.getD_cons_zero, if_true,
    epilogueWrite, hp]
  rfl

theorem rowStored_leaves {g o : Nat} {r : SeqRec} {bs : List Byte} {x : Group} {s : State} (hx : group? s g = some x) :
    group? (rowStored g r o bs s) g = some (withRow x (onRec r.id (fun y => SeqRec.took r.prog bs.length (nextRow r.prog s.fresh y)) x.seq.recs)
      (writeBytes x.scratch o bs)) ∧ (rowStored g r o bs s).mem = s.mem ∧ (rowStored g r o bs s).slabs = s.slabs := by
  refine ⟨?_, rfl, rfl⟩
  have hx' : group? ({ s with fresh := s.fresh + 1 } : State) g = some (withRow x x.seq.recs x.scratch) := hx
  have h := group_modRec (id := r.id) (f := SeqRec.took r.prog bs.length) (group_localWrite (o := o) (bs := bs)
    (group_modRec (id := r.id) (f := nextRow r.prog s.fresh) hx'))
  rw [onRec_onRec (f := nextRow r.prog s.fresh) fun _ => rfl] at h
  exact h

/-- An epilogue with rows to go and no error goes on. -/
theorem settleMepi_goesOn {g id : Nat} {x : Group} {r : SeqRec} {s : State} (hx : group? s g = some x) (hfind : x.seq.recs.find? (fun y => y.id == id) = some r)
    (hmore : r.prog < r.rows) (hok : (r.status != 0 && decide (Ep.target r.desc < 2)) = false) : settleMepi g id s = s := by
  have hrows : ¬ r.rows ≤ r.prog := by omega
  unfold settleMepi
  rw [hx]
  dsimp only
  rw [hfind]
  simp only [hok, hrows, decide_false, Bool.or_self, Bool.and_false, Bool.false_and, Bool.false_eq_true, if_false]

theorem mepiRowRetire_goes {g k : Nat} {x : Group} {r : SeqRec} {c : Ctx} {sh : Shape} {a : Opnd} {d : BitVec 19} {s : State} (hx : group? s g = some x)
    (hr : x.seq.recs[k]? = some r) (hc : ctx? s x.ctx = some c) (hi : recInstr r = some (.mepi sh a d)) (hready : mepiReady x r = true)
    (hfirst : mepiBefore s x r = false) (hgo : rowSays s x c sh r = .go) :
    exec (.mepiRowRetire g k) s = .next (keep s (settleMepi g r.id (retireRow g x c sh r (arith 1 s)))) := by
  rw [exec_mepiRowRetire, execMepiRowRetire, hx]
  simp only [hr, hc, hi, hready, hfirst, Bool.not_true, Bool.or_self, Bool.false_eq_true, if_false, hgo]
  rfl

theorem rows_store : RowsStore := by
  refine ⟨?_, fun b sh row h => if_pos h, fun sh r i => rfl⟩
  intro g k x r c sh a d p n s hx hr hc hi hready hfirst hgo htarget hskip hruns hp hmore hleft hbad hnodup
  have hexec := mepiRowRetire_goes hx hr hc hi hready hfirst hgo
  have hrow : tileRow (arith 1 s) x.core r sh r.prog = tileRow s x.core r sh r.prog := rfl
  rw [retireRow_local hskip htarget hruns hp, hrow] at hexec
  generalize (epilogueRow r.desc sh (tileRow s x.core r sh r.prog)).1 = bs at hexec ⊢
  obtain ⟨hg1, hm1, hs1⟩ := rowStored_leaves (r := r) (o := ptrOff p) (bs := bs) (s := arith 1 s) hx
  have hfind1 := find_onRec (f := fun y => SeqRec.took r.prog bs.length (nextRow r.prog (arith 1 s).fresh y)) (fun _ => rfl) (find_rec hr hnodup)
  obtain ⟨hg2, hm2, hs2⟩ := rowEnds_counts (row := r.prog) hg1 hfind1 hleft hbad
  rw [onRec_onRec (f := fun y => SeqRec.took r.prog bs.length (nextRow r.prog (arith 1 s).fresh y)) fun _ => rfl] at hg2
  have hfind2 := find_onRec (f := fun y => countsRow r.prog (SeqRec.took r.prog bs.length (nextRow r.prog (arith 1 s).fresh y))) (fun _ => rfl) (find_rec hr hnodup)
  have hok : (r.status != 0 && decide (Ep.target r.desc < 2)) = false := by
    simp only [mepiReady, Bool.and_eq_true, Bool.not_eq_true'] at hready
    exact hready.2
  rw [settleMepi_goesOn hg2 hfind2 hmore hok] at hexec
  exact ⟨_, _, _, hexec, hm2.trans hm1, hg2, onRec_at hr rfl, rfl, rfl, rfl, fun hclr => (hs2 hclr).trans hs1⟩

/-! ### The obligation -/

/-- Settles O47: a lane's choice starts a ply; commands start in order, a COPY moves its bytes, a GATHER sums its bags, an add lands once, a SORT
is stable, a collective keeps each value with its index, faults pause commands, completions are recorded, a K-block adds to its slab and an epilogue
stores its row. -/
theorem unitEvents : Obligations.UnitEvents := by
  unfold Obligations.UnitEvents
  refine ⟨⟨plies_start, starts_inOrder, copies_move, gathers_sum, adds_land, stableOrder_sorts, exchanges_keep, commands_fault, commands_complete,
      kblocks_add, rows_store⟩,
    fun core lane g x k s hc hr => laneChoice_starts hc hr, fun core lane g x k e s hc hr => laneChoice_retries hc hr,
    fun e k s h => engineCommandStart_starts h, fun k c s hc hkind ha hm => reducerAdd_adds hc hkind ha hm,
    fun k c cause v s hc hf => engineAccessFault_pauses hc hf, fun k c st s hc hf => engineAccessFault_stops hc hf,
    fun k c s s1 b hc hd ha hr => commandComplete_ends hc hd ha hr, fun g k x r m s hx hr hi hf he ha => ?_,
    fun g k x r c sh a d s hx hr hc hi hready hfirst hgo => mepiRowRetire_goes hx hr hc hi hready hfirst hgo⟩
  intro s1
  exact ⟨mmaKblockWrite_goesOn hx hr hi hf he ha, mmaKblockWrite_ends hx hr hi hf he ha⟩

end Sys2Proof.Laws
end
